-- ==== Sys2Proof/Word.lean ====
section
/-! DEFINITION. The plain carriers of the model: bytes, words, reference-clock instants, and a register
file of a fixed number of like records. -/

set_option Elab.async false

namespace Sys2Proof

/-- One byte on a master port or in a link segment. -/
abbrev Byte := BitVec 8

/-- One word of the sample line (01, the sample line: words of 16 bits). -/
abbrev Word := BitVec 16

/-- A reference-clock instant, or a duration, in counts of 10 ns (11, pin summary: 100 MHz). -/
abbrev Instant := Nat

/-- Milliseconds as reference-clock counts. -/
def ms (n : Nat) : Nat := n * 100000

/-- Microseconds as reference-clock counts. -/
def us (n : Nat) : Nat := n * 100

/-- A fixed number of like cells, one for each index. -/
structure File (α : Type) (n : Nat) where
  cells : List α
  size : cells.length = n
  deriving DecidableEq, Repr

namespace File

variable {α β : Type} {n : Nat}

/-- The cell at an index. -/
def get (v : File α n) (i : Fin n) : α :=
  v.cells.get (i.cast v.size.symm)

/-- The file with one cell replaced. -/
def set (v : File α n) (i : Fin n) (x : α) : File α n :=
  ⟨v.cells.set i.val x, by rw [List.length_set]; exact v.size⟩

/-- Every cell through one function. -/
def map (f : α → β) (v : File α n) : File β n :=
  ⟨v.cells.map f, by rw [List.length_map]; exact v.size⟩

/-- The same value in every cell. -/
def fill (n : Nat) (x : α) : File α n :=
  ⟨List.replicate n x, List.length_replicate⟩

/-- The first `n` elements of a list, `x` where the list is shorter. -/
def ofList (n : Nat) (x : α) (l : List α) : File α n :=
  ⟨(l ++ List.replicate n x).take n, by
    rw [List.length_take, List.length_append, List.length_replicate]; omega⟩

end File

/-- Every index of a file of eight, in order (F0 to F7). -/
def eight : List (Fin 8) := [0, 1, 2, 3, 4, 5, 6, 7]

end Sys2Proof
end

