-- ==== Sys2Proof/Syntax.lean ====
section
/-! DEFINITION. The commands of the CF8: one constructor for each row of spec/opcode_table.json, with the
operands the spec's chapters give the event. A request of a master port takes the oldest buffered frame of
that port (11 R199), so its only operand is the port: its arguments are that frame's body (log 5). -/

set_option Elab.async false

namespace Sys2Proof

/-- A feeder index: F0 to F7. -/
abbrev Feeder := Fin 8

/-- A master port, and its master: Station Processor A, Station Processor B, Telecontrol Gateway G. -/
inductive Port where
  | A | B | G
  deriving DecidableEq, Repr

/-- A section link. -/
inductive LinkId where
  | link0 | link1
  deriving DecidableEq, Repr

/-- A runner of programmes. -/
inductive RunnerId where
  | runner0 | runner1
  deriving DecidableEq, Repr

/-- One of the nine things under control authority: F0 to F7, and R. -/
inductive Item where
  | feeder (f : Feeder)
  | rectifier
  deriving DecidableEq, Repr

/-- A breaker with a position input block: a feeder's, or the AC breaker (02 R18, R22). -/
inductive Breaker where
  | feeder (f : Feeder)
  | ac
  deriving DecidableEq, Repr

/-- An auxiliary contact: a is made when the breaker is closed, b when it is open. -/
inductive Contact where
  | a | b
  deriving DecidableEq, Repr

/-- A data slot as the transceiver delivers it; `undecodable` is any other pattern (07 R131). -/
inductive RxData where
  | byte (b : Byte)
  | idle | segStart | segEnd | undecodable
  deriving DecidableEq, Repr

/-- A received link word: its signal slot (`none`: a pattern that decodes to no byte) and its data slot. -/
structure RxWord where
  signal : Option Byte
  data : RxData
  deriving DecidableEq, Repr

/-- What a port has clocked when a frame is judged (11 R197): the bytes in since the last frame of the selection, and how
many bytes of the head response have gone out in it (log 6, log 45). -/
structure Clocked where
  bytes : List Byte
  out : Nat
  deriving DecidableEq, Repr

/-- The commands. -/
inductive Instr where
  /-- POWER_ON: power is applied. -/
  | powerOn
  /-- RESET_LINE_ASSERT. -/
  | resetLineAssert
  /-- RESET_LINE_RELEASE. -/
  | resetLineRelease
  /-- FRAME_START: frame start is asserted; `trailing` words had arrived after the last frame's 34th. -/
  | frameStart (trailing : Nat)
  /-- FRAME_COMPLETE: the 34th word of the frame under reception arrives; the frame's words. -/
  | frameComplete (words : File Word 34)
  /-- FRAME_WATCH_EXPIRY. -/
  | frameWatchExpiry
  /-- SET_SLOTS. -/
  | setSlots (p : Port)
  /-- CONTACT_CHANGE: an auxiliary contact is now made or open. -/
  | contactChange (b : Breaker) (c : Contact) (made : Bool)
  /-- POSITION_DEBOUNCE_EXPIRY. -/
  | positionDebounceExpiry (b : Breaker)
  /-- POSITION_FAULT. -/
  | positionFault (b : Breaker)
  /-- KEY_INPUT_CHANGE: the location key contact is now made or open. -/
  | keyInputChange (made : Bool)
  /-- LOCATION_CHANGED. -/
  | locationChanged
  /-- FAR_STATE_STALE. -/
  | farStateStale (f : Feeder)
  /-- BLIND_DEADLINE_EXPIRY. -/
  | blindDeadlineExpiry (f : Feeder)
  /-- TRIP_REQUEST. -/
  | tripRequest (f : Feeder)
  /-- TRIP_CONFIRM_LIMIT. -/
  | tripConfirmLimit (f : Feeder)
  /-- OPEN_FEEDER. -/
  | openFeeder (p : Port)
  /-- CLOSE_FEEDER. -/
  | closeFeeder (p : Port)
  /-- RESET_LOCKOUT. -/
  | resetLockout (p : Port)
  /-- CLAIM_DEADLINE. -/
  | claimDeadline (f : Feeder)
  /-- TEST_END. -/
  | testEnd (f : Feeder)
  /-- CLOSE_CONFIRM_LIMIT. -/
  | closeConfirmLimit (f : Feeder)
  /-- RECLOSE_DUE. -/
  | recloseDue (f : Feeder)
  /-- RECLAIM_WATCH_EXPIRY. -/
  | reclaimWatchExpiry (f : Feeder)
  /-- SET_FEEDER. -/
  | setFeeder (p : Port)
  /-- SET_STATION. -/
  | setStation (p : Port)
  /-- READ_SETTINGS. -/
  | readSettings (p : Port)
  /-- COMMIT_SETTINGS. -/
  | commitSettings (p : Port)
  /-- COMMIT_WRITE_END. -/
  | commitWriteEnd
  /-- READ_FEEDERS. -/
  | readFeeders (p : Port)
  /-- CLAIM. -/
  | claim (p : Port)
  /-- RELEASE. -/
  | release (p : Port)
  /-- LEASE_EXPIRY. -/
  | leaseExpiry (i : Item)
  /-- ZERO_CROSSING. -/
  | zeroCrossing
  /-- CROSSING_WATCH_EXPIRY. -/
  | crossingWatchExpiry
  /-- TICK. -/
  | tick
  /-- SET_ALPHA. -/
  | setAlpha (p : Port)
  /-- START_RECTIFIER. -/
  | startRectifier (p : Port)
  /-- STOP_RECTIFIER. -/
  | stopRectifier (p : Port)
  /-- RESET_RECTIFIER. -/
  | resetRectifier (p : Port)
  /-- READ_RECTIFIER. -/
  | readRectifier (p : Port)
  /-- AC_CLOSE_DEADLINE. -/
  | acCloseDeadline
  /-- AC_OPEN_DEADLINE. -/
  | acOpenDeadline
  /-- OVERVOLTAGE_RELEASE. -/
  | overvoltageRelease
  /-- LINK_WORD: a word arrives on a link. -/
  | linkWord (l : LinkId) (w : RxWord)
  /-- LIGHT_PRESENT_CHANGE: the light-present input of a link is now present or absent. -/
  | lightPresentChange (l : LinkId) (present : Bool)
  /-- LINK_WORD_TRANSMIT. -/
  | linkWordTransmit (l : LinkId)
  /-- ACCEPTANCE_WINDOW_CLOSE. -/
  | acceptanceWindowClose (l : LinkId) (f : Feeder)
  /-- BEACON_PERIOD. -/
  | beaconPeriod (l : LinkId)
  /-- BEACON_TIMEOUT. -/
  | beaconTimeout (l : LinkId)
  /-- SEGMENT_REFRESH. -/
  | segmentRefresh (l : LinkId)
  /-- GRANT_EXPIRED. -/
  | grantExpired (f : Feeder)
  /-- WRITE_SEGMENT. -/
  | writeSegment (p : Port)
  /-- READ_SEGMENT. -/
  | readSegment (p : Port)
  /-- READ_LINKS. -/
  | readLinks (p : Port)
  /-- SECOND_BOUNDARY. -/
  | secondBoundary
  /-- SLEW_STEP. -/
  | slewStep
  /-- SET_TIME. -/
  | setTime (p : Port)
  /-- TIME_RESTART. -/
  | timeRestart (p : Port)
  /-- READ_TIME. -/
  | readTime (p : Port)
  /-- LOAD_STEPS. -/
  | loadSteps (p : Port)
  /-- DEFINE_PROGRAMME. -/
  | defineProgramme (p : Port)
  /-- START_PROGRAMME. -/
  | startProgramme (p : Port)
  /-- STEP_DUE. -/
  | stepDue (r : RunnerId)
  /-- WAIT_LIMIT_EXPIRY. -/
  | waitLimitExpiry (r : RunnerId)
  /-- SUSPEND. -/
  | suspend (p : Port)
  /-- RESUME. -/
  | resume (p : Port)
  /-- STOP. -/
  | stop (p : Port)
  /-- CLEAR. -/
  | clear (p : Port)
  /-- READ_RUNNERS. -/
  | readRunners (p : Port)
  /-- READ_EVENTS. -/
  | readEvents (p : Port)
  /-- SUBSCRIBE. -/
  | subscribe (p : Port)
  /-- READ_CAPTURE. -/
  | readCapture (p : Port)
  /-- RELEASE_CAPTURE. -/
  | releaseCapture (p : Port)
  /-- REQUEST_FRAME_RECEIVED: the bytes in end with the frame's last CRC byte. -/
  | requestFrameReceived (p : Port) (c : Clocked)
  /-- BAD_FRAME. -/
  | badFrame (p : Port)
  /-- BAD_KIND. -/
  | badKind (p : Port)
  /-- SELECT_ASSERTED. -/
  | selectAsserted (p : Port)
  /-- SELECT_DEASSERTED: select ends; the bytes clocked in since the last frame of the selection. -/
  | selectDeasserted (p : Port) (bytes : List Byte)
  /-- RESPONSE_SENT. -/
  | responseSent (p : Port)
  /-- PORT_RESET: a PORT RESET frame with this tag passed its checks at reception. -/
  | portReset (p : Port) (tag : Byte)
  /-- IDENTIFY. -/
  | identify (p : Port)
  /-- FRAME_LENGTH_ABOVE_256: the bytes in end with the second length byte. -/
  | frameLengthAbove256 (p : Port) (c : Clocked)
  deriving DecidableEq, Repr

end Sys2Proof
end

