-- ==== Sys2Proof/Machine/State.lean ====
section
/-! DEFINITION. The state of the CF8 as plain data: every record of the spec's chapters, the outcome
reasons, and the state right after a reset. Names follow the spec's tables; a piece that is a function of
other state has no field (INVENTORY.md says which). -/

set_option Elab.async false

namespace Sys2Proof.Machine

/-! ## Names shared by the records -/

/-- Station time: seconds 0 to 2^32-1, fraction in units of 10 ns, 0 to 99,999,999 (00, Quantities). -/
structure StationTime where
  seconds : Nat
  fraction : Nat
  deriving DecidableEq, Repr

/-- What started an operation or an entry (00, Identifiers). -/
inductive Origin where
  | port (p : Port)
  | runner (r : RunnerId)
  | auto
  | protection
  | link (l : LinkId)
  deriving DecidableEq, Repr

/-- What an entry is about (10, entry fields). -/
inductive Subject where
  | feeder (f : Feeder)
  | rectifier
  | link (l : LinkId)
  | runner (r : RunnerId)
  | port (p : Port)
  | nothing
  deriving DecidableEq, Repr

/-- A breaker position, as read or debounced (02 R18, R19). -/
inductive Position where
  | opened | closed | invalid
  deriving DecidableEq, Repr

/-- The two contact combinations that read INVALID (02 R18). -/
inductive Combination where
  | bothOpen | bothMade
  deriving DecidableEq, Repr

/-- The control location (02 R34). -/
inductive Location where
  | localKey | remoteKey
  deriving DecidableEq, Repr

/-- The nine feeder states (02, Feeder states). -/
inductive FeederState where
  | opened | recloseWait | claiming | testing | closing | closed | tripping | breakerFailed | lockedOut
  deriving DecidableEq, Repr

/-- Causes of a feeder trip (02, Feeder Record). -/
inductive TripCause where
  | noCause | imax | rise | blind | transfer | commanded
  deriving DecidableEq, Repr

/-- Why a feeder is LOCKED_OUT (02, Feeder Record). -/
inductive LockoutReason where
  | attempts | breakerFailed
  deriving DecidableEq, Repr

/-- Protection groups (02 R33). -/
inductive GroupName where
  | normal | isolated
  deriving DecidableEq, Repr

/-- Test mode of a close operation (04). -/
inductive TestMode where
  | noTest | claimed | unclaimed
  deriving DecidableEq, Repr

/-- The interlock causes (11, response frame). -/
inductive InterlockCause where
  | notInService | busDead | measurementLost | farTest | lockedOut | breakerFailed | positionInvalid | state
  deriving DecidableEq, Repr

/-- What overtakes a close operation (04 R74). -/
inductive Overtaking where
  | openRequest | transferTrip | trip | uncommandedClose
  deriving DecidableEq, Repr

/-- Results of a close operation (04 R74). -/
inductive CloseResult where
  | closedOk | lineFaulty | claimTimeout | claimConflict | closeFailed
  | interlocked (c : InterlockCause)
  | aborted (e : Overtaking)
  deriving DecidableEq, Repr

/-- Why a sample frame was last discarded (01 R2, R7). -/
inductive DiscardCause where
  | noCause | length | marker | check | slotFault | repeated | starting
  deriving DecidableEq, Repr

/-- Why the Line Clock handed an UNLOCKED notice (06 R109). -/
inductive ClockCause where
  | window | slip | timeout
  deriving DecidableEq, Repr

/-- Rectifier states (06). -/
inductive RectState where
  | blocked | connecting | syncing | running | tripped
  deriving DecidableEq, Repr

/-- Causes of a rectifier trip (06, Rectifier Record). -/
inductive RectTripCause where
  | noCause | dcOvercurrent | feederBreakerFailed
  deriving DecidableEq, Repr

/-- Why a link left UP (07 R132). -/
inductive LinkDownCause where
  | badWords | noLight
  deriving DecidableEq, Repr

/-- Time roles (08 R160). -/
inductive TimeRole where
  | master | followLink0 | followLink1
  deriving DecidableEq, Repr

/-- Time quality (08 R160). -/
inductive TimeQuality where
  | unset | free | coarse | fine
  deriving DecidableEq, Repr

/-- Actions of a programme step (09). -/
inductive StepAction where
  | noAction | openFeeder | closeFeeder | setAlpha | startRectifier | stopRectifier | waitUntil | mark | finish
  deriving DecidableEq, Repr

/-- Failure causes of a step, and halt reasons (09 R177, 11 detail codes). -/
inductive FailureCause where
  | notAuthorised | notReady
  | interlocked (c : InterlockCause)
  | rectifierNotRunning | waitLimit
  | close (r : CloseResult)
  deriving DecidableEq, Repr

/-- Restart causes (11 R208). -/
inductive RestartCause where
  | powerOn | resetLine
  deriving DecidableEq, Repr

/-! ## Event entries (10) -/

/-- The entry kinds of the catalogue (10). -/
inductive EventKind where
  | trip | breakerFailed | lockout | ttIgnored | ttMisaddressed | captureHeld
  | tripCleared | unclaimedTest | lineTest | closeResult | recloseHeld | reclaimed | lockoutReset
  | openedUncommanded | closedUncommanded | positionFault | positionRestored
  | locationChanged | authorityGranted | authorityReleased | authorityExpired | authorityLost
  | syncLocked | syncSlip | syncLost | rectifierStart | acClosed | acCloseFailed | rectifierRunning
  | rectifierSyncing | rectifierTrip | rectifierStopped | acOpened | acBreakerFailed
  | acOpenedUncommanded | acClosedUncommanded | rectifierReset | overvoltageHold | overvoltageRelease
  | linkUp | linkDown | sectionMismatch | grantExpired | numberConflict | delayLocked | delayRestart
  | timeSet | timeRestart | timeStep | timeConflict | timeQuality
  | programmeStart | stepSkipped | stepFailed | programmeHalted | programmeMark | programmeEnd
  | programmeSuspended | programmeResumed | programmeStopped | programmeCleared
  | restart | settingsDefaulted | settingsCommitted | measurementLost | measurementValid
  | measurementDisabled
  deriving DecidableEq, Repr

/-- Entry classes, in the order of their codes (10). -/
inductive EventClass where
  | protection | operation | authority | rectifier | link | time | programme | system
  deriving DecidableEq, Repr

/-- The detail of an entry: what the adding rule names, with that kind's flags (10, 11). -/
inductive Detail where
  | nothing
  | discard (c : DiscardCause)
  | combination (c : Combination)
  | position (p : Position)
  | location (l : Location)
  | feederState (s : FeederState)
  | failedTrip (c : TripCause)
  | trip (c : TripCause) (isolated noCapture : Bool)
  | unclaimedTest (lost : Bool)
  | lineTest (healthy : Bool) (mode : TestMode)
  | closeResult (r : CloseResult)
  | interlock (c : InterlockCause)
  | lockout (r : LockoutReason)
  | capture (truncated : Bool)
  | release (byPortReset : Bool)
  | syncLost (c : ClockCause)
  | syncing (c : ClockCause)
  | rectTrip (c : RectTripCause)
  | rectState (s : RectState)
  | linkDown (c : LinkDownCause)
  | quality (q : TimeQuality)
  | timeStep (initial : Bool)
  | action (a : StepAction)
  | failure (c : FailureCause)
  | programmeEnd (ranOut : Bool)
  | restart (c : RestartCause)
  deriving DecidableEq, Repr

/-- An entry of the Event Record; its class is that of its kind (10, catalogue). -/
structure Entry where
  sequence : Nat
  time : StationTime
  quality : TimeQuality
  kind : EventKind
  subject : Subject
  origin : Origin
  detail : Detail
  value1 : Option Int
  value2 : Option Int
  capture : Option (Fin 4)
  deriving DecidableEq, Repr

/-- What one port has of the Event Record (10): cursor, event overrun, gap count, and its subscription,
one mark for each class in the order of the class codes. -/
structure PortCursor where
  next : Nat
  overrun : Bool
  gap : Nat
  classes : File Bool 8
  deriving DecidableEq, Repr

/-- The Event Record (10): the ring oldest first, the next sequence number, and the three ports. -/
structure EventRecord where
  ring : List Entry
  nextSequence : Nat
  cursors : File PortCursor 3
  deriving DecidableEq, Repr

/-! ## Settings (11) -/

/-- A slot map entry (01, slot map). -/
inductive SlotEntry where
  | unused
  | feederCurrent (f : Feeder)
  | feederVoltage (f : Feeder)
  | busVoltage
  | rectifierCurrent
  deriving DecidableEq, Repr

/-- A protection group (03): currents in amperes, rates per frame, Tr in frames. -/
structure Group where
  imax : Nat
  r1 : Nat
  r2 : Nat
  deltaI : Nat
  tr : Nat
  deriving DecidableEq, Repr

/-- The settings SET STATION carries (11): ms, tenths of a volt, ticks, amperes. -/
structure StationSettings where
  stationNumber : Nat
  timeRole : TimeRole
  leaseTime : Nat
  busLive : Nat
  alphaMin : Nat
  alphaMax : Nat
  ramp : Nat
  referenceOffset : Nat
  irmax : Nat
  uov : Nat
  urel : Nat
  deriving DecidableEq, Repr

/-- The settings SET FEEDER carries for one feeder (11): ms, percent, seconds. -/
structure FeederSettings where
  inService : Bool
  farLink : Option LinkId
  farFeeder : Feeder
  normal : Group
  isolated : Group
  blindLimit : Nat
  tripConfirm : Nat
  closeConfirm : Nat
  testTime : Nat
  healthy : Nat
  maxReclose : Nat
  recloseDelay : Nat
  reclaimTime : Nat
  deriving DecidableEq, Repr

/-- The whole of the working settings, or of a stored copy (11). -/
structure Settings where
  station : StationSettings
  slotMap : File SlotEntry 32
  feeders : File FeederSettings 8
  deriving DecidableEq, Repr

/-- A write of the store under way (11 R205). -/
structure Commit where
  snapshot : Settings
  origin : Origin
  startAt : Instant
  endAt : Instant
  deriving DecidableEq, Repr

/-- Where the working settings came from (11). -/
inductive SettingsSource where
  | store | defaults
  deriving DecidableEq, Repr

/-- The Settings block beside the working settings (11): the stored copy (`none`: it fails its check),
the commit state (`none`: IDLE), the store status VALID, the settings source and the changed mark. -/
structure SettingsStore where
  copy : Option Settings
  commit : Option Commit
  statusValid : Bool
  source : SettingsSource
  changed : Bool
  deriving DecidableEq, Repr

/-! ## Sample Port (01) -/

inductive SampleState where
  | disabled | starting | valid | lost
  deriving DecidableEq, Repr

/-- Where the reception of a frame stands (01 R1). -/
inductive Reception where
  | idle | receiving | complete
  deriving DecidableEq, Repr

/-- The eight statistics counters (01 R16). -/
structure SampleCounters where
  length : Nat
  marker : Nat
  check : Nat
  slotFault : Nat
  repeated : Nat
  starting : Nat
  gap : Nat
  lost : Nat
  deriving DecidableEq, Repr

/-- The 18 quantities of a frame, each a value or absent (01, slot map). -/
structure Quantities where
  ifs : File (Option Int) 8
  ufs : File (Option Int) 8
  ub : Option Int
  ir : Option Int
  deriving DecidableEq, Repr

/-- The last frame values (01 R13). -/
structure LastFrame where
  values : Quantities
  number : Option Nat
  time : Option StationTime
  deriving DecidableEq, Repr

/-- The Sample Port record (01); the slot map is in the working settings. -/
structure SamplePort where
  state : SampleState
  reception : Reception
  primed : Bool
  reference : Option Nat
  frameWatch : Option Instant
  outageStart : Option Instant
  outageLost : Nat
  discards : Nat
  lastDiscard : DiscardCause
  last : LastFrame
  counters : SampleCounters
  deriving DecidableEq, Repr

/-! ## Field inputs (02) -/

/-- A position input block (02 R18 to R22). `earlier` and `earlierSince` are the reading before the last
change and its instant, for a change that is undone within one instant. -/
structure ContactInput where
  a : Bool
  b : Bool
  reading : Position
  since : Instant
  earlier : Position
  earlierSince : Instant
  position : Option Position
  before : Option Position
  invalidSince : Option Instant
  reported : Bool
  deriving DecidableEq, Repr

/-- The key input and the control location (02 R34). -/
structure KeyInput where
  made : Bool
  since : Instant
  earlier : Bool
  earlierSince : Instant
  location : Location
  deriving DecidableEq, Repr

/-! ## Feeders and sections (02, 04) -/

inductive OperationKind where
  | close | opening
  deriving DecidableEq, Repr

/-- The operation in flight on a feeder (02 R25, 04). -/
structure Operation where
  kind : OperationKind
  origin : Origin
  startTime : StationTime
  startAt : Instant
  deadline : Option Instant
  testMode : TestMode
  deriving DecidableEq, Repr

/-- The Feeder Record (02). -/
structure FeederRecord where
  ready : Bool
  state : FeederState
  operation : Option Operation
  recloseDue : Option Instant
  deferred : Bool
  lockoutReason : Option LockoutReason
  lastTripCause : TripCause
  attempts : Nat
  group : GroupName
  lastIf : Option Int
  lastUf : Option Int
  peakIf : Nat
  reclaimStart : Option StationTime
  reclaimWatch : Option Instant
  deriving DecidableEq, Repr

inductive Match where
  | noFarEnd | matched | mismatch
  deriving DecidableEq, Repr

inductive ClaimState where
  | idle | claimSent | grantedToUs | grantedToFar
  deriving DecidableEq, Repr

/-- The Section Record (02); far link and far feeder are in the working settings. `farState` is `none` for
UNKNOWN; `heard` says whether a segment was taken since the far link came UP (02 R29). -/
structure SectionRecord where
  farState : Option FeederState
  farSeen : Option (StationTime × Instant)
  staleFrom : Option Instant
  matching : Match
  heard : Bool
  claim : ClaimState
  claimDeadline : Option Instant
  deriving DecidableEq, Repr

/-! ## Fault Detection (03) -/

/-- A mark of a history of three (03 R44, 06 R117, R122): `true` is PICKUP, `false` CLEAR. -/
abbrev Mark := Bool

/-- A trip request, and the last decision record (03 R54). -/
structure TripDecision where
  cause : TripCause
  group : GroupName
  frame : Option Nat
  current : Option Int
  voltage : Option Int
  value1 : Int
  value2 : Int
  time : StationTime
  deriving DecidableEq, Repr

/-- The Fault Detection record (03); `i0` is present in RISING and absent in QUIET. The blind deadline is
derived (03 R52). `requests` are those on their way to Breaker Control. -/
structure FaultRecord where
  active : Bool
  protectSince : Option Instant
  group : GroupName
  outstanding : Bool
  history : List Mark
  i0 : Option Int
  previousIf : Option Int
  riseCounter : Nat
  lowCount : Nat
  blindSince : Option Instant
  lastDecision : Option TripDecision
  requests : List TripDecision
  deriving DecidableEq, Repr

/-! ## Authority (05) -/

/-- An entry of the Authority Table whose holder is not NONE (05); `lease` is the lease time last applied. -/
structure Holding where
  holder : Port
  expiry : Instant
  grantedAt : Instant
  lease : Nat
  deriving DecidableEq, Repr

/-- The Authority Table (05): the entries F0 to F7 and then R, and its copy of the control location. -/
structure AuthorityTable where
  entries : File (Option Holding) 9
  location : Location
  deriving DecidableEq, Repr

/-! ## Rectifier (06) -/

inductive ClockState where
  | unlocked | acquiring | locked
  deriving DecidableEq, Repr

/-- The Line Clock record (06); deviations newest first. -/
structure LineClock where
  state : ClockState
  lastCrossing : Option Instant
  lastCrossingTime : Option StationTime
  period : Option Nat
  accepted : Nat
  deviations : List Int
  tick : Option Nat
  watch : Option Instant
  deriving DecidableEq, Repr

/-- The cycle values (06 R111). -/
structure CycleValues where
  offset : Nat
  alpha : Nat
  deriving DecidableEq, Repr

/-- An AC operation (06 R110). -/
structure AcOperation where
  kind : OperationKind
  origin : Origin
  startAt : Instant
  deadline : Instant
  overdue : Bool
  deriving DecidableEq, Repr

/-- The Rectifier Record (06). `overvoltageHold` is the instant the hold was set; `gates` the tick
boundaries left of each pulse, Y1 to Y6 and then D1 to D6, 0 for idle; `runOrigin` the origin of the START
that began the run (R121). -/
structure Rectifier where
  state : RectState
  target : Nat
  applied : Nat
  firstCycle : Bool
  cycle : Option CycleValues
  overvoltageHold : Option Instant
  measurementHold : Bool
  retard : File Bool 8
  ring : Nat
  gates : File Nat 12
  acOperation : Option AcOperation
  runOrigin : Origin
  lastTripCause : RectTripCause
  overvoltage : List Mark
  releaseSince : Option Instant
  overcurrent : List Mark
  deriving DecidableEq, Repr

/-! ## Section links (07) -/

inductive LinkState where
  | down | aligning | up
  deriving DecidableEq, Repr

inductive DelayStatus where
  | invalid | initial | locked
  deriving DecidableEq, Repr

/-- The signals of the code table (07), LATE codes under their plain signal. -/
inductive Signal where
  | transferTrip (f : Feeder)
  | testClaim (f : Feeder)
  | testGrant (f : Feeder)
  | testDone (f : Feeder)
  | beacon
  | beaconEcho
  | secondMark
  deriving DecidableEq, Repr

/-- An entry of the pending signal set (07 R137, R139). -/
structure PendingSignal where
  signal : Signal
  repeats : Nat
  due : Option Instant
  late : Bool
  deriving DecidableEq, Repr

/-- An acceptance window (07 R141): words counted, of eight, and whether it has acted. -/
structure Window where
  words : Nat
  acted : Bool
  deriving DecidableEq, Repr

/-- An outgoing segment 9 to 15 (07). -/
structure OutSegment where
  bytes : File Byte 16
  writer : Option Port
  deriving DecidableEq, Repr

/-- A segment in transfer (07 R152). -/
structure Transfer where
  number : Fin 16
  bytes : File Byte 16
  sent : Nat
  deriving DecidableEq, Repr

/-- The receive assembly (07 R153): the position within a segment, with the bytes so far. -/
inductive Assembly where
  | idle
  | number
  | data (n : Fin 16) (bytes : List Byte)
  | ending (n : Fin 16) (bytes : List Byte)
  | check1 (n : Fin 16) (bytes : List Byte)
  | check2 (n : Fin 16) (bytes : List Byte) (hi : Byte)
  deriving DecidableEq, Repr

/-- An incoming segment (07): `arrival` is `none` when never received; a fresh flag for each master. -/
structure InSegment where
  bytes : File Byte 16
  arrival : Option (StationTime × Instant)
  fresh : File Bool 3
  deriving DecidableEq, Repr

/-- The six link counters (07 R157). -/
structure LinkCounters where
  badWord : Nat
  down : Nat
  alignFail : Nat
  segCheck : Nat
  segNumber : Nat
  segFraming : Nat
  deriving DecidableEq, Repr

/-- A data slot as sent (07 R152). -/
inductive TxData where
  | byte (b : Byte)
  | idle | segStart | segEnd
  deriving DecidableEq, Repr

/-- A word as sent: its signal code (0x00 is NONE) and its data slot. -/
structure TxWord where
  code : Byte
  data : TxData
  deriving DecidableEq, Repr

/-- The Section Link record (07); the one-way delay is half the loop average. -/
structure SectionLink where
  state : LinkState
  light : Bool
  goodRun : Nat
  badRun : Nat
  upSince : Option Instant
  farStation : Option Nat
  conflict : Bool
  conflictReported : Bool
  delayStatus : DelayStatus
  measurements : List Nat
  loopAverage : Nat
  goodCount : Nat
  beaconOutstanding : Option Instant
  beaconFrom : Option Instant
  refreshFrom : Option Instant
  pendingSet : List PendingSignal
  windows : File (Option Window) 8
  outgoing : File OutSegment 7
  queued : File Bool 16
  transfer : Option Transfer
  nextWord : Instant
  lastWord : TxWord
  assembly : Assembly
  incoming : File InSegment 16
  counters : LinkCounters
  deriving DecidableEq, Repr

/-! ## Station time (08) -/

inductive FollowState where
  | following | conflict
  deriving DecidableEq, Repr

/-- The upstream record (08): role and quality as the codes the segment carried. -/
structure Upstream where
  role : Byte
  quality : Byte
  delay : Nat
  nextMark : Nat
  arrival : Instant
  deriving DecidableEq, Repr

/-- Why a mark was unused (08 R164). -/
inductive UnusedReason where
  | late | conflict | noSystem | upstreamUnset
  deriving DecidableEq, Repr

inductive MarkAction where
  | step | slew | noAction | conflict
  | unused (r : UnusedReason)
  deriving DecidableEq, Repr

structure LastMark where
  arrival : StationTime
  offset : Option Int
  action : MarkAction
  deriving DecidableEq, Repr

/-- The Time Base record (08); the time role is in the working settings and the accumulated delay derived.
`boundary` is the excess of a count that has reached a second boundary not yet taken; `slewCount` the
counts since slew remaining was last set, 2000 when a slew step is due (R159). -/
structure TimeBase where
  now : StationTime
  boundary : Option Nat
  quality : TimeQuality
  follow : FollowState
  slew : Option Int
  slewCount : Nat
  nextMark : Nat
  upstream : Option Upstream
  lastMark : Option LastMark
  marksTaken : Nat
  marksUnused : Nat
  deriving DecidableEq, Repr

/-! ## Programmes (09) -/

/-- A condition mask: bit k for the k-th condition of 09 R172, from BUS_LIVE. -/
structure Mask where
  busLive : Bool
  rectifierRunning : Bool
  farClosed : Bool
  farOpenOrUnknown : Bool
  locationLocal : Bool
  locationRemote : Bool
  deriving DecidableEq, Repr

/-- A step slot (09); `halt` is the on-failure policy HALT. -/
structure Step where
  delay : Nat
  action : StepAction
  target : Option Item
  argument : Nat
  mask : Mask
  halt : Bool
  deriving DecidableEq, Repr

/-- A defined programme header (09). -/
structure Header where
  first : Nat
  count : Nat
  deriving DecidableEq, Repr

inductive RunnerState where
  | idle | running | awaiting | suspended | halted
  deriving DecidableEq, Repr

inductive Awaiting where
  | close (f : Feeder)
  | rectifier
  | wait (deadline : Instant)
  deriving DecidableEq, Repr

inductive StepOutcome where
  | done | skipped
  | failed (c : FailureCause)
  deriving DecidableEq, Repr

/-- A runner record (09); `remaining` in clock counts. -/
structure Runner where
  state : RunnerState
  programme : Option (Fin 8)
  index : Option Nat
  starter : Option Port
  due : Option Instant
  remaining : Option Nat
  awaiting : Option Awaiting
  haltReason : Option FailureCause
  lastOutcome : Option (StepOutcome × Nat)
  deriving DecidableEq, Repr

/-! ## Captures (10) -/

/-- A triple If, Uf, Ub. -/
structure Triple where
  current : Option Int
  voltage : Option Int
  bus : Option Int
  deriving DecidableEq, Repr

/-- A capture buffer that is not FREE (10): HELD or FILLING; the frame count is the number of triples. -/
structure Capture where
  held : Bool
  feeder : Feeder
  cause : TripCause
  trigger : Nat
  time : StationTime
  quality : TimeQuality
  pre : Nat
  truncated : Bool
  triples : List Triple
  deriving DecidableEq, Repr

/-- The Capture Unit (10). `late` is the model's own: the frame handed on that decided a trip and has not reached the
unit yet, so that the capture may start before it (10 R193; log 32). -/
structure CaptureUnit where
  histories : File (List Triple) 8
  late : Option Quantities
  buffers : File (Option Capture) 4
  deriving DecidableEq, Repr

/-! ## Responses (11): what a read reports -/

/-- The refusal reasons (11), with what their detail bytes carry (11 R201). `notAuthorised` carries the
item code where the Authority Table raised it. -/
inductive Reason where
  | badFrame | badKind | badArgument | notReady
  | notAuthorised (table : Bool) (i : Option Item)
  | heldByOther (i : Item) (holder : Port)
  | wrongLocation
  | interlocked (c : InterlockCause)
  | busy | storeBusy | timeBackwards | programmeBusy
  deriving DecidableEq, Repr

inductive Status where
  | done | accepted
  | refused (r : Reason)
  deriving DecidableEq, Repr

/-- An item in the table a CLAIM or RELEASE reports (05 R102): ms. -/
structure HoldingReport where
  holder : Port
  remaining : Nat
  held : Nat
  deriving DecidableEq, Repr

/-- The operation as reported (04 R85). -/
structure OperationReport where
  kind : OperationKind
  origin : Origin
  startTime : StationTime
  testMode : TestMode
  remaining : Option Nat
  deriving DecidableEq, Repr

/-- The Fault Detection part of READ FEEDERS (03 R58): us. -/
structure FaultReport where
  active : Bool
  group : GroupName
  outstanding : Bool
  history : List Mark
  rising : Bool
  previousIf : Option Int
  i0 : Option Int
  riseCounter : Nat
  lowCount : Nat
  blindAge : Option Nat
  blindRemaining : Option Nat
  lastDecision : Option TripDecision
  deriving DecidableEq, Repr

/-- The Section Record part of READ FEEDERS (02 R38): ms. -/
structure SectionReport where
  farLink : Option LinkId
  farFeeder : Feeder
  farState : Option FeederState
  farSeen : Option StationTime
  farSeenAge : Option Nat
  matching : Match
  claim : ClaimState
  claimRemaining : Option Nat
  deriving DecidableEq, Repr

/-- What READ FEEDERS reports of a ready feeder (02 R38, 03 R58, 04 R85). -/
structure ReadyReport where
  state : FeederState
  position : Option Position
  operation : Option OperationReport
  recloseRemaining : Option Nat
  deferred : Bool
  lastTripCause : TripCause
  attempts : Nat
  group : GroupName
  lastIf : Option Int
  lastUf : Option Int
  peakIf : Nat
  reclaimStart : Option StationTime
  reclaimRemaining : Option Nat
  tripLine : Bool
  closeLine : Bool
  testLine : Bool
  inService : Bool
  farEnd : SectionReport
  fault : FaultReport
  deriving DecidableEq, Repr

/-- What READ FEEDERS reports of one feeder: its reading and combination, and the rest when ready. -/
structure FeederReport where
  feeder : Feeder
  reading : Position
  combination : Option Combination
  ready : Option ReadyReport
  deriving DecidableEq, Repr

/-- The Sample Port part of READ FEEDERS (01 R16): us. -/
structure SampleReport where
  state : SampleState
  outageAge : Option Nat
  outageLost : Nat
  discards : Nat
  lastDiscard : DiscardCause
  counters : SampleCounters
  last : LastFrame
  deriving DecidableEq, Repr

/-- What READ RECTIFIER reports (06 R129). -/
structure RectifierReport where
  state : RectState
  target : Nat
  applied : Nat
  firstCycle : Bool
  cycle : Option CycleValues
  faultRetard : Bool
  overvoltageHold : Bool
  measurementHold : Bool
  retard : File Bool 8
  ring : Nat
  gates : File Bool 12
  acPosition : Position
  combination : Option Combination
  acOperation : Option (AcOperation × Nat)
  lastTripCause : RectTripCause
  overvoltage : List Mark
  overcurrent : List Mark
  releaseAge : Option Nat
  acClose : Bool
  acTrip : Bool
  clock : LineClock
  watchRemaining : Option Nat
  tickLength : Option Nat
  values : StationSettings
  deriving DecidableEq, Repr

/-- What READ LINKS reports of one link (07 R157): ms. -/
structure LinkReport where
  state : LinkState
  light : Bool
  upAge : Option Nat
  goodRun : Nat
  badRun : Nat
  farStation : Option Nat
  conflict : Bool
  delayStatus : DelayStatus
  measurements : List Nat
  loopAverage : Nat
  oneWay : Nat
  goodCount : Nat
  pendingSet : List PendingSignal
  queued : File Bool 16
  transfer : Option Transfer
  arrivalAges : File (Option Nat) 16
  fresh : File Bool 16
  counters : LinkCounters
  deriving DecidableEq, Repr

/-- What READ TIME reports (08 R166). -/
structure TimeReport where
  now : StationTime
  quality : TimeQuality
  role : TimeRole
  follow : FollowState
  slew : Option Int
  nextMark : Nat
  accumulated : Nat
  upstream : Option (Upstream × Nat)
  oneWay : Option Nat
  delayStatus : Option DelayStatus
  lastMark : Option LastMark
  marksTaken : Nat
  marksUnused : Nat
  deriving DecidableEq, Repr

/-- What READ RUNNERS reports of one runner (09 R182): the step due time, the remaining delay and the limit of a wait in ms
(log 10). -/
structure RunnerReport where
  state : RunnerState
  programme : Option (Fin 8)
  index : Option Nat
  starter : Option Port
  due : Option Nat
  remaining : Option Nat
  awaiting : Option Awaiting
  haltReason : Option FailureCause
  lastOutcome : Option (StepOutcome × Nat)
  deriving DecidableEq, Repr

/-- What READ SETTINGS reports (11 R206). -/
inductive SettingsPart where
  | station (v : StationSettings)
  | slotMap (v : File SlotEntry 32)
  | feeder (f : Feeder) (v : FeederSettings)
  deriving DecidableEq, Repr

/-- What IDENTIFY reports (11 R203). -/
structure Identity where
  partCode : Nat
  revision : Nat
  port : Port
  stationNumber : Nat
  uptime : Nat
  restartCause : RestartCause
  source : SettingsSource
  framesBad : Nat
  framesDiscarded : Nat
  deriving DecidableEq, Repr

/-- The body of a response: bytes where the spec lays them out, else the values it reports (log 10). -/
inductive Body where
  | empty
  | table (entries : File (Option HoldingReport) 9) (location : Location) (leaseTime : Nat)
  | feeders (reports : List FeederReport) (location : Location) (ac : Position) (sample : SampleReport)
  | rectifier (r : RectifierReport)
  | links (link0 link1 : LinkReport)
  | outSegment (bytes : File Byte 16) (writer : Option (Option Port))
  | inSegment (bytes : File Byte 16) (arrival : Option (StationTime × Nat))
  | time (r : TimeReport)
  | runners (r0 r1 : RunnerReport) (location : Location) (headers : File (Option Header) 8) (steps : List Step)
  | events (overrun : Bool) (gap : Nat) (entries : List Entry)
  | capture (bytes : List Byte)
  | settings (part : SettingsPart) (committing statusValid : Bool) (source : SettingsSource) (changed : Bool)
  | identity (i : Identity)
  deriving DecidableEq, Repr

/-- A response (11): kind, tag, status, the three flags and the body. -/
structure Response where
  kind : Byte
  tag : Byte
  status : Status
  overrun : Bool
  eventsWaiting : Bool
  segmentFresh : Bool
  body : Body
  deriving DecidableEq, Repr

/-- A frame in a request buffer (11 R198): bad, or good with its kind, tag and body. -/
inductive Frame where
  | bad
  | good (kind tag : Byte) (body : List Byte)
  deriving DecidableEq, Repr

/-- The Master Port record (11): buffers in order of arrival, responses oldest first. `sent` is how many bytes of
the head response have been clocked out in this selection, as a command last told (11 R197; log 45). -/
structure MasterPort where
  selected : Bool
  buffers : List Frame
  responses : List Response
  sent : Nat
  overrun : Bool
  framesBad : Nat
  framesDiscarded : Nat
  deriving DecidableEq, Repr

/-! ## The machine -/

/-- The state of the CF8. -/
structure State where
  pending : List Instr
  choices : Nat
  now : Instant
  resetLine : Bool
  startedAt : Instant
  restartCause : RestartCause
  settings : Settings
  store : SettingsStore
  sample : SamplePort
  inputs : File ContactInput 8
  acInput : ContactInput
  key : KeyInput
  feeders : File FeederRecord 8
  sections : File SectionRecord 8
  faults : File FaultRecord 8
  authority : AuthorityTable
  clock : LineClock
  rect : Rectifier
  links : File SectionLink 2
  time : TimeBase
  slots : File Step 256
  headers : File (Option Header) 8
  runners : File Runner 2
  events : EventRecord
  captures : CaptureUnit
  ports : File MasterPort 3
  deriving DecidableEq, Repr

/-- The CF8 never stops with a fault: its spec answers every request and ignores, counts or records every
other event, so no constructor is needed. -/
inductive Fault where
  deriving DecidableEq, Repr

/-- Reasons a step can have no meaning. -/
inductive Refusal where
  /-- Raised by an arm of exec for a command with no meaning yet; safe, since the model stops. -/
  | notModelled (mnemonic : String)
  deriving DecidableEq, Repr

/-! ## Reset -/

/-- The default protection group (03). -/
def Group.default : Group := { imax := 4000, r1 := 20, r2 := 5, deltaI := 1500, tr := 40 }

/-- The default feeder settings (11). -/
def FeederSettings.default : FeederSettings :=
  { inService := false, farLink := none, farFeeder := 0, normal := Group.default,
    isolated := Group.default, blindLimit := 20, tripConfirm := 60, closeConfirm := 150,
    testTime := 400, healthy := 80, maxReclose := 2, recloseDelay := 5, reclaimTime := 60 }

/-- The default station settings (11, 06). -/
def StationSettings.default : StationSettings :=
  { stationNumber := 1, timeRole := .master, leaseTime := 2000, busLive := 5000, alphaMin := 10,
    alphaMax := 300, ramp := 2, referenceOffset := 60, irmax := 6000, uov := 9000, urel := 8500 }

/-- The defaults of the settings table (11). -/
def Settings.default : Settings :=
  { station := StationSettings.default, slotMap := File.fill 32 .unused,
    feeders := File.fill 8 FeederSettings.default }

/-- All 18 quantities absent. -/
def Quantities.absent : Quantities :=
  { ifs := File.fill 8 none, ufs := File.fill 8 none, ub := none, ir := none }

/-- No last frame: its values, its number and its station time are absent (01 R13). -/
def LastFrame.absent : LastFrame := { values := Quantities.absent, number := none, time := none }

/-- The Sample Port after reset (01 R17), for an empty slot map. R17 names the 18 last values only; that the frame number
and the station time of the last frame are none too is the model's choice (log 49). -/
def SamplePort.reset : SamplePort :=
  { state := .disabled, reception := .idle, primed := false, reference := none, frameWatch := none,
    outageStart := none, outageLost := 0, discards := 0, lastDiscard := .noCause,
    last := LastFrame.absent,
    counters := { length := 0, marker := 0, check := 0, slotFault := 0, repeated := 0, starting := 0,
                  gap := 0, lost := 0 } }

/-- A position input block after reset with the contacts given by its reading (02 R23). -/
def ContactInput.reset (a b : Bool) (reading : Position) (now : Instant) : ContactInput :=
  { a := a, b := b, reading := reading, since := now, earlier := reading, earlierSince := now,
    position := none, before := none, invalidSince := none, reported := false }

/-- The key input after reset (02 R34). -/
def KeyInput.reset (made : Bool) (now : Instant) : KeyInput :=
  { made := made, since := now, earlier := made, earlierSince := now, location := .localKey }

/-- A Feeder Record after reset: not ready; the other fields as readiness gives them (02 R23). -/
def FeederRecord.reset : FeederRecord :=
  { ready := false, state := .opened, operation := none, recloseDue := none, deferred := false,
    lockoutReason := none, lastTripCause := .noCause, attempts := 0, group := .normal, lastIf := none,
    lastUf := none, peakIf := 0, reclaimStart := none, reclaimWatch := none }

/-- A Section Record after reset (02 R32). -/
def SectionRecord.reset (farLink : Option LinkId) : SectionRecord :=
  { farState := none, farSeen := none, staleFrom := none,
    matching := if farLink.isNone then .noFarEnd else .mismatch, heard := false, claim := .idle,
    claimDeadline := none }

/-- A Fault Detection record after reset (03 R59). -/
def FaultRecord.reset (now : Instant) : FaultRecord :=
  { active := false, protectSince := none, group := .normal, outstanding := false, history := [],
    i0 := none, previousIf := none, riseCounter := 0, lowCount := 0, blindSince := some now,
    lastDecision := none, requests := [] }

/-- The Authority Table after reset (05 R103). -/
def AuthorityTable.reset : AuthorityTable :=
  { entries := File.fill 9 none, location := .localKey }

/-- The Line Clock after reset (06 R109). -/
def LineClock.reset : LineClock :=
  { state := .unlocked, lastCrossing := none, lastCrossingTime := none, period := none, accepted := 0,
    deviations := [], tick := none, watch := none }

/-- The Rectifier Record after reset (06 R130). -/
def Rectifier.reset (alphaMax : Nat) : Rectifier :=
  { state := .blocked, target := alphaMax, applied := alphaMax, firstCycle := false, cycle := none,
    overvoltageHold := none, measurementHold := true, retard := File.fill 8 false, ring := 0,
    gates := File.fill 12 0, acOperation := none, runOrigin := .protection, lastTripCause := .noCause,
    overvoltage := [], releaseSince := none, overcurrent := [] }

/-- A Section Link after reset (07 R158), light as its input reads. -/
def SectionLink.reset (light : Bool) (now : Instant) : SectionLink :=
  { state := .down, light := light, goodRun := 0, badRun := 0, upSince := none, farStation := none,
    conflict := false, conflictReported := false, delayStatus := .invalid, measurements := [],
    loopAverage := 0, goodCount := 0, beaconOutstanding := none, beaconFrom := none,
    refreshFrom := none, pendingSet := [], windows := File.fill 8 none,
    outgoing := File.fill 7 { bytes := File.fill 16 0, writer := none }, queued := File.fill 16 false,
    transfer := none, nextWord := now, lastWord := { code := 0, data := .idle }, assembly := .idle,
    incoming := File.fill 16 { bytes := File.fill 16 0, arrival := none, fresh := File.fill 3 false },
    counters := { badWord := 0, down := 0, alignFail := 0, segCheck := 0, segNumber := 0,
                  segFraming := 0 } }

/-- The Time Base after reset (08 R167). -/
def TimeBase.reset : TimeBase :=
  { now := { seconds := 0, fraction := 0 }, boundary := none, quality := .unset, follow := .following,
    slew := none, slewCount := 0, nextMark := 1, upstream := none, lastMark := none, marksTaken := 0,
    marksUnused := 0 }

/-- The empty condition mask. -/
def Mask.empty : Mask :=
  { busLive := false, rectifierRunning := false, farClosed := false, farOpenOrUnknown := false,
    locationLocal := false, locationRemote := false }

/-- A cleared step slot (09). -/
def Step.cleared : Step :=
  { delay := 0, action := .noAction, target := none, argument := 0, mask := Mask.empty, halt := false }

/-- A runner after reset (09 R183). -/
def Runner.reset : Runner :=
  { state := .idle, programme := none, index := none, starter := none, due := none, remaining := none,
    awaiting := none, haltReason := none, lastOutcome := none }

/-- The Event Record after reset (10 R190). -/
def EventRecord.reset : EventRecord :=
  { ring := [], nextSequence := 0,
    cursors := File.fill 3 { next := 0, overrun := false, gap := 0, classes := File.fill 8 true } }

/-- The Capture Unit after reset (10 R196). -/
def CaptureUnit.reset : CaptureUnit :=
  { histories := File.fill 8 [], late := none, buffers := File.fill 4 none }

/-- A Master Port after reset (11 R207), select as its input reads. -/
def MasterPort.reset (selected : Bool) : MasterPort :=
  { selected := selected, buffers := [], responses := [], sent := 0, overrun := false, framesBad := 0,
    framesDiscarded := 0 }

/-- The first entry after start-up (11 R208). -/
def Entry.restart (cause : RestartCause) (fromStore : Bool) : Entry :=
  { sequence := 0, time := { seconds := 0, fraction := 0 }, quality := .unset, kind := .restart,
    subject := .nothing, origin := .protection, detail := .restart cause,
    value1 := some (if fromStore then 1 else 0), value2 := none, capture := none }

/-- The entry that follows it when the defaults were loaded (11 R208). -/
def Entry.settingsDefaulted : Entry :=
  { sequence := 1, time := { seconds := 0, fraction := 0 }, quality := .unset,
    kind := .settingsDefaulted, subject := .nothing, origin := .protection, detail := .nothing,
    value1 := none, value2 := none, capture := none }

/-- The machine right after reset: a power-on at instant 0 whose stored settings fail their check, with
every input line at its open, absent or inactive level (log 4). -/
def State.reset : State :=
  { pending := [], choices := 0, now := 0, resetLine := false, startedAt := 0, restartCause := .powerOn,
    settings := Settings.default,
    store := { copy := none, commit := none, statusValid := false, source := .defaults, changed := true },
    sample := SamplePort.reset,
    inputs := File.fill 8 (ContactInput.reset false false .invalid 0),
    acInput := ContactInput.reset false false .invalid 0,
    key := KeyInput.reset false 0,
    feeders := File.fill 8 FeederRecord.reset,
    sections := File.fill 8 (SectionRecord.reset none),
    faults := File.fill 8 (FaultRecord.reset 0),
    authority := AuthorityTable.reset, clock := LineClock.reset, rect := Rectifier.reset 300,
    links := File.fill 2 (SectionLink.reset false 0), time := TimeBase.reset,
    slots := File.fill 256 Step.cleared, headers := File.fill 8 none,
    runners := File.fill 2 Runner.reset,
    events := { EventRecord.reset with
                  ring := [Entry.restart .powerOn false, Entry.settingsDefaulted], nextSequence := 2 },
    captures := CaptureUnit.reset,
    ports := File.fill 3 (MasterPort.reset false) }

end Sys2Proof.Machine
end

