-- ==== Sys2Proof/Config.lean ====
section
/-! DEFINITION. What the CF8's spec leaves open: constants with no body, so that no proof can see a value
of them. Each is applied to a plain counter of State, for a fresh value each time. -/

set_option Elab.async false

namespace Sys2Proof.Config

/-- Which of the happenings of one moment is taken first (10 R184 "may be taken in either order", 05 R87).
Free value, log 3. -/
opaque choice : Nat → Nat

/-- The store's write time beyond 50 ms, before it is brought into the range of 11 R205. Free value, log 9. -/
opaque storeTime : Nat → Nat

/-- What an event entry's value1 (0) or value2 (1) holds where the value its rule names is outside the
signed 32-bit field and no rule caps it. Free value, log 11. -/
opaque outOfRange : Nat → Nat → BitVec 32

/-- What the four bytes of next-mark seconds carry when no second boundary is left to name (08 R159, at
the last representable second). Free value, log 29. -/
opaque noNextMark : Nat → BitVec 32

/-- The bytes of a response body whose layout the spec does not give (11). Free value, log 46. -/
opaque reportBody : Machine.Body → List Byte

end Sys2Proof.Config
end

