-- ==== Sys2Proof/Decode.lean ====
section
/-! DEFINITION. Reading commands from bits. The rows of spec/opcode_table.json give no bits, so no word
spells a command. What the part itself decodes are the bytes a master clocks in: the framing and the CRC of
11 R197 and R198. -/

set_option Elab.async false

namespace Sys2Proof

/-- The command a word spells by the table's bits: none, since no row of the table gives bits. -/
def decodeTableWord (_nbits _w : Nat) : Option Instr := none

/-- One bit of the CRC of 11 R198: polynomial x^16 + x^12 + x^5 + 1, most significant bit first. -/
def crcBit (c : BitVec 16) : BitVec 16 :=
  if c.msb then (c <<< 1) ^^^ 0x1021#16 else c <<< 1

/-- One byte taken into the CRC, its most significant bit first. -/
def crcByte (c : BitVec 16) (b : Byte) : BitVec 16 :=
  crcBit (crcBit (crcBit (crcBit (crcBit (crcBit (crcBit (crcBit
    (c ^^^ (b.setWidth 16 <<< 8)))))))))

/-- The CRC of a byte sequence: starting value 0xFFFF, no final inversion (11 R198). -/
def crc (bytes : List Byte) : BitVec 16 :=
  bytes.foldl crcByte 0xFFFF#16

/-- What a port has read of the bytes clocked in since the last frame (11 R197, R198). -/
inductive Scan where
  /-- No 0xA5 yet: every byte is ignored. -/
  | nothing
  /-- A frame has begun and is not complete. -/
  | incomplete
  /-- The two length bytes, just read, give more than 256. -/
  | overLength
  /-- The last CRC byte was just read; `crcOk` says whether the CRC matches. -/
  | frame (kind tag : Byte) (body : List Byte) (crcOk : Bool)
  /-- The bytes run on past the end of a frame or of an over-long length: no one event's bytes. -/
  | beyond
  deriving DecidableEq, Repr

/-- The frame after its length bytes: kind, tag, `len` body bytes and the two CRC bytes. -/
def scanRest (hi lo : Byte) (len : Nat) (rest : List Byte) : Scan :=
  if rest.length < len + 4 then .incomplete
  else if len + 4 < rest.length then .beyond
  else
    match rest with
    | kind :: tag :: more =>
      .frame kind tag (more.take len)
        (crc (hi :: lo :: kind :: tag :: more.take len)
          == ((more.drop len).headD 0 ++ ((more.drop len).drop 1).headD 0))
    | _ => .incomplete

/-- The frame from its 0xA5 on. -/
def scanFrame : List Byte → Scan
  | hi :: lo :: rest =>
    let len := hi.toNat * 256 + lo.toNat
    if 256 < len then (if rest.isEmpty then .overLength else .beyond) else scanRest hi lo len rest
  | _ => .incomplete

/-- The bytes of a selection since the last frame: bytes before a 0xA5 are ignored (11 R197). -/
def scan : List Byte → Scan
  | [] => .nothing
  | b :: rest => if b = 0xA5#8 then scanFrame rest else scan rest

/-- The frame a master sends for a request: the byte layout of 11 "Request frame". -/
def requestFrame (kind tag : Byte) (body : List Byte) : List Byte :=
  let head := (BitVec.ofNat 8 (body.length / 256)) :: (BitVec.ofNat 8 body.length) :: kind :: tag :: body
  0xA5#8 :: head ++ [(crc head).extractLsb' 8 8, (crc head).extractLsb' 0 8]

end Sys2Proof
end

