-- ==== Sys2Proof/Machine/Operands.lean ====
section
/-! DEFINITION. The operands of the requests: what a request body's bytes say (11, "Request bodies"), with
the ranges their owning chapters give, and the codes of 11 "Byte layouts" and 10. A reading answers `none`
where the request is refused BAD_ARGUMENT. -/

set_option Elab.async false

namespace Sys2Proof

/-- The port's place in a file of three (11 R203: 0 A, 1 B, 2 G). -/
def Port.index : Port → Fin 3
  | .A => 0
  | .B => 1
  | .G => 2

/-- The link's place in a file of two. -/
def LinkId.index : LinkId → Fin 2
  | .link0 => 0
  | .link1 => 1

/-- The runner's place in a file of two. -/
def RunnerId.index : RunnerId → Fin 2
  | .runner0 => 0
  | .runner1 => 1

/-- The item's place in the Authority Table, which is its code (11: 0 to 7, 8 for R). -/
def Item.index : Item → Fin 9
  | .feeder f => f.castLE (by decide)
  | .rectifier => 8

/-- The nine items in the order F0 to F7 and then R. -/
def items : List Item := eight.map .feeder ++ [.rectifier]

/-- The three ports. -/
def allPorts : List Port := [.A, .B, .G]

/-- The two links. -/
def allLinks : List LinkId := [.link0, .link1]

/-- The two runners. -/
def allRunners : List RunnerId := [.runner0, .runner1]

namespace Machine

/-! ## Codes -/

/-- Position codes (11, Feeder End segment; 04 R64; 06 R120). -/
def Position.code : Position → Nat
  | .opened => 0
  | .closed => 1
  | .invalid => 2

/-- Feeder state codes (11, Feeder End segment). -/
def FeederState.code : FeederState → Nat
  | .opened => 0
  | .recloseWait => 1
  | .claiming => 2
  | .testing => 3
  | .closing => 4
  | .closed => 5
  | .tripping => 6
  | .breakerFailed => 7
  | .lockedOut => 8

/-- The feeder state a code names; `none` for a code that is not one of the nine (02 R28). -/
def FeederState.ofCode : Nat → Option FeederState
  | 0 => some .opened
  | 1 => some .recloseWait
  | 2 => some .claiming
  | 3 => some .testing
  | 4 => some .closing
  | 5 => some .closed
  | 6 => some .tripping
  | 7 => some .breakerFailed
  | 8 => some .lockedOut
  | _ => none

/-- Claim state codes (11, Feeder End segment). -/
def ClaimState.code : ClaimState → Nat
  | .idle => 0
  | .claimSent => 1
  | .grantedToUs => 2
  | .grantedToFar => 3

/-- Far link codes (11: 0 NONE, 1 LINK_0, 2 LINK_1). -/
def farLinkCode : Option LinkId → Nat
  | none => 0
  | some .link0 => 1
  | some .link1 => 2

/-- Time role codes (11, System segment). -/
def TimeRole.code : TimeRole → Nat
  | .master => 0
  | .followLink0 => 1
  | .followLink1 => 2

/-- Time quality codes (11, event entry). -/
def TimeQuality.code : TimeQuality → Nat
  | .unset => 0
  | .free => 1
  | .coarse => 2
  | .fine => 3

/-- Delay status codes (11, System segment). -/
def DelayStatus.code : DelayStatus → Nat
  | .invalid => 0
  | .initial => 1
  | .locked => 2

/-- Rectifier state codes (11). -/
def RectState.code : RectState → Nat
  | .blocked => 0
  | .connecting => 1
  | .syncing => 2
  | .running => 3
  | .tripped => 4

/-- Sample Port state codes (03 R53). -/
def SampleState.code : SampleState → Nat
  | .disabled => 0
  | .starting => 1
  | .valid => 2
  | .lost => 3

/-- Trip cause codes (11). -/
def TripCause.code : TripCause → Nat
  | .noCause => 0
  | .imax => 1
  | .rise => 2
  | .blind => 3
  | .transfer => 4
  | .commanded => 5

/-! ## Bytes -/

/-- Two bytes, most significant first (00, Byte order). -/
def be16 (hi lo : Byte) : Nat := hi.toNat * 256 + lo.toNat

/-- Four bytes, most significant first. -/
def be32 (a b c d : Byte) : Nat := be16 a b * 65536 + be16 c d

/-- A number as `n` bytes, most significant first. -/
def beBytes : Nat → Nat → List Byte
  | 0, _ => []
  | n + 1, v => beBytes n (v / 256) ++ [BitVec.ofNat 8 v]

/-- A byte as a number below `n`. -/
def below (n : Nat) (b : Byte) : Option (Fin n) :=
  if h : b.toNat < n then some ⟨b.toNat, h⟩ else none

/-- A yes or no byte (11: 0 no, 1 yes). -/
def flagByte (b : Byte) : Option Bool :=
  match b.toNat with
  | 0 => some false
  | 1 => some true
  | _ => none

/-- A link number (07 R155: 0 or 1). -/
def linkByte (b : Byte) : Option LinkId :=
  match b.toNat with
  | 0 => some .link0
  | 1 => some .link1
  | _ => none

/-- A far link code: `none` outside the three. -/
def farLinkByte (b : Byte) : Option (Option LinkId) :=
  match b.toNat with
  | 0 => some none
  | 1 => some (some .link0)
  | 2 => some (some .link1)
  | _ => none

/-- A runner number (09 R178: 0 or 1). -/
def runnerByte (b : Byte) : Option RunnerId :=
  match b.toNat with
  | 0 => some .runner0
  | 1 => some .runner1
  | _ => none

/-- A time role code: `none` outside the three. -/
def timeRoleByte (b : Byte) : Option TimeRole :=
  match b.toNat with
  | 0 => some .master
  | 1 => some .followLink0
  | 2 => some .followLink1
  | _ => none

/-! ## Request bodies (11) -/

/-- A request with no fields: READ RECTIFIER, IDENTIFY and the like. -/
def readEmpty : List Byte → Option Unit
  | [] => some ()
  | _ => none

/-- One feeder index: OPEN FEEDER, CLOSE FEEDER, RESET LOCKOUT (04 R66, R79, R80). -/
def readFeeder : List Byte → Option Feeder
  | [b] => below 8 b
  | _ => none

/-- READ FEEDERS: one feeder, or 0xFF for all eight. -/
def readFeederChoice : List Byte → Option (List Feeder)
  | [b] => if b = 0xFF#8 then some eight else (below 8 b).map fun f => [f]
  | _ => none

/-- The item set of CLAIM and RELEASE: bit i for item code i, none above 8 (05 R88, R90). -/
def readItems : List Byte → Option (List Item)
  | [hi, lo] =>
    if be16 hi lo < 512 then some (items.filter fun i => (be16 hi lo).testBit i.index.val) else none
  | _ => none

/-- SET ALPHA: an angle of 0 to 719 ticks (06 R114). -/
def readAngle : List Byte → Option Nat
  | [hi, lo] => if be16 hi lo ≤ 719 then some (be16 hi lo) else none
  | _ => none

/-- A segment number 9 to 15 (07 R155) as its place among the written segments. -/
def readWritable (b : Byte) : Option (Fin 7) :=
  if h : 9 ≤ b.toNat ∧ b.toNat ≤ 15 then some ⟨b.toNat - 9, by omega⟩ else none

/-- WRITE SEGMENT: link, segment 9 to 15, 16 bytes (07 R155). -/
def readWriteSegment : List Byte → Option (LinkId × Fin 7 × File Byte 16)
  | l :: n :: bytes =>
    if h : bytes.length = 16 then
      match linkByte l, readWritable n with
      | some l, some n => some (l, n, ⟨bytes, h⟩)
      | _, _ => none
    else none
  | _ => none

/-- READ SEGMENT: link, segment 0 to 15, and whether OUTGOING (07 R156). -/
def readReadSegment : List Byte → Option (LinkId × Fin 16 × Bool)
  | [l, n, d] =>
    match linkByte l, below 16 n, flagByte d with
    | some l, some n, some d => some (l, n, d)
    | _, _, _ => none
  | _ => none

/-- SET TIME: seconds, and a fraction of at most 99,999,999 (08 R161). -/
def readTime : List Byte → Option StationTime
  | [a, b, c, d, e, f, g, h] =>
    if be32 e f g h ≤ 99999999 then some { seconds := be32 a b c d, fraction := be32 e f g h } else none
  | _ => none

/-- The nine action codes, in the order of the step table (11; 09). -/
def readAction (b : Byte) : Option StepAction :=
  match b.toNat with
  | 0 => some .noAction
  | 1 => some .openFeeder
  | 2 => some .closeFeeder
  | 3 => some .setAlpha
  | 4 => some .startRectifier
  | 5 => some .stopRectifier
  | 6 => some .waitUntil
  | 7 => some .mark
  | 8 => some .finish
  | _ => none

/-- A target item code: 0 to 7, 8 for R, 0xFF for none (11). -/
def readTarget (b : Byte) : Option (Option Item) :=
  if b = 0xFF#8 then some none
  else if b = 8#8 then some (some .rectifier)
  else (below 8 b).map fun f => some (.feeder f)

/-- A condition mask: bit k for the k-th condition of 09 R172. -/
def readMask (b : Byte) : Option Mask :=
  if b.toNat < 64 then
    some { busLive := b.toNat.testBit 0, rectifierRunning := b.toNat.testBit 1,
           farClosed := b.toNat.testBit 2, farOpenOrUnknown := b.toNat.testBit 3,
           locationLocal := b.toNat.testBit 4, locationRemote := b.toNat.testBit 5 }
  else none

/-- Check 3 of 09 R168: the target suits the action. -/
def Step.targetSuits (x : Step) : Bool :=
  match x.action with
  | .openFeeder | .closeFeeder =>
    match x.target with
    | some (.feeder _) => true
    | _ => false
  | .setAlpha | .startRectifier | .stopRectifier => x.target == some .rectifier
  | _ => x.target != some .rectifier

/-- Check 5 of 09 R168: not both FAR, not both LOCATION conditions, and a FAR condition has a feeder. -/
def Step.maskSuits (x : Step) : Bool :=
  !(x.mask.farClosed && x.mask.farOpenOrUnknown) && !(x.mask.locationLocal && x.mask.locationRemote) &&
  (!(x.mask.farClosed || x.mask.farOpenOrUnknown) ||
    (match x.target with
     | some (.feeder _) => true
     | _ => false))

/-- Checks 2 to 5 of 09 R168 on one step. -/
def Step.suits (x : Step) : Bool :=
  x.targetSuits && (x.action != .setAlpha || decide (x.argument ≤ 719)) && x.maskSuits

/-- One step record of eight bytes (11). -/
def readStep : List Byte → Option Step
  | [d1, d0, a, t, g1, g0, m, o] =>
    match readAction a, readTarget t, readMask m, flagByte o with
    | some a, some t, some m, some o =>
      let x : Step :=
        { delay := be16 d1 d0, action := a, target := t, argument := be16 g1 g0, mask := m, halt := o }
      if x.suits then some x else none
    | _, _, _, _ => none
  | _ => none

/-- `n` step records, one after the other. -/
def readSteps : Nat → List Byte → Option (List Step)
  | 0, [] => some []
  | 0, _ => none
  | n + 1, bytes =>
    match readStep (bytes.take 8), readSteps n (bytes.drop 8) with
    | some x, some rest => some (x :: rest)
    | _, _ => none

/-- LOAD STEPS: first slot and one to eight steps that fit in the store (09 R168, checks 1 to 5). -/
def readLoadSteps : List Byte → Option (Nat × List Step)
  | f :: bytes =>
    let n := bytes.length / 8
    if 1 ≤ n ∧ n ≤ 8 ∧ f.toNat + n ≤ 256 then (readSteps n bytes).map fun xs => (f.toNat, xs) else none
  | [] => none

/-- DEFINE PROGRAMME: the programme, and its header or `none` to undefine it (09 R169). -/
def readDefine : List Byte → Option (Fin 8 × Option Header)
  | [p, d, f, c1, c0] =>
    match below 8 p, flagByte d with
    | some p, some true =>
      let count := be16 c1 c0
      if 1 ≤ count ∧ count ≤ 256 ∧ f.toNat + count ≤ 256 then
        some (p, some { first := f.toNat, count := count })
      else none
    | some p, some false => some (p, none)
    | _, _ => none
  | _ => none

/-- START PROGRAMME: a runner and a programme number (09 R170). -/
def readStart : List Byte → Option (RunnerId × Fin 8)
  | [r, p] =>
    match runnerByte r, below 8 p with
    | some r, some p => some (r, p)
    | _, _ => none
  | _ => none

/-- SUSPEND, RESUME, STOP, CLEAR: a runner number (09 R178). -/
def readRunner : List Byte → Option RunnerId
  | [r] => runnerByte r
  | _ => none

/-- READ RUNNERS: no slots, or a first slot and 1 to 8 slots within the store (09 R182). -/
def readSlotRange : List Byte → Option (Nat × Nat)
  | [] => some (0, 0)
  | [f, c] =>
    if 1 ≤ c.toNat ∧ c.toNat ≤ 8 ∧ f.toNat + c.toNat ≤ 256 then some (f.toNat, c.toNat) else none
  | _ => none

/-- READ EVENTS: a count of 1 to 16 (10 R187). -/
def readCount : List Byte → Option Nat
  | [c] => if 1 ≤ c.toNat ∧ c.toNat ≤ 16 then some c.toNat else none
  | _ => none

/-- SUBSCRIBE: bit c for class code c (10 R188). -/
def readClasses : List Byte → Option (File Bool 8)
  | [b] => some (File.ofList 8 false (eight.map fun c => b.toNat.testBit c.val))
  | _ => none

/-- READ CAPTURE: buffer 0 to 3, offset, and a count of 1 to 32 (10 R194). -/
def readCaptureRange : List Byte → Option (Fin 4 × Nat × Nat)
  | [n, o, c] =>
    if 1 ≤ c.toNat ∧ c.toNat ≤ 32 then (below 4 n).map fun n => (n, o.toNat, c.toNat) else none
  | _ => none

/-- RELEASE CAPTURE: a buffer number 0 to 3 (10 R195). -/
def readBuffer : List Byte → Option (Fin 4)
  | [n] => below 4 n
  | _ => none

/-- The ranges of a protection group, R2 not above R1 (03, R51). -/
def Group.inRange (g : Group) : Bool :=
  decide (200 ≤ g.imax ∧ g.imax ≤ 32000 ∧ 1 ≤ g.r1 ∧ g.r1 ≤ 4000 ∧ g.r2 ≤ g.r1 ∧
    100 ≤ g.deltaI ∧ g.deltaI ≤ 32000 ∧ 1 ≤ g.tr ∧ g.tr ≤ 400)

/-- A protection group of ten bytes (11). -/
def readGroup : List Byte → Option Group
  | [a, b, c, d, e, f, g, h, i, j] =>
    let x : Group :=
      { imax := be16 a b, r1 := be16 c d, r2 := be16 e f, deltaI := be16 g h, tr := be16 i j }
    if x.inRange then some x else none
  | _ => none

/-- The ranges of the settings table that SET FEEDER carries, groups apart (11; 03). -/
def FeederSettings.inRange (v : FeederSettings) : Bool :=
  decide (5 ≤ v.blindLimit ∧ v.blindLimit ≤ 100 ∧ 20 ≤ v.tripConfirm ∧ v.tripConfirm ≤ 200 ∧
    50 ≤ v.closeConfirm ∧ v.closeConfirm ≤ 500 ∧ 100 ≤ v.testTime ∧ v.testTime ≤ 1000 ∧
    50 ≤ v.healthy ∧ v.healthy ≤ 95 ∧ v.maxReclose ≤ 5 ∧ 1 ≤ v.recloseDelay ∧ v.recloseDelay ≤ 60 ∧
    10 ≤ v.reclaimTime ∧ v.reclaimTime ≤ 600)

/-- The fields of SET FEEDER after both groups: limits and times. -/
def readFeederTail (inService : Bool) (farLink : Option LinkId) (farFeeder : Feeder) (normal isolated : Group) :
    List Byte → Option FeederSettings
  | [blind, trip, cc1, cc0, tt1, tt0, hf, mr, rd, rc1, rc0] =>
    let v : FeederSettings :=
      { inService := inService, farLink := farLink, farFeeder := farFeeder, normal := normal,
        isolated := isolated, blindLimit := blind.toNat, tripConfirm := trip.toNat,
        closeConfirm := be16 cc1 cc0, testTime := be16 tt1 tt0, healthy := hf.toNat,
        maxReclose := mr.toNat, recloseDelay := rd.toNat, reclaimTime := be16 rc1 rc0 }
    if v.inRange then some v else none
  | _ => none

/-- SET FEEDER: a feeder index and every value held for that feeder (11 R204, 03 R51). -/
def readSetFeeder : List Byte → Option (Feeder × FeederSettings)
  | i :: sv :: fl :: ff :: rest =>
    match below 8 i, flagByte sv, farLinkByte fl, below 8 ff, readGroup (rest.take 10),
        readGroup ((rest.drop 10).take 10) with
    | some f, some sv, some fl, some ff, some n, some iso =>
      (readFeederTail sv fl ff n iso (rest.drop 20)).map fun v => (f, v)
    | _, _, _, _, _, _ => none
  | _ => none

/-- The ranges of the settings table for the station's own values (11). -/
def StationSettings.inRange (v : StationSettings) : Bool :=
  decide (1 ≤ v.stationNumber ∧ v.stationNumber ≤ 254 ∧ 500 ≤ v.leaseTime ∧ v.leaseTime ≤ 10000 ∧
    1000 ≤ v.busLive ∧ v.busLive ≤ 7000)

/-- The ranges of the rectifier values; Uov and Urel in tenths of a volt, Urel below Uov (06 R128; log 26). -/
def StationSettings.rectifierInRange (v : StationSettings) : Bool :=
  decide (10 ≤ v.alphaMin ∧ v.alphaMin ≤ 60 ∧ 240 ≤ v.alphaMax ∧ v.alphaMax ≤ 300 ∧ 1 ≤ v.ramp ∧ v.ramp ≤ 20 ∧
    v.referenceOffset ≤ 719 ∧ 1000 ≤ v.irmax ∧ v.irmax ≤ 20000 ∧ 8000 ≤ v.uov ∧ v.uov ≤ 10000 ∧
    7000 ≤ v.urel ∧ v.urel ≤ 9990 ∧ v.urel < v.uov)

/-- SET STATION: every station value in its range, the rectifier values included (11 R204, check 1; log 41). -/
def readSetStation : List Byte → Option StationSettings
  | [sn, tr, le1, le0, bl1, bl0, an1, an0, ax1, ax0, ra, ro1, ro0, ir1, ir0, ov1, ov0, re1, re0] =>
    match timeRoleByte tr with
    | some role =>
      let v : StationSettings :=
        { stationNumber := sn.toNat, timeRole := role, leaseTime := be16 le1 le0, busLive := be16 bl1 bl0,
          alphaMin := be16 an1 an0, alphaMax := be16 ax1 ax0, ramp := ra.toNat,
          referenceOffset := be16 ro1 ro0, irmax := be16 ir1 ir0, uov := be16 ov1 ov0,
          urel := be16 re1 re0 }
      if v.inRange && v.rectifierInRange then some v else none
    | none => none
  | _ => none

/-- A slot map entry code (01, slot map). -/
def readSlot (b : Byte) : Option SlotEntry :=
  match b.toNat with
  | 0x00 => some .unused
  | 0x30 => some .busVoltage
  | 0x31 => some .rectifierCurrent
  | n =>
    if h : 0x10 ≤ n ∧ n < 0x18 then some (.feederCurrent ⟨n - 0x10, by omega⟩)
    else if h : 0x20 ≤ n ∧ n < 0x28 then some (.feederVoltage ⟨n - 0x20, by omega⟩)
    else none

/-- Every byte as a slot map entry. -/
def readSlotCodes : List Byte → Option (List SlotEntry)
  | [] => some []
  | b :: rest =>
    match readSlot b, readSlotCodes rest with
    | some x, some xs => some (x :: xs)
    | _, _ => none

/-- No quantity is named by two entries (01 R4). -/
def namesOnce : List SlotEntry → Bool
  | [] => true
  | x :: rest => (x == .unused || !rest.contains x) && namesOnce rest

/-- A slot map: 32 entry codes, no quantity twice (01 R4, first stage). -/
def readSlots (bytes : List Byte) : Option (File SlotEntry 32) :=
  match readSlotCodes bytes with
  | some xs => if h : xs.length = 32 then (if namesOnce xs then some ⟨xs, h⟩ else none) else none
  | none => none

/-- The part READ SETTINGS names (11 R206). -/
inductive PartChoice where
  | station | slotMap
  | feeder (f : Feeder)
  deriving DecidableEq, Repr

/-- READ SETTINGS: part 0 to 2, and a feeder index that counts only for part 2 (11). -/
def readPart : List Byte → Option PartChoice
  | [p, f] =>
    match p.toNat with
    | 0 => some .station
    | 1 => some .slotMap
    | 2 => (below 8 f).map .feeder
    | _ => none
  | _ => none

/-- The request catalogue (11), PORT RESET apart: what a kind byte names. -/
def requestCommand (p : Port) (kind : Byte) : Option Instr :=
  match kind.toNat with
  | 0x01 => some (.claim p)
  | 0x02 => some (.release p)
  | 0x10 => some (.openFeeder p)
  | 0x11 => some (.closeFeeder p)
  | 0x12 => some (.resetLockout p)
  | 0x13 => some (.readFeeders p)
  | 0x20 => some (.startRectifier p)
  | 0x21 => some (.stopRectifier p)
  | 0x22 => some (.setAlpha p)
  | 0x23 => some (.resetRectifier p)
  | 0x24 => some (.readRectifier p)
  | 0x30 => some (.writeSegment p)
  | 0x31 => some (.readSegment p)
  | 0x32 => some (.readLinks p)
  | 0x40 => some (.setTime p)
  | 0x41 => some (.timeRestart p)
  | 0x42 => some (.readTime p)
  | 0x50 => some (.loadSteps p)
  | 0x51 => some (.defineProgramme p)
  | 0x52 => some (.startProgramme p)
  | 0x53 => some (.suspend p)
  | 0x54 => some (.resume p)
  | 0x55 => some (.stop p)
  | 0x56 => some (.clear p)
  | 0x57 => some (.readRunners p)
  | 0x60 => some (.readEvents p)
  | 0x61 => some (.subscribe p)
  | 0x62 => some (.readCapture p)
  | 0x63 => some (.releaseCapture p)
  | 0x70 => some (.setStation p)
  | 0x71 => some (.setFeeder p)
  | 0x72 => some (.setSlots p)
  | 0x73 => some (.readSettings p)
  | 0x74 => some (.commitSettings p)
  | 0x7F => some (.identify p)
  | _ => none

end Machine

end Sys2Proof
end

