-- ==== Sys2Proof/Machine/Ops.lean ====
section
/-! DEFINITION. The operations the meanings share: reading and replacing one record, adding an entry to the
Event Record, posting signals and queueing segments on the links, starting and ending captures, and taking the
parts of one event that belong to different blocks. -/

set_option Elab.async false

namespace Sys2Proof.Machine

/-! ## One record of the state -/

def State.feeder (s : State) (f : Feeder) : FeederRecord := s.feeders.get f

def State.section' (s : State) (f : Feeder) : SectionRecord := s.sections.get f

def State.fault (s : State) (f : Feeder) : FaultRecord := s.faults.get f

def State.input (s : State) (f : Feeder) : ContactInput := s.inputs.get f

/-- The settings of one feeder in the working settings. -/
def State.config (s : State) (f : Feeder) : FeederSettings := s.settings.feeders.get f

/-- The station part of the working settings. -/
def State.station (s : State) : StationSettings := s.settings.station

def State.link (s : State) (l : LinkId) : SectionLink := s.links.get l.index

def State.port (s : State) (p : Port) : MasterPort := s.ports.get p.index

def State.runner (s : State) (r : RunnerId) : Runner := s.runners.get r.index

def State.holding (s : State) (i : Item) : Option Holding := s.authority.entries.get i.index

/-- The position of a feeder as other blocks see it: absent reads INVALID (02 R24). -/
def State.position (s : State) (f : Feeder) : Position := (s.input f).position.getD .invalid

/-- The AC breaker position: INVALID until its first debounced position (02 R22, 06 R130). -/
def State.acPosition (s : State) : Position := s.acInput.position.getD .invalid

def State.modFeeder (s : State) (f : Feeder) (g : FeederRecord → FeederRecord) : State :=
  { s with feeders := s.feeders.set f (g (s.feeder f)) }

def State.modSection (s : State) (f : Feeder) (g : SectionRecord → SectionRecord) : State :=
  { s with sections := s.sections.set f (g (s.section' f)) }

def State.modFault (s : State) (f : Feeder) (g : FaultRecord → FaultRecord) : State :=
  { s with faults := s.faults.set f (g (s.fault f)) }

def State.modInput (s : State) (f : Feeder) (g : ContactInput → ContactInput) : State :=
  { s with inputs := s.inputs.set f (g (s.input f)) }

def State.modLink (s : State) (l : LinkId) (g : SectionLink → SectionLink) : State :=
  { s with links := s.links.set l.index (g (s.link l)) }

def State.modPort (s : State) (p : Port) (g : MasterPort → MasterPort) : State :=
  { s with ports := s.ports.set p.index (g (s.port p)) }

def State.modRunner (s : State) (r : RunnerId) (g : Runner → Runner) : State :=
  { s with runners := s.runners.set r.index (g (s.runner r)) }

def State.modRect (s : State) (g : Rectifier → Rectifier) : State :=
  { s with rect := g s.rect }

def State.setHolding (s : State) (i : Item) (h : Option Holding) : State :=
  { s with authority := { s.authority with entries := s.authority.entries.set i.index h } }

/-! ## Durations -/

/-- A duration in clock counts as whole ms, rounded down (log 12). -/
def inMs (n : Nat) : Nat := n / 100000

/-- A duration in clock counts as whole us, rounded down (log 12). -/
def inUs (n : Nat) : Nat := n / 100

/-- The time since an instant in ms. -/
def State.msSince (s : State) (t : Instant) : Nat := inMs (s.now - t)

/-- The time left to an instant in ms; 0 when it has passed (log 50). -/
def State.msLeft (s : State) (t : Instant) : Nat := inMs (t - s.now)

/-- A deadline, where there is one, is reached. -/
def State.reached (s : State) : Option Instant → Bool
  | some t => decide (t ≤ s.now)
  | none => false

/-- A 16-bit counter rises by one and stops at 65535 (00, Quantities). -/
def bump (n : Nat) : Nat := min (n + 1) 65535

/-- A value capped at the largest signed 32-bit one, where a rule caps it. -/
def cap31 (n : Nat) : Nat := min n 2147483647

/-- A signed value capped at plus and minus 2,147,483,647 (08 R161, R165). -/
def capSigned (v : Int) : Int := max (-2147483647) (min v 2147483647)

/-! ## The Event Record (10 R184 to R186) -/

/-- The class of an entry kind (10, catalogue), as its code. -/
def EventKind.class : EventKind → Fin 8
  | .trip | .breakerFailed | .lockout | .ttIgnored | .ttMisaddressed | .captureHeld => 0
  | .tripCleared | .unclaimedTest | .lineTest | .closeResult | .recloseHeld | .reclaimed | .lockoutReset
  | .openedUncommanded | .closedUncommanded | .positionFault | .positionRestored => 1
  | .locationChanged | .authorityGranted | .authorityReleased | .authorityExpired | .authorityLost => 2
  | .syncLocked | .syncSlip | .syncLost | .rectifierStart | .acClosed | .acCloseFailed
  | .rectifierRunning | .rectifierSyncing | .rectifierTrip | .rectifierStopped | .acOpened
  | .acBreakerFailed | .acOpenedUncommanded | .acClosedUncommanded | .rectifierReset | .overvoltageHold
  | .overvoltageRelease => 3
  | .linkUp | .linkDown | .sectionMismatch | .grantExpired | .numberConflict | .delayLocked
  | .delayRestart => 4
  | .timeSet | .timeRestart | .timeStep | .timeConflict | .timeQuality => 5
  | .programmeStart | .stepSkipped | .stepFailed | .programmeHalted | .programmeMark | .programmeEnd
  | .programmeSuspended | .programmeResumed | .programmeStopped | .programmeCleared => 6
  | .restart | .settingsDefaulted | .settingsCommitted | .measurementLost | .measurementValid
  | .measurementDisabled => 7

/-- The sequence number after one (10: modulo 2^32). -/
def nextSeq (n : Nat) : Nat := (n + 1) % 4294967296

/-- A cursor that names the discarded entry moves on, with overrun and one more gap (10 R186). -/
def PortCursor.pushed (c : PortCursor) (gone : Nat) : PortCursor :=
  if c.next = gone then { c with next := nextSeq gone, overrun := true, gap := bump c.gap } else c

/-- The oldest entry leaves a full ring (10 R185, R186). -/
def EventRecord.makeRoom (r : EventRecord) : EventRecord :=
  match r.ring with
  | e :: rest =>
    if 1024 ≤ r.ring.length then
      { r with ring := rest, cursors := r.cursors.map fun c => c.pushed e.sequence }
    else r
  | [] => r

/-- An entry joins the ring (10 R184, R185). -/
def EventRecord.append (r : EventRecord) (e : Entry) : EventRecord :=
  let r := r.makeRoom
  { r with ring := r.ring ++ [e], nextSequence := nextSeq r.nextSequence }

/-- A value lies in the signed 32-bit field of an entry (10, entry fields). -/
def inField : Option Int → Bool
  | some v => decide (-2147483648 ≤ v ∧ v ≤ 2147483647)
  | none => true

/-- What the field carries: the value, or a free value where it does not fit (log 11). -/
def fieldValue (which draw : Nat) (v : Option Int) : Option Int :=
  if inField v then v else some (Config.outOfRange which draw).toInt

/-- An entry is added (10 R184): the present sequence number, station time and quality. -/
def State.addEntry (s : State) (kind : EventKind) (subject : Subject) (origin : Origin)
    (detail : Detail := .nothing) (value1 value2 : Option Int := none) (capture : Option (Fin 4) := none) :
    State :=
  { s with
    events := s.events.append
      { sequence := s.events.nextSequence, time := s.time.now, quality := s.time.quality, kind := kind,
        subject := subject, origin := origin, detail := detail,
        value1 := fieldValue 0 s.choices value1, value2 := fieldValue 1 s.choices value2,
        capture := capture }
    choices := if inField value1 && inField value2 then s.choices else s.choices + 1 }

/-! ## Parts of one event in several blocks (10 R184; log 3) -/

/-- Whether a part adds an entry at the state. -/
def addsEntry (s : State) (part : State → State) : Bool :=
  (part s).events.nextSequence != s.events.nextSequence

/-- The parts one after the other, in a free order, `n` of them at most. -/
def inFreeOrder : Nat → List (State → State) → State → State
  | 0, _, s => s
  | _ + 1, [], s => s
  | _ + 1, [part], s => part s
  | n + 1, parts, s =>
    let k := Config.choice s.choices % parts.length
    inFreeOrder n (parts.eraseIdx k) ((parts[k]?.getD id) { s with choices := s.choices + 1 })

/-- Parts of one event that belong to different blocks: those that add no entry, in the order listed, then those that
do, in a free order when there are several (log 3). -/
def together (parts : List (State → State)) (s : State) : State :=
  let loud := parts.filter (addsEntry s)
  inFreeOrder loud.length loud ((parts.filter fun part => !addsEntry s part).foldl (fun t part => part t) s)

/-! ## The links: signals and segments (07) -/

/-- TRANSFER TRIP is the kind sent three times (07 R137). -/
def Signal.copies : Signal → Nat
  | .transferTrip _ => 3
  | _ => 1

/-- A post on a link: taken only while it is UP, merged with an entry of the same code (07 R135, R137). -/
def SectionLink.post (k : SectionLink) (g : Signal) (due : Option Instant := none) : SectionLink :=
  if k.state ≠ .up then k
  else if k.pendingSet.any (fun e => e.signal = g) then
    { k with pendingSet := k.pendingSet.map fun e => if e.signal = g then { e with repeats := g.copies } else e }
  else { k with pendingSet := k.pendingSet ++ [{ signal := g, repeats := g.copies, due := due, late := false }] }

/-- The owner withdraws its entry (07 R137). -/
def SectionLink.withdraw (k : SectionLink) (g : Signal) : SectionLink :=
  { k with pendingSet := k.pendingSet.filter fun e => e.signal ≠ g }

/-- A segment is queued while the link is UP, at most once (07 R151). -/
def SectionLink.queue (k : SectionLink) (n : Fin 16) : SectionLink :=
  if k.state = .up then { k with queued := k.queued.set n true } else k

def State.post (s : State) (l : LinkId) (g : Signal) (due : Option Instant := none) : State :=
  s.modLink l fun k => k.post g due

/-- A post on the link named by a feeder's far link, for its far feeder (07, Signals). -/
def State.postFar (s : State) (f : Feeder) (g : Feeder → Signal) : State :=
  match (s.config f).farLink with
  | some l => s.post l (g (s.config f).farFeeder)
  | none => s

def State.withdrawFar (s : State) (f : Feeder) (g : Feeder → Signal) : State :=
  match (s.config f).farLink with
  | some l => s.modLink l fun k => k.withdraw (g (s.config f).farFeeder)
  | none => s

/-- The Feeder End segment of a feeder: segment 1 + f (07). -/
def feederSegment (f : Feeder) : Fin 16 := ⟨f.val + 1, by omega⟩

/-- The Feeder End segment is queued on the feeder's far link (07 R151). -/
def State.queueFeederEnd (s : State) (f : Feeder) : State :=
  match (s.config f).farLink with
  | some l => s.modLink l fun k => k.queue (feederSegment f)
  | none => s

/-- The System segment is queued on both links (07 R151, 08 R160). -/
def State.queueSystem (s : State) : State :=
  { s with links := s.links.map fun k => k.queue 0 }

/-- The far link of a feeder is UP. -/
def State.farLinkUp (s : State) (f : Feeder) : Bool :=
  match (s.config f).farLink with
  | some l => (s.link l).state = .up
  | none => false

/-- The origin of what a link does. -/
def linkOrigin (l : LinkId) : Origin := .link l

/-- A change of claim state, handed to the link (02 R32). -/
def State.setClaim (s : State) (f : Feeder) (c : ClaimState) (deadline : Option Instant) : State :=
  let t := s.modSection f fun r => { r with claim := c, claimDeadline := deadline }
  if (s.section' f).claim = c then t else t.queueFeederEnd f

/-! ## Captures (10 R192, R193) -/

/-- The lowest-numbered FREE buffer. -/
def CaptureUnit.firstFree (u : CaptureUnit) : Option (Fin 4) :=
  [0, 1, 2, 3].find? fun n => (u.buffers.get n).isNone

/-- The feeder has a FILLING buffer. -/
def CaptureUnit.filling (u : CaptureUnit) (f : Feeder) : Bool :=
  u.buffers.cells.any fun b =>
    match b with
    | some c => !c.held && c.feeder = f
    | none => false

/-- The buffer a capture for a feeder would be started in, or none (10 R192). -/
def State.captureFor (s : State) (f : Feeder) : Option (Fin 4) :=
  if s.captures.filling f then none else s.captures.firstFree

def State.setBuffer (s : State) (n : Fin 4) (c : Option Capture) : State :=
  { s with captures := { s.captures with buffers := s.captures.buffers.set n c } }

/-- A buffer started with the feeder's whole history; HELD at once, truncated, when the Sample Port is not VALID
(10 R192). The TRIP entry is the next one added. -/
def State.newCapture (s : State) (f : Feeder) (cause : TripCause) : Capture :=
  let live := s.sample.state = .valid
  let history := s.captures.histories.get f
  { held := !live, feeder := f, cause := cause, trigger := s.events.nextSequence, time := s.time.now,
    quality := s.time.quality, pre := history.length, truncated := !live, triples := history }

/-- A buffer is started (10 R192). -/
def State.startCapture (s : State) (n : Fin 4) (f : Feeder) (cause : TripCause) : State :=
  s.setBuffer n (some (s.newCapture f cause))

/-- The CAPTURE HELD entry of a buffer (10 R193). -/
def State.captureHeldEntry (s : State) (n : Fin 4) (c : Capture) : State :=
  s.addEntry .captureHeld (.feeder c.feeder) .protection (.capture c.truncated) (some c.triples.length)
    (some c.pre) (some n)

/-- A FILLING buffer becomes HELD, truncated, at the notice of leaving VALID (10 R193). -/
def State.truncateCapture (s : State) (n : Fin 4) : State :=
  match s.captures.buffers.get n with
  | some c =>
    if c.held then s
    else
      let c := { c with held := true, truncated := true }
      (s.setBuffer n (some c)).captureHeldEntry n c
  | none => s

/-- The pre-trigger histories take a frame's triple (10 R191). -/
def pushTriple (h : List Triple) (x : Triple) : List Triple :=
  (h ++ [x]).drop ((h ++ [x]).length - 64)

/-- A FILLING buffer takes a post-trigger triple, HELD at the 192nd (10 R193). -/
def State.fillCapture (s : State) (n : Fin 4) (triple : Feeder → Triple) : State :=
  match s.captures.buffers.get n with
  | some c =>
    if c.held then s
    else
      let c := { c with triples := c.triples ++ [triple c.feeder] }
      if c.triples.length < c.pre + 192 then s.setBuffer n (some c)
      else
        let c := { c with held := true }
        (s.setBuffer n (some c)).captureHeldEntry n c
  | none => s

/-- The histories emptied, at entry into VALID and into DISABLED (10 R191). -/
def State.emptyHistories (s : State) : State :=
  { s with captures := { s.captures with histories := File.fill 8 [], late := none } }

/-- The triple of a feeder in a frame (10 R191). -/
def Quantities.triple (q : Quantities) (f : Feeder) : Triple :=
  { current := q.ifs.get f, voltage := q.ufs.get f, bus := q.ub }

/-- The histories of all feeders take a frame (10 R191), and no frame is late. -/
def State.frameHistories (s : State) (q : Quantities) : State :=
  let histories := eight.map fun f => pushTriple (s.captures.histories.get f) (q.triple f)
  { s with captures := { s.captures with histories := File.ofList 8 [] histories, late := none } }

/-- What the FILLING buffers do with a frame (10 R193). -/
def fillParts (q : Quantities) : List (State → State) :=
  ([0, 1, 2, 3] : List (Fin 4)).map fun n t => t.fillCapture n q.triple

/-- The late frame, where there is one, reaches the Capture Unit: the histories and any FILLING buffer in one arrival
(10 R191, R193; log 32). -/
def State.settleCaptures (s : State) : State :=
  match s.captures.late with
  | some q => together (fillParts q) (s.frameHistories q)
  | none => s

/-- A frame handed on that has not reached the Capture Unit yet (10 R193; log 32). -/
def State.frameLate (s : State) (q : Quantities) : State :=
  { s with captures := { s.captures with late := some q } }

/-! ## Marks (03 R44, 06 R117, R122) -/

/-- A history of three takes its newest mark. -/
def pushMark (h : List Mark) (m : Mark) : List Mark :=
  (h ++ [m]).drop ((h ++ [m]).length - 3)

/-- Two or more PICKUP marks. -/
def picksUp (h : List Mark) : Bool := decide (2 ≤ h.count true)

/-! ## Outcomes -/

/-- A block held in reset takes nothing; otherwise the event has its effect (11 R207; log 25). -/
def live (s : State) (effect : State → State) : Host.Outcome State Fault Refusal :=
  .next (if s.resetLine then s else effect s)

end Sys2Proof.Machine
end

