-- ==== Sys2Proof/Machine/Flags.lean ====
section
/-! DEFINITION. What the state drives: the output lines, the attention lines, data out and the flags of a response;
the composed outgoing segments; and the byte layouts of 11 for event entries, capture headers and responses. All are
functions of the state. -/

set_option Elab.async false

namespace Sys2Proof.Machine

/-! ## Output lines (02 R27, 06 R110, R113; 11 R207) -/

/-- TRIP of a feeder: TRIPPING or BREAKER_FAILED. -/
def State.tripLine (s : State) (f : Feeder) : Bool :=
  !s.resetLine && (s.feeder f).ready &&
    ((s.feeder f).state == .tripping || (s.feeder f).state == .breakerFailed)

/-- CLOSE of a feeder: CLOSING. -/
def State.closeLine (s : State) (f : Feeder) : Bool :=
  !s.resetLine && (s.feeder f).ready && (s.feeder f).state == .closing

/-- TEST of a feeder: TESTING. -/
def State.testLine (s : State) (f : Feeder) : Bool :=
  !s.resetLine && (s.feeder f).ready && (s.feeder f).state == .testing

/-- An AC operation of a kind is present. -/
def Rectifier.acKind (r : Rectifier) (k : OperationKind) : Bool :=
  match r.acOperation with
  | some op => op.kind == k
  | none => false

def State.acCloseLine (s : State) : Bool := !s.resetLine && s.rect.acKind .close

def State.acTripLine (s : State) : Bool := !s.resetLine && s.rect.acKind .opening

/-- A gate is pulsed (06 R112). -/
def State.gateLine (s : State) (g : Fin 12) : Bool := !s.resetLine && decide (0 < s.rect.gates.get g)

/-! ## Attention and the response flags (10 R189, 11 R201) -/

/-- Where a sequence number stands from another on, around the wrap (10). -/
def seqDistance (start n : Nat) : Nat := (n + 4294967296 - start) % 4294967296

/-- The entries from a port's cursor to the newest. -/
def EventRecord.ahead (r : EventRecord) (c : PortCursor) : List Entry :=
  match r.ring with
  | e :: _ => r.ring.drop (seqDistance e.sequence c.next)
  | [] => []

/-- An entry's class is in a port's subscription. -/
def PortCursor.subscribes (c : PortCursor) (e : Entry) : Bool := c.classes.get e.kind.class

def State.cursor (s : State) (p : Port) : PortCursor := s.events.cursors.get p.index

def State.modCursor (s : State) (p : Port) (g : PortCursor → PortCursor) : State :=
  { s with events := { s.events with cursors := s.events.cursors.set p.index (g (s.cursor p)) } }

/-- Events waiting (10 R189). -/
def State.eventsWaiting (s : State) (p : Port) : Bool :=
  (s.events.ahead (s.cursor p)).any (s.cursor p).subscribes

/-- Segment fresh (10 R189): a fresh flag of the master on an incoming segment 9 to 15 of either link. -/
def State.segmentFresh (s : State) (p : Port) : Bool :=
  s.links.cells.any fun k => (k.incoming.cells.drop 9).any fun g => g.fresh.get p.index

/-- A port's attention line (10 R189), de-asserted while the reset line is asserted (11 R207). -/
def State.attention (s : State) (p : Port) : Bool :=
  !s.resetLine &&
    (!(s.port p).responses.isEmpty || s.eventsWaiting p || (s.cursor p).overrun || s.segmentFresh p)

/-! ## Time Base values that are derived (08) -/

/-- The followed link of a time role (08). -/
def TimeRole.followed : TimeRole → Option LinkId
  | .master => none
  | .followLink0 => some .link0
  | .followLink1 => some .link1

def State.followed (s : State) : Option LinkId := s.station.timeRole.followed

/-- The one-way delay: half the loop average, rounded down (07 R150). -/
def SectionLink.oneWay (k : SectionLink) : Nat := k.loopAverage / 2

/-- The accumulated delay (08 R163). -/
def State.accumulatedDelay (s : State) : Nat :=
  match s.followed with
  | none => 0
  | some l =>
    match s.time.upstream with
    | some u => min (u.delay + (s.link l).oneWay) 4294967295
    | none => (s.link l).oneWay

/-! ## The outgoing segments (07 R151; 11) -/

/-- Next-mark seconds in four bytes; a free value where no boundary is left to name (log 29). -/
def State.nextMarkBytes (s : State) : List Byte :=
  if s.time.nextMark < 4294967296 then beBytes 4 s.time.nextMark
  else beBytes 4 (Config.noNextMark s.choices).toNat

/-- The System segment as a link sends it. -/
def State.systemSegment (s : State) (l : LinkId) : File Byte 16 :=
  File.ofList 16 0
    ([BitVec.ofNat 8 s.station.stationNumber, BitVec.ofNat 8 s.station.timeRole.code,
      BitVec.ofNat 8 s.time.quality.code] ++ beBytes 4 s.accumulatedDelay ++ s.nextMarkBytes ++
      [BitVec.ofNat 8 ((s.link l).delayStatus.code + if s.time.follow = .conflict then 4 else 0)])

/-- A signed value as four bytes. -/
def signedBytes (v : Int) : List Byte := beBytes 4 (BitVec.ofInt 32 v).toNat

/-- The Feeder End segment of a feeder; not ready: OPEN, INVALID, IDLE (02 R24). -/
def State.feederEndSegment (s : State) (f : Feeder) : File Byte 16 :=
  let r := s.feeder f
  let c := s.config f
  let head :=
    if r.ready then [r.state.code, (s.position f).code, (s.section' f).claim.code]
    else [FeederState.opened.code, Position.invalid.code, ClaimState.idle.code]
  File.ofList 16 0
    (head.map (BitVec.ofNat 8) ++ signedBytes (r.lastUf.getD (-2147483648)) ++
      [BitVec.ofNat 8 c.farFeeder.val, BitVec.ofNat 8 (farLinkCode c.farLink),
       if c.inService then 1 else 0])

/-- An outgoing segment as it stands (07 R151). -/
def State.outgoingBytes (s : State) (l : LinkId) (n : Fin 16) : File Byte 16 :=
  if n.val = 0 then s.systemSegment l
  else if h : n.val ≤ 8 then s.feederEndSegment ⟨(n.val - 1) % 8, Nat.mod_lt _ (by decide)⟩
  else ((s.link l).outgoing.get ⟨n.val - 9, by omega⟩).bytes

/-- The check of a segment: number, bytes and check sum to 0 modulo 65536 (07 R152). -/
def segmentCheck (n : Fin 16) (bytes : List Byte) : Nat :=
  (65536 - (n.val + (bytes.map BitVec.toNat).sum) % 65536) % 65536

/-! ## Byte layouts (11) -/

/-- Kind codes (10, catalogue). -/
def EventKind.code : EventKind → Nat
  | .trip => 0x00
  | .breakerFailed => 0x01
  | .lockout => 0x02
  | .ttIgnored => 0x03
  | .ttMisaddressed => 0x04
  | .captureHeld => 0x05
  | .tripCleared => 0x10
  | .unclaimedTest => 0x11
  | .lineTest => 0x12
  | .closeResult => 0x13
  | .recloseHeld => 0x14
  | .reclaimed => 0x15
  | .lockoutReset => 0x16
  | .openedUncommanded => 0x17
  | .closedUncommanded => 0x18
  | .positionFault => 0x19
  | .positionRestored => 0x1A
  | .locationChanged => 0x20
  | .authorityGranted => 0x21
  | .authorityReleased => 0x22
  | .authorityExpired => 0x23
  | .authorityLost => 0x24
  | .syncLocked => 0x30
  | .syncSlip => 0x31
  | .syncLost => 0x32
  | .rectifierStart => 0x33
  | .acClosed => 0x34
  | .acCloseFailed => 0x35
  | .rectifierRunning => 0x36
  | .rectifierSyncing => 0x37
  | .rectifierTrip => 0x38
  | .rectifierStopped => 0x39
  | .acOpened => 0x3A
  | .acBreakerFailed => 0x3B
  | .acOpenedUncommanded => 0x3C
  | .acClosedUncommanded => 0x3D
  | .rectifierReset => 0x3E
  | .overvoltageHold => 0x3F
  | .overvoltageRelease => 0x40
  | .linkUp => 0x50
  | .linkDown => 0x51
  | .sectionMismatch => 0x52
  | .grantExpired => 0x53
  | .numberConflict => 0x54
  | .delayLocked => 0x55
  | .delayRestart => 0x56
  | .timeSet => 0x60
  | .timeRestart => 0x61
  | .timeStep => 0x62
  | .timeConflict => 0x63
  | .timeQuality => 0x64
  | .programmeStart => 0x70
  | .stepSkipped => 0x71
  | .stepFailed => 0x72
  | .programmeHalted => 0x73
  | .programmeMark => 0x74
  | .programmeEnd => 0x75
  | .programmeSuspended => 0x76
  | .programmeResumed => 0x77
  | .programmeStopped => 0x78
  | .programmeCleared => 0x79
  | .restart => 0x80
  | .settingsDefaulted => 0x81
  | .settingsCommitted => 0x82
  | .measurementLost => 0x83
  | .measurementValid => 0x84
  | .measurementDisabled => 0x85

/-- Subject codes (10). -/
def Subject.code : Subject → Nat
  | .feeder f => f.val
  | .rectifier => 8
  | .link l => 16 + l.index.val
  | .runner r => 32 + r.index.val
  | .port p => 48 + p.index.val
  | .nothing => 255

/-- Origin codes (11). -/
def Origin.code : Origin → Nat
  | .port p => p.index.val
  | .runner r => 3 + r.index.val
  | .auto => 5
  | .protection => 6
  | .link l => 7 + l.index.val

/-- Interlock causes (11). -/
def InterlockCause.code : InterlockCause → Nat
  | .notInService => 1
  | .busDead => 2
  | .measurementLost => 3
  | .farTest => 4
  | .lockedOut => 5
  | .breakerFailed => 6
  | .positionInvalid => 7
  | .state => 8

/-- Overtaking events (11, detail flags). -/
def Overtaking.code : Overtaking → Nat
  | .openRequest => 1
  | .transferTrip => 2
  | .trip => 3
  | .uncommandedClose => 4

/-- Close results (11). -/
def CloseResult.code : CloseResult → Nat
  | .closedOk => 0
  | .lineFaulty => 1
  | .claimTimeout => 2
  | .claimConflict => 3
  | .closeFailed => 4
  | .interlocked _ => 5
  | .aborted _ => 6

/-- The second part of a close result: bits 4 to 7 of the detail flags (11). -/
def CloseResult.second : CloseResult → Nat
  | .interlocked c => c.code
  | .aborted e => e.code
  | _ => 0

/-- Failure causes and halt reasons (11). -/
def FailureCause.code : FailureCause → Nat
  | .notAuthorised => 0
  | .notReady => 1
  | .interlocked _ => 2
  | .rectifierNotRunning => 3
  | .waitLimit => 4
  | .close r => 16 + r.code

def FailureCause.second : FailureCause → Nat
  | .interlocked c => c.code
  | .close r => r.second
  | _ => 0

/-- Last discard causes, in the order of their listing (01; 11). -/
def DiscardCause.code : DiscardCause → Nat
  | .noCause => 0
  | .length => 1
  | .marker => 2
  | .check => 3
  | .slotFault => 4
  | .repeated => 5
  | .starting => 6

/-- Actions, in the order of the step table (11). -/
def StepAction.code : StepAction → Nat
  | .noAction => 0
  | .openFeeder => 1
  | .closeFeeder => 2
  | .setAlpha => 3
  | .startRectifier => 4
  | .stopRectifier => 5
  | .waitUntil => 6
  | .mark => 7
  | .finish => 8

/-- Test modes (11, detail flags). -/
def TestMode.code : TestMode → Nat
  | .noTest => 0
  | .claimed => 1
  | .unclaimed => 2

/-- Sync causes of RECTIFIER SYNCING (06: WINDOW, SLIP, TIMEOUT). -/
def ClockCause.code : ClockCause → Nat
  | .window => 0
  | .slip => 1
  | .timeout => 2

/-- The detail byte (11; log 16). -/
def Detail.code : Detail → Nat
  | .nothing => 0
  | .discard c => c.code
  | .combination .bothOpen => 0
  | .combination .bothMade => 1
  | .position p => p.code
  | .location .localKey => 0
  | .location .remoteKey => 1
  | .feederState x => x.code
  | .failedTrip c => c.code
  | .trip c _ _ => c.code
  | .unclaimedTest lost => if lost then 1 else 0
  | .lineTest healthy _ => if healthy then 0 else 1
  | .closeResult r => r.code
  | .interlock c => c.code
  | .lockout .attempts => 0
  | .lockout .breakerFailed => 1
  | .capture truncated => if truncated then 1 else 0
  | .release byReset => if byReset then 1 else 0
  | .syncLost .window => 0
  | .syncLost _ => 1
  | .syncing c => c.code
  | .rectTrip .dcOvercurrent => 0
  | .rectTrip .feederBreakerFailed => 1
  | .rectTrip .noCause => 0
  | .rectState x => x.code
  | .linkDown .badWords => 0
  | .linkDown .noLight => 1
  | .quality q => q.code
  | .timeStep initial => if initial then 0 else 1
  | .action a => a.code
  | .failure c => c.code
  | .programmeEnd ranOut => if ranOut then 1 else 0
  | .restart .powerOn => 1
  | .restart .resetLine => 2

/-- The detail flags (11). -/
def Detail.flags : Detail → Nat
  | .trip _ isolated noCapture => (if isolated then 1 else 0) + if noCapture then 2 else 0
  | .lineTest _ mode => 4 * mode.code
  | .closeResult r => 16 * r.second
  | .failure c => 16 * c.second
  | _ => 0

/-- The presence byte (11). -/
def Entry.presence (e : Entry) : Nat :=
  (if e.value1.isSome then 1 else 0) + (if e.value2.isSome then 2 else 0) +
    match e.capture with
    | some n => 4 + 16 * n.val
    | none => 0

/-- An entry as READ EVENTS returns it, 28 bytes (11). -/
def Entry.bytes (e : Entry) : List Byte :=
  beBytes 4 e.sequence ++ beBytes 4 e.time.seconds ++ beBytes 4 e.time.fraction ++
    [e.quality.code, e.kind.class.val, e.kind.code, e.subject.code, e.origin.code, e.detail.code,
     e.detail.flags, e.presence].map (BitVec.ofNat 8) ++
    signedBytes (e.value1.getD 0) ++ signedBytes (e.value2.getD 0)

/-- A 16-bit value, -32768 when absent (11, capture header). -/
def sampleBytes (v : Option Int) : List Byte := beBytes 2 (BitVec.ofInt 16 (v.getD (-32768))).toNat

/-- A READ CAPTURE body: the header of 22 bytes and the triples (10 R194; 11). The fields that a FREE buffer has not
hold 0 (log 44). -/
def captureBytes (n : Fin 4) (b : Option Capture) (offset count : Nat) : List Byte :=
  match b with
  | none => [BitVec.ofNat 8 n.val] ++ List.replicate 21 0
  | some c =>
    let triples := (c.triples.drop offset).take count
    [n.val, if c.held then 2 else 1, c.feeder.val, c.cause.code].map (BitVec.ofNat 8) ++
      beBytes 4 c.trigger ++ beBytes 4 c.time.seconds ++ beBytes 4 c.time.fraction ++
      [c.quality.code, c.pre].map (BitVec.ofNat 8) ++ beBytes 2 c.triples.length ++
      [if c.truncated then 1 else 0, triples.length].map (BitVec.ofNat 8) ++
      triples.flatMap fun x => sampleBytes x.current ++ sampleBytes x.voltage ++ sampleBytes x.bus

/-- Item codes: 0xFF for none (11). -/
def itemCode : Option Item → Nat
  | some i => i.index.val
  | none => 255

/-- Refusal reason codes (11, response frame). -/
def Reason.code : Reason → Nat
  | .badFrame => 1
  | .badKind => 2
  | .badArgument => 3
  | .notReady => 4
  | .notAuthorised .. => 5
  | .heldByOther .. => 6
  | .wrongLocation => 7
  | .interlocked _ => 8
  | .busy => 9
  | .storeBusy => 10
  | .timeBackwards => 11
  | .programmeBusy => 12

/-- The two detail bytes at the head of a refusal's body (11 R201; log 17). -/
def Reason.detail : Reason → List Byte
  | .interlocked c => [BitVec.ofNat 8 c.code, 0]
  | .heldByOther i p => [BitVec.ofNat 8 i.index.val, BitVec.ofNat 8 p.index.val]
  | .notAuthorised true i => [BitVec.ofNat 8 (itemCode i), 0xFF#8]
  | _ => [0, 0]

/-- Status and reason bytes (11, response frame). -/
def Status.bytes : Status → List Byte
  | .done => [0, 0]
  | .accepted => [1, 0]
  | .refused r => [2, BitVec.ofNat 8 r.code]

/-- Bytes 3 to 7 of a response frame: kind, tag, status, reason and flags (11). -/
def Response.head (r : Response) : List Byte :=
  [r.kind, r.tag] ++ r.status.bytes ++
    [BitVec.ofNat 8 ((if r.overrun then 1 else 0) + (if r.eventsWaiting then 2 else 0) +
      if r.segmentFresh then 4 else 0)]

/-! ## Data out (11 R197, R207) -/

/-- The bytes of a body: READ EVENTS gives its count, overrun and gap fields and its entries (10 R187; log 46), READ
CAPTURE the bytes of 11, and a report without a layout a free value. -/
def Body.bytes : Body → List Byte
  | .empty => []
  | .events overrun gap entries =>
    [BitVec.ofNat 8 entries.length, if overrun then 1 else 0] ++ beBytes 2 gap ++ entries.flatMap Entry.bytes
  | .capture bytes => bytes
  | b => Config.reportBody b

/-- The body of a response, a refusal's two detail bytes at its head, at most 256 bytes (11 R201). -/
def Response.bodyBytes (r : Response) : List Byte :=
  match r.status with
  | .refused x => (x.detail ++ r.body.bytes).take 256
  | _ => r.body.bytes.take 256

/-- A response frame: 0x5A, the body length, the head, the body, and the CRC over all but the 0x5A (11). -/
def Response.frame (r : Response) : List Byte :=
  let covered := beBytes 2 r.bodyBytes.length ++ r.head ++ r.bodyBytes
  0x5A#8 :: covered ++ beBytes 2 (crc covered).toNat

/-- The byte that a port sends on data out, `ahead` bytes after the ones clocked out so far: of the response at the
head of its queue, and 0x00 where none is being sent (11 R197) and while the reset line is asserted (11 R207). -/
def State.dataOut (s : State) (p : Port) (ahead : Nat) : Byte :=
  match (s.port p).responses with
  | r :: _ =>
    if s.resetLine || !(s.port p).selected then 0 else r.frame.getD ((s.port p).sent + ahead) 0
  | [] => 0

end Sys2Proof.Machine
end

