-- ==== Sys2Proof/Machine/Runners.lean ====
section
/-! DEFINITION. What the two runners do with the outcome of a step (09 R172, R174 to R177): masks, moving on,
failing, and taking what other blocks hand them. -/

set_option Elab.async false

namespace Sys2Proof.Machine

/-- The header of the programme a runner holds; a runner in use always has one (09 R168, R169). -/
def State.headerOf (s : State) (x : Runner) : Header :=
  match x.programme with
  | some p => (s.headers.get p).getD { first := 0, count := 1 }
  | none => { first := 0, count := 1 }

/-- The step slot with a number. -/
def State.slot (s : State) (n : Nat) : Step := s.slots.get (Fin.ofNat 256 n)

/-- The step at a runner's step index (09). -/
def State.stepOf (s : State) (r : RunnerId) : Step :=
  s.slot ((s.headerOf (s.runner r)).first + (s.runner r).index.getD 0)

/-- A runner's step index as an entry carries it. -/
def State.indexOf (s : State) (r : RunnerId) : Int := (s.runner r).index.getD 0

/-- The bus is live: check 7 of 02 R36, and 09 R172. -/
def State.busLive (s : State) : Bool :=
  match s.sample.last.values.ub with
  | some ub => decide ((s.station.busLive : Int) ≤ ub)
  | none => false

/-- The far state of a step's target feeder (09 R172). -/
def State.farOf (s : State) (target : Option Item) : Option FeederState :=
  match target with
  | some (.feeder f) => (s.section' f).farState
  | _ => none

/-- The far state makes FAR_OPEN_OR_UNKNOWN true (09 R172); `none` is UNKNOWN. -/
def openOrUnknown : Option FeederState → Bool
  | none | some .opened | some .recloseWait | some .lockedOut => true
  | _ => false

/-- A condition mask is satisfied (09 R172). -/
def State.satisfied (s : State) (x : Step) : Bool :=
  (!x.mask.busLive || (s.sample.state == .valid && s.busLive)) &&
  (!x.mask.rectifierRunning || s.rect.state == .running) &&
  (!x.mask.farClosed || s.farOf x.target == some .closed) &&
  (!x.mask.farOpenOrUnknown || openOrUnknown (s.farOf x.target)) &&
  (!x.mask.locationLocal || s.key.location == .localKey) &&
  (!x.mask.locationRemote || s.key.location == .remoteKey)

/-- A runner in IDLE; the last outcome is kept (09 R173, R177, R180). -/
def Runner.toIdle (x : Runner) : Runner :=
  { Runner.reset with lastOutcome := x.lastOutcome }

/-- A runner in HALTED keeps its place (09 R171, R177). -/
def Runner.toHalted (x : Runner) (c : FailureCause) : Runner :=
  { x with state := .halted, due := none, remaining := none, awaiting := none, haltReason := some c }

/-- The runner's place after a completed step: the next step's delay counts, or stays uncounted while
SUSPENDED (09 R177, R179). -/
def Runner.toNext (x : Runner) (index : Nat) (delay : Nat) (now : Instant) : Runner :=
  if x.state = .suspended then
    { x with index := some index, awaiting := none, due := none, remaining := some (ms delay) }
  else
    { x with state := .running, index := some index, awaiting := none, due := some (now + ms delay),
             remaining := none }

/-- The step is complete and the runner moves on, or has run out (09 R177). The outcome is recorded with
the index of the step it belongs to. -/
def State.completeStep (s : State) (r : RunnerId) (outcome : StepOutcome) : State :=
  let x := s.runner r
  let index := x.index.getD 0
  let h := s.headerOf x
  let t := s.modRunner r fun x => { x with lastOutcome := some (outcome, index) }
  if index + 1 < h.count then
    t.modRunner r fun x => x.toNext (index + 1) (s.slot (h.first + (index + 1))).delay s.now
  else
    (t.modRunner r Runner.toIdle).addEntry .programmeEnd (.runner r) (.runner r) (.programmeEnd true)
      (some (index : Int))

/-- The runner enters HALTED with a PROGRAMME HALTED entry (09 R171, R177, R181). Value2 is absent where the step has
no target: the spec gives codes for a target only (log 43). -/
def State.haltRunner (s : State) (r : RunnerId) (c : FailureCause) : State :=
  (s.modRunner r fun x => x.toHalted c).addEntry .programmeHalted (.runner r) (.runner r) (.failure c)
    (some (s.indexOf r)) ((s.stepOf r).target.map fun i => (i.index.val : Int))

/-- A step fails: STEP FAILED, then its on-failure policy (09 R177, R181). -/
def State.failStep (s : State) (r : RunnerId) (c : FailureCause) (entered : Option Int := none) : State :=
  let index := (s.runner r).index.getD 0
  let t := (s.modRunner r fun x => { x with lastOutcome := some (.failed c, index) }).addEntry
    .stepFailed (.runner r) (.runner r) (.failure c) (some (index : Int)) entered
  if (s.stepOf r).halt then t.haltRunner r c else t.completeStep r (.failed c)

/-- The runner has begun a step and awaits its outcome (09 R174 to R176). -/
def State.await (s : State) (r : RunnerId) (a : Awaiting) : State :=
  s.modRunner r fun x => { x with state := .awaiting, due := none, awaiting := some a }

/-- A runner takes the result of the close it awaits (09 R174). -/
def State.closeToRunner (s : State) (f : Feeder) (result : CloseResult) (r : RunnerId) : State :=
  if (s.runner r).awaiting = some (.close f) then
    if result = .closedOk then s.completeStep r .done else s.failStep r (.close result)
  else s

/-- A runner takes a change of rectifier state (09 R175). -/
def State.rectToRunner (s : State) (r : RunnerId) : State :=
  if (s.runner r).awaiting = some .rectifier then
    match s.rect.state with
    | .running => s.completeStep r .done
    | .blocked | .tripped => s.failStep r .rectifierNotRunning (some (s.rect.state.code : Int))
    | .connecting | .syncing => s
  else s

/-- A runner is in a WAIT_UNTIL step (09 R176). -/
def Runner.waits (x : Runner) : Bool :=
  match x.awaiting with
  | some (.wait _) => true
  | _ => false

/-- A waiting runner judges its mask again at a change of a record that its mask reads (09 R176). -/
def State.judgeWait (s : State) (reads : Step → Bool) (r : RunnerId) : State :=
  if (s.runner r).waits && reads (s.stepOf r) && s.satisfied (s.stepOf r) then s.completeStep r .done else s

/-- The bus is what the mask reads. -/
def readsBus (x : Step) : Bool := x.mask.busLive

def readsRectifier (x : Step) : Bool := x.mask.rectifierRunning

def readsLocation (x : Step) : Bool := x.mask.locationLocal || x.mask.locationRemote

def readsFar (f : Feeder) (x : Step) : Bool :=
  (x.mask.farClosed || x.mask.farOpenOrUnknown) && x.target == some (.feeder f)

/-- The waits of both runners as parts of one event. -/
def waitParts (reads : Step → Bool) : List (State → State) :=
  allRunners.map fun r s => s.judgeWait reads r

/-- Both runners judge their waits. -/
def State.judgeWaits (s : State) (reads : Step → Bool) : State := together (waitParts reads) s

/-- A change of rectifier state, handed to the runners (06, Rectifier states; 09 R175, R176). -/
def State.rectToRunners (s : State) : State :=
  together (allRunners.map fun r s => (s.rectToRunner r).judgeWait readsRectifier r) s

/-- The result of a close operation, handed to the runner awaiting it (04 R74). -/
def State.closeToRunners (s : State) (f : Feeder) (result : CloseResult) : State :=
  together (allRunners.map fun r s => s.closeToRunner f result r) s

end Sys2Proof.Machine
end

