-- ==== Sys2Proof/Machine/Firing.lean ====
section
/-! DEFINITION. The Line Clock and the Firing Unit (06): crossings and ticks, the gate ring, the firing angle,
the overrides, and the rectifier's states with its AC breaker; and the commands of the family that come from
the mains and from deadlines. -/

set_option Elab.async false

namespace Sys2Proof.Machine

/-! ## Gates (06 R111 to R113) -/

/-- Every pulse ends at once, and nothing steps (06 R113). A first-cycle mark not yet used is cleared with the gates
(log 42). -/
def Rectifier.stopGates (r : Rectifier) : Rectifier :=
  { r with gates := File.fill 12 0, cycle := none, firstCycle := false }

/-- The two gates of step s (06 R112): Y1 to Y6 are 0 to 5, D1 to D6 are 6 to 11. -/
def pairOf (step : Fin 12) : Fin 12 × Fin 12 :=
  let k := step.val / 2
  let bridge := 6 * (step.val % 2)
  (⟨bridge + k, by omega⟩, ⟨bridge + (k + 5) % 6, by omega⟩)

/-- The tick at which step s of a cycle falls (06 R111). -/
def CycleValues.tickOf (c : CycleValues) (step : Fin 12) : Nat :=
  (c.offset + 60 * step.val + c.alpha) % 720

/-- The twelve steps in order. -/
def twelve : List (Fin 12) := [0, 1, 2, 3, 4, 5, 6, 7, 8, 9, 10, 11]

/-- The counter begins a tick: a step that falls there pulses its pair for 20 tick boundaries, which is
also the later end of a pulse in progress (06 R111, R112). -/
def Rectifier.beginTick (r : Rectifier) (tick : Nat) : Rectifier :=
  match r.cycle with
  | some c =>
    match twelve.find? fun s => c.tickOf s = tick with
    | some s =>
      { r with ring := s.val, gates := (r.gates.set (pairOf s).1 20).set (pairOf s).2 20 }
    | none => r
  | none => r

/-- A tick boundary: each pulse in progress has one boundary less to go (06 R112). -/
def Rectifier.tickBoundary (r : Rectifier) : Rectifier :=
  { r with gates := r.gates.map fun n => n - 1 }

/-! ## The firing angle (06 R114, R115) -/

/-- An angle clamped into the range of the working settings. -/
def StationSettings.clamp (v : StationSettings) (angle : Nat) : Nat :=
  max v.alphaMin (min v.alphaMax angle)

/-- A value moved toward a target by at most `step`. -/
def toward (value target step : Nat) : Nat :=
  if value ≤ target then min target (value + step) else max target (value - step)

/-- Any override is present: FAULT_RETARD, OVERVOLTAGE_HOLD or MEASUREMENT_HOLD (06 R116 to R118). -/
def Rectifier.faultRetard (r : Rectifier) : Bool := r.retard.cells.any id

def Rectifier.overridden (r : Rectifier) : Bool :=
  r.faultRetard || r.overvoltageHold.isSome || r.measurementHold

/-- The applied angle of a new cycle (06 R115). -/
def nextAlpha (v : StationSettings) (r : Rectifier) : Nat :=
  if r.firstCycle || r.overridden then v.alphaMax
  else toward r.applied (v.clamp r.target) v.ramp

/-- A cycle start taken in RUNNING: the angle, then the cycle values, then a step at tick 0 (06 R111). -/
def Rectifier.cycleStart (v : StationSettings) (r : Rectifier) : Rectifier :=
  if r.state = .running then
    let a := nextAlpha v r
    ({ r with applied := a, firstCycle := false,
              cycle := some { offset := v.referenceOffset, alpha := a } }).beginTick 0
  else r

/-- Target alpha takes a clamped angle (06 R114). -/
def State.setTarget (s : State) (angle : Nat) : State :=
  s.modRect fun r => { r with target := s.station.clamp angle }

/-! ## Changes of rectifier state -/

/-- An entry of the Firing Unit or Line Clock: subject R, origin PROTECTION unless said. -/
def State.rectEntry (s : State) (kind : EventKind) (origin : Origin := .protection)
    (detail : Detail := .nothing) (value1 value2 : Option Int := none) : State :=
  s.addEntry kind .rectifier origin detail value1 value2

/-- The rectifier leaves RUNNING, or a start ends: gates stopped, applied alpha held at alpha max (06 R113,
R115). -/
def Rectifier.stopped (v : StationSettings) (r : Rectifier) (x : RectState) : Rectifier :=
  { r.stopGates with state := x, applied := v.alphaMax }

/-- Entry into RUNNING: soft start (06 R115, R121). -/
def State.enterRunning (s : State) : State :=
  ((s.modRect fun r =>
      { r.stopGates with state := .running, applied := s.station.alphaMax, firstCycle := true,
                         overcurrent := [] }).rectEntry .rectifierRunning s.rect.runOrigin
    (value1 := some s.rect.target)).rectToRunners

/-- Entry into SYNCING; RUNNING at once when the Line Clock is LOCKED (06 R121). -/
def State.enterSyncing (s : State) : State :=
  let t := s.modRect fun r => { r with state := .syncing }
  if s.clock.state = .locked then t.enterRunning else t.rectToRunners

/-- An AC operation of kind OPEN begins, unless the breaker is open: deadline 200 ms (06 R123, R125). -/
def State.openAc (s : State) (origin : Origin) : State :=
  s.modRect fun r =>
    { r with acOperation :=
        if s.acPosition = .opened then none
        else some { kind := .opening, origin := origin, startAt := s.now, deadline := s.now + ms 200,
                    overdue := false } }

/-- A rectifier trip (06 R123). -/
def State.rectTrip (s : State) (cause : RectTripCause) (value1 value2 : Option Int) : State :=
  let t := (s.modRect fun r => { r.stopped s.station .tripped with lastTripCause := cause }).openAc .protection
  (t.rectEntry .rectifierTrip .protection (.rectTrip cause) value1 value2).rectToRunners

/-- The rectifier has been started and is not yet BLOCKED or TRIPPED. -/
def RectState.started : RectState → Bool
  | .connecting | .syncing | .running => true
  | .blocked | .tripped => false

/-- Some feeder is in BREAKER_FAILED (06 R119, R127). -/
def State.anyBreakerFailed (s : State) : Bool :=
  s.feeders.cells.any fun r => r.ready && r.state == .breakerFailed

/-- The checks of START RECTIFIER, in order (06 R119). -/
def State.startCheck (s : State) : Option InterlockCause :=
  if s.rect.state ≠ .blocked then some .state
  else if s.rect.acOperation.isSome then some .state
  else if s.anyBreakerFailed then some .breakerFailed
  else
    match s.acPosition with
    | .opened => none
    | .invalid => some .positionInvalid
    | .closed => some .state

/-- An accepted START RECTIFIER (06 R119). -/
def State.startRect (s : State) (origin : Origin) : State :=
  ((s.modRect fun r =>
      { r with state := .connecting, runOrigin := origin,
               acOperation := some { kind := .close, origin := origin, startAt := s.now,
                                     deadline := s.now + ms 200, overdue := false } }).rectEntry
    .rectifierStart origin (value1 := some s.rect.target)).rectToRunners

/-- STOP RECTIFIER (06 R125). -/
def State.stopRect (s : State) (origin : Origin) : State :=
  let left := some (s.rect.state.code : Int)
  if s.rect.state.started then
    (((s.modRect fun r => r.stopped s.station .blocked).openAc origin).rectEntry .rectifierStopped origin
      (value1 := left)).rectToRunners
  else if s.rect.acOperation.isNone && s.acPosition != .opened then
    (s.openAc origin).rectEntry .rectifierStopped origin (value1 := left)
  else s

/-- The check of RESET RECTIFIER (06 R127). -/
def State.resetCheck (s : State) : Option InterlockCause :=
  if s.rect.state ≠ .tripped then some .state
  else if s.anyBreakerFailed then some .breakerFailed
  else if s.acPosition = .opened && s.rect.acOperation.isNone then none
  else if s.acPosition = .invalid then some .positionInvalid
  else some .state

/-- RESET RECTIFIER carried out (06 R127). -/
def State.resetRect (s : State) (origin : Origin) : State :=
  ((s.modRect fun r => { r with state := .blocked }).rectEntry .rectifierReset origin
    (.rectTrip s.rect.lastTripCause)).rectToRunners

/-! ## The AC breaker (06 R120, R123, R125, R126) -/

/-- The Ir of the last frame values. -/
def State.lastIr (s : State) : Option Int := s.sample.last.values.ir

/-- AC OPENED UNCOMMANDED: the gates stop and the rectifier is BLOCKED (06 R120, R126). -/
def State.acOpenedUncommanded (s : State) : State :=
  ((s.modRect fun r => { r.stopped s.station .blocked with acOperation := none }).rectEntry
    .acOpenedUncommanded (value1 := s.lastIr)).rectToRunners

/-- AC CLOSED in CONNECTING (06 R120). -/
def State.acClosed (s : State) (op : AcOperation) : State :=
  ((s.modRect fun r => { r with acOperation := none }).rectEntry .acClosed
    (value1 := some (s.msSince op.startAt))).enterSyncing

/-- An AC opening is confirmed (06 R123, R125). -/
def State.acOpened (s : State) (op : AcOperation) : State :=
  (s.modRect fun r => { r with acOperation := none }).rectEntry .acOpened op.origin
    (value1 := some (s.msSince op.startAt))

/-- AC CLOSED UNCOMMANDED (06 R126). -/
def State.acClosedUncommanded (s : State) : State :=
  s.rectEntry .acClosedUncommanded .protection (.rectState s.rect.state)

/-- The AC operation present awaits this position (06 R110). -/
def Rectifier.awaits (r : Rectifier) (pos : Position) : Bool :=
  match r.acOperation with
  | some op => pos == if op.kind = .close then .closed else .opened
  | none => false

/-- A change of the debounced AC position (06 R120, R123, R126; log 39). -/
def State.acPositionChange (s : State) (pos : Position) : State :=
  match s.rect.acOperation, pos with
  | some op, .closed => if op.kind = .close then s.acClosed op else s.acClosedUncommanded
  | some op, .opened => if op.kind = .close then s.acOpenedUncommanded else s.acOpened op
  | none, .opened => if s.rect.state.started then s.acOpenedUncommanded else s
  | none, .closed => if s.rect.state.started then s else s.acClosedUncommanded
  | _, .invalid => s

/-- The AC close has run out (06 R120). -/
def State.acCloseFailed (s : State) : State :=
  ((s.modRect fun r => { r.stopped s.station .blocked with acOperation := none }).rectEntry .acCloseFailed
    (value1 := some 200) (value2 := some (s.acPosition.code : Int))).rectToRunners

/-- The AC opening is overdue (06 R123). -/
def State.acOverdue (s : State) (op : AcOperation) : State :=
  (s.modRect fun r => { r with acOperation := some { op with overdue := true } }).rectEntry .acBreakerFailed
    op.origin (value1 := some 200) (value2 := some (s.acPosition.code : Int))

/-- The deadline of an AC operation of a kind, not yet overdue, is reached. -/
def State.acDue (s : State) (k : OperationKind) : Option AcOperation :=
  match s.rect.acOperation with
  | some op => if op.kind = k ∧ op.overdue = false ∧ op.deadline ≤ s.now then some op else none
  | none => none

/-- AC_CLOSE_DEADLINE (06 R120). -/
def execAcCloseDeadline (s : State) : Host.Outcome State Fault Refusal :=
  live s fun s =>
    match s.acDue .close with
    | some _ => s.acCloseFailed
    | none => s

/-- AC_OPEN_DEADLINE (06 R123, R125). -/
def execAcOpenDeadline (s : State) : Host.Outcome State Fault Refusal :=
  live s fun s =>
    match s.acDue .opening with
    | some op => s.acOverdue op
    | none => s

/-! ## What frames and feeders tell the Firing Unit -/

/-- A frame's Ub at the overvoltage hold (06 R117). -/
def State.overvoltageFrame (s : State) (ub : Option Int) : State :=
  match ub with
  | none => s.modRect fun r => { r with overvoltage := [], releaseSince := none }
  | some v =>
    let history := pushMark s.rect.overvoltage (decide ((s.station.uov : Int) ≤ v))
    let sets := s.rect.overvoltageHold.isNone && picksUp history
    let hold := if sets then some s.now else s.rect.overvoltageHold
    let release :=
      if hold.isSome then
        if v < (s.station.urel : Int) then some (s.rect.releaseSince.getD s.now) else none
      else s.rect.releaseSince
    let t := s.modRect fun r =>
      { r with overvoltage := history, overvoltageHold := hold, releaseSince := release }
    if sets then
      t.rectEntry .overvoltageHold (value1 := some v) (value2 := some (s.station.uov : Int))
    else t

/-- A frame's Ir at the DC overcurrent element (06 R122). -/
def State.overcurrentFrame (s : State) (ir : Option Int) : State :=
  if s.rect.state = .running then
    match ir with
    | none => s.modRect fun r => { r with overcurrent := [] }
    | some v =>
      let history := pushMark s.rect.overcurrent (decide ((s.station.irmax : Int) ≤ v))
      let t := s.modRect fun r => { r with overcurrent := history }
      if picksUp history then t.rectTrip .dcOvercurrent (some v) (some (s.station.irmax : Int)) else t
  else s

/-- The hold is due for release: 20 ms below Urel (06 R117). -/
def State.releaseDue (s : State) : Bool :=
  s.rect.overvoltageHold.isSome && s.reached (s.rect.releaseSince.map (· + ms 20))

/-- OVERVOLTAGE_RELEASE (06 R117). -/
def execOvervoltageRelease (s : State) : Host.Outcome State Fault Refusal :=
  live s fun s =>
    if s.releaseDue then
      (s.modRect fun r => { r with overvoltageHold := none, releaseSince := none }).rectEntry
        .overvoltageRelease (value1 := s.rect.overvoltageHold.map fun t => (s.msSince t : Int))
    else s

/-- The Sample Port's notice of leaving VALID, or of entering it, at the Firing Unit (06 R117, R118). -/
def State.measurementHold (s : State) (present : Bool) : State :=
  s.modRect fun r =>
    { r with measurementHold := present, releaseSince := if present then none else r.releaseSince }

/-- A feeder's state notice at the Firing Unit: the retard feeders (06 R116). -/
def State.retardNotice (s : State) (f : Feeder) : State :=
  let x := s.feeder f
  s.modRect fun r =>
    { r with retard :=
        r.retard.set f (x.state == .tripping && (x.lastTripCause == .imax || x.lastTripCause == .rise)) }

/-- A feeder's entry into BREAKER_FAILED at the Firing Unit (06 R124). -/
def State.failureNotice (s : State) (f : Feeder) : State :=
  if (s.feeder f).state = .breakerFailed && s.rect.state.started then
    s.rectTrip .feederBreakerFailed (some (f.val : Int)) none
  else s

/-! ## The Line Clock (06 R104 to R109) -/

/-- The UNLOCKED notice: RUNNING stops its gates and goes to SYNCING (06 R113, R121). -/
def State.unlockedNotice (s : State) (cause : ClockCause) : State :=
  if s.rect.state = .running then
    ((s.modRect fun r => r.stopped s.station .syncing).rectEntry .rectifierSyncing .protection (.syncing cause)
      (some (s.rect.applied : Int))).rectToRunners
  else s.modRect Rectifier.stopGates

/-- The LOCKED notice: SYNCING enters RUNNING (06 R121). -/
def State.lockedNotice (s : State) : State :=
  if s.rect.state = .syncing then s.enterRunning else s

/-- A cycle start: the boundary that ends the old cycle, then the new cycle (06 R109, R111, R112). -/
def State.cycleNotice (s : State) : State :=
  s.modRect fun r => r.tickBoundary.cycleStart s.station

/-- The window of a mains period (06 R105, R106). -/
def inWindow (period : Nat) : Bool := decide (18000 ≤ period ∧ period ≤ 22000)

/-- How long the crossing watch lasts: 110 % of the period held, 24,200 us without one (06 R104). -/
def watchTime (period : Option Nat) : Nat :=
  match period with
  | some p => 110 * p
  | none => us 24200

/-- The clock's record after a crossing, its judgement given; last crossing and watch take this crossing's
values in every case (06 R104). -/
def State.crossingAt (s : State) (x : ClockState) (period : Option Nat) (accepted : Nat)
    (deviations : List Int) (tick : Option Nat) : State :=
  { s with clock :=
      { state := x, lastCrossing := some s.now, lastCrossingTime := some s.time.now, period := period,
        accepted := accepted, deviations := deviations, tick := tick,
        watch := some (s.now + watchTime period) } }

/-- The deviation of a crossing in ticks, rounded toward zero (06 R106; log 13). -/
def deviation (now last period : Nat) : Int :=
  (((now : Int) - (last + 100 * period)) * 720).tdiv (100 * period)

/-- The newest deviation and the one before both exceed 4 ticks (06 R106). -/
def slips (newest : Int) (older : List Int) : Bool :=
  match older with
  | d :: _ => decide (4 < newest.natAbs ∧ 4 < d.natAbs)
  | [] => false

/-- A crossing in ACQUIRING (06 R105). -/
def State.acquire (s : State) (measured : Nat) : State :=
  if !inWindow measured then s.crossingAt .acquiring none 0 [] none
  else
    match s.clock.period with
    | none => s.crossingAt .acquiring (some measured) 0 [] none
    | some held =>
      if 100 < (measured - held) + (held - measured) then s.crossingAt .acquiring (some measured) 0 [] none
      else if s.clock.accepted + 1 < 4 then
        s.crossingAt .acquiring (some measured) (s.clock.accepted + 1) [] none
      else
        ((s.crossingAt .locked (some measured) 4 [] (some 0)).rectEntry .syncLocked
          (value1 := some (measured : Int))).lockedNotice

/-- A crossing in LOCKED (06 R106). -/
def State.track (s : State) (last measured held : Nat) : State :=
  if !inWindow measured then
    ((s.crossingAt .acquiring none 0 [] none).rectEntry .syncLost .protection (.syncLost .window)
      (some (cap31 measured : Int))).unlockedNotice .window
  else
    let d := deviation s.now last held
    if slips d s.clock.deviations then
      ((s.crossingAt .acquiring (some measured) 0 [] none).rectEntry .syncSlip
        (value1 := some d) (value2 := s.clock.deviations.head?)).unlockedNotice .slip
    else
      (s.crossingAt .locked (some measured) s.clock.accepted ((d :: s.clock.deviations).take 2)
        (some 0)).cycleNotice

/-- A crossing (06 R104). -/
def State.crossing (s : State) : State :=
  match s.clock.state, s.clock.lastCrossing with
  | .unlocked, _ => s.crossingAt .acquiring none 0 [] none
  | .acquiring, some last => s.acquire (inUs (s.now - last))
  | .acquiring, none => s.crossingAt .acquiring s.clock.period s.clock.accepted [] none
  | .locked, some last => s.track last (inUs (s.now - last)) (s.clock.period.getD 20000)
  | .locked, none => s.crossingAt .acquiring none 0 [] none

/-- ZERO_CROSSING (06 R104). -/
def execZeroCrossing (s : State) : Host.Outcome State Fault Refusal :=
  live s State.crossing

/-- The watch runs out (06 R107). -/
def State.watchOut (s : State) : State :=
  let t := ({ s with clock := LineClock.reset }).rectEntry .syncLost .protection (.syncLost .timeout)
  if s.clock.state = .locked then t.unlockedNotice .timeout else t

/-- CROSSING_WATCH_EXPIRY (06 R107). -/
def execCrossingWatchExpiry (s : State) : Host.Outcome State Fault Refusal :=
  live s fun s => if s.reached s.clock.watch then s.watchOut else s

/-- The time from a crossing to the end of tick n, in us (06 R108). -/
def tickEnd (period n : Nat) : Nat := (n + 1) * (period / 720) + min (n + 1) (period % 720)

/-- The instant at which the present tick ends; none at tick 719, which holds (06 R108). -/
def State.tickDue (s : State) : Option Instant :=
  match s.clock.tick, s.clock.period, s.clock.lastCrossing with
  | some n, some p, some t => if n < 719 then some (t + us (tickEnd p n)) else none
  | _, _, _ => none

/-- The counter advances: a boundary for the pulses, then the tick it begins (06 R108, R111, R112). -/
def State.advanceTick (s : State) (n : Nat) : State :=
  ({ s with clock := { s.clock with tick := some (n + 1) } }).modRect fun r =>
    r.tickBoundary.beginTick (n + 1)

/-- TICK (06 R108). -/
def execTick (s : State) : Host.Outcome State Fault Refusal :=
  live s fun s =>
    match s.clock.tick with
    | some n => if s.reached s.tickDue then s.advanceTick n else s
    | none => s

end Sys2Proof.Machine
end

