-- ==== Sys2Proof/Machine/FaultDetection.lean ====
section
/-! DEFINITION. Fault Detection (03): protection, the Imax, rise and blind elements, and trip requests on
their way to Breaker Control. -/

set_option Elab.async false

namespace Sys2Proof.Machine

/-- The continuity mark of a frame handed on (01 R3). -/
inductive Continuity where
  | restart | continuous | gap
  deriving DecidableEq, Repr

/-- The feeder states in which a feeder is protected (03 R40). -/
def FeederState.protected' : FeederState → Bool
  | .closing | .closed => true
  | _ => false

/-- The rise record cleared: QUIET (03 R41, R43, R50). -/
def FaultRecord.quiet (d : FaultRecord) : FaultRecord :=
  { d with i0 := none, riseCounter := 0, lowCount := 0 }

/-- History and rise fields as a new run starts with them (03 R40, R41, R43). -/
def FaultRecord.cleared (d : FaultRecord) : FaultRecord :=
  { d.quiet with history := [], previousIf := none }

/-- Protection becomes ACTIVE (03 R40). -/
def FaultRecord.activate (d : FaultRecord) (now : Instant) : FaultRecord :=
  { d.cleared with active := true, outstanding := false, protectSince := some now }

/-- Protection becomes INACTIVE; blind since is kept (03 R41). -/
def FaultRecord.deactivate (d : FaultRecord) : FaultRecord :=
  { d.cleared with active := false, outstanding := false, protectSince := none }

/-- What a notice that moves the feeder from one state into another makes of protection (03 R40, R41). -/
def FaultRecord.moved (d : FaultRecord) (old new : FeederState) (now : Instant) : FaultRecord :=
  match old.protected', new.protected' with
  | false, true => d.activate now
  | true, false => d.deactivate
  | _, _ => d

/-- A feeder's state notice at Fault Detection (03 R40, R41). -/
def State.protectionNotice (s : State) (old : FeederState) (f : Feeder) : State :=
  s.modFault f fun d => d.moved old (s.feeder f).state s.now

/-- A group notice: the copy changes and the rise detector is cleared (03 R50). -/
def State.groupNotice (s : State) (f : Feeder) (g : GroupName) : State :=
  s.modFault f fun d => { d.quiet with group := g }

/-- Blind since is set where it is none (03 R42). -/
def FaultRecord.blindFrom (d : FaultRecord) (t : Instant) : FaultRecord :=
  { d with blindSince := some (d.blindSince.getD t) }

/-- The blind deadline (03 R52). -/
def State.blindDeadline (s : State) (f : Feeder) : Option Instant :=
  let d := s.fault f
  match d.active, d.blindSince, d.protectSince with
  | true, some b, some p => some (max b p + ms (s.config f).blindLimit)
  | _, _, _ => none

/-- The values of the group copy (03). -/
def FeederSettings.groupValues (v : FeederSettings) : GroupName → Group
  | .normal => v.normal
  | .isolated => v.isolated

/-- What a frame's element decided: cause and the two values. -/
abbrev Verdict := Option (TripCause × Int × Int)

/-- The Imax element on a judged frame (03 R44, R45). -/
def imaxElement (g : Group) (d : FaultRecord) (i : Int) : FaultRecord × Verdict :=
  let history := pushMark d.history (decide (g.imax ≤ i.natAbs))
  ({ d with history := history }, if picksUp history then some (.imax, i, (g.imax : Int)) else none)

/-- The step of a frame (03 R46). -/
def frameStep (d : FaultRecord) (mark : Continuity) (i : Int) : Option Int :=
  match mark, d.previousIf with
  | .continuous, some p => some (i - p)
  | _, _ => none

/-- The rise element in QUIET (03 R47). -/
def riseQuiet (g : Group) (d : FaultRecord) (step : Option Int) : FaultRecord × Verdict :=
  match step with
  | some x =>
    if (g.r1 : Int) ≤ x then ({ d with i0 := d.previousIf, riseCounter := 0, lowCount := 0 }, none)
    else (d, none)
  | none => (d, none)

/-- The rise element in RISING (03 R48). -/
def riseRising (g : Group) (d : FaultRecord) (i0 : Int) (step : Option Int) (i : Int) :
    FaultRecord × Verdict :=
  let counter := bump d.riseCounter
  let low :=
    match step with
    | some x => if x < (g.r2 : Int) then d.lowCount + 1 else 0
    | none => d.lowCount
  let d := { d with riseCounter := counter, lowCount := low }
  if (g.deltaI : Int) ≤ i - i0 ∧ g.tr ≤ counter then (d, some (.rise, i - i0, (counter : Int)))
  else if low = 2 then (d.quiet, none)
  else (d, none)

/-- The rise element (03 R46 to R48). -/
def riseElement (g : Group) (d : FaultRecord) (mark : Continuity) (i : Int) : FaultRecord × Verdict :=
  match d.i0 with
  | none => riseQuiet g d (frameStep d mark i)
  | some i0 => riseRising g d i0 (frameStep d mark i) i

/-- Both elements on a judged frame, and previous If (03 R43, steps 5 to 7). -/
def judgeFrame (g : Group) (d : FaultRecord) (mark : Continuity) (i : Int) : FaultRecord × Verdict :=
  let x := imaxElement g d i
  let y := if x.2.isSome then x else riseElement g x.1 mark i
  ({ y.1 with previousIf := some i }, y.2)

/-- A trip request is sent (03 R54, R57). -/
def FaultRecord.request (d : FaultRecord) (x : TripDecision) : FaultRecord :=
  { d with outstanding := true, lastDecision := some x, requests := d.requests ++ [x] }

/-- A frame at Fault Detection, as one arrival (03 R43). -/
def faultFrame (g : Group) (time : StationTime) (mark : Continuity) (number : Nat) (i u : Option Int)
    (d : FaultRecord) : FaultRecord :=
  match i with
  | none => if d.active && !d.outstanding then d.cleared else d
  | some v =>
    let d := { d with blindSince := none }
    if d.active && !d.outstanding then
      let d := if mark = .restart then d.cleared else d
      match judgeFrame g d mark v with
      | (d, some (cause, v1, v2)) =>
        d.request { cause := cause, group := d.group, frame := some number, current := i, voltage := u,
                    value1 := v1, value2 := v2, time := time }
      | (d, none) => d
    else d

/-- A frame reaches the Fault Detection of a feeder. -/
def State.frameAtFault (s : State) (mark : Continuity) (number : Nat) (q : Quantities) (f : Feeder) : State :=
  s.modFault f fun d =>
    faultFrame ((s.config f).groupValues d.group) s.time.now mark number (q.ifs.get f) (q.ufs.get f) d

/-- The blind deadline is due (03 R53). -/
def State.blindDue (s : State) (f : Feeder) : Bool :=
  !(s.fault f).outstanding && s.reached (s.blindDeadline f)

/-- The BLIND request: the unmeasured time up to the deadline in us, and the Sample Port state (03 R53). -/
def State.blindRequest (s : State) (f : Feeder) : TripDecision :=
  { cause := .blind, group := (s.fault f).group, frame := none, current := none, voltage := none,
    value1 := (cap31 (inUs ((s.blindDeadline f).getD s.now - (s.fault f).blindSince.getD s.now)) : Int),
    value2 := (s.sample.state.code : Int), time := s.time.now }

/-- BLIND_DEADLINE_EXPIRY (03 R53). -/
def execBlindDeadlineExpiry (f : Feeder) (s : State) : Host.Outcome State Fault Refusal :=
  live s fun s => if s.blindDue f then s.modFault f fun d => d.request (s.blindRequest f) else s

end Sys2Proof.Machine
end

