-- ==== Sys2Proof/Machine/BreakerOps.lean ====
section
/-! DEFINITION. Breaker Control (02, 04): the feeder's states, the close interlock checks, the phase choice,
claim, test and close, the trip, reclose and lockout, and the group in use; and the commands of the family
that come from deadlines and from Fault Detection. -/

set_option Elab.async false

namespace Sys2Proof.Machine

/-- Seconds as clock counts. -/
def sec (n : Nat) : Nat := ms (1000 * n)

/-! ## Records of the states (02 R25) -/

/-- The fields that belong to one state only are absent in the state entered. -/
def FeederRecord.leave (r : FeederRecord) (x : FeederState) : FeederRecord :=
  { r with state := x, operation := none, recloseDue := none, deferred := false, lockoutReason := none,
           reclaimWatch := none }

/-- Entry into OPEN: attempts 0 (04 R77). -/
def FeederRecord.toOpen (r : FeederRecord) : FeederRecord := { r.leave .opened with attempts := 0 }

/-- Entry into RECLOSE_WAIT (04 R75). -/
def FeederRecord.toRecloseWait (r : FeederRecord) (due : Instant) : FeederRecord :=
  { r.leave .recloseWait with recloseDue := some due }

/-- Entry into LOCKED_OUT (04 R78). -/
def FeederRecord.toLockedOut (r : FeederRecord) (reason : LockoutReason) : FeederRecord :=
  { r.leave .lockedOut with lockoutReason := some reason }

/-- Entry into CLOSED: reclaim start, peak If and the reclaim watch (04 R73, R83). -/
def FeederRecord.toClosed (r : FeederRecord) (time : StationTime) (watch : Instant) : FeederRecord :=
  { r.leave .closed with reclaimStart := some time, peakIf := 0, reclaimWatch := some watch }

/-- Entry into a state with an operation. -/
def FeederRecord.toPhase (r : FeederRecord) (x : FeederState) (op : Operation) : FeederRecord :=
  { r.leave x with operation := some op }

/-- Attempts rise by one and stop at 5 (04 R77). -/
def FeederRecord.attempt (r : FeederRecord) : FeederRecord := { r with attempts := min (r.attempts + 1) 5 }

/-- RECLOSE_WAIT with its delay restarted for an AUTO close, OPEN for any other (04 R74). -/
def State.waitOrOpen (s : State) (f : Feeder) (op : Operation) (r : FeederRecord) : FeederRecord :=
  if op.origin = .auto then r.toRecloseWait (s.now + sec (s.config f).recloseDelay) else r.toOpen

def State.enterClosed (s : State) (f : Feeder) (r : FeederRecord) : FeederRecord :=
  r.toClosed s.time.now (s.now + sec (s.config f).reclaimTime)

/-- A change of feeder state, handed to Fault Detection, the Firing Unit and the link of the far link (02
R25, 03 R40, 06 R116, R124). -/
def State.feederNotices (s : State) (old : FeederState) (f : Feeder) : State :=
  if (s.feeder f).state = old then s
  else (((s.protectionNotice old f).retardNotice f).queueFeederEnd f).failureNotice f

/-! ## The group in use (02 R33) -/

def groupFor (farLink : Option LinkId) (farState : Option FeederState) : GroupName :=
  if farLink.isSome && farState != some .closed then .isolated else .normal

/-- The group is evaluated again, with a group notice when it changes (02 R33, 03 R50). -/
def State.regroup (s : State) (f : Feeder) : State :=
  let g := groupFor (s.config f).farLink (s.section' f).farState
  if (s.feeder f).ready && (s.feeder f).group != g then
    (s.modFeeder f fun r => { r with group := g }).groupNotice f g
  else s

/-- Far state takes a value (`none` is UNKNOWN); a change reaches the group rule and the waits (02 R28, R30,
09 R176). -/
def State.setFarState (s : State) (f : Feeder) (x : Option FeederState) : State :=
  if (s.section' f).farState = x then s
  else ((s.modSection f fun r => { r with farState := x }).regroup f).judgeWaits (readsFar f)

/-! ## The close interlock checks (02 R36) -/

/-- Check 6: the Sample Port is VALID and Uf of the feeder is assigned. -/
def State.measured (s : State) (f : Feeder) : Bool :=
  s.sample.state == .valid && s.settings.slotMap.cells.contains (.feederVoltage f)

/-- Checks 6 and 7, made again after a HEALTHY test (04 R71). -/
def State.recheck (s : State) (f : Feeder) : Option InterlockCause :=
  if !s.measured f then some .measurementLost
  else if !s.busLive then some .busDead
  else none

/-- Checks 1 to 4; `auto` says that the origin is AUTO. -/
def State.stateCheck (s : State) (f : Feeder) (auto : Bool) : Option InterlockCause :=
  if !(s.config f).inService then some .notInService
  else
    match (s.feeder f).state with
    | .lockedOut => some .lockedOut
    | .breakerFailed => some .breakerFailed
    | .opened => none
    | .recloseWait => if auto then none else some .state
    | _ => some .state

/-- Check 5. -/
def State.positionCheck (s : State) (f : Feeder) : Option InterlockCause :=
  match s.position f with
  | .opened => none
  | .invalid => some .positionInvalid
  | .closed => some .state

/-- All eight checks, in order (02 R36). -/
def State.closeCheck (s : State) (f : Feeder) (auto : Bool) : Option InterlockCause :=
  (s.stateCheck f auto).or ((s.positionCheck f).or ((s.recheck f).or
    (if (s.section' f).claim = .grantedToFar then some .farTest else none)))

/-! ## The end of a close operation (04 R74) -/

/-- The CLOSE RESULT entry, after the next state is entered (log 15). -/
def State.closeResultEntry (s : State) (f : Feeder) (op : Operation) (result : CloseResult) : State :=
  s.addEntry .closeResult (.feeder f) op.origin (.closeResult result) (some (s.msSince op.startAt))
    (some (s.feeder f).attempts)

/-- What the end of an operation reaches in other blocks: the runner awaiting it and the notices. -/
def State.closeEnded (s : State) (old : FeederState) (f : Feeder) (result : CloseResult) : State :=
  (s.closeToRunners f result).feederNotices old f

/-- A close operation ends with a result and the feeder takes its next state. -/
def State.endClose (s : State) (f : Feeder) (op : Operation) (result : CloseResult)
    (next : FeederRecord → FeederRecord) : State :=
  ((s.modFeeder f next).closeResultEntry f op result).closeEnded (s.feeder f).state f result

/-! ## The claim (04 R67, R68, R81; 07 R143, R147) -/

/-- The feeder's own signal is still pending on its far link. -/
def State.pendingFar (s : State) (f : Feeder) (g : Feeder → Signal) : Bool :=
  match (s.config f).farLink with
  | some l => (s.link l).pendingSet.any fun e => e.signal = g (s.config f).farFeeder
  | none => false

/-- What an abort does with the claim: TEST DONE, or the claim withdrawn if it was never sent (04 R81). -/
def State.releaseClaim (s : State) (f : Feeder) : State :=
  match (s.section' f).claim with
  | .grantedToUs => (s.postFar f .testDone).setClaim f .idle none
  | .claimSent =>
    if s.pendingFar f .testClaim then (s.withdrawFar f .testClaim).setClaim f .idle none
    else (s.postFar f .testDone).setClaim f .idle none
  | .idle | .grantedToFar => s

/-- Entry into CLOSING, by either path (04 R71). -/
def State.enterClosing (s : State) (f : Feeder) (op : Operation) : State :=
  let op' := { op with deadline := some (s.now + ms (s.config f).closeConfirm) }
  (s.modFeeder f fun r =>
    let r := r.toPhase .closing op'
    if op.origin = .auto then r.attempt else r).feederNotices (s.feeder f).state f

/-- Entry into TESTING, or the end of the operation when the Sample Port is not VALID (04 R69). -/
def State.enterTesting (s : State) (f : Feeder) (op : Operation) (mode : TestMode) : State :=
  if s.sample.state = .valid then
    let op' := { op with deadline := some (s.now + ms (s.config f).testTime), testMode := mode }
    (s.modFeeder f fun r => r.toPhase .testing op').feederNotices (s.feeder f).state f
  else (s.releaseClaim f).endClose f op (.interlocked .measurementLost) (s.waitOrOpen f op)

/-- A test without a claim on a section with a far end (04 R67, R68). -/
def State.testUnclaimed (s : State) (f : Feeder) (op : Operation) (lost : Bool) : State :=
  (s.addEntry .unclaimedTest (.feeder f) op.origin (.unclaimedTest lost)).enterTesting f op .unclaimed

/-- Row 1 of the phase choice: the far end has energised the line (04 R67). -/
def State.lineLive (s : State) (f : Feeder) : Bool :=
  (s.section' f).farState == some .closed &&
    match s.sample.last.values.ufs.get f, s.sample.last.values.ub with
    | some u, some b => decide (90 * b ≤ 100 * u)
    | _, _ => false

/-- A claim begins (07 R143). -/
def State.beginClaim (s : State) (f : Feeder) (op : Operation) : State :=
  (((s.modFeeder f fun r => r.toPhase .claiming { op with deadline := none }).postFar f .testClaim).setClaim
    f .claimSent (some (s.now + ms 100))).feederNotices (s.feeder f).state f

/-- The phase choice (04 R67). -/
def State.phaseChoice (s : State) (f : Feeder) (op : Operation) : State :=
  if s.lineLive f then s.enterClosing f { op with testMode := .noTest }
  else
    match (s.config f).farLink with
    | none => s.enterTesting f op .unclaimed
    | some l =>
      if (s.link l).state ≠ .up then s.testUnclaimed f op false
      else if (s.link l).conflict || (s.section' f).matching == .mismatch then
        s.endClose f op .claimConflict (s.waitOrOpen f op)
      else s.beginClaim f op

/-- A close operation begins (04 R66). -/
def State.beginClose (s : State) (f : Feeder) (origin : Origin) : State :=
  s.phaseChoice f
    { kind := .close, origin := origin, startTime := s.time.now, startAt := s.now, deadline := none,
      testMode := .noTest }

/-- A close operation in CLAIMING or TESTING is aborted (04 R81). -/
def State.abortClose (s : State) (f : Feeder) (result : CloseResult)
    (next : Operation → FeederRecord → FeederRecord) : State :=
  match (s.feeder f).operation with
  | some op => (s.releaseClaim f).endClose f op result (next op)
  | none => s

/-! ## Lockout and reclose (04 R75 to R79) -/

/-- The LOCKOUT entry (04 R78). -/
def State.lockoutEntry (s : State) (f : Feeder) (reason : LockoutReason) : State :=
  s.addEntry .lockout (.feeder f) (match reason with | .attempts => .auto | .breakerFailed => .protection)
    (.lockout reason) (some (s.feeder f).attempts)

/-- Entry into LOCKED_OUT from RECLOSE_WAIT. -/
def State.lockOut (s : State) (f : Feeder) (reason : LockoutReason) : State :=
  ((s.modFeeder f fun r => r.toLockedOut reason).lockoutEntry f reason).feederNotices (s.feeder f).state f

/-- A reclose held by its checks: the delay restarts (04 R75). -/
def State.holdReclose (s : State) (f : Feeder) (cause : InterlockCause) : State :=
  (s.modFeeder f fun r =>
    { r with recloseDue := some (s.now + sec (s.config f).recloseDelay), deferred := false }).addEntry
    .recloseHeld (.feeder f) .auto (.interlock cause)

/-- The steps of a reached reclose due (04 R75, R76). -/
def State.recloseSteps (s : State) (f : Feeder) : State :=
  let most := (s.config f).maxReclose
  if most ≤ (s.feeder f).attempts then
    if most = 0 then (s.modFeeder f FeederRecord.toOpen).feederNotices (s.feeder f).state f
    else s.lockOut f .attempts
  else
    match s.closeCheck f true with
    | none => s.beginClose f .auto
    | some .farTest => s.modFeeder f fun r => { r with deferred := true }
    | some cause => s.holdReclose f cause

/-- The reclose delay has ended and the reclose is not deferred. -/
def State.recloseIsDue (s : State) (f : Feeder) : Bool :=
  (s.feeder f).state == .recloseWait && !(s.feeder f).deferred && s.reached (s.feeder f).recloseDue

/-- RECLOSE_DUE (04 R75). -/
def execRecloseDue (f : Feeder) (s : State) : Host.Outcome State Fault Refusal :=
  live s fun s => if s.recloseIsDue f then s.recloseSteps f else s

/-- The end of a grant to the far end: what waited goes on (02 R32, 04 R68, R76). -/
def State.grantEnded (s : State) (f : Feeder) : State :=
  let t := s.setClaim f .idle none
  let r := t.feeder f
  match r.state, r.operation, r.deferred with
  | .claiming, some op, _ => t.phaseChoice f op
  | .recloseWait, _, true => t.recloseSteps f
  | _, _, _ => t

/-- The reclaim time has run (04 R77). -/
def State.reclaimIsDue (s : State) (f : Feeder) : Bool :=
  (s.feeder f).state == .closed && s.reached (s.feeder f).reclaimWatch

def State.reclaim (s : State) (f : Feeder) : State :=
  let n := (s.feeder f).attempts
  let t := s.modFeeder f fun r => { r with attempts := 0, reclaimWatch := none }
  if 0 < n then t.addEntry .reclaimed (.feeder f) .auto (value1 := some (n : Int)) else t

/-- RECLAIM_WATCH_EXPIRY (04 R77). -/
def execReclaimWatchExpiry (f : Feeder) (s : State) : Host.Outcome State Fault Refusal :=
  live s fun s => if s.reclaimIsDue f then s.reclaim f else s

/-! ## Deadlines of claim, test and close -/

/-- The claim has run out (04 R68, 07 R143). -/
def State.claimTimeout (s : State) (f : Feeder) : State :=
  let t := (s.postFar f .testDone).setClaim f .idle none
  match (s.feeder f).operation with
  | some op => t.endClose f op .claimTimeout (s.waitOrOpen f op)
  | none => t

def State.claimIsDue (s : State) (f : Feeder) (c : ClaimState) : Bool :=
  (s.section' f).claim == c && s.reached (s.section' f).claimDeadline

/-- CLAIM_DEADLINE (07 R143). -/
def execClaimDeadline (f : Feeder) (s : State) : Host.Outcome State Fault Refusal :=
  live s fun s => if s.claimIsDue f .claimSent then s.claimTimeout f else s

/-- The operation of a feeder in a state whose phase deadline is reached. -/
def State.phaseDue (s : State) (f : Feeder) (x : FeederState) : Option Operation :=
  if (s.feeder f).state = x then
    match (s.feeder f).operation with
    | some op => if s.reached op.deadline then some op else none
    | none => none
  else none

/-- What a FAULTY test leads an AUTO close to (04 R72). -/
def State.faultyNext (s : State) (f : Feeder) (r : FeederRecord) : FeederRecord :=
  let r := r.attempt
  if r.attempts < (s.config f).maxReclose then r.toRecloseWait (s.now + sec (s.config f).recloseDelay)
  else r.toLockedOut .attempts

/-- A FAULTY test (04 R72). -/
def State.lineFaulty (s : State) (f : Feeder) (op : Operation) : State :=
  let next := if op.origin = .auto then s.faultyNext f else FeederRecord.toOpen
  let t := (s.modFeeder f next).closeResultEntry f op .lineFaulty
  let t := if (t.feeder f).state = .lockedOut then t.lockoutEntry f .attempts else t
  t.closeEnded (s.feeder f).state f .lineFaulty

/-- A HEALTHY test: checks 6 and 7 again, then CLOSING (04 R71). -/
def State.lineHealthy (s : State) (f : Feeder) (op : Operation) : State :=
  match s.recheck f with
  | none => s.enterClosing f op
  | some .measurementLost => s.endClose f op (.interlocked .measurementLost) (s.waitOrOpen f op)
  | some cause => s.endClose f op (.interlocked cause) FeederRecord.toOpen

/-- The test ends and is judged (04 R70). With Uf and Ub both absent the rule gives two causes and no order between
them: the model takes MEASUREMENT_LOST (log 47). -/
def State.judgeTest (s : State) (f : Feeder) (op : Operation) : State :=
  let s := if op.testMode = .claimed then (s.postFar f .testDone).setClaim f .idle none else s
  match s.sample.last.values.ufs.get f, s.sample.last.values.ub with
  | none, _ => s.endClose f op (.interlocked .measurementLost) (s.waitOrOpen f op)
  | some _, none => s.endClose f op (.interlocked .busDead) FeederRecord.toOpen
  | some u, some b =>
    let healthy := decide (((s.config f).healthy : Int) * b ≤ 100 * u)
    let t := s.addEntry .lineTest (.feeder f) op.origin (.lineTest healthy op.testMode) (some u) (some b)
    if healthy then t.lineHealthy f op else t.lineFaulty f op

/-- TEST_END (04 R70). -/
def execTestEnd (f : Feeder) (s : State) : Host.Outcome State Fault Refusal :=
  live s fun s =>
    match s.phaseDue f .testing with
    | some op => s.judgeTest f op
    | none => s

/-- CLOSE_CONFIRM_LIMIT (04 R73). -/
def execCloseConfirmLimit (f : Feeder) (s : State) : Host.Outcome State Fault Refusal :=
  live s fun s =>
    match s.phaseDue f .closing with
    | some op => s.endClose f op .closeFailed FeederRecord.toOpen
    | none => s

/-- The Sample Port's notice of leaving VALID at a feeder: a test ends (04 R81). -/
def State.measurementLoss (s : State) (f : Feeder) : State :=
  if (s.feeder f).state = .testing then
    s.abortClose f (.interlocked .measurementLost) (s.waitOrOpen f)
  else s

/-! ## The trip (04 R60, R61) -/

/-- The overtaking event of a trip (04 R60). -/
def TripCause.overtaking : TripCause → Overtaking
  | .commanded => .openRequest
  | .transfer => .transferTrip
  | _ => .trip

/-- The causes a protection request carries. -/
def TripCause.protective : TripCause → Bool
  | .imax | .rise | .blind => true
  | _ => false

/-- The buffer that the capture of a trip with a cause takes (04 R61, 10 R192). -/
def State.captureAsked (s : State) (f : Feeder) (cause : TripCause) : Option (Fin 4) :=
  if cause = .commanded then none else s.captureFor f

/-- The TRIP entry, with the capture that it names or the NO CAPTURE flag (04 R61, 10 R192). -/
def State.tripEntry (s : State) (f : Feeder) (cause : TripCause) (origin : Origin) (isolated : Bool)
    (value1 value2 : Option Int) : State :=
  match s.captureAsked f cause with
  | some n =>
    (s.startCapture n f cause).addEntry .trip (.feeder f) origin (.trip cause isolated false) value1 value2 (some n)
  | none => s.addEntry .trip (.feeder f) origin (.trip cause isolated (cause != .commanded)) value1 value2

/-- The CAPTURE HELD entry of a buffer that was HELD at its start (10 R192, R193). -/
def State.heldAtStart (s : State) (buffer : Option (Fin 4)) : State :=
  match buffer with
  | some n =>
    match s.captures.buffers.get n with
    | some c => if c.held then s.captureHeldEntry n c else s
    | none => s
  | none => s

/-- What a trip taken in CLOSING or CLOSED reaches in other blocks: the notices, and the runner that awaited the close
(04 R60, R61). -/
def State.tripEnded (s : State) (old : FeederState) (f : Feeder) (result : CloseResult) : State :=
  if old = .closing then s.closeEnded old f result else s.feederNotices old f

/-- Entry into TRIPPING (04 R60). -/
def State.toTripping (s : State) (f : Feeder) (cause : TripCause) (origin : Origin) : State :=
  s.modFeeder f fun r =>
    { r.toPhase .tripping
        { kind := .opening, origin := origin, startTime := s.time.now, startAt := s.now,
          deadline := some (s.now + ms (s.config f).tripConfirm), testMode := .noTest } with
      lastTripCause := cause }

/-- What Breaker Control does itself at a trip: the state, CLOSE RESULT of a close overtaken, TRIP, and a TRANSFER TRIP
posted (04 R60, R61). -/
def State.tripTaken (s : State) (f : Feeder) (cause : TripCause) (origin : Origin) (isolated : Bool)
    (value1 value2 : Option Int) : State :=
  let t := s.toTripping f cause origin
  let t :=
    match (s.feeder f).state, (s.feeder f).operation with
    | .closing, some op => t.closeResultEntry f op (.aborted cause.overtaking)
    | _, _ => t
  let t := t.tripEntry f cause origin isolated value1 value2
  if cause.protective then t.postFar f .transferTrip else t

/-- A trip taken in CLOSING or CLOSED (04 R60, R61). Breaker Control's own entries come first (log 30); the CAPTURE HELD
of the Capture Unit and the entries of a runner that awaited the close follow in a free order (10 R184; log 3). -/
def State.tripFeeder (s : State) (f : Feeder) (cause : TripCause) (origin : Origin) (isolated : Bool)
    (value1 value2 : Option Int) : State :=
  together [fun t => t.heldAtStart (s.captureAsked f cause),
    fun t => t.tripEnded (s.feeder f).state f (.aborted cause.overtaking)]
    (s.tripTaken f cause origin isolated value1 value2)

/-- A protection request taken by Breaker Control (03 R55, R56). -/
def State.takeRequest (s : State) (f : Feeder) (x : TripDecision) : State :=
  if (s.feeder f).state.protected' then
    s.tripFeeder f x.cause .protection (x.group == .isolated) (some x.value1) (some x.value2)
  else s

/-- A trip request is on its way to Breaker Control (03 R54). -/
def State.requestUnderWay (s : State) : Bool := eight.any fun f => !(s.fault f).requests.isEmpty

/-- A request is taken. A frame still late then reaches the Capture Unit: at the end of the event, or, while another
request is on its way, then or later, a free choice (10 R193; log 32). -/
def State.frameAfterTrip (s : State) : State :=
  if s.captures.late.isSome ∧ s.requestUnderWay then
    let t := { s with choices := s.choices + 1 }
    if Config.choice s.choices % 2 = 0 then t.settleCaptures else t
  else s.settleCaptures

/-- TRIP_REQUEST (03 R55): the oldest request on its way. -/
def execTripRequest (f : Feeder) (s : State) : Host.Outcome State Fault Refusal :=
  live s fun s =>
    match (s.fault f).requests with
    | x :: rest => ((s.modFault f fun d => { d with requests := rest }).takeRequest f x).frameAfterTrip
    | [] => s

/-- The group in use at entry is ISOLATED. -/
def State.isolated (s : State) (f : Feeder) : Bool := (s.feeder f).group == .isolated

/-- OPEN FEEDER in the feeder's state (04 R80). -/
def State.openFeeder (s : State) (f : Feeder) (origin : Origin) : State :=
  match (s.feeder f).state with
  | .closed | .closing => s.tripFeeder f .commanded origin (s.isolated f) (s.feeder f).lastIf none
  | .claiming | .testing => s.abortClose f (.aborted .openRequest) fun _ => FeederRecord.toOpen
  | .recloseWait => (s.modFeeder f FeederRecord.toOpen).feederNotices .recloseWait f
  | .opened | .lockedOut | .tripping | .breakerFailed => s

/-- The TT IGNORED entry (02 R24, 04 R82; log 16 for a feeder that is not ready). -/
def State.ttIgnored (s : State) (f : Feeder) (l : LinkId) : State :=
  s.addEntry .ttIgnored (.feeder f) (linkOrigin l)
    (if (s.feeder f).ready then .feederState (s.feeder f).state else .nothing)

/-- A transfer trip accepted for a feeder whose far link is this link (04 R82, 07 R142). -/
def State.takeTransferTrip (s : State) (f : Feeder) (l : LinkId) : State :=
  if !(s.feeder f).ready then s.ttIgnored f l
  else
    match (s.feeder f).state with
    | .closed | .closing =>
      s.tripFeeder f .transfer (linkOrigin l) (s.isolated f) (s.feeder f).lastIf
        (some ((s.config f).farFeeder.val : Int))
    | .claiming | .testing => s.abortClose f (.aborted .transferTrip) (s.waitOrOpen f)
    | _ => s.ttIgnored f l

/-- The trip was not confirmed in time (04 R64). -/
def State.breakerFails (s : State) (f : Feeder) (op : Operation) : State :=
  let applied := inMs (op.deadline.getD s.now - op.startAt)
  ((((s.modFeeder f fun r => r.toPhase .breakerFailed { op with deadline := none }).addEntry .breakerFailed
    (.feeder f) .protection (.failedTrip (s.feeder f).lastTripCause) (some (applied : Int))
    (some ((s.position f).code : Int))).postFar f .transferTrip)).feederNotices .tripping f

/-- TRIP_CONFIRM_LIMIT (04 R64). -/
def execTripConfirmLimit (f : Feeder) (s : State) : Host.Outcome State Fault Refusal :=
  live s fun s =>
    match s.phaseDue f .tripping with
    | some op => s.breakerFails f op
    | none => s

/-! ## Position changes (04 R63, R65, R73, R78, R83) -/

/-- The state a confirmed trip leads to (04 R63). -/
def State.afterTrip (s : State) (f : Feeder) (r : FeederRecord) : FeederRecord :=
  let most := (s.config f).maxReclose
  if r.lastTripCause = .commanded ∨ most = 0 then r.toOpen
  else if r.attempts < most then r.toRecloseWait (s.now + sec (s.config f).recloseDelay)
  else r.toLockedOut .attempts

/-- TRIP CLEARED: the entry names the next state and the time since entry into TRIPPING, and LOCKOUT
follows it (04 R63, R65, R78). -/
def State.tripCleared (s : State) (f : Feeder) (op : Operation) (next : FeederRecord → FeederRecord) : State :=
  let t := s.modFeeder f next
  let x := (t.feeder f).state
  let t := t.addEntry .tripCleared (.feeder f) op.origin (.feederState x) (some (s.msSince op.startAt))
  let t :=
    match (t.feeder f).lockoutReason with
    | some reason => t.lockoutEntry f reason
    | none => t
  t.feederNotices (s.feeder f).state f

/-- The CLOSED UNCOMMANDED entry (04 R78, R83). -/
def State.closedUncommandedEntry (s : State) (f : Feeder) (detail : Detail := .nothing) : State :=
  s.addEntry .closedUncommanded (.feeder f) .protection detail

/-- An unawaited position CLOSED in OPEN or RECLOSE_WAIT (04 R83). -/
def State.closedUncommanded (s : State) (f : Feeder) : State :=
  ((s.modFeeder f (s.enterClosed f)).closedUncommandedEntry f).feederNotices (s.feeder f).state f

/-- An unawaited position CLOSED in CLAIMING or TESTING (04 R83). -/
def State.closedDuringTest (s : State) (f : Feeder) (op : Operation) : State :=
  let result := CloseResult.aborted .uncommandedClose
  ((((s.releaseClaim f).modFeeder f (s.enterClosed f)).closeResultEntry f op result).closedUncommandedEntry
    f).closeEnded (s.feeder f).state f result

/-- An unawaited position OPEN in CLOSED (04 R83). -/
def State.openedUncommanded (s : State) (f : Feeder) : State :=
  ((s.modFeeder f FeederRecord.toOpen).addEntry .openedUncommanded (.feeder f) .protection
    (value1 := (s.feeder f).lastIf)).feederNotices (s.feeder f).state f

/-- A position OPEN at the state machine. -/
def State.positionOpened (s : State) (f : Feeder) : State :=
  match (s.feeder f).state, (s.feeder f).operation with
  | .tripping, some op => s.tripCleared f op (s.afterTrip f)
  | .breakerFailed, some op => s.tripCleared f op fun r => r.toLockedOut .breakerFailed
  | .closed, _ => s.openedUncommanded f
  | _, _ => s

/-- A position CLOSED at the state machine. -/
def State.positionClosed (s : State) (f : Feeder) : State :=
  match (s.feeder f).state, (s.feeder f).operation with
  | .closing, some op => s.endClose f op .closedOk (s.enterClosed f)
  | .opened, _ | .recloseWait, _ => s.closedUncommanded f
  | .claiming, some op | .testing, some op => s.closedDuringTest f op
  | .lockedOut, _ => s.closedUncommandedEntry f (.feederState .lockedOut)
  | _, _ => s

/-- A change of a ready feeder's debounced position at its state machine (02 R20). -/
def State.positionChange (s : State) (f : Feeder) (pos : Position) : State :=
  match pos with
  | .opened => s.positionOpened f
  | .closed => s.positionClosed f
  | .invalid => s

/-- RESET LOCKOUT in LOCKED_OUT (04 R79). -/
def State.resetLockout (s : State) (f : Feeder) (origin : Origin) : State :=
  let t := ((s.modFeeder f FeederRecord.toOpen).addEntry .lockoutReset (.feeder f) origin).feederNotices
    .lockedOut f
  if t.position f = .closed then t.closedUncommanded f else t

/-! ## Frames at Breaker Control (02 R26) -/

/-- Last If, last Uf and peak If of a ready feeder. -/
def FeederRecord.frame (r : FeederRecord) (i u : Option Int) : FeederRecord :=
  if r.ready then
    { r with lastIf := i, lastUf := u,
             peakIf := match i with
               | some v => max r.peakIf v.natAbs
               | none => r.peakIf }
  else r

end Sys2Proof.Machine
end

