-- ==== Sys2Proof/Machine/TimeBase.lean ====
section
/-! DEFINITION. The Time Base (08): counting and slewing, second boundaries, quality and follow state, and the
marks of the followed link; and the family's commands that come from the clock. -/

set_option Elab.async false

namespace Sys2Proof.Machine

/-! ## Station time -/

/-- Station time in units of 10 ns. -/
def StationTime.units (t : StationTime) : Nat := t.seconds * 100000000 + t.fraction

/-- Station time rises by some units: up to the second boundary, which then falls due, or to the last
representable time, where it holds (08 R159). -/
def TimeBase.rise (t : TimeBase) (n : Nat) : TimeBase :=
  let fraction := t.now.fraction + n
  if fraction < 100000000 then { t with now := { t.now with fraction := fraction } }
  else if t.now.seconds = 4294967295 then { t with now := { t.now with fraction := 99999999 } }
  else { t with now := { t.now with fraction := 99999999 }, boundary := some (fraction - 100000000) }

/-- Slew remaining is other than none and other than 0 (08 R159). -/
def TimeBase.slewing (t : TimeBase) : Bool :=
  match t.slew with
  | some k => k != 0
  | none => false

/-- One count of 10 ns: time rises by one unit, but at the 2,000th count of a slew its step falls due
(08 R159; log 2). -/
def TimeBase.count (t : TimeBase) : TimeBase :=
  if t.slewing then
    if t.slewCount + 1 < 2000 then { t with slewCount := t.slewCount + 1 }.rise 1
    else { t with slewCount := 2000 }
  else t.rise 1

/-- A slew step: a rise of 0 when the station is ahead and of 2 when it is behind, and slew remaining one
unit nearer to 0, none at 0 (08 R159). -/
def TimeBase.slewStep (t : TimeBase) (k : Int) : TimeBase :=
  let left := if 0 < k then k - 1 else k + 1
  { t with slew := if left = 0 then none else some left, slewCount := 0 }.rise (if 0 < k then 0 else 2)

/-- A slew step is due. -/
def TimeBase.slewDue (t : TimeBase) : Bool := t.slewing && decide (2000 ≤ t.slewCount)

/-- SLEW_STEP (08 R159). -/
def execSlewStep (s : State) : Host.Outcome State Fault Refusal :=
  live s fun s =>
    match s.time.slew with
    | some k => if s.time.slewDue then { s with time := s.time.slewStep k } else s
    | none => s

/-- The second boundary: fraction takes the excess, seconds rises by one, next-mark seconds names the
boundary after (08 R159). -/
def TimeBase.carry (t : TimeBase) (excess : Nat) : TimeBase :=
  { t with now := { seconds := t.now.seconds + 1, fraction := excess }, boundary := none,
           nextMark := t.now.seconds + 2 }

/-- SECOND_BOUNDARY (08 R163): the boundary is passed and a SECOND MARK posted on every UP link. -/
def execSecondBoundary (s : State) : Host.Outcome State Fault Refusal :=
  live s fun s =>
    match s.time.boundary with
    | some excess =>
      let t := { s with time := s.time.carry excess }
      { t with links := t.links.map fun k => k.post .secondMark (some s.now) }
    | none => s

/-- Station time takes a value at once; no mark is sent for it (08 R159, R161, R165). A second boundary reached at this
instant and not yet taken is dropped with its mark: the model's choice (log 53). -/
def TimeBase.setNow (t : TimeBase) (v : StationTime) : TimeBase :=
  { t with now := v, boundary := none, nextMark := v.seconds + 1, slew := none, slewCount := 0 }

/-- The slew under way ends. A count whose slew step is due and not yet taken is then an ordinary one and rises by 1
(08 R159; log 2). -/
def TimeBase.endSlew (t : TimeBase) : TimeBase :=
  let x := { t with slew := none, slewCount := 0 }
  if t.slewDue then x.rise 1 else x

/-- Slew remaining takes an offset, none when it is 0 (08 R165). -/
def TimeBase.setSlew (t : TimeBase) (offset : Int) : TimeBase :=
  { t.endSlew with slew := if offset = 0 then none else some offset }

/-! ## Quality (08 R160) -/

/-- Quality takes a value; a change queues the System segment on both links (08 R160). -/
def State.setQuality (s : State) (q : TimeQuality) : State :=
  if s.time.quality = q then s else { s with time := { s.time with quality := q } }.queueSystem

/-- A change of quality that adds a TIME QUALITY entry, with the origin of a link (08 R160, R166; log 21). -/
def State.qualityChange (s : State) (q : TimeQuality) (l : LinkId) : State :=
  if s.time.quality = q then s
  else
    (s.setQuality q).addEntry .timeQuality .nothing (linkOrigin l) (.quality q)
      (some (s.time.quality.code : Int))

/-- FINE while the followed link's delay status is LOCKED, COARSE otherwise (08 R160). -/
def State.linkQuality (s : State) (l : LinkId) : TimeQuality :=
  if (s.link l).delayStatus = .locked then .fine else .coarse

/-- A delay status handed over by a link: a follower at COARSE or FINE recomputes its quality (08 R160). -/
def State.delayNotice (s : State) (l : LinkId) : State :=
  if s.followed = some l ∧ (s.time.quality = .coarse ∨ s.time.quality = .fine) then
    s.qualityChange (s.linkQuality l) l
  else s

/-- A change of time role, `old` the role before (08 R160). -/
def State.roleChange (s : State) (old : TimeRole) : State :=
  if s.station.timeRole = old then s
  else
    let t := { s with time := { s.time.endSlew with upstream := none } }.queueSystem
    match s.station.timeRole, old.followed with
    | .master, some l =>
      if s.time.quality = .coarse ∨ s.time.quality = .fine then t.qualityChange .free l else t
    | _, _ => t

/-! ## The followed link (08 R163 to R165) -/

/-- A System segment from a link: kept as the upstream record when the link is followed (08, Following). -/
def State.takeUpstream (s : State) (l : LinkId) (u : Upstream) : State :=
  if s.followed = some l then { s with time := { s.time with upstream := some u } } else s

/-- Why a mark is unused, beyond the first row of 08 R164. -/
def State.markUnused (s : State) (late : Bool) : Option UnusedReason :=
  if late then some .late
  else if s.time.follow ≠ .following then some .conflict
  else
    match s.time.upstream with
    | some u =>
      if u.arrival + ms 50 < s.now then some .noSystem
      else if u.quality.toNat = TimeQuality.unset.code then some .upstreamUnset
      else none
    | none => some .noSystem

/-- A mark that is not used: time and quality stand (08 R164). -/
def State.skipMark (s : State) (reason : UnusedReason) : State :=
  { s with time := { s.time with
      lastMark := some { arrival := s.time.now, offset := none, action := .unused reason },
      marksUnused := bump s.time.marksUnused } }

/-- What a mark taken leads to (08 R165). -/
def markAction (q : TimeQuality) (offset : Int) : MarkAction :=
  if q = .unset ∨ offset < -100000 then .step
  else if 1000000 < offset then .conflict
  else if offset = 0 then .noAction
  else .slew

/-- The mark is recorded and counted (08 R164, R165). -/
def State.recordMark (s : State) (offset : Int) (a : MarkAction) : State :=
  { s with time := { s.time with
      lastMark := some { arrival := s.time.now, offset := some offset, action := a },
      marksTaken := bump s.time.marksTaken } }

/-- An offset in us as an entry carries it, toward zero, capped (08 R165; log 12). -/
def offsetUs (offset : Int) : Int := capSigned (offset.tdiv 100)

/-- A step to the expected local time (08 R165). -/
def State.timeStep (s : State) (l : LinkId) (expected : StationTime) (offset : Int) : State :=
  let before := s.time.now.seconds
  let initial := s.time.quality == .unset
  (({ s with time := s.time.setNow expected }).addEntry .timeStep .nothing (linkOrigin l)
    (.timeStep initial) (some (offsetUs offset)) (some (before : Int))).qualityChange (s.linkQuality l) l

/-- Entry into CONFLICT (08 R165). -/
def State.timeConflict (s : State) (l : LinkId) (offset : Int) : State :=
  ({ s with time := { s.time.endSlew with follow := .conflict, quality := .free } }.queueSystem).addEntry .timeConflict .nothing (linkOrigin l) .nothing (some (offsetUs offset))

/-- A usable mark is judged (08 R164, R165). -/
def State.judgeMark (s : State) (l : LinkId) (u : Upstream) : State :=
  let expected : StationTime := { seconds := u.nextMark, fraction := (s.link l).oneWay }
  let offset := (s.time.now.units : Int) - expected.units
  let a := markAction s.time.quality offset
  let t := s.recordMark offset a
  match a with
  | .step => t.timeStep l expected offset
  | .conflict => t.timeConflict l offset
  | _ => ({ t with time := t.time.setSlew offset }).qualityChange (t.linkQuality l) l

/-- A second mark received on a link (08 R164). -/
def State.takeMark (s : State) (l : LinkId) (late : Bool) : State :=
  if s.followed = some l then
    match s.markUnused late, s.time.upstream with
    | some reason, _ => s.skipMark reason
    | none, some u => s.judgeMark l u
    | none, none => s
  else s

/-! ## SET TIME and TIME RESTART (08 R161, R162) -/

/-- SET TIME carried out (08 R161). -/
def State.setTime (s : State) (p : Port) (v : StationTime) : State :=
  let before := s.time.now
  let change := capSigned (((v.units : Int) - before.units).tdiv 100000)
  (({ s with time := s.time.setNow v }).setQuality .free).addEntry .timeSet .nothing (.port p) .nothing
    (some (before.seconds : Int)) (some change)

/-- TIME RESTART carried out (08 R162). -/
def State.restartTime (s : State) (p : Port) : State :=
  let before := s.time.quality
  let t := { s with time := { s.time.endSlew with quality := .unset, follow := .following } }
  let t := if before = .unset ∧ s.time.follow = .following then t else t.queueSystem
  t.addEntry .timeRestart .nothing (.port p) (.quality before)

end Sys2Proof.Machine
end

