-- ==== Sys2Proof/Machine/Links.lean ====
section
/-! DEFINITION. The Section Links (07): link state, signals and their receivers, the claim protocol's far side,
beacon and delay, segments, and the transmitter; and the family's commands. -/

set_option Elab.async false

namespace Sys2Proof.Machine

/-! ## Words (07 R131, signal code table) -/

/-- What a signal slot carries: NONE, or a signal and whether its code is LATE. -/
inductive SlotSignal where
  | nothing
  | signal (g : Signal) (late : Bool)
  deriving DecidableEq, Repr

/-- The signal code table (07); `none` for a code outside it. -/
def signalOf (code : Byte) : Option SlotSignal :=
  let n := code.toNat
  let f : Feeder := Fin.ofNat 8 n
  if n = 0x00 then some .nothing
  else if 0x10 ≤ n ∧ n ≤ 0x17 then some (.signal (.transferTrip f) false)
  else if 0x20 ≤ n ∧ n ≤ 0x27 then some (.signal (.testClaim f) false)
  else if 0x28 ≤ n ∧ n ≤ 0x2F then some (.signal (.testGrant f) false)
  else if 0x30 ≤ n ∧ n ≤ 0x37 then some (.signal (.testDone f) false)
  else if n = 0x40 then some (.signal .beacon false)
  else if n = 0x41 then some (.signal .beaconEcho false)
  else if n = 0x42 then some (.signal .beaconEcho true)
  else if n = 0x50 then some (.signal .secondMark false)
  else if n = 0x51 then some (.signal .secondMark true)
  else none

/-- The code a signal goes out under (07 R139). -/
def Signal.codeOut (g : Signal) (late : Bool) : Byte :=
  match g with
  | .transferTrip f => BitVec.ofNat 8 (0x10 + f.val)
  | .testClaim f => BitVec.ofNat 8 (0x20 + f.val)
  | .testGrant f => BitVec.ofNat 8 (0x28 + f.val)
  | .testDone f => BitVec.ofNat 8 (0x30 + f.val)
  | .beacon => 0x40
  | .beaconEcho => if late then 0x42 else 0x41
  | .secondMark => if late then 0x51 else 0x50

/-- A good word's signal; `none` for a bad word (07 R131). -/
def goodSignal (w : RxWord) : Option SlotSignal :=
  match w.signal, w.data with
  | some c, .byte _ | some c, .idle | some c, .segStart | some c, .segEnd => signalOf c
  | _, _ => none

/-- The local feeders whose far link is a link. -/
def State.feedersOn (s : State) (l : LinkId) : List Feeder :=
  eight.filter fun f => (s.config f).farLink = some l

/-- An entry of a link: class LINK, the link as subject, its origin. -/
def State.linkEntry (s : State) (l : LinkId) (kind : EventKind) (detail : Detail := .nothing)
    (value1 value2 : Option Int := none) : State :=
  s.addEntry kind (.link l) (linkOrigin l) detail value1 value2

/-! ## Link state (07 R132 to R134) -/

/-- Entry into UP (07 R133). The Section Records hold MISMATCH and have heard no segment since the link was
last UP; a Feeder End segment is awaited (02 R29). -/
def State.linkUp (s : State) (l : LinkId) : State :=
  let t := s.modLink l fun k =>
    { k with state := .up, goodRun := 64, badRun := 0, upSince := some s.now, conflictReported := false,
             queued := File.fill 16 true, beaconFrom := some s.now, refreshFrom := some s.now }
  t.linkEntry l .linkUp

/-- The link's own record at exit from UP (07 R134). -/
def SectionLink.fallen (k : SectionLink) : SectionLink :=
  { k with state := .down, pendingSet := [], queued := File.fill 16 false, transfer := none,
           assembly := .idle, windows := File.fill 8 none, beaconOutstanding := none, farStation := none,
           conflict := false, delayStatus := .invalid, measurements := [], loopAverage := 0, goodCount := 0,
           beaconFrom := none, refreshFrom := none,
           counters := { k.counters with down := bump k.counters.down } }

/-- The TRANSFER TRIP entries discarded with the pending set (07 R134). -/
def SectionLink.tripsPending (k : SectionLink) : Nat :=
  k.pendingSet.countP fun e =>
    match e.signal with
    | .transferTrip _ => true
    | _ => false

/-- The far end is lost to a feeder: UNKNOWN and MISMATCH, and its claim (07 R134, 04 R68). The waits that the far state
reaches come before the claim (log 51). -/
def State.farLost (s : State) (f : Feeder) : State :=
  let t := (s.modSection f fun r =>
    { r with staleFrom := none, heard := false, matching := .mismatch }).setFarState f none
  match (t.section' f).claim, (t.feeder f).operation with
  | .claimSent, some op =>
    let t := t.setClaim f .idle none
    if (t.feeder f).state = .claiming then t.testUnclaimed f op true else t
  | .claimSent, none => t.setClaim f .idle none
  | .grantedToFar, _ => t.grantEnded f
  | _, _ => t

/-- Exit from UP (07 R134). -/
def State.linkDown (s : State) (l : LinkId) (cause : LinkDownCause) : State :=
  let k := s.link l
  let t := (s.modLink l SectionLink.fallen).linkEntry l .linkDown (.linkDown cause)
    (some (s.msSince (k.upSince.getD s.now) : Int)) (some (k.tripsPending : Int))
  together (((s.feedersOn l).map fun f t => t.farLost f) ++ [fun t => t.delayNotice l]) t

/-- A link that fails to align enters DOWN (07 R132). -/
def SectionLink.alignFails (k : SectionLink) (bad : Nat) : SectionLink :=
  { k with state := .down, badRun := bad,
           counters := { k.counters with alignFail := bump k.counters.alignFail } }

/-- The light-present input changes (07 R132). -/
def State.lightChange (s : State) (l : LinkId) (present : Bool) : State :=
  let t := s.modLink l fun k => { k with light := present }
  if present then t
  else
    match (s.link l).state with
    | .down => t
    | .aligning => t.modLink l fun k => k.alignFails k.badRun
    | .up => t.linkDown l .noLight

/-- LIGHT_PRESENT_CHANGE (07 R132); while held in reset only the level is followed (log 25). -/
def execLightPresentChange (l : LinkId) (present : Bool) (s : State) : Host.Outcome State Fault Refusal :=
  .next (if s.resetLine then s.modLink l fun k => { k with light := present } else s.lightChange l present)

/-! ## Transfer trip (07 R141, R142) -/

/-- A window as the next word of the link finds it: closed after its eighth word, else one word older
(07 R141; log 24). -/
def ageWindow (w : Option Window) : Option Window :=
  match w with
  | some w => if 8 ≤ w.words then none else some { w with words := w.words + 1 }
  | none => none

def SectionLink.ageWindows (k : SectionLink) : SectionLink :=
  { k with windows := k.windows.map ageWindow }

/-- An accepted transfer trip, at its feeder or as TT MISADDRESSED (07 R142; log 19). -/
def State.deliverTransferTrip (s : State) (l : LinkId) (g : Feeder) : State :=
  if (s.config g).farLink = some l then s.takeTransferTrip g l
  else
    s.addEntry .ttMisaddressed (.feeder g) (linkOrigin l)
      (value1 := some (farLinkCode (s.config g).farLink : Int))

def State.setWindow (s : State) (l : LinkId) (g : Feeder) (w : Window) : State :=
  s.modLink l fun k => { k with windows := k.windows.set g (some w) }

/-- A TRANSFER TRIP copy (07 R141). -/
def State.transferTripCopy (s : State) (l : LinkId) (g : Feeder) : State :=
  match (s.link l).windows.get g with
  | none => s.setWindow l g { words := 1, acted := false }
  | some w => if w.acted then s else (s.setWindow l g { w with acted := true }).deliverTransferTrip l g

/-- ACCEPTANCE_WINDOW_CLOSE (07 R141; log 24): at the end of the eighth word. -/
def execAcceptanceWindowClose (l : LinkId) (f : Feeder) (s : State) : Host.Outcome State Fault Refusal :=
  live s fun s =>
    match (s.link l).windows.get f with
    | some w =>
      if 8 ≤ w.words then s.modLink l fun k => { k with windows := k.windows.set f none } else s
    | none => s

/-! ## The claim protocol's far side (07 R144 to R147) -/

/-- A grant is posted and held for 2 s (07 R144). -/
def State.grantFar (s : State) (g : Feeder) : State :=
  (s.postFar g .testGrant).setClaim g .grantedToFar (some (s.now + sec 2))

/-- Crossed claims (07 R145). -/
def State.crossedClaim (s : State) (l : LinkId) (g : Feeder) : State :=
  match (s.link l).farStation with
  | some n => if n < s.station.stationNumber then (s.withdrawFar g .testClaim).grantFar g else s
  | none => s

/-- A TEST CLAIM naming a local feeder (07 R144). -/
def State.takeClaim (s : State) (l : LinkId) (g : Feeder) : State :=
  if !(s.link l).conflict && (s.feeder g).ready && (s.config g).farLink == some l then
    match (s.section' g).claim with
    | .idle => if (s.feeder g).state = .testing then s else s.grantFar g
    | .claimSent => s.crossedClaim l g
    | .grantedToUs => s
    | .grantedToFar => s.grantFar g
  else s

/-- A TEST GRANT naming a local feeder (07 R146). -/
def State.takeGrant (s : State) (l : LinkId) (f : Feeder) : State :=
  if (s.section' f).claim = .claimSent ∧ (s.config f).farLink = some l then
    let t := s.setClaim f .grantedToUs none
    match (t.feeder f).operation with
    | some op => t.enterTesting f op .claimed
    | none => t
  else s

/-- A TEST DONE naming a local feeder (07 R147). -/
def State.takeDone (s : State) (l : LinkId) (g : Feeder) : State :=
  if (s.section' g).claim = .grantedToFar ∧ (s.config g).farLink = some l then s.grantEnded g else s

/-- GRANT_EXPIRED (07 R147): the hold of 2 s has ended. -/
def execGrantExpired (f : Feeder) (s : State) : Host.Outcome State Fault Refusal :=
  live s fun s =>
    match s.claimIsDue f .grantedToFar, (s.config f).farLink with
    | true, some l =>
      (s.addEntry .grantExpired (.feeder f) (linkOrigin l) (value1 := some 2000)).grantEnded f
    | _, _ => s

/-! ## Beacon and loop delay (07 R149, R150) -/

/-- The average of the measurement list, rounded down (07 R150). -/
def average (l : List Nat) : Nat := l.sum / l.length

/-- Two values lie within 4 units (07 R150). -/
def near (a b : Nat) : Bool := decide ((a - b) + (b - a) ≤ 4)

/-- The list takes a measurement, the oldest dropped beyond 16. -/
def pushMeasurement (l : List Nat) (m : Nat) : List Nat := (l ++ [m]).drop ((l ++ [m]).length - 16)

/-- The delay record with a new list, count and status. -/
def SectionLink.delay (k : SectionLink) (list : List Nat) (count : Nat) (status : DelayStatus) :
    SectionLink :=
  { k with measurements := list, loopAverage := average list, goodCount := count, delayStatus := status }

/-- The delay record after a measurement (07 R150). -/
def SectionLink.measure (k : SectionLink) (m : Nat) : SectionLink :=
  match k.delayStatus with
  | .invalid => k.delay [m] 0 .initial
  | .initial =>
    if near m k.loopAverage then
      k.delay (pushMeasurement k.measurements m) (k.goodCount + 1)
        (if k.goodCount + 1 = 16 then .locked else .initial)
    else k.delay [m] 0 .initial
  | .locked =>
    if near m k.loopAverage then k.delay (pushMeasurement k.measurements m) 16 .locked
    else k.delay [m] 0 .initial

/-- One measurement: the entries of the delay record, the System segment and the Time Base at a change of
status (07 R150, R151, 08 R160; log 51). -/
def State.measureLoop (s : State) (l : LinkId) (m : Nat) : State :=
  let old := s.link l
  let t := s.modLink l fun k => k.measure m
  let new := t.link l
  if new.delayStatus = old.delayStatus then t
  else
    let t := t.modLink l fun k => k.queue 0
    let t :=
      match new.delayStatus, old.delayStatus with
      | .locked, _ => t.linkEntry l .delayLocked .nothing (some (new.loopAverage : Int))
      | _, .locked => t.linkEntry l .delayRestart .nothing (some (m : Int)) (some (old.loopAverage : Int))
      | _, _ => t
    t.delayNotice l

/-- A BEACON ECHO, or BEACON ECHO LATE (07 R150). -/
def State.takeEcho (s : State) (l : LinkId) (late : Bool) : State :=
  let t := s.modLink l fun k => { k with beaconOutstanding := none }
  match late, (s.link l).beaconOutstanding with
  | false, some sent => t.measureLoop l (s.now - sent)
  | _, _ => t

/-- BEACON_PERIOD (07 R149). -/
def execBeaconPeriod (l : LinkId) (s : State) : Host.Outcome State Fault Refusal :=
  live s fun s =>
    match (s.link l).state, (s.link l).beaconFrom with
    | .up, some t =>
      if t + ms 1 ≤ s.now then
        (s.post l .beacon).modLink l fun k => { k with beaconFrom := some (t + ms 1) }
      else s
    | _, _ => s

/-- BEACON_TIMEOUT (07 R149): 655.35 us without an echo. -/
def execBeaconTimeout (l : LinkId) (s : State) : Host.Outcome State Fault Refusal :=
  live s fun s =>
    if s.reached ((s.link l).beaconOutstanding.map (· + 65535)) then
      s.modLink l fun k => { k with beaconOutstanding := none }
    else s

/-! ## The signal of a good word (07 R136) -/

/-- A signal is delivered according to its kind (07 R136, R139). -/
def State.takeSignal (s : State) (l : LinkId) : SlotSignal → State
  | .nothing => s
  | .signal (.transferTrip g) _ => s.transferTripCopy l g
  | .signal (.testClaim g) _ => s.takeClaim l g
  | .signal (.testGrant g) _ => s.takeGrant l g
  | .signal (.testDone g) _ => s.takeDone l g
  | .signal .beacon _ => s.post l .beaconEcho (some s.now)
  | .signal .beaconEcho late => s.takeEcho l late
  | .signal .secondMark late => s.takeMark l late

/-! ## Segments received (07 R153, R154) -/

/-- Number conflict follows from the two station numbers, with one NUMBER CONFLICT entry an UP period
(07 R148). -/
def State.judgeConflict (s : State) (l : LinkId) : State :=
  let k := s.link l
  let now := k.farStation == some s.station.stationNumber
  let t := s.modLink l fun k => { k with conflict := now }
  if now && !k.conflict && !k.conflictReported then
    (t.modLink l fun k => { k with conflictReported := true }).linkEntry l .numberConflict .nothing
      (some (s.station.stationNumber : Int))
  else t

/-- A byte of a segment. -/
def byteAt (bytes : List Byte) (i : Nat) : Byte := bytes.getD i 0

/-- Four bytes of a segment, most significant first. -/
def wordAt (bytes : List Byte) (i : Nat) : Nat :=
  be32 (byteAt bytes i) (byteAt bytes (i + 1)) (byteAt bytes (i + 2)) (byteAt bytes (i + 3))

/-- The far station number a System segment gives (07 R148). -/
def farNumber (b : Byte) : Option Nat := if b = 0#8 ∨ b = 255#8 then none else some b.toNat

/-- A good System segment (07 R154). -/
def State.takeSystem (s : State) (l : LinkId) (bytes : List Byte) : State :=
  ((s.modLink l fun k => { k with farStation := farNumber (byteAt bytes 0) }).judgeConflict l).takeUpstream l
    { role := byteAt bytes 1, quality := byteAt bytes 2, delay := wordAt bytes 3, nextMark := wordAt bytes 7,
      arrival := s.now }

/-- The SECTION MISMATCH entry (02 R29). -/
def State.mismatchEntry (s : State) (l : LinkId) (f : Feeder) (bytes : List Byte) : State :=
  s.addEntry .sectionMismatch (.feeder f) (linkOrigin l) .nothing (some ((byteAt bytes 7).toNat : Int))
    (some ((byteAt bytes 8).toNat : Int))

/-- A good Feeder End segment taken by a Section Record (02 R28, R29). -/
def State.takeFeederEnd (s : State) (l : LinkId) (bytes : List Byte) (f : Feeder) : State :=
  let r := s.section' f
  let matched := decide ((byteAt bytes 7).toNat = f.val ∧ byteAt bytes 8 ≠ 0#8)
  let t := s.modSection f fun r =>
    { r with farSeen := some (s.time.now, s.now), staleFrom := some s.now, heard := true,
             matching := if matched then .matched else .mismatch }
  let t := if !matched && (r.matching == .matched || !r.heard) then t.mismatchEntry l f bytes else t
  t.setFarState f (if matched then FeederState.ofCode (byteAt bytes 0).toNat else none)

/-- The local feeders that a Feeder End segment of far feeder g concerns (02, Section Record). -/
def State.partnersOf (s : State) (l : LinkId) (g : Nat) : List Feeder :=
  (s.feedersOn l).filter fun f => (s.config f).farFeeder.val = g

/-- A good segment replaces the incoming copy and is taken by its number (07 R154). -/
def State.takeSegment (s : State) (l : LinkId) (n : Fin 16) (bytes : List Byte) : State :=
  let copy : InSegment :=
    { bytes := File.ofList 16 0 bytes, arrival := some (s.time.now, s.now),
      fresh := File.fill 3 (decide (9 ≤ n.val)) }
  let t := s.modLink l fun k => { k with incoming := k.incoming.set n copy }
  if n.val = 0 then t.takeSystem l bytes
  else if n.val ≤ 8 then
    together ((s.partnersOf l (n.val - 1)).map fun f t => t.takeFeederEnd l bytes f) t
  else t

/-- What a word's data slot does to the receive assembly (07 R153): the new position, and what is counted
or completed. -/
inductive Assembled where
  | moved (a : Assembly)
  | framing (a : Assembly)
  | badNumber
  | badCheck
  | segment (n : Fin 16) (bytes : List Byte)
  deriving DecidableEq, Repr

/-- The last check byte of a segment (07 R152, R153). -/
def judgeSegment (n : Fin 16) (bytes : List Byte) (hi lo : Byte) : Assembled :=
  if (n.val + (bytes.map BitVec.toNat).sum + be16 hi lo) % 65536 = 0 then .segment n bytes else .badCheck

/-- A data byte within a segment (07 R153). -/
def assembleByte (a : Assembly) (b : Byte) : Assembled :=
  match a with
  | .idle => .moved .idle
  | .number =>
    match below 16 b with
    | some n => .moved (.data n [])
    | none => .badNumber
  | .data n bytes =>
    if bytes.length + 1 < 16 then .moved (.data n (bytes ++ [b])) else .moved (.ending n (bytes ++ [b]))
  | .ending .. => .framing .idle
  | .check1 n bytes => .moved (.check2 n bytes b)
  | .check2 n bytes hi => judgeSegment n bytes hi b

/-- SEG_END within a segment (07 R153). -/
def assembleEnd : Assembly → Assembled
  | .idle => .moved .idle
  | .ending n bytes => .moved (.check1 n bytes)
  | _ => .framing .idle

/-- A segment ends for want of framing unless none was begun. -/
def assembleBreak (a next : Assembly) : Assembled :=
  if a = .idle then .moved next else .framing next

/-- A word's data slot at the receive assembly; `none` is a bad word (07 R153). -/
def assemble (a : Assembly) : Option RxData → Assembled
  | some (.byte b) => assembleByte a b
  | some .segStart => assembleBreak a .number
  | some .segEnd => assembleEnd a
  | some .idle | some .undecodable | none => assembleBreak a .idle

def LinkCounters.framing (c : LinkCounters) : LinkCounters := { c with segFraming := bump c.segFraming }

def LinkCounters.number (c : LinkCounters) : LinkCounters := { c with segNumber := bump c.segNumber }

def LinkCounters.check (c : LinkCounters) : LinkCounters := { c with segCheck := bump c.segCheck }

def LinkCounters.bad (c : LinkCounters) : LinkCounters := { c with badWord := bump c.badWord }

/-- One of the six counters moves (07 R157). -/
def SectionLink.count (k : SectionLink) (g : LinkCounters → LinkCounters) : SectionLink :=
  { k with counters := g k.counters }

/-- The data slot of a word taken while UP (07 R153). -/
def State.takeData (s : State) (l : LinkId) (data : Option RxData) : State :=
  match assemble (s.link l).assembly data with
  | .moved a => s.modLink l fun k => { k with assembly := a }
  | .framing a =>
    s.modLink l fun k => { k.count LinkCounters.framing with assembly := a }
  | .badNumber =>
    s.modLink l fun k => { k.count LinkCounters.number with assembly := .idle }
  | .badCheck =>
    s.modLink l fun k => { k.count LinkCounters.check with assembly := .idle }
  | .segment n bytes => (s.modLink l fun k => { k with assembly := .idle }).takeSegment l n bytes

/-! ## A word arrives (07 R131, R132) -/

def SectionLink.badWord (k : SectionLink) : SectionLink :=
  { k.count LinkCounters.bad with badRun := k.badRun + 1 }

/-- A bad word (07 R132). -/
def State.badWordAt (s : State) (l : LinkId) : State :=
  match (s.link l).state with
  | .down => s
  | .aligning =>
    s.modLink l fun k =>
      let k := { k.badWord with goodRun := 0 }
      if k.badRun < 8 then k else k.alignFails k.badRun
  | .up =>
    let t := s.modLink l fun k => k.badWord.ageWindows
    if (t.link l).badRun < 8 then t.takeData l none else t.linkDown l .badWords

/-- The data slot of a word completes a good segment (07 R153). -/
def State.completes (s : State) (l : LinkId) (data : RxData) : Bool :=
  match assemble (s.link l).assembly (some data) with
  | .segment .. => true
  | _ => false

/-- The signal and the data of a word taken while UP. A signal and the segment that the same word completes are taken
in a free order (08 R164; log 3); any other data only moves the assembly. -/
def State.takeSlots (s : State) (l : LinkId) (g : SlotSignal) (data : RxData) : State :=
  let parts := [fun t : State => t.takeSignal l g, fun t : State => t.takeData l (some data)]
  if g != .nothing && s.completes l data then inFreeOrder 2 parts s else together parts s

/-- A good word (07 R132, R136): its signal and its data are parts of one event. -/
def State.goodWordAt (s : State) (l : LinkId) (g : SlotSignal) (data : RxData) : State :=
  match (s.link l).state with
  | .down => s.modLink l fun k => { k with state := .aligning, goodRun := 1, badRun := 0 }
  | .aligning =>
    if (s.link l).goodRun + 1 < 64 then
      s.modLink l fun k => { k with goodRun := k.goodRun + 1, badRun := 0 }
    else s.linkUp l
  | .up =>
    (s.modLink l fun k => { k with badRun := 0 }.ageWindows).takeSlots l g data

/-- A received word; none is taken while light is absent (07 R131). -/
def State.takeWord (s : State) (l : LinkId) (w : RxWord) : State :=
  if (s.link l).light then
    match goodSignal w with
    | some g => s.goodWordAt l g w.data
    | none => s.badWordAt l
  else s

/-- LINK_WORD (07 R131, R132). -/
def execLinkWord (l : LinkId) (w : RxWord) (s : State) : Host.Outcome State Fault Refusal :=
  live s fun s => s.takeWord l w

/-! ## Staleness (02 R30) -/

def State.staleDue (s : State) (f : Feeder) : Bool :=
  s.reached ((s.section' f).staleFrom.map (· + ms 50))

/-- FAR_STATE_STALE (02 R30). -/
def execFarStateStale (f : Feeder) (s : State) : Host.Outcome State Fault Refusal :=
  live s fun s =>
    if s.staleDue f then (s.modSection f fun r => { r with staleFrom := none }).setFarState f none else s

/-! ## The transmitter (07 R135, R138, R139, R152) -/

/-- The rank of a pending signal: kind, then feeder; lower goes first (07 R138). -/
def Signal.rank : Signal → Nat
  | .transferTrip f => f.val
  | .secondMark => 8
  | .beaconEcho => 16
  | .testGrant f => 24 + f.val
  | .testDone f => 32 + f.val
  | .testClaim f => 40 + f.val
  | .beacon => 48

/-- An entry may be sent in the word that begins at an instant (07 R138). -/
def PendingSignal.candidate (e : PendingSignal) (start : Instant) : Bool :=
  match e.due with
  | some d => decide (d ≤ start)
  | none => true

/-- The entry of highest rank among the candidates (07 R138). -/
def arbitrate (start : Instant) : List PendingSignal → Option PendingSignal
  | [] => none
  | e :: rest =>
    match arbitrate start rest with
    | some b => if e.candidate start && decide (e.signal.rank ≤ b.signal.rank) then some e else some b
    | none => if e.candidate start then some e else none

/-- An entry once a word has been given to `sent`: the sent one loses a copy or leaves, another that could
have taken the word and has a due word is LATE (07 R138, R139). A mark or an echo posted at the instant at which a word
begins, once that word is taken, has the next word for its due word: whatever the word gone carried, it is not LATE for it
(the model's choice, log 52). -/
def PendingSignal.after (e sent : PendingSignal) (start : Instant) : Option PendingSignal :=
  if e.signal = sent.signal then (if 1 < e.repeats then some { e with repeats := e.repeats - 1 } else none)
  else if e.due.isSome && e.candidate start then some { e with late := true }
  else some e

/-- The signal slot of the word that begins at an instant. -/
def SectionLink.sendSignal (k : SectionLink) (start : Instant) : SectionLink × Byte :=
  match arbitrate start k.pendingSet with
  | some e =>
    ({ k with pendingSet := k.pendingSet.filterMap fun x => x.after e start,
              beaconOutstanding := if e.signal = .beacon then some start else k.beaconOutstanding },
      e.signal.codeOut e.late)
  | none => (k, 0)

/-- The lowest segment number in the queue. -/
def SectionLink.nextSegment (k : SectionLink) : Option (Fin 16) :=
  ([0, 1, 2, 3, 4, 5, 6, 7, 8, 9, 10, 11, 12, 13, 14, 15] : List (Fin 16)).find? fun n => k.queued.get n

/-- The data slot of a transfer's word, `sent` words after its first (07 R152). -/
def Transfer.slot (x : Transfer) : TxData :=
  let check := segmentCheck x.number x.bytes.cells
  if x.sent = 0 then .segStart
  else if x.sent = 1 then .byte (BitVec.ofNat 8 x.number.val)
  else if x.sent < 18 then .byte (byteAt x.bytes.cells (x.sent - 2))
  else if x.sent = 18 then .segEnd
  else if x.sent = 19 then .byte (BitVec.ofNat 8 (check / 256))
  else .byte (BitVec.ofNat 8 check)

/-- The data slot: the next word of the transfer, or the first of the lowest queued segment, or IDLE; a
transfer ends with its 21st word (07 R152). -/
def SectionLink.sendData (k : SectionLink) (outgoing : Fin 16 → File Byte 16) : SectionLink × TxData :=
  let begun :=
    match k.transfer, k.nextSegment with
    | some x, _ => (k, some x)
    | none, some n =>
      ({ k with queued := k.queued.set n false }, some { number := n, bytes := outgoing n, sent := 0 })
    | none, none => (k, none)
  match begun with
  | (k, some x) =>
    ({ k with transfer := if x.sent + 1 < 21 then some { x with sent := x.sent + 1 } else none }, x.slot)
  | (k, none) => (k, .idle)

/-- One word of a link's transmitter (07 R135, R138, R152). -/
def State.transmit (s : State) (l : LinkId) : State :=
  s.modLink l fun k =>
    if k.state = .up then
      let x := k.sendSignal k.nextWord
      let y := x.1.sendData (s.outgoingBytes l)
      { y.1 with nextWord := k.nextWord + 10, lastWord := { code := x.2, data := y.2 } }
    else { k with nextWord := k.nextWord + 10, lastWord := { code := 0, data := .idle } }

/-- LINK_WORD_TRANSMIT (07 R135, R138): a word every 100 ns. -/
def execLinkWordTransmit (l : LinkId) (s : State) : Host.Outcome State Fault Refusal :=
  live s fun s => if (s.link l).nextWord ≤ s.now then s.transmit l else s

/-- The segments of a refresh: System and the eight Feeder Ends (07 R151). -/
def SectionLink.refresh (k : SectionLink) : SectionLink :=
  { k with queued := File.ofList 16 true ((List.replicate 9 true) ++ k.queued.cells.drop 9) }

/-- SEGMENT_REFRESH (07 R151). -/
def execSegmentRefresh (l : LinkId) (s : State) : Host.Outcome State Fault Refusal :=
  live s fun s =>
    match (s.link l).state, (s.link l).refreshFrom with
    | .up, some t =>
      if t + ms 10 ≤ s.now then s.modLink l fun k => { k.refresh with refreshFrom := some (t + ms 10) }
      else s
    | _, _ => s

end Sys2Proof.Machine
end

