-- ==== Sys2Proof/Machine/SampleLine.lean ====
section
/-! DEFINITION. The Sample Port (01): delimiting and validating frames, the port states and their notices,
what a valid frame hands on, and a change of the slot map; and the family's commands. -/

set_option Elab.async false

namespace Sys2Proof.Machine

def State.modSample (s : State) (g : SamplePort → SamplePort) : State := { s with sample := g s.sample }

/-! ## The slot map (01) -/

/-- The map is empty when all 32 entries are UNUSED. -/
def emptyMap (m : File SlotEntry 32) : Bool := m.cells.all fun e => e == .unused

/-- The value of a slot: words 1 to 32, two's complement (01, the sample line). -/
def slotValue (words : File Word 34) (slot : Nat) : Int := (words.cells.getD (slot + 1) 0).toInt

/-- The value of a quantity, absent when unassigned. -/
def quantity (m : File SlotEntry 32) (words : File Word 34) (e : SlotEntry) : Option Int :=
  (m.cells.findIdx? fun x => x == e).map (slotValue words)

/-- The 18 quantities of a frame (01, slot map). -/
def quantities (m : File SlotEntry 32) (words : File Word 34) : Quantities :=
  { ifs := File.ofList 8 none (eight.map fun f => quantity m words (.feederCurrent f)),
    ufs := File.ofList 8 none (eight.map fun f => quantity m words (.feederVoltage f)),
    ub := quantity m words .busVoltage, ir := quantity m words .rectifierCurrent }

/-- A quantity is assigned by a map. -/
def assigned (m : File SlotEntry 32) (e : SlotEntry) : Bool := m.cells.contains e

/-- A value kept only while its quantity is assigned (01 R5). -/
def keepIf (b : Bool) (v : Option Int) : Option Int := if b then v else none

/-- The quantities that a new map leaves assigned (01 R5). -/
def Quantities.under (q : Quantities) (m : File SlotEntry 32) : Quantities :=
  { ifs := File.ofList 8 none (eight.map fun f => keepIf (assigned m (.feederCurrent f)) (q.ifs.get f)),
    ufs := File.ofList 8 none (eight.map fun f => keepIf (assigned m (.feederVoltage f)) (q.ufs.get f)),
    ub := keepIf (assigned m .busVoltage) q.ub, ir := keepIf (assigned m .rectifierCurrent) q.ir }

/-! ## Validation (01 R2, R3) -/

/-- The frame number: the high byte of word 0. -/
def frameNumber (words : File Word 34) : Nat := (words.get 0).toNat / 256

/-- An assigned slot carries the fault code -32768 (01 R2). -/
def faultySlot (m : File SlotEntry 32) (words : File Word 34) : Bool :=
  (List.range 32).any fun n => m.cells.getD n .unused != .unused && slotValue words n == -32768

/-- The checks of a completed frame, in order (01 R2). -/
def frameCheck (m : File SlotEntry 32) (reference : Option Nat) (words : File Word 34) : Option DiscardCause :=
  if (words.get 0).toNat % 256 ≠ 0xC3 then some .marker
  else if (words.cells.map BitVec.toNat).sum % 65536 ≠ 0 then some .check
  else if faultySlot m words then some .slotFault
  else if reference = some (frameNumber words) then some .repeated
  else none

/-- One more in the counter of a cause (01 R16). -/
def SampleCounters.counted (c : SampleCounters) : DiscardCause → SampleCounters
  | .noCause => c
  | .length => { c with length := bump c.length }
  | .marker => { c with marker := bump c.marker }
  | .check => { c with check := bump c.check }
  | .slotFault => { c with slotFault := bump c.slotFault }
  | .repeated => { c with repeated := bump c.repeated }
  | .starting => { c with starting := bump c.starting }

/-- A frame is discarded with a cause (01 R1, R2, R7, R11). -/
def SamplePort.discard (x : SamplePort) (cause : DiscardCause) : SamplePort :=
  { x with counters := x.counters.counted cause, discards := bump x.discards, lastDiscard := cause }

/-- The continuity of a valid frame with the reference number (01 R3); a RESTART is made by the state. -/
def continuity (reference : Option Nat) (number : Nat) : Continuity :=
  match reference with
  | none => .continuous
  | some r => if number = (r + 1) % 256 then .continuous else .gap

/-- A valid frame at the port: gap counter, reference number and frame watch (01 R3, R7, R8). -/
def SamplePort.taken (x : SamplePort) (number : Nat) (now : Instant) : SamplePort :=
  let c := x.counters
  let c := if continuity x.reference number = .gap then { c with gap := bump c.gap } else c
  { x with counters := c, reference := some number, frameWatch := some now }

/-! ## Notices of the port state (01 R14) -/

/-- Leaving VALID: a late frame reaches the Capture Unit before the notice, then the Firing Unit's hold, FILLING
buffers HELD, tests aborted, waits judged (01 R14; log 32). -/
def State.leavesValid (s : State) : State :=
  together ((eight.map fun f t => t.measurementLoss f) ++
      (([0, 1, 2, 3] : List (Fin 4)).map fun n t => t.truncateCapture n) ++ waitParts readsBus)
    (s.settleCaptures.measurementHold true)

/-- Blind since is set from an instant at every feeder that a condition names (03 R42). -/
def State.blindAll (s : State) (at_ : Instant) (p : Feeder → Bool) : State :=
  let records := eight.map fun f => if p f then (s.fault f).blindFrom at_ else s.fault f
  { s with faults := File.ofList 8 (FaultRecord.reset 0) records }

/-- Entry into LOST (01 R10). -/
def State.enterLost (s : State) : State :=
  let wasValid := s.sample.state = .valid
  let first := s.sample.outageStart.isNone
  let start := s.sample.outageStart.getD s.now
  let t := s.modSample fun x =>
    { x with state := .lost, reference := none, frameWatch := none, outageStart := some start,
             outageLost := if first then 1 else bump x.outageLost,
             counters := { x.counters with lost := bump x.counters.lost } }
  let t :=
    if first then
      t.addEntry .measurementLost .nothing .protection (.discard s.sample.lastDiscard)
        (some (s.sample.discards : Int))
    else t
  let t := t.blindAll start fun _ => true
  if wasValid then t.leavesValid else t

/-- FRAME_WATCH_EXPIRY (01 R8): 200 us without a valid frame. -/
def execFrameWatchExpiry (s : State) : Host.Outcome State Fault Refusal :=
  live s fun s => if s.reached (s.sample.frameWatch.map (· + us 200)) then s.enterLost else s

/-- Entry into VALID: the entry, the outage cleared, and the notices that come before the frame (01 R9). -/
def State.enterValid (s : State) : State :=
  let t := (s.modSample fun x => { x with state := .valid }).addEntry .measurementValid .nothing .protection
    .nothing (some (s.sample.discards : Int)) (some (s.sample.outageLost : Int))
  let t := t.modSample fun x => { x with outageStart := none, outageLost := 0 }
  (t.measurementHold false).emptyHistories

/-! ## Handing a frame on (01 R12, R13) -/

/-- Every Breaker Control takes the frame (02 R26). -/
def State.frameAtFeeders (s : State) (q : Quantities) : State :=
  let records := eight.map fun f => (s.feeder f).frame (q.ifs.get f) (q.ufs.get f)
  { s with feeders := File.ofList 8 FeederRecord.reset records }

/-- Every Fault Detection takes the frame (03 R43). -/
def State.frameAtFaults (s : State) (mark : Continuity) (number : Nat) (q : Quantities) : State :=
  eight.foldl (fun t f => t.frameAtFault mark number q f) s

/-- Fault Detection sent a request between two states. -/
def State.newRequest (s t : State) : Bool :=
  eight.any fun f => decide ((s.fault f).requests.length < (t.fault f).requests.length)

/-- What the other blocks do with a frame, once Fault Detection and Breaker Control have taken it (01 R13). -/
def frameParts (q : Quantities) : List (State → State) :=
  [fun t => t.overvoltageFrame q.ub, fun t => t.overcurrentFrame q.ir]

/-- A frame that decided no trip reaches the Capture Unit at once. One that did reaches it now, or later (`frameLate`):
a free choice, since the capture may start before it or after it (10 R193; log 32). -/
def State.frameAtCaptures (s : State) (decided : Bool) (q : Quantities) : State :=
  let now (t : State) := together (frameParts q ++ fillParts q ++ waitParts readsBus) (t.frameHistories q)
  if decided then
    let t := { s with choices := s.choices + 1 }
    if Config.choice s.choices % 2 = 0 then now t
    else together (frameParts q ++ waitParts readsBus) (t.frameLate q)
  else now s

/-- A frame is handed on: the last frame values, then every recipient (01 R12, R13). -/
def State.handOn (s : State) (mark : Continuity) (number : Nat) (q : Quantities) : State :=
  let t := s.settleCaptures.modSample fun x =>
    { x with discards := 0, lastDiscard := .noCause,
             last := { values := q, number := some number, time := some s.time.now } }
  let u := t.frameAtFaults mark number q
  (u.frameAtFeeders q).frameAtCaptures (t.newRequest u) q

/-- A frame that passed validation (01 R7 to R11). -/
def State.validFrame (s : State) (words : File Word 34) : State :=
  let number := frameNumber words
  let q := quantities s.settings.slotMap words
  let t := s.modSample fun x => x.taken number s.now
  match s.sample.state with
  | .disabled => s
  | .starting =>
    if s.sample.primed then (t.enterValid).handOn .restart number q
    else t.modSample fun x => { x.discard .starting with primed := true }
  | .valid => t.handOn (continuity s.sample.reference number) number q
  | .lost => t.modSample fun x => { x.discard .starting with state := .starting, primed := true }

/-- FRAME_COMPLETE (01 R1, R2): the 34th word of the frame under reception. -/
def execFrameComplete (words : File Word 34) (s : State) : Host.Outcome State Fault Refusal :=
  live s fun s =>
    if s.sample.reception = .receiving then
      let s := s.modSample fun x => { x with reception := .complete }
      match frameCheck s.settings.slotMap s.sample.reference words with
      | some cause => s.modSample fun x => x.discard cause
      | none => s.validFrame words
    else s

/-- What the frame start ends: an incomplete frame, or a run of trailing words (01 R1). -/
def SamplePort.endFrame (x : SamplePort) (trailing : Nat) : SamplePort :=
  match x.reception with
  | .receiving => x.discard .length
  | .complete => if 0 < trailing then { x with counters := x.counters.counted .length } else x
  | .idle => x

/-- FRAME_START (01 R1). -/
def execFrameStart (trailing : Nat) (s : State) : Host.Outcome State Fault Refusal :=
  live s fun s =>
    if s.sample.state = .disabled then s
    else s.modSample fun x => { x.endFrame trailing with reception := .receiving }

/-! ## A change of the slot map (01 R5) -/

/-- Entry into DISABLED (01 R5, R14): every one of the last frame values is absent, the frame number and the station time
among them (01 R13). -/
def State.enterDisabled (s : State) : State :=
  let wasValid := s.sample.state = .valid
  let t := (s.modSample fun x =>
    { x with state := .disabled, reception := .idle, primed := false, reference := none, frameWatch := none,
             outageStart := none,
             last := LastFrame.absent }).addEntry
    .measurementDisabled .nothing .protection
  let t := t.blindAll s.now fun _ => true
  (if wasValid then t.leavesValid else t).emptyHistories

/-- A new map takes effect (01 R5, 03 R42). -/
def State.newMap (s : State) (m : File SlotEntry 32) : State :=
  let old := s.settings.slotMap
  let t := { s with settings := { s.settings with slotMap := m } }
  let t := t.modSample fun x => { x with last := { x.last with values := x.last.values.under m } }
  let t := t.blindAll s.now fun f => !assigned m (.feederCurrent f)
  if emptyMap m then (if emptyMap old then t else t.enterDisabled)
  else if emptyMap old then
    t.modSample fun x => { x with state := .starting, primed := false, frameWatch := some s.now }
  else t

end Sys2Proof.Machine
end

