-- ==== Sys2Proof/Machine/Authority.lean ====
section
/-! DEFINITION. The Authority Table (05): grants, renewals, releases, expiries and losses, the checks of R96
that it makes, and the table as CLAIM and RELEASE report it. -/

set_option Elab.async false

namespace Sys2Proof.Machine

/-- The subject of an item's entries. -/
def Item.subject : Item → Subject
  | .feeder f => .feeder f
  | .rectifier => .rectifier

/-- The master's class is admitted by a control location (05 R86). -/
def admitted : Location → Port → Bool
  | .localKey, .G => false
  | .localKey, _ => true
  | .remoteKey, .G => true
  | .remoteKey, _ => false

/-- The master is a station processor. -/
def stationProcessor : Port → Bool
  | .G => false
  | _ => true

def State.admits (s : State) (p : Port) : Bool := admitted s.authority.location p

/-- The master holds an item. -/
def State.holds (s : State) (p : Port) (i : Item) : Bool :=
  match s.holding i with
  | some h => h.holder == p
  | none => false

/-- The time an item has been held, capped (05 R101). -/
def State.heldMs (s : State) (h : Holding) : Int := (cap31 (s.msSince h.grantedAt) : Int)

/-- An item is granted (05 R86, R89, R101). -/
def State.grantItem (s : State) (p : Port) (i : Item) : State :=
  let lease := s.station.leaseTime
  (s.setHolding i (some { holder := p, expiry := s.now + ms lease, grantedAt := s.now, lease := lease })).addEntry
    .authorityGranted (Item.subject i) (.port p) .nothing (some (lease : Int))

/-- An item's lease is renewed with the lease time in force (05 R91). -/
def State.renewItem (s : State) (i : Item) : State :=
  match s.holding i with
  | some h =>
    s.setHolding i (some { h with expiry := s.now + ms s.station.leaseTime, lease := s.station.leaseTime })
  | none => s

/-- The leases of every item a request needed are renewed (05 R97). -/
def State.renewItems (s : State) (l : List Item) : State := l.foldl State.renewItem s

/-- An item goes to NONE with an entry of its former holder (05 R101). -/
def State.loseItem (s : State) (i : Item) (h : Holding) (kind : EventKind) (detail : Detail)
    (value2 : Option Int := none) : State :=
  (s.setHolding i none).addEntry kind (Item.subject i) (.port h.holder) detail (some (s.heldMs h)) value2

/-- The step that refuses a CLAIM, if any (05 R88). -/
def State.claimCheck (s : State) (p : Port) (l : List Item) : Option Reason :=
  if !l.isEmpty && !s.admits p then some .wrongLocation
  else
    l.findSome? fun i =>
      match s.holding i with
      | some h => if h.holder = p then none else some (.heldByOther i h.holder)
      | none => none

/-- One item of a CLAIM that is carried out (05 R89). -/
def State.claimItem (s : State) (p : Port) (i : Item) : State :=
  if (s.holding i).isNone then s.grantItem p i else s.renewItem i

/-- One item released when the master holds it (05 R90, R94). -/
def State.releaseItem (s : State) (p : Port) (byPortReset : Bool) (i : Item) : State :=
  match s.holding i with
  | some h => if h.holder = p then s.loseItem i h .authorityReleased (.release byPortReset) else s
  | none => s

/-- Items released in order. -/
def State.releaseItems (s : State) (p : Port) (byPortReset : Bool) (l : List Item) : State :=
  l.foldl (fun t i => t.releaseItem p byPortReset i) s

/-- LEASE_EXPIRY (05 R92). -/
def execLeaseExpiry (i : Item) (s : State) : Host.Outcome State Fault Refusal :=
  live s fun s =>
    match s.holding i with
    | some h =>
      if h.expiry ≤ s.now then s.loseItem i h .authorityExpired .nothing (some (h.lease : Int)) else s
    | none => s

/-- One item lost when the new location excludes its holder (05 R93). -/
def State.loseExcluded (s : State) (x : Location) (i : Item) : State :=
  match s.holding i with
  | some h => if admitted x h.holder then s else s.loseItem i h .authorityLost (.location x)
  | none => s

/-- A new control location at the Authority Table (05 R93). -/
def State.takeLocation (s : State) (x : Location) : State :=
  items.foldl (fun t i => t.loseExcluded x i) { s with authority := { s.authority with location := x } }

/-- Checks 3 to 5 of 05 R96; `processors` for a request marked "A or B". -/
def State.authorityCheck (s : State) (p : Port) (processors : Bool) (l : List Item) : Option Reason :=
  if processors && !stationProcessor p then some (.notAuthorised true l.head?)
  else if !s.admits p then some .wrongLocation
  else
    l.findSome? fun i =>
      match s.holding i with
      | some h => if h.holder = p then none else some (.heldByOther i h.holder)
      | none => some (.notAuthorised true (some i))

/-- One entry of the table as reported (05 R102). -/
def State.holdingReport (s : State) (i : Item) : Option HoldingReport :=
  (s.holding i).map fun h =>
    { holder := h.holder, remaining := s.msLeft h.expiry, held := s.msSince h.grantedAt }

/-- The table as CLAIM and RELEASE report it (05 R102). -/
def State.tableReport (s : State) : Body :=
  .table (File.ofList 9 none (items.map s.holdingReport)) s.authority.location s.station.leaseTime

end Sys2Proof.Machine
end

