-- ==== Sys2Proof/Machine/FieldInputs.lean ====
section
/-! DEFINITION. The field inputs (02): auxiliary contacts and the location key, their debounce, readiness after
reset, and position faults; the family's commands. -/

set_option Elab.async false

namespace Sys2Proof.Machine

/-- The reading two contacts stand for (02 R18). -/
def readingOf (a b : Bool) : Position :=
  match a, b with
  | true, false => .closed
  | false, true => .opened
  | _, _ => .invalid

/-- The present contact combination (02 R18). -/
def combinationOf (a b : Bool) : Option Combination :=
  match a, b with
  | false, false => some .bothOpen
  | true, true => some .bothMade
  | _, _ => none

/-- The contacts at new levels: a reading that changes starts its own 4 ms, and one that changes back within
one instant leaves no trace (02 R18, R19). -/
def ContactInput.at (x : ContactInput) (a b : Bool) (now : Instant) : ContactInput :=
  let r := readingOf a b
  let x := { x with a := a, b := b }
  if r = x.reading then x
  else if x.since = now then
    if r = x.earlier then { x with reading := r, since := x.earlierSince }
    else { x with reading := r }
  else { x with reading := r, since := now, earlier := x.reading, earlierSince := x.since }

/-- One contact made or open. -/
def ContactInput.move (x : ContactInput) (c : Contact) (made : Bool) (now : Instant) : ContactInput :=
  match c with
  | .a => x.at made x.b now
  | .b => x.at x.a made now

/-- The input block of a breaker. -/
def State.inputOf (s : State) : Breaker → ContactInput
  | .feeder f => s.input f
  | .ac => s.acInput

def State.modInputOf (s : State) (b : Breaker) (g : ContactInput → ContactInput) : State :=
  match b with
  | .feeder f => s.modInput f g
  | .ac => { s with acInput := g s.acInput }

/-- CONTACT_CHANGE (02 R18); while held in reset only the level is followed (log 25). -/
def execContactChange (b : Breaker) (c : Contact) (made : Bool) (s : State) :
    Host.Outcome State Fault Refusal :=
  .next (s.modInputOf b fun x => x.move c made s.now)

/-- The subject of a breaker's position entries (02 R21, R22). -/
def Breaker.subject : Breaker → Subject
  | .feeder f => .feeder f
  | .ac => .rectifier

/-- The reading has been unchanged for 4 ms and differs from the position (02 R19). -/
def State.debounceDue (s : State) (b : Breaker) : Bool :=
  let x := s.inputOf b
  x.position != some x.reading && decide (x.since + ms 4 ≤ s.now)

/-- The debounced position takes the reading (02 R19, R21). -/
def ContactInput.take (x : ContactInput) (now : Instant) : ContactInput :=
  if x.reading = .invalid then
    { x with position := some .invalid, before := x.position, invalidSince := some now, reported := false }
  else { x with position := some x.reading, invalidSince := none, reported := false }

/-- The position is taken, with POSITION RESTORED when a reported fault ends (02 R21). -/
def State.takePosition (s : State) (b : Breaker) : State :=
  let x := s.inputOf b
  let t := s.modInputOf b fun x => x.take s.now
  if x.reported && x.reading != .invalid then
    t.addEntry .positionRestored (Breaker.subject b) .protection (.position x.reading)
  else t

/-- A feeder becomes ready at its first debounced position (02 R23). A first state CLOSED is protected as one entered from
OPEN is, and Fault Detection's copy takes the group (03 R40, R50). -/
def State.becomeReady (s : State) (f : Feeder) (pos : Position) : State :=
  let g := groupFor (s.config f).farLink (s.section' f).farState
  let t := s.modFeeder f fun _ =>
    { FeederRecord.reset with ready := true, group := g,
                              state := if pos = .closed then .closed else .opened }
  (((t.modFault f fun d => { d with group := g }).protectionNotice .opened f).retardNotice f).queueFeederEnd f

/-- A feeder's position reaches its state machine and the link (02 R20). -/
def State.feederPosition (s : State) (f : Feeder) (first : Bool) (pos : Position) : State :=
  if first then s.becomeReady f pos else (s.queueFeederEnd f).positionChange f pos

/-- The AC breaker's position reaches the Firing Unit. The first after reset adds none of the entries of 06 R126, but
it confirms an AC operation that awaits it (02 R22, 06 R110, R123, R125). -/
def State.acBreakerPosition (s : State) (first : Bool) (pos : Position) : State :=
  if first && !s.rect.awaits pos then s else s.acPositionChange pos

/-- The debounced position is taken and handed on (02 R20, R22). -/
def State.debounced (s : State) (b : Breaker) : State :=
  let x := s.inputOf b
  let t := s.takePosition b
  match b with
  | .feeder f => t.feederPosition f x.position.isNone x.reading
  | .ac => t.acBreakerPosition x.position.isNone x.reading

/-- POSITION_DEBOUNCE_EXPIRY (02 R19). -/
def execPositionDebounceExpiry (b : Breaker) (s : State) : Host.Outcome State Fault Refusal :=
  live s fun s => if s.debounceDue b then s.debounced b else s

/-- A position has been INVALID for 200 ms and the fault is not reported (02 R21). -/
def State.faultDue (s : State) (b : Breaker) : Bool :=
  let x := s.inputOf b
  x.position == some .invalid && !x.reported && s.reached (x.invalidSince.map (· + ms 200))

/-- The position held before INVALID, as POSITION FAULT carries it (02 R21). -/
def beforeCode : Option Position → Int
  | some .opened => 0
  | some .closed => 1
  | _ => -1

/-- The combination as a detail (02 R21; log 27). -/
def combinationDetail (x : ContactInput) : Detail :=
  match combinationOf x.a x.b with
  | some c => .combination c
  | none => .nothing

/-- POSITION_FAULT (02 R21). -/
def execPositionFault (b : Breaker) (s : State) : Host.Outcome State Fault Refusal :=
  live s fun s =>
    if s.faultDue b then
      (s.modInputOf b fun x => { x with reported := true }).addEntry .positionFault (Breaker.subject b)
        .protection (combinationDetail (s.inputOf b)) (some (beforeCode (s.inputOf b).before))
    else s

/-! ## The location key (02 R34, R35) -/

/-- The location a key contact reads: REMOTE when made (02 R34). -/
def keyReading (made : Bool) : Location := if made then .remoteKey else .localKey

/-- The key contact at a new level, debounced as a position (02 R34). -/
def KeyInput.at (x : KeyInput) (made : Bool) (now : Instant) : KeyInput :=
  if made = x.made then x
  else if x.since = now then
    if made = x.earlier then { x with made := made, since := x.earlierSince } else { x with made := made }
  else { x with made := made, since := now, earlier := x.made, earlierSince := x.since }

/-- KEY_INPUT_CHANGE (02 R34); while held in reset only the level is followed (log 25). -/
def execKeyInputChange (made : Bool) (s : State) : Host.Outcome State Fault Refusal :=
  .next { s with key := s.key.at made s.now }

/-- The key's reading has been unchanged for 4 ms and differs from the location (02 R34). -/
def State.keyDue (s : State) : Bool :=
  keyReading s.key.made != s.key.location && decide (s.key.since + ms 4 ≤ s.now)

/-- A change of the control location: its entry, then the Authority Table and the waits (02 R35, 09 R176). -/
def State.changeLocation (s : State) (x : Location) : State :=
  let t := ({ s with key := { s.key with location := x } }).addEntry .locationChanged .nothing .protection
    (.location x)
  together ((fun t => t.takeLocation x) :: waitParts readsLocation) t

/-- LOCATION_CHANGED (02 R35). -/
def execLocationChanged (s : State) : Host.Outcome State Fault Refusal :=
  live s fun s => if s.keyDue then s.changeLocation (keyReading s.key.made) else s

end Sys2Proof.Machine
end

