-- ==== Sys2Proof/Machine/Ports.lean ====
section
/-! DEFINITION. The Master Ports (11): selections, frames received and judged, the request buffers, taking a
request and building its response, PORT RESET and IDENTIFY. -/

set_option Elab.async false

namespace Sys2Proof.Machine

/-! ## Receiving frames (11 R197 to R200) -/

/-- A judged frame enters an empty request buffer, or is discarded when both are full; a bad frame counts
where it enters (11 R198 to R200; log 18). -/
def MasterPort.enter (x : MasterPort) (fr : Frame) : MasterPort :=
  if x.buffers.length < 2 then
    { x with buffers := x.buffers ++ [fr],
             framesBad := if fr = .bad then bump x.framesBad else x.framesBad }
  else { x with overrun := true, framesDiscarded := bump x.framesDiscarded }

/-- SELECT_ASSERTED (11 R197); while held in reset only the level is followed (log 25). -/
def execSelectAsserted (p : Port) (s : State) : Host.Outcome State Fault Refusal :=
  .next (s.modPort p fun x => { x with selected := true })

/-- Select ends: an incomplete frame is judged as failing the CRC check (11 R198), and a response partly clocked out
is sent again from its first byte (11 R197). -/
def State.deselect (s : State) (p : Port) (bytes : List Byte) : State :=
  s.modPort p fun x =>
    let y := { x with selected := false, sent := 0 }
    if x.selected && !s.resetLine && scan bytes == .incomplete then y.enter .bad else y

/-- SELECT_DEASSERTED (11 R197, R198): the bytes since the last frame of the selection. -/
def execSelectDeasserted (p : Port) (bytes : List Byte) (s : State) : Host.Outcome State Fault Refusal :=
  .next (s.deselect p bytes)

/-- The bytes of the head response clocked out so far in this selection, none without a response (11 R197; log 45). -/
def MasterPort.clockedOut (x : MasterPort) (out : Nat) : MasterPort :=
  { x with sent := if x.responses.isEmpty then 0 else out }

/-- FRAME_LENGTH_ABOVE_256 (11 R198): judged at once after the length bytes. -/
def execFrameLengthAbove256 (p : Port) (c : Clocked) (s : State) : Host.Outcome State Fault Refusal :=
  live s fun s =>
    if (s.port p).selected && scan c.bytes == .overLength then
      s.modPort p fun x => (x.clockedOut c.out).enter .bad
    else s

/-- RESPONSE_SENT (11 R197): the head response leaves the queue. -/
def execResponseSent (p : Port) (s : State) : Host.Outcome State Fault Refusal :=
  live s fun s =>
    if (s.port p).selected then s.modPort p fun x => { x with responses := x.responses.tail, sent := 0 } else s

/-! ## Taking a request (11 R199, R201) -/

/-- What the owning block answers: status, body, and the state after the request. -/
structure Answer where
  status : Status
  body : Body
  state : State
  deriving DecidableEq, Repr

/-- DONE with nothing to report. -/
def done (s : State) : Answer := { status := .done, body := .empty, state := s }

/-- DONE with a report. -/
def report (b : Body) (s : State) : Answer := { status := .done, body := b, state := s }

/-- ACCEPTED. -/
def accepted (s : State) : Answer := { status := .accepted, body := .empty, state := s }

/-- REFUSED: nothing changes. -/
def refuse (r : Reason) (s : State) : Answer := { status := .refused r, body := .empty, state := s }

/-- The response to an answer joins the tail of the queue (11 R199, R201). -/
def State.respond (p : Port) (kind tag : Byte) (a : Answer) : State :=
  let s := a.state
  s.modPort p fun x =>
    { x with
      overrun := false
      responses := x.responses ++
        [{ kind := kind, tag := tag, status := a.status, overrun := x.overrun,
           eventsWaiting := s.eventsWaiting p, segmentFresh := s.segmentFresh p, body := a.body }] }

/-- The port may take a request: its response queue holds fewer than 2 (11 R199). -/
def MasterPort.room (x : MasterPort) : Bool := decide (x.responses.length < 2)

/-- The buffered frame that arrived first is emptied from its buffer. -/
def State.dropBuffer (s : State) (p : Port) : State :=
  s.modPort p fun x => { x with buffers := x.buffers.tail }

/-- The oldest buffered frame of a port, when it may be taken. -/
def State.oldest (s : State) (p : Port) : Option Frame :=
  if (s.port p).room then (s.port p).buffers.head? else none

/-- The oldest buffered request of a kind, when it may be taken: its tag and body. -/
def State.waiting (s : State) (p : Port) (kind : Byte) : Option (Byte × List Byte) :=
  match s.oldest p with
  | some (.good k tag body) => if k = kind then some (tag, body) else none
  | _ => none

/-- A request of a kind is taken as one event (11 R199): its buffer is emptied, its owning block answers,
and the response is built. -/
def takeRequest (p : Port) (kind : Byte) (handle : List Byte → State → Answer) (s : State) :
    Host.Outcome State Fault Refusal :=
  live s fun s =>
    match s.waiting p kind with
    | some (tag, body) => State.respond p kind tag (handle body (s.dropBuffer p))
    | none => s

/-- BAD_FRAME (11 R198): kind 0 and tag 0. -/
def execBadFrame (p : Port) (s : State) : Host.Outcome State Fault Refusal :=
  live s fun s =>
    match s.oldest p with
    | some .bad => State.respond p 0 0 (refuse .badFrame (s.dropBuffer p))
    | _ => s

/-- BAD_KIND (11 R198): a good frame whose kind is not in the catalogue. -/
def execBadKind (p : Port) (s : State) : Host.Outcome State Fault Refusal :=
  live s fun s =>
    match s.oldest p with
    | some (.good kind tag _) =>
      if (requestCommand p kind).isNone then State.respond p kind tag (refuse .badKind (s.dropBuffer p))
      else s
    | _ => s

/-! ## Requests with arguments, and with authority (05 R96) -/

/-- Check 1: a request whose body does not read is refused BAD_ARGUMENT. -/
def withArgs {α : Type} (read : List Byte → Option α) (handle : α → State → Answer) (body : List Byte)
    (s : State) : Answer :=
  match read body with
  | some a => handle a s
  | none => refuse .badArgument s

/-- A request carried out renews the leases of the items it needed (05 R97). -/
def renewing (l : List Item) (a : Answer) : Answer :=
  match a.status with
  | .refused _ => a
  | _ => { a with state := a.state.renewItems l }

/-- Checks 3 to 5, then the owning block, then the renewal (05 R96, R97). -/
def withAuthority (p : Port) (processors : Bool) (l : List Item) (handle : State → Answer) (s : State) :
    Answer :=
  match s.authorityCheck p processors l with
  | some r => refuse r s
  | none => renewing l (handle s)

/-- Check 2: the feeder the request names is ready (02 R24). -/
def withReady (f : Feeder) (handle : State → Answer) (s : State) : Answer :=
  if (s.feeder f).ready then handle s else refuse .notReady s

/-! ## CLAIM and RELEASE (05) -/

/-- CLAIM, refused or carried out, reports the table (05 R88, R89, R102). -/
def handleClaim (p : Port) (l : List Item) (s : State) : Answer :=
  match s.claimCheck p l with
  | some r => { status := .refused r, body := s.tableReport, state := s }
  | none =>
    let t := l.foldl (fun t i => t.claimItem p i) s
    report t.tableReport t

/-- A refused CLAIM or RELEASE carries the table too (05 R102). -/
def withItems (handle : List Item → State → Answer) (body : List Byte) (s : State) : Answer :=
  match readItems body with
  | some l => handle l s
  | none => { status := .refused .badArgument, body := s.tableReport, state := s }

/-- CLAIM (05 R88). -/
def execClaim (p : Port) (s : State) : Host.Outcome State Fault Refusal :=
  takeRequest p 0x01 (withItems (handleClaim p)) s

/-- RELEASE (05 R90). -/
def handleRelease (p : Port) (l : List Item) (s : State) : Answer :=
  let t := s.releaseItems p false l
  report t.tableReport t

/-- RELEASE (05 R90). -/
def execRelease (p : Port) (s : State) : Host.Outcome State Fault Refusal :=
  takeRequest p 0x02 (withItems (handleRelease p)) s

/-! ## PORT RESET and IDENTIFY (11 R202, R203) -/

/-- PORT RESET acts at its reception (11 R202, 05 R94). -/
def State.resetPort (s : State) (p : Port) (tag : Byte) : State :=
  let t := s.modPort p fun x => { x with buffers := [], responses := [], sent := 0, overrun := false }
  State.respond p 0x7E tag (done (t.releaseItems p true items))

/-- PORT_RESET (11 R202), within a selection. -/
def execPortReset (p : Port) (tag : Byte) (s : State) : Host.Outcome State Fault Refusal :=
  live s fun s => if (s.port p).selected then s.resetPort p tag else s

/-- A frame is judged at its last CRC byte (11 R198, R202): a PORT RESET acts, any other frame enters a
buffer. -/
def State.receive (s : State) (p : Port) (c : Clocked) : State :=
  match scan c.bytes with
  | .frame kind tag body crcOk =>
    if crcOk then
      if kind = 0x7E#8 then s.resetPort p tag
      else s.modPort p fun x => (x.clockedOut c.out).enter (.good kind tag body)
    else s.modPort p fun x => (x.clockedOut c.out).enter .bad
  | _ => s

/-- REQUEST_FRAME_RECEIVED (11 R198). -/
def execRequestFrameReceived (p : Port) (c : Clocked) (s : State) : Host.Outcome State Fault Refusal :=
  live s fun s => if (s.port p).selected then s.receive p c else s

/-- What IDENTIFY reports (11 R203). -/
def State.identity (s : State) (p : Port) : Identity :=
  { partCode := 0xCF08, revision := 1, port := p, stationNumber := s.station.stationNumber,
    uptime := min (s.msSince s.startedAt) 4294967295, restartCause := s.restartCause,
    source := s.store.source, framesBad := (s.port p).framesBad,
    framesDiscarded := (s.port p).framesDiscarded }

/-- IDENTIFY (11 R203). -/
def execIdentify (p : Port) (s : State) : Host.Outcome State Fault Refusal :=
  takeRequest p 0x7F (withArgs readEmpty fun _ s => report (.identity (s.identity p)) s) s

end Sys2Proof.Machine
end

