-- ==== Sys2Proof/Machine/FeederRequests.lean ====
section
/-! DEFINITION. The feeder requests (04 R66, R79, R80; 02 R38): OPEN FEEDER, CLOSE FEEDER, RESET LOCKOUT and
READ FEEDERS. -/

set_option Elab.async false

namespace Sys2Proof.Machine

/-- OPEN FEEDER ends with a trip under way: ACCEPTED (04 R80). -/
def State.opensByTrip (s : State) (f : Feeder) : Bool := (s.feeder f).state.protected'

/-- OPEN FEEDER needs no authority (04 R80). -/
def handleOpenFeeder (p : Port) (f : Feeder) : State → Answer :=
  withReady f fun s =>
    let t := s.openFeeder f (.port p)
    if s.opensByTrip f then accepted t else done t

/-- OPEN_FEEDER (04 R80). -/
def execOpenFeeder (p : Port) (s : State) : Host.Outcome State Fault Refusal :=
  takeRequest p 0x10 (withArgs readFeeder (handleOpenFeeder p)) s

/-- CLOSE FEEDER: ready, authority, the eight checks, then the operation begins (04 R66). -/
def handleCloseFeeder (p : Port) (f : Feeder) : State → Answer :=
  withReady f (withAuthority p false [.feeder f] fun s =>
    match s.closeCheck f false with
    | some cause => refuse (.interlocked cause) s
    | none => accepted (s.beginClose f (.port p)))

/-- CLOSE_FEEDER (04 R66). -/
def execCloseFeeder (p : Port) (s : State) : Host.Outcome State Fault Refusal :=
  takeRequest p 0x11 (withArgs readFeeder (handleCloseFeeder p)) s

/-- RESET LOCKOUT in the feeder's state (04 R79). -/
def handleResetLockout (p : Port) (f : Feeder) : State → Answer :=
  withReady f (withAuthority p false [.feeder f] fun s =>
    match (s.feeder f).state with
    | .lockedOut => done (s.resetLockout f (.port p))
    | .breakerFailed => refuse (.interlocked .breakerFailed) s
    | _ => refuse (.interlocked .state) s)

/-- RESET_LOCKOUT (04 R79). -/
def execResetLockout (p : Port) (s : State) : Host.Outcome State Fault Refusal :=
  takeRequest p 0x12 (withArgs readFeeder (handleResetLockout p)) s

/-! ## READ FEEDERS (02 R38, 03 R58, 01 R16) -/

/-- The Fault Detection part (03 R58). A blind deadline that has passed and is kept (R52, R54) is reported with a remaining
time of 0, for which R58 gives no value: the model's choice (log 50). -/
def State.faultReport (s : State) (f : Feeder) : FaultReport :=
  let d := s.fault f
  { active := d.active, group := d.group, outstanding := d.outstanding, history := d.history,
    rising := d.i0.isSome, previousIf := d.previousIf, i0 := d.i0, riseCounter := d.riseCounter,
    lowCount := d.lowCount, blindAge := d.blindSince.map fun t => inUs (s.now - t),
    blindRemaining := (s.blindDeadline f).map fun t => inUs (t - s.now), lastDecision := d.lastDecision }

/-- The Section Record part (02 R38). -/
def State.sectionReport (s : State) (f : Feeder) : SectionReport :=
  let r := s.section' f
  { farLink := (s.config f).farLink, farFeeder := (s.config f).farFeeder, farState := r.farState,
    farSeen := r.farSeen.map (·.1), farSeenAge := r.farSeen.map fun x => s.msSince x.2,
    matching := r.matching, claim := r.claim, claimRemaining := r.claimDeadline.map s.msLeft }

/-- The operation as reported (04 R85). -/
def State.operationReport (s : State) (op : Operation) : OperationReport :=
  { kind := op.kind, origin := op.origin, startTime := op.startTime, testMode := op.testMode,
    remaining := op.deadline.map s.msLeft }

/-- A ready feeder's part (02 R38, 04 R85). -/
def State.readyReport (s : State) (f : Feeder) : ReadyReport :=
  let r := s.feeder f
  { state := r.state, position := (s.input f).position, operation := r.operation.map s.operationReport,
    recloseRemaining := r.recloseDue.map s.msLeft, deferred := r.deferred, lastTripCause := r.lastTripCause,
    attempts := r.attempts, group := r.group, lastIf := r.lastIf, lastUf := r.lastUf, peakIf := r.peakIf,
    reclaimStart := r.reclaimStart, reclaimRemaining := r.reclaimWatch.map s.msLeft,
    tripLine := s.tripLine f, closeLine := s.closeLine f, testLine := s.testLine f,
    inService := (s.config f).inService, farEnd := s.sectionReport f, fault := s.faultReport f }

/-- One feeder; not ready, its reading and its present contact combination, and no other field (02 R24, R38; log 48). -/
def State.feederReport (s : State) (f : Feeder) : FeederReport :=
  { feeder := f, reading := (s.input f).reading, combination := combinationOf (s.input f).a (s.input f).b,
    ready := if (s.feeder f).ready then some (s.readyReport f) else none }

/-- The Sample Port part (01 R16). -/
def State.sampleReport (s : State) : SampleReport :=
  { state := s.sample.state,
    outageAge := s.sample.outageStart.map fun t => min (inUs (s.now - t)) 4294967295,
    outageLost := s.sample.outageLost, discards := s.sample.discards, lastDiscard := s.sample.lastDiscard,
    counters := s.sample.counters, last := s.sample.last }

/-- READ FEEDERS reports and changes nothing (02 R38). -/
def handleReadFeeders (l : List Feeder) (s : State) : Answer :=
  report (.feeders (l.map s.feederReport) s.key.location s.acPosition s.sampleReport) s

/-- READ_FEEDERS (02 R38). -/
def execReadFeeders (p : Port) (s : State) : Host.Outcome State Fault Refusal :=
  takeRequest p 0x13 (withArgs readFeederChoice handleReadFeeders) s

end Sys2Proof.Machine
end

