-- ==== Sys2Proof/Machine/LinkRequests.lean ====
section
/-! DEFINITION. The link requests (07 R155 to R157): WRITE SEGMENT, READ SEGMENT and READ LINKS. -/

set_option Elab.async false

namespace Sys2Proof.Machine

/-- The segment number of a written segment: 9 to 15. -/
def writtenSegment (n : Fin 7) : Fin 16 := ⟨n.val + 9, by omega⟩

/-- WRITE SEGMENT (07 R155): the bytes, their writer, and the segment queued while the link is UP. -/
def handleWriteSegment (p : Port) (x : LinkId × Fin 7 × File Byte 16) (s : State) : Answer :=
  done (s.modLink x.1 fun k =>
    { k with outgoing := k.outgoing.set x.2.1 { bytes := x.2.2, writer := some p } }.queue
      (writtenSegment x.2.1))

/-- WRITE_SEGMENT (07 R155). -/
def execWriteSegment (p : Port) (s : State) : Host.Outcome State Fault Refusal :=
  takeRequest p 0x30 (withArgs readWriteSegment (handleWriteSegment p)) s

/-- The last writer, which a segment 9 to 15 has (07 R156). -/
def State.writerOf (s : State) (l : LinkId) (n : Fin 16) : Option (Option Port) :=
  if 9 ≤ n.val then some ((s.link l).outgoing.get ⟨n.val - 9, by omega⟩).writer else none

/-- The requester's own fresh flag is cleared (07 R156). -/
def State.clearFresh (s : State) (p : Port) (l : LinkId) (n : Fin 16) : State :=
  s.modLink l fun k =>
    let g := k.incoming.get n
    { k with incoming := k.incoming.set n { g with fresh := g.fresh.set p.index false } }

/-- READ SEGMENT (07 R156). -/
def handleReadSegment (p : Port) (x : LinkId × Fin 16 × Bool) (s : State) : Answer :=
  let l := x.1
  let n := x.2.1
  if x.2.2 then report (.outSegment (s.outgoingBytes l n) (s.writerOf l n)) s
  else
    let g := (s.link l).incoming.get n
    report (.inSegment g.bytes (g.arrival.map fun a => (a.1, s.msSince a.2))) (s.clearFresh p l n)

/-- READ_SEGMENT (07 R156). -/
def execReadSegment (p : Port) (s : State) : Host.Outcome State Fault Refusal :=
  takeRequest p 0x31 (withArgs readReadSegment (handleReadSegment p)) s

/-- What READ LINKS reports of one link (07 R157). -/
def State.linkReport (s : State) (p : Port) (l : LinkId) : LinkReport :=
  let k := s.link l
  { state := k.state, light := k.light, upAge := k.upSince.map s.msSince, goodRun := k.goodRun,
    badRun := k.badRun, farStation := k.farStation, conflict := k.conflict, delayStatus := k.delayStatus,
    measurements := k.measurements, loopAverage := k.loopAverage, oneWay := k.oneWay,
    goodCount := k.goodCount, pendingSet := k.pendingSet, queued := k.queued, transfer := k.transfer,
    arrivalAges := k.incoming.map fun g => g.arrival.map fun a => s.msSince a.2,
    fresh := k.incoming.map fun g => g.fresh.get p.index, counters := k.counters }

/-- READ_LINKS (07 R157): reports and changes nothing. -/
def execReadLinks (p : Port) (s : State) : Host.Outcome State Fault Refusal :=
  takeRequest p 0x32
    (withArgs readEmpty fun _ s => report (.links (s.linkReport p .link0) (s.linkReport p .link1)) s) s

end Sys2Proof.Machine
end

