-- ==== Sys2Proof/Machine/Programmes.lean ====
section
/-! DEFINITION. Switching programmes (09): the programme store, starting a programme, taking a step, the wait
limit, runner control and READ RUNNERS. -/

set_option Elab.async false

namespace Sys2Proof.Machine

/-! ## The programme store (09 R168, R169) -/

/-- A runner uses a programme in every state other than IDLE (09 R168). -/
def State.usesProgramme (s : State) (r : RunnerId) (n : Fin 8) : Bool :=
  (s.runner r).state != .idle && (s.runner r).programme == some n

/-- Some runner uses a programme. -/
def State.inUse (s : State) (n : Fin 8) : Bool := allRunners.any fun r => s.usesProgramme r n

/-- Slots `first` to `first + n - 1` meet the range of a programme in use (09 R168, check 6). -/
def State.slotsInUse (s : State) (first n : Nat) : Bool :=
  eight.any fun k =>
    s.inUse k &&
      match s.headers.get k with
      | some h => decide (first < h.first + h.count ∧ h.first < first + n)
      | none => false

/-- The steps replace the slots in order (09 R168). -/
def storeSteps : Nat → List Step → File Step 256 → File Step 256
  | _, [], slots => slots
  | n, x :: rest, slots => storeSteps (n + 1) rest (slots.set (Fin.ofNat 256 n) x)

/-- LOAD STEPS (09 R168). -/
def handleLoadSteps (x : Nat × List Step) (s : State) : Answer :=
  if s.slotsInUse x.1 x.2.length then refuse .programmeBusy s
  else done { s with slots := storeSteps x.1 x.2 s.slots }

/-- LOAD_STEPS (09 R168). -/
def execLoadSteps (p : Port) (s : State) : Host.Outcome State Fault Refusal :=
  takeRequest p 0x50 (withArgs readLoadSteps handleLoadSteps) s

/-- DEFINE PROGRAMME (09 R169). -/
def handleDefine (x : Fin 8 × Option Header) (s : State) : Answer :=
  if s.inUse x.1 then refuse .programmeBusy s else done { s with headers := s.headers.set x.1 x.2 }

/-- DEFINE_PROGRAMME (09 R169). -/
def execDefineProgramme (p : Port) (s : State) : Host.Outcome State Fault Refusal :=
  takeRequest p 0x51 (withArgs readDefine handleDefine) s

/-! ## Starting (09 R170, 05 R98) -/

/-- The actions that act on their target (09, step fields). -/
def StepAction.acts : StepAction → Bool
  | .openFeeder | .closeFeeder | .setAlpha | .startRectifier | .stopRectifier => true
  | _ => false

/-- A programme targets an item (05 R98). -/
def State.targets (s : State) (h : Header) (i : Item) : Bool :=
  (List.range h.count).any fun k =>
    let x := s.slot (h.first + k)
    x.action.acts && x.target == some i

/-- The items a programme targets, each once (05 R98). -/
def State.targetItems (s : State) (h : Header) : List Item := items.filter (s.targets h)

/-- Every feeder of an item list is ready (09 R170, check 2). -/
def State.allReady (s : State) (l : List Item) : Bool :=
  l.all fun i =>
    match i with
    | .feeder f => (s.feeder f).ready
    | .rectifier => true

/-- The runner enters RUNNING at step 0 (09 R170). -/
def State.startRunner (s : State) (p : Port) (r : RunnerId) (n : Fin 8) (h : Header) : State :=
  (s.modRunner r fun _ =>
    { state := .running, programme := some n, index := some 0, starter := some p,
      due := some (s.now + ms (s.slot h.first).delay), remaining := none, awaiting := none,
      haltReason := none, lastOutcome := none }).addEntry .programmeStart (.runner r) (.port p) .nothing
    (some (n.val : Int)) (some (h.count : Int))

/-- START PROGRAMME, in the order of 09 R170. -/
def handleStartProgramme (p : Port) (x : RunnerId × Fin 8) (s : State) : Answer :=
  match s.headers.get x.2 with
  | none => refuse .badArgument s
  | some h =>
    let l := s.targetItems h
    if !s.allReady l then refuse .notReady s
    else
      match (if l.isEmpty then none else s.authorityCheck p false l) with
      | some reason => refuse reason s
      | none =>
        if (s.runner x.1).state ≠ .idle then refuse .busy s
        else renewing l (accepted (s.startRunner p x.1 x.2 h))

/-- START_PROGRAMME (09 R170). -/
def execStartProgramme (p : Port) (s : State) : Host.Outcome State Fault Refusal :=
  takeRequest p 0x52 (withArgs readStart (handleStartProgramme p)) s

/-! ## Taking a step (09 R171 to R176) -/

/-- The actions whose step asks the Authority Table (09 R171, step 2). -/
def StepAction.asks : StepAction → Bool
  | .closeFeeder | .setAlpha | .startRectifier | .stopRectifier => true
  | _ => false

/-- The starter holds the target at this instant (05 R99). -/
def State.starterHolds (s : State) (r : RunnerId) (target : Option Item) : Bool :=
  match (s.runner r).starter, target with
  | some p, some i => s.holds p i
  | _, _ => false

/-- The step is skipped (09 R171, step 1). -/
def State.skipStep (s : State) (r : RunnerId) : State :=
  (s.addEntry .stepSkipped (.runner r) (.runner r) (.action (s.stepOf r).action)
    (some (s.indexOf r))).completeStep r .skipped

/-- OPEN_FEEDER completes when the request is taken (09 R173), after all that the opening leads to (log 51). -/
def State.stepOpen (s : State) (r : RunnerId) (f : Feeder) : State :=
  if (s.feeder f).ready then (s.openFeeder f (.runner r)).completeStep r .done else s.failStep r .notReady

/-- CLOSE_FEEDER (09 R174). -/
def State.stepClose (s : State) (r : RunnerId) (f : Feeder) : State :=
  if (s.feeder f).ready then
    match s.closeCheck f false with
    | some cause => s.failStep r (.interlocked cause)
    | none => (s.await r (.close f)).beginClose f (.runner r)
  else s.failStep r .notReady

/-- START_RECTIFIER (09 R175). -/
def State.stepStart (s : State) (r : RunnerId) : State :=
  match s.startCheck with
  | some cause => s.failStep r (.interlocked cause)
  | none => (s.await r .rectifier).startRect (.runner r)

/-- WAIT_UNTIL (09 R176). -/
def State.stepWait (s : State) (r : RunnerId) (limit : Nat) : State :=
  if s.satisfied (s.stepOf r) then s.completeStep r .done
  else if limit = 0 then s.failStep r .waitLimit
  else s.await r (.wait (s.now + ms limit))

/-- MARK (09 R173). -/
def State.stepMark (s : State) (r : RunnerId) (argument : Nat) : State :=
  (s.addEntry .programmeMark (.runner r) (.runner r) .nothing (some (argument : Int))
    (some (s.indexOf r))).completeStep r .done

/-- END (09 R173). -/
def State.stepEnd (s : State) (r : RunnerId) : State :=
  (s.modRunner r fun x => { x with lastOutcome := some (.done, x.index.getD 0) }.toIdle).addEntry
    .programmeEnd (.runner r) (.runner r) (.programmeEnd false) (some (s.indexOf r))

/-- The action is performed (09 R171, step 3); a target suits its action (09 R168). The step completes after all that the
action leads to (log 51). -/
def State.performStep (s : State) (r : RunnerId) (x : Step) : State :=
  match x.action, x.target with
  | .openFeeder, some (.feeder f) => s.stepOpen r f
  | .closeFeeder, some (.feeder f) => s.stepClose r f
  | .setAlpha, _ => (s.setTarget x.argument).completeStep r .done
  | .startRectifier, _ => s.stepStart r
  | .stopRectifier, _ => (s.stopRect (.runner r)).completeStep r .done
  | .waitUntil, _ => s.stepWait r x.argument
  | .mark, _ => s.stepMark r x.argument
  | .finish, _ => s.stepEnd r
  | _, _ => s.completeStep r .done

/-- A runner takes the step at its step index (09 R171). -/
def State.takeStep (s : State) (r : RunnerId) : State :=
  let x := s.stepOf r
  if x.action != .waitUntil && !s.satisfied x then s.skipStep r
  else if x.action.asks && !s.starterHolds r x.target then s.haltRunner r .notAuthorised
  else s.performStep r x

/-- The step at step index has fallen due (09 R171). -/
def State.stepIsDue (s : State) (r : RunnerId) : Bool :=
  (s.runner r).state == .running && s.reached (s.runner r).due

/-- STEP_DUE (09 R171). -/
def execStepDue (r : RunnerId) (s : State) : Host.Outcome State Fault Refusal :=
  live s fun s => if s.stepIsDue r then s.takeStep r else s

/-- The limit deadline of a wait is reached (09 R176, R179). -/
def State.waitIsOver (s : State) (r : RunnerId) : Bool :=
  match (s.runner r).awaiting with
  | some (.wait deadline) => decide (deadline ≤ s.now)
  | _ => false

/-- WAIT_LIMIT_EXPIRY (09 R176). -/
def execWaitLimitExpiry (r : RunnerId) (s : State) : Host.Outcome State Fault Refusal :=
  live s fun s => if s.waitIsOver r then s.failStep r .waitLimit else s

/-! ## Runner control (09 R178 to R180) -/

/-- The requester is the starter, or A or B (09 R178). -/
def State.mayControl (s : State) (p : Port) (r : RunnerId) : Bool :=
  stationProcessor p || (s.runner r).starter == some p

/-- Runner control is taken from the starter and from A and B (09 R178). -/
def withControl (p : Port) (handle : RunnerId → State → Answer) (r : RunnerId) (s : State) : Answer :=
  if s.mayControl p r then handle r s else refuse (.notAuthorised false none) s

/-- A control entry: the requester's port and the step index (09 R181). -/
def State.controlEntry (s : State) (kind : EventKind) (p : Port) (r : RunnerId) (index : Int) : State :=
  s.addEntry kind (.runner r) (.port p) .nothing (some index)

/-- A runner suspended in RUNNING: its remaining delay is held (09 R179). -/
def Runner.pause (x : Runner) (now : Instant) : Runner :=
  { x with state := .suspended, remaining := x.due.map (· - now), due := none }

/-- SUSPEND (09 R179). -/
def handleSuspend (p : Port) (r : RunnerId) (s : State) : Answer :=
  match (s.runner r).state with
  | .running =>
    done ((s.modRunner r fun x => x.pause s.now).controlEntry .programmeSuspended p r (s.indexOf r))
  | .awaiting =>
    done ((s.modRunner r fun x => { x with state := .suspended }).controlEntry .programmeSuspended p r
      (s.indexOf r))
  | .suspended => done s
  | .idle | .halted => refuse (.interlocked .state) s

/-- SUSPEND (09 R179). -/
def execSuspend (p : Port) (s : State) : Host.Outcome State Fault Refusal :=
  takeRequest p 0x53 (withArgs readRunner (withControl p (handleSuspend p))) s

/-- A suspended runner goes on: AWAITING while a step is awaited, else RUNNING (09 R179). -/
def Runner.continue' (x : Runner) (now : Instant) : Runner :=
  if x.awaiting.isSome then { x with state := .awaiting }
  else { x with state := .running, due := some (now + x.remaining.getD 0), remaining := none }

/-- RESUME (09 R179). -/
def handleResume (p : Port) (r : RunnerId) (s : State) : Answer :=
  if (s.runner r).state = .suspended then
    done ((s.modRunner r fun x => x.continue' s.now).controlEntry .programmeResumed p r (s.indexOf r))
  else refuse (.interlocked .state) s

/-- RESUME (09 R179). -/
def execResume (p : Port) (s : State) : Host.Outcome State Fault Refusal :=
  takeRequest p 0x54 (withArgs readRunner (withControl p (handleResume p))) s

/-- The runner is ended by a master (09 R180). -/
def State.endRunner (s : State) (kind : EventKind) (p : Port) (r : RunnerId) : State :=
  (s.modRunner r Runner.toIdle).controlEntry kind p r (s.indexOf r)

/-- STOP (09 R180). -/
def handleStopRunner (p : Port) (r : RunnerId) (s : State) : Answer :=
  if (s.runner r).state = .idle then done s else done (s.endRunner .programmeStopped p r)

/-- STOP (09 R180). -/
def execStop (p : Port) (s : State) : Host.Outcome State Fault Refusal :=
  takeRequest p 0x55 (withArgs readRunner (withControl p (handleStopRunner p))) s

/-- CLEAR (09 R180). -/
def handleClear (p : Port) (r : RunnerId) (s : State) : Answer :=
  if (s.runner r).state = .halted then done (s.endRunner .programmeCleared p r)
  else refuse (.interlocked .state) s

/-- CLEAR (09 R180). -/
def execClear (p : Port) (s : State) : Host.Outcome State Fault Refusal :=
  takeRequest p 0x56 (withArgs readRunner (withControl p (handleClear p))) s

/-! ## READ RUNNERS (09 R182) -/

/-- What a runner awaits as reported: the limit of a wait as the ms left to it (09 R182; log 10). -/
def State.awaitingReport (s : State) : Awaiting → Awaiting
  | .wait limit => .wait (s.msLeft limit)
  | x => x

/-- A runner's record as reported: its times in ms (09 R182). -/
def State.runnerReport (s : State) (r : RunnerId) : RunnerReport :=
  let x := s.runner r
  { state := x.state, programme := x.programme, index := x.index, starter := x.starter,
    due := x.due.map s.msLeft, remaining := x.remaining.map inMs,
    awaiting := x.awaiting.map s.awaitingReport,
    haltReason := x.haltReason, lastOutcome := x.lastOutcome }

/-- What READ RUNNERS reports. -/
def State.runnersReport (s : State) (first count : Nat) : Body :=
  .runners (s.runnerReport .runner0) (s.runnerReport .runner1) s.key.location s.headers
    ((List.range count).map fun k => s.slot (first + k))

/-- READ_RUNNERS (09 R182): reports and changes nothing. -/
def execReadRunners (p : Port) (s : State) : Host.Outcome State Fault Refusal :=
  takeRequest p 0x57 (withArgs readSlotRange fun x s => report (s.runnersReport x.1 x.2) s) s

end Sys2Proof.Machine
end

