-- ==== Sys2Proof/Machine/Records.lean ====
section
/-! DEFINITION. The reporting requests (10): READ EVENTS, SUBSCRIBE, READ CAPTURE and RELEASE CAPTURE. -/

set_option Elab.async false

namespace Sys2Proof.Machine

/-- The walk of a read: at most `n` subscribed entries, and the entries it has not reached (10 R187). -/
def walk (c : PortCursor) : Nat → List Entry → List Entry × List Entry
  | 0, rest => ([], rest)
  | _, [] => ([], [])
  | n + 1, e :: rest =>
    if c.subscribes e then
      let x := walk c n rest
      (e :: x.1, x.2)
    else walk c (n + 1) rest

/-- The cursor after a walk: after the last entry returned when the walk stopped on its count, else the newest
plus one (10 R187). -/
def cursorAfter (r : EventRecord) (x : List Entry × List Entry) : Nat :=
  match x.2, x.1.getLast? with
  | _ :: _, some e => nextSeq e.sequence
  | _, _ => r.nextSequence

/-- READ EVENTS (10 R187): at most nine entries fit one response. -/
def handleReadEvents (p : Port) (n : Nat) (s : State) : Answer :=
  let c := s.cursor p
  let x := walk c (min n 9) (s.events.ahead c)
  report (.events c.overrun c.gap x.1)
    (s.modCursor p fun c => { c with next := cursorAfter s.events x, overrun := false, gap := 0 })

/-- READ_EVENTS (10 R187). -/
def execReadEvents (p : Port) (s : State) : Host.Outcome State Fault Refusal :=
  takeRequest p 0x60 (withArgs readCount (handleReadEvents p)) s

/-- SUBSCRIBE (10 R188). -/
def handleSubscribe (p : Port) (classes : File Bool 8) (s : State) : Answer :=
  done (s.modCursor p fun c => { c with classes := classes })

/-- SUBSCRIBE (10 R188). -/
def execSubscribe (p : Port) (s : State) : Host.Outcome State Fault Refusal :=
  takeRequest p 0x61 (withArgs readClasses (handleSubscribe p)) s

/-- READ CAPTURE (10 R194): reports and changes nothing. -/
def handleReadCapture (x : Fin 4 × Nat × Nat) (s : State) : Answer :=
  report (.capture (captureBytes x.1 (s.captures.buffers.get x.1) x.2.1 x.2.2)) s

/-- READ_CAPTURE (10 R194). -/
def execReadCapture (p : Port) (s : State) : Host.Outcome State Fault Refusal :=
  takeRequest p 0x62 (withArgs readCaptureRange handleReadCapture) s

/-- RELEASE CAPTURE (10 R195). -/
def handleReleaseCapture (n : Fin 4) (s : State) : Answer :=
  match s.captures.buffers.get n with
  | some c => if c.held then done (s.setBuffer n none) else refuse .busy s
  | none => done s

/-- RELEASE_CAPTURE (10 R195). -/
def execReleaseCapture (p : Port) (s : State) : Host.Outcome State Fault Refusal :=
  takeRequest p 0x63 (withArgs readBuffer handleReleaseCapture) s

end Sys2Proof.Machine
end

