-- ==== Sys2Proof/Machine/RectifierRequests.lean ====
section
/-! DEFINITION. The rectifier requests (06): SET ALPHA, START, STOP, RESET and READ RECTIFIER. -/

set_option Elab.async false

namespace Sys2Proof.Machine

/-- SET ALPHA (06 R114). -/
def handleSetAlpha (p : Port) (angle : Nat) : State → Answer :=
  withAuthority p false [.rectifier] fun s => done (s.setTarget angle)

/-- SET_ALPHA (06 R114). -/
def execSetAlpha (p : Port) (s : State) : Host.Outcome State Fault Refusal :=
  takeRequest p 0x22 (withArgs readAngle (handleSetAlpha p)) s

/-- START RECTIFIER (06 R119). -/
def handleStart (p : Port) (_ : Unit) : State → Answer :=
  withAuthority p false [.rectifier] fun s =>
    match s.startCheck with
    | some cause => refuse (.interlocked cause) s
    | none => accepted (s.startRect (.port p))

/-- START_RECTIFIER (06 R119). -/
def execStartRectifier (p : Port) (s : State) : Host.Outcome State Fault Refusal :=
  takeRequest p 0x20 (withArgs readEmpty (handleStart p)) s

/-- STOP RECTIFIER (06 R125). -/
def handleStop (p : Port) (_ : Unit) : State → Answer :=
  withAuthority p false [.rectifier] fun s => done (s.stopRect (.port p))

/-- STOP_RECTIFIER (06 R125). -/
def execStopRectifier (p : Port) (s : State) : Host.Outcome State Fault Refusal :=
  takeRequest p 0x21 (withArgs readEmpty (handleStop p)) s

/-- RESET RECTIFIER (06 R127). -/
def handleReset (p : Port) (_ : Unit) : State → Answer :=
  withAuthority p false [.rectifier] fun s =>
    match s.resetCheck with
    | some cause => refuse (.interlocked cause) s
    | none => done (s.resetRect (.port p))

/-- RESET_RECTIFIER (06 R127). -/
def execResetRectifier (p : Port) (s : State) : Host.Outcome State Fault Refusal :=
  takeRequest p 0x23 (withArgs readEmpty (handleReset p)) s

/-- The length of a tick in us (06 R108). -/
def tickLength (period n : Nat) : Nat := period / 720 + if n < period % 720 then 1 else 0

/-- The present tick length (06 R129). -/
def State.presentTick (s : State) : Option Nat :=
  match s.clock.period, s.clock.tick with
  | some p, some n => some (tickLength p n)
  | _, _ => none

/-- What READ RECTIFIER reports (06 R129); a crossing watch that has run out has 0 left (log 50). -/
def State.rectifierReport (s : State) : RectifierReport :=
  let r := s.rect
  { state := r.state, target := r.target, applied := r.applied, firstCycle := r.firstCycle,
    cycle := r.cycle, faultRetard := r.faultRetard, overvoltageHold := r.overvoltageHold.isSome,
    measurementHold := r.measurementHold, retard := r.retard, ring := r.ring,
    gates := File.ofList 12 false (twelve.map s.gateLine), acPosition := s.acPosition,
    combination := combinationOf s.acInput.a s.acInput.b,
    acOperation := r.acOperation.map fun op => (op, s.msLeft op.deadline),
    lastTripCause := r.lastTripCause, overvoltage := r.overvoltage, overcurrent := r.overcurrent,
    releaseAge := r.releaseSince.map s.msSince, acClose := s.acCloseLine, acTrip := s.acTripLine,
    clock := s.clock, watchRemaining := s.clock.watch.map fun t => inUs (t - s.now),
    tickLength := s.presentTick, values := s.station }

/-- READ_RECTIFIER (06 R129): reports and changes nothing. -/
def execReadRectifier (p : Port) (s : State) : Host.Outcome State Fault Refusal :=
  takeRequest p 0x24 (withArgs readEmpty fun _ s => report (.rectifier s.rectifierReport) s) s

end Sys2Proof.Machine
end

