-- ==== Sys2Proof/Machine/SettingsRequests.lean ====
section
/-! DEFINITION. The settings requests (11 R204 to R206; 01 R4; 02 R31; 06 R128): SET STATION, SET FEEDER, SET
SLOTS, READ SETTINGS and COMMIT SETTINGS, and the end of the store's write. -/

set_option Elab.async false

namespace Sys2Proof.Machine

/-- The changed mark is set by a SET request carried out (11, settings block). -/
def State.markChanged (s : State) : State := { s with store := { s.store with changed := true } }

/-! ## SET STATION (11 R204, 06 R128) -/

/-- The present angle lies outside a new range, in RUNNING (06 R128). -/
def State.angleOutside (s : State) (v : StationSettings) : Bool :=
  s.rect.state == .running && (decide (s.rect.applied < v.alphaMin) || decide (v.alphaMax < s.rect.applied))

/-- A new alpha max takes effect at once outside RUNNING (06 R128). -/
def State.newAlphaMax (s : State) (v : StationSettings) : State :=
  s.modRect fun r => if r.state = .running then r else { r with applied := v.alphaMax }

/-- A change of the local station number at a link (07 R148, R151). -/
def State.numberChange (s : State) (old : Nat) (l : LinkId) : State :=
  if s.station.stationNumber = old then s else (s.modLink l fun k => k.queue 0).judgeConflict l

/-- SET STATION carried out (11 R204). -/
def State.setStation (s : State) (v : StationSettings) : State :=
  let old := s.station
  let t := ({ s with settings := { s.settings with station := v } }.markChanged).newAlphaMax v
  together [fun t => t.numberChange old.stationNumber .link0, fun t => t.numberChange old.stationNumber .link1,
    fun t => t.roleChange old.timeRole] t

/-- The Firing Unit's checks, made after those of authority and class (06 R128): the ranges again, which check 1 of 05
R96 has passed already (11 R204; log 41), and the present angle. -/
def changeStation (v : StationSettings) (s : State) : Answer :=
  if !v.rectifierInRange then refuse .badArgument s
  else if s.angleOutside v then refuse (.interlocked .state) s
  else done (s.setStation v)

/-- SET STATION (11 R204, 06 R128), its body past check 1. -/
def handleSetStation (p : Port) (v : StationSettings) : State → Answer :=
  withAuthority p true [.rectifier] (changeStation v)

/-- SET_STATION (11 R204). -/
def execSetStation (p : Port) (s : State) : Host.Outcome State Fault Refusal :=
  takeRequest p 0x70 (withArgs readSetStation (handleSetStation p)) s

/-! ## SET FEEDER (11 R204, 02 R31) -/

/-- The far link or far feeder changes. -/
def FeederSettings.partnerDiffers (old new : FeederSettings) : Bool :=
  old.farLink != new.farLink || old.farFeeder != new.farFeeder

/-- The states in which a partner may be changed (02 R31). -/
def FeederState.resting : FeederState → Bool
  | .opened | .lockedOut => true
  | _ => false

/-- A change of partner is possible (02 R31). -/
def State.partnerFree (s : State) (f : Feeder) : Bool :=
  ((s.feeder f).state.resting || !(s.config f).inService) && (s.section' f).claim == .idle

/-- A change of partner at the Section Record (02 R31). -/
def State.newPartner (s : State) (f : Feeder) : State :=
  let t := s.modSection f fun r =>
    { r with farSeen := none, staleFrom := none, heard := false,
             matching := if (s.config f).farLink.isNone then .noFarEnd else .mismatch }
  ((t.setFarState f none).regroup f).queueFeederEnd f

/-- SET FEEDER carried out (11 R204, 02 R31, 07 R151). -/
def State.setFeederTo (s : State) (f : Feeder) (v : FeederSettings) : State :=
  let old := s.config f
  let t := { s with settings := { s.settings with feeders := s.settings.feeders.set f v } }.markChanged
  if old.partnerDiffers v then t.newPartner f
  else if old.inService != v.inService then t.queueFeederEnd f
  else t

/-- SET FEEDER (11 R204). -/
def handleSetFeeder (p : Port) (x : Feeder × FeederSettings) : State → Answer :=
  withReady x.1 (withAuthority p true [.feeder x.1] fun s =>
    if (s.config x.1).partnerDiffers x.2 && !s.partnerFree x.1 then refuse (.interlocked .state) s
    else done (s.setFeederTo x.1 x.2))

/-- SET_FEEDER (11 R204). -/
def execSetFeeder (p : Port) (s : State) : Host.Outcome State Fault Refusal :=
  takeRequest p 0x71 (withArgs readSetFeeder (handleSetFeeder p)) s

/-! ## SET SLOTS (01 R4, R5) -/

/-- An entry that changes may not name this quantity now (01 R4, second stage). -/
def State.entryLocked (s : State) : SlotEntry → Bool
  | .unused => false
  | .feederCurrent f | .feederVoltage f =>
    (s.feeder f).ready && (s.config f).inService && !(s.feeder f).state.resting
  | .busVoltage | .rectifierCurrent => s.rect.state.started

/-- Some entry changes while its old or its new code is locked (01 R4). -/
def State.mapLocked (s : State) (m : File SlotEntry 32) : Bool :=
  (s.settings.slotMap.cells.zip m.cells).any fun x =>
    x.1 != x.2 && (s.entryLocked x.1 || s.entryLocked x.2)

/-- The Sample Port's two stages, made after the checks of authority and class (01 R4): the first has been passed at
check 1 of 05 R96 already (log 41). -/
def setMap (m : File SlotEntry 32) (s : State) : Answer :=
  if !namesOnce m.cells then refuse .badArgument s
  else if s.mapLocked m then refuse (.interlocked .state) s
  else done (s.newMap m).markChanged

/-- SET SLOTS (01 R4), its body past check 1. -/
def handleSetSlots (p : Port) (m : File SlotEntry 32) : State → Answer :=
  withAuthority p true [.rectifier] (setMap m)

/-- SET_SLOTS (01 R4). -/
def execSetSlots (p : Port) (s : State) : Host.Outcome State Fault Refusal :=
  takeRequest p 0x72 (withArgs readSlots (handleSetSlots p)) s

/-! ## READ SETTINGS (11 R206) -/

/-- The part named. -/
def State.settingsPart (s : State) : PartChoice → SettingsPart
  | .station => .station s.station
  | .slotMap => .slotMap s.settings.slotMap
  | .feeder f => .feeder f (s.config f)

/-- READ SETTINGS reports and changes nothing (11 R206). -/
def handleReadSettings (c : PartChoice) (s : State) : Answer :=
  report (.settings (s.settingsPart c) s.store.commit.isSome s.store.statusValid s.store.source
    s.store.changed) s

/-- READ_SETTINGS (11 R206). -/
def execReadSettings (p : Port) (s : State) : Host.Outcome State Fault Refusal :=
  takeRequest p 0x73 (withArgs readPart handleReadSettings) s

/-! ## COMMIT SETTINGS (11 R205) -/

/-- The write time the store takes: 50 to 250 ms, free within that range (11 R205; log 9). -/
def writeTime (draw : Nat) : Nat := ms 50 + Config.storeTime draw % (ms 200 + 1)

/-- The write begins (11 R205). -/
def State.beginCommit (s : State) (p : Port) : State :=
  { s with
    choices := s.choices + 1
    store :=
      { s.store with
        copy := none, changed := false,
        commit := some { snapshot := s.settings, origin := .port p, startAt := s.now,
                         endAt := s.now + writeTime s.choices } } }

/-- COMMIT SETTINGS: check 3 of 05 R96, then the Settings block (11 R205). -/
def handleCommit (p : Port) (_ : Unit) (s : State) : Answer :=
  if !stationProcessor p then refuse (.notAuthorised true none) s
  else if s.store.commit.isSome then refuse .storeBusy s
  else accepted (s.beginCommit p)

/-- COMMIT_SETTINGS (11 R205). -/
def execCommitSettings (p : Port) (s : State) : Host.Outcome State Fault Refusal :=
  takeRequest p 0x74 (withArgs readEmpty (handleCommit p)) s

/-- The write ends (11 R205). -/
def State.endCommit (s : State) (c : Commit) : State :=
  ({ s with store := { s.store with copy := some c.snapshot, commit := none, statusValid := true } }).addEntry
    .settingsCommitted .nothing c.origin .nothing (some (inMs (c.endAt - c.startAt) : Int))

/-- The write time has run. -/
def State.commitDue (s : State) : Option Commit :=
  match s.store.commit with
  | some c => if c.endAt ≤ s.now then some c else none
  | none => none

/-- COMMIT_WRITE_END (11 R205). -/
def execCommitWriteEnd (s : State) : Host.Outcome State Fault Refusal :=
  live s fun s =>
    match s.commitDue with
    | some c => s.endCommit c
    | none => s

end Sys2Proof.Machine
end

