-- ==== Sys2Proof/Machine/TimeRequests.lean ====
section
/-! DEFINITION. The time requests (08 R161, R162, R166): SET TIME, TIME RESTART and READ TIME. -/

set_option Elab.async false

namespace Sys2Proof.Machine

/-- SET TIME (08 R161): on a master, and not back unless quality is UNSET. -/
def handleSetTime (p : Port) (v : StationTime) (s : State) : Answer :=
  if s.station.timeRole ≠ .master then refuse (.interlocked .state) s
  else if v.units < s.time.now.units ∧ s.time.quality ≠ .unset then refuse .timeBackwards s
  else done (s.setTime p v)

/-- SET_TIME (08 R161). -/
def execSetTime (p : Port) (s : State) : Host.Outcome State Fault Refusal :=
  takeRequest p 0x40 (withArgs readTime (handleSetTime p)) s

/-- TIME_RESTART (08 R162). -/
def execTimeRestart (p : Port) (s : State) : Host.Outcome State Fault Refusal :=
  takeRequest p 0x41 (withArgs readEmpty fun _ s => done (s.restartTime p)) s

/-- What READ TIME reports (08 R166). -/
def State.timeReport (s : State) : TimeReport :=
  { now := s.time.now, quality := s.time.quality, role := s.station.timeRole, follow := s.time.follow,
    slew := s.time.slew, nextMark := s.time.nextMark, accumulated := s.accumulatedDelay,
    upstream := s.time.upstream.map fun u => (u, s.msSince u.arrival),
    oneWay := s.followed.map fun l => (s.link l).oneWay,
    delayStatus := s.followed.map fun l => (s.link l).delayStatus, lastMark := s.time.lastMark,
    marksTaken := s.time.marksTaken, marksUnused := s.time.marksUnused }

/-- READ_TIME (08 R166): reports and changes nothing. -/
def execReadTime (p : Port) (s : State) : Host.Outcome State Fault Refusal :=
  takeRequest p 0x42 (withArgs readEmpty fun _ s => report (.time s.timeReport) s) s

end Sys2Proof.Machine
end

