-- ==== Sys2Proof/Machine/StartUp.lean ====
section
/-! DEFINITION. Supply and reset line (11 R207, R208): the start-up values of every block, and the three
commands of the family. -/

set_option Elab.async false

namespace Sys2Proof.Machine

/-- The working settings that a start-up loads: the stored copy where it passes its check, else the defaults
(11 R207). -/
def SettingsStore.loaded (x : SettingsStore) : Settings := x.copy.getD Settings.default

/-- The Settings block after start-up (11 R207). -/
def SettingsStore.started (x : SettingsStore) : SettingsStore :=
  { copy := x.copy, commit := none, statusValid := x.copy.isSome,
    source := if x.copy.isSome then .store else .defaults, changed := x.copy.isNone }

/-- The Sample Port after start-up (01 R17; log 49). -/
def SamplePort.started (m : File SlotEntry 32) (now : Instant) : SamplePort :=
  if emptyMap m then SamplePort.reset
  else { SamplePort.reset with state := .starting, frameWatch := some now }

/-- A position input block at start-up: the reading of its contacts (02 R23). -/
def ContactInput.started (x : ContactInput) (now : Instant) : ContactInput :=
  ContactInput.reset x.a x.b (readingOf x.a x.b) now

/-- The Event Record after start-up (10 R190, 11 R208). -/
def EventRecord.started (cause : RestartCause) (fromStore : Bool) : EventRecord :=
  if fromStore then { EventRecord.reset with ring := [Entry.restart cause true], nextSequence := 1 }
  else
    { EventRecord.reset with
      ring := [Entry.restart cause false, Entry.settingsDefaulted], nextSequence := 2 }

/-- Start-up: every block takes its start-up values from the settings loaded; the input lines, the stored
copy, the clock and the model's queue and counter stand (11 R207). -/
def startUp (cause : RestartCause) (s : State) : State :=
  let v := s.store.loaded
  { pending := s.pending, choices := s.choices, now := s.now, resetLine := s.resetLine,
    startedAt := s.now, restartCause := cause, settings := v, store := s.store.started,
    sample := SamplePort.started v.slotMap s.now,
    inputs := s.inputs.map fun x => x.started s.now,
    acInput := s.acInput.started s.now,
    key := KeyInput.reset s.key.made s.now,
    feeders := File.fill 8 FeederRecord.reset,
    sections := v.feeders.map fun c => SectionRecord.reset c.farLink,
    faults := File.fill 8 (FaultRecord.reset s.now),
    authority := AuthorityTable.reset, clock := LineClock.reset,
    rect := Rectifier.reset v.station.alphaMax,
    links := s.links.map fun k => SectionLink.reset k.light s.now, time := TimeBase.reset,
    slots := File.fill 256 Step.cleared, headers := File.fill 8 none, runners := File.fill 2 Runner.reset,
    events := EventRecord.started cause s.store.copy.isSome, captures := CaptureUnit.reset,
    ports := s.ports.map fun x => MasterPort.reset x.selected }

/-- POWER_ON (11 R207); with the reset line asserted the part stays held (log 25). -/
def execPowerOn (s : State) : Host.Outcome State Fault Refusal := .next (startUp .powerOn s)

/-- The reset line is asserted: a frame under reception is dropped uncounted and every pulse ends; the
outputs follow the line (11 R207, 01 R17; log 25). -/
def State.hold (s : State) : State :=
  ({ s with resetLine := true }.modSample fun x => { x with reception := .idle }).modRect
    Rectifier.stopGates

/-- RESET_LINE_ASSERT (11 R207). -/
def execResetLineAssert (s : State) : Host.Outcome State Fault Refusal := .next s.hold

/-- RESET_LINE_RELEASE (11 R207): start-up, when the line was asserted. -/
def execResetLineRelease (s : State) : Host.Outcome State Fault Refusal :=
  .next (if s.resetLine then startUp .resetLine { s with resetLine := false } else s)

end Sys2Proof.Machine
end

