-- ==== Sys2Proof/Machine/Clocking.lean ====
section
/-! DEFINITION. What the reference clock does on an empty queue (log 2): it posts what has fallen due, in a
free order, and when nothing is due it counts 10 ns. -/

set_option Elab.async false

namespace Sys2Proof.Machine

/-- A command when its occasion holds. -/
def dueWhen (b : Bool) (c : Instr) : List Instr := if b then [c] else []

/-- What is due at one feeder. -/
def State.feederDue (s : State) (f : Feeder) : List Instr :=
  dueWhen (s.staleDue f) (.farStateStale f) ++
  dueWhen (s.blindDue f) (.blindDeadlineExpiry f) ++
  dueWhen (!(s.fault f).requests.isEmpty) (.tripRequest f) ++
  dueWhen (s.phaseDue f .tripping).isSome (.tripConfirmLimit f) ++
  dueWhen (s.claimIsDue f .claimSent) (.claimDeadline f) ++
  dueWhen (s.phaseDue f .testing).isSome (.testEnd f) ++
  dueWhen (s.phaseDue f .closing).isSome (.closeConfirmLimit f) ++
  dueWhen (s.recloseIsDue f) (.recloseDue f) ++
  dueWhen (s.reclaimIsDue f) (.reclaimWatchExpiry f) ++
  dueWhen (s.claimIsDue f .grantedToFar && (s.config f).farLink.isSome) (.grantExpired f)

/-- The nine breakers. -/
def breakers : List Breaker := eight.map .feeder ++ [.ac]

/-- What is due at one breaker's input block. -/
def State.inputDue (s : State) (b : Breaker) : List Instr :=
  dueWhen (s.debounceDue b) (.positionDebounceExpiry b) ++ dueWhen (s.faultDue b) (.positionFault b)

/-- A period of an UP link has run. -/
def State.periodDue (s : State) (l : LinkId) (start : Option Instant) (length : Nat) : Bool :=
  (s.link l).state == .up && s.reached (start.map (· + length))

/-- The eighth word of a window has arrived. -/
def SectionLink.windowDue (k : SectionLink) (f : Feeder) : Bool :=
  match k.windows.get f with
  | some w => decide (8 ≤ w.words)
  | none => false

/-- What is due at one link. -/
def State.linkDue (s : State) (l : LinkId) : List Instr :=
  dueWhen (decide ((s.link l).nextWord ≤ s.now)) (.linkWordTransmit l) ++
  dueWhen (s.periodDue l (s.link l).beaconFrom (ms 1)) (.beaconPeriod l) ++
  dueWhen (s.periodDue l (s.link l).refreshFrom (ms 10)) (.segmentRefresh l) ++
  dueWhen (s.reached ((s.link l).beaconOutstanding.map (· + 65535))) (.beaconTimeout l) ++
  eight.flatMap fun f => dueWhen ((s.link l).windowDue f) (.acceptanceWindowClose l f)

/-- The request a port would take now (11 R199). -/
def State.requestDue (s : State) (p : Port) : List Instr :=
  match s.oldest p with
  | some .bad => [.badFrame p]
  | some (.good kind _ _) => [(requestCommand p kind).getD (.badKind p)]
  | none => []

/-- What is due at the blocks there is one of. -/
def State.stationDue (s : State) : List Instr :=
  dueWhen (s.reached (s.sample.frameWatch.map (· + us 200))) .frameWatchExpiry ++
  dueWhen s.keyDue .locationChanged ++
  dueWhen s.commitDue.isSome .commitWriteEnd ++
  dueWhen (s.reached s.clock.watch) .crossingWatchExpiry ++
  dueWhen (s.reached s.tickDue) .tick ++
  dueWhen (s.acDue .close).isSome .acCloseDeadline ++
  dueWhen (s.acDue .opening).isSome .acOpenDeadline ++
  dueWhen s.releaseDue .overvoltageRelease

/-- What is due at one item of the Authority Table. -/
def State.itemDue (s : State) (i : Item) : List Instr :=
  match s.holding i with
  | some h => dueWhen (decide (h.expiry ≤ s.now)) (.leaseExpiry i)
  | none => []

/-- What is due at one runner. -/
def State.runnerDue (s : State) (r : RunnerId) : List Instr :=
  dueWhen (s.stepIsDue r) (.stepDue r) ++ dueWhen (s.waitIsOver r) (.waitLimitExpiry r)

/-- Everything due at the present instant. -/
def State.dueEvents (s : State) : List Instr :=
  s.stationDue ++ eight.flatMap s.feederDue ++ breakers.flatMap s.inputDue ++ allLinks.flatMap s.linkDue ++
    items.flatMap s.itemDue ++ allRunners.flatMap s.runnerDue ++ allPorts.flatMap s.requestDue

/-- A count of the reference clock: 10 ns pass. -/
def State.count (s : State) : State := { s with now := s.now + 1, time := s.time.count }

/-- One of the events due is posted, any of them when there are several (10 R184; log 3). -/
def State.postDue (s : State) : List Instr → State
  | [] => s.count
  | [c] => { s with pending := [c] }
  | c :: rest =>
    { s with pending := [(c :: rest).getD (Config.choice s.choices % (c :: rest).length) c],
             choices := s.choices + 1 }

/-- What the block does when no command waits: held in reset only the clock runs; a slew step and a second
boundary belong to the count that reached them; then what is due, and else a count (08 R159; log 2). -/
def State.idle (s : State) : State :=
  if s.resetLine then { s with now := s.now + 1 }
  else if s.time.slewDue then { s with pending := [.slewStep] }
  else if s.time.boundary.isSome then { s with pending := [.secondBoundary] }
  else s.postDue s.dueEvents

end Sys2Proof.Machine
end

