-- ==== Sys2Proof/Machine/Dispatch.lean ====
section
/-! DEFINITION. One arm for each command, a direct call of its meaning. -/

namespace Sys2Proof.Machine

/-- What a command does to everything but the queue. -/
def exec (i : Instr) (s : State) : Host.Outcome State Fault Refusal :=
  match i with
  | .powerOn => Sys2Proof.Machine.execPowerOn s
  | .resetLineAssert => Sys2Proof.Machine.execResetLineAssert s
  | .resetLineRelease => Sys2Proof.Machine.execResetLineRelease s
  | .frameStart trailing => Sys2Proof.Machine.execFrameStart trailing s
  | .frameComplete words => Sys2Proof.Machine.execFrameComplete words s
  | .frameWatchExpiry => Sys2Proof.Machine.execFrameWatchExpiry s
  | .setSlots p => Sys2Proof.Machine.execSetSlots p s
  | .contactChange b c made => Sys2Proof.Machine.execContactChange b c made s
  | .positionDebounceExpiry b => Sys2Proof.Machine.execPositionDebounceExpiry b s
  | .positionFault b => Sys2Proof.Machine.execPositionFault b s
  | .keyInputChange made => Sys2Proof.Machine.execKeyInputChange made s
  | .locationChanged => Sys2Proof.Machine.execLocationChanged s
  | .farStateStale f => Sys2Proof.Machine.execFarStateStale f s
  | .blindDeadlineExpiry f => Sys2Proof.Machine.execBlindDeadlineExpiry f s
  | .tripRequest f => Sys2Proof.Machine.execTripRequest f s
  | .tripConfirmLimit f => Sys2Proof.Machine.execTripConfirmLimit f s
  | .openFeeder p => Sys2Proof.Machine.execOpenFeeder p s
  | .closeFeeder p => Sys2Proof.Machine.execCloseFeeder p s
  | .resetLockout p => Sys2Proof.Machine.execResetLockout p s
  | .claimDeadline f => Sys2Proof.Machine.execClaimDeadline f s
  | .testEnd f => Sys2Proof.Machine.execTestEnd f s
  | .closeConfirmLimit f => Sys2Proof.Machine.execCloseConfirmLimit f s
  | .recloseDue f => Sys2Proof.Machine.execRecloseDue f s
  | .reclaimWatchExpiry f => Sys2Proof.Machine.execReclaimWatchExpiry f s
  | .setFeeder p => Sys2Proof.Machine.execSetFeeder p s
  | .setStation p => Sys2Proof.Machine.execSetStation p s
  | .readSettings p => Sys2Proof.Machine.execReadSettings p s
  | .commitSettings p => Sys2Proof.Machine.execCommitSettings p s
  | .commitWriteEnd => Sys2Proof.Machine.execCommitWriteEnd s
  | .readFeeders p => Sys2Proof.Machine.execReadFeeders p s
  | .claim p => Sys2Proof.Machine.execClaim p s
  | .release p => Sys2Proof.Machine.execRelease p s
  | .leaseExpiry j => Sys2Proof.Machine.execLeaseExpiry j s
  | .zeroCrossing => Sys2Proof.Machine.execZeroCrossing s
  | .crossingWatchExpiry => Sys2Proof.Machine.execCrossingWatchExpiry s
  | .tick => Sys2Proof.Machine.execTick s
  | .setAlpha p => Sys2Proof.Machine.execSetAlpha p s
  | .startRectifier p => Sys2Proof.Machine.execStartRectifier p s
  | .stopRectifier p => Sys2Proof.Machine.execStopRectifier p s
  | .resetRectifier p => Sys2Proof.Machine.execResetRectifier p s
  | .readRectifier p => Sys2Proof.Machine.execReadRectifier p s
  | .acCloseDeadline => Sys2Proof.Machine.execAcCloseDeadline s
  | .acOpenDeadline => Sys2Proof.Machine.execAcOpenDeadline s
  | .overvoltageRelease => Sys2Proof.Machine.execOvervoltageRelease s
  | .linkWord l w => Sys2Proof.Machine.execLinkWord l w s
  | .lightPresentChange l present => Sys2Proof.Machine.execLightPresentChange l present s
  | .linkWordTransmit l => Sys2Proof.Machine.execLinkWordTransmit l s
  | .acceptanceWindowClose l f => Sys2Proof.Machine.execAcceptanceWindowClose l f s
  | .beaconPeriod l => Sys2Proof.Machine.execBeaconPeriod l s
  | .beaconTimeout l => Sys2Proof.Machine.execBeaconTimeout l s
  | .segmentRefresh l => Sys2Proof.Machine.execSegmentRefresh l s
  | .grantExpired f => Sys2Proof.Machine.execGrantExpired f s
  | .writeSegment p => Sys2Proof.Machine.execWriteSegment p s
  | .readSegment p => Sys2Proof.Machine.execReadSegment p s
  | .readLinks p => Sys2Proof.Machine.execReadLinks p s
  | .secondBoundary => Sys2Proof.Machine.execSecondBoundary s
  | .slewStep => Sys2Proof.Machine.execSlewStep s
  | .setTime p => Sys2Proof.Machine.execSetTime p s
  | .timeRestart p => Sys2Proof.Machine.execTimeRestart p s
  | .readTime p => Sys2Proof.Machine.execReadTime p s
  | .loadSteps p => Sys2Proof.Machine.execLoadSteps p s
  | .defineProgramme p => Sys2Proof.Machine.execDefineProgramme p s
  | .startProgramme p => Sys2Proof.Machine.execStartProgramme p s
  | .stepDue r => Sys2Proof.Machine.execStepDue r s
  | .waitLimitExpiry r => Sys2Proof.Machine.execWaitLimitExpiry r s
  | .suspend p => Sys2Proof.Machine.execSuspend p s
  | .resume p => Sys2Proof.Machine.execResume p s
  | .stop p => Sys2Proof.Machine.execStop p s
  | .clear p => Sys2Proof.Machine.execClear p s
  | .readRunners p => Sys2Proof.Machine.execReadRunners p s
  | .readEvents p => Sys2Proof.Machine.execReadEvents p s
  | .subscribe p => Sys2Proof.Machine.execSubscribe p s
  | .readCapture p => Sys2Proof.Machine.execReadCapture p s
  | .releaseCapture p => Sys2Proof.Machine.execReleaseCapture p s
  | .requestFrameReceived p c => Sys2Proof.Machine.execRequestFrameReceived p c s
  | .badFrame p => Sys2Proof.Machine.execBadFrame p s
  | .badKind p => Sys2Proof.Machine.execBadKind p s
  | .selectAsserted p => Sys2Proof.Machine.execSelectAsserted p s
  | .selectDeasserted p bytes => Sys2Proof.Machine.execSelectDeasserted p bytes s
  | .responseSent p => Sys2Proof.Machine.execResponseSent p s
  | .portReset p tag => Sys2Proof.Machine.execPortReset p tag s
  | .identify p => Sys2Proof.Machine.execIdentify p s
  | .frameLengthAbove256 p c => Sys2Proof.Machine.execFrameLengthAbove256 p c s

end Sys2Proof.Machine
end

