-- ==== Sys2Proof/Safety.lean ====
section
/-! DEFINITION. What counts as a sound state of the CF8, in the terms the statements use: the conditions that
the spec says always hold, and what a served request looks like from its port. -/

set_option Elab.async false

namespace Sys2Proof.Machine

/-! ## Conditions that hold in every state a run reaches -/

/-- The Authority Table's copy is the control location, and no holder is of the class it excludes (05 R86,
R93). -/
def AuthoritySound (s : State) : Prop :=
  s.authority.location = s.key.location ∧
    ∀ i h, s.holding i = some h → admitted s.key.location h.holder = true

/-- The sequence number of the entry at place `k` of the ring (10 R184, R185). -/
def EventRecord.sequenceAt (r : EventRecord) (k : Nat) : Nat :=
  (r.nextSequence + 4294967296 - (r.ring.length - k)) % 4294967296

/-- At most 1024 entries with consecutive sequence numbers up to next sequence, and every cursor between the
oldest and the newest plus one (10 R185). -/
def EventRecord.sound (r : EventRecord) : Prop :=
  r.ring.length ≤ 1024 ∧ r.nextSequence < 4294967296 ∧
  (∀ k, k < r.ring.length → (r.ring[k]?).map Entry.sequence = some (r.sequenceAt k)) ∧
  ∀ p : Port, (r.cursors.get p.index).next < 4294967296 ∧
    seqDistance (r.cursors.get p.index).next r.nextSequence ≤ r.ring.length

/-- The record after some more entries, each with the sequence number that was next. -/
inductive Grows : EventRecord → EventRecord → Prop where
  | refl (r : EventRecord) : Grows r r
  | entry {r r' : EventRecord} (e : Entry) (h : Grows r r') (seq : e.sequence = r'.nextSequence) :
      Grows r (r'.append e)

def RecordSound (s : State) : Prop := s.events.sound

/-- At most two request buffers and two responses at each port (11 R199). -/
def PortsBounded (s : State) : Prop :=
  ∀ p, (s.port p).buffers.length ≤ 2 ∧ (s.port p).responses.length ≤ 2

/-- The states in which an operation is present (02 R25). -/
def FeederState.operates : FeederState → Bool
  | .claiming | .testing | .closing | .tripping | .breakerFailed => true
  | _ => false

/-- The states whose phase has a deadline (02 R25). -/
def FeederState.timed : FeederState → Bool
  | .testing | .closing | .tripping => true
  | _ => false

/-- The fields of a Feeder Record that belong to its state are present in it and in no other (02 R25; 04 R75
to R78). -/
def FeederRecord.sound (r : FeederRecord) : Prop :=
  r.operation.isSome = r.state.operates ∧
  (∀ op, r.operation = some op → op.deadline.isSome = r.state.timed) ∧
  r.recloseDue.isSome = (r.state == .recloseWait) ∧
  r.lockoutReason.isSome = (r.state == .lockedOut) ∧
  (r.deferred = true → r.state = .recloseWait) ∧
  (r.reclaimWatch.isSome = true → r.state = .closed) ∧ r.attempts ≤ 5

def FeedersSound (s : State) : Prop := ∀ f, (s.feeder f).sound

/-- Match is NONE exactly while far link is NONE (02 R29). -/
def MatchSound (s : State) : Prop :=
  ∀ f, (s.section' f).matching = .noFarEnd ↔ (s.config f).farLink = none

/-- Applied alpha lies in the range of the working settings, at alpha max outside RUNNING (06 R115), and an AC
operation of kind CLOSE is present in CONNECTING only (06 R110). -/
def Rectifier.sound (v : StationSettings) (r : Rectifier) : Prop :=
  (r.state = .running → v.alphaMin ≤ r.applied ∧ r.applied ≤ v.alphaMax) ∧
  (r.state ≠ .running → r.applied = v.alphaMax) ∧
  ∀ op, r.acOperation = some op → op.kind = .close → r.state = .connecting

/-- The range of an angle is not empty, in the working settings and in every copy (06, rectifier settings). -/
def Settings.angleRange (v : Settings) : Prop := v.station.alphaMin ≤ v.station.alphaMax

/-- The rectifier's conditions, with the ranges they rest on. -/
def RectifierSound (s : State) : Prop :=
  s.settings.angleRange ∧ (∀ v, s.store.copy = some v → v.angleRange) ∧
  (∀ c, s.store.commit = some c → c.snapshot.angleRange) ∧ s.rect.sound s.station

/-- The sizes of 10 R191 to R193 hold, and no feeder has more than one FILLING buffer. -/
def CaptureUnit.sound (u : CaptureUnit) : Prop :=
  (∀ f, (u.histories.get f).length ≤ 64) ∧
  (∀ n c, u.buffers.get n = some c →
    c.pre ≤ 64 ∧ c.pre ≤ c.triples.length ∧ c.triples.length ≤ c.pre + 192 ∧
      (c.held = false → c.triples.length < c.pre + 192)) ∧
  ∀ n m c d, u.buffers.get n = some c → u.buffers.get m = some d → c.held = false → d.held = false →
    c.feeder = d.feeder → n = m

def CapturesSound (s : State) : Prop := s.captures.sound

/-! ## A request seen from its port (11 R199, R201) -/

/-- The part runs, and the port's oldest buffered frame is a good request of this kind, tag and body, with room
in the response queue. -/
def State.offers (s : State) (p : Port) (kind tag : Byte) (body : List Byte) : Prop :=
  s.resetLine = false ∧ (s.port p).responses.length < 2 ∧
    (s.port p).buffers.head? = some (.good kind tag body)

/-- The response of a port to a request, its flags taken from the state in which it is built (11 R201). -/
def State.responseTo (s : State) (p : Port) (kind tag : Byte) (status : Status) (body : Body) : Response :=
  { kind := kind, tag := tag, status := status, overrun := (s.port p).overrun,
    eventsWaiting := s.eventsWaiting p, segmentFresh := s.segmentFresh p, body := body }

/-- A state with the response to a request at the tail of the port's queue: overrun is reported and cleared. -/
def State.answered (s : State) (p : Port) (kind tag : Byte) (status : Status) (body : Body) : State :=
  s.modPort p fun x =>
    { x with responses := x.responses ++ [s.responseTo p kind tag status body], overrun := false }

/-! ## Terms of the statements: frames of the sample line (01) -/

/-- The sum of a frame's 34 words, carries discarded. -/
def frameSum (words : File Word 34) : Nat := (words.cells.map BitVec.toNat).sum % 65536

/-- Slot n's word as a signed value: slots 0 to 31 are words 1 to 32. -/
def slotWord (words : File Word 34) (n : Fin 32) : Int := (words.get ⟨n.val + 1, by omega⟩).toInt

/-- The cause with which the first failing check discards a completed frame; `none` for a frame that passes. -/
def FrameFails (m : File SlotEntry 32) (reference : Option Nat) (words : File Word 34) (cause : DiscardCause) : Prop :=
  let marker := (words.get 0).toNat % 256 = 0xC3
  let fault := ∃ n, m.get n ≠ .unused ∧ slotWord words n = -32768
  let repeated := reference = some ((words.get 0).toNat / 256)
  (cause = .marker ∧ ¬marker) ∨ (cause = .check ∧ marker ∧ frameSum words ≠ 0) ∨
    (cause = .slotFault ∧ marker ∧ frameSum words = 0 ∧ fault) ∨
    (cause = .repeated ∧ marker ∧ frameSum words = 0 ∧ ¬fault ∧ repeated)

/-- A frame of this number follows a gap: the reference number is held and the number is not the one after it. -/
def FollowsGap (reference : Option Nat) (words : File Word 34) : Prop :=
  ∃ r, reference = some r ∧ (words.get 0).toNat / 256 ≠ (r + 1) % 256

/-- What a slot map makes of a quantity in a frame: the value of the slot that carries it, absent when none does. -/
def Carries (m : File SlotEntry 32) (words : File Word 34) (e : SlotEntry) (v : Option Int) : Prop :=
  (∀ n, m.get n = e → (∀ k, m.get k = e → k = n) → v = some (slotWord words n)) ∧
    ((∀ n, m.get n ≠ e) → v = none)

/-! ## Terms of the statements: entries and responses (10 R184; 11 R199, R201) -/

/-- From one state to another an entry with a property was added, and maybe others before and after it. -/
def AddsEntry (s t : State) (P : Entry → Prop) : Prop :=
  ∃ r e, Grows s.events r ∧ e.sequence = r.nextSequence ∧ Grows (r.append e) t.events ∧ P e

/-- Two entries with these properties were added, the first before the second. -/
def AddsInOrder (s t : State) (P Q : Entry → Prop) : Prop := ∃ u : State, AddsEntry s u P ∧ AddsEntry u t Q

/-- The port's oldest request is answered: its buffer is emptied, overrun is reported and cleared, and the response, its
flags as they then stand, is at the tail of the queue. The other ports stand. -/
def Responds (s t : State) (p : Port) (kind tag : Byte) (status : Status) (body : Body) : Prop :=
  t.port p = { s.port p with
    buffers := (s.port p).buffers.tail, overrun := false,
    responses := (s.port p).responses ++
      [{ kind := kind, tag := tag, status := status, overrun := (s.port p).overrun,
         eventsWaiting := t.eventsWaiting p, segmentFresh := t.segmentFresh p, body := body }] } ∧
    ∀ q, q ≠ p → t.port q = s.port q

/-! ## Terms of the statements: inputs and holders (02, 05) -/

/-- The reading of two contacts (02 R18, table). -/
def Reads (a b : Bool) (r : Position) : Prop :=
  (r = .closed ↔ a = true ∧ b = false) ∧ (r = .opened ↔ a = false ∧ b = true) ∧ (r = .invalid ↔ a = b)

/-- A control location excludes a master's class: LOCAL excludes G, REMOTE excludes A and B (05 R86). -/
def Excludes (x : Location) (p : Port) : Prop := (x = .localKey ∧ p = .G) ∨ (x = .remoteKey ∧ p ≠ .G)

/-! ## Terms of the statements: frames at Fault Detection (03) -/

/-- The values of a feeder's group copy in the working settings. -/
def State.groupCopy (s : State) (f : Feeder) : Group :=
  if (s.fault f).group = .isolated then (s.config f).isolated else (s.config f).normal

/-- The Imax history of a feeder once a frame with this If is marked: empty first at a RESTART frame, newest last, three
marks at most (03 R43, R44). -/
def State.marksAfter (s : State) (f : Feeder) (i : Int) : List Mark :=
  let old := if s.sample.state = .starting then [] else (s.fault f).history
  let all := old ++ [decide ((s.groupCopy f).imax ≤ i.natAbs)]
  if 3 < all.length then all.tail else all

/-- The frame a handing-on takes: it passes the checks in VALID, or in STARTING with primed yes. -/
def State.handsOn (s : State) (words : File Word 34) : Prop :=
  s.resetLine = false ∧ s.sample.reception = .receiving ∧
    (s.sample.state = .starting ∧ s.sample.primed = true ∨ s.sample.state = .valid) ∧
    ∀ cause, ¬FrameFails s.settings.slotMap s.sample.reference words cause

/-- The step of a frame with this If: none at a RESTART frame, after a gap, or without a previous If (03 R46). -/
def State.stepAt (s : State) (f : Feeder) (words : File Word 34) (i : Int) (x : Option Int) : Prop :=
  (∀ p, s.sample.state = .valid → (s.fault f).previousIf = some p → ¬FollowsGap s.sample.reference words →
    x = some (i - p)) ∧
  (s.sample.state = .starting ∨ (s.fault f).previousIf = none ∨ FollowsGap s.sample.reference words → x = none)

/-! ## Terms of the statements: breaker operations (04) -/

/-- The record of a feeder in TRIPPING at its entry (04 R60). -/
def State.trippingRecord (s : State) (f : Feeder) (cause : TripCause) (origin : Origin) : FeederRecord :=
  { s.feeder f with
    state := .tripping, lastTripCause := cause, recloseDue := none, deferred := false, lockoutReason := none,
    reclaimWatch := none,
    operation := some
      { kind := .opening, origin := origin, startTime := s.time.now, startAt := s.now,
        deadline := some (s.now + (s.config f).tripConfirm * 100000), testMode := .noTest } }

/-- The record of a feeder in OPEN at its entry: attempts 0 (04 R77). -/
def State.openRecord (s : State) (f : Feeder) : FeederRecord :=
  { s.feeder f with
    state := .opened, operation := none, recloseDue := none, deferred := false, lockoutReason := none,
    reclaimWatch := none, attempts := 0 }

/-- The record of a feeder in RECLOSE_WAIT at its entry (04 R75). -/
def State.waitRecord (s : State) (f : Feeder) : FeederRecord :=
  { s.feeder f with
    state := .recloseWait, operation := none, deferred := false, lockoutReason := none, reclaimWatch := none,
    recloseDue := some (s.now + (s.config f).recloseDelay * 100000000) }

/-- The record of a feeder in LOCKED_OUT at its entry (04 R78). -/
def State.lockedRecord (s : State) (f : Feeder) (reason : LockoutReason) : FeederRecord :=
  { s.feeder f with
    state := .lockedOut, operation := none, recloseDue := none, deferred := false, reclaimWatch := none,
    lockoutReason := some reason }

/-- The record of a feeder in CLOSED at its entry (04 R73). -/
def State.closedRecord (s : State) (f : Feeder) : FeederRecord :=
  { s.feeder f with
    state := .closed, operation := none, recloseDue := none, deferred := false, lockoutReason := none, peakIf := 0,
    reclaimStart := some s.time.now,
    reclaimWatch := some (s.now + (s.config f).reclaimTime * 100000000) }

/-- Where a close goes that ends without having been judged: RECLOSE_WAIT for AUTO, else OPEN (04 R74). -/
def State.backRecord (s : State) (f : Feeder) (op : Operation) : FeederRecord :=
  if op.origin = .auto then s.waitRecord f else s.openRecord f

/-- The entry of a close's result (04 R74); value2 is attempts after the operation ends. -/
def IsCloseResult (s : State) (f : Feeder) (op : Operation) (result : CloseResult) (attempts : Nat) (e : Entry) : Prop :=
  e.kind = .closeResult ∧ e.subject = .feeder f ∧ e.origin = op.origin ∧ e.detail = .closeResult result ∧
    ((s.now - op.startAt) / 100000 < 2147483648 → e.value1 = some (((s.now - op.startAt) / 100000 : Nat) : Int)) ∧
    (attempts ≤ 5 → e.value2 = some (attempts : Int))

/-- What only the operations of one feeder leave: everything but its own records, the record of events, captures,
links, rectifier and runners. -/
def OnlyFeeder (s t : State) (f : Feeder) : Prop :=
  (∀ g, g ≠ f → t.feeder g = s.feeder g ∧ t.section' g = s.section' g ∧ t.fault g = s.fault g) ∧
    t.settings = s.settings ∧ t.store = s.store ∧ t.sample = s.sample ∧ t.inputs = s.inputs ∧ t.key = s.key ∧
    t.clock = s.clock ∧ t.slots = s.slots ∧ t.headers = s.headers

/-- What a change of the feeder's state makes of Fault Detection: protection becomes ACTIVE at entry into CLOSING or CLOSED
from any other state, with protect since at that instant, and INACTIVE at the exit from them; each empties the history,
clears the rise fields and clears request outstanding. The group copy, blind since, the last decision and the requests on
their way stand (03 R40, R41). -/
def FaultRecord.noticed (d : FaultRecord) (old new : FeederState) (now : Instant) : FaultRecord :=
  if ¬(old = .closing ∨ old = .closed) ∧ (new = .closing ∨ new = .closed) then
    { d with
      active := true, outstanding := false, protectSince := some now, history := [], previousIf := none, i0 := none,
      riseCounter := 0, lowCount := 0 }
  else if (old = .closing ∨ old = .closed) ∧ ¬(new = .closing ∨ new = .closed) then
    { d with
      active := false, outstanding := false, protectSince := none, history := [], previousIf := none, i0 := none,
      riseCounter := 0, lowCount := 0 }
  else d

/-- What a change of the group in use makes of Fault Detection: the copy takes the new group and the rise detector is
cleared, previous If and the history stand; with no change there is no notice (03 R50). -/
def FaultRecord.regrouped (d : FaultRecord) (old new : GroupName) : FaultRecord :=
  if new = old then d else { d with group := new, i0 := none, riseCounter := 0, lowCount := 0 }

/-- A change of the feeder's state reaches Fault Detection (03 R40, R41), the Firing Unit, where FAULT_RETARD holds for a
feeder in TRIPPING with last trip cause IMAX or RISE and ends at the exit from it (06 R116), and an UP far link, which is
to send the Feeder End segment (07 R151). Where the state stands, so does what Fault Detection keeps. -/
def StateHandedOn (s t : State) (f : Feeder) : Prop :=
  t.fault f = (s.fault f).noticed (s.feeder f).state (t.feeder f).state s.now ∧
  ((t.feeder f).state ≠ (s.feeder f).state →
    (t.rect.retard.get f = true ↔ (t.feeder f).state = .tripping ∧
      ((t.feeder f).lastTripCause = .imax ∨ (t.feeder f).lastTripCause = .rise)) ∧
    ∀ l, (s.config f).farLink = some l → (s.link l).state = .up → (t.link l).queued.get (feederSegment f) = true)

/-! ## Terms of the statements: the phase choice, aborts and the far end lost (04, 07 R134) -/

/-- Row 1 of the phase choice: far state CLOSED, and the line voltage at 90 % of the bus voltage or above, neither absent
(04 R67). -/
def State.liveFromFar (s : State) (f : Feeder) : Prop :=
  (s.section' f).farState = some .closed ∧ ∃ uf ub : Int, s.sample.last.values.ufs.get f = some uf ∧
    s.sample.last.values.ub = some ub ∧ 90 * ub ≤ uf * 100

/-- Check 6 of the close interlock checks: the Sample Port is VALID and the feeder's Uf is in the slot map (02 R36). -/
def State.lineMeasured (s : State) (f : Feeder) : Prop :=
  s.sample.state = .valid ∧ ∃ n, s.settings.slotMap.get n = .feederVoltage f

/-- Check 7: Ub is at or above the bus-live threshold (02 R36). -/
def State.busIsLive (s : State) : Prop :=
  ∃ ub, s.sample.last.values.ub = some ub ∧ (s.station.busLive : Int) ≤ ub

/-- The operation of a close as it begins (04 R66). -/
def State.newClose (s : State) (origin : Origin) : Operation :=
  { kind := .close, origin := origin, startTime := s.time.now, startAt := s.now, deadline := none, testMode := .noTest }

/-- The record of a feeder in CLAIMING, TESTING or CLOSING with this operation. -/
def State.phaseRecord (s : State) (f : Feeder) (x : FeederState) (op : Operation) : FeederRecord :=
  { s.feeder f with
    state := x, operation := some op, recloseDue := none, deferred := false, lockoutReason := none,
    reclaimWatch := none }

/-- Entry into TESTING without a claim; the Sample Port not VALID, the operation ends instead (04 R69). -/
def TestsUnclaimed (s t : State) (f : Feeder) (op : Operation) : Prop :=
  ((s.section' f).claim = .idle → t.section' f = s.section' f) ∧
  (s.sample.state = .valid → t.feeder f = s.phaseRecord f .testing
    { op with deadline := some (s.now + (s.config f).testTime * 100000), testMode := .unclaimed }) ∧
  (s.sample.state ≠ .valid → t.feeder f = s.backRecord f op ∧
    AddsEntry s t (IsCloseResult s f op (.interlocked .measurementLost) (t.feeder f).attempts))

/-- The UNCLAIMED TEST entry; `lost` for LINK_LOST, else LINK_DOWN (04 R67, R68). -/
def IsUnclaimedTest (f : Feeder) (op : Operation) (lost : Bool) (e : Entry) : Prop :=
  e.kind = .unclaimedTest ∧ e.subject = .feeder f ∧ e.origin = op.origin ∧ e.detail = .unclaimedTest lost ∧
    e.value1 = none ∧ e.value2 = none

/-- The five rows of the phase choice (04 R67): a live-line close, a test with no far end, a test with the far link not
UP, CLAIM_CONFLICT, or a claim; and the state so entered is handed on, so that a live-line close makes protection ACTIVE
(03 R40). -/
def ChoosesPhase (s t : State) (f : Feeder) (op : Operation) : Prop :=
  StateHandedOn s t f ∧
  (s.liveFromFar f → t.section' f = s.section' f ∧ t.feeder f =
    { s.phaseRecord f .closing { op with
        deadline := some (s.now + (s.config f).closeConfirm * 100000), testMode := .noTest } with
      attempts := if op.origin = .auto then min ((s.feeder f).attempts + 1) 5 else (s.feeder f).attempts }) ∧
  (¬s.liveFromFar f → (s.config f).farLink = none → TestsUnclaimed s t f op) ∧
  ∀ l, ¬s.liveFromFar f → (s.config f).farLink = some l →
    ((s.link l).state ≠ .up → TestsUnclaimed s t f op ∧ AddsEntry s t (IsUnclaimedTest f op false)) ∧
    ((s.link l).state = .up → (s.link l).conflict = true ∨ (s.section' f).matching = .mismatch →
      t.section' f = s.section' f ∧ t.feeder f = s.backRecord f op ∧
      AddsEntry s t (IsCloseResult s f op .claimConflict (t.feeder f).attempts)) ∧
    ((s.link l).state = .up → (s.link l).conflict = false → (s.section' f).matching ≠ .mismatch →
      t.feeder f = s.phaseRecord f .claiming { op with deadline := none } ∧
      t.section' f = { s.section' f with claim := .claimSent, claimDeadline := some (s.now + 10000000) } ∧
      ∃ e ∈ (t.link l).pendingSet, e.signal = .testClaim (s.config f).farFeeder)

/-- The phase choice ends the operation at once: CLAIM_CONFLICT (04 R67, row 4). -/
def State.claimConflicts (s : State) (f : Feeder) : Prop :=
  ¬s.liveFromFar f ∧ ∃ l, (s.config f).farLink = some l ∧ (s.link l).state = .up ∧
    ((s.link l).conflict = true ∨ (s.section' f).matching = .mismatch)

/-- The feeder's TEST CLAIM is still in the pending set of its far link. -/
def State.claimPending (s : State) (f : Feeder) : Prop :=
  ∃ l, (s.config f).farLink = some l ∧
    ∃ e ∈ (s.link l).pendingSet, e.signal = .testClaim (s.config f).farFeeder

/-- What an abort does with the claim: given back with TEST DONE, or withdrawn with none while it is still pending; a
grant to the far end runs on (04 R81). -/
def GivesClaimBack (s t : State) (f : Feeder) : Prop :=
  ((s.section' f).claim = .grantedToUs ∨ ((s.section' f).claim = .claimSent ∧ ¬s.claimPending f) →
    t.section' f = { s.section' f with claim := .idle, claimDeadline := none } ∧
    ∀ l, (s.config f).farLink = some l → (s.link l).state = .up →
      ∃ e ∈ (t.link l).pendingSet, e.signal = .testDone (s.config f).farFeeder) ∧
  ((s.section' f).claim = .claimSent → s.claimPending f →
    t.section' f = { s.section' f with claim := .idle, claimDeadline := none } ∧
    ∀ l, (s.config f).farLink = some l → (t.link l).pendingSet =
      (s.link l).pendingSet.filter fun e => e.signal ≠ .testClaim (s.config f).farFeeder) ∧
  ((s.section' f).claim = .idle ∨ (s.section' f).claim = .grantedToFar → t.section' f = s.section' f)

/-- The ends of several operations at once give up the claims of each: as above, but other signals may be posted on the
same far link in the same event (04 R81). -/
def GivesUpClaim (s t : State) (f : Feeder) : Prop :=
  ((s.section' f).claim = .grantedToUs ∨ ((s.section' f).claim = .claimSent ∧ ¬s.claimPending f) →
    t.section' f = { s.section' f with claim := .idle, claimDeadline := none } ∧
    ∀ l, (s.config f).farLink = some l → (s.link l).state = .up →
      ∃ e ∈ (t.link l).pendingSet, e.signal = .testDone (s.config f).farFeeder) ∧
  ((s.section' f).claim = .claimSent → s.claimPending f →
    t.section' f = { s.section' f with claim := .idle, claimDeadline := none } ∧
    ∀ l, (s.config f).farLink = some l →
      ∀ e ∈ (t.link l).pendingSet, e.signal ≠ .testClaim (s.config f).farFeeder) ∧
  ((s.section' f).claim = .idle ∨ (s.section' f).claim = .grantedToFar → t.section' f = s.section' f)

/-! ## Terms of the statements: requests, ports and the table (05, 11) -/

/-- The table as CLAIM and RELEASE report it: holders, remaining leases and times held in whole ms, rounded down
(log 12) and 0 left to a lease that has run out (log 50), the location and the lease time (05 R102). -/
def IsTable (t : State) (b : Body) : Prop :=
  ∃ x, b = .table x t.authority.location t.station.leaseTime ∧ ∀ i : Item, x.get i.index =
    (t.holding i).map fun h =>
      { holder := h.holder, remaining := (h.expiry - t.now) / 100000, held := (t.now - h.grantedAt) / 100000 }

/-- The two bytes of an item set, as a number whose bit i stands for item code i (11, request bodies). -/
def ItemSet (body : List Byte) (n : Nat) : Prop :=
  ∃ hi lo : Byte, body = [hi, lo] ∧ n = hi.toNat * 256 + lo.toNat

/-- Everything stands but the holders, the ports, the record of events and the model's free counter. -/
def OnlyTable (s t : State) : Prop :=
  t = { s with authority := { s.authority with entries := t.authority.entries }, events := t.events,
               choices := t.choices, ports := t.ports }

/-- A port after a judged frame enters it: in a buffer where one is free, else discarded with overrun (11 R199, R200). -/
def Enters (x y : MasterPort) (fr : Frame) : Prop :=
  (x.buffers.length < 2 → y = { x with
    buffers := x.buffers ++ [fr], framesBad := if fr = .bad then min (x.framesBad + 1) 65535 else x.framesBad }) ∧
  (2 ≤ x.buffers.length → y = { x with
    overrun := true, framesDiscarded := min (x.framesDiscarded + 1) 65535 })

/-- A port with this many bytes of its head response clocked out, none without a response (11 R197; log 45). -/
def MasterPort.sentUpTo (x : MasterPort) (out : Nat) : MasterPort :=
  { x with sent := if x.responses = [] then 0 else out }

/-- The refusals of the Authority Table for a request that needs one item, in their order, each with nothing else changed
(05 R96, checks 4 and 5). The two detail bytes of NOT_AUTHORISED are the model's (log 17). -/
def RefusedByTheTable (s : State) (p : Port) (kind tag : Byte) (i : Item) (c : Instr) : Prop :=
  (Excludes s.authority.location p →
    exec c s = .next ((s.dropBuffer p).answered p kind tag (.refused .wrongLocation) .empty)) ∧
  (¬Excludes s.authority.location p → s.holding i = none → exec c s =
    .next ((s.dropBuffer p).answered p kind tag (.refused (.notAuthorised true (some i))) .empty)) ∧
  ∀ h, ¬Excludes s.authority.location p → s.holding i = some h → h.holder ≠ p → exec c s =
    .next ((s.dropBuffer p).answered p kind tag (.refused (.heldByOther i h.holder)) .empty)

/-! ## Terms of the statements: the rectifier (06) -/

/-- Everything stands but the rectifier, the Line Clock, the AC input, the runners, holders, ports, the record of events
and the model's free counter. -/
def OnlyRectifier (s t : State) : Prop :=
  t = { s with acInput := t.acInput, authority := t.authority, clock := t.clock, rect := t.rect, runners := t.runners,
               events := t.events, choices := t.choices, ports := t.ports }

/-- What comes from inside the part leaves the ports and the holders too. -/
def OnlyRectifierInside (s t : State) : Prop :=
  OnlyRectifier s t ∧ t.ports = s.ports ∧ t.authority = s.authority

/-- The Line Clock after a crossing with this judgement: this crossing's values, and a watch of 110 % of the period held,
24,200 us without one (06 R104). -/
def State.clockTaken (s : State) (x : ClockState) (period : Option Nat) (accepted : Nat) (deviations : List Int)
    (tick : Option Nat) : LineClock :=
  { state := x, lastCrossing := some s.now, lastCrossingTime := some s.time.now, period := period,
    accepted := accepted, deviations := deviations, tick := tick,
    watch := some (match period with
      | some p => s.now + 110 * p
      | none => s.now + 2420000) }

/-- The Rectifier Record with every pulse ended and no cycle (06 R113), and the first-cycle mark cleared (log 42). -/
def Rectifier.quiet (r : Rectifier) : Rectifier :=
  { r with gates := File.fill 12 0, cycle := none, firstCycle := false }

/-- Entry into RUNNING, with its entry (06 R115, R121). -/
def EntersRunning (s t : State) (r : Rectifier) : Prop :=
  t.rect = { r.quiet with state := .running, applied := s.station.alphaMax, firstCycle := true, overcurrent := [] } ∧
    AddsEntry s t fun e => e.kind = .rectifierRunning ∧ e.subject = .rectifier ∧ e.origin = r.runOrigin ∧
      (r.target ≤ 719 → e.value1 = some (r.target : Int))

/-- The UNLOCKED notice at the Firing Unit: RUNNING goes to SYNCING with an entry, and the gates stop (06 R113, R121). -/
def TakesUnlocked (s t : State) (cause : ClockCause) : Prop :=
  (s.rect.state = .running →
    t.rect = { s.rect.quiet with state := .syncing, applied := s.station.alphaMax } ∧
    AddsEntry s t fun e => e.kind = .rectifierSyncing ∧ e.subject = .rectifier ∧ e.origin = .protection ∧
      e.detail = .syncing cause ∧ (s.rect.applied ≤ 719 → e.value1 = some (s.rect.applied : Int))) ∧
  (s.rect.state ≠ .running → t.rect = s.rect.quiet)

/-- The tick of step k in a cycle (06 R111). -/
def stepTick (c : CycleValues) (k : Fin 12) : Nat := (c.offset + 60 * k.val + c.alpha) % 720

/-- A gate is in the pair of step k: gates Y1 to Y6 are 0 to 5, D1 to D6 are 6 to 11 (06 R112). -/
def InPair (k g : Fin 12) : Prop :=
  g.val = 6 * (k.val % 2) + k.val / 2 ∨ g.val = 6 * (k.val % 2) + (k.val / 2 + 5) % 6

/-- Ring and gates at the beginning of a tick: each pulse has one boundary less, and a step that falls at the tick moves
the ring and pulses its pair for 20 boundaries (06 R111, R112). -/
def BeginsTick (old new : Rectifier) (c : Option CycleValues) (tick : Nat) : Prop :=
  (∀ v k, c = some v → stepTick v k = tick → new.ring = k.val ∧
    ∀ g, (InPair k g → new.gates.get g = 20) ∧ (¬InPair k g → new.gates.get g = old.gates.get g - 1)) ∧
  ((∀ v k, c = some v → stepTick v k ≠ tick) → new.ring = old.ring ∧
    ∀ g, new.gates.get g = old.gates.get g - 1)

/-- The angle of a new cycle: alpha max in a first cycle or under an override, else the applied angle moved toward the
target in its range by at most the ramp (06 R115). -/
def State.newAngle (s : State) : Nat :=
  let target := max s.station.alphaMin (min s.station.alphaMax s.rect.target)
  if s.rect.firstCycle = true ∨ (∃ f, s.rect.retard.get f = true) ∨ s.rect.overvoltageHold ≠ none ∨
      s.rect.measurementHold = true then s.station.alphaMax
  else if s.rect.applied ≤ target then min target (s.rect.applied + s.station.ramp)
  else max target (s.rect.applied - s.station.ramp)

/-- The AC operation that an opening begins: none while the breaker is open (06 R123, R125). -/
def State.acOpening (s : State) (origin : Origin) : Option AcOperation :=
  if s.acPosition = .opened then none
  else some { kind := .opening, origin := origin, startAt := s.now, deadline := s.now + 20000000, overdue := false }

/-- The holder of R has its lease renewed (05 R91, R97). -/
def RenewsRectifier (s t : State) (h : Holding) : Prop :=
  (∀ i, i ≠ .rectifier → t.holding i = s.holding i) ∧ t.authority.location = s.authority.location ∧
    t.holding .rectifier = some { h with
      expiry := s.now + s.station.leaseTime * 100000, lease := s.station.leaseTime }

/-- Some ready feeder is in BREAKER_FAILED (06 R119, R127). -/
def State.someFailed (s : State) : Prop := ∃ f, (s.feeder f).ready = true ∧ (s.feeder f).state = .breakerFailed

/-! ## Terms of the statements: links (07) -/

/-- A link's acceptance windows as the next word finds them: closed after the eighth word, else one word older (07 R141;
log 24). -/
def SectionLink.aged (k : SectionLink) : SectionLink :=
  { k with windows := k.windows.map fun w =>
      match w with
      | some x => if 8 ≤ x.words then none else some { x with words := x.words + 1 }
      | none => none }

/-- A good word with this signal whose data slot is IDLE reaches an UP link with light, no segment being received. -/
def State.hears (s : State) (l : LinkId) (w : RxWord) (g : SlotSignal) : Prop :=
  s.resetLine = false ∧ (s.link l).light = true ∧ (s.link l).state = .up ∧ (s.link l).assembly = .idle ∧
    goodSignal w = some g ∧ w.data = .idle

/-- A link's record after its pending set takes a signal: an entry of the same code is merged (07 R137). -/
def SectionLink.taking (k : SectionLink) (g : Signal) (repeats : Nat) (due : Option Instant) : SectionLink :=
  { k with pendingSet :=
      if ∃ e ∈ k.pendingSet, e.signal = g then
        k.pendingSet.map fun e => if e.signal = g then { e with repeats := repeats } else e
      else k.pendingSet ++ [{ signal := g, repeats := repeats, due := due, late := false }] }

/-- The bytes of a segment as they stand when its transfer begins, with its first word sent: SEG_START (07 R152). -/
def State.firstTransfer (s : State) (l : LinkId) (n : Fin 16) : Transfer :=
  { number := n, bytes := s.outgoingBytes l n, sent := 1 }

/-! ## Terms of the statements: station time (08) -/

/-- The System segment is queued on every link that is UP, and nothing else of the links changes (07 R151). -/
def QueuesSystem (s t : State) : Prop :=
  ∀ l, t.link l = if (s.link l).state = .up then { s.link l with queued := (s.link l).queued.set 0 true } else s.link l

/-- The first condition a mark on the followed link fails (08 R164, orders 2 to 5). -/
def State.markFails (s : State) (late : Bool) (r : UnusedReason) : Prop :=
  (r = .late ∧ late = true) ∨
  (late = false ∧ ((r = .conflict ∧ s.time.follow = .conflict) ∨
    (s.time.follow = .following ∧
      ((r = .noSystem ∧ ∀ u, s.time.upstream = some u → u.arrival + 5000000 < s.now) ∨
        (r = .upstreamUnset ∧ ∃ u, s.time.upstream = some u ∧ s.now ≤ u.arrival + 5000000 ∧ u.quality = 0)))))

/-- The quality that a step, a slew or an offset of 0 sets on a follower (08 R160, R165). -/
def State.markQuality (s : State) (l : LinkId) : TimeQuality :=
  if (s.link l).delayStatus = .locked then .fine else .coarse

/-- Station time counting with a new value, offset and quality after a mark taken (08 R164, R165). -/
def State.markTaken (s : State) (offset : Int) (a : MarkAction) : TimeBase :=
  { s.time with
    lastMark := some { arrival := s.time.now, offset := some offset, action := a },
    marksTaken := min (s.time.marksTaken + 1) 65535 }

/-- The Time Base with no slew: one that ends while its step is due leaves that count a rise of 1, up to a second boundary
or the last representable time (08 R159; log 2). -/
def TimeBase.slewOver (t : TimeBase) : TimeBase :=
  let x := { t with slew := none, slewCount := 0 }
  if (∃ k ∈ t.slew, k ≠ 0) ∧ 2000 ≤ t.slewCount then
    if t.now.fraction + 1 < 100000000 then { x with now := { t.now with fraction := t.now.fraction + 1 } }
    else if t.now.seconds = 4294967295 then { x with now := { t.now with fraction := 99999999 } }
    else { x with
      now := { t.now with fraction := 99999999 }, boundary := some (t.now.fraction + 1 - 100000000) }
  else x

/-- A delay status that link l hands over: a follower of that link at COARSE or FINE takes FINE for LOCKED and COARSE for any
other, with TIME QUALITY and the System segment queued on both links where that is a change; any other station keeps its
quality (08 R160). -/
def TakesDelayStatus (s t : State) (l : LinkId) (d : DelayStatus) : Prop :=
  let q := if d = .locked then TimeQuality.fine else .coarse
  (s.followed = some l → s.time.quality = .coarse ∨ s.time.quality = .fine →
    t.time = { s.time with quality := q } ∧
    (s.time.quality ≠ q →
      (AddsEntry s t fun e => e.kind = .timeQuality ∧ e.subject = .nothing ∧ e.origin = .link l ∧
        e.detail = .quality q ∧ e.value1 = some (s.time.quality.code : Int)) ∧
      ∀ m, (t.link m).state = .up → (t.link m).queued.get 0 = true)) ∧
  (s.followed ≠ some l ∨ (s.time.quality ≠ .coarse ∧ s.time.quality ≠ .fine) → t.time = s.time)

/-! ## Terms of the statements: programmes (09) -/

/-- A runner is using a programme: it is in any state other than IDLE and holds it (09 R168). -/
def State.using (s : State) (n : Fin 8) : Prop := ∃ r, (s.runner r).state ≠ .idle ∧ (s.runner r).programme = some n

/-- A programme targets an item: a step of it acts on the item (05 R98). -/
def State.programmeTargets (s : State) (h : Header) (i : Item) : Prop :=
  ∃ k : Nat, k < h.count ∧ (s.slot (h.first + k)).target = some i ∧
    (s.slot (h.first + k)).action ∈
      [StepAction.openFeeder, .closeFeeder, .setAlpha, .startRectifier, .stopRectifier]

/-- A step's condition mask is satisfied (09 R172). -/
def State.conditions (s : State) (x : Step) : Prop :=
  (x.mask.busLive = true →
    s.sample.state = .valid ∧ ∃ ub, s.sample.last.values.ub = some ub ∧ (s.station.busLive : Int) ≤ ub) ∧
  (x.mask.rectifierRunning = true → s.rect.state = .running) ∧
  (x.mask.farClosed = true → ∃ f, x.target = some (.feeder f) ∧ (s.section' f).farState = some .closed) ∧
  (x.mask.farOpenOrUnknown = true → ∀ f, x.target = some (.feeder f) →
    (s.section' f).farState ∈ [none, some .opened, some .recloseWait, some .lockedOut]) ∧
  (x.mask.locationLocal = true → s.key.location = .localKey) ∧
  (x.mask.locationRemote = true → s.key.location = .remoteKey)

/-- The entry of a runner (09 R181). -/
def IsRunnerEntry (e : Entry) (k : EventKind) (r : RunnerId) (o : Origin) (d : Detail) (i : Nat) : Prop :=
  e.kind = k ∧ e.subject = .runner r ∧ e.origin = o ∧ e.detail = d ∧ (i < 256 → e.value1 = some (i : Int))

/-- Only one runner changes, beside the record of events and the model's free counter. -/
def OnlyRunner (s t : State) (r : RunnerId) : Prop :=
  t = { s with runners := t.runners, events := t.events, choices := t.choices } ∧
    ∀ q, q ≠ r → t.runner q = s.runner q

/-- A runner at step i of a programme with this header moves on with an outcome: to the next step, whose delay counts, or
stays uncounted while SUSPENDED, or to IDLE with PROGRAMME END, which names this step (09 R177, R179; log 37). -/
def MovesOn (s t : State) (r : RunnerId) (h : Header) (i : Nat) (o : StepOutcome) : Prop :=
  (i + 1 < h.count → (s.runner r).state ≠ .suspended → t.runner r =
    { s.runner r with
      state := .running, index := some (i + 1), remaining := none, awaiting := none,
      due := some (s.now + (s.slot (h.first + (i + 1))).delay * 100000), lastOutcome := some (o, i) }) ∧
  (i + 1 < h.count → (s.runner r).state = .suspended → t.runner r =
    { s.runner r with
      index := some (i + 1), remaining := some ((s.slot (h.first + (i + 1))).delay * 100000), awaiting := none,
      due := none, lastOutcome := some (o, i) }) ∧
  (h.count ≤ i + 1 → t.runner r = { Runner.reset with lastOutcome := some (o, i) } ∧
    AddsEntry s t fun e => IsRunnerEntry e .programmeEnd r (.runner r) (.programmeEnd true) i)

/-- A runner enters HALTED at step i and keeps its place, with PROGRAMME HALTED naming the step's target, absent where it
has none (09 R171, R177; log 43). -/
def Halts (s t : State) (r : RunnerId) (x : Step) (i : Nat) (c : FailureCause)
    (o : Option (StepOutcome × Nat)) : Prop :=
  t.runner r =
    { s.runner r with
      state := .halted, due := none, remaining := none, awaiting := none, haltReason := some c, lastOutcome := o } ∧
  AddsEntry s t fun e => IsRunnerEntry e .programmeHalted r (.runner r) (.failure c) i ∧
    e.value2 = x.target.map fun j => (j.index.val : Int)

/-- Step i fails: STEP FAILED, then HALTED or on to the next step by its policy (09 R177). -/
def StepFails (s t : State) (r : RunnerId) (h : Header) (x : Step) (i : Nat) (c : FailureCause)
    (entered : Option Int) : Prop :=
  (AddsEntry s t fun e => IsRunnerEntry e .stepFailed r (.runner r) (.failure c) i ∧ e.value2 = entered) ∧
  (x.halt = true → Halts s t r x i c (some (.failed c, i))) ∧
  (x.halt = false → MovesOn s t r h i (.failed c))

/-- A record that a step's mask reads differs between two states: the rectifier state, the control location, or the far
state of its target feeder (09 R176). -/
def ChangesWhatAMaskReads (s t : State) (x : Step) : Prop :=
  (x.mask.rectifierRunning = true ∧ t.rect.state ≠ s.rect.state) ∨
  ((x.mask.locationLocal = true ∨ x.mask.locationRemote = true) ∧ t.key.location ≠ s.key.location) ∨
  ((x.mask.farClosed = true ∨ x.mask.farOpenOrUnknown = true) ∧
    ∃ f, x.target = some (.feeder f) ∧ (t.section' f).farState ≠ (s.section' f).farState)

/-! ## Terms of the statements: settings and start-up (11, 01 R4, 02 R31) -/

/-- An entry that changes may not name this quantity now (01 R4). -/
def State.namesBusy (s : State) (e : SlotEntry) : Prop :=
  (∃ f, (e = .feederCurrent f ∨ e = .feederVoltage f) ∧ (s.feeder f).ready = true ∧ (s.config f).inService = true ∧
    (s.feeder f).state ≠ .opened ∧ (s.feeder f).state ≠ .lockedOut) ∨
  ((e = .busVoltage ∨ e = .rectifierCurrent) ∧ s.rect.state ≠ .blocked ∧ s.rect.state ≠ .tripped)

/-- A new map changes an entry whose old or new code may not change now (01 R4). -/
def State.changesBusy (s : State) (m : File SlotEntry 32) : Prop :=
  ∃ n, m.get n ≠ s.settings.slotMap.get n ∧ (s.namesBusy (m.get n) ∨ s.namesBusy (s.settings.slotMap.get n))

/-- Every entry of a map is UNUSED (01, slot map). -/
def NoQuantity (m : File SlotEntry 32) : Prop := ∀ n, m.get n = .unused

/-- The item's holder keeps it with a lease renewed at this lease time, and every other holder stands (05 R97). -/
def Renews (s t : State) (i : Item) (h : Holding) (lease : Nat) : Prop :=
  t.holding i = some { h with expiry := s.now + lease * 100000, lease := lease } ∧
    (∀ j, j ≠ i → t.holding j = s.holding j) ∧ t.authority.location = s.authority.location

/-- A SET request carried out: DONE, the changed mark, the lease, and nothing of the store, the inputs, the runners and
the line clock changed (11 R204). -/
def SetsDone (s t : State) (p : Port) (kind tag : Byte) (i : Item) (h : Holding) (lease : Nat) : Prop :=
  Responds s t p kind tag .done .empty ∧ t.store = { s.store with changed := true } ∧ Renews s t i h lease ∧
    t.inputs = s.inputs ∧ t.acInput = s.acInput ∧ t.key = s.key ∧ t.clock = s.clock ∧ t.slots = s.slots ∧
    t.headers = s.headers

/-- The refusal of a request of A or B that needs one item, by the master's class, the control location or the holder (05
R96, checks 3 to 5). The two detail bytes of NOT_AUTHORISED are the model's (log 17). -/
def State.refusesProcessor (s : State) (p : Port) (i : Item) (why : Reason) : Prop :=
  (p = .G ∧ why = .notAuthorised true (some i)) ∨
  (p ≠ .G ∧ Excludes s.authority.location p ∧ why = .wrongLocation) ∨
  (p ≠ .G ∧ ¬Excludes s.authority.location p ∧ s.holding i = none ∧ why = .notAuthorised true (some i)) ∨
  (p ≠ .G ∧ ¬Excludes s.authority.location p ∧
    ∃ h, s.holding i = some h ∧ h.holder ≠ p ∧ why = .heldByOther i h.holder)

/-! ## Terms of the statements: segments received (07) -/

/-- The receive assembly moves on without counting: a segment begins, its number, its sixteen bytes, SEG_END and the
first check byte; between segments all else is ignored (07 R153). -/
def AssemblyMoves (a : Assembly) (d : RxData) (b : Assembly) : Prop :=
  (a = .idle ∧ d = .segStart ∧ b = .number) ∨
  (a = .idle ∧ (d = .idle ∨ d = .segEnd ∨ ∃ x : Byte, d = .byte x) ∧ b = .idle) ∨
  (a = .number ∧ ∃ (n : Fin 16) (x : Byte), d = .byte x ∧ x.toNat = n.val ∧ b = .data n []) ∨
  (∃ (n : Fin 16) (bytes : List Byte) (x : Byte), a = .data n bytes ∧ d = .byte x ∧
    ((bytes.length + 1 < 16 ∧ b = .data n (bytes ++ [x])) ∨ (bytes.length + 1 = 16 ∧ b = .ending n (bytes ++ [x])))) ∨
  (∃ (n : Fin 16) (bytes : List Byte), a = .ending n bytes ∧ d = .segEnd ∧ b = .check1 n bytes) ∨
  ∃ (n : Fin 16) (bytes : List Byte) (x : Byte), a = .check1 n bytes ∧ d = .byte x ∧ b = .check2 n bytes x

/-- The data breaks the framing of a segment being received: another SEG_START begins a new one, and IDLE, a SEG_END
before its place or a byte in its place leave none (07 R153). -/
def BreaksFraming (a : Assembly) (d : RxData) (b : Assembly) : Prop :=
  a ≠ .idle ∧
  ((d = .segStart ∧ b = .number) ∨ (d = .idle ∧ b = .idle) ∨
    (d = .segEnd ∧ (∀ n bytes, a ≠ .ending n bytes) ∧ b = .idle) ∨
    ∃ (n : Fin 16) (bytes : List Byte) (x : Byte), a = .ending n bytes ∧ d = .byte x ∧ b = .idle)

/-! ## Terms of the statements: frames at the Firing Unit and the captures (06, 10) -/

/-- A history of three marks with a newest one: the oldest is gone when four are held (06 R117, R122). -/
def markedHistory (old : List Mark) (pickup : Bool) : List Mark :=
  let all := old ++ [pickup]
  if 3 < all.length then all.tail else all

/-- The rectifier is tripped with a cause: TRIPPED with its gates stopped, the AC breaker being opened, and the entry
(06 R113, R123). -/
def TripsRectifier (s t : State) (cause : RectTripCause) (value1 value2 : Option Int) : Prop :=
  t.rect.state = .tripped ∧ t.rect.lastTripCause = cause ∧ t.rect.applied = s.station.alphaMax ∧
    t.rect.cycle = none ∧ (∀ g, t.rect.gates.get g = 0) ∧ t.rect.acOperation = s.acOpening .protection ∧
    AddsEntry s t fun e => e.kind = .rectifierTrip ∧ e.subject = .rectifier ∧ e.origin = .protection ∧
      e.detail = .rectTrip cause ∧ (inField value1 = true → e.value1 = value1) ∧
      (inField value2 = true → e.value2 = value2)

/-- The CAPTURE HELD entry of a buffer that becomes HELD with this record (10 R193). -/
def AddsCaptureHeld (s t : State) (n : Fin 4) (c : Capture) : Prop :=
  AddsEntry s t fun e => e.kind = .captureHeld ∧ e.subject = .feeder c.feeder ∧ e.origin = .protection ∧
    e.detail = .capture c.truncated ∧ e.capture = some n ∧
    (c.triples.length < 2147483648 → e.value1 = some (c.triples.length : Int)) ∧
    (c.pre < 2147483648 → e.value2 = some (c.pre : Int))

/-- A buffer becomes HELD with this record, with CAPTURE HELD (10 R193). -/
def BecomesHeld (s t : State) (n : Fin 4) (c : Capture) : Prop :=
  t.captures.buffers.get n = some c ∧ AddsCaptureHeld s t n c

/-- The triple of a feeder in a frame with these quantities (10 R191). -/
def frameTriple (q : Quantities) (f : Feeder) : Triple :=
  { current := q.ifs.get f, voltage := q.ufs.get f, bus := q.ub }

/-- A frame with these quantities reaches the Capture Unit, u before it and v after it, in one arrival: it is the newest
triple of every history, 64 at most, and a triple of every FILLING buffer, HELD FULL with CAPTURE HELD at the 192nd after
the trigger (10 R191, R193). -/
def ReachesCaptures (s t : State) (u v : CaptureUnit) (q : Quantities) : Prop :=
  v.late = none ∧
  (∀ f, ((u.histories.get f).length < 64 → v.histories.get f = u.histories.get f ++ [frameTriple q f]) ∧
    ((u.histories.get f).length = 64 → v.histories.get f = (u.histories.get f).tail ++ [frameTriple q f])) ∧
  (∀ n, u.buffers.get n = none → v.buffers.get n = none) ∧
  ∀ n c, u.buffers.get n = some c →
    (c.held = true → v.buffers.get n = some c) ∧
    (c.held = false → c.triples.length + 1 < c.pre + 192 →
      v.buffers.get n = some { c with triples := c.triples ++ [frameTriple q c.feeder] }) ∧
    (c.held = false → c.pre + 192 ≤ c.triples.length + 1 →
      v.buffers.get n = some { c with triples := c.triples ++ [frameTriple q c.feeder], held := true } ∧
      AddsCaptureHeld s t n { c with triples := c.triples ++ [frameTriple q c.feeder], held := true })

/-- A frame still on its way to the Capture Unit, where there is one, reaches it: the unit is u before that and v after
(10 R193; log 32). -/
def LateFrameReaches (s t : State) (u v : CaptureUnit) : Prop :=
  (u.late = none → v = u) ∧ ∀ q, u.late = some q → ReachesCaptures s t u v q

/-- Some trip request is on its way to Breaker Control (03 R54). -/
def State.someRequest (s : State) : Prop := ∃ f, (s.fault f).requests ≠ []

/-- What follows at the Capture Unit, u once a request has been taken: a frame still late reaches it, or stays late while
another request is on its way (10 R193; log 32). -/
def LateFrameFollows (s t : State) (u : CaptureUnit) : Prop :=
  LateFrameReaches s t u t.captures ∨ (t.someRequest ∧ u.late ≠ none ∧ t.captures = u)

/-- A buffer that is the lowest FREE one, for a feeder with no FILLING buffer (10 R192). -/
def State.freeFor (s : State) (f : Feeder) (n : Fin 4) : Prop :=
  (∀ m c, s.captures.buffers.get m = some c → c.held = false → c.feeder ≠ f) ∧
    s.captures.buffers.get n = none ∧ ∀ m : Fin 4, m.val < n.val → s.captures.buffers.get m ≠ none

/-- A capture for a trip, as its buffer stands once the TRIP entry is added, with the feeder's whole history (10 R192).
Not VALID, it is HELD at once. -/
def State.captureOf (s : State) (f : Feeder) (cause : TripCause) (e : Entry) (c : Capture) : Prop :=
  c.feeder = f ∧ c.cause = cause ∧ c.trigger = e.sequence ∧ c.time = e.time ∧ c.quality = e.quality ∧
    (c.held = true ↔ s.sample.state ≠ .valid) ∧ (c.truncated = true ↔ s.sample.state ≠ .valid) ∧
    c.pre = (s.captures.histories.get f).length ∧ c.triples = s.captures.histories.get f

/-- The capture of a trip: started in the free buffer, named by the TRIP entry, and CAPTURE HELD after it when it is HELD
at its start; or none (10 R192). The Capture Unit is u then. -/
def StartsCapture (s t : State) (u : CaptureUnit) (f : Feeder) (cause : TripCause) (e : Entry) : Prop :=
  u.histories = s.captures.histories ∧ u.late = s.captures.late ∧
  (∀ n, s.freeFor f n → e.capture = some n ∧
    (∀ m, m ≠ n → u.buffers.get m = s.captures.buffers.get m) ∧
    ∃ c, s.captureOf f cause e c ∧ u.buffers.get n = some c ∧
      (s.sample.state ≠ .valid → AddsCaptureHeld s t n c)) ∧
  ((∀ n, ¬s.freeFor f n) → e.capture = none ∧ u.buffers = s.captures.buffers)

/-! ## Terms of the statements: data out (11) -/

/-- The bytes of a response frame: 0x5A, the body's length, kind, tag, status and reason, flags, the body, and the CRC
over all of it but the 0x5A (11, port lines and framing). A refusal's body begins with its two detail bytes. -/
def IsResponseFrame (r : Response) (bytes : List Byte) : Prop :=
  ∃ body covered : List Byte, ∃ status reason : Byte, body.length ≤ 256 ∧
    covered = [BitVec.ofNat 8 (body.length / 256), BitVec.ofNat 8 body.length, r.kind, r.tag, status, reason,
      BitVec.ofNat 8 ((if r.overrun = true then 1 else 0) + (if r.eventsWaiting = true then 2 else 0) +
        if r.segmentFresh = true then 4 else 0)] ++ body ∧
    bytes = [0x5A#8] ++ covered ++ [BitVec.ofNat 8 ((crc covered).toNat / 256), BitVec.ofNat 8 (crc covered).toNat] ∧
    (r.status = .done → status = 0#8 ∧ reason = 0#8) ∧ (r.status = .accepted → status = 1#8 ∧ reason = 0#8) ∧
    (∀ x, r.status = .refused x → status = 2#8 ∧ reason = BitVec.ofNat 8 (Reason.code x) ∧
      ∃ rest, body = Reason.detail x ++ rest) ∧
    ((∀ x, r.status ≠ .refused x) →
      (r.body = .empty → body = []) ∧ ∀ b, r.body = .capture b → b.length ≤ 256 → body = b)

/-! ## Terms of the statements: reclose and the end of a grant (04, 07) -/

/-- The steps of a reached reclose due: the maximum first, then the eight checks, then an AUTO close (04 R75); and what
state is entered is handed on. -/
def TakesReclose (s t : State) (f : Feeder) : Prop :=
  StateHandedOn s t f ∧
  ((s.config f).maxReclose = 0 → t.feeder f = s.openRecord f) ∧
  (0 < (s.config f).maxReclose → (s.config f).maxReclose ≤ (s.feeder f).attempts →
    t.feeder f = s.lockedRecord f .attempts ∧ AddsEntry s t (fun e => e.kind = .lockout ∧ e.subject = .feeder f ∧
      e.origin = .auto ∧ e.detail = .lockout .attempts)) ∧
  ((s.feeder f).attempts < (s.config f).maxReclose →
    (s.closeCheck f true = some .farTest → t.feeder f = { s.feeder f with deferred := true }) ∧
    (∀ cause, s.closeCheck f true = some cause → cause ≠ .farTest →
      t.feeder f = { s.feeder f with
        deferred := false, recloseDue := some (s.now + (s.config f).recloseDelay * 100000000) } ∧
      AddsEntry s t (fun e => e.kind = .recloseHeld ∧ e.subject = .feeder f ∧ e.origin = .auto ∧
        e.detail = .interlock cause)) ∧
    (s.closeCheck f true = none → ChoosesPhase s t f (s.newClose .auto)))

/-- A grant to the far end ends: claim state IDLE, then a feeder that yielded a claim makes the phase choice again (04
R68), and a deferred reclose is taken at once (04 R76). The attempts of a CLOSE RESULT are those left in the next state
(log 15). -/
def GrantEnds (s t : State) (f : Feeder) : Prop :=
  let u := s.modSection f fun r => { r with claim := .idle, claimDeadline := none }
  StateHandedOn s t f ∧
  ((s.feeder f).state ≠ .claiming → (s.feeder f).deferred = false → t.feeder f = s.feeder f ∧
    t.section' f = u.section' f) ∧
  (∀ op, (s.feeder f).state = .claiming → (s.feeder f).operation = some op → ChoosesPhase u t f op) ∧
  ((s.feeder f).state = .recloseWait → (s.feeder f).deferred = true → TakesReclose u t f)

/-! ## Terms of the statements: a link that leaves UP (07 R134) -/

/-- The group of a feeder with a far link once its far state takes a value: of a ready feeder whose far state so changes,
NORMAL at CLOSED and ISOLATED at any other; else the group it has (02 R33). -/
def State.groupAfter (s : State) (f : Feeder) (far : Option FeederState) : GroupName :=
  if (s.feeder f).ready = true ∧ (s.section' f).farState ≠ far then
    if far = some .closed then .normal else .isolated
  else (s.feeder f).group

/-- A feeder whose far link is lost, before its claim is looked at: far state UNKNOWN, match MISMATCH, nothing heard, the
group of a ready feeder ISOLATED where far state changed, and that group at Fault Detection (02 R29, R30, R33; 03 R50). -/
def State.farLost' (s : State) (f : Feeder) : State :=
  ((s.modSection f fun r =>
      { r with farState := none, staleFrom := none, matching := .mismatch, heard := false }).modFeeder f fun r =>
        { r with group := s.groupAfter f none }).modFault f fun d => d.regrouped (s.feeder f).group (s.groupAfter f none)

/-- What becomes of a feeder whose far link is lost: a claim sent goes on to an unclaimed test, a grant ends, and any
other claim state stands (07 R134, 04 R68); and what state is entered is handed on. -/
def LosesFarEnd (s t : State) (f : Feeder) : Prop :=
  StateHandedOn s t f ∧
  ((s.section' f).claim = .idle ∨ (s.section' f).claim = .grantedToUs →
    t.section' f = s.section' f ∧ t.feeder f = s.feeder f) ∧
  (∀ op, (s.section' f).claim = .claimSent → (s.feeder f).state = .claiming → (s.feeder f).operation = some op →
    TestsUnclaimed (s.modSection f fun r => { r with claim := .idle, claimDeadline := none }) t f op ∧
    AddsEntry s t (IsUnclaimedTest f op true)) ∧
  ((s.section' f).claim = .claimSent → (s.feeder f).state ≠ .claiming ∨ (s.feeder f).operation = none →
    t.section' f = { s.section' f with claim := .idle, claimDeadline := none } ∧ t.feeder f = s.feeder f) ∧
  ((s.section' f).claim = .grantedToFar → GrantEnds s t f)

/-- A link leaves UP from the record k: its own record, LINK DOWN, the feeders whose far link it is, and the quality of a
follower of it, which takes INVALID (08 R160). Other feeders and what the link does not reach stand (07 R134). -/
def FallsFrom (s t : State) (l : LinkId) (k : SectionLink) (cause : LinkDownCause) : Prop :=
  t.link l = { k with
    state := .down, pendingSet := [], queued := File.fill 16 false, transfer := none, assembly := .idle,
    windows := File.fill 8 none, beaconOutstanding := none, farStation := none, conflict := false,
    delayStatus := .invalid, measurements := [], loopAverage := 0, goodCount := 0, beaconFrom := none,
    refreshFrom := none, counters := { k.counters with down := min (k.counters.down + 1) 65535 } } ∧
  (AddsEntry s t fun e => e.kind = .linkDown ∧ e.subject = .link l ∧ e.origin = .link l ∧
    e.detail = .linkDown cause ∧
    (∀ u : Nat, k.upSince = some u → (s.now - u) / 100000 < 2147483648 →
      e.value1 = some (((s.now - u) / 100000 : Nat) : Int)) ∧
    ∀ n : Nat, n = (k.pendingSet.filter fun x => eight.any fun g => x.signal == .transferTrip g).length →
      n < 2147483648 → e.value2 = some (n : Int)) ∧
  (∀ f, (s.config f).farLink = some l → LosesFarEnd ((s.modLink l fun _ => t.link l).farLost' f) t f) ∧
  (∀ f, (s.config f).farLink ≠ some l →
    t.section' f = s.section' f ∧ t.feeder f = s.feeder f ∧ t.fault f = s.fault f) ∧
  TakesDelayStatus s t l .invalid ∧
  t.settings = s.settings ∧ t.store = s.store ∧ t.inputs = s.inputs ∧ t.ports = s.ports ∧
  t.authority = s.authority ∧ t.sample = s.sample ∧ t.clock = s.clock ∧ t.key = s.key

/-! ## Terms of the statements: request bodies (11, request bodies; their ranges in 03, 06, 09 and 11) -/

/-- Two bytes, most significant first (00, byte order). -/
def pair (hi lo : Byte) : Nat := hi.toNat * 256 + lo.toNat

/-- A target byte: a feeder, 8 for R, 0xFF for none (11). -/
def TargetByte (b : Byte) (x : Option Item) : Prop :=
  (∃ f : Feeder, b.toNat = f.val ∧ x = some (.feeder f)) ∨ (b.toNat = 8 ∧ x = some .rectifier) ∨
    (b.toNat = 255 ∧ x = none)

/-- A target suits its action, an angle lies in its range, and a mask suits its target (09 R168, checks 3 to 5). -/
def StepSuits (x : Step) : Prop :=
  (x.action ∈ [StepAction.openFeeder, .closeFeeder] → ∃ f, x.target = some (.feeder f)) ∧
  (x.action ∈ [StepAction.setAlpha, .startRectifier, .stopRectifier] → x.target = some .rectifier) ∧
  (x.action ∈ [StepAction.noAction, .waitUntil, .mark, .finish] → x.target ≠ some .rectifier) ∧
  (x.action = .setAlpha → x.argument ≤ 719) ∧
  ¬(x.mask.farClosed = true ∧ x.mask.farOpenOrUnknown = true) ∧
  ¬(x.mask.locationLocal = true ∧ x.mask.locationRemote = true) ∧
  (x.mask.farClosed = true ∨ x.mask.farOpenOrUnknown = true → ∃ f, x.target = some (.feeder f))

/-- A step record of eight bytes: delay, action, target, argument, condition mask, on failure (11). A mask names no
condition above the sixth (log 38). -/
def IsStepRecord (bytes : List Byte) (x : Step) : Prop :=
  ∃ d1 d0 a t g1 g0 m o : Byte, bytes = [d1, d0, a, t, g1, g0, m, o] ∧ x.delay = pair d1 d0 ∧
    (a.toNat, x.action) ∈ [(0, StepAction.noAction), (1, .openFeeder), (2, .closeFeeder), (3, .setAlpha),
      (4, .startRectifier), (5, .stopRectifier), (6, .waitUntil), (7, .mark), (8, .finish)] ∧
    TargetByte t x.target ∧ x.argument = pair g1 g0 ∧ m.toNat < 64 ∧
    x.mask =
      { busLive := m.toNat.testBit 0, rectifierRunning := m.toNat.testBit 1, farClosed := m.toNat.testBit 2,
        farOpenOrUnknown := m.toNat.testBit 3, locationLocal := m.toNat.testBit 4,
        locationRemote := m.toNat.testBit 5 } ∧
    (o.toNat, x.halt) ∈ [(0, false), (1, true)] ∧ StepSuits x

/-- LOAD STEPS: a first slot, and one to eight step records that fit in the store (09 R168). -/
def LoadsSteps (body : List Byte) (first : Nat) (steps : List Step) : Prop :=
  1 ≤ steps.length ∧ steps.length ≤ 8 ∧ first + steps.length ≤ 256 ∧ body.length = 1 + 8 * steps.length ∧
    ∃ (b : Byte) (rest : List Byte), body = b :: rest ∧ b.toNat = first ∧
      ∀ (k : Nat) x, steps[k]? = some x → IsStepRecord ((rest.drop (8 * k)).take 8) x

/-- DEFINE PROGRAMME: a programme number, and its header or none (09 R169). -/
def DefinesProgramme (body : List Byte) (n : Fin 8) (h : Option Header) : Prop :=
  ∃ p d f c1 c0 : Byte, body = [p, d, f, c1, c0] ∧ p.toNat = n.val ∧
    ((d.toNat = 0 ∧ h = none) ∨
      (d.toNat = 1 ∧ 1 ≤ pair c1 c0 ∧ pair c1 c0 ≤ 256 ∧ f.toNat + pair c1 c0 ≤ 256 ∧
        h = some { first := f.toNat, count := pair c1 c0 }))

/-- START PROGRAMME: a runner number and a programme number (09 R170). -/
def StartsProgramme (body : List Byte) (r : RunnerId) (n : Fin 8) : Prop :=
  ∃ a b : Byte, body = [a, b] ∧ (a.toNat, r) ∈ [(0, RunnerId.runner0), (1, .runner1)] ∧ b.toNat = n.val

/-- The station's values in their ranges, Uov and Urel in tenths of a volt (11; 06 R128; log 26). -/
def StationFits (v : StationSettings) : Prop :=
  1 ≤ v.stationNumber ∧ v.stationNumber ≤ 254 ∧ 500 ≤ v.leaseTime ∧ v.leaseTime ≤ 10000 ∧
    1000 ≤ v.busLive ∧ v.busLive ≤ 7000 ∧ 10 ≤ v.alphaMin ∧ v.alphaMin ≤ 60 ∧ 240 ≤ v.alphaMax ∧ v.alphaMax ≤ 300 ∧
    1 ≤ v.ramp ∧ v.ramp ≤ 20 ∧ v.referenceOffset ≤ 719 ∧ 1000 ≤ v.irmax ∧ v.irmax ≤ 20000 ∧
    8000 ≤ v.uov ∧ v.uov ≤ 10000 ∧ 7000 ≤ v.urel ∧ v.urel ≤ 9990 ∧ v.urel < v.uov

/-- SET STATION: nineteen bytes, every value in its range (11 R204). -/
def SetsStation (body : List Byte) (v : StationSettings) : Prop :=
  ∃ sn tr le1 le0 bl1 bl0 an1 an0 ax1 ax0 ra ro1 ro0 ir1 ir0 ov1 ov0 re1 re0 : Byte,
    body = [sn, tr, le1, le0, bl1, bl0, an1, an0, ax1, ax0, ra, ro1, ro0, ir1, ir0, ov1, ov0, re1, re0] ∧
    (tr.toNat, v.timeRole) ∈ [(0, TimeRole.master), (1, .followLink0), (2, .followLink1)] ∧
    v = { stationNumber := sn.toNat, timeRole := v.timeRole, leaseTime := pair le1 le0, busLive := pair bl1 bl0,
          alphaMin := pair an1 an0, alphaMax := pair ax1 ax0, ramp := ra.toNat, referenceOffset := pair ro1 ro0,
          irmax := pair ir1 ir0, uov := pair ov1 ov0, urel := pair re1 re0 } ∧
    StationFits v

/-- A protection group of ten bytes, each value in its range and R2 not above R1 (03 R51). -/
def IsGroup (bytes : List Byte) (g : Group) : Prop :=
  ∃ a b c d e f h i j k : Byte, bytes = [a, b, c, d, e, f, h, i, j, k] ∧
    g = { imax := pair a b, r1 := pair c d, r2 := pair e f, deltaI := pair h i, tr := pair j k } ∧
    200 ≤ g.imax ∧ g.imax ≤ 32000 ∧ 1 ≤ g.r1 ∧ g.r1 ≤ 4000 ∧ g.r2 ≤ 4000 ∧ g.r2 ≤ g.r1 ∧ 100 ≤ g.deltaI ∧
    g.deltaI ≤ 32000 ∧ 1 ≤ g.tr ∧ g.tr ≤ 400

/-- SET FEEDER: thirty-five bytes, every value in its range (11 R204). -/
def SetsFeeder (body : List Byte) (f : Feeder) (v : FeederSettings) : Prop :=
  ∃ (i sv fl ff bl tc cc1 cc0 tt1 tt0 hf mr rd rc1 rc0 : Byte) (g1 g2 : List Byte),
    body = [i, sv, fl, ff] ++ g1 ++ g2 ++ [bl, tc, cc1, cc0, tt1, tt0, hf, mr, rd, rc1, rc0] ∧ i.toNat = f.val ∧
    (sv.toNat, v.inService) ∈ [(0, false), (1, true)] ∧
    (fl.toNat, v.farLink) ∈ [(0, none), (1, some LinkId.link0), (2, some .link1)] ∧ ff.toNat = v.farFeeder.val ∧
    IsGroup g1 v.normal ∧ IsGroup g2 v.isolated ∧
    v = { v with
      blindLimit := bl.toNat, tripConfirm := tc.toNat, closeConfirm := pair cc1 cc0, testTime := pair tt1 tt0,
      healthy := hf.toNat, maxReclose := mr.toNat, recloseDelay := rd.toNat, reclaimTime := pair rc1 rc0 } ∧
    5 ≤ v.blindLimit ∧ v.blindLimit ≤ 100 ∧ 20 ≤ v.tripConfirm ∧ v.tripConfirm ≤ 200 ∧ 50 ≤ v.closeConfirm ∧
    v.closeConfirm ≤ 500 ∧ 100 ≤ v.testTime ∧ v.testTime ≤ 1000 ∧ 50 ≤ v.healthy ∧ v.healthy ≤ 95 ∧
    v.maxReclose ≤ 5 ∧ 1 ≤ v.recloseDelay ∧ v.recloseDelay ≤ 60 ∧ 10 ≤ v.reclaimTime ∧ v.reclaimTime ≤ 600

/-- A slot map entry code (01, slot map). -/
def EntryCode (b : Byte) (e : SlotEntry) : Prop :=
  (b.toNat = 0x00 ∧ e = .unused) ∨ (∃ f : Feeder, b.toNat = 0x10 + f.val ∧ e = .feederCurrent f) ∨
    (∃ f : Feeder, b.toNat = 0x20 + f.val ∧ e = .feederVoltage f) ∨ (b.toNat = 0x30 ∧ e = .busVoltage) ∨
    (b.toNat = 0x31 ∧ e = .rectifierCurrent)

/-- SET SLOTS: thirty-two entry codes, no quantity named by two entries (01 R4, first stage). -/
def SetsSlots (body : List Byte) (m : File SlotEntry 32) : Prop :=
  body.length = 32 ∧ (∀ n : Fin 32, ∃ b, body[n.val]? = some b ∧ EntryCode b (m.get n)) ∧
    ∀ n k, m.get n = m.get k → m.get n ≠ .unused → n = k

/-! ## Terms of the statements: what the reads report (01 R16, 02 R38, 03 R58, 04 R85, 06 R129, 07 R157, 08 R166, 09 R182,
10 R194), field by field; ages and remaining times are rounded down (log 12), and nothing is left to an instant that
has passed (log 50) -/

/-- The combination of two contacts that read INVALID; none with OPEN or CLOSED (02 R18). -/
def shownContacts (x : ContactInput) : Option Combination :=
  if x.a = true ∧ x.b = true then some .bothMade else if x.a = false ∧ x.b = false then some .bothOpen else none

/-- The Fault Detection part: blind since and the blind deadline in us (03 R58, R52), 0 left to a deadline that has passed
and is kept (log 50). -/
def State.shownFault (s : State) (f : Feeder) : FaultReport :=
  { active := (s.fault f).active, group := (s.fault f).group, outstanding := (s.fault f).outstanding,
    history := (s.fault f).history, rising := (s.fault f).i0.isSome, previousIf := (s.fault f).previousIf,
    i0 := (s.fault f).i0, riseCounter := (s.fault f).riseCounter, lowCount := (s.fault f).lowCount,
    blindAge := (s.fault f).blindSince.map fun t => (s.now - t) / 100,
    blindRemaining :=
      match (s.fault f).blindSince, (s.fault f).protectSince with
      | some b, some p =>
        if (s.fault f).active = true then some ((max b p + (s.config f).blindLimit * 100000 - s.now) / 100) else none
      | _, _ => none,
    lastDecision := (s.fault f).lastDecision }

/-- The Section Record part: far seen as station time and as an age, the claim deadline as a remaining time, in ms (02
R38). -/
def State.shownSection (s : State) (f : Feeder) : SectionReport :=
  { farLink := (s.config f).farLink, farFeeder := (s.config f).farFeeder, farState := (s.section' f).farState,
    farSeen := (s.section' f).farSeen.map fun x => x.1,
    farSeenAge := (s.section' f).farSeen.map fun x => (s.now - x.2) / 100000,
    matching := (s.section' f).matching, claim := (s.section' f).claim,
    claimRemaining := (s.section' f).claimDeadline.map fun t => (t - s.now) / 100000 }

/-- One feeder: its reading and contacts, and the rest when it is ready (02 R24, R38, log 48; 04 R85). -/
def State.shownFeeder (s : State) (f : Feeder) : FeederReport :=
  { feeder := f, reading := (s.input f).reading, combination := shownContacts (s.input f),
    ready :=
      if (s.feeder f).ready = true then some
        { state := (s.feeder f).state, position := (s.input f).position,
          operation := (s.feeder f).operation.map fun op =>
            { kind := op.kind, origin := op.origin, startTime := op.startTime, testMode := op.testMode,
              remaining := op.deadline.map fun t => (t - s.now) / 100000 },
          recloseRemaining := (s.feeder f).recloseDue.map fun t => (t - s.now) / 100000,
          deferred := (s.feeder f).deferred, lastTripCause := (s.feeder f).lastTripCause,
          attempts := (s.feeder f).attempts, group := (s.feeder f).group, lastIf := (s.feeder f).lastIf,
          lastUf := (s.feeder f).lastUf, peakIf := (s.feeder f).peakIf, reclaimStart := (s.feeder f).reclaimStart,
          reclaimRemaining := (s.feeder f).reclaimWatch.map fun t => (t - s.now) / 100000,
          tripLine := decide ((s.feeder f).state = .tripping ∨ (s.feeder f).state = .breakerFailed),
          closeLine := decide ((s.feeder f).state = .closing), testLine := decide ((s.feeder f).state = .testing),
          inService := (s.config f).inService, farEnd := s.shownSection f, fault := s.shownFault f }
      else none }

/-- The Sample Port part: the outage start as an age in us, capped (01 R16). -/
def State.shownSample (s : State) : SampleReport :=
  { state := s.sample.state, outageAge := s.sample.outageStart.map fun t => min ((s.now - t) / 100) 4294967295,
    outageLost := s.sample.outageLost, discards := s.sample.discards, lastDiscard := s.sample.lastDiscard,
    counters := s.sample.counters, last := s.sample.last }

/-- The Rectifier Record, the AC lines, the Line Clock with the present tick length in us, and the rectifier values (06
R129, R108). -/
def State.shownRectifier (s : State) : RectifierReport :=
  { state := s.rect.state, target := s.rect.target, applied := s.rect.applied, firstCycle := s.rect.firstCycle,
    cycle := s.rect.cycle, faultRetard := decide (∃ f, s.rect.retard.get f = true),
    overvoltageHold := s.rect.overvoltageHold.isSome, measurementHold := s.rect.measurementHold,
    retard := s.rect.retard, ring := s.rect.ring, gates := s.rect.gates.map fun n => decide (0 < n),
    acPosition :=
      match s.acInput.position with
      | some x => x
      | none => .invalid,
    combination := shownContacts s.acInput,
    acOperation := s.rect.acOperation.map fun op => (op, (op.deadline - s.now) / 100000),
    lastTripCause := s.rect.lastTripCause, overvoltage := s.rect.overvoltage, overcurrent := s.rect.overcurrent,
    releaseAge := s.rect.releaseSince.map fun t => (s.now - t) / 100000,
    acClose := decide (∃ op ∈ s.rect.acOperation, op.kind = .close),
    acTrip := decide (∃ op ∈ s.rect.acOperation, op.kind = .opening),
    clock := s.clock, watchRemaining := s.clock.watch.map fun t => (t - s.now) / 100,
    tickLength :=
      match s.clock.period, s.clock.tick with
      | some p, some n => some (if n < p % 720 then p / 720 + 1 else p / 720)
      | _, _ => none,
    values := s.settings.station }

/-- One link, with its arrival ages and the requester's own fresh flags (07 R157). -/
def State.shownLink (s : State) (p : Port) (l : LinkId) : LinkReport :=
  { state := (s.link l).state, light := (s.link l).light,
    upAge := (s.link l).upSince.map fun t => (s.now - t) / 100000, goodRun := (s.link l).goodRun,
    badRun := (s.link l).badRun, farStation := (s.link l).farStation, conflict := (s.link l).conflict,
    delayStatus := (s.link l).delayStatus, measurements := (s.link l).measurements,
    loopAverage := (s.link l).loopAverage, oneWay := (s.link l).loopAverage / 2, goodCount := (s.link l).goodCount,
    pendingSet := (s.link l).pendingSet, queued := (s.link l).queued, transfer := (s.link l).transfer,
    arrivalAges := (s.link l).incoming.map fun g => g.arrival.map fun a => (s.now - a.2) / 100000,
    fresh := (s.link l).incoming.map fun g => g.fresh.get p.index, counters := (s.link l).counters }

/-- The link a time role follows. -/
def TimeRole.link : TimeRole → Option LinkId
  | .master => none
  | .followLink0 => some .link0
  | .followLink1 => some .link1

/-- Station time and what it follows; the accumulated delay is the upstream's and the link's, capped, and 0 on a master
(08 R163, R166). -/
def State.shownTime (s : State) : TimeReport :=
  { now := s.time.now, quality := s.time.quality, role := s.settings.station.timeRole, follow := s.time.follow,
    slew := s.time.slew, nextMark := s.time.nextMark,
    accumulated :=
      match s.settings.station.timeRole.link, s.time.upstream with
      | some l, some u => min (u.delay + (s.link l).loopAverage / 2) 4294967295
      | some l, none => (s.link l).loopAverage / 2
      | none, _ => 0,
    upstream := s.time.upstream.map fun u => (u, (s.now - u.arrival) / 100000),
    oneWay := s.settings.station.timeRole.link.map fun l => (s.link l).loopAverage / 2,
    delayStatus := s.settings.station.timeRole.link.map fun l => (s.link l).delayStatus,
    lastMark := s.time.lastMark, marksTaken := s.time.marksTaken, marksUnused := s.time.marksUnused }

/-- One runner: its due time, remaining delay and the limit of a wait in ms (09 R182; log 10). -/
def State.shownRunner (s : State) (r : RunnerId) : RunnerReport :=
  { state := (s.runner r).state, programme := (s.runner r).programme, index := (s.runner r).index,
    starter := (s.runner r).starter, due := (s.runner r).due.map fun t => (t - s.now) / 100000,
    remaining := (s.runner r).remaining.map fun n => n / 100000,
    awaiting := (s.runner r).awaiting.map fun a =>
      match a with
      | .wait t => .wait ((t - s.now) / 100000)
      | .close f => .close f
      | .rectifier => .rectifier,
    haltReason := (s.runner r).haltReason, lastOutcome := (s.runner r).lastOutcome }

/-- A 16-bit field of a capture: two bytes, most significant first, -32768 for an absent value (10 R194). -/
def shownSample16 (v : Option Int) : List Byte :=
  let w := BitVec.ofInt 16 (match v with
    | some x => x
    | none => -32768)
  [BitVec.ofNat 8 (w.toNat / 256), BitVec.ofNat 8 w.toNat]

/-- A number in four bytes, most significant first. -/
def fourBytes (n : Nat) : List Byte :=
  [BitVec.ofNat 8 (n / 16777216), BitVec.ofNat 8 (n / 65536), BitVec.ofNat 8 (n / 256), BitVec.ofNat 8 n]

/-- The body of READ CAPTURE for a buffer: the header of 22 bytes, then the triples from the offset on, at most the count
and up to the frame count (10 R194; 11). A FREE buffer's state and frame count are 0, and so are the fields it has not (log
44). -/
def ShowsCapture (n : Fin 4) (b : Option Capture) (offset count : Nat) (bytes : List Byte) : Prop :=
  (b = none → bytes = BitVec.ofNat 8 n.val :: List.replicate 21 0#8) ∧
  ∀ c, b = some c → ∃ xs : List Triple, xs.length = min count (c.triples.length - offset) ∧
    (∀ k : Nat, k < xs.length → xs[k]? = c.triples[offset + k]?) ∧
    bytes = [BitVec.ofNat 8 n.val, if c.held = true then 2#8 else 1#8, BitVec.ofNat 8 c.feeder.val,
        match c.cause with
        | .noCause => 0#8
        | .imax => 1#8
        | .rise => 2#8
        | .blind => 3#8
        | .transfer => 4#8
        | .commanded => 5#8] ++
      fourBytes c.trigger ++ fourBytes c.time.seconds ++ fourBytes c.time.fraction ++
      [match c.quality with
        | .unset => 0#8
        | .free => 1#8
        | .coarse => 2#8
        | .fine => 3#8,
        BitVec.ofNat 8 c.pre, BitVec.ofNat 8 (c.triples.length / 256), BitVec.ofNat 8 c.triples.length,
        if c.truncated = true then 1#8 else 0#8, BitVec.ofNat 8 xs.length] ++
      xs.flatMap fun x => shownSample16 x.current ++ shownSample16 x.voltage ++ shownSample16 x.bus

/-! ## Terms of the statements: what the signal and the data of a word do (07 R131, R136, R153) -/

/-- A good word with this signal, and with any data, reaches an UP link with light. -/
def State.takesWord (s : State) (l : LinkId) (w : RxWord) (g : SlotSignal) : Prop :=
  s.resetLine = false ∧ (s.link l).light = true ∧ (s.link l).state = .up ∧ goodSignal w = some g

/-- The state in which a good word's signal and data act: the link's bad run is 0 and its windows are a word older (07 R132,
R141; log 24). -/
def State.heardOn (s : State) (l : LinkId) : State := s.modLink l fun k => SectionLink.aged { k with badRun := 0 }

/-- What a signal and what the data of one word do, in either order, the link UP between them; x is the model's free
counter (07 R131, 08 R164, 10 R184; log 3). -/
def InTurn (l : LinkId) (signal data : State → State → Prop) (s t : State) : Prop :=
  ∃ x u, (State.link u l).state = .up ∧
    (signal { s with choices := x } u ∧ data u t ∨ data { s with choices := x } u ∧ signal u t)

/-- Of the links only the pending sets and the segment queues change. -/
def OnlyPosts (s t : State) : Prop :=
  ∀ m, t.link m = { s.link m with pendingSet := (t.link m).pendingSet, queued := (t.link m).queued }

/-- A TRANSFER TRIP copy: the first opens the window; the second trips, aborts, is ignored or is misaddressed; and one in a
window that has acted does nothing (07 R141, R142; 04 R82). -/
def CopyActs (s t : State) (l : LinkId) (g : Feeder) : Prop :=
  ((s.link l).windows.get g = none → t = s.modLink l fun k =>
    { k with windows := k.windows.set g (some { words := 1, acted := false }) }) ∧
  ∀ x, (s.link l).windows.get g = some x →
    (x.acted = true → t = s) ∧
    (x.acted = false →
      OnlyPosts (s.modLink l fun k => { k with windows := k.windows.set g (some { x with acted := true }) }) t ∧
      ((s.config g).farLink ≠ some l → t.feeders = s.feeders ∧ t.faults = s.faults ∧ AddsEntry s t fun e =>
        e.kind = .ttMisaddressed ∧ e.subject = .feeder g ∧ e.origin = .link l) ∧
      ((s.config g).farLink = some l → (s.feeder g).ready = true →
        (s.feeder g).state = .closed ∨ (s.feeder g).state = .closing →
        t.feeder g = s.trippingRecord g .transfer (.link l) ∧ OnlyFeeder s t g ∧ StateHandedOn s t g ∧
        (∀ op, (s.feeder g).state = .closing → (s.feeder g).operation = some op →
          AddsEntry s t (IsCloseResult s g op (.aborted .transferTrip) (s.feeder g).attempts)) ∧
        AddsEntry s t fun e => e.kind = .trip ∧ e.subject = .feeder g ∧ e.origin = .link l ∧
          e.value2 = some ((s.config g).farFeeder.val : Int) ∧ StartsCapture s t t.captures g .transfer e) ∧
      (∀ op, (s.config g).farLink = some l → (s.feeder g).ready = true →
        (s.feeder g).state = .claiming ∨ (s.feeder g).state = .testing → (s.feeder g).operation = some op →
        t.feeder g = s.backRecord g op ∧ OnlyFeeder s t g ∧ StateHandedOn s t g ∧ GivesClaimBack s t g ∧
        AddsEntry s t (IsCloseResult s g op (.aborted .transferTrip) (t.feeder g).attempts)) ∧
      ((s.config g).farLink = some l →
        ((s.feeder g).ready = false ∨ (s.feeder g).state = .opened ∨ (s.feeder g).state = .recloseWait ∨
          (s.feeder g).state = .tripping ∨ (s.feeder g).state = .breakerFailed ∨
          (s.feeder g).state = .lockedOut) →
        t.feeders = s.feeders ∧ t.faults = s.faults ∧ AddsEntry s t fun e => e.kind = .ttIgnored ∧ e.subject = .feeder g ∧
          e.origin = .link l ∧ e.detail =
            if (s.feeder g).ready = true then .feederState (s.feeder g).state else .nothing))

/-- A BEACON ECHO: with a beacon outstanding and not LATE, one measurement of the loop (07 R150), whose change of status is
handed to the Time Base (08 R160). -/
def EchoActs (s t : State) (l : LinkId) (late : Bool) : Prop :=
  let k := s.link l
  (late = true ∨ k.beaconOutstanding = none → t = s.modLink l fun k => { k with beaconOutstanding := none }) ∧
  ∀ sent m : Nat, late = false → k.beaconOutstanding = some sent → m = s.now - sent →
    let list := (k.measurements ++ [m]).drop (k.measurements.length + 1 - 16)
    let near := m ≤ k.loopAverage + 4 ∧ k.loopAverage ≤ m + 4
    t = { s with links := t.links, time := t.time, events := t.events, choices := t.choices } ∧
    t.link l = { k with
      beaconOutstanding := none, measurements := (t.link l).measurements, loopAverage := (t.link l).loopAverage,
      goodCount := (t.link l).goodCount, delayStatus := (t.link l).delayStatus, queued := (t.link l).queued } ∧
    (∀ n, n ≠ l → t.link n = { s.link n with queued := (t.link n).queued }) ∧
    (k.delayStatus = .invalid → (t.link l).delayStatus = .initial) ∧
    (k.delayStatus = .invalid ∨ ¬near → (t.link l).measurements = [m] ∧ (t.link l).loopAverage = m ∧
      (t.link l).goodCount = 0 ∧ (t.link l).delayStatus = .initial) ∧
    (k.delayStatus ≠ .invalid → near →
      (t.link l).measurements = list ∧ (t.link l).loopAverage = list.sum / list.length) ∧
    (k.delayStatus = .initial → near → (t.link l).goodCount = k.goodCount + 1 ∧
      (k.goodCount + 1 ≠ 16 → (t.link l).delayStatus = .initial) ∧
      (k.goodCount + 1 = 16 → (t.link l).delayStatus = .locked ∧
        AddsEntry s t fun e => e.kind = .delayLocked ∧ e.subject = .link l ∧ e.origin = .link l ∧
          (list.sum / list.length < 2147483648 → e.value1 = some ((list.sum / list.length : Nat) : Int)))) ∧
    (k.delayStatus = .locked → near → (t.link l).goodCount = 16 ∧ (t.link l).delayStatus = .locked) ∧
    (k.delayStatus = .locked → ¬near →
      AddsEntry s t fun e => e.kind = .delayRestart ∧ e.subject = .link l ∧ e.origin = .link l ∧
        (m < 2147483648 → e.value1 = some (m : Int)) ∧
        (k.loopAverage < 2147483648 → e.value2 = some (k.loopAverage : Int))) ∧
    ((t.link l).delayStatus ≠ k.delayStatus →
      ((s.link l).state = .up → (t.link l).queued.get 0 = true) ∧ TakesDelayStatus s t l (t.link l).delayStatus) ∧
    ((t.link l).delayStatus = k.delayStatus → t.events = s.events ∧ t.time = s.time)

/-- A second mark received (08 R164, R165; log 2, log 12, log 53). -/
def MarkActs (s t : State) (l : LinkId) (late : Bool) : Prop :=
  (s.followed ≠ some l → t = s) ∧
  (∀ r, s.followed = some l → s.markFails late r →
    t = { s with
      time := { s.time with
        lastMark := some { arrival := s.time.now, offset := none, action := .unused r },
        marksUnused := min (s.time.marksUnused + 1) 65535 } }) ∧
  ∀ u (d : Int), s.followed = some l → (∀ r, ¬s.markFails late r) → s.time.upstream = some u →
    d = (s.time.now.units : Int) - (u.nextMark * 100000000 + (s.link l).loopAverage / 2 : Nat) →
    t = { s with time := t.time, links := t.links, events := t.events, choices := t.choices } ∧
    (s.time.quality = t.time.quality → s.time.follow = t.time.follow → t.links = s.links) ∧
    (s.time.quality ≠ t.time.quality ∨ s.time.follow ≠ t.time.follow → QueuesSystem s t) ∧
    (s.time.quality = .unset ∨ d < -100000 →
      t.time = { s.markTaken d .step with
        now := { seconds := u.nextMark, fraction := (s.link l).loopAverage / 2 }, boundary := none,
        nextMark := u.nextMark + 1, slew := none, slewCount := 0, quality := s.markQuality l } ∧
      AddsEntry s t fun e => e.kind = .timeStep ∧ e.subject = .nothing ∧ e.origin = .link l ∧
        e.detail = .timeStep (s.time.quality == .unset) ∧ e.time = t.time.now ∧
        e.value1 = some (max (-2147483647) (min (d.tdiv 100) 2147483647)) ∧
        (s.time.now.seconds < 2147483648 → e.value2 = some (s.time.now.seconds : Int))) ∧
    (s.time.quality ≠ .unset → -100000 ≤ d → d ≤ 1000000 →
      t.time = { (s.markTaken d (if d = 0 then .noAction else .slew)).slewOver with
        slew := if d = 0 then none else some d, quality := s.markQuality l } ∧
      (s.time.quality = s.markQuality l → t.events = s.events)) ∧
    (s.time.quality ≠ .unset → 1000000 < d →
      t.time = { (s.markTaken d .conflict).slewOver with follow := .conflict, quality := .free } ∧
      AddsEntry s t fun e => e.kind = .timeConflict ∧ e.subject = .nothing ∧ e.origin = .link l ∧
        e.value1 = some (max (-2147483647) (min (d.tdiv 100) 2147483647))) ∧
    (s.time.quality = .unset ∨ d ≤ 1000000 → s.time.quality ≠ s.markQuality l →
      AddsEntry s t fun e => e.kind = .timeQuality ∧ e.subject = .nothing ∧ e.origin = .link l ∧
        e.detail = .quality (s.markQuality l) ∧ e.value1 = some (s.time.quality.code : Int))

/-- A TEST CLAIM: granted for 2 s, granted again, decided by the station numbers where claims crossed, or ignored (07 R144,
R145). -/
def ClaimActs (s t : State) (l : LinkId) (g : Feeder) : Prop :=
  OnlyPosts s t ∧
  ((s.config g).farLink = some l → (s.link l).conflict = false → (s.feeder g).ready = true →
    ((s.feeder g).state ≠ .testing ∧ (s.section' g).claim = .idle ∨ (s.section' g).claim = .grantedToFar ∨
      (s.section' g).claim = .claimSent ∧ ∃ n, (s.link l).farStation = some n ∧ n < s.station.stationNumber) →
    t.feeders = s.feeders ∧ t.faults = s.faults ∧ t.events = s.events ∧
      t.section' g = { s.section' g with claim := .grantedToFar, claimDeadline := some (s.now + 200000000) } ∧
      ((s.link l).state = .up →
        ∃ e ∈ (t.link l).pendingSet, e.signal = .testGrant (s.config g).farFeeder ∧ e.repeats = 1) ∧
      ((s.section' g).claim = .claimSent →
        ∀ e ∈ (t.link l).pendingSet, e.signal ≠ .testClaim (s.config g).farFeeder)) ∧
  ((s.config g).farLink ≠ some l ∨ (s.link l).conflict = true ∨ (s.feeder g).ready = false ∨
      ((s.section' g).claim = .idle ∧ (s.feeder g).state = .testing) ∨ (s.section' g).claim = .grantedToUs ∨
      ((s.section' g).claim = .claimSent ∧ ∀ n, (s.link l).farStation = some n → s.station.stationNumber ≤ n) →
    t = s)

/-- A TEST GRANT: it answers a claim sent, and any other is stray (07 R146, 04 R69). -/
def GrantActs (s t : State) (l : LinkId) (g : Feeder) : Prop :=
  OnlyPosts s t ∧
  (∀ op, (s.config g).farLink = some l → (s.section' g).claim = .claimSent →
    (s.feeder g).operation = some op → OnlyFeeder s t g ∧ StateHandedOn s t g ∧
      (s.sample.state = .valid →
        t.section' g = { s.section' g with claim := .grantedToUs, claimDeadline := none } ∧
        (t.feeder g).state = .testing ∧ (t.feeder g).operation = some { op with
          deadline := some (s.now + (s.config g).testTime * 100000), testMode := .claimed }) ∧
      (s.sample.state ≠ .valid →
        t.section' g = { s.section' g with claim := .idle, claimDeadline := none } ∧
        t.feeder g = s.backRecord g op ∧
        ((s.link l).state = .up →
          ∃ e ∈ (t.link l).pendingSet, e.signal = .testDone (s.config g).farFeeder) ∧
        AddsEntry s t (IsCloseResult s g op (.interlocked .measurementLost) (t.feeder g).attempts))) ∧
  ((s.config g).farLink ≠ some l ∨ (s.section' g).claim ≠ .claimSent → t = s)

/-- A TEST DONE: it ends a grant and what waited for that, and any other is stray (07 R147). -/
def DoneActs (s t : State) (l : LinkId) (g : Feeder) : Prop :=
  OnlyPosts s t ∧
  ((s.config g).farLink = some l → (s.section' g).claim = .grantedToFar →
    OnlyFeeder s t g ∧ GrantEnds s t g ∧
      ((s.feeder g).state ≠ .claiming → (s.feeder g).deferred = false → t.events = s.events)) ∧
  ((s.config g).farLink ≠ some l ∨ (s.section' g).claim ≠ .grantedToFar → t = s)

/-- A good segment: it replaces the incoming copy, fresh for every master where it is one of 9 to 15, and is taken by its
number. Of the links only this one changes, in what it says. A Feeder End segment sets the far state of the feeders it
concerns, and where that changes the group in use of a ready one, which Fault Detection's copy takes (07 R148, R154; 02 R28,
R29, R33; 03 R50; log 20). -/
def TakesSegment (s t : State) (l : LinkId) (n : Fin 16) (bytes : List Byte) : Prop :=
  t.link l = { s.link l with
    assembly := .idle, incoming := (t.link l).incoming, farStation := (t.link l).farStation,
    conflict := (t.link l).conflict, conflictReported := (t.link l).conflictReported } ∧
  (∀ m, m ≠ l → t.link m = s.link m) ∧
  ((t.link l).incoming.get n).bytes.cells = bytes ∧
  ((t.link l).incoming.get n).arrival = some (s.time.now, s.now) ∧
  (∀ p : Port, ((t.link l).incoming.get n).fresh.get p.index = decide (9 ≤ n.val)) ∧
  (∀ m, m ≠ n → (t.link l).incoming.get m = (s.link l).incoming.get m) ∧
  (n.val ≠ 0 → (t.link l).farStation = (s.link l).farStation ∧ (t.link l).conflict = (s.link l).conflict ∧
    (t.link l).conflictReported = (s.link l).conflictReported) ∧
  (9 ≤ n.val → t = s.modLink l fun _ => t.link l) ∧
  (n.val = 0 → t.feeders = s.feeders ∧ t.sections = s.sections ∧ t.faults = s.faults ∧
    (t.link l).farStation =
      (if byteAt bytes 0 = 0 ∨ byteAt bytes 0 = 255 then none else some (byteAt bytes 0).toNat) ∧
    ((t.link l).conflict = true ↔ (t.link l).farStation = some s.station.stationNumber) ∧
    ((t.link l).conflict = true → (s.link l).conflict = false → (s.link l).conflictReported = false →
      (t.link l).conflictReported = true ∧ AddsEntry s t fun e => e.kind = .numberConflict ∧
        e.subject = .link l ∧ e.origin = .link l ∧
        (s.station.stationNumber < 2147483648 → e.value1 = some (s.station.stationNumber : Int))) ∧
    ((t.link l).conflict = false ∨ (s.link l).conflict = true ∨ (s.link l).conflictReported = true →
      (t.link l).conflictReported = (s.link l).conflictReported ∧ t.events = s.events) ∧
    (s.followed ≠ some l → t.time = s.time) ∧
    (s.followed = some l → t.time = { s.time with
      upstream := some
        { role := byteAt bytes 1, quality := byteAt bytes 2, delay := wordAt bytes 3,
          nextMark := wordAt bytes 7, arrival := s.now } })) ∧
  (1 ≤ n.val → n.val ≤ 8 → t.time = s.time ∧ ∀ f,
    ((s.config f).farLink = some l → (s.config f).farFeeder.val + 1 = n.val →
      t.section' f = { s.section' f with
        farSeen := some (s.time.now, s.now), staleFrom := some s.now, heard := true,
        matching := if (byteAt bytes 7).toNat = f.val ∧ byteAt bytes 8 ≠ 0 then .matched else .mismatch,
        farState :=
          if (byteAt bytes 7).toNat = f.val ∧ byteAt bytes 8 ≠ 0 then FeederState.ofCode (byteAt bytes 0).toNat
          else none } ∧
      t.feeder f = { s.feeder f with group := s.groupAfter f (t.section' f).farState } ∧
      t.fault f = (s.fault f).regrouped (s.feeder f).group (t.feeder f).group ∧
      ((t.section' f).matching = .mismatch →
        (s.section' f).matching = .matched ∨ (s.section' f).heard = false →
        AddsEntry s t fun e => e.kind = .sectionMismatch ∧ e.subject = .feeder f ∧ e.origin = .link l ∧
          e.value1 = some ((byteAt bytes 7).toNat : Int) ∧ e.value2 = some ((byteAt bytes 8).toNat : Int))) ∧
    ((s.config f).farLink ≠ some l ∨ (s.config f).farFeeder.val + 1 ≠ n.val →
      t.section' f = s.section' f ∧ t.feeder f = s.feeder f ∧ t.fault f = s.fault f))

/-- The data of a good word at the receive assembly: it moves on, breaks the framing (SEG_FRAMING), gives no segment number
(SEG_NUMBER), fails the check (SEG_CHECK), or completes a segment of sixteen bytes (07 R152, R153). -/
def DataActs (s t : State) (l : LinkId) (d : RxData) : Prop :=
  let a := (s.link l).assembly
  (∀ b, AssemblyMoves a d b → t = s.modLink l fun k => { k with assembly := b }) ∧
  (∀ b, BreaksFraming a d b → t = s.modLink l fun k => { k with
    assembly := b, counters := { k.counters with segFraming := min (k.counters.segFraming + 1) 65535 } }) ∧
  (∀ x : Byte, d = .byte x → a = .number → 16 ≤ x.toNat → t = s.modLink l fun k => { k with
    assembly := .idle, counters := { k.counters with segNumber := min (k.counters.segNumber + 1) 65535 } }) ∧
  ∀ (n : Fin 16) bytes (hi lo : Byte), d = .byte lo → a = .check2 n bytes hi →
    ((n.val + (bytes.map BitVec.toNat).sum + (hi.toNat * 256 + lo.toNat)) % 65536 ≠ 0 →
      t = s.modLink l fun k => { k with
        assembly := .idle, counters := { k.counters with segCheck := min (k.counters.segCheck + 1) 65535 } }) ∧
    ((n.val + (bytes.map BitVec.toNat).sum + (hi.toNat * 256 + lo.toNat)) % 65536 = 0 → bytes.length = 16 →
      TakesSegment s t l n bytes)

end Sys2Proof.Machine
end

