-- ==== Sys2Proof/Certificates/Slice0/Obligations.lean ====
section
/-! DEFINITION. The statements for the provers. Each docstring says in words what its Lean says. -/

set_option Elab.async false

section Statements

open Sys2Proof Sys2Proof.Machine

/-! ## The queue and the clock (the block in place of a fetch) -/

/-- Step takes the command at the front of the queue and runs it on the state with the queue's rest (log 1). -/
def Obligations.StepRunsTheFrontCommand : Prop :=
  ∀ c s, step { s with pending := c :: s.pending } = exec c s

/-- What step does on an empty queue, in this order: held in reset only the clock runs; a slew step and a second
boundary reached by the last count are posted; one of the events due is posted; else 10 ns are counted. The
order and the tick are the model's choice (log 2, log 3). -/
def Obligations.StepOnAnEmptyQueueActsAsTheClock : Prop :=
  ∀ s : State, s.pending = [] →
    (s.resetLine = true → step s = .next { s with now := s.now + 1 }) ∧
    (s.resetLine = false → s.time.slewDue = true → step s = .next { s with pending := [.slewStep] }) ∧
    (s.resetLine = false → s.time.slewDue = false → s.time.boundary.isSome = true →
      step s = .next { s with pending := [.secondBoundary] }) ∧
    (s.resetLine = false → s.time.slewDue = false → s.time.boundary = none → s.dueEvents ≠ [] →
      ∃ c ∈ s.dueEvents, ∃ n, step s = .next { s with pending := [c], choices := n }) ∧
    (s.resetLine = false → s.time.slewDue = false → s.time.boundary = none → s.dueEvents = [] →
      step s = .next { s with now := s.now + 1, time := s.time.count })

/-! ## Conditions that every step keeps -/

/-- Every port keeps at most two request buffers and two responses (11 R199); histories keep at most 64 triples and
captures at most 192 after them, and no feeder has two FILLING buffers (10 R191 to R193). -/
def Obligations.StepKeepsBuffersBounded : Prop :=
  ∀ s t, step s = .next t → (PortsBounded s → PortsBounded t) ∧ (CapturesSound s → CapturesSound t)

/-- Every holder stays admitted by the control location, and the Authority Table's copy of it stays equal to it
(05 R86, R93). -/
def Obligations.StepKeepsAuthoritySound : Prop :=
  ∀ s t, AuthoritySound s → step s = .next t → AuthoritySound t

/-- The Event Record holds at most 1024 entries with consecutive sequence numbers, and every cursor stays between
the oldest and the newest plus one (10 R185). -/
def Obligations.StepKeepsRecordSound : Prop :=
  ∀ s t, RecordSound s → step s = .next t → RecordSound t

/-- The fields of a Feeder Record that belong to its state are present in it and in no other (02 R25); and match is
NONE exactly while far link is NONE (02 R29). -/
def Obligations.StepKeepsFeedersAndMatchSound : Prop :=
  ∀ s t, step s = .next t → (FeedersSound s → FeedersSound t) ∧ (MatchSound s → MatchSound t)

/-- Applied alpha stays within alpha min and alpha max in RUNNING and at alpha max outside it, and an AC close is
present in CONNECTING only (06 R110, R115). -/
def Obligations.StepKeepsRectifierSound : Prop :=
  ∀ s t, RectifierSound s → step s = .next t → RectifierSound t

/-- The state right after reset meets all seven conditions. -/
def Obligations.ResetMeetsEveryCondition : Prop :=
  PortsBounded State.reset ∧ AuthoritySound State.reset ∧ RecordSound State.reset ∧ FeedersSound State.reset ∧
    MatchSound State.reset ∧ RectifierSound State.reset ∧ CapturesSound State.reset

/-! ## Frames at a master port (11 R197 to R199) -/

/-- The bytes of a request frame, after any bytes other than 0xA5, read as that frame with a matching CRC: every kind,
tag and body of at most 256 bytes. -/
def Obligations.RequestFrameIsReadBack : Prop :=
  ∀ kind tag body before, body.length ≤ 256 → (∀ b ∈ before, b ≠ 0xA5#8) →
    scan (before ++ requestFrame kind tag body) = .frame kind tag body true

/-! ## The sample line (01) -/

/-- FRAME START: nothing in DISABLED; else a new frame is under reception, after an incomplete one is discarded with
cause LENGTH or a run of trailing words is counted. And a frame that passes the checks in STARTING with primed no, or in
LOST, is discarded with cause STARTING: the port is then in STARTING with primed yes, the watch restarts, and the outage
is kept. -/
def Obligations.FramesAreDelimitedAndSteadied : Prop :=
  (∀ trailing (s : State), s.resetLine = false →
    (s.sample.state = .disabled → exec (.frameStart trailing) s = .next s) ∧
    (s.sample.state ≠ .disabled → s.sample.reception = .receiving →
      exec (.frameStart trailing) s = .next { s with sample := { s.sample with
        reception := .receiving, discards := bump s.sample.discards, lastDiscard := .length,
        counters := { s.sample.counters with length := bump s.sample.counters.length } } }) ∧
    (s.sample.state ≠ .disabled → s.sample.reception = .complete → 0 < trailing →
      exec (.frameStart trailing) s = .next { s with sample := { s.sample with
        reception := .receiving,
        counters := { s.sample.counters with length := bump s.sample.counters.length } } }) ∧
    (s.sample.state ≠ .disabled → s.sample.reception ≠ .receiving →
      (s.sample.reception = .idle ∨ trailing = 0) →
      exec (.frameStart trailing) s =
        .next { s with sample := { s.sample with reception := .receiving } })) ∧
  ∀ words (s : State), s.resetLine = false → s.sample.reception = .receiving →
    (s.sample.state = .starting ∧ s.sample.primed = false ∨ s.sample.state = .lost) →
    (∀ cause, ¬FrameFails s.settings.slotMap s.sample.reference words cause) →
    ∃ t, exec (.frameComplete words) s = .next t ∧
      t = { s with sample := { s.sample with
        state := .starting, primed := true, reception := .complete, frameWatch := some s.now,
        reference := some ((words.get 0).toNat / 256), discards := bump s.sample.discards,
        lastDiscard := .starting, counters := t.sample.counters } } ∧
      t.sample.counters.starting = bump s.sample.counters.starting ∧
      (FollowsGap s.sample.reference words → t.sample.counters.gap = bump s.sample.counters.gap) ∧
      (¬FollowsGap s.sample.reference words → t.sample.counters.gap = s.sample.counters.gap) ∧
      t.sample.counters.length = s.sample.counters.length ∧
      t.sample.counters.marker = s.sample.counters.marker ∧
      t.sample.counters.check = s.sample.counters.check ∧
      t.sample.counters.slotFault = s.sample.counters.slotFault ∧
      t.sample.counters.repeated = s.sample.counters.repeated ∧
      t.sample.counters.lost = s.sample.counters.lost

/-- The checks of a completed frame, in order: a frame that fails one is discarded with its cause and changes nothing
but the counts; a frame that passes them is not discarded by them, and its number becomes the reference number. -/
def Obligations.FailingFrameIsDiscarded : Prop :=
  ∀ words (s : State), s.resetLine = false → s.sample.reception = .receiving → s.sample.state ≠ .disabled →
    (∀ cause, FrameFails s.settings.slotMap s.sample.reference words cause →
      exec (.frameComplete words) s = .next { s with sample := { s.sample with
        reception := .complete, counters := s.sample.counters.counted cause,
        discards := bump s.sample.discards, lastDiscard := cause } }) ∧
    ((∀ cause, ¬FrameFails s.settings.slotMap s.sample.reference words cause) →
      ∃ t, exec (.frameComplete words) s = .next t ∧
        t.sample.reference = some ((words.get 0).toNat / 256))

/-- A frame that passes the checks in VALID, or in STARTING with primed yes, is handed on in VALID: the last frame
values and every Feeder Record take its quantities, discards since taken and the last cause are cleared, and an entry
into VALID adds MEASUREMENT VALID with the discards and the outage LOST count, clears the outage and empties the histories
first. A frame that decides no trip, with none still late, is the newest triple of every history, 64 at most; every other
one is in the statement below. Settings, inputs, ports and authority stand. -/
def Obligations.ValidFrameIsHandedOn : Prop :=
  ∀ words (s : State), s.resetLine = false → s.sample.reception = .receiving →
    (s.sample.state = .starting ∧ s.sample.primed = true ∨ s.sample.state = .valid) →
    (∀ cause, ¬FrameFails s.settings.slotMap s.sample.reference words cause) →
    ∃ t, exec (.frameComplete words) s = .next t ∧
      t.sample.state = .valid ∧ t.sample.frameWatch = some s.now ∧ t.sample.discards = 0 ∧
      t.sample.lastDiscard = .noCause ∧ t.sample.reference = some ((words.get 0).toNat / 256) ∧
      t.sample.last.number = some ((words.get 0).toNat / 256) ∧ t.sample.last.time = some s.time.now ∧
      (∀ f, Carries s.settings.slotMap words (.feederCurrent f) (t.sample.last.values.ifs.get f)) ∧
      (∀ f, Carries s.settings.slotMap words (.feederVoltage f) (t.sample.last.values.ufs.get f)) ∧
      Carries s.settings.slotMap words .busVoltage t.sample.last.values.ub ∧
      Carries s.settings.slotMap words .rectifierCurrent t.sample.last.values.ir ∧
      (∀ f, (s.feeder f).ready = true → t.feeder f =
        { s.feeder f with
          lastIf := t.sample.last.values.ifs.get f, lastUf := t.sample.last.values.ufs.get f,
          peakIf := match t.sample.last.values.ifs.get f with
            | some v => max (s.feeder f).peakIf v.natAbs
            | none => (s.feeder f).peakIf }) ∧
      (∀ f, (s.feeder f).ready = false → t.feeder f = s.feeder f) ∧
      (s.sample.state = .starting → t.sample.outageStart = none ∧ t.sample.outageLost = 0 ∧
        t.rect.measurementHold = false ∧
        AddsEntry s t fun e => e.kind = .measurementValid ∧ e.subject = .nothing ∧ e.origin = .protection ∧
          e.detail = .nothing ∧ (s.sample.discards < 2147483648 → e.value1 = some (s.sample.discards : Int)) ∧
          (s.sample.outageLost < 2147483648 → e.value2 = some (s.sample.outageLost : Int))) ∧
      (s.sample.state = .valid → t.sample.outageStart = s.sample.outageStart ∧
        t.sample.outageLost = s.sample.outageLost ∧ t.rect.measurementHold = s.rect.measurementHold) ∧
      (∀ f, ∃ x : Triple, x.current = t.sample.last.values.ifs.get f ∧ x.voltage = t.sample.last.values.ufs.get f ∧
        x.bus = t.sample.last.values.ub ∧ (s.captures.late = none → (∀ g, (t.fault g).requests = (s.fault g).requests) →
        (s.sample.state = .starting → t.captures.histories.get f = [x]) ∧
        (s.sample.state = .valid → (s.captures.histories.get f).length < 64 →
          t.captures.histories.get f = s.captures.histories.get f ++ [x]) ∧
        (s.sample.state = .valid → (s.captures.histories.get f).length = 64 →
          t.captures.histories.get f = (s.captures.histories.get f).tail ++ [x]))) ∧
      t.settings = s.settings ∧ t.inputs = s.inputs ∧ t.ports = s.ports ∧ t.authority = s.authority ∧
      t.sections = s.sections ∧ t.clock = s.clock

/-- A frame handed on at the Firing Unit and the Capture Unit. Ub is marked, two PICKUP marks of three set
OVERVOLTAGE_HOLD with its entry, and release since follows; Ir is marked in RUNNING, and two PICKUP marks of three trip the
rectifier with DC_OVERCURRENT. The frame reaches the histories and every FILLING buffer in one arrival, HELD FULL with
CAPTURE HELD at the 192nd; a frame that decided a trip may stay on its way instead, and reaches the Capture Unit at the next
frame at the latest (the model's choice, log 32). -/
def Obligations.FramesReachTheFiringUnitAndTheCaptures : Prop :=
  ∀ words (s : State), s.handsOn words → s.rect.overvoltage.length ≤ 3 → s.rect.overcurrent.length ≤ 3 →
    ∃ t, exec (.frameComplete words) s = .next t ∧
      (t.sample.last.values.ub = none → t.rect.overvoltage = [] ∧ t.rect.releaseSince = none ∧
        t.rect.overvoltageHold = s.rect.overvoltageHold) ∧
      (∀ v, t.sample.last.values.ub = some v →
        let h := markedHistory s.rect.overvoltage (decide ((s.station.uov : Int) ≤ v))
        t.rect.overvoltage = h ∧
        (s.rect.overvoltageHold = none → 2 ≤ h.count true → t.rect.overvoltageHold = some s.now ∧
          AddsEntry s t fun e => e.kind = .overvoltageHold ∧ e.subject = .rectifier ∧ e.origin = .protection ∧
            e.value1 = some v ∧ (inField (some (s.station.uov : Int)) = true → e.value2 = some (s.station.uov : Int))) ∧
        (s.rect.overvoltageHold ≠ none ∨ h.count true < 2 → t.rect.overvoltageHold = s.rect.overvoltageHold) ∧
        (t.rect.overvoltageHold ≠ none → v < (s.station.urel : Int) → t.rect.releaseSince =
          some (match s.rect.releaseSince with
            | some x => x
            | none => s.now)) ∧
        (t.rect.overvoltageHold ≠ none → (s.station.urel : Int) ≤ v → t.rect.releaseSince = none) ∧
        (t.rect.overvoltageHold = none → t.rect.releaseSince = s.rect.releaseSince)) ∧
      (s.rect.state ≠ .running → t.rect.state = s.rect.state ∧ t.rect.overcurrent = s.rect.overcurrent) ∧
      (s.rect.state = .running → t.sample.last.values.ir = none →
        t.rect.state = .running ∧ t.rect.overcurrent = []) ∧
      (∀ v, s.rect.state = .running → t.sample.last.values.ir = some v →
        let h := markedHistory s.rect.overcurrent (decide ((s.station.irmax : Int) ≤ v))
        t.rect.overcurrent = h ∧
        (2 ≤ h.count true → TripsRectifier s t .dcOvercurrent (some v) (some (s.station.irmax : Int))) ∧
        (h.count true < 2 → t.rect.state = .running)) ∧
      ∃ u, (s.sample.state = .valid → LateFrameReaches s t s.captures u) ∧
        (s.sample.state = .starting → u = { s.captures with histories := File.fill 8 [], late := none }) ∧
        (ReachesCaptures s t u t.captures t.sample.last.values ∨
          (∃ f, (s.fault f).requests.length < (t.fault f).requests.length) ∧
            t.captures = { u with late := some t.sample.last.values })

/-- The frame watch runs out in STARTING or VALID: the port enters LOST, the LOST counter rises, a first entry of an
outage sets its start and adds MEASUREMENT LOST, a further one raises the outage LOST count and adds none, and every
feeder with no blind since takes the outage start, a feeder in TESTING too; nothing else of Fault Detection changes. Leaving VALID ends every test INTERLOCKED with cause MEASUREMENT_LOST
and gives its claim up, with TEST DONE or by withdrawing a TEST CLAIM still pending; a frame still late reaches the Capture Unit (log 32), and then every FILLING buffer is HELD
truncated. That MEASUREMENT LOST comes before the entries of
Breaker Control and the Capture Unit is the model's reading (log 30), and so is that CLOSE RESULT carries the attempts
left in the next state (log 15). -/
def Obligations.SilentLineEntersLost : Prop :=
  ∀ (s : State) t0, s.resetLine = false → s.sample.frameWatch = some t0 → t0 + 20000 ≤ s.now →
    (s.sample.state = .starting ∨ s.sample.state = .valid) →
    ∃ t, exec .frameWatchExpiry s = .next t ∧
      t.sample = { s.sample with
        state := .lost, reference := none, frameWatch := none,
        outageStart := some (s.sample.outageStart.getD s.now),
        outageLost := if s.sample.outageStart = none then 1 else bump s.sample.outageLost,
        counters := { s.sample.counters with lost := bump s.sample.counters.lost } } ∧
      (∀ f, t.fault f = if (s.fault f).blindSince = none
          then { s.fault f with blindSince := t.sample.outageStart } else s.fault f) ∧
      (s.sample.state = .valid → t.rect.measurementHold = true) ∧
      (s.sample.state = .starting → s.sample.outageStart = none → t.events = (s.addEntry .measurementLost .nothing
        .protection (.discard s.sample.lastDiscard) (some (s.sample.discards : Int))).events) ∧
      (s.sample.state = .starting → s.sample.outageStart ≠ none → t.events = s.events) ∧
      (s.sample.state = .valid → s.sample.outageStart = none → Grows (s.addEntry .measurementLost .nothing
        .protection (.discard s.sample.lastDiscard) (some (s.sample.discards : Int))).events t.events) ∧
      (∀ f, s.sample.state = .starting ∨ (s.feeder f).state ≠ .testing → t.feeder f = s.feeder f) ∧
      (∀ f op, s.sample.state = .valid → (s.feeder f).state = .testing → (s.feeder f).operation = some op →
        t.feeder f = s.backRecord f op ∧
        GivesUpClaim s t f ∧ ((∀ g, g ≠ f → (s.feeder g).state ≠ .testing) → GivesClaimBack s t f) ∧
        AddsEntry s t (IsCloseResult s f op (.interlocked .measurementLost) (t.feeder f).attempts)) ∧
      (s.sample.state = .starting → t.captures = s.captures) ∧
      (s.sample.state = .valid → ∃ u, LateFrameReaches s t s.captures u ∧ t.captures.late = none ∧
        t.captures.histories = u.histories ∧ (∀ n, u.buffers.get n = none → t.captures.buffers.get n = none) ∧
        ∀ n c, u.buffers.get n = some c →
          (c.held = false → BecomesHeld s t n { c with held := true, truncated := true }) ∧
          (c.held = true → t.captures.buffers.get n = some c)) ∧
      t.settings = s.settings ∧ t.inputs = s.inputs ∧ t.ports = s.ports ∧ t.authority = s.authority ∧
      t.clock = s.clock

/-! ## Field inputs (02) -/

/-- A contact change maps the two contacts to a reading; reading since moves only when the reading changes; a change
and a change back within one instant have no effect; nothing but the breaker's own input block changes. -/
def Obligations.ContactsGiveTheReading : Prop :=
  ∀ b c made (s : State), s.resetLine = false → Reads (s.inputOf b).a (s.inputOf b).b (s.inputOf b).reading →
    (s.inputOf b).since < s.now →
    ∃ t, exec (.contactChange b c made) s = .next t ∧ t = s.modInputOf b (fun _ => t.inputOf b) ∧
      (t.inputOf b).a = (if c = .a then made else (s.inputOf b).a) ∧
      (t.inputOf b).b = (if c = .b then made else (s.inputOf b).b) ∧
      Reads (t.inputOf b).a (t.inputOf b).b (t.inputOf b).reading ∧
      ((t.inputOf b).reading = (s.inputOf b).reading → (t.inputOf b).since = (s.inputOf b).since) ∧
      ((t.inputOf b).reading ≠ (s.inputOf b).reading → (t.inputOf b).since = s.now) ∧
      (t.inputOf b).position = (s.inputOf b).position ∧ (t.inputOf b).invalidSince = (s.inputOf b).invalidSince ∧
      (t.inputOf b).reported = (s.inputOf b).reported ∧
      ∃ u, exec (.contactChange b c (if c = .a then (s.inputOf b).a else (s.inputOf b).b)) t = .next u ∧
        (u.inputOf b).a = (s.inputOf b).a ∧ (u.inputOf b).b = (s.inputOf b).b ∧
        (u.inputOf b).reading = (s.inputOf b).reading ∧ (u.inputOf b).since = (s.inputOf b).since

/-- The debounced position takes a reading unchanged for 4 ms that differs from it, of a feeder or of the AC breaker.
INVALID begins an episode; OPEN or CLOSED ends one. Inputs of other breakers, settings, ports and the sample port
stand. A position INVALID for 200 ms raises one POSITION FAULT, with the combination and the position held before. The
first debounced position makes a feeder ready, CLOSED if it is CLOSED and OPEN otherwise, with the values the spec gives
the other fields and the group of the group rule, which Fault Detection's copy takes; a feeder found CLOSED is protected
from that instant, with an empty history, and adds no entry. That POSITION
RESTORED comes before the entries of Breaker Control and the Firing Unit is the model's reading (log 30), and the detail
of a POSITION FAULT whose combination has since changed is its reading too (log 27). -/
def Obligations.PositionsAreTakenAndFaultsReported : Prop :=
  (∀ b (s : State), s.resetLine = false → (s.inputOf b).position ≠ some (s.inputOf b).reading →
    (s.inputOf b).since + 400000 ≤ s.now →
    ∃ t, exec (.positionDebounceExpiry b) s = .next t ∧
      t.inputOf b = { s.inputOf b with
        position := some (s.inputOf b).reading, reported := false,
        invalidSince := if (s.inputOf b).reading = .invalid then some s.now else none,
        before := if (s.inputOf b).reading = .invalid then (s.inputOf b).position else (s.inputOf b).before } ∧
      (∀ b', b' ≠ b → t.inputOf b' = s.inputOf b') ∧
      ((s.inputOf b).reported = true → (s.inputOf b).reading ≠ .invalid →
        Grows (s.addEntry .positionRestored (Breaker.subject b) .protection (.position (s.inputOf b).reading)).events t.events) ∧
      t.settings = s.settings ∧ t.sample = s.sample ∧ t.ports = s.ports ∧ t.key = s.key ∧ t.authority = s.authority) ∧
  (∀ b (s : State) t0, s.resetLine = false → (s.inputOf b).position = some .invalid →
    (s.inputOf b).reported = false → (s.inputOf b).invalidSince = some t0 → t0 + 20000000 ≤ s.now →
    exec (.positionFault b) s = .next ((s.modInputOf b fun x => { x with reported := true }).addEntry .positionFault
      (Breaker.subject b) .protection
      (match (s.inputOf b).a, (s.inputOf b).b with
        | false, false => .combination .bothOpen
        | true, true => .combination .bothMade
        | _, _ => .nothing)
      (some (match (s.inputOf b).before with
        | some .opened => 0
        | some .closed => 1
        | _ => -1)))) ∧
  ∀ f (s : State), s.resetLine = false → (s.input f).position = none → (s.input f).reported = false →
    (s.input f).since + 400000 ≤ s.now →
    ∃ t, exec (.positionDebounceExpiry (.feeder f)) s = .next t ∧
      t.feeder f =
        { ready := true, state := if (s.input f).reading = .closed then .closed else .opened, operation := none,
          recloseDue := none, deferred := false, lockoutReason := none, lastTripCause := .noCause, attempts := 0,
          group := if (s.config f).farLink ≠ none ∧ (s.section' f).farState ≠ some .closed then .isolated else .normal,
          lastIf := none, lastUf := none, peakIf := 0, reclaimStart := none, reclaimWatch := none } ∧
      (∀ g, g ≠ f → t.feeder g = s.feeder g ∧ t.fault g = s.fault g) ∧
      t.fault f = { (s.fault f).noticed .opened (t.feeder f).state s.now with group := (t.feeder f).group } ∧
      t.rect = { s.rect with retard := s.rect.retard.set f false } ∧
      (∀ l, (s.config f).farLink = some l → (s.link l).state = .up →
        (t.link l).queued.get (feederSegment f) = true) ∧ t.events = s.events

/-- A key input change moves the key contact and, when the level changes, the instant since which it stands, and nothing
else. A key reading unchanged for 4 ms that differs from the location becomes the location: LOCATION CHANGED is
added, and after it the Authority Table takes it and loses every item of the excluded class and no other, each with AUTHORITY
LOST in the order F0 to F7 and then R. -/
def Obligations.KeyIsFollowedAndReachesTheTable : Prop :=
  (∀ made (s : State), s.key.since < s.now →
    ∃ t, exec (.keyInputChange made) s = .next t ∧ t = { s with key := t.key } ∧ t.key.made = made ∧
      t.key.location = s.key.location ∧ (made = s.key.made → t.key.since = s.key.since) ∧
      (made ≠ s.key.made → t.key.since = s.now)) ∧
  ∀ (s : State) x, s.resetLine = false → x = (if s.key.made = true then Location.remoteKey else .localKey) →
    x ≠ s.key.location → s.key.since + 400000 ≤ s.now →
    ∃ t, exec .locationChanged s = .next t ∧ t.key = { s.key with location := x } ∧ t.authority.location = x ∧
      (∀ i h, s.holding i = some h → Excludes x h.holder → t.holding i = none) ∧
      (∀ i h, s.holding i = some h → ¬Excludes x h.holder → t.holding i = some h) ∧
      (∀ i, s.holding i = none → t.holding i = none) ∧
      (∀ u, u = s.addEntry .locationChanged .nothing .protection (.location x) → Grows u.events t.events ∧
        (∀ i h, s.holding i = some h → Excludes x h.holder → AddsEntry u t fun e =>
          e.kind = .authorityLost ∧ e.subject = Item.subject i ∧ e.origin = .port h.holder ∧
            e.detail = .location x ∧ e.value2 = none ∧
            e.value1 = some ((min ((s.now - h.grantedAt) / 100000) 2147483647 : Nat) : Int)) ∧
        ∀ i j h k, s.holding i = some h → Excludes x h.holder → s.holding j = some k → Excludes x k.holder →
          i.index.val < j.index.val → AddsInOrder u t
            (fun e => e.kind = .authorityLost ∧ e.subject = Item.subject i)
            (fun e => e.kind = .authorityLost ∧ e.subject = Item.subject j)) ∧
      t.feeders = s.feeders ∧ t.sections = s.sections ∧ t.faults = s.faults ∧ t.rect = s.rect ∧ t.ports = s.ports ∧
      t.settings = s.settings ∧ t.inputs = s.inputs ∧ t.links = s.links

/-- 50 ms without a Feeder End segment: far state becomes UNKNOWN, far seen and match stand, and a ready feeder with a
far link is in group ISOLATED. Where the group in use so changes, Fault Detection's copy takes it and the rise detector is
cleared, previous If and the history kept; where it does not, Fault Detection keeps all. Other feeders and sections
stand. -/
def Obligations.SilentFarEndIsUnknown : Prop :=
  ∀ f (s : State) t0, s.resetLine = false → (s.section' f).staleFrom = some t0 → t0 + 5000000 ≤ s.now →
    ∃ t, exec (.farStateStale f) s = .next t ∧
      t.section' f = { s.section' f with farState := none, staleFrom := none } ∧
      (∀ g, g ≠ f → t.section' g = s.section' g ∧ t.feeder g = s.feeder g ∧ t.fault g = s.fault g) ∧
      ((t.feeder f).group ≠ (s.feeder f).group →
        t.fault f = { s.fault f with group := (t.feeder f).group, i0 := none, riseCounter := 0, lowCount := 0 }) ∧
      ((t.feeder f).group = (s.feeder f).group → t.fault f = s.fault f) ∧
      ((s.section' f).farState ≠ none → (s.feeder f).ready = true →
        t.feeder f = { s.feeder f with group := if (s.config f).farLink = none then .normal else .isolated }) ∧
      ((s.section' f).farState = none ∨ (s.feeder f).ready = false → t.feeder f = s.feeder f) ∧
      t.settings = s.settings ∧ t.inputs = s.inputs ∧ t.ports = s.ports ∧ t.authority = s.authority ∧
      t.rect = s.rect ∧ t.links = s.links

/-- What the part drives. The three output lines of a feeder follow its state, so that no two are energised together, and
those of a feeder not ready are de-energised; the AC lines follow the AC operation and a gate line its pulse. Attention is
asserted while one of its four causes holds. Data out gives the frame of the head response from the position reached in
the selection, and 0x00 when none is being sent; the position comes with the commands (log 45). While the reset line is
asserted every output is de-energised, every attention line de-asserted and data out 0x00. -/
def Obligations.OutputsFollowTheState : Prop :=
  (∀ (s : State) f, s.resetLine = false →
    ((s.feeder f).ready = true →
      (s.closeLine f = true ↔ (s.feeder f).state = .closing) ∧
      (s.testLine f = true ↔ (s.feeder f).state = .testing) ∧
      (s.tripLine f = true ↔ (s.feeder f).state = .tripping ∨ (s.feeder f).state = .breakerFailed)) ∧
    ((s.feeder f).ready = false → s.closeLine f = false ∧ s.testLine f = false ∧ s.tripLine f = false)) ∧
  (∀ s : State, s.resetLine = false →
    (s.acCloseLine = true ↔ ∃ op, s.rect.acOperation = some op ∧ op.kind = .close) ∧
    (s.acTripLine = true ↔ ∃ op, s.rect.acOperation = some op ∧ op.kind = .opening) ∧
    ∀ g, s.gateLine g = true ↔ 0 < s.rect.gates.get g) ∧
  (∀ (s : State) p, s.resetLine = false → RecordSound s →
    (s.attention p = true ↔ (s.port p).responses ≠ [] ∨
      (∃ e ∈ s.events.ring.drop (s.events.ring.length - seqDistance (s.cursor p).next s.events.nextSequence),
        (s.cursor p).classes.get e.kind.class = true) ∨
      (s.cursor p).overrun = true ∨
      ∃ l, ∃ n : Fin 16, 9 ≤ n.val ∧ ((s.link l).incoming.get n).fresh.get p.index = true)) ∧
  (∀ r : Response, IsResponseFrame r r.frame) ∧
  (∀ (s : State) p (k : Nat), s.resetLine = false →
    ((s.port p).responses = [] ∨ (s.port p).selected = false → s.dataOut p k = 0#8) ∧
    ∀ r, (s.port p).responses.head? = some r → (s.port p).selected = true →
      s.dataOut p k = r.frame.getD ((s.port p).sent + k) 0#8) ∧
  ∀ s : State, s.resetLine = true →
    (∀ f, s.closeLine f = false ∧ s.testLine f = false ∧ s.tripLine f = false) ∧ s.acCloseLine = false ∧
    s.acTripLine = false ∧ (∀ g, s.gateLine g = false) ∧ (∀ p, s.attention p = false) ∧ ∀ p k, s.dataOut p k = 0#8

/-! ## Fault Detection (03) -/

/-- A frame judged with its If present is marked PICKUP or CLEAR against Imax of the group copy, the history keeps the
newest three marks, and two or more PICKUP marks decide a trip with cause IMAX. -/
def Obligations.TwoPickupsOfThreeTrip : Prop :=
  ∀ words (s : State) f i, s.handsOn words → (s.fault f).active = true → (s.fault f).outstanding = false →
    ∃ t, exec (.frameComplete words) s = .next t ∧
      (t.sample.last.values.ifs.get f = some i →
        ((s.fault f).history.length ≤ 3 → (t.fault f).history = s.marksAfter f i) ∧
        (t.fault f).blindSince = none ∧ (t.fault f).previousIf = some i ∧
        ((s.fault f).history.length ≤ 3 → 2 ≤ (s.marksAfter f i).count true →
          (t.fault f).outstanding = true ∧
          (t.fault f).lastDecision = some
            { cause := .imax, group := (s.fault f).group, frame := some ((words.get 0).toNat / 256),
              current := some i, voltage := t.sample.last.values.ufs.get f, value1 := i,
              value2 := ((s.groupCopy f).imax : Int), time := s.time.now } ∧
          (t.fault f).requests = (s.fault f).requests ++ (t.fault f).lastDecision.toList) ∧
        ((s.fault f).history.length ≤ 3 → (s.marksAfter f i).count true < 2 →
          (t.fault f).lastDecision = (s.fault f).lastDecision ∨
            ∃ x, (t.fault f).lastDecision = some x ∧ x.cause = .rise))

/-- The rise detector on a frame that the Imax element does not decide: a step at or above R1 starts it, each frame
counts, two steps below R2 in a row end it, and a rise of deltaI after Tr frames decides a trip with cause RISE. -/
def Obligations.RiseDetectorFollowsTheSteps : Prop :=
  ∀ words (s : State) f i x, s.handsOn words → (s.fault f).active = true → (s.fault f).outstanding = false →
    (s.fault f).history.length ≤ 3 → (s.marksAfter f i).count true < 2 → s.stepAt f words i x →
    ∃ t, exec (.frameComplete words) s = .next t ∧
      (t.sample.last.values.ifs.get f = some i →
        let g := s.groupCopy f
        let old := s.fault f
        let new := t.fault f
        let rising := if s.sample.state = .starting then none else old.i0
        let low := match x with
          | some v => if v < (g.r2 : Int) then old.lowCount + 1 else 0
          | none => old.lowCount
        new.previousIf = some i ∧
        (rising = none → s.sample.state = .valid →
          (∀ v, x = some v → (g.r1 : Int) ≤ v →
            new.i0 = old.previousIf ∧ new.riseCounter = 0 ∧ new.lowCount = 0) ∧
          ((∀ v, x = some v → v < (g.r1 : Int)) → new.i0 = none ∧ new.riseCounter = old.riseCounter ∧
            new.lowCount = old.lowCount) ∧ new.outstanding = false) ∧
        (s.sample.state = .starting → new.i0 = none ∧ new.riseCounter = 0 ∧ new.lowCount = 0 ∧
          new.outstanding = false) ∧
        (∀ a, rising = some a →
          ((g.deltaI : Int) ≤ i - a → g.tr ≤ bump old.riseCounter →
            new.outstanding = true ∧ new.lastDecision = some
              { cause := .rise, group := old.group, frame := some ((words.get 0).toNat / 256), current := some i,
                voltage := t.sample.last.values.ufs.get f, value1 := i - a,
                value2 := (bump old.riseCounter : Int), time := s.time.now } ∧
            new.requests = old.requests ++ new.lastDecision.toList) ∧
          (¬((g.deltaI : Int) ≤ i - a ∧ g.tr ≤ bump old.riseCounter) → low = 2 →
            new.i0 = none ∧ new.riseCounter = 0 ∧ new.lowCount = 0 ∧ new.outstanding = false) ∧
          (¬((g.deltaI : Int) ≤ i - a ∧ g.tr ≤ bump old.riseCounter) → low ≠ 2 →
            new.i0 = some a ∧ new.riseCounter = bump old.riseCounter ∧ new.lowCount = low ∧
            new.outstanding = false)))

/-- The blind deadline is the later of blind since and protect since plus the blind limit; reached with protection
ACTIVE and no request outstanding, a BLIND request is sent with the unmeasured time in us and the port state. -/
def Obligations.BlindDeadlineSendsARequest : Prop :=
  ∀ f (s : State) b p, s.resetLine = false → (s.fault f).active = true → (s.fault f).outstanding = false →
    (s.fault f).blindSince = some b → (s.fault f).protectSince = some p →
    max b p + (s.config f).blindLimit * 100000 ≤ s.now →
    ∃ x : TripDecision,
      x = { cause := .blind, group := (s.fault f).group, frame := none, current := none, voltage := none,
            value1 := ((min ((max b p + (s.config f).blindLimit * 100000 - b) / 100) 2147483647 : Nat) : Int),
            value2 := match s.sample.state with
              | .disabled => 0
              | .starting => 1
              | .valid => 2
              | .lost => 3,
            time := s.time.now } ∧
      exec (.blindDeadlineExpiry f) s = .next (s.modFault f fun d =>
        { d with outstanding := true, lastDecision := some x, requests := d.requests ++ [x] })

/-! ## Breaker operations (02 R36, 04) -/

/-- The eight close interlock checks in order; the first that fails gives the cause. -/
def Obligations.CloseChecksInOrder : Prop :=
  ∀ (s : State) f auto, s.closeCheck f auto =
    if (s.config f).inService = false then some .notInService
    else if (s.feeder f).state = .lockedOut then some .lockedOut
    else if (s.feeder f).state = .breakerFailed then some .breakerFailed
    else if ¬((s.feeder f).state = .opened ∨ ((s.feeder f).state = .recloseWait ∧ auto = true)) then some .state
    else if s.position f = .invalid then some .positionInvalid
    else if s.position f = .closed then some .state
    else if ¬(s.sample.state = .valid ∧ ∃ n, s.settings.slotMap.get n = .feederVoltage f) then some .measurementLost
    else if ¬(∃ ub, s.sample.last.values.ub = some ub ∧ (s.station.busLive : Int) ≤ ub) then some .busDead
    else if (s.section' f).claim = .grantedToFar then some .farTest
    else none

/-- A protection request taken in CLOSING or CLOSED trips the feeder: its record, the TRIP entry from the request, the
capture it starts in the lowest FREE buffer, FAULT_RETARD for IMAX and RISE, protection INACTIVE with its history, rise
fields and request outstanding cleared and blind since kept, and a TRANSFER TRIP for the far feeder on an UP far link, which
is to send the Feeder End segment too. In any other state it is dropped. A frame that decided a trip and is still on its way reaches the Capture Unit
after the capture has started, as its first triple after the trigger, or stays on its way while another request does (the
model's choice, log 32). -/
def Obligations.TripRequestTripsTheFeeder : Prop :=
  ∀ f (s : State) x rest, s.resetLine = false → (s.fault f).requests = x :: rest →
    ((s.feeder f).state ≠ .closing → (s.feeder f).state ≠ .closed →
      ∃ t, exec (.tripRequest f) s = .next t ∧ LateFrameFollows s t s.captures ∧
        t = { s.modFault f (fun d => { d with requests := rest }) with
          captures := t.captures, events := t.events, choices := t.choices } ∧
        (t.captures = s.captures → t.events = s.events)) ∧
    ((s.feeder f).state = .closing ∨ (s.feeder f).state = .closed →
      (x.cause = .imax ∨ x.cause = .rise ∨ x.cause = .blind) →
      ∃ t, exec (.tripRequest f) s = .next t ∧ t.feeder f = s.trippingRecord f x.cause .protection ∧
        OnlyFeeder s t f ∧
        t.fault f = { (s.fault f).noticed (s.feeder f).state .tripping s.now with requests := rest } ∧
        AddsEntry s t (fun e => e.kind = .trip ∧ e.subject = .feeder f ∧ e.origin = .protection ∧
          (inField (some x.value1) = true → e.value1 = some x.value1) ∧
          (inField (some x.value2) = true → e.value2 = some x.value2) ∧
          e.detail = .trip x.cause (x.group == .isolated) e.capture.isNone ∧
          ∃ u, StartsCapture s t u f x.cause e ∧ LateFrameFollows s t u) ∧
        t.rect = { s.rect with retard := s.rect.retard.set f (decide (x.cause ≠ .blind)) } ∧
        (∀ op, (s.feeder f).state = .closing → (s.feeder f).operation = some op →
          AddsEntry s t (IsCloseResult s f op (.aborted .trip) (s.feeder f).attempts)) ∧
        ∀ l, (s.config f).farLink = some l → (s.link l).state = .up →
          (t.link l).queued.get (feederSegment f) = true ∧
          ∃ e ∈ (t.link l).pendingSet, e.signal = .transferTrip (s.config f).farFeeder ∧ e.repeats = 3)

/-- The trip confirm limit leads to BREAKER_FAILED: the operation loses its deadline, BREAKER FAILED is added with the
limit applied and the position, a TRANSFER TRIP is posted on an UP far link and the Feeder End segment queued there,
FAULT_RETARD ends for this feeder, Fault Detection keeps all, and a rectifier in CONNECTING, SYNCING or RUNNING is tripped
with FEEDER_BREAKER_FAILED. -/
def Obligations.UnconfirmedTripIsABreakerFailure : Prop :=
  ∀ f (s : State) op d, s.resetLine = false → (s.feeder f).state = .tripping → (s.feeder f).operation = some op →
    op.deadline = some d → d ≤ s.now →
    ∃ t, exec (.tripConfirmLimit f) s = .next t ∧
      t.feeder f = { s.feeder f with
        state := .breakerFailed, operation := some { op with deadline := none }, recloseDue := none,
        deferred := false, lockoutReason := none, reclaimWatch := none } ∧
      (∀ g, g ≠ f → t.feeder g = s.feeder g) ∧ t.settings = s.settings ∧ t.inputs = s.inputs ∧ t.ports = s.ports ∧
      t.faults = s.faults ∧ StateHandedOn s t f ∧
      AddsEntry s t (fun e => e.kind = .breakerFailed ∧ e.subject = .feeder f ∧ e.origin = .protection ∧
        e.detail = .failedTrip (s.feeder f).lastTripCause ∧
        ((d - op.startAt) / 100000 < 2147483648 → e.value1 = some (((d - op.startAt) / 100000 : Nat) : Int)) ∧
        e.value2 = some (match s.position f with
          | .opened => 0
          | .closed => 1
          | .invalid => 2)) ∧
      (s.rect.state = .connecting ∨ s.rect.state = .syncing ∨ s.rect.state = .running →
        TripsRectifier s t .feederBreakerFailed (some (f.val : Int)) none ∧ t.rect.retard.get f = false) ∧
      (s.rect.state = .blocked ∨ s.rect.state = .tripped →
        t.rect = { s.rect with retard := s.rect.retard.set f false }) ∧
      ∀ l, (s.config f).farLink = some l → (s.link l).state = .up →
        ∃ e ∈ (t.link l).pendingSet, e.signal = .transferTrip (s.config f).farFeeder ∧ e.repeats = 3

/-- A position OPEN confirms a trip: the next state by last trip cause, maximum and attempts, and TRIP CLEARED naming it;
from BREAKER_FAILED it leads to LOCKED_OUT. FAULT_RETARD ends for the feeder and nothing else of the rectifier changes; the
Feeder End segment is queued on an UP far link, and Fault Detection, INACTIVE since the trip, keeps all. -/
def Obligations.OpenPositionConfirmsATrip : Prop :=
  ∀ f (s : State) op, s.resetLine = false → (s.input f).position ≠ none → (s.input f).position ≠ some .opened →
    (s.input f).reading = .opened → (s.input f).since + 400000 ≤ s.now → (s.feeder f).operation = some op →
    ((s.feeder f).state = .tripping →
      ∃ t, exec (.positionDebounceExpiry (.feeder f)) s = .next t ∧ StateHandedOn s t f ∧
        t.rect.retard.get f = false ∧ t.rect = { s.rect with retard := s.rect.retard.set f false } ∧
        ((s.feeder f).lastTripCause = .commanded ∨ (s.config f).maxReclose = 0 → t.feeder f = s.openRecord f) ∧
        ((s.feeder f).lastTripCause ≠ .commanded → 0 < (s.config f).maxReclose →
          (s.feeder f).attempts < (s.config f).maxReclose → t.feeder f = s.waitRecord f) ∧
        ((s.feeder f).lastTripCause ≠ .commanded → 0 < (s.config f).maxReclose →
          (s.config f).maxReclose ≤ (s.feeder f).attempts → t.feeder f = s.lockedRecord f .attempts) ∧
        AddsEntry s t (fun e => e.kind = .tripCleared ∧ e.subject = .feeder f ∧ e.origin = op.origin ∧
          e.detail = .feederState (t.feeder f).state ∧
          ((s.now - op.startAt) / 100000 < 2147483648 →
            e.value1 = some (((s.now - op.startAt) / 100000 : Nat) : Int)))) ∧
    ((s.feeder f).state = .breakerFailed →
      ∃ t, exec (.positionDebounceExpiry (.feeder f)) s = .next t ∧ StateHandedOn s t f ∧
        t.rect.retard.get f = false ∧ t.rect = { s.rect with retard := s.rect.retard.set f false } ∧
        t.feeder f = s.lockedRecord f .breakerFailed ∧
        AddsEntry s t (fun e => e.kind = .tripCleared ∧ e.detail = .feederState .lockedOut) ∧
        AddsEntry s t (fun e => e.kind = .lockout ∧ e.detail = .lockout .breakerFailed ∧ e.origin = .protection))

/-- A position change of a feeder that no operation awaits: OPEN in CLOSED, CLOSED in OPEN or RECLOSE_WAIT, and CLOSED in
CLAIMING or TESTING, which aborts the close first and gives its claim back, each with its entry and its state; CLOSED in
LOCKED_OUT adds an entry and leaves the feeder locked out; every other one, and INVALID in any state, leaves the feeder as
it is and adds no entry. Protection becomes ACTIVE at the uncommanded close and INACTIVE at the uncommanded opening, as at
commanded ones, and where the state stands Fault Detection keeps all. Other feeders stand. -/
def Obligations.UncommandedPositionsOfAFeeder : Prop :=
  ∀ f (s : State) x, s.resetLine = false → (s.feeder f).ready = true → (s.input f).position ≠ none →
    x = (s.input f).reading → (s.input f).position ≠ some x → (s.input f).since + 400000 ≤ s.now →
    ∃ t, exec (.positionDebounceExpiry (.feeder f)) s = .next t ∧
      (∀ g, g ≠ f → t.feeder g = s.feeder g ∧ t.section' g = s.section' g ∧ t.fault g = s.fault g) ∧
      StateHandedOn s t f ∧
      (x = .opened → (s.feeder f).state = .closed → t.feeder f = s.openRecord f ∧
        AddsEntry s t fun e => e.kind = .openedUncommanded ∧ e.subject = .feeder f ∧ e.origin = .protection ∧
          e.detail = .nothing ∧ (inField (s.feeder f).lastIf = true → e.value1 = (s.feeder f).lastIf)) ∧
      (x = .closed → (s.feeder f).state = .opened ∨ (s.feeder f).state = .recloseWait →
        t.feeder f = s.closedRecord f ∧
        AddsEntry s t fun e => e.kind = .closedUncommanded ∧ e.subject = .feeder f ∧ e.origin = .protection ∧
          e.detail = .nothing) ∧
      (∀ op, x = .closed → (s.feeder f).state = .claiming ∨ (s.feeder f).state = .testing →
        (s.feeder f).operation = some op → t.feeder f = s.closedRecord f ∧ GivesClaimBack s t f ∧
          (AddsEntry s t (IsCloseResult s f op (.aborted .uncommandedClose) (s.feeder f).attempts)) ∧
          AddsEntry s t fun e => e.kind = .closedUncommanded ∧ e.subject = .feeder f ∧ e.origin = .protection ∧
            e.detail = .nothing) ∧
      (x = .closed → (s.feeder f).state = .lockedOut → t.feeder f = s.feeder f ∧
        AddsEntry s t fun e => e.kind = .closedUncommanded ∧ e.subject = .feeder f ∧ e.origin = .protection ∧
          e.detail = .feederState .lockedOut) ∧
      (x = .invalid ∨ (x = .closed ∧ ((s.feeder f).state = .closed ∨ (s.feeder f).state = .tripping ∨
            (s.feeder f).state = .breakerFailed)) ∨
          (x = .opened ∧ ((s.feeder f).state = .opened ∨ (s.feeder f).state = .recloseWait ∨
            (s.feeder f).state = .claiming ∨ (s.feeder f).state = .testing ∨ (s.feeder f).state = .closing ∨
            (s.feeder f).state = .lockedOut)) →
        t.feeder f = s.feeder f ∧ ((s.input f).reported = false → t.events = s.events))

/-- OPEN FEEDER: BAD_ARGUMENT for a body that names no feeder, NOT_READY for one not ready, else by the state: a COMMANDED
trip with its TRIP entry and no capture, and the CLOSE RESULT of a close under way; an abort that gives the claim back; or
OPEN out of RECLOSE_WAIT. Each change of state is handed on: a COMMANDED trip makes protection INACTIVE and sets no
FAULT_RETARD. That a CLOSE RESULT carries value2 0 for an aborted close, and before a trip the attempts as they
stand, is the model's reading of two rules (log 15). -/
def Obligations.OpenFeederBySituation : Prop :=
  ∀ p tag body (s : State), s.offers p 0x10 tag body →
    ((∀ f : Feeder, body ≠ [BitVec.ofNat 8 f.val]) → exec (.openFeeder p) s =
      .next ((s.dropBuffer p).answered p 0x10 tag (.refused .badArgument) .empty)) ∧
    ∀ f : Feeder, body = [BitVec.ofNat 8 f.val] →
      ((s.feeder f).ready = false → exec (.openFeeder p) s =
        .next ((s.dropBuffer p).answered p 0x10 tag (.refused .notReady) .empty)) ∧
      ((s.feeder f).ready = true → ∃ t, exec (.openFeeder p) s = .next t ∧ OnlyFeeder s t f ∧
        t.authority = s.authority ∧ StateHandedOn s t f ∧
        ((s.feeder f).state = .closed ∨ (s.feeder f).state = .closing →
          Responds s t p 0x10 tag .accepted .empty ∧ t.feeder f = s.trippingRecord f .commanded (.port p) ∧
            t.captures = s.captures ∧ (∀ l, (t.link l).pendingSet = (s.link l).pendingSet) ∧
            (AddsEntry s t fun e => e.kind = .trip ∧ e.subject = .feeder f ∧ e.origin = .port p ∧
              e.detail = .trip .commanded (decide ((s.feeder f).group = .isolated)) false ∧
              (inField (s.feeder f).lastIf = true → e.value1 = (s.feeder f).lastIf) ∧ e.value2 = none ∧
              e.capture = none) ∧
            ∀ op, (s.feeder f).state = .closing → (s.feeder f).operation = some op →
              AddsEntry s t (IsCloseResult s f op (.aborted .openRequest) (s.feeder f).attempts)) ∧
        ((s.feeder f).state = .claiming ∨ (s.feeder f).state = .testing →
          Responds s t p 0x10 tag .done .empty ∧ ∀ op, (s.feeder f).operation = some op →
            t.feeder f = s.openRecord f ∧ GivesClaimBack s t f ∧
              AddsEntry s t (IsCloseResult s f op (.aborted .openRequest) 0)) ∧
        ((s.feeder f).state = .recloseWait →
          Responds s t p 0x10 tag .done .empty ∧ t.feeder f = s.openRecord f) ∧
        ((s.feeder f).state = .opened ∨ (s.feeder f).state = .lockedOut ∨ (s.feeder f).state = .tripping ∨
            (s.feeder f).state = .breakerFailed →
          t = (s.dropBuffer p).answered p 0x10 tag .done .empty))

/-- CLOSE FEEDER: BAD_ARGUMENT for a body that names no feeder, NOT_READY for one not ready, the refusals of the Authority
Table, INTERLOCKED with the cause of the first failing check, each with nothing else changed; or ACCEPTED, the lease of the
feeder renewed, and the phase choice made: a live-line close, which makes protection ACTIVE from that instant, an unclaimed
test, CLAIM_CONFLICT or a claim. The bytes of
NOT_AUTHORISED and the attempts of that CLOSE RESULT are the model's (log 17, log 15). -/
def Obligations.CloseFeederIsCheckedThenBegun : Prop :=
  ∀ p tag body (s : State), s.offers p 0x11 tag body →
    ((∀ f : Feeder, body ≠ [BitVec.ofNat 8 f.val]) → exec (.closeFeeder p) s =
      .next ((s.dropBuffer p).answered p 0x11 tag (.refused .badArgument) .empty)) ∧
    ∀ f : Feeder, body = [BitVec.ofNat 8 f.val] →
      ((s.feeder f).ready = false → exec (.closeFeeder p) s =
        .next ((s.dropBuffer p).answered p 0x11 tag (.refused .notReady) .empty)) ∧
      ((s.feeder f).ready = true → RefusedByTheTable s p 0x11 tag (.feeder f) (.closeFeeder p)) ∧
      ∀ h, (s.feeder f).ready = true → ¬Excludes s.authority.location p → s.holding (.feeder f) = some h →
        h.holder = p →
        (∀ cause, s.closeCheck f false = some cause → exec (.closeFeeder p) s =
          .next ((s.dropBuffer p).answered p 0x11 tag (.refused (.interlocked cause)) .empty)) ∧
        (s.closeCheck f false = none → ∃ t, exec (.closeFeeder p) s = .next t ∧ OnlyFeeder s t f ∧
          Responds s t p 0x11 tag .accepted .empty ∧
          t.holding (.feeder f) = some { h with
            expiry := s.now + s.station.leaseTime * 100000, lease := s.station.leaseTime } ∧
          ChoosesPhase s t f (s.newClose (.port p)))

/-- RESET LOCKOUT by situation: its refusals in their order, and what it does for the holder of the feeder; a breaker found
CLOSED leads on to CLOSED, and protection becomes ACTIVE. -/
def Obligations.ResetLockoutBySituation : Prop :=
  ∀ p tag body (s : State), s.offers p 0x12 tag body →
    ((∀ f : Feeder, body ≠ [BitVec.ofNat 8 f.val]) → exec (.resetLockout p) s =
      .next ((s.dropBuffer p).answered p 0x12 tag (.refused .badArgument) .empty)) ∧
    ∀ f : Feeder, body = [BitVec.ofNat 8 f.val] →
      ((s.feeder f).ready = false → exec (.resetLockout p) s =
        .next ((s.dropBuffer p).answered p 0x12 tag (.refused .notReady) .empty)) ∧
      ((s.feeder f).ready = true → RefusedByTheTable s p 0x12 tag (.feeder f) (.resetLockout p)) ∧
      ∀ h, (s.feeder f).ready = true → ¬Excludes s.authority.location p → s.holding (.feeder f) = some h →
        h.holder = p →
        ((s.feeder f).state = .breakerFailed → exec (.resetLockout p) s =
          .next ((s.dropBuffer p).answered p 0x12 tag (.refused (.interlocked .breakerFailed)) .empty)) ∧
        ((s.feeder f).state ≠ .breakerFailed → (s.feeder f).state ≠ .lockedOut → exec (.resetLockout p) s =
          .next ((s.dropBuffer p).answered p 0x12 tag (.refused (.interlocked .state)) .empty)) ∧
        ((s.feeder f).state = .lockedOut → ∃ t, exec (.resetLockout p) s = .next t ∧ OnlyFeeder s t f ∧
          StateHandedOn s t f ∧
          Responds s t p 0x12 tag .done .empty ∧
          AddsEntry s t (fun e => e.kind = .lockoutReset ∧ e.subject = .feeder f ∧ e.origin = .port p) ∧
          (s.position f ≠ .closed → t.feeder f = s.openRecord f) ∧
          (s.position f = .closed → t.feeder f = { s.closedRecord f with attempts := 0 } ∧
            AddsEntry s t (fun e => e.kind = .closedUncommanded ∧ e.subject = .feeder f ∧ e.detail = .nothing)))

/-- The claim deadline in CLAIM_SENT: claim state IDLE, a TEST DONE posted on an UP far link, and the operation ends with
CLAIM_TIMEOUT. The close confirm limit ends the operation with CLOSE_FAILED, the feeder is OPEN, whatever its origin, and
protection INACTIVE; and a position CLOSED in CLOSING ends it with CLOSED_OK, and Fault Detection, ACTIVE since entry into
CLOSING, keeps all. That CLOSE RESULT carries the attempts left in the next state, 0
in OPEN, is the model's reading of two rules (log 15). -/
def Obligations.ClosesEndAtTheirDeadlinesOrConfirmed : Prop :=
  (∀ f (s : State) d, s.resetLine = false → (s.section' f).claim = .claimSent → (s.section' f).claimDeadline = some d →
    d ≤ s.now →
    ∃ t, exec (.claimDeadline f) s = .next t ∧ OnlyFeeder s t f ∧ t.ports = s.ports ∧ StateHandedOn s t f ∧
      (t.section' f).claim = .idle ∧ (t.section' f).claimDeadline = none ∧
      (∀ l, (s.config f).farLink = some l → (s.link l).state = .up →
        ∃ e ∈ (t.link l).pendingSet, e.signal = .testDone (s.config f).farFeeder) ∧
      (∀ op, (s.feeder f).operation = some op →
        t.feeder f = s.backRecord f op ∧
        AddsEntry s t (IsCloseResult s f op .claimTimeout (t.feeder f).attempts)) ∧
      ((s.feeder f).operation = none → t.feeder f = s.feeder f)) ∧
  ∀ f (s : State) op, s.resetLine = false → (s.feeder f).state = .closing → (s.feeder f).operation = some op →
    (∀ d, op.deadline = some d → d ≤ s.now →
      ∃ t, exec (.closeConfirmLimit f) s = .next t ∧ OnlyFeeder s t f ∧ t.ports = s.ports ∧
        t.feeder f = s.openRecord f ∧ StateHandedOn s t f ∧
        t.fault f = { s.fault f with
          active := false, outstanding := false, protectSince := none, history := [], previousIf := none, i0 := none,
          riseCounter := 0, lowCount := 0 } ∧
        AddsEntry s t (IsCloseResult s f op .closeFailed 0)) ∧
    ((s.input f).position ≠ none → (s.input f).position ≠ some .closed → (s.input f).reading = .closed →
      (s.input f).since + 400000 ≤ s.now →
      ∃ t, exec (.positionDebounceExpiry (.feeder f)) s = .next t ∧ t.feeder f = s.closedRecord f ∧
        StateHandedOn s t f ∧ t.fault f = s.fault f ∧
        AddsEntry s t (IsCloseResult s f op .closedOk (s.feeder f).attempts))

/-- A test's end is judged from the last frame values: HEALTHY with checks 6 and 7 passing leads into CLOSING, which makes
protection ACTIVE from that instant with an empty history and no request outstanding, a failed
one of them ends the operation INTERLOCKED, FAULTY ends it by origin, attempts and maximum, with a LOCKOUT entry where it
locks out, and an absent voltage ends it INTERLOCKED; a claimed test gives the claim back with
TEST DONE, and any other leaves the Section Record. With Uf and Ub both absent the
cause is MEASUREMENT_LOST, the model's choice (log 47). That CLOSE RESULT carries the attempts left in the next state, 0 in
OPEN, is the model's reading of two rules (log 15). -/
def Obligations.TestEndIsJudged : Prop :=
  ∀ f (s : State) op d, s.resetLine = false → (s.feeder f).state = .testing → (s.feeder f).operation = some op →
    op.deadline = some d → d ≤ s.now →
    ∃ t, exec (.testEnd f) s = .next t ∧ OnlyFeeder s t f ∧ t.ports = s.ports ∧ StateHandedOn s t f ∧
      (op.testMode = .claimed →
        t.section' f = { s.section' f with claim := .idle, claimDeadline := none } ∧
        ∀ l, (s.config f).farLink = some l → (s.link l).state = .up →
          ∃ e ∈ (t.link l).pendingSet, e.signal = .testDone (s.config f).farFeeder) ∧
      (op.testMode ≠ .claimed → t.section' f = s.section' f) ∧
      (s.sample.last.values.ufs.get f = none → t.feeder f = s.backRecord f op ∧
        AddsEntry s t (IsCloseResult s f op (.interlocked .measurementLost) (t.feeder f).attempts)) ∧
      (∀ u, s.sample.last.values.ufs.get f = some u → s.sample.last.values.ub = none →
        t.feeder f = s.openRecord f ∧ AddsEntry s t (IsCloseResult s f op (.interlocked .busDead) 0)) ∧
      ∀ u b, s.sample.last.values.ufs.get f = some u → s.sample.last.values.ub = some b →
        AddsEntry s t (fun e => e.kind = .lineTest ∧ e.subject = .feeder f ∧ e.origin = op.origin ∧
          e.detail = .lineTest (decide (((s.config f).healthy : Int) * b ≤ 100 * u)) op.testMode ∧
          (inField (some u) = true → e.value1 = some u) ∧ (inField (some b) = true → e.value2 = some b)) ∧
        (((s.config f).healthy : Int) * b ≤ 100 * u → s.lineMeasured f → s.busIsLive →
          t.feeder f = { s.feeder f with
            state := .closing, recloseDue := none, deferred := false, lockoutReason := none, reclaimWatch := none,
            operation := some { op with deadline := some (s.now + (s.config f).closeConfirm * 100000) },
            attempts := if op.origin = .auto then min ((s.feeder f).attempts + 1) 5 else (s.feeder f).attempts } ∧
          t.fault f = { s.fault f with
            active := true, outstanding := false, protectSince := some s.now, history := [], previousIf := none,
            i0 := none, riseCounter := 0, lowCount := 0 }) ∧
        (((s.config f).healthy : Int) * b ≤ 100 * u → ¬s.lineMeasured f →
          t.feeder f = s.backRecord f op ∧
          AddsEntry s t (IsCloseResult s f op (.interlocked .measurementLost) (t.feeder f).attempts)) ∧
        (((s.config f).healthy : Int) * b ≤ 100 * u → s.lineMeasured f → ¬s.busIsLive →
          t.feeder f = s.openRecord f ∧ AddsEntry s t (IsCloseResult s f op (.interlocked .busDead) 0)) ∧
        (¬((s.config f).healthy : Int) * b ≤ 100 * u → op.origin ≠ .auto →
          t.feeder f = s.openRecord f ∧ AddsEntry s t (IsCloseResult s f op .lineFaulty 0)) ∧
        (¬((s.config f).healthy : Int) * b ≤ 100 * u → op.origin = .auto →
          t.feeder f =
            (if min ((s.feeder f).attempts + 1) 5 < (s.config f).maxReclose
              then { s.waitRecord f with attempts := min ((s.feeder f).attempts + 1) 5 }
              else { s.lockedRecord f .attempts with attempts := min ((s.feeder f).attempts + 1) 5 }) ∧
          ((s.config f).maxReclose ≤ min ((s.feeder f).attempts + 1) 5 →
            AddsEntry s t fun e => e.kind = .lockout ∧ e.subject = .feeder f ∧ e.origin = .auto ∧
              e.detail = .lockout .attempts ∧ e.value1 = some ((min ((s.feeder f).attempts + 1) 5 : Nat) : Int)) ∧
          AddsEntry s t (IsCloseResult s f op .lineFaulty (min ((s.feeder f).attempts + 1) 5)))

/-- A reached reclose due: at the maximum attempts the feeder is locked out, or OPEN when none are allowed; a failed
check 8 defers the reclose, any other failed check restarts the delay, and passing checks begin an AUTO close with the
phase choice; each change of state is handed on. The reclaim time run in CLOSED: attempts 0, and a RECLAIMED entry with what they were when above 0. The
attempts of a CLOSE RESULT are those left in the next state (log 15). -/
def Obligations.RecloseAndReclaimAreJudged : Prop :=
  (∀ f (s : State) d, s.resetLine = false → (s.feeder f).state = .recloseWait → (s.feeder f).deferred = false →
    (s.feeder f).recloseDue = some d → d ≤ s.now →
    ∃ t, exec (.recloseDue f) s = .next t ∧ OnlyFeeder s t f ∧ t.ports = s.ports ∧ TakesReclose s t f) ∧
  ∀ f (s : State) d, s.resetLine = false → (s.feeder f).state = .closed → (s.feeder f).reclaimWatch = some d →
    d ≤ s.now →
    ((s.feeder f).attempts = 0 → exec (.reclaimWatchExpiry f) s =
      .next (s.modFeeder f fun r => { r with reclaimWatch := none })) ∧
    (0 < (s.feeder f).attempts → exec (.reclaimWatchExpiry f) s =
      .next ((s.modFeeder f fun r => { r with attempts := 0, reclaimWatch := none }).addEntry .reclaimed
        (.feeder f) .auto .nothing (some ((s.feeder f).attempts : Int))))

/-! ## Control authority (05) -/

/-- CLAIM by situation: BAD_ARGUMENT, WRONG_LOCATION, HELD_BY_OTHER naming the lowest failing item and its holder, each
with the table unchanged; or DONE, every item named held by the requester with a fresh lease, granted with an entry
where it had no holder, in the order F0 to F7 and then R, and renewed without one where the requester held it. How the table's
times are rounded (log 12) and that a lease run out has 0 left (log 50) are the model's. -/
def Obligations.ClaimBySituation : Prop :=
  ∀ p tag body (s : State), s.offers p 0x01 tag body →
    ((∀ n, ItemSet body n → 512 ≤ n) → ∃ b, IsTable s b ∧
      exec (.claim p) s = .next ((s.dropBuffer p).answered p 0x01 tag (.refused .badArgument) b)) ∧
    ∀ n, ItemSet body n → n < 512 →
      (n ≠ 0 → Excludes s.authority.location p → ∃ b, IsTable s b ∧
        exec (.claim p) s = .next ((s.dropBuffer p).answered p 0x01 tag (.refused .wrongLocation) b)) ∧
      (n = 0 ∨ ¬Excludes s.authority.location p →
        (∀ i h, n.testBit i.index.val = true → s.holding i = some h → h.holder ≠ p →
          (∀ j k, j.index.val < i.index.val → n.testBit j.index.val = true → s.holding j = some k → k.holder = p) →
          ∃ b, IsTable s b ∧ exec (.claim p) s =
            .next ((s.dropBuffer p).answered p 0x01 tag (.refused (.heldByOther i h.holder)) b)) ∧
        ((∀ i h, n.testBit i.index.val = true → s.holding i = some h → h.holder = p) →
          ∃ t b, exec (.claim p) s = .next t ∧ Responds s t p 0x01 tag .done b ∧ IsTable t b ∧ OnlyTable s t ∧
            (∀ i, n.testBit i.index.val = false → t.holding i = s.holding i) ∧
            (∀ i, n.testBit i.index.val = true → t.holding i = some
              { holder := p, expiry := s.now + s.station.leaseTime * 100000, lease := s.station.leaseTime,
                grantedAt := match s.holding i with
                  | some h => h.grantedAt
                  | none => s.now }) ∧
            (∀ i, n.testBit i.index.val = true → s.holding i = none → AddsEntry s t fun e =>
              e.kind = .authorityGranted ∧ e.subject = Item.subject i ∧ e.origin = .port p ∧ e.detail = .nothing ∧
                (s.station.leaseTime ≤ 10000 → e.value1 = some (s.station.leaseTime : Int)) ∧ e.value2 = none) ∧
            (∀ i j, n.testBit i.index.val = true → s.holding i = none → n.testBit j.index.val = true →
              s.holding j = none → i.index.val < j.index.val → AddsInOrder s t
                (fun e => e.kind = .authorityGranted ∧ e.subject = Item.subject i)
                (fun e => e.kind = .authorityGranted ∧ e.subject = Item.subject j)) ∧
            ((∀ i, n.testBit i.index.val = true → s.holding i ≠ none) → t.events = s.events)))

/-- RELEASE gives up the items named that the requester holds, each with an entry, and no other, and reports the table;
PORT RESET, by itself or as a frame received, empties the port, gives up all its items, and answers DONE, both in the order
F0 to F7 and then R; and a reached lease expiry frees its item. The table's times are those of log 12 and log 50. -/
def Obligations.ReleasePortResetAndExpiryGiveUp : Prop :=
  (∀ p tag body (s : State), s.offers p 0x02 tag body →
    ((∀ n, ItemSet body n → 512 ≤ n) → ∃ b, IsTable s b ∧
      exec (.release p) s = .next ((s.dropBuffer p).answered p 0x02 tag (.refused .badArgument) b)) ∧
    ∀ n, ItemSet body n → n < 512 →
      ∃ t b, exec (.release p) s = .next t ∧ Responds s t p 0x02 tag .done b ∧ IsTable t b ∧ OnlyTable s t ∧
        (∀ i h, n.testBit i.index.val = true → s.holding i = some h → h.holder = p → t.holding i = none ∧
          AddsEntry s t fun e => e.kind = .authorityReleased ∧ e.subject = Item.subject i ∧ e.origin = .port p ∧
            e.detail = .release false ∧ e.value2 = none ∧
            e.value1 = some ((min ((s.now - h.grantedAt) / 100000) 2147483647 : Nat) : Int)) ∧
        (∀ i j h k, n.testBit i.index.val = true → s.holding i = some h → h.holder = p →
          n.testBit j.index.val = true → s.holding j = some k → k.holder = p → i.index.val < j.index.val →
          AddsInOrder s t (fun e => e.kind = .authorityReleased ∧ e.subject = Item.subject i)
            (fun e => e.kind = .authorityReleased ∧ e.subject = Item.subject j)) ∧
        (∀ i, (∀ h, n.testBit i.index.val = true → s.holding i = some h → h.holder ≠ p) →
          t.holding i = s.holding i)) ∧
  (∀ i (s : State) h, s.resetLine = false → s.holding i = some h → h.expiry ≤ s.now →
    ∃ t, exec (.leaseExpiry i) s = .next t ∧ t.holding i = none ∧ (∀ j, j ≠ i → t.holding j = s.holding j) ∧
      OnlyTable s t ∧ t.ports = s.ports ∧
      t.events = (s.addEntry .authorityExpired (Item.subject i) (.port h.holder) .nothing
        (some ((min ((s.now - h.grantedAt) / 100000) 2147483647 : Nat) : Int)) (some (h.lease : Int))).events) ∧
  ∀ p tag (s : State) c, s.resetLine = false → (s.port p).selected = true →
    (c = .portReset p tag ∨
      ∃ bytes out body, c = .requestFrameReceived p ⟨bytes, out⟩ ∧ scan bytes = .frame 0x7E tag body true) →
    ∃ t, exec c s = .next t ∧ OnlyTable s t ∧ (∀ q, q ≠ p → t.port q = s.port q) ∧
      t.port p = { s.port p with
        buffers := [], overrun := false, sent := 0,
        responses :=
          [{ kind := 0x7E, tag := tag, status := .done, overrun := false, eventsWaiting := t.eventsWaiting p,
             segmentFresh := t.segmentFresh p, body := .empty }] } ∧
      (∀ i h, s.holding i = some h → h.holder = p → t.holding i = none ∧
        AddsEntry s t fun e => e.kind = .authorityReleased ∧ e.subject = Item.subject i ∧ e.origin = .port p ∧
          e.detail = .release true) ∧
      (∀ i j h k, s.holding i = some h → h.holder = p → s.holding j = some k → k.holder = p →
        i.index.val < j.index.val →
        AddsInOrder s t (fun e => e.kind = .authorityReleased ∧ e.subject = Item.subject i)
          (fun e => e.kind = .authorityReleased ∧ e.subject = Item.subject j)) ∧
      ∀ i, (∀ h, s.holding i = some h → h.holder ≠ p) → t.holding i = s.holding i

/-! ## Frames and requests at a master port (11) -/

/-- Selections and frames: select follows its line; a frame with a matching CRC enters a buffer as it reads, one without,
one with a length above 256 and one broken off by the end of the selection enter as bad; a response sent leaves the queue.
A frame command says how far the head response has been clocked out in the selection (log 45), and the next selection
sends it from its first byte. That a bad frame discarded with both buffers full counts into FRAMES_DISCARDED with overrun
and not into FRAMES_BAD is the model's reading (log 18). A PORT RESET frame is the statement above. -/
def Obligations.FramesEnterTheBuffers : Prop :=
  ∀ p bytes out (s : State), exec (.selectAsserted p) s = .next (s.modPort p fun x => { x with selected := true }) ∧
    (scan bytes ≠ .incomplete ∨ (s.port p).selected = false ∨ s.resetLine = true →
      exec (.selectDeasserted p bytes) s = .next (s.modPort p fun x => { x with selected := false, sent := 0 })) ∧
    (s.resetLine = false → (s.port p).selected = true →
      (scan bytes = .incomplete → ∃ y, Enters { s.port p with selected := false, sent := 0 } y .bad ∧
        exec (.selectDeasserted p bytes) s = .next (s.modPort p fun _ => y)) ∧
      (∀ kind tag body, scan bytes = .frame kind tag body true → kind ≠ 0x7E#8 →
        ∃ y, Enters ((s.port p).sentUpTo out) y (.good kind tag body) ∧
          exec (.requestFrameReceived p ⟨bytes, out⟩) s = .next (s.modPort p fun _ => y)) ∧
      (∀ kind tag body, scan bytes = .frame kind tag body false →
        ∃ y, Enters ((s.port p).sentUpTo out) y .bad ∧
          exec (.requestFrameReceived p ⟨bytes, out⟩) s = .next (s.modPort p fun _ => y)) ∧
      (scan bytes = .overLength → ∃ y, Enters ((s.port p).sentUpTo out) y .bad ∧
        exec (.frameLengthAbove256 p ⟨bytes, out⟩) s = .next (s.modPort p fun _ => y)) ∧
      exec (.responseSent p) s = .next (s.modPort p fun x => { x with responses := x.responses.tail, sent := 0 }))

/-- The oldest frame of a port with room for a response: a bad one is answered BAD_FRAME with kind 0 and tag 0, one whose
kind the catalogue has not BAD_KIND; and while the oldest frame is not of a request's kind, or there is no room, the
request's command changes nothing (log 1). -/
def Obligations.RequestsAreTakenInTheirTurn : Prop :=
  ∀ p (s : State), s.resetLine = false →
    ((s.port p).responses.length < 2 → (s.port p).buffers.head? = some .bad →
      exec (.badFrame p) s = .next ((s.dropBuffer p).answered p 0 0 (.refused .badFrame) .empty)) ∧
    (∀ kind tag body, s.offers p kind tag body → requestCommand p kind = none →
      exec (.badKind p) s = .next ((s.dropBuffer p).answered p kind tag (.refused .badKind) .empty)) ∧
    ∀ kind c, requestCommand p kind = some c → (∀ tag body, ¬s.offers p kind tag body) → exec c s = .next s

/-- The requests that report: each is answered DONE with what the records hold when it is taken, field by field, and changes
nothing but its own port's buffers and responses. That a feeder not ready is reported with its reading and its present contact
combination, of R24's "position input fields" and R38's "reading only" (log 48), that ages and remaining times are rounded down (log 12), that a
remaining time is 0 once its instant has passed (log 50), that a FREE buffer's header is filled with 0 (log 44), and that a body without a layout is the values it reports (log 10) is the model's
reading. -/
def Obligations.ReadsReportAndChangeNothing : Prop :=
  ∀ p tag (s : State),
    (∀ b, s.offers p 0x73 tag [0, b] → exec (.readSettings p) s = .next ((s.dropBuffer p).answered p 0x73 tag .done
      (.settings (.station s.settings.station) s.store.commit.isSome s.store.statusValid s.store.source
        s.store.changed))) ∧
    (∀ b, s.offers p 0x73 tag [1, b] → exec (.readSettings p) s = .next ((s.dropBuffer p).answered p 0x73 tag .done
      (.settings (.slotMap s.settings.slotMap) s.store.commit.isSome s.store.statusValid s.store.source
        s.store.changed))) ∧
    (∀ f : Feeder, s.offers p 0x73 tag [2, BitVec.ofNat 8 f.val] → exec (.readSettings p) s =
      .next ((s.dropBuffer p).answered p 0x73 tag .done
        (.settings (.feeder f (s.settings.feeders.get f)) s.store.commit.isSome s.store.statusValid s.store.source
          s.store.changed))) ∧
    (s.offers p 0x13 tag [0xFF] → exec (.readFeeders p) s = .next ((s.dropBuffer p).answered p 0x13 tag .done
      (.feeders (eight.map s.shownFeeder) s.key.location (s.shownRectifier).acPosition s.shownSample))) ∧
    (∀ f : Feeder, s.offers p 0x13 tag [BitVec.ofNat 8 f.val] → exec (.readFeeders p) s =
      .next ((s.dropBuffer p).answered p 0x13 tag .done
        (.feeders [s.shownFeeder f] s.key.location (s.shownRectifier).acPosition s.shownSample))) ∧
    (s.offers p 0x24 tag [] → exec (.readRectifier p) s =
      .next ((s.dropBuffer p).answered p 0x24 tag .done (.rectifier s.shownRectifier))) ∧
    (s.offers p 0x32 tag [] → exec (.readLinks p) s = .next ((s.dropBuffer p).answered p 0x32 tag .done
      (.links (s.shownLink p .link0) (s.shownLink p .link1)))) ∧
    (s.offers p 0x42 tag [] → exec (.readTime p) s =
      .next ((s.dropBuffer p).answered p 0x42 tag .done (.time s.shownTime))) ∧
    (s.offers p 0x57 tag [] → exec (.readRunners p) s =
      .next ((s.dropBuffer p).answered p 0x57 tag .done (.runners (s.shownRunner .runner0) (s.shownRunner .runner1)
        s.key.location s.headers []))) ∧
    (∀ a n : Byte, s.offers p 0x57 tag [a, n] → 1 ≤ n.toNat → n.toNat ≤ 8 → a.toNat + n.toNat ≤ 256 →
      exec (.readRunners p) s =
        .next ((s.dropBuffer p).answered p 0x57 tag .done (.runners (s.shownRunner .runner0) (s.shownRunner .runner1)
          s.key.location s.headers ((List.range n.toNat).map fun k => s.slots.get (Fin.ofNat 256 (a.toNat + k)))))) ∧
    (∀ (k : Fin 4) (o n : Byte), s.offers p 0x62 tag [BitVec.ofNat 8 k.val, o, n] → 1 ≤ n.toNat → n.toNat ≤ 32 →
      ∃ bytes, ShowsCapture k (s.captures.buffers.get k) o.toNat n.toNat bytes ∧
        exec (.readCapture p) s = .next ((s.dropBuffer p).answered p 0x62 tag .done (.capture bytes))) ∧
    (s.offers p 0x7F tag [] → exec (.identify p) s = .next ((s.dropBuffer p).answered p 0x7F tag .done (.identity
      { partCode := 0xCF08, revision := 1, port := p, stationNumber := s.settings.station.stationNumber,
        uptime := min ((s.now - s.startedAt) / 100000) 4294967295, restartCause := s.restartCause,
        source := s.store.source, framesBad := (s.port p).framesBad,
        framesDiscarded := (s.port p).framesDiscarded })))

/-! ## The Event Record and captures (10) -/

/-- An entry added takes next sequence, the present time and quality, and what the adding block gives; a full ring loses
its oldest entry, and a cursor that names it moves on, marked overrun with one more gap. A READ EVENTS returns the first
subscribed entries from the cursor on, at most the count asked for and at most nine; when it stops on its count the cursor
takes the number after the last one returned, else the newest plus one; it reports overrun and gap count and clears them.
SUBSCRIBE moves the subscription only. RELEASE CAPTURE frees a HELD buffer and refuses a FILLING one. -/
def Obligations.EntriesJoinTheRecordAndAreRead : Prop :=
  (∀ (s : State) k u o d v w c,
    ∃ e, e.sequence = s.events.nextSequence ∧ e.time = s.time.now ∧ e.quality = s.time.quality ∧ e.kind = k ∧
      e.subject = u ∧ e.origin = o ∧ e.detail = d ∧ e.capture = c ∧ (v = none → e.value1 = none) ∧
      (w = none → e.value2 = none) ∧
      (∀ x, v = some x → -2147483648 ≤ x → x ≤ 2147483647 → e.value1 = some x) ∧
      (∀ x, w = some x → -2147483648 ≤ x → x ≤ 2147483647 → e.value2 = some x) ∧
      ∃ r n, s.addEntry k u o d v w c = { s with events := r, choices := n } ∧
        r.nextSequence = (s.events.nextSequence + 1) % 4294967296 ∧
        (s.events.ring.length < 1024 → r.ring = s.events.ring ++ [e] ∧ r.cursors = s.events.cursors) ∧
        ∀ g rest, s.events.ring = g :: rest → 1024 ≤ s.events.ring.length → r.ring = rest ++ [e] ∧
          ∀ p : Port, r.cursors.get p.index =
            if (s.cursor p).next = g.sequence then
              { s.cursor p with
                next := (g.sequence + 1) % 4294967296, overrun := true, gap := min ((s.cursor p).gap + 1) 65535 }
            else s.cursor p) ∧
  ∀ p tag (s : State),
    (∀ n : Byte, s.offers p 0x60 tag [n] → (n.toNat < 1 ∨ 16 < n.toNat) → exec (.readEvents p) s =
      .next ((s.dropBuffer p).answered p 0x60 tag (.refused .badArgument) .empty)) ∧
    (∀ n : Byte, s.offers p 0x60 tag [n] → 1 ≤ n.toNat → n.toNat ≤ 16 → RecordSound s →
      let ahead := s.events.ring.drop (s.events.ring.length - seqDistance (s.cursor p).next s.events.nextSequence)
      let wanted := ahead.filter fun e => (s.cursor p).classes.get e.kind.class
      let given := wanted.take (min n.toNat 9)
      ∃ after, exec (.readEvents p) s = .next (((s.dropBuffer p).modCursor p fun c =>
          { c with next := after, overrun := false, gap := 0 }).answered p 0x60 tag .done
            (.events (s.cursor p).overrun (s.cursor p).gap given)) ∧
        (∀ e, min n.toNat 9 ≤ wanted.length → given.getLast? = some e → after = (e.sequence + 1) % 4294967296) ∧
        (wanted.length < min n.toNat 9 → after = s.events.nextSequence)) ∧
    (∀ m : Byte, s.offers p 0x61 tag [m] → ∃ x : File Bool 8, (∀ k : Fin 8, x.get k = m.toNat.testBit k.val) ∧
      exec (.subscribe p) s = .next (((s.dropBuffer p).modCursor p fun c => { c with classes := x }).answered p 0x61
        tag .done .empty)) ∧
    ∀ n : Fin 4, s.offers p 0x63 tag [BitVec.ofNat 8 n.val] →
      (s.captures.buffers.get n = none → exec (.releaseCapture p) s =
        .next ((s.dropBuffer p).answered p 0x63 tag .done .empty)) ∧
      ∀ c, s.captures.buffers.get n = some c →
        (c.held = true → exec (.releaseCapture p) s =
          .next (((s.dropBuffer p).setBuffer n none).answered p 0x63 tag .done .empty)) ∧
        (c.held = false → exec (.releaseCapture p) s =
          .next ((s.dropBuffer p).answered p 0x63 tag (.refused .busy) .empty))

/-! ## The rectifier (06) -/

/-- A crossing in UNLOCKED or ACQUIRING, judged by its measured period m and the period held: the whole clock record in
each case, and at the fourth accepted crossing LOCKED, SYNC LOCKED and, from SYNCING, entry into RUNNING. -/
def Obligations.CrossingsAcquire : Prop :=
  ∀ (s : State), s.resetLine = false →
    (s.clock.state = .unlocked →
      exec .zeroCrossing s = .next { s with clock := s.clockTaken .acquiring none 0 [] none }) ∧
    ∀ last m : Nat, s.clock.state = .acquiring → s.clock.lastCrossing = some last → m = (s.now - last) / 100 →
      (m < 18000 ∨ 22000 < m →
        exec .zeroCrossing s = .next { s with clock := s.clockTaken .acquiring none 0 [] none }) ∧
      (18000 ≤ m → m ≤ 22000 →
        (s.clock.period = none →
          exec .zeroCrossing s = .next { s with clock := s.clockTaken .acquiring (some m) 0 [] none }) ∧
        ∀ p, s.clock.period = some p →
          (100 < (m - p) + (p - m) →
            exec .zeroCrossing s = .next { s with clock := s.clockTaken .acquiring (some m) 0 [] none }) ∧
          ((m - p) + (p - m) ≤ 100 → s.clock.accepted + 1 < 4 → exec .zeroCrossing s =
            .next { s with clock := s.clockTaken .acquiring (some m) (s.clock.accepted + 1) [] none }) ∧
          ((m - p) + (p - m) ≤ 100 → s.clock.accepted + 1 = 4 →
            ∃ t, exec .zeroCrossing s = .next t ∧ OnlyRectifierInside s t ∧
              t.clock = s.clockTaken .locked (some m) 4 [] (some 0) ∧
              (AddsEntry s t fun e => e.kind = .syncLocked ∧ e.subject = .rectifier ∧ e.origin = .protection ∧
                e.value1 = some (m : Int)) ∧
              (s.rect.state = .syncing → EntersRunning s t s.rect) ∧
              (s.rect.state ≠ .syncing → t.rect = s.rect ∧ t.runners = s.runners)))

/-- A crossing in LOCKED: outside the window the clock is lost, two deviations above 4 ticks in a row are a slip, and
else the clock stays LOCKED and a cycle starts; and a watch run out makes it UNLOCKED. That a first-cycle mark not yet used
goes with the gates is the model's choice (log 42), and so is the rounding of the deviation (log 13). -/
def Obligations.CrossingsInLock : Prop :=
  ∀ (s : State), s.resetLine = false →
    (∀ last p m : Nat, s.clock.state = .locked → s.clock.lastCrossing = some last → s.clock.period = some p →
      m = (s.now - last) / 100 →
      (m < 18000 ∨ 22000 < m →
        ∃ t, exec .zeroCrossing s = .next t ∧ OnlyRectifierInside s t ∧
          t.clock = s.clockTaken .acquiring none 0 [] none ∧ TakesUnlocked s t .window ∧
          AddsEntry s t fun e => e.kind = .syncLost ∧ e.subject = .rectifier ∧ e.origin = .protection ∧
            e.detail = .syncLost .window ∧ e.value1 = some ((min m 2147483647 : Nat) : Int)) ∧
      ∀ d : Int, 18000 ≤ m → m ≤ 22000 → d = (((s.now : Int) - (last + 100 * p)) * 720).tdiv (100 * p) →
        (∀ d', s.clock.deviations.head? = some d' → 4 < d.natAbs → 4 < d'.natAbs →
          ∃ t, exec .zeroCrossing s = .next t ∧ OnlyRectifierInside s t ∧
            t.clock = s.clockTaken .acquiring (some m) 0 [] none ∧ TakesUnlocked s t .slip ∧
            AddsEntry s t fun e => e.kind = .syncSlip ∧ e.subject = .rectifier ∧ e.origin = .protection ∧
              (inField (some d) = true → e.value1 = some d) ∧ (inField (some d') = true → e.value2 = some d')) ∧
        ((∀ d', s.clock.deviations.head? = some d' → d.natAbs ≤ 4 ∨ d'.natAbs ≤ 4) →
          ∃ r, exec .zeroCrossing s = .next { s with
              rect := r, clock := s.clockTaken .locked (some m) s.clock.accepted
                ((d :: s.clock.deviations).take 2) (some 0) } ∧
            (s.rect.state = .running →
              r = { s.rect with
                applied := s.newAngle, firstCycle := false, ring := r.ring, gates := r.gates,
                cycle := some { offset := s.station.referenceOffset, alpha := s.newAngle } } ∧
              BeginsTick s.rect r r.cycle 0) ∧
            (s.rect.state ≠ .running →
              r = { s.rect with gates := r.gates } ∧ BeginsTick s.rect r none 0))) ∧
    ∀ w : Nat, s.clock.watch = some w → w ≤ s.now →
      ∃ t, exec .crossingWatchExpiry s = .next t ∧ OnlyRectifierInside s t ∧
        t.clock = { state := .unlocked, lastCrossing := none, lastCrossingTime := none, period := none, accepted := 0,
                    deviations := [], tick := none, watch := none } ∧
        (s.clock.state = .locked → TakesUnlocked s t .timeout) ∧ (s.clock.state ≠ .locked → t.rect = s.rect) ∧
        AddsEntry s t fun e => e.kind = .syncLost ∧ e.subject = .rectifier ∧ e.origin = .protection ∧
          e.detail = .syncLost .timeout ∧ e.value1 = none

/-- A tick ends after the period's 720th part, one us more in the first (period mod 720) ticks: the counter advances, each
pulse has one boundary less, and a step that falls at the tick pulses its pair. At 719 the counter holds. -/
def Obligations.TicksStepTheRing : Prop :=
  ∀ (s : State) (n p t0 : Nat), s.resetLine = false → s.clock.tick = some n → s.clock.period = some p →
    s.clock.lastCrossing = some t0 →
    (719 ≤ n → exec .tick s = .next s) ∧
    (n < 719 → s.now < t0 + ((n + 1) * (p / 720) + min (n + 1) (p % 720)) * 100 → exec .tick s = .next s) ∧
    (n < 719 → t0 + ((n + 1) * (p / 720) + min (n + 1) (p % 720)) * 100 ≤ s.now →
      ∃ r, exec .tick s = .next { s with clock := { s.clock with tick := some (n + 1) }, rect := r } ∧
        r = { s.rect with ring := r.ring, gates := r.gates } ∧ BeginsTick s.rect r s.rect.cycle (n + 1))

/-- The four rectifier requests, checked against the Authority Table and carried out for the holder of R: SET ALPHA, refused
BAD_ARGUMENT for an angle above 719 first, clamps the target; START is refused by its checks in order or begins an AC
close; STOP stops the gates and opens the AC breaker; RESET returns a tripped rectifier to BLOCKED. What is carried out
renews the lease of R. That STOP clears a first-cycle mark not yet used is the model's choice (log 42). -/
def Obligations.RectifierRequests : Prop :=
  ∀ p tag (s : State),
    (∀ kind c, s.offers p kind tag [] →
      (kind = 0x20#8 ∧ c = .startRectifier p ∨ kind = 0x21#8 ∧ c = .stopRectifier p ∨
        kind = 0x23#8 ∧ c = .resetRectifier p) → RefusedByTheTable s p kind tag .rectifier c) ∧
    (∀ hi lo : Byte, s.offers p 0x22 tag [hi, lo] →
      (719 < hi.toNat * 256 + lo.toNat → exec (.setAlpha p) s =
        .next ((s.dropBuffer p).answered p 0x22 tag (.refused .badArgument) .empty)) ∧
      (hi.toNat * 256 + lo.toNat ≤ 719 → RefusedByTheTable s p 0x22 tag .rectifier (.setAlpha p))) ∧
    ∀ h, ¬Excludes s.authority.location p → s.holding .rectifier = some h → h.holder = p →
      (∀ hi lo : Byte, s.offers p 0x22 tag [hi, lo] → hi.toNat * 256 + lo.toNat ≤ 719 →
        ∃ t, exec (.setAlpha p) s = .next t ∧ OnlyRectifier s t ∧
          Responds s t p 0x22 tag .done .empty ∧ RenewsRectifier s t h ∧ t.events = s.events ∧
          t.rect = { s.rect with
            target := max s.station.alphaMin (min s.station.alphaMax (hi.toNat * 256 + lo.toNat)) }) ∧
      (s.offers p 0x20 tag [] →
        (s.rect.state ≠ .blocked ∨ s.rect.acOperation ≠ none → exec (.startRectifier p) s =
          .next ((s.dropBuffer p).answered p 0x20 tag (.refused (.interlocked .state)) .empty)) ∧
        (s.rect.state = .blocked → s.rect.acOperation = none →
          (s.someFailed → exec (.startRectifier p) s =
            .next ((s.dropBuffer p).answered p 0x20 tag (.refused (.interlocked .breakerFailed)) .empty)) ∧
          (¬s.someFailed → s.acPosition = .invalid → exec (.startRectifier p) s =
            .next ((s.dropBuffer p).answered p 0x20 tag (.refused (.interlocked .positionInvalid)) .empty)) ∧
          (¬s.someFailed → s.acPosition = .closed → exec (.startRectifier p) s =
            .next ((s.dropBuffer p).answered p 0x20 tag (.refused (.interlocked .state)) .empty)) ∧
          (¬s.someFailed → s.acPosition = .opened → ∃ t, exec (.startRectifier p) s = .next t ∧ OnlyRectifier s t ∧
            Responds s t p 0x20 tag .accepted .empty ∧ RenewsRectifier s t h ∧
            t.rect = { s.rect with
              state := .connecting, runOrigin := .port p,
              acOperation := some
                { kind := .close, origin := .port p, startAt := s.now, deadline := s.now + 20000000,
                  overdue := false } } ∧
            AddsEntry s t fun e => e.kind = .rectifierStart ∧ e.subject = .rectifier ∧ e.origin = .port p ∧
              (s.rect.target ≤ 719 → e.value1 = some (s.rect.target : Int))))) ∧
      (s.offers p 0x21 tag [] →
        (s.rect.state = .connecting ∨ s.rect.state = .syncing ∨ s.rect.state = .running →
          ∃ t, exec (.stopRectifier p) s = .next t ∧ OnlyRectifier s t ∧ Responds s t p 0x21 tag .done .empty ∧
            RenewsRectifier s t h ∧
            t.rect = { s.rect.quiet with
              state := .blocked, applied := s.station.alphaMax, acOperation := s.acOpening (.port p) } ∧
            AddsEntry s t fun e => e.kind = .rectifierStopped ∧ e.subject = .rectifier ∧ e.origin = .port p ∧
              e.value1 = some (s.rect.state.code : Int)) ∧
        (s.rect.state = .blocked ∨ s.rect.state = .tripped →
          (s.rect.acOperation = none → s.acPosition ≠ .opened →
            ∃ t, exec (.stopRectifier p) s = .next t ∧ OnlyRectifier s t ∧ Responds s t p 0x21 tag .done .empty ∧
              RenewsRectifier s t h ∧ t.rect = { s.rect with acOperation := s.acOpening (.port p) } ∧
              AddsEntry s t fun e => e.kind = .rectifierStopped ∧ e.subject = .rectifier ∧ e.origin = .port p ∧
                e.value1 = some (s.rect.state.code : Int)) ∧
          (s.rect.acOperation ≠ none ∨ s.acPosition = .opened →
            ∃ t, exec (.stopRectifier p) s = .next t ∧ OnlyRectifier s t ∧ Responds s t p 0x21 tag .done .empty ∧
              RenewsRectifier s t h ∧ t.rect = s.rect ∧ t.events = s.events))) ∧
      (s.offers p 0x23 tag [] →
        (s.rect.state ≠ .tripped → exec (.resetRectifier p) s =
          .next ((s.dropBuffer p).answered p 0x23 tag (.refused (.interlocked .state)) .empty)) ∧
        (s.rect.state = .tripped →
          (s.someFailed → exec (.resetRectifier p) s =
            .next ((s.dropBuffer p).answered p 0x23 tag (.refused (.interlocked .breakerFailed)) .empty)) ∧
          (¬s.someFailed → s.acPosition = .invalid → exec (.resetRectifier p) s =
            .next ((s.dropBuffer p).answered p 0x23 tag (.refused (.interlocked .positionInvalid)) .empty)) ∧
          (¬s.someFailed → s.acPosition = .closed ∨ s.acPosition = .opened ∧ s.rect.acOperation ≠ none →
            exec (.resetRectifier p) s =
              .next ((s.dropBuffer p).answered p 0x23 tag (.refused (.interlocked .state)) .empty)) ∧
          (¬s.someFailed → s.acPosition = .opened → s.rect.acOperation = none →
            ∃ t, exec (.resetRectifier p) s = .next t ∧ OnlyRectifier s t ∧ Responds s t p 0x23 tag .done .empty ∧
              RenewsRectifier s t h ∧ t.rect = { s.rect with state := .blocked } ∧
              AddsEntry s t fun e => e.kind = .rectifierReset ∧ e.subject = .rectifier ∧ e.origin = .port p)))

/-- The AC breaker and the holds. A position CLOSED that an AC close awaits leads to SYNCING, and to RUNNING when the Line
Clock is LOCKED; a position OPEN that an opening awaits ends it, with AC OPENED; both also by the first position after
reset. OPEN in CONNECTING, SYNCING or RUNNING is AC OPENED UNCOMMANDED into BLOCKED; CLOSED in BLOCKED or TRIPPED, or
while an opening awaits OPEN (log 39), is AC CLOSED UNCOMMANDED with the state kept; INVALID, OPEN in BLOCKED or TRIPPED
with no operation, and a first position that nothing awaits, OPEN during a close and CLOSED during an opening among them,
change nothing. A close that runs out leads to BLOCKED; an
opening that runs out is marked overdue; and an overvoltage hold is released after 20 ms below Urel. Each adds its entry.
That a first-cycle mark not yet used is cleared with the gates is the model's choice (log 42). -/
def Obligations.AcBreakerAndHolds : Prop :=
  ∀ (s : State), s.resetLine = false →
    (∀ x, x = s.acInput.reading → s.acInput.position ≠ some x → s.acInput.since + 400000 ≤ s.now →
      ∃ t, exec (.positionDebounceExpiry .ac) s = .next t ∧ OnlyRectifierInside s t ∧
        (∀ op, s.rect.acOperation = some op → op.kind = .close → x = .closed →
          (AddsEntry s t fun e => e.kind = .acClosed ∧ e.subject = .rectifier ∧ e.origin = .protection ∧
            ((s.now - op.startAt) / 100000 < 2147483648 →
              e.value1 = some (((s.now - op.startAt) / 100000 : Nat) : Int))) ∧
          (s.clock.state = .locked → EntersRunning s t { s.rect with acOperation := none, state := .syncing }) ∧
          (s.clock.state ≠ .locked → t.rect = { s.rect with acOperation := none, state := .syncing })) ∧
        (∀ op, s.rect.acOperation = some op → op.kind = .opening → x = .opened →
          t.rect = { s.rect with acOperation := none } ∧
          AddsEntry s t fun e => e.kind = .acOpened ∧ e.subject = .rectifier ∧ e.origin = op.origin ∧
            ((s.now - op.startAt) / 100000 < 2147483648 →
              e.value1 = some (((s.now - op.startAt) / 100000 : Nat) : Int))) ∧
        (s.acInput.position ≠ none → x = .opened →
          (∃ op, s.rect.acOperation = some op ∧ op.kind = .close) ∨ (s.rect.acOperation = none ∧
            (s.rect.state = .connecting ∨ s.rect.state = .syncing ∨ s.rect.state = .running)) →
          t.rect = { s.rect.quiet with state := .blocked, applied := s.station.alphaMax, acOperation := none } ∧
          AddsEntry s t fun e => e.kind = .acOpenedUncommanded ∧ e.subject = .rectifier ∧ e.origin = .protection ∧
            (inField s.sample.last.values.ir = true → e.value1 = s.sample.last.values.ir)) ∧
        (s.acInput.position ≠ none → x = .closed →
          (∃ op, s.rect.acOperation = some op ∧ op.kind = .opening) ∨ (s.rect.acOperation = none ∧
            (s.rect.state = .blocked ∨ s.rect.state = .tripped)) →
          t.rect = s.rect ∧
          AddsEntry s t fun e => e.kind = .acClosedUncommanded ∧ e.subject = .rectifier ∧ e.origin = .protection ∧
            e.detail = .rectState s.rect.state) ∧
        (x = .invalid ∨ (s.acInput.position = none ∧ ∀ op, s.rect.acOperation = some op →
              (op.kind = .close ∧ x = .opened) ∨ (op.kind = .opening ∧ x = .closed)) ∨ (s.rect.acOperation = none ∧
            ((x = .opened ∧ (s.rect.state = .blocked ∨ s.rect.state = .tripped)) ∨
              (x = .closed ∧ (s.rect.state = .syncing ∨ s.rect.state = .running)))) →
          t.rect = s.rect ∧ (s.acInput.reported = false → t.events = s.events))) ∧
    (∀ op, s.rect.acOperation = some op → op.kind = .close → op.overdue = false → op.deadline ≤ s.now →
      ∃ t, exec .acCloseDeadline s = .next t ∧ OnlyRectifierInside s t ∧
        t.rect = { s.rect.quiet with state := .blocked, applied := s.station.alphaMax, acOperation := none } ∧
        AddsEntry s t fun e => e.kind = .acCloseFailed ∧ e.subject = .rectifier ∧ e.origin = .protection ∧
          e.value1 = some 200 ∧ e.value2 = some (s.acPosition.code : Int)) ∧
    (∀ op, s.rect.acOperation = some op → op.kind = .opening → op.overdue = false → op.deadline ≤ s.now →
      exec .acOpenDeadline s = .next (State.addEntry
        { s with rect := { s.rect with acOperation := some { op with overdue := true } } } .acBreakerFailed .rectifier
        op.origin .nothing (some 200) (some (s.acPosition.code : Int)))) ∧
    ∀ t0 r, s.rect.overvoltageHold = some t0 → s.rect.releaseSince = some r → r + 2000000 ≤ s.now →
      exec .overvoltageRelease s = .next (State.addEntry
        { s with rect := { s.rect with overvoltageHold := none, releaseSince := none } } .overvoltageRelease .rectifier
        .protection .nothing (some (((s.now - t0) / 100000 : Nat) : Int)))

/-! ## Section links (07) -/

/-- Link states move on words and light: every row of the state table, with LINK UP and LINK DOWN, and what becomes of each
feeder whose far link leaves UP, its group in use, Fault Detection's copy of that and its claim included, and of the
quality of a follower of the link, which takes INVALID with TIME QUALITY where that changes it. That up since and good run stand when a link leaves UP is the model's
reading (log 40), and so are that a window past its eighth word closes with the next word (log 24) and the attempts of a
CLOSE RESULT (log 15). -/
def Obligations.WordsAndLightMoveTheLink : Prop :=
  ∀ l (s : State), s.resetLine = false →
    exec (.lightPresentChange l true) s = .next (s.modLink l fun k => { k with light := true }) ∧
    ((s.link l).state = .down → exec (.lightPresentChange l false) s =
      .next (s.modLink l fun k => { k with light := false })) ∧
    ((s.link l).state = .aligning → exec (.lightPresentChange l false) s =
      .next (s.modLink l fun k => { k with
        light := false, state := .down,
        counters := { k.counters with alignFail := min (k.counters.alignFail + 1) 65535 } })) ∧
    ((s.link l).state = .up → ∃ t, exec (.lightPresentChange l false) s = .next t ∧
      FallsFrom s t l { s.link l with light := false } .noLight) ∧
    ∀ w, ((s.link l).light = false → exec (.linkWord l w) s = .next s) ∧
      ((s.link l).light = true → goodSignal w = none →
        ((s.link l).state = .down → exec (.linkWord l w) s = .next s) ∧
        ((s.link l).state = .aligning → (s.link l).badRun + 1 < 8 → exec (.linkWord l w) s =
          .next (s.modLink l fun k => { k with
            goodRun := 0, badRun := k.badRun + 1,
            counters := { k.counters with badWord := min (k.counters.badWord + 1) 65535 } })) ∧
        ((s.link l).state = .aligning → 8 ≤ (s.link l).badRun + 1 → exec (.linkWord l w) s =
          .next (s.modLink l fun k => { k with
            state := .down, goodRun := 0, badRun := k.badRun + 1,
            counters := { k.counters with
              badWord := min (k.counters.badWord + 1) 65535,
              alignFail := min (k.counters.alignFail + 1) 65535 } })) ∧
        ((s.link l).state = .up → (s.link l).assembly = .idle → (s.link l).badRun + 1 < 8 →
          exec (.linkWord l w) s = .next (s.modLink l fun k => SectionLink.aged { k with
            badRun := k.badRun + 1,
            counters := { k.counters with badWord := min (k.counters.badWord + 1) 65535 } })) ∧
        ((s.link l).state = .up → 8 ≤ (s.link l).badRun + 1 → ∃ t, exec (.linkWord l w) s = .next t ∧
          FallsFrom s t l (SectionLink.aged { s.link l with
            badRun := (s.link l).badRun + 1,
            counters := { (s.link l).counters with
              badWord := min ((s.link l).counters.badWord + 1) 65535 } }) .badWords)) ∧
      ∀ g, (s.link l).light = true → goodSignal w = some g →
        ((s.link l).state = .down → exec (.linkWord l w) s =
          .next (s.modLink l fun k => { k with state := .aligning, goodRun := 1, badRun := 0 })) ∧
        ((s.link l).state = .aligning → (s.link l).goodRun + 1 < 64 → exec (.linkWord l w) s =
          .next (s.modLink l fun k => { k with goodRun := k.goodRun + 1, badRun := 0 })) ∧
        ((s.link l).state = .aligning → (s.link l).goodRun + 1 = 64 → exec (.linkWord l w) s =
          .next ((s.modLink l fun k => { k with
            state := .up, goodRun := 64, badRun := 0, upSince := some s.now, conflictReported := false,
            queued := File.fill 16 true, beaconFrom := some s.now, refreshFrom := some s.now }).addEntry .linkUp
              (.link l) (.link l)))

/-- A transfer trip acts at its second copy within eight words: the first opens the window, the second trips a feeder in
CLOSED or CLOSING whose far link this is with cause TRANSFER, aborts a claim or a test, adds TT IGNORED in any other state
and for a feeder not ready, or adds TT MISADDRESSED where this is not the far link, and a copy in a window that has acted
does nothing more. A word with no signal only ages the windows, and a BEACON is answered by an echo. A word that carries data
of a segment beside its signal has the effects of both. The model's readings here: a word ages the windows before its own
signal (log 24); a signal and the segment that the same word completes act in either order (log 3); the far link is looked
at before readiness (log 19); TT IGNORED of a feeder not ready has no detail (log 16); CLOSE RESULT carries the attempts
left in the next state (log 15). -/
def Obligations.TransferTripActsAtItsSecondCopy : Prop :=
  ∀ l w (s : State) (g : Feeder),
    (s.hears l w .nothing → exec (.linkWord l w) s = .next (s.heardOn l)) ∧
    (∀ late, s.hears l w (.signal .beacon late) → exec (.linkWord l w) s =
      .next ((s.heardOn l).modLink l fun k => k.taking .beaconEcho 1 (some s.now))) ∧
    (∀ late, s.takesWord l w (.signal .beacon late) → ∃ t, exec (.linkWord l w) s = .next t ∧
      InTurn l (fun u v => v = u.modLink l fun k => k.taking .beaconEcho 1 (some s.now))
        (fun u v => DataActs u v l w.data) (s.heardOn l) t) ∧
    (∀ late, s.hears l w (.signal (.transferTrip g) late) →
      ∃ t, exec (.linkWord l w) s = .next t ∧ CopyActs (s.heardOn l) t l g) ∧
    ∀ late, s.takesWord l w (.signal (.transferTrip g) late) → ∃ t, exec (.linkWord l w) s = .next t ∧
      InTurn l (fun u v => CopyActs u v l g) (fun u v => DataActs u v l w.data) (s.heardOn l) t

/-- A word every 100 ns: NONE and IDLE while the link is not UP; else the signal of highest rank among those that may go,
and the next data of the transfer, or the start of the lowest segment queued, or IDLE. Only the link changes.
The due word of a mark or an echo is held as an instant (log 23), and one posted at the instant of a word already gone is
not LATE for that word (log 52): the model's. -/
def Obligations.TransmitterSendsAWord : Prop :=
  ∀ l (s : State), s.resetLine = false → (s.link l).nextWord ≤ s.now →
    ((s.link l).state ≠ .up → exec (.linkWordTransmit l) s = .next (s.modLink l fun k =>
      { k with nextWord := k.nextWord + 10, lastWord := { code := 0, data := .idle } })) ∧
    ((s.link l).state = .up → ∃ k, exec (.linkWordTransmit l) s = .next (s.modLink l fun _ => k) ∧
      k = { s.link l with
        nextWord := (s.link l).nextWord + 10, lastWord := k.lastWord, pendingSet := k.pendingSet,
        beaconOutstanding := k.beaconOutstanding, queued := k.queued, transfer := k.transfer } ∧
      ((∀ e ∈ (s.link l).pendingSet, e.candidate (s.link l).nextWord = false) →
        k.lastWord.code = 0 ∧ k.pendingSet = (s.link l).pendingSet ∧
          k.beaconOutstanding = (s.link l).beaconOutstanding) ∧
      (∀ e ∈ (s.link l).pendingSet, e.candidate (s.link l).nextWord = true →
        (∀ x ∈ (s.link l).pendingSet, x.candidate (s.link l).nextWord = true →
          x = e ∨ e.signal.rank < x.signal.rank) →
        k.lastWord.code = e.signal.codeOut e.late ∧
        (e.signal = .beacon → k.beaconOutstanding = some (s.link l).nextWord) ∧
        (e.signal ≠ .beacon → k.beaconOutstanding = (s.link l).beaconOutstanding) ∧
        (1 < e.repeats → { e with repeats := e.repeats - 1 } ∈ k.pendingSet) ∧
        (e.repeats ≤ 1 → (∀ x ∈ (s.link l).pendingSet, x.signal = e.signal → x = e) →
          ∀ x ∈ k.pendingSet, x.signal ≠ e.signal) ∧
        ∀ x ∈ (s.link l).pendingSet, x.signal ≠ e.signal →
          (x.due ≠ none → x.candidate (s.link l).nextWord = true → { x with late := true } ∈ k.pendingSet) ∧
          (x.due = none ∨ x.candidate (s.link l).nextWord = false → x ∈ k.pendingSet)) ∧
      (∀ x, (s.link l).transfer = some x → k.lastWord.data = x.slot ∧ k.queued = (s.link l).queued ∧
        k.transfer = if x.sent + 1 < 21 then some { x with sent := x.sent + 1 } else none) ∧
      ((s.link l).transfer = none → (∀ n, (s.link l).queued.get n = false) →
        k.lastWord.data = .idle ∧ k.queued = (s.link l).queued ∧ k.transfer = none) ∧
      ∀ n, (s.link l).transfer = none → (s.link l).queued.get n = true →
        (∀ m, m < n → (s.link l).queued.get m = false) →
        k.lastWord.data = .segStart ∧ k.queued = (s.link l).queued.set n false ∧
          k.transfer = some (s.firstTransfer l n))

/-- What a link's timers do: an acceptance window closes after its eighth word, a BEACON is posted every 1 ms, a beacon
without an echo for 655.35 us is forgotten, segments 0 to 8 are queued every 10 ms, and a grant held for 2 s ends, and
with it what waited for that: a second phase choice or a deferred reclose. That a window closes before a ninth word is the
model's reading (log 24), and so are the attempts of a CLOSE RESULT (log 15). -/
def Obligations.LinkTimersAct : Prop :=
  ∀ l (s : State), s.resetLine = false →
    (∀ f x, (s.link l).windows.get f = some x →
      (8 ≤ x.words → exec (.acceptanceWindowClose l f) s =
        .next (s.modLink l fun k => { k with windows := k.windows.set f none })) ∧
      (x.words < 8 → exec (.acceptanceWindowClose l f) s = .next s)) ∧
    (∀ t0 : Nat, (s.link l).state = .up → (s.link l).beaconFrom = some t0 → t0 + 100000 ≤ s.now →
      exec (.beaconPeriod l) s = .next (s.modLink l fun k => { k.taking .beacon 1 none with
        beaconFrom := some (t0 + 100000) })) ∧
    (∀ t0 : Nat, (s.link l).beaconOutstanding = some t0 → t0 + 65535 ≤ s.now →
      exec (.beaconTimeout l) s = .next (s.modLink l fun k => { k with beaconOutstanding := none })) ∧
    (∀ t0 : Nat, (s.link l).state = .up → (s.link l).refreshFrom = some t0 → t0 + 1000000 ≤ s.now →
      ∃ q, exec (.segmentRefresh l) s = .next (s.modLink l fun k =>
          { k with queued := q, refreshFrom := some (t0 + 1000000) }) ∧
        ∀ n : Fin 16, q.get n = (decide (n.val ≤ 8) || (s.link l).queued.get n)) ∧
    ∀ f (d : Nat), (s.section' f).claim = .grantedToFar → (s.section' f).claimDeadline = some d → d ≤ s.now →
      (s.config f).farLink = some l →
      ∃ t, exec (.grantExpired f) s = .next t ∧ OnlyFeeder s t f ∧ t.ports = s.ports ∧ t.authority = s.authority ∧
        (AddsEntry s t fun e => e.kind = .grantExpired ∧ e.subject = .feeder f ∧ e.origin = .link l ∧
          e.value1 = some 2000) ∧
        GrantEnds s t f

/-- A BEACON ECHO with a beacon outstanding gives a measurement: alone in INVALID, taken into the list within 4 units of
the average in INITIAL and LOCKED, alone again beyond them; 16 in agreement lock with DELAY LOCKED, and one off restarts
with DELAY RESTART. A change of status queues the System segment and goes to the Time Base, where a follower of the link at
COARSE or FINE takes the quality that belongs to it, with TIME QUALITY where that changes. A LATE echo, and one with no
beacon outstanding, only clears beacon outstanding. Only the link, the Time Base and the record of events change, and what
the data of the same word changes. A word ages the windows before its own signal (log 24), and a signal and the segment that
the same word completes act in either order (log 3): the model's readings. -/
def Obligations.EchoesMeasureTheLoop : Prop :=
  ∀ l w (s : State) late,
    (s.hears l w (.signal .beaconEcho late) → ∃ t, exec (.linkWord l w) s = .next t ∧
      EchoActs (s.heardOn l) t l late) ∧
    (s.takesWord l w (.signal .beaconEcho late) → ∃ t, exec (.linkWord l w) s = .next t ∧
      InTurn l (fun u v => EchoActs u v l late) (fun u v => DataActs u v l w.data) (s.heardOn l) t)

/-- WRITE SEGMENT stores the bytes with their writer and queues the segment while the link is UP; READ SEGMENT reports a
segment of either direction and clears the reader's own fresh flag. Nothing else changes. -/
def Obligations.SegmentsAreWrittenAndRead : Prop :=
  ∀ p tag l (s : State),
    (∀ (n : Fin 7) (bytes : File Byte 16),
      s.offers p 0x30 tag (BitVec.ofNat 8 l.index.val :: BitVec.ofNat 8 (n.val + 9) :: bytes.cells) →
      exec (.writeSegment p) s = .next (((s.dropBuffer p).modLink l fun k => { k with
        outgoing := k.outgoing.set n { bytes := bytes, writer := some p },
        queued := if k.state = .up then k.queued.set (writtenSegment n) true else k.queued }).answered p 0x30 tag
          .done .empty)) ∧
    ∀ n : Fin 16,
      (s.offers p 0x31 tag [BitVec.ofNat 8 l.index.val, BitVec.ofNat 8 n.val, 1] → exec (.readSegment p) s =
        .next ((s.dropBuffer p).answered p 0x31 tag .done (.outSegment (s.outgoingBytes l n) (s.writerOf l n)))) ∧
      (s.offers p 0x31 tag [BitVec.ofNat 8 l.index.val, BitVec.ofNat 8 n.val, 0] → exec (.readSegment p) s =
        .next (((s.dropBuffer p).modLink l fun k => { k with
          incoming := k.incoming.set n { k.incoming.get n with
            fresh := (k.incoming.get n).fresh.set p.index false } }).answered p 0x31 tag .done
          (.inSegment ((s.link l).incoming.get n).bytes
            (((s.link l).incoming.get n).arrival.map fun a => (a.1, (s.now - a.2) / 100000)))))

/-! ## Station time (08) -/

/-- Station time: the second boundary and its marks, the slew step, SET TIME with its refusals, and TIME RESTART. The
model's readings: a rise that passes a boundary waits for the boundary's command, and a slew that ends while its step is
due leaves that count a rise of 1 (log 2); the change that TIME SET carries is rounded toward zero (log 12);
a SET TIME before the command of a boundary reached at its instant drops that boundary and its mark (log 53). -/
def Obligations.TimeIsCountedSlewedAndSet : Prop :=
  (∀ s : State, s.resetLine = false →
    (∀ n : Nat, s.time.boundary = some n → ∃ t, exec .secondBoundary s = .next t ∧
      t = { s with
        time := { s.time with
          now := { seconds := s.time.now.seconds + 1, fraction := n }, boundary := none,
          nextMark := s.time.now.seconds + 2 },
        links := t.links } ∧
      ∀ l, t.link l =
        if (s.link l).state = .up then (s.link l).taking .secondMark 1 (some s.now) else s.link l) ∧
    ∀ (k : Int) x, s.time.slew = some k → k ≠ 0 → 2000 ≤ s.time.slewCount →
      x = { s.time with
        slew := if k.natAbs = 1 then none else some (if 0 < k then k - 1 else k + 1), slewCount := 0 } →
      (0 < k → s.time.now.fraction < 100000000 → exec .slewStep s = .next { s with time := x }) ∧
      (k < 0 → s.time.now.fraction + 2 < 100000000 → exec .slewStep s = .next { s with
        time := { x with now := { s.time.now with fraction := s.time.now.fraction + 2 } } }) ∧
      (k < 0 → 100000000 ≤ s.time.now.fraction + 2 → s.time.now.seconds ≠ 4294967295 →
        exec .slewStep s = .next { s with
          time := { x with
            now := { s.time.now with fraction := 99999999 },
            boundary := some (s.time.now.fraction + 2 - 100000000) } }) ∧
      (k < 0 → 100000000 ≤ s.time.now.fraction + 2 → s.time.now.seconds = 4294967295 →
        exec .slewStep s = .next { s with
          time := { x with now := { s.time.now with fraction := 99999999 } } })) ∧
  ∀ p tag (s : State),
    (∀ a b c d e f g h v, s.offers p 0x40 tag [a, b, c, d, e, f, g, h] → v.seconds = be32 a b c d →
      v.fraction = be32 e f g h →
      (99999999 < v.fraction → exec (.setTime p) s =
        .next ((s.dropBuffer p).answered p 0x40 tag (.refused .badArgument) .empty)) ∧
      (v.fraction ≤ 99999999 → s.station.timeRole ≠ .master → exec (.setTime p) s =
        .next ((s.dropBuffer p).answered p 0x40 tag (.refused (.interlocked .state)) .empty)) ∧
      (v.fraction ≤ 99999999 → s.station.timeRole = .master → v.units < s.time.now.units →
        s.time.quality ≠ .unset → exec (.setTime p) s =
          .next ((s.dropBuffer p).answered p 0x40 tag (.refused .timeBackwards) .empty)) ∧
      (v.fraction ≤ 99999999 → s.station.timeRole = .master →
        (s.time.now.units ≤ v.units ∨ s.time.quality = .unset) → ∃ x : State,
          exec (.setTime p) s = .next (({ s.dropBuffer p with
            time := { s.time with
              now := v, boundary := none, nextMark := v.seconds + 1, slew := none, slewCount := 0,
              quality := .free },
            links := x.links }.addEntry .timeSet .nothing (.port p) .nothing (some (s.time.now.seconds : Int))
              (some (max (-2147483647) (min (((v.units : Int) - s.time.now.units).tdiv 100000) 2147483647)))
            ).answered p 0x40 tag .done .empty) ∧
          (s.time.quality = .free → x.links = s.links) ∧ (s.time.quality ≠ .free → QueuesSystem s x))) ∧
    (s.offers p 0x41 tag [] → ∃ x : State, exec (.timeRestart p) s = .next (({ s.dropBuffer p with
        time := { s.time.slewOver with quality := .unset, follow := .following },
        links := x.links }.addEntry .timeRestart .nothing (.port p) (.quality s.time.quality)).answered p 0x41 tag
          .done .empty) ∧
      (s.time.quality = .unset → s.time.follow = .following → x.links = s.links) ∧
      (s.time.quality ≠ .unset ∨ s.time.follow ≠ .following → QueuesSystem s x))

/-- A second mark received: on a link that is not followed it changes nothing but the link; unused, it is recorded with
the first failing reason and counted; taken, it steps, slews, stands or enters CONFLICT by its offset and by quality.
Only the Time Base, the links and the record change, and what the data of the same word changes. The model's readings: the
offset that TIME STEP and TIME CONFLICT carry is rounded toward zero (log 12); a slew that ends while its step is due
leaves that count a rise of 1 (log 2); a step before the command of a boundary reached at its instant drops that boundary
(log 53); a word ages the windows before its own signal (log 24); and a mark and the segment
that the same word completes act in either order (log 3). -/
def Obligations.MarksSteerStationTime : Prop :=
  ∀ l w late (s : State),
    (s.hears l w (.signal .secondMark late) → ∃ t, exec (.linkWord l w) s = .next t ∧
      MarkActs (s.heardOn l) t l late) ∧
    (s.takesWord l w (.signal .secondMark late) → ∃ t, exec (.linkWord l w) s = .next t ∧
      InTurn l (fun u v => MarkActs u v l late) (fun u v => DataActs u v l w.data) (s.heardOn l) t)

/-! ## Switching programmes (09) -/

/-- LOAD STEPS, DEFINE PROGRAMME and START PROGRAMME: BAD_ARGUMENT for a body that is not one of theirs, their other
refusals in order, and what they do carried out. That a byte outside its codes, a mask bit above the sixth among them, makes
a body none of theirs is the model's reading (log 38). -/
def Obligations.ProgrammesAreStoredAndStarted : Prop :=
  ∀ p tag body (s : State),
    (s.offers p 0x50 tag body →
      ((∀ first steps, ¬LoadsSteps body first steps) → exec (.loadSteps p) s =
        .next ((s.dropBuffer p).answered p 0x50 tag (.refused .badArgument) .empty)) ∧
      ∀ first steps, LoadsSteps body first steps →
        ((∃ n h, s.using n ∧ s.headers.get n = some h ∧ first < h.first + h.count ∧
            h.first < first + steps.length) → exec (.loadSteps p) s =
          .next ((s.dropBuffer p).answered p 0x50 tag (.refused .programmeBusy) .empty)) ∧
        ((∀ n h, s.using n → s.headers.get n = some h →
            h.first + h.count ≤ first ∨ first + steps.length ≤ h.first) → ∃ v : File Step 256,
          exec (.loadSteps p) s = .next ({ s.dropBuffer p with slots := v }.answered p 0x50 tag .done .empty) ∧
          (∀ (k : Nat) x, steps[k]? = some x → v.get (Fin.ofNat 256 (first + k)) = x) ∧
          ∀ n : Fin 256, n.val < first ∨ first + steps.length ≤ n.val → v.get n = s.slots.get n)) ∧
    (s.offers p 0x51 tag body →
      ((∀ n h, ¬DefinesProgramme body n h) → exec (.defineProgramme p) s =
        .next ((s.dropBuffer p).answered p 0x51 tag (.refused .badArgument) .empty)) ∧
      ∀ n h, DefinesProgramme body n h →
        (s.using n → exec (.defineProgramme p) s =
          .next ((s.dropBuffer p).answered p 0x51 tag (.refused .programmeBusy) .empty)) ∧
        (¬s.using n → exec (.defineProgramme p) s =
          .next ({ s.dropBuffer p with headers := s.headers.set n h }.answered p 0x51 tag .done .empty))) ∧
    (s.offers p 0x52 tag body →
      ((∀ r n, ¬StartsProgramme body r n) → exec (.startProgramme p) s =
        .next ((s.dropBuffer p).answered p 0x52 tag (.refused .badArgument) .empty)) ∧
      ∀ r n, StartsProgramme body r n →
        (s.headers.get n = none → exec (.startProgramme p) s =
          .next ((s.dropBuffer p).answered p 0x52 tag (.refused .badArgument) .empty)) ∧
        ∀ h, s.headers.get n = some h →
          ((∃ f, s.programmeTargets h (.feeder f) ∧ (s.feeder f).ready = false) → exec (.startProgramme p) s =
            .next ((s.dropBuffer p).answered p 0x52 tag (.refused .notReady) .empty)) ∧
          ((∀ f, s.programmeTargets h (.feeder f) → (s.feeder f).ready = true) →
            (Excludes s.authority.location p → (∃ i, s.programmeTargets h i) → exec (.startProgramme p) s =
              .next ((s.dropBuffer p).answered p 0x52 tag (.refused .wrongLocation) .empty)) ∧
            (¬Excludes s.authority.location p → ∀ i, s.programmeTargets h i →
              (∀ j : Item, j.index < i.index → s.programmeTargets h j → ∃ y, s.holding j = some y ∧ y.holder = p) →
              (s.holding i = none → exec (.startProgramme p) s = .next ((s.dropBuffer p).answered p 0x52 tag
                (.refused (.notAuthorised true (some i))) .empty)) ∧
              (∀ y, s.holding i = some y → y.holder ≠ p → exec (.startProgramme p) s =
                .next ((s.dropBuffer p).answered p 0x52 tag (.refused (.heldByOther i y.holder)) .empty))) ∧
            ((∀ i, s.programmeTargets h i → ¬Excludes s.authority.location p ∧
                ∃ y, s.holding i = some y ∧ y.holder = p) →
              ((s.runner r).state ≠ .idle → exec (.startProgramme p) s =
                .next ((s.dropBuffer p).answered p 0x52 tag (.refused .busy) .empty)) ∧
              ((s.runner r).state = .idle → ∃ t, exec (.startProgramme p) s = .next t ∧
                Responds s t p 0x52 tag .accepted .empty ∧
                t = { s with
                  authority := { s.authority with entries := t.authority.entries }, runners := t.runners,
                  events := t.events, choices := t.choices, ports := t.ports } ∧
                t.runner r =
                  { state := .running, programme := some n, index := some 0, starter := some p,
                    due := some (s.now + (s.slot h.first).delay * 100000), remaining := none, awaiting := none,
                    haltReason := none, lastOutcome := none } ∧
                (∀ q, q ≠ r → t.runner q = s.runner q) ∧
                (∀ i y, s.programmeTargets h i → s.holding i = some y → t.holding i = some { y with
                  expiry := s.now + s.station.leaseTime * 100000, lease := s.station.leaseTime }) ∧
                (∀ i, ¬s.programmeTargets h i → t.holding i = s.holding i) ∧
                AddsEntry s t fun e => e.kind = .programmeStart ∧ e.subject = .runner r ∧ e.origin = .port p ∧
                  e.value1 = some (n.val : Int) ∧ (h.count ≤ 256 → e.value2 = some (h.count : Int))))))

/-- SUSPEND, RESUME, STOP and CLEAR: refused for another master than the starter, A or B, and in states they do not fit;
carried out, the runner's record and the entry. Nothing else changes. The two detail bytes of that NOT_AUTHORISED, 0 and 0,
are the model's (log 17). -/
def Obligations.RunnersAreControlled : Prop :=
  ∀ p tag (s : State),
    (∀ kind body c, s.offers p kind tag body →
      (kind = 0x53#8 ∧ c = .suspend p ∨ kind = 0x54#8 ∧ c = .resume p ∨ kind = 0x55#8 ∧ c = .stop p ∨
        kind = 0x56#8 ∧ c = .clear p) →
      ((∀ r : RunnerId, body ≠ [BitVec.ofNat 8 r.index.val]) → exec c s =
        .next ((s.dropBuffer p).answered p kind tag (.refused .badArgument) .empty)) ∧
      ∀ r : RunnerId, body = [BitVec.ofNat 8 r.index.val] → p = .G → (s.runner r).starter ≠ some p → exec c s =
        .next ((s.dropBuffer p).answered p kind tag (.refused (.notAuthorised false none)) .empty)) ∧
    ∀ (r : RunnerId) u x, (p ≠ .G ∨ (s.runner r).starter = some p) → u = s.dropBuffer p → x = s.runner r →
      (s.offers p 0x53 tag [BitVec.ofNat 8 r.index.val] →
        (x.state = .running → exec (.suspend p) s = .next (((u.modRunner r fun _ => { x with
            state := .suspended, remaining := x.due.map fun d => d - s.now, due := none }).addEntry
          .programmeSuspended (.runner r) (.port p) .nothing (some (x.index.getD 0 : Int))).answered p 0x53 tag .done
            .empty)) ∧
        (x.state = .awaiting → exec (.suspend p) s = .next (((u.modRunner r fun _ => { x with
            state := .suspended }).addEntry .programmeSuspended (.runner r) (.port p) .nothing
              (some (x.index.getD 0 : Int))).answered p 0x53 tag .done .empty)) ∧
        (x.state = .suspended → exec (.suspend p) s = .next (u.answered p 0x53 tag .done .empty)) ∧
        (x.state = .idle ∨ x.state = .halted → exec (.suspend p) s =
          .next (u.answered p 0x53 tag (.refused (.interlocked .state)) .empty))) ∧
      (s.offers p 0x54 tag [BitVec.ofNat 8 r.index.val] →
        (x.state = .suspended → x.awaiting ≠ none → exec (.resume p) s = .next (((u.modRunner r fun _ => { x with
            state := .awaiting }).addEntry .programmeResumed (.runner r) (.port p) .nothing
              (some (x.index.getD 0 : Int))).answered p 0x54 tag .done .empty)) ∧
        (∀ n : Nat, x.state = .suspended → x.awaiting = none → x.remaining = some n → exec (.resume p) s =
          .next (((u.modRunner r fun _ => { x with
              state := .running, due := some (s.now + n), remaining := none }).addEntry .programmeResumed (.runner r)
                (.port p) .nothing (some (x.index.getD 0 : Int))).answered p 0x54 tag .done .empty)) ∧
        (x.state ≠ .suspended → exec (.resume p) s =
          .next (u.answered p 0x54 tag (.refused (.interlocked .state)) .empty))) ∧
      (s.offers p 0x55 tag [BitVec.ofNat 8 r.index.val] →
        (x.state = .idle → exec (.stop p) s = .next (u.answered p 0x55 tag .done .empty)) ∧
        (x.state ≠ .idle → exec (.stop p) s = .next (((u.modRunner r fun _ =>
            { Runner.reset with lastOutcome := x.lastOutcome }).addEntry .programmeStopped (.runner r) (.port p) .nothing
              (some (x.index.getD 0 : Int))).answered p 0x55 tag .done .empty))) ∧
      (s.offers p 0x56 tag [BitVec.ofNat 8 r.index.val] →
        (x.state = .halted → exec (.clear p) s = .next (((u.modRunner r fun _ =>
            { Runner.reset with lastOutcome := x.lastOutcome }).addEntry .programmeCleared (.runner r) (.port p) .nothing
              (some (x.index.getD 0 : Int))).answered p 0x56 tag .done .empty)) ∧
        (x.state ≠ .halted → exec (.clear p) s =
          .next (u.answered p 0x56 tag (.refused (.interlocked .state)) .empty)))

/-- A due step is taken in the order of 09 R171: skipped when its mask fails, halted for want of authority, else
performed; and a wait whose limit is reached fails, in SUSPENDED too. The model's readings: last outcome stands at a halt
for want of authority (log 22), PROGRAMME END by running out names the last step (log 37), PROGRAMME HALTED has no value2
where the step has no target (log 43), STOP_RECTIFIER clears a first-cycle mark not yet used (log 42), and CLOSE RESULT
carries the attempts left in the next state (log 15). -/
def Obligations.StepsAreTakenInOrder : Prop :=
  ∀ r (s : State) n h (i : Nat) x, s.resetLine = false → (s.runner r).programme = some n → s.headers.get n = some h →
    (s.runner r).index = some i → x = s.slot (h.first + i) →
    (∀ d : Nat, (s.runner r).state = .running → (s.runner r).awaiting = none → (s.runner r).due = some d → d ≤ s.now →
      (x.action ≠ .waitUntil → ¬s.conditions x → ∃ t, exec (.stepDue r) s = .next t ∧ OnlyRunner s t r ∧
        MovesOn s t r h i .skipped ∧
        AddsEntry s t fun e => IsRunnerEntry e .stepSkipped r (.runner r) (.action x.action) i) ∧
      (x.action ∈ [StepAction.closeFeeder, .setAlpha, .startRectifier, .stopRectifier] → s.conditions x →
        (∀ p j y, (s.runner r).starter = some p → x.target = some j → s.holding j = some y → y.holder ≠ p) →
        ∃ t, exec (.stepDue r) s = .next t ∧ OnlyRunner s t r ∧
          Halts s t r x i .notAuthorised (s.runner r).lastOutcome) ∧
      (x.action = .waitUntil →
        (s.conditions x → ∃ t, exec (.stepDue r) s = .next t ∧ OnlyRunner s t r ∧ MovesOn s t r h i .done) ∧
        (¬s.conditions x → x.argument = 0 → ∃ t, exec (.stepDue r) s = .next t ∧ OnlyRunner s t r ∧
          StepFails s t r h x i .waitLimit none) ∧
        (¬s.conditions x → 0 < x.argument → exec (.stepDue r) s = .next (s.modRunner r fun y => { y with
          state := .awaiting, due := none, awaiting := some (.wait (s.now + x.argument * 100000)) }))) ∧
      (s.conditions x →
        (x.action = .noAction → ∃ t, exec (.stepDue r) s = .next t ∧ OnlyRunner s t r ∧ MovesOn s t r h i .done) ∧
        (x.action = .mark → ∃ t, exec (.stepDue r) s = .next t ∧ OnlyRunner s t r ∧ MovesOn s t r h i .done ∧
          AddsEntry s t fun e => e.kind = .programmeMark ∧ e.subject = .runner r ∧ e.origin = .runner r ∧
            (x.argument < 65536 → e.value1 = some (x.argument : Int)) ∧ (i < 256 → e.value2 = some (i : Int))) ∧
        (x.action = .finish → ∃ t, exec (.stepDue r) s = .next t ∧ OnlyRunner s t r ∧
          t.runner r = { Runner.reset with lastOutcome := some (.done, i) } ∧
          AddsEntry s t fun e => IsRunnerEntry e .programmeEnd r (.runner r) (.programmeEnd false) i) ∧
        (∀ f, x.action = .openFeeder → x.target = some (.feeder f) →
          ((s.feeder f).ready = false → ∃ t, exec (.stepDue r) s = .next t ∧ OnlyRunner s t r ∧
            StepFails s t r h x i .notReady none) ∧
          ((s.feeder f).ready = true → (s.feeder f).state = .closed → ∃ t, exec (.stepDue r) s = .next t ∧
            t.feeder f = s.trippingRecord f .commanded (.runner r) ∧ StateHandedOn s t f ∧ MovesOn s t r h i .done)) ∧
        ∀ p j y, (s.runner r).starter = some p → x.target = some j → s.holding j = some y → y.holder = p →
          (∀ f, x.action = .closeFeeder → j = .feeder f →
            ((s.feeder f).ready = false → ∃ t, exec (.stepDue r) s = .next t ∧ OnlyRunner s t r ∧
              StepFails s t r h x i .notReady none) ∧
            (∀ cause, (s.feeder f).ready = true → s.closeCheck f false = some cause →
              ∃ t, exec (.stepDue r) s = .next t ∧ OnlyRunner s t r ∧ StepFails s t r h x i (.interlocked cause) none) ∧
            ((s.feeder f).ready = true → s.closeCheck f false = none →
              ∃ t, exec (.stepDue r) s = .next t ∧ ChoosesPhase s t f (s.newClose (.runner r)) ∧
                (s.claimConflicts f → StepFails s t r h x i (.close .claimConflict) none) ∧
                (¬s.claimConflicts f → t.runner r =
                  { s.runner r with state := .awaiting, due := none, awaiting := some (.close f) }))) ∧
          (x.action = .setAlpha → ∃ t, exec (.stepDue r) s = .next t ∧ MovesOn s t r h i .done ∧
            t.authority = s.authority ∧ t.rect = { s.rect with
              target := max s.station.alphaMin (min s.station.alphaMax x.argument) }) ∧
          (x.action = .startRectifier →
            (s.rect.state ≠ .blocked ∨ s.rect.acOperation ≠ none → ∃ t, exec (.stepDue r) s = .next t ∧
              OnlyRunner s t r ∧ StepFails s t r h x i (.interlocked .state) none) ∧
            (s.rect.state = .blocked → s.rect.acOperation = none → ¬s.someFailed → s.acPosition = .opened →
              ∃ t, exec (.stepDue r) s = .next t ∧ t.rect.state = .connecting ∧ t.rect.runOrigin = .runner r ∧
                t.runner r = { s.runner r with state := .awaiting, due := none, awaiting := some .rectifier })) ∧
          (x.action = .stopRectifier → s.rect.state = .running → ∃ t, exec (.stepDue r) s = .next t ∧
            t.rect = { s.rect.quiet with
              state := .blocked, applied := s.station.alphaMax, acOperation := s.acOpening (.runner r) } ∧
            MovesOn s t r h i .done))) ∧
    ∀ d : Nat, (s.runner r).awaiting = some (.wait d) → d ≤ s.now →
      ∃ t, exec (.waitLimitExpiry r) s = .next t ∧ OnlyRunner s t r ∧ StepFails s t r h x i .waitLimit none

/-- What a runner awaits, in AWAITING or SUSPENDED. The result of a close ends the step DONE for CLOSED_OK and fails it with
the result for any other, also at the entry into TRIPPING. A rectifier start ends DONE at entry into RUNNING and fails at
entry into BLOCKED or TRIPPED with the state entered; CONNECTING and SYNCING leave it awaiting. A wait is judged at each
frame handed on, and at each change of a record its mask reads. The model's readings: PROGRAMME END by running out names
the last step (log 37), and PROGRAMME HALTED has no value2 where the step has no target (log 43). -/
def Obligations.RunnersTakeTheOutcomesTheyAwait : Prop :=
  ∀ r (s : State) n h (i : Nat) x, s.resetLine = false → (s.runner r).programme = some n → s.headers.get n = some h →
    (s.runner r).index = some i → x = s.slot (h.first + i) →
    (∀ f op, (s.runner r).awaiting = some (.close f) → (s.feeder f).operation = some op →
      ((s.feeder f).state = .closing →
        (∀ d, op.deadline = some d → d ≤ s.now → ∃ t, exec (.closeConfirmLimit f) s = .next t ∧
          StepFails s t r h x i (.close .closeFailed) none) ∧
        ((s.input f).position ≠ none → (s.input f).position ≠ some .closed → (s.input f).reading = .closed →
          (s.input f).since + 400000 ≤ s.now → ∃ t, exec (.positionDebounceExpiry (.feeder f)) s = .next t ∧
            MovesOn s t r h i .done) ∧
        ∀ p tag, s.offers p 0x10 tag [BitVec.ofNat 8 f.val] → (s.feeder f).ready = true →
          ∃ t, exec (.openFeeder p) s = .next t ∧ StepFails s t r h x i (.close (.aborted .openRequest)) none) ∧
      (∀ d, (s.feeder f).state = .testing → op.deadline = some d → d ≤ s.now →
        ∃ t, exec (.testEnd f) s = .next t ∧
          (s.sample.last.values.ufs.get f = none →
            StepFails s t r h x i (.close (.interlocked .measurementLost)) none) ∧
          ∀ u b, s.sample.last.values.ufs.get f = some u → s.sample.last.values.ub = some b →
            (¬((s.config f).healthy : Int) * b ≤ 100 * u → StepFails s t r h x i (.close .lineFaulty) none) ∧
            (((s.config f).healthy : Int) * b ≤ 100 * u → s.lineMeasured f → s.busIsLive → t.runner r = s.runner r)) ∧
      ∀ d, (s.section' f).claim = .claimSent → (s.section' f).claimDeadline = some d → d ≤ s.now →
        ∃ t, exec (.claimDeadline f) s = .next t ∧ StepFails s t r h x i (.close .claimTimeout) none) ∧
    (∀ c t f, c ∈ [Instr.zeroCrossing, .crossingWatchExpiry, .acCloseDeadline, .positionDebounceExpiry .ac,
        .tripConfirmLimit f] → (s.runner r).awaiting = some .rectifier → exec c s = .next t →
      t.rect.state ≠ s.rect.state →
      (t.rect.state = .running → MovesOn s t r h i .done) ∧
      (t.rect.state = .blocked ∨ t.rect.state = .tripped →
        StepFails s t r h x i .rectifierNotRunning (some (t.rect.state.code : Int))) ∧
      (t.rect.state = .connecting ∨ t.rect.state = .syncing → t.runner r = s.runner r)) ∧
    ∀ (d : Nat) t, (s.runner r).awaiting = some (.wait d) →
      (∀ words, s.handsOn words → x.mask.busLive = true → exec (.frameComplete words) s = .next t →
        (t.conditions x → MovesOn s t r h i .done) ∧
        (¬t.conditions x → x.mask.rectifierRunning = false → t.runner r = s.runner r)) ∧
      ∀ c f, c ∈ [Instr.zeroCrossing, .crossingWatchExpiry, .acCloseDeadline, .positionDebounceExpiry .ac,
          .locationChanged, .farStateStale f] → exec c s = .next t → ChangesWhatAMaskReads s t x →
        (t.conditions x → MovesOn s t r h i .done) ∧ (¬t.conditions x → t.runner r = s.runner r)

/-! ## Settings and start-up (11) -/

/-- SET STATION, SET FEEDER and SET SLOTS: their refusals in order and what each changes when carried out; COMMIT
SETTINGS and the end of its write, whose length the store chooses from 50 to 250 ms (log 9). Another far end gives the group
in use at once, and Fault Detection's copy takes a group that changes; a map that leaves a feeder's current unassigned sets
its blind since where it is none. The model's readings: a body
with a value out of its range or a map that repeats a quantity is refused at check 1, before authority (log 41), and so is a
byte outside its codes (log 38); Uov and Urel are in tenths of a volt (log 26); the bytes of NOT_AUTHORISED (log 17); a
section is unheard again after SET FEEDER gives it another far end (log 20); a slew that ends while its step is due leaves
that count a rise of 1 (log 2); where the port leaves VALID, a frame still late reaches the Capture Unit before the FILLING
buffers are HELD (log 32). -/
def Obligations.SettingsAreSetAndCommitted : Prop :=
  (∀ p tag body (s : State) kind c i, s.offers p kind tag body →
    (kind = 0x70#8 ∧ c = .setStation p ∧ i = .rectifier ∧
        (∃ v, SetsStation body v) ∨
      kind = 0x72#8 ∧ c = .setSlots p ∧ i = .rectifier ∧ (∃ m, SetsSlots body m) ∨
      ∃ f v, kind = 0x71#8 ∧ c = .setFeeder p ∧ i = .feeder f ∧ SetsFeeder body f v ∧ (s.feeder f).ready = true) →
    ∀ why, s.refusesProcessor p i why →
      exec c s = .next ((s.dropBuffer p).answered p kind tag (.refused why) .empty)) ∧
  (∀ p tag body (s : State), s.offers p 0x70 tag body →
    ((∀ v, ¬SetsStation body v) → exec (.setStation p) s =
      .next ((s.dropBuffer p).answered p 0x70 tag (.refused .badArgument) .empty)) ∧
    ∀ v h, SetsStation body v → p ≠ .G → ¬Excludes s.authority.location p →
      s.holding .rectifier = some h → h.holder = p →
      (s.rect.state = .running → s.rect.applied < v.alphaMin ∨ v.alphaMax < s.rect.applied →
        exec (.setStation p) s =
          .next ((s.dropBuffer p).answered p 0x70 tag (.refused (.interlocked .state)) .empty)) ∧
      (s.rect.state ≠ .running ∨ v.alphaMin ≤ s.rect.applied ∧ s.rect.applied ≤ v.alphaMax →
        ∃ t, exec (.setStation p) s = .next t ∧ SetsDone s t p 0x70 tag .rectifier h v.leaseTime ∧
          t.settings = { s.settings with station := v } ∧ t.feeders = s.feeders ∧ t.sections = s.sections ∧
          t.faults = s.faults ∧ t.sample = s.sample ∧ t.runners = s.runners ∧ t.captures = s.captures ∧
          (s.rect.state = .running → t.rect = s.rect) ∧
          (s.rect.state ≠ .running → t.rect = { s.rect with applied := v.alphaMax }) ∧
          (s.station.timeRole = v.timeRole → t.time = s.time) ∧
          (s.station.timeRole ≠ v.timeRole → t.time = { s.time.slewOver with
            upstream := none,
            quality :=
              if v.timeRole = .master ∧ (s.time.quality = .coarse ∨ s.time.quality = .fine) then .free
              else s.time.quality }) ∧
          (s.station.timeRole = v.timeRole → s.station.stationNumber = v.stationNumber →
            t.links = s.links ∧ t.events = s.events) ∧
          ∀ l, s.station.stationNumber ≠ v.stationNumber →
            ((t.link l).conflict = true ↔ (s.link l).farStation = some v.stationNumber) ∧
            ((s.link l).state = .up → (t.link l).queued.get 0 = true))) ∧
  (∀ p tag body (s : State), s.offers p 0x71 tag body →
    ((∀ f v, ¬SetsFeeder body f v) → exec (.setFeeder p) s =
      .next ((s.dropBuffer p).answered p 0x71 tag (.refused .badArgument) .empty)) ∧
    ∀ f v, SetsFeeder body f v →
      ((s.feeder f).ready = false → exec (.setFeeder p) s =
        .next ((s.dropBuffer p).answered p 0x71 tag (.refused .notReady) .empty)) ∧
      ∀ h, (s.feeder f).ready = true → p ≠ .G → ¬Excludes s.authority.location p →
        s.holding (.feeder f) = some h → h.holder = p →
        ((s.config f).farLink = v.farLink → (s.config f).farFeeder = v.farFeeder →
          ∃ t, exec (.setFeeder p) s = .next t ∧ SetsDone s t p 0x71 tag (.feeder f) h s.station.leaseTime ∧
            t.settings = { s.settings with feeders := s.settings.feeders.set f v } ∧ t.feeders = s.feeders ∧
            t.sections = s.sections ∧ t.faults = s.faults ∧ t.sample = s.sample ∧ t.events = s.events ∧
            t.rect = s.rect ∧ t.runners = s.runners ∧ t.time = s.time) ∧
        ((s.config f).farLink ≠ v.farLink ∨ (s.config f).farFeeder ≠ v.farFeeder →
          ((s.section' f).claim ≠ .idle ∨ (s.config f).inService = true ∧ (s.feeder f).state ≠ .opened ∧
              (s.feeder f).state ≠ .lockedOut → exec (.setFeeder p) s =
            .next ((s.dropBuffer p).answered p 0x71 tag (.refused (.interlocked .state)) .empty)) ∧
          ((s.section' f).claim = .idle →
            ((s.config f).inService = false ∨ (s.feeder f).state = .opened ∨ (s.feeder f).state = .lockedOut) →
            ∃ t, exec (.setFeeder p) s = .next t ∧ SetsDone s t p 0x71 tag (.feeder f) h s.station.leaseTime ∧
              t.settings = { s.settings with feeders := s.settings.feeders.set f v } ∧
              t.section' f = { s.section' f with
                farState := none, farSeen := none, staleFrom := none, heard := false,
                matching := if v.farLink = none then .noFarEnd else .mismatch } ∧
              t.feeder f = { s.feeder f with group := if v.farLink = none then .normal else .isolated } ∧
              t.fault f = (s.fault f).regrouped (s.feeder f).group (t.feeder f).group ∧
              (∀ g, g ≠ f → t.feeder g = s.feeder g ∧ t.section' g = s.section' g ∧ t.fault g = s.fault g) ∧
              t.sample = s.sample ∧ t.rect = s.rect ∧ t.time = s.time ∧
              ∀ l, v.farLink = some l → (s.link l).state = .up →
                (t.link l).queued.get (feederSegment f) = true))) ∧
  (∀ p tag body (s : State), s.offers p 0x72 tag body →
    ((∀ m, ¬SetsSlots body m) → exec (.setSlots p) s =
      .next ((s.dropBuffer p).answered p 0x72 tag (.refused .badArgument) .empty)) ∧
    ∀ m h, SetsSlots body m → p ≠ .G → ¬Excludes s.authority.location p →
      s.holding .rectifier = some h → h.holder = p →
      (s.changesBusy m → exec (.setSlots p) s =
        .next ((s.dropBuffer p).answered p 0x72 tag (.refused (.interlocked .state)) .empty)) ∧
      (¬s.changesBusy m → ∃ t, exec (.setSlots p) s = .next t ∧
        SetsDone s t p 0x72 tag .rectifier h s.station.leaseTime ∧ t.settings = { s.settings with slotMap := m } ∧
        t.time = s.time ∧
        (∀ f, (s.fault f).blindSince = none → (∀ n, m.get n ≠ .feederCurrent f) →
          t.fault f = { s.fault f with blindSince := some s.now }) ∧
        (∀ f, (s.fault f).blindSince ≠ none ∨ (∃ n, m.get n = .feederCurrent f) → t.fault f = s.fault f) ∧
        (s.sample.state ≠ .valid ∨ ¬NoQuantity m ∨ (∀ f, (s.feeder f).state ≠ .testing) →
          t.feeders = s.feeders ∧ t.sections = s.sections ∧ t.links = s.links) ∧
        (NoQuantity m → ¬NoQuantity s.settings.slotMap → t.sample.state = .disabled ∧ t.sample.primed = false ∧
          t.sample.reference = none ∧ t.sample.frameWatch = none ∧ t.sample.outageStart = none ∧
          t.sample.last = { values := Quantities.absent, number := none, time := none } ∧
          (∀ f, t.captures.histories.get f = []) ∧ t.captures.late = none ∧
          (s.sample.state = .valid → ∃ u, LateFrameReaches s t s.captures u ∧
            (∀ n, u.buffers.get n = none → t.captures.buffers.get n = none) ∧
            ∀ n c, u.buffers.get n = some c →
              (c.held = false → BecomesHeld s t n { c with held := true, truncated := true }) ∧
              (c.held = true → t.captures.buffers.get n = some c)) ∧
          AddsEntry s t fun e => e.kind = .measurementDisabled ∧ e.subject = .nothing ∧ e.origin = .protection) ∧
        (¬NoQuantity m → NoQuantity s.settings.slotMap → t.sample.state = .starting ∧ t.sample.primed = false ∧
          t.sample.frameWatch = some s.now) ∧
        ((NoQuantity m ↔ NoQuantity s.settings.slotMap) → t.sample = { s.sample with
          last := { s.sample.last with values := t.sample.last.values } }) ∧
        ∀ f : Feeder, ¬NoQuantity m →
          ((∃ n, m.get n = .feederCurrent f) → t.sample.last.values.ifs.get f = s.sample.last.values.ifs.get f) ∧
          ((∀ n, m.get n ≠ .feederCurrent f) → t.sample.last.values.ifs.get f = none) ∧
          ((∃ n, m.get n = .feederVoltage f) → t.sample.last.values.ufs.get f = s.sample.last.values.ufs.get f) ∧
          ((∀ n, m.get n ≠ .feederVoltage f) → t.sample.last.values.ufs.get f = none) ∧
          ((∃ n, m.get n = .busVoltage) → t.sample.last.values.ub = s.sample.last.values.ub) ∧
          ((∀ n, m.get n ≠ .busVoltage) → t.sample.last.values.ub = none) ∧
          ((∃ n, m.get n = .rectifierCurrent) → t.sample.last.values.ir = s.sample.last.values.ir) ∧
          ((∀ n, m.get n ≠ .rectifierCurrent) → t.sample.last.values.ir = none))) ∧
  (∀ p tag (s : State), s.offers p 0x74 tag [] →
    (p = .G → exec (.commitSettings p) s =
      .next ((s.dropBuffer p).answered p 0x74 tag (.refused (.notAuthorised true none)) .empty)) ∧
    (p ≠ .G → s.store.commit ≠ none → exec (.commitSettings p) s =
      .next ((s.dropBuffer p).answered p 0x74 tag (.refused .storeBusy) .empty)) ∧
    (p ≠ .G → s.store.commit = none → ∃ n x : Nat, 5000000 ≤ n ∧ n ≤ 25000000 ∧ exec (.commitSettings p) s =
      .next ({ s.dropBuffer p with
        choices := x,
        store := { s.store with
          copy := none, changed := false,
          commit := some { snapshot := s.settings, origin := .port p, startAt := s.now, endAt := s.now + n } }
        }.answered p 0x74 tag .accepted .empty))) ∧
  ∀ (s : State) c, s.resetLine = false → s.store.commit = some c → c.endAt ≤ s.now →
    exec .commitWriteEnd s = .next ({ s with
      store := { s.store with copy := some c.snapshot, commit := none, statusValid := true } }.addEntry
        .settingsCommitted .nothing c.origin .nothing (some (((c.endAt - c.startAt) / 100000 : Nat) : Int)))

/-- Power-on and the release of the reset line start the part up from the stored copy, or from the defaults when it fails
its check. Asserting the line drops a frame under reception and stops the gates: every pulse ends, the cycle values are
gone, and the first-cycle mark is cleared with them (the model's choice, log 42). Everything else is held (the model's
reading, log 25). The levels of the input lines stand throughout. -/
def Obligations.StartUpLoadsTheSettings : Prop :=
  ∀ (s : State), exec .resetLineAssert s = .next { s with
      resetLine := true, sample := { s.sample with reception := .idle }, rect := s.rect.quiet } ∧
    (s.resetLine = false → exec .resetLineRelease s = .next s) ∧
    ∀ c cause v, (c = .powerOn ∧ cause = .powerOn ∨ c = .resetLineRelease ∧ cause = .resetLine ∧ s.resetLine = true) →
      (s.store.copy = some v ∨ s.store.copy = none ∧ v = Settings.default) →
      ∃ t, exec c s = .next t ∧ t.pending = s.pending ∧ t.now = s.now ∧ t.startedAt = s.now ∧
        t.restartCause = cause ∧ t.settings = v ∧
        (s.store.copy = some v → t.store =
          { copy := some v, commit := none, statusValid := true, source := .store, changed := false } ∧
          t.events.ring = [Entry.restart cause true] ∧ t.events.nextSequence = 1) ∧
        (s.store.copy = none → t.store =
          { copy := none, commit := none, statusValid := false, source := .defaults, changed := true } ∧
          t.events.ring = [Entry.restart cause false, Entry.settingsDefaulted] ∧ t.events.nextSequence = 2) ∧
        (∀ p : Port, t.events.cursors.get p.index =
          { next := 0, overrun := false, gap := 0, classes := File.fill 8 true }) ∧
        (∀ p, t.port p =
          { selected := (s.port p).selected, buffers := [], responses := [], sent := 0, overrun := false,
            framesBad := 0, framesDiscarded := 0 }) ∧
        (NoQuantity v.slotMap → t.sample.state = .disabled) ∧
        (¬NoQuantity v.slotMap → t.sample.state = .starting ∧ t.sample.primed = false ∧
          t.sample.frameWatch = some s.now) ∧
        (∀ b, (t.inputOf b).a = (s.inputOf b).a ∧ (t.inputOf b).b = (s.inputOf b).b ∧
          Reads (t.inputOf b).a (t.inputOf b).b (t.inputOf b).reading ∧ (t.inputOf b).position = none ∧
          (t.inputOf b).since = s.now ∧ (t.inputOf b).reported = false) ∧
        t.key.made = s.key.made ∧ t.key.location = .localKey ∧
        (∀ f, (t.feeder f).ready = false ∧ (t.section' f).farState = none ∧ (t.section' f).claim = .idle ∧
          (t.section' f).matching = (if (v.feeders.get f).farLink = none then .noFarEnd else .mismatch) ∧
          (t.fault f).active = false ∧ (t.fault f).blindSince = some s.now ∧ (t.fault f).lastDecision = none) ∧
        (∀ i, t.holding i = none) ∧ t.authority.location = .localKey ∧
        t.clock.state = .unlocked ∧ t.rect.state = .blocked ∧ t.rect.target = v.station.alphaMax ∧
        t.rect.applied = v.station.alphaMax ∧ t.rect.acOperation = none ∧ t.rect.measurementHold = true ∧
        (∀ g, t.rect.gates.get g = 0) ∧
        (∀ l, (t.link l).state = .down ∧ (t.link l).light = (s.link l).light ∧ (t.link l).pendingSet = [] ∧
          (t.link l).farStation = none ∧ (t.link l).delayStatus = .invalid) ∧
        t.time =
          { now := { seconds := 0, fraction := 0 }, boundary := none, quality := .unset, follow := .following,
            slew := none, slewCount := 0, nextMark := 1, upstream := none, lastMark := none, marksTaken := 0,
            marksUnused := 0 } ∧
        (∀ n, t.slots.get n = Step.cleared) ∧ (∀ n, t.headers.get n = none) ∧ (∀ r, t.runner r = Runner.reset) ∧
        (∀ n, t.captures.buffers.get n = none) ∧ ∀ f, t.captures.histories.get f = []

/-- A good segment replaces the incoming copy, fresh for every master where it is one of 9 to 15, and is taken by its
number: the far station and the upstream record from System, with NUMBER CONFLICT once an UP period, far state and match
from Feeder End, with SECTION MISMATCH where match leaves MATCHED or is first judged. The receive assembly, on a word
without a signal: each position with each kind of data, and what counts as SEG_FRAMING, SEG_NUMBER and SEG_CHECK; and a
bad word discards a segment being received. The data of a word with a signal does the same, beside what the signal does:
that is in the statement of each signal. That a section is unheard again after SET FEEDER gives it another far end, so
that the next segment may add SECTION MISMATCH although the link stayed UP, is the model's reading (log 20), and so is that
a window past its eighth word closes with the next word (log 24). -/
def Obligations.SegmentsAreReceived : Prop :=
  ∀ l w (s : State),
    (s.takesWord l w .nothing → ∃ t, exec (.linkWord l w) s = .next t ∧ DataActs (s.heardOn l) t l w.data) ∧
    (s.resetLine = false → (s.link l).light = true → (s.link l).state = .up → goodSignal w = none →
      (s.link l).assembly ≠ .idle → (s.link l).badRun + 1 < 8 →
      exec (.linkWord l w) s = .next (s.modLink l fun k =>
        SectionLink.aged { k with
          assembly := .idle, badRun := k.badRun + 1,
          counters := { k.counters with
            badWord := min (k.counters.badWord + 1) 65535,
            segFraming := min (k.counters.segFraming + 1) 65535 } }))

/-- The claim protocol's signals. A TEST CLAIM that passes the three checks is granted for 2 s, and granted again; crossed
claims are decided by the station numbers; any other claim is ignored. A TEST GRANT answers a claim sent, and a TEST DONE
ends a grant and what waited for that; any other grant or done is stray. An ignored signal changes no more than the link's
windows. A word that carries data of a segment beside its signal has the effects of both. That a word ages the windows
before its own signal is the model's reading (log 24), that a signal and the segment that the same word completes act in
either order is its choice (log 3), and the attempts of a CLOSE RESULT are its reading (log 15). -/
def Obligations.ClaimSignalsAreTaken : Prop :=
  ∀ l w (s : State) (g : Feeder) late,
    (s.hears l w (.signal (.testClaim g) late) → ∃ t, exec (.linkWord l w) s = .next t ∧
      ClaimActs (s.heardOn l) t l g) ∧
    (s.takesWord l w (.signal (.testClaim g) late) → ∃ t, exec (.linkWord l w) s = .next t ∧
      InTurn l (fun u v => ClaimActs u v l g) (fun u v => DataActs u v l w.data) (s.heardOn l) t) ∧
    (s.hears l w (.signal (.testGrant g) late) → ∃ t, exec (.linkWord l w) s = .next t ∧
      GrantActs (s.heardOn l) t l g) ∧
    (s.takesWord l w (.signal (.testGrant g) late) → ∃ t, exec (.linkWord l w) s = .next t ∧
      InTurn l (fun u v => GrantActs u v l g) (fun u v => DataActs u v l w.data) (s.heardOn l) t) ∧
    (s.hears l w (.signal (.testDone g) late) → ∃ t, exec (.linkWord l w) s = .next t ∧
      DoneActs (s.heardOn l) t l g) ∧
    (s.takesWord l w (.signal (.testDone g) late) → ∃ t, exec (.linkWord l w) s = .next t ∧
      InTurn l (fun u v => DoneActs u v l g) (fun u v => DataActs u v l w.data) (s.heardOn l) t)

end Statements
end

