-- ==== Sys2Proof/Laws/File.lean ====
section
/-! SUPPORT. Laws of the register file: reading after a write, a fill, a map and a list; and that the places
of ports, links and runners are their own. -/

set_option Elab.async false

namespace Sys2Proof

namespace File

variable {α β : Type} {n : Nat}

theorem get_eq_getElem (v : File α n) (i : Fin n) :
    v.get i = v.cells[i.val]'(by rw [v.size]; exact i.isLt) := rfl

@[ext] theorem ext_get {v w : File α n} (h : ∀ i, v.get i = w.get i) : v = w := by
  obtain ⟨a, ha⟩ := v
  obtain ⟨b, hb⟩ := w
  congr
  apply List.ext_getElem (by rw [ha, hb])
  intro i hi _
  exact h ⟨i, ha ▸ hi⟩

@[simp] theorem get_set_self (v : File α n) (i : Fin n) (x : α) : (v.set i x).get i = x := by
  simp [get_eq_getElem, set]

@[simp] theorem get_set_ne (v : File α n) {i j : Fin n} (x : α) (h : j ≠ i) : (v.set i x).get j = v.get j := by
  have h : i.val ≠ j.val := fun e => h (Fin.ext e.symm)
  simp [get_eq_getElem, set, h]

theorem get_set (v : File α n) (i j : Fin n) (x : α) :
    (v.set i x).get j = if j = i then x else v.get j := by
  by_cases h : j = i
  · subst h; simp
  · simp [h]

@[simp] theorem get_map (f : α → β) (v : File α n) (i : Fin n) : (v.map f).get i = f (v.get i) := by
  simp [get_eq_getElem, map]

@[simp] theorem get_fill (x : α) (i : Fin n) : (fill n x).get i = x := by
  simp [get_eq_getElem, fill]

theorem get_ofList (x : α) (l : List α) (i : Fin n) : (ofList n x l).get i = l.getD i.val x := by
  by_cases h : i.val < l.length <;> simp [get_eq_getElem, ofList, List.getElem_append, List.getD, h]

/-- A file made of one value for each of the eight indices. -/
@[simp] theorem get_ofList_eight (x : α) (f : Fin 8 → α) (i : Fin 8) :
    (ofList 8 x (eight.map f)).get i = f i := by
  rw [get_ofList]
  fin_cases i <;> rfl

@[simp] theorem set_get_self (v : File α n) (i : Fin n) : v.set i (v.get i) = v := by
  ext j
  by_cases h : j = i
  · subst h; simp
  · simp [h]

end File

@[simp] theorem Port.index_inj {p q : Port} : p.index = q.index ↔ p = q := by
  cases p <;> cases q <;> decide

@[simp] theorem LinkId.index_inj {l k : LinkId} : l.index = k.index ↔ l = k := by
  cases l <;> cases k <;> decide

@[simp] theorem RunnerId.index_inj {r q : RunnerId} : r.index = q.index ↔ r = q := by
  cases r <;> cases q <;> decide

@[simp] theorem Item.index_inj {i j : Item} : i.index = j.index ↔ i = j := by
  cases i with
  | feeder f =>
    cases j with
    | feeder g => simp [Item.index, Fin.ext_iff]
    | rectifier => constructor <;> intro h <;> [skip; cases h]; simp [Item.index, Fin.ext_iff] at h; omega
  | rectifier =>
    cases j with
    | feeder g => constructor <;> intro h <;> [skip; cases h]; simp [Item.index, Fin.ext_iff] at h; omega
    | rectifier => simp

theorem mem_eight (f : Fin 8) : f ∈ eight := by fin_cases f <;> decide

theorem mem_items (i : Item) : i ∈ items := by
  cases i with
  | feeder f => exact List.mem_append_left _ (List.mem_map_of_mem (mem_eight f))
  | rectifier => decide

theorem mem_allRunners (r : RunnerId) : r ∈ allRunners := by cases r <;> decide

theorem mem_allLinks (l : LinkId) : l ∈ allLinks := by cases l <;> decide

theorem mem_allPorts (p : Port) : p ∈ allPorts := by cases p <;> decide

end Sys2Proof
end

