-- ==== Sys2Proof/Laws/State.lean ====
section
/-! SUPPORT. What each update of one record leaves and what it writes: one lemma for each field of State and each
reader, true by rfl, so that no proof unfolds a record update. -/

set_option Elab.async false

namespace Sys2Proof.Machine

/-! ## modFeeder -/

section modFeeder

variable (s : State) (f : Feeder) (g : FeederRecord → FeederRecord)

@[simp] theorem State.modFeeder_pending : (s.modFeeder f g).pending = s.pending := rfl

@[simp] theorem State.modFeeder_choices : (s.modFeeder f g).choices = s.choices := rfl

@[simp] theorem State.modFeeder_now : (s.modFeeder f g).now = s.now := rfl

@[simp] theorem State.modFeeder_resetLine : (s.modFeeder f g).resetLine = s.resetLine := rfl

@[simp] theorem State.modFeeder_startedAt : (s.modFeeder f g).startedAt = s.startedAt := rfl

@[simp] theorem State.modFeeder_restartCause : (s.modFeeder f g).restartCause = s.restartCause := rfl

@[simp] theorem State.modFeeder_settings : (s.modFeeder f g).settings = s.settings := rfl

@[simp] theorem State.modFeeder_store : (s.modFeeder f g).store = s.store := rfl

@[simp] theorem State.modFeeder_sample : (s.modFeeder f g).sample = s.sample := rfl

@[simp] theorem State.modFeeder_inputs : (s.modFeeder f g).inputs = s.inputs := rfl

@[simp] theorem State.modFeeder_acInput : (s.modFeeder f g).acInput = s.acInput := rfl

@[simp] theorem State.modFeeder_key : (s.modFeeder f g).key = s.key := rfl

@[simp] theorem State.modFeeder_sections : (s.modFeeder f g).sections = s.sections := rfl

@[simp] theorem State.modFeeder_faults : (s.modFeeder f g).faults = s.faults := rfl

@[simp] theorem State.modFeeder_authority : (s.modFeeder f g).authority = s.authority := rfl

@[simp] theorem State.modFeeder_clock : (s.modFeeder f g).clock = s.clock := rfl

@[simp] theorem State.modFeeder_rect : (s.modFeeder f g).rect = s.rect := rfl

@[simp] theorem State.modFeeder_links : (s.modFeeder f g).links = s.links := rfl

@[simp] theorem State.modFeeder_time : (s.modFeeder f g).time = s.time := rfl

@[simp] theorem State.modFeeder_slots : (s.modFeeder f g).slots = s.slots := rfl

@[simp] theorem State.modFeeder_headers : (s.modFeeder f g).headers = s.headers := rfl

@[simp] theorem State.modFeeder_runners : (s.modFeeder f g).runners = s.runners := rfl

@[simp] theorem State.modFeeder_events : (s.modFeeder f g).events = s.events := rfl

@[simp] theorem State.modFeeder_captures : (s.modFeeder f g).captures = s.captures := rfl

@[simp] theorem State.modFeeder_ports : (s.modFeeder f g).ports = s.ports := rfl

@[simp] theorem State.modFeeder_section_ (f' : Feeder) : (s.modFeeder f g).section' f' = s.section' f' := rfl

@[simp] theorem State.modFeeder_fault (f' : Feeder) : (s.modFeeder f g).fault f' = s.fault f' := rfl

@[simp] theorem State.modFeeder_input (f' : Feeder) : (s.modFeeder f g).input f' = s.input f' := rfl

@[simp] theorem State.modFeeder_config (f' : Feeder) : (s.modFeeder f g).config f' = s.config f' := rfl

@[simp] theorem State.modFeeder_station : (s.modFeeder f g).station = s.station := rfl

@[simp] theorem State.modFeeder_link (l' : LinkId) : (s.modFeeder f g).link l' = s.link l' := rfl

@[simp] theorem State.modFeeder_port (p' : Port) : (s.modFeeder f g).port p' = s.port p' := rfl

@[simp] theorem State.modFeeder_runner (r' : RunnerId) : (s.modFeeder f g).runner r' = s.runner r' := rfl

@[simp] theorem State.modFeeder_holding (i' : Item) : (s.modFeeder f g).holding i' = s.holding i' := rfl

@[simp] theorem State.modFeeder_cursor (p' : Port) : (s.modFeeder f g).cursor p' = s.cursor p' := rfl

@[simp] theorem State.modFeeder_position (f' : Feeder) : (s.modFeeder f g).position f' = s.position f' := rfl

@[simp] theorem State.modFeeder_acPosition : (s.modFeeder f g).acPosition = s.acPosition := rfl

@[simp] theorem State.modFeeder_slot (n' : Nat) : (s.modFeeder f g).slot n' = s.slot n' := rfl

end modFeeder

/-! ## modSection -/

section modSection

variable (s : State) (f : Feeder) (g : SectionRecord → SectionRecord)

@[simp] theorem State.modSection_pending : (s.modSection f g).pending = s.pending := rfl

@[simp] theorem State.modSection_choices : (s.modSection f g).choices = s.choices := rfl

@[simp] theorem State.modSection_now : (s.modSection f g).now = s.now := rfl

@[simp] theorem State.modSection_resetLine : (s.modSection f g).resetLine = s.resetLine := rfl

@[simp] theorem State.modSection_startedAt : (s.modSection f g).startedAt = s.startedAt := rfl

@[simp] theorem State.modSection_restartCause : (s.modSection f g).restartCause = s.restartCause := rfl

@[simp] theorem State.modSection_settings : (s.modSection f g).settings = s.settings := rfl

@[simp] theorem State.modSection_store : (s.modSection f g).store = s.store := rfl

@[simp] theorem State.modSection_sample : (s.modSection f g).sample = s.sample := rfl

@[simp] theorem State.modSection_inputs : (s.modSection f g).inputs = s.inputs := rfl

@[simp] theorem State.modSection_acInput : (s.modSection f g).acInput = s.acInput := rfl

@[simp] theorem State.modSection_key : (s.modSection f g).key = s.key := rfl

@[simp] theorem State.modSection_feeders : (s.modSection f g).feeders = s.feeders := rfl

@[simp] theorem State.modSection_faults : (s.modSection f g).faults = s.faults := rfl

@[simp] theorem State.modSection_authority : (s.modSection f g).authority = s.authority := rfl

@[simp] theorem State.modSection_clock : (s.modSection f g).clock = s.clock := rfl

@[simp] theorem State.modSection_rect : (s.modSection f g).rect = s.rect := rfl

@[simp] theorem State.modSection_links : (s.modSection f g).links = s.links := rfl

@[simp] theorem State.modSection_time : (s.modSection f g).time = s.time := rfl

@[simp] theorem State.modSection_slots : (s.modSection f g).slots = s.slots := rfl

@[simp] theorem State.modSection_headers : (s.modSection f g).headers = s.headers := rfl

@[simp] theorem State.modSection_runners : (s.modSection f g).runners = s.runners := rfl

@[simp] theorem State.modSection_events : (s.modSection f g).events = s.events := rfl

@[simp] theorem State.modSection_captures : (s.modSection f g).captures = s.captures := rfl

@[simp] theorem State.modSection_ports : (s.modSection f g).ports = s.ports := rfl

@[simp] theorem State.modSection_feeder (f' : Feeder) : (s.modSection f g).feeder f' = s.feeder f' := rfl

@[simp] theorem State.modSection_fault (f' : Feeder) : (s.modSection f g).fault f' = s.fault f' := rfl

@[simp] theorem State.modSection_input (f' : Feeder) : (s.modSection f g).input f' = s.input f' := rfl

@[simp] theorem State.modSection_config (f' : Feeder) : (s.modSection f g).config f' = s.config f' := rfl

@[simp] theorem State.modSection_station : (s.modSection f g).station = s.station := rfl

@[simp] theorem State.modSection_link (l' : LinkId) : (s.modSection f g).link l' = s.link l' := rfl

@[simp] theorem State.modSection_port (p' : Port) : (s.modSection f g).port p' = s.port p' := rfl

@[simp] theorem State.modSection_runner (r' : RunnerId) : (s.modSection f g).runner r' = s.runner r' := rfl

@[simp] theorem State.modSection_holding (i' : Item) : (s.modSection f g).holding i' = s.holding i' := rfl

@[simp] theorem State.modSection_cursor (p' : Port) : (s.modSection f g).cursor p' = s.cursor p' := rfl

@[simp] theorem State.modSection_position (f' : Feeder) : (s.modSection f g).position f' = s.position f' := rfl

@[simp] theorem State.modSection_acPosition : (s.modSection f g).acPosition = s.acPosition := rfl

@[simp] theorem State.modSection_slot (n' : Nat) : (s.modSection f g).slot n' = s.slot n' := rfl

end modSection

/-! ## modFault -/

section modFault

variable (s : State) (f : Feeder) (g : FaultRecord → FaultRecord)

@[simp] theorem State.modFault_pending : (s.modFault f g).pending = s.pending := rfl

@[simp] theorem State.modFault_choices : (s.modFault f g).choices = s.choices := rfl

@[simp] theorem State.modFault_now : (s.modFault f g).now = s.now := rfl

@[simp] theorem State.modFault_resetLine : (s.modFault f g).resetLine = s.resetLine := rfl

@[simp] theorem State.modFault_startedAt : (s.modFault f g).startedAt = s.startedAt := rfl

@[simp] theorem State.modFault_restartCause : (s.modFault f g).restartCause = s.restartCause := rfl

@[simp] theorem State.modFault_settings : (s.modFault f g).settings = s.settings := rfl

@[simp] theorem State.modFault_store : (s.modFault f g).store = s.store := rfl

@[simp] theorem State.modFault_sample : (s.modFault f g).sample = s.sample := rfl

@[simp] theorem State.modFault_inputs : (s.modFault f g).inputs = s.inputs := rfl

@[simp] theorem State.modFault_acInput : (s.modFault f g).acInput = s.acInput := rfl

@[simp] theorem State.modFault_key : (s.modFault f g).key = s.key := rfl

@[simp] theorem State.modFault_feeders : (s.modFault f g).feeders = s.feeders := rfl

@[simp] theorem State.modFault_sections : (s.modFault f g).sections = s.sections := rfl

@[simp] theorem State.modFault_authority : (s.modFault f g).authority = s.authority := rfl

@[simp] theorem State.modFault_clock : (s.modFault f g).clock = s.clock := rfl

@[simp] theorem State.modFault_rect : (s.modFault f g).rect = s.rect := rfl

@[simp] theorem State.modFault_links : (s.modFault f g).links = s.links := rfl

@[simp] theorem State.modFault_time : (s.modFault f g).time = s.time := rfl

@[simp] theorem State.modFault_slots : (s.modFault f g).slots = s.slots := rfl

@[simp] theorem State.modFault_headers : (s.modFault f g).headers = s.headers := rfl

@[simp] theorem State.modFault_runners : (s.modFault f g).runners = s.runners := rfl

@[simp] theorem State.modFault_events : (s.modFault f g).events = s.events := rfl

@[simp] theorem State.modFault_captures : (s.modFault f g).captures = s.captures := rfl

@[simp] theorem State.modFault_ports : (s.modFault f g).ports = s.ports := rfl

@[simp] theorem State.modFault_feeder (f' : Feeder) : (s.modFault f g).feeder f' = s.feeder f' := rfl

@[simp] theorem State.modFault_section_ (f' : Feeder) : (s.modFault f g).section' f' = s.section' f' := rfl

@[simp] theorem State.modFault_input (f' : Feeder) : (s.modFault f g).input f' = s.input f' := rfl

@[simp] theorem State.modFault_config (f' : Feeder) : (s.modFault f g).config f' = s.config f' := rfl

@[simp] theorem State.modFault_station : (s.modFault f g).station = s.station := rfl

@[simp] theorem State.modFault_link (l' : LinkId) : (s.modFault f g).link l' = s.link l' := rfl

@[simp] theorem State.modFault_port (p' : Port) : (s.modFault f g).port p' = s.port p' := rfl

@[simp] theorem State.modFault_runner (r' : RunnerId) : (s.modFault f g).runner r' = s.runner r' := rfl

@[simp] theorem State.modFault_holding (i' : Item) : (s.modFault f g).holding i' = s.holding i' := rfl

@[simp] theorem State.modFault_cursor (p' : Port) : (s.modFault f g).cursor p' = s.cursor p' := rfl

@[simp] theorem State.modFault_position (f' : Feeder) : (s.modFault f g).position f' = s.position f' := rfl

@[simp] theorem State.modFault_acPosition : (s.modFault f g).acPosition = s.acPosition := rfl

@[simp] theorem State.modFault_slot (n' : Nat) : (s.modFault f g).slot n' = s.slot n' := rfl

end modFault

/-! ## modInput -/

section modInput

variable (s : State) (f : Feeder) (g : ContactInput → ContactInput)

@[simp] theorem State.modInput_pending : (s.modInput f g).pending = s.pending := rfl

@[simp] theorem State.modInput_choices : (s.modInput f g).choices = s.choices := rfl

@[simp] theorem State.modInput_now : (s.modInput f g).now = s.now := rfl

@[simp] theorem State.modInput_resetLine : (s.modInput f g).resetLine = s.resetLine := rfl

@[simp] theorem State.modInput_startedAt : (s.modInput f g).startedAt = s.startedAt := rfl

@[simp] theorem State.modInput_restartCause : (s.modInput f g).restartCause = s.restartCause := rfl

@[simp] theorem State.modInput_settings : (s.modInput f g).settings = s.settings := rfl

@[simp] theorem State.modInput_store : (s.modInput f g).store = s.store := rfl

@[simp] theorem State.modInput_sample : (s.modInput f g).sample = s.sample := rfl

@[simp] theorem State.modInput_acInput : (s.modInput f g).acInput = s.acInput := rfl

@[simp] theorem State.modInput_key : (s.modInput f g).key = s.key := rfl

@[simp] theorem State.modInput_feeders : (s.modInput f g).feeders = s.feeders := rfl

@[simp] theorem State.modInput_sections : (s.modInput f g).sections = s.sections := rfl

@[simp] theorem State.modInput_faults : (s.modInput f g).faults = s.faults := rfl

@[simp] theorem State.modInput_authority : (s.modInput f g).authority = s.authority := rfl

@[simp] theorem State.modInput_clock : (s.modInput f g).clock = s.clock := rfl

@[simp] theorem State.modInput_rect : (s.modInput f g).rect = s.rect := rfl

@[simp] theorem State.modInput_links : (s.modInput f g).links = s.links := rfl

@[simp] theorem State.modInput_time : (s.modInput f g).time = s.time := rfl

@[simp] theorem State.modInput_slots : (s.modInput f g).slots = s.slots := rfl

@[simp] theorem State.modInput_headers : (s.modInput f g).headers = s.headers := rfl

@[simp] theorem State.modInput_runners : (s.modInput f g).runners = s.runners := rfl

@[simp] theorem State.modInput_events : (s.modInput f g).events = s.events := rfl

@[simp] theorem State.modInput_captures : (s.modInput f g).captures = s.captures := rfl

@[simp] theorem State.modInput_ports : (s.modInput f g).ports = s.ports := rfl

@[simp] theorem State.modInput_feeder (f' : Feeder) : (s.modInput f g).feeder f' = s.feeder f' := rfl

@[simp] theorem State.modInput_section_ (f' : Feeder) : (s.modInput f g).section' f' = s.section' f' := rfl

@[simp] theorem State.modInput_fault (f' : Feeder) : (s.modInput f g).fault f' = s.fault f' := rfl

@[simp] theorem State.modInput_config (f' : Feeder) : (s.modInput f g).config f' = s.config f' := rfl

@[simp] theorem State.modInput_station : (s.modInput f g).station = s.station := rfl

@[simp] theorem State.modInput_link (l' : LinkId) : (s.modInput f g).link l' = s.link l' := rfl

@[simp] theorem State.modInput_port (p' : Port) : (s.modInput f g).port p' = s.port p' := rfl

@[simp] theorem State.modInput_runner (r' : RunnerId) : (s.modInput f g).runner r' = s.runner r' := rfl

@[simp] theorem State.modInput_holding (i' : Item) : (s.modInput f g).holding i' = s.holding i' := rfl

@[simp] theorem State.modInput_cursor (p' : Port) : (s.modInput f g).cursor p' = s.cursor p' := rfl

@[simp] theorem State.modInput_acPosition : (s.modInput f g).acPosition = s.acPosition := rfl

@[simp] theorem State.modInput_slot (n' : Nat) : (s.modInput f g).slot n' = s.slot n' := rfl

end modInput

/-! ## modLink -/

section modLink

variable (s : State) (l : LinkId) (g : SectionLink → SectionLink)

@[simp] theorem State.modLink_pending : (s.modLink l g).pending = s.pending := rfl

@[simp] theorem State.modLink_choices : (s.modLink l g).choices = s.choices := rfl

@[simp] theorem State.modLink_now : (s.modLink l g).now = s.now := rfl

@[simp] theorem State.modLink_resetLine : (s.modLink l g).resetLine = s.resetLine := rfl

@[simp] theorem State.modLink_startedAt : (s.modLink l g).startedAt = s.startedAt := rfl

@[simp] theorem State.modLink_restartCause : (s.modLink l g).restartCause = s.restartCause := rfl

@[simp] theorem State.modLink_settings : (s.modLink l g).settings = s.settings := rfl

@[simp] theorem State.modLink_store : (s.modLink l g).store = s.store := rfl

@[simp] theorem State.modLink_sample : (s.modLink l g).sample = s.sample := rfl

@[simp] theorem State.modLink_inputs : (s.modLink l g).inputs = s.inputs := rfl

@[simp] theorem State.modLink_acInput : (s.modLink l g).acInput = s.acInput := rfl

@[simp] theorem State.modLink_key : (s.modLink l g).key = s.key := rfl

@[simp] theorem State.modLink_feeders : (s.modLink l g).feeders = s.feeders := rfl

@[simp] theorem State.modLink_sections : (s.modLink l g).sections = s.sections := rfl

@[simp] theorem State.modLink_faults : (s.modLink l g).faults = s.faults := rfl

@[simp] theorem State.modLink_authority : (s.modLink l g).authority = s.authority := rfl

@[simp] theorem State.modLink_clock : (s.modLink l g).clock = s.clock := rfl

@[simp] theorem State.modLink_rect : (s.modLink l g).rect = s.rect := rfl

@[simp] theorem State.modLink_time : (s.modLink l g).time = s.time := rfl

@[simp] theorem State.modLink_slots : (s.modLink l g).slots = s.slots := rfl

@[simp] theorem State.modLink_headers : (s.modLink l g).headers = s.headers := rfl

@[simp] theorem State.modLink_runners : (s.modLink l g).runners = s.runners := rfl

@[simp] theorem State.modLink_events : (s.modLink l g).events = s.events := rfl

@[simp] theorem State.modLink_captures : (s.modLink l g).captures = s.captures := rfl

@[simp] theorem State.modLink_ports : (s.modLink l g).ports = s.ports := rfl

@[simp] theorem State.modLink_feeder (f' : Feeder) : (s.modLink l g).feeder f' = s.feeder f' := rfl

@[simp] theorem State.modLink_section_ (f' : Feeder) : (s.modLink l g).section' f' = s.section' f' := rfl

@[simp] theorem State.modLink_fault (f' : Feeder) : (s.modLink l g).fault f' = s.fault f' := rfl

@[simp] theorem State.modLink_input (f' : Feeder) : (s.modLink l g).input f' = s.input f' := rfl

@[simp] theorem State.modLink_config (f' : Feeder) : (s.modLink l g).config f' = s.config f' := rfl

@[simp] theorem State.modLink_station : (s.modLink l g).station = s.station := rfl

@[simp] theorem State.modLink_port (p' : Port) : (s.modLink l g).port p' = s.port p' := rfl

@[simp] theorem State.modLink_runner (r' : RunnerId) : (s.modLink l g).runner r' = s.runner r' := rfl

@[simp] theorem State.modLink_holding (i' : Item) : (s.modLink l g).holding i' = s.holding i' := rfl

@[simp] theorem State.modLink_cursor (p' : Port) : (s.modLink l g).cursor p' = s.cursor p' := rfl

@[simp] theorem State.modLink_position (f' : Feeder) : (s.modLink l g).position f' = s.position f' := rfl

@[simp] theorem State.modLink_acPosition : (s.modLink l g).acPosition = s.acPosition := rfl

@[simp] theorem State.modLink_slot (n' : Nat) : (s.modLink l g).slot n' = s.slot n' := rfl

end modLink

/-! ## modPort -/

section modPort

variable (s : State) (p : Port) (g : MasterPort → MasterPort)

@[simp] theorem State.modPort_pending : (s.modPort p g).pending = s.pending := rfl

@[simp] theorem State.modPort_choices : (s.modPort p g).choices = s.choices := rfl

@[simp] theorem State.modPort_now : (s.modPort p g).now = s.now := rfl

@[simp] theorem State.modPort_resetLine : (s.modPort p g).resetLine = s.resetLine := rfl

@[simp] theorem State.modPort_startedAt : (s.modPort p g).startedAt = s.startedAt := rfl

@[simp] theorem State.modPort_restartCause : (s.modPort p g).restartCause = s.restartCause := rfl

@[simp] theorem State.modPort_settings : (s.modPort p g).settings = s.settings := rfl

@[simp] theorem State.modPort_store : (s.modPort p g).store = s.store := rfl

@[simp] theorem State.modPort_sample : (s.modPort p g).sample = s.sample := rfl

@[simp] theorem State.modPort_inputs : (s.modPort p g).inputs = s.inputs := rfl

@[simp] theorem State.modPort_acInput : (s.modPort p g).acInput = s.acInput := rfl

@[simp] theorem State.modPort_key : (s.modPort p g).key = s.key := rfl

@[simp] theorem State.modPort_feeders : (s.modPort p g).feeders = s.feeders := rfl

@[simp] theorem State.modPort_sections : (s.modPort p g).sections = s.sections := rfl

@[simp] theorem State.modPort_faults : (s.modPort p g).faults = s.faults := rfl

@[simp] theorem State.modPort_authority : (s.modPort p g).authority = s.authority := rfl

@[simp] theorem State.modPort_clock : (s.modPort p g).clock = s.clock := rfl

@[simp] theorem State.modPort_rect : (s.modPort p g).rect = s.rect := rfl

@[simp] theorem State.modPort_links : (s.modPort p g).links = s.links := rfl

@[simp] theorem State.modPort_time : (s.modPort p g).time = s.time := rfl

@[simp] theorem State.modPort_slots : (s.modPort p g).slots = s.slots := rfl

@[simp] theorem State.modPort_headers : (s.modPort p g).headers = s.headers := rfl

@[simp] theorem State.modPort_runners : (s.modPort p g).runners = s.runners := rfl

@[simp] theorem State.modPort_events : (s.modPort p g).events = s.events := rfl

@[simp] theorem State.modPort_captures : (s.modPort p g).captures = s.captures := rfl

@[simp] theorem State.modPort_feeder (f' : Feeder) : (s.modPort p g).feeder f' = s.feeder f' := rfl

@[simp] theorem State.modPort_section_ (f' : Feeder) : (s.modPort p g).section' f' = s.section' f' := rfl

@[simp] theorem State.modPort_fault (f' : Feeder) : (s.modPort p g).fault f' = s.fault f' := rfl

@[simp] theorem State.modPort_input (f' : Feeder) : (s.modPort p g).input f' = s.input f' := rfl

@[simp] theorem State.modPort_config (f' : Feeder) : (s.modPort p g).config f' = s.config f' := rfl

@[simp] theorem State.modPort_station : (s.modPort p g).station = s.station := rfl

@[simp] theorem State.modPort_link (l' : LinkId) : (s.modPort p g).link l' = s.link l' := rfl

@[simp] theorem State.modPort_runner (r' : RunnerId) : (s.modPort p g).runner r' = s.runner r' := rfl

@[simp] theorem State.modPort_holding (i' : Item) : (s.modPort p g).holding i' = s.holding i' := rfl

@[simp] theorem State.modPort_cursor (p' : Port) : (s.modPort p g).cursor p' = s.cursor p' := rfl

@[simp] theorem State.modPort_position (f' : Feeder) : (s.modPort p g).position f' = s.position f' := rfl

@[simp] theorem State.modPort_acPosition : (s.modPort p g).acPosition = s.acPosition := rfl

@[simp] theorem State.modPort_slot (n' : Nat) : (s.modPort p g).slot n' = s.slot n' := rfl

end modPort

/-! ## modRunner -/

section modRunner

variable (s : State) (r : RunnerId) (g : Runner → Runner)

@[simp] theorem State.modRunner_pending : (s.modRunner r g).pending = s.pending := rfl

@[simp] theorem State.modRunner_choices : (s.modRunner r g).choices = s.choices := rfl

@[simp] theorem State.modRunner_now : (s.modRunner r g).now = s.now := rfl

@[simp] theorem State.modRunner_resetLine : (s.modRunner r g).resetLine = s.resetLine := rfl

@[simp] theorem State.modRunner_startedAt : (s.modRunner r g).startedAt = s.startedAt := rfl

@[simp] theorem State.modRunner_restartCause : (s.modRunner r g).restartCause = s.restartCause := rfl

@[simp] theorem State.modRunner_settings : (s.modRunner r g).settings = s.settings := rfl

@[simp] theorem State.modRunner_store : (s.modRunner r g).store = s.store := rfl

@[simp] theorem State.modRunner_sample : (s.modRunner r g).sample = s.sample := rfl

@[simp] theorem State.modRunner_inputs : (s.modRunner r g).inputs = s.inputs := rfl

@[simp] theorem State.modRunner_acInput : (s.modRunner r g).acInput = s.acInput := rfl

@[simp] theorem State.modRunner_key : (s.modRunner r g).key = s.key := rfl

@[simp] theorem State.modRunner_feeders : (s.modRunner r g).feeders = s.feeders := rfl

@[simp] theorem State.modRunner_sections : (s.modRunner r g).sections = s.sections := rfl

@[simp] theorem State.modRunner_faults : (s.modRunner r g).faults = s.faults := rfl

@[simp] theorem State.modRunner_authority : (s.modRunner r g).authority = s.authority := rfl

@[simp] theorem State.modRunner_clock : (s.modRunner r g).clock = s.clock := rfl

@[simp] theorem State.modRunner_rect : (s.modRunner r g).rect = s.rect := rfl

@[simp] theorem State.modRunner_links : (s.modRunner r g).links = s.links := rfl

@[simp] theorem State.modRunner_time : (s.modRunner r g).time = s.time := rfl

@[simp] theorem State.modRunner_slots : (s.modRunner r g).slots = s.slots := rfl

@[simp] theorem State.modRunner_headers : (s.modRunner r g).headers = s.headers := rfl

@[simp] theorem State.modRunner_events : (s.modRunner r g).events = s.events := rfl

@[simp] theorem State.modRunner_captures : (s.modRunner r g).captures = s.captures := rfl

@[simp] theorem State.modRunner_ports : (s.modRunner r g).ports = s.ports := rfl

@[simp] theorem State.modRunner_feeder (f' : Feeder) : (s.modRunner r g).feeder f' = s.feeder f' := rfl

@[simp] theorem State.modRunner_section_ (f' : Feeder) : (s.modRunner r g).section' f' = s.section' f' := rfl

@[simp] theorem State.modRunner_fault (f' : Feeder) : (s.modRunner r g).fault f' = s.fault f' := rfl

@[simp] theorem State.modRunner_input (f' : Feeder) : (s.modRunner r g).input f' = s.input f' := rfl

@[simp] theorem State.modRunner_config (f' : Feeder) : (s.modRunner r g).config f' = s.config f' := rfl

@[simp] theorem State.modRunner_station : (s.modRunner r g).station = s.station := rfl

@[simp] theorem State.modRunner_link (l' : LinkId) : (s.modRunner r g).link l' = s.link l' := rfl

@[simp] theorem State.modRunner_port (p' : Port) : (s.modRunner r g).port p' = s.port p' := rfl

@[simp] theorem State.modRunner_holding (i' : Item) : (s.modRunner r g).holding i' = s.holding i' := rfl

@[simp] theorem State.modRunner_cursor (p' : Port) : (s.modRunner r g).cursor p' = s.cursor p' := rfl

@[simp] theorem State.modRunner_position (f' : Feeder) : (s.modRunner r g).position f' = s.position f' := rfl

@[simp] theorem State.modRunner_acPosition : (s.modRunner r g).acPosition = s.acPosition := rfl

@[simp] theorem State.modRunner_slot (n' : Nat) : (s.modRunner r g).slot n' = s.slot n' := rfl

end modRunner

/-! ## modRect -/

section modRect

variable (s : State) (g : Rectifier → Rectifier)

@[simp] theorem State.modRect_pending : (s.modRect g).pending = s.pending := rfl

@[simp] theorem State.modRect_choices : (s.modRect g).choices = s.choices := rfl

@[simp] theorem State.modRect_now : (s.modRect g).now = s.now := rfl

@[simp] theorem State.modRect_resetLine : (s.modRect g).resetLine = s.resetLine := rfl

@[simp] theorem State.modRect_startedAt : (s.modRect g).startedAt = s.startedAt := rfl

@[simp] theorem State.modRect_restartCause : (s.modRect g).restartCause = s.restartCause := rfl

@[simp] theorem State.modRect_settings : (s.modRect g).settings = s.settings := rfl

@[simp] theorem State.modRect_store : (s.modRect g).store = s.store := rfl

@[simp] theorem State.modRect_sample : (s.modRect g).sample = s.sample := rfl

@[simp] theorem State.modRect_inputs : (s.modRect g).inputs = s.inputs := rfl

@[simp] theorem State.modRect_acInput : (s.modRect g).acInput = s.acInput := rfl

@[simp] theorem State.modRect_key : (s.modRect g).key = s.key := rfl

@[simp] theorem State.modRect_feeders : (s.modRect g).feeders = s.feeders := rfl

@[simp] theorem State.modRect_sections : (s.modRect g).sections = s.sections := rfl

@[simp] theorem State.modRect_faults : (s.modRect g).faults = s.faults := rfl

@[simp] theorem State.modRect_authority : (s.modRect g).authority = s.authority := rfl

@[simp] theorem State.modRect_clock : (s.modRect g).clock = s.clock := rfl

@[simp] theorem State.modRect_links : (s.modRect g).links = s.links := rfl

@[simp] theorem State.modRect_time : (s.modRect g).time = s.time := rfl

@[simp] theorem State.modRect_slots : (s.modRect g).slots = s.slots := rfl

@[simp] theorem State.modRect_headers : (s.modRect g).headers = s.headers := rfl

@[simp] theorem State.modRect_runners : (s.modRect g).runners = s.runners := rfl

@[simp] theorem State.modRect_events : (s.modRect g).events = s.events := rfl

@[simp] theorem State.modRect_captures : (s.modRect g).captures = s.captures := rfl

@[simp] theorem State.modRect_ports : (s.modRect g).ports = s.ports := rfl

@[simp] theorem State.modRect_feeder (f' : Feeder) : (s.modRect g).feeder f' = s.feeder f' := rfl

@[simp] theorem State.modRect_section_ (f' : Feeder) : (s.modRect g).section' f' = s.section' f' := rfl

@[simp] theorem State.modRect_fault (f' : Feeder) : (s.modRect g).fault f' = s.fault f' := rfl

@[simp] theorem State.modRect_input (f' : Feeder) : (s.modRect g).input f' = s.input f' := rfl

@[simp] theorem State.modRect_config (f' : Feeder) : (s.modRect g).config f' = s.config f' := rfl

@[simp] theorem State.modRect_station : (s.modRect g).station = s.station := rfl

@[simp] theorem State.modRect_link (l' : LinkId) : (s.modRect g).link l' = s.link l' := rfl

@[simp] theorem State.modRect_port (p' : Port) : (s.modRect g).port p' = s.port p' := rfl

@[simp] theorem State.modRect_runner (r' : RunnerId) : (s.modRect g).runner r' = s.runner r' := rfl

@[simp] theorem State.modRect_holding (i' : Item) : (s.modRect g).holding i' = s.holding i' := rfl

@[simp] theorem State.modRect_cursor (p' : Port) : (s.modRect g).cursor p' = s.cursor p' := rfl

@[simp] theorem State.modRect_position (f' : Feeder) : (s.modRect g).position f' = s.position f' := rfl

@[simp] theorem State.modRect_acPosition : (s.modRect g).acPosition = s.acPosition := rfl

@[simp] theorem State.modRect_slot (n' : Nat) : (s.modRect g).slot n' = s.slot n' := rfl

end modRect

/-! ## modSample -/

section modSample

variable (s : State) (g : SamplePort → SamplePort)

@[simp] theorem State.modSample_pending : (s.modSample g).pending = s.pending := rfl

@[simp] theorem State.modSample_choices : (s.modSample g).choices = s.choices := rfl

@[simp] theorem State.modSample_now : (s.modSample g).now = s.now := rfl

@[simp] theorem State.modSample_resetLine : (s.modSample g).resetLine = s.resetLine := rfl

@[simp] theorem State.modSample_startedAt : (s.modSample g).startedAt = s.startedAt := rfl

@[simp] theorem State.modSample_restartCause : (s.modSample g).restartCause = s.restartCause := rfl

@[simp] theorem State.modSample_settings : (s.modSample g).settings = s.settings := rfl

@[simp] theorem State.modSample_store : (s.modSample g).store = s.store := rfl

@[simp] theorem State.modSample_inputs : (s.modSample g).inputs = s.inputs := rfl

@[simp] theorem State.modSample_acInput : (s.modSample g).acInput = s.acInput := rfl

@[simp] theorem State.modSample_key : (s.modSample g).key = s.key := rfl

@[simp] theorem State.modSample_feeders : (s.modSample g).feeders = s.feeders := rfl

@[simp] theorem State.modSample_sections : (s.modSample g).sections = s.sections := rfl

@[simp] theorem State.modSample_faults : (s.modSample g).faults = s.faults := rfl

@[simp] theorem State.modSample_authority : (s.modSample g).authority = s.authority := rfl

@[simp] theorem State.modSample_clock : (s.modSample g).clock = s.clock := rfl

@[simp] theorem State.modSample_rect : (s.modSample g).rect = s.rect := rfl

@[simp] theorem State.modSample_links : (s.modSample g).links = s.links := rfl

@[simp] theorem State.modSample_time : (s.modSample g).time = s.time := rfl

@[simp] theorem State.modSample_slots : (s.modSample g).slots = s.slots := rfl

@[simp] theorem State.modSample_headers : (s.modSample g).headers = s.headers := rfl

@[simp] theorem State.modSample_runners : (s.modSample g).runners = s.runners := rfl

@[simp] theorem State.modSample_events : (s.modSample g).events = s.events := rfl

@[simp] theorem State.modSample_captures : (s.modSample g).captures = s.captures := rfl

@[simp] theorem State.modSample_ports : (s.modSample g).ports = s.ports := rfl

@[simp] theorem State.modSample_feeder (f' : Feeder) : (s.modSample g).feeder f' = s.feeder f' := rfl

@[simp] theorem State.modSample_section_ (f' : Feeder) : (s.modSample g).section' f' = s.section' f' := rfl

@[simp] theorem State.modSample_fault (f' : Feeder) : (s.modSample g).fault f' = s.fault f' := rfl

@[simp] theorem State.modSample_input (f' : Feeder) : (s.modSample g).input f' = s.input f' := rfl

@[simp] theorem State.modSample_config (f' : Feeder) : (s.modSample g).config f' = s.config f' := rfl

@[simp] theorem State.modSample_station : (s.modSample g).station = s.station := rfl

@[simp] theorem State.modSample_link (l' : LinkId) : (s.modSample g).link l' = s.link l' := rfl

@[simp] theorem State.modSample_port (p' : Port) : (s.modSample g).port p' = s.port p' := rfl

@[simp] theorem State.modSample_runner (r' : RunnerId) : (s.modSample g).runner r' = s.runner r' := rfl

@[simp] theorem State.modSample_holding (i' : Item) : (s.modSample g).holding i' = s.holding i' := rfl

@[simp] theorem State.modSample_cursor (p' : Port) : (s.modSample g).cursor p' = s.cursor p' := rfl

@[simp] theorem State.modSample_position (f' : Feeder) : (s.modSample g).position f' = s.position f' := rfl

@[simp] theorem State.modSample_acPosition : (s.modSample g).acPosition = s.acPosition := rfl

@[simp] theorem State.modSample_slot (n' : Nat) : (s.modSample g).slot n' = s.slot n' := rfl

end modSample

/-! ## modCursor -/

section modCursor

variable (s : State) (p : Port) (g : PortCursor → PortCursor)

@[simp] theorem State.modCursor_pending : (s.modCursor p g).pending = s.pending := rfl

@[simp] theorem State.modCursor_choices : (s.modCursor p g).choices = s.choices := rfl

@[simp] theorem State.modCursor_now : (s.modCursor p g).now = s.now := rfl

@[simp] theorem State.modCursor_resetLine : (s.modCursor p g).resetLine = s.resetLine := rfl

@[simp] theorem State.modCursor_startedAt : (s.modCursor p g).startedAt = s.startedAt := rfl

@[simp] theorem State.modCursor_restartCause : (s.modCursor p g).restartCause = s.restartCause := rfl

@[simp] theorem State.modCursor_settings : (s.modCursor p g).settings = s.settings := rfl

@[simp] theorem State.modCursor_store : (s.modCursor p g).store = s.store := rfl

@[simp] theorem State.modCursor_sample : (s.modCursor p g).sample = s.sample := rfl

@[simp] theorem State.modCursor_inputs : (s.modCursor p g).inputs = s.inputs := rfl

@[simp] theorem State.modCursor_acInput : (s.modCursor p g).acInput = s.acInput := rfl

@[simp] theorem State.modCursor_key : (s.modCursor p g).key = s.key := rfl

@[simp] theorem State.modCursor_feeders : (s.modCursor p g).feeders = s.feeders := rfl

@[simp] theorem State.modCursor_sections : (s.modCursor p g).sections = s.sections := rfl

@[simp] theorem State.modCursor_faults : (s.modCursor p g).faults = s.faults := rfl

@[simp] theorem State.modCursor_authority : (s.modCursor p g).authority = s.authority := rfl

@[simp] theorem State.modCursor_clock : (s.modCursor p g).clock = s.clock := rfl

@[simp] theorem State.modCursor_rect : (s.modCursor p g).rect = s.rect := rfl

@[simp] theorem State.modCursor_links : (s.modCursor p g).links = s.links := rfl

@[simp] theorem State.modCursor_time : (s.modCursor p g).time = s.time := rfl

@[simp] theorem State.modCursor_slots : (s.modCursor p g).slots = s.slots := rfl

@[simp] theorem State.modCursor_headers : (s.modCursor p g).headers = s.headers := rfl

@[simp] theorem State.modCursor_runners : (s.modCursor p g).runners = s.runners := rfl

@[simp] theorem State.modCursor_captures : (s.modCursor p g).captures = s.captures := rfl

@[simp] theorem State.modCursor_ports : (s.modCursor p g).ports = s.ports := rfl

@[simp] theorem State.modCursor_feeder (f' : Feeder) : (s.modCursor p g).feeder f' = s.feeder f' := rfl

@[simp] theorem State.modCursor_section_ (f' : Feeder) : (s.modCursor p g).section' f' = s.section' f' := rfl

@[simp] theorem State.modCursor_fault (f' : Feeder) : (s.modCursor p g).fault f' = s.fault f' := rfl

@[simp] theorem State.modCursor_input (f' : Feeder) : (s.modCursor p g).input f' = s.input f' := rfl

@[simp] theorem State.modCursor_config (f' : Feeder) : (s.modCursor p g).config f' = s.config f' := rfl

@[simp] theorem State.modCursor_station : (s.modCursor p g).station = s.station := rfl

@[simp] theorem State.modCursor_link (l' : LinkId) : (s.modCursor p g).link l' = s.link l' := rfl

@[simp] theorem State.modCursor_port (p' : Port) : (s.modCursor p g).port p' = s.port p' := rfl

@[simp] theorem State.modCursor_runner (r' : RunnerId) : (s.modCursor p g).runner r' = s.runner r' := rfl

@[simp] theorem State.modCursor_holding (i' : Item) : (s.modCursor p g).holding i' = s.holding i' := rfl

@[simp] theorem State.modCursor_position (f' : Feeder) : (s.modCursor p g).position f' = s.position f' := rfl

@[simp] theorem State.modCursor_acPosition : (s.modCursor p g).acPosition = s.acPosition := rfl

@[simp] theorem State.modCursor_slot (n' : Nat) : (s.modCursor p g).slot n' = s.slot n' := rfl

end modCursor

/-! ## setHolding -/

section setHolding

variable (s : State) (i : Item) (h : Option Holding)

@[simp] theorem State.setHolding_pending : (s.setHolding i h).pending = s.pending := rfl

@[simp] theorem State.setHolding_choices : (s.setHolding i h).choices = s.choices := rfl

@[simp] theorem State.setHolding_now : (s.setHolding i h).now = s.now := rfl

@[simp] theorem State.setHolding_resetLine : (s.setHolding i h).resetLine = s.resetLine := rfl

@[simp] theorem State.setHolding_startedAt : (s.setHolding i h).startedAt = s.startedAt := rfl

@[simp] theorem State.setHolding_restartCause : (s.setHolding i h).restartCause = s.restartCause := rfl

@[simp] theorem State.setHolding_settings : (s.setHolding i h).settings = s.settings := rfl

@[simp] theorem State.setHolding_store : (s.setHolding i h).store = s.store := rfl

@[simp] theorem State.setHolding_sample : (s.setHolding i h).sample = s.sample := rfl

@[simp] theorem State.setHolding_inputs : (s.setHolding i h).inputs = s.inputs := rfl

@[simp] theorem State.setHolding_acInput : (s.setHolding i h).acInput = s.acInput := rfl

@[simp] theorem State.setHolding_key : (s.setHolding i h).key = s.key := rfl

@[simp] theorem State.setHolding_feeders : (s.setHolding i h).feeders = s.feeders := rfl

@[simp] theorem State.setHolding_sections : (s.setHolding i h).sections = s.sections := rfl

@[simp] theorem State.setHolding_faults : (s.setHolding i h).faults = s.faults := rfl

@[simp] theorem State.setHolding_clock : (s.setHolding i h).clock = s.clock := rfl

@[simp] theorem State.setHolding_rect : (s.setHolding i h).rect = s.rect := rfl

@[simp] theorem State.setHolding_links : (s.setHolding i h).links = s.links := rfl

@[simp] theorem State.setHolding_time : (s.setHolding i h).time = s.time := rfl

@[simp] theorem State.setHolding_slots : (s.setHolding i h).slots = s.slots := rfl

@[simp] theorem State.setHolding_headers : (s.setHolding i h).headers = s.headers := rfl

@[simp] theorem State.setHolding_runners : (s.setHolding i h).runners = s.runners := rfl

@[simp] theorem State.setHolding_events : (s.setHolding i h).events = s.events := rfl

@[simp] theorem State.setHolding_captures : (s.setHolding i h).captures = s.captures := rfl

@[simp] theorem State.setHolding_ports : (s.setHolding i h).ports = s.ports := rfl

@[simp] theorem State.setHolding_feeder (f' : Feeder) : (s.setHolding i h).feeder f' = s.feeder f' := rfl

@[simp] theorem State.setHolding_section_ (f' : Feeder) : (s.setHolding i h).section' f' = s.section' f' := rfl

@[simp] theorem State.setHolding_fault (f' : Feeder) : (s.setHolding i h).fault f' = s.fault f' := rfl

@[simp] theorem State.setHolding_input (f' : Feeder) : (s.setHolding i h).input f' = s.input f' := rfl

@[simp] theorem State.setHolding_config (f' : Feeder) : (s.setHolding i h).config f' = s.config f' := rfl

@[simp] theorem State.setHolding_station : (s.setHolding i h).station = s.station := rfl

@[simp] theorem State.setHolding_link (l' : LinkId) : (s.setHolding i h).link l' = s.link l' := rfl

@[simp] theorem State.setHolding_port (p' : Port) : (s.setHolding i h).port p' = s.port p' := rfl

@[simp] theorem State.setHolding_runner (r' : RunnerId) : (s.setHolding i h).runner r' = s.runner r' := rfl

@[simp] theorem State.setHolding_cursor (p' : Port) : (s.setHolding i h).cursor p' = s.cursor p' := rfl

@[simp] theorem State.setHolding_position (f' : Feeder) : (s.setHolding i h).position f' = s.position f' := rfl

@[simp] theorem State.setHolding_acPosition : (s.setHolding i h).acPosition = s.acPosition := rfl

@[simp] theorem State.setHolding_slot (n' : Nat) : (s.setHolding i h).slot n' = s.slot n' := rfl

end setHolding

/-! ## setBuffer -/

section setBuffer

variable (s : State) (n : Fin 4) (c : Option Capture)

@[simp] theorem State.setBuffer_pending : (s.setBuffer n c).pending = s.pending := rfl

@[simp] theorem State.setBuffer_choices : (s.setBuffer n c).choices = s.choices := rfl

@[simp] theorem State.setBuffer_now : (s.setBuffer n c).now = s.now := rfl

@[simp] theorem State.setBuffer_resetLine : (s.setBuffer n c).resetLine = s.resetLine := rfl

@[simp] theorem State.setBuffer_startedAt : (s.setBuffer n c).startedAt = s.startedAt := rfl

@[simp] theorem State.setBuffer_restartCause : (s.setBuffer n c).restartCause = s.restartCause := rfl

@[simp] theorem State.setBuffer_settings : (s.setBuffer n c).settings = s.settings := rfl

@[simp] theorem State.setBuffer_store : (s.setBuffer n c).store = s.store := rfl

@[simp] theorem State.setBuffer_sample : (s.setBuffer n c).sample = s.sample := rfl

@[simp] theorem State.setBuffer_inputs : (s.setBuffer n c).inputs = s.inputs := rfl

@[simp] theorem State.setBuffer_acInput : (s.setBuffer n c).acInput = s.acInput := rfl

@[simp] theorem State.setBuffer_key : (s.setBuffer n c).key = s.key := rfl

@[simp] theorem State.setBuffer_feeders : (s.setBuffer n c).feeders = s.feeders := rfl

@[simp] theorem State.setBuffer_sections : (s.setBuffer n c).sections = s.sections := rfl

@[simp] theorem State.setBuffer_faults : (s.setBuffer n c).faults = s.faults := rfl

@[simp] theorem State.setBuffer_authority : (s.setBuffer n c).authority = s.authority := rfl

@[simp] theorem State.setBuffer_clock : (s.setBuffer n c).clock = s.clock := rfl

@[simp] theorem State.setBuffer_rect : (s.setBuffer n c).rect = s.rect := rfl

@[simp] theorem State.setBuffer_links : (s.setBuffer n c).links = s.links := rfl

@[simp] theorem State.setBuffer_time : (s.setBuffer n c).time = s.time := rfl

@[simp] theorem State.setBuffer_slots : (s.setBuffer n c).slots = s.slots := rfl

@[simp] theorem State.setBuffer_headers : (s.setBuffer n c).headers = s.headers := rfl

@[simp] theorem State.setBuffer_runners : (s.setBuffer n c).runners = s.runners := rfl

@[simp] theorem State.setBuffer_events : (s.setBuffer n c).events = s.events := rfl

@[simp] theorem State.setBuffer_ports : (s.setBuffer n c).ports = s.ports := rfl

@[simp] theorem State.setBuffer_feeder (f' : Feeder) : (s.setBuffer n c).feeder f' = s.feeder f' := rfl

@[simp] theorem State.setBuffer_section_ (f' : Feeder) : (s.setBuffer n c).section' f' = s.section' f' := rfl

@[simp] theorem State.setBuffer_fault (f' : Feeder) : (s.setBuffer n c).fault f' = s.fault f' := rfl

@[simp] theorem State.setBuffer_input (f' : Feeder) : (s.setBuffer n c).input f' = s.input f' := rfl

@[simp] theorem State.setBuffer_config (f' : Feeder) : (s.setBuffer n c).config f' = s.config f' := rfl

@[simp] theorem State.setBuffer_station : (s.setBuffer n c).station = s.station := rfl

@[simp] theorem State.setBuffer_link (l' : LinkId) : (s.setBuffer n c).link l' = s.link l' := rfl

@[simp] theorem State.setBuffer_port (p' : Port) : (s.setBuffer n c).port p' = s.port p' := rfl

@[simp] theorem State.setBuffer_runner (r' : RunnerId) : (s.setBuffer n c).runner r' = s.runner r' := rfl

@[simp] theorem State.setBuffer_holding (i' : Item) : (s.setBuffer n c).holding i' = s.holding i' := rfl

@[simp] theorem State.setBuffer_cursor (p' : Port) : (s.setBuffer n c).cursor p' = s.cursor p' := rfl

@[simp] theorem State.setBuffer_position (f' : Feeder) : (s.setBuffer n c).position f' = s.position f' := rfl

@[simp] theorem State.setBuffer_acPosition : (s.setBuffer n c).acPosition = s.acPosition := rfl

@[simp] theorem State.setBuffer_slot (n' : Nat) : (s.setBuffer n c).slot n' = s.slot n' := rfl

end setBuffer

/-! ## addEntry -/

section addEntry

variable (s : State) (k : EventKind) (u : Subject) (o : Origin) (d : Detail) (v w : Option Int) (c : Option (Fin 4))

@[simp] theorem State.addEntry_pending : (s.addEntry k u o d v w c).pending = s.pending := rfl

@[simp] theorem State.addEntry_now : (s.addEntry k u o d v w c).now = s.now := rfl

@[simp] theorem State.addEntry_resetLine : (s.addEntry k u o d v w c).resetLine = s.resetLine := rfl

@[simp] theorem State.addEntry_startedAt : (s.addEntry k u o d v w c).startedAt = s.startedAt := rfl

@[simp] theorem State.addEntry_restartCause : (s.addEntry k u o d v w c).restartCause = s.restartCause := rfl

@[simp] theorem State.addEntry_settings : (s.addEntry k u o d v w c).settings = s.settings := rfl

@[simp] theorem State.addEntry_store : (s.addEntry k u o d v w c).store = s.store := rfl

@[simp] theorem State.addEntry_sample : (s.addEntry k u o d v w c).sample = s.sample := rfl

@[simp] theorem State.addEntry_inputs : (s.addEntry k u o d v w c).inputs = s.inputs := rfl

@[simp] theorem State.addEntry_acInput : (s.addEntry k u o d v w c).acInput = s.acInput := rfl

@[simp] theorem State.addEntry_key : (s.addEntry k u o d v w c).key = s.key := rfl

@[simp] theorem State.addEntry_feeders : (s.addEntry k u o d v w c).feeders = s.feeders := rfl

@[simp] theorem State.addEntry_sections : (s.addEntry k u o d v w c).sections = s.sections := rfl

@[simp] theorem State.addEntry_faults : (s.addEntry k u o d v w c).faults = s.faults := rfl

@[simp] theorem State.addEntry_authority : (s.addEntry k u o d v w c).authority = s.authority := rfl

@[simp] theorem State.addEntry_clock : (s.addEntry k u o d v w c).clock = s.clock := rfl

@[simp] theorem State.addEntry_rect : (s.addEntry k u o d v w c).rect = s.rect := rfl

@[simp] theorem State.addEntry_links : (s.addEntry k u o d v w c).links = s.links := rfl

@[simp] theorem State.addEntry_time : (s.addEntry k u o d v w c).time = s.time := rfl

@[simp] theorem State.addEntry_slots : (s.addEntry k u o d v w c).slots = s.slots := rfl

@[simp] theorem State.addEntry_headers : (s.addEntry k u o d v w c).headers = s.headers := rfl

@[simp] theorem State.addEntry_runners : (s.addEntry k u o d v w c).runners = s.runners := rfl

@[simp] theorem State.addEntry_captures : (s.addEntry k u o d v w c).captures = s.captures := rfl

@[simp] theorem State.addEntry_ports : (s.addEntry k u o d v w c).ports = s.ports := rfl

@[simp] theorem State.addEntry_feeder (f' : Feeder) : (s.addEntry k u o d v w c).feeder f' = s.feeder f' := rfl

@[simp] theorem State.addEntry_section_ (f' : Feeder) : (s.addEntry k u o d v w c).section' f' = s.section' f' := rfl

@[simp] theorem State.addEntry_fault (f' : Feeder) : (s.addEntry k u o d v w c).fault f' = s.fault f' := rfl

@[simp] theorem State.addEntry_input (f' : Feeder) : (s.addEntry k u o d v w c).input f' = s.input f' := rfl

@[simp] theorem State.addEntry_config (f' : Feeder) : (s.addEntry k u o d v w c).config f' = s.config f' := rfl

@[simp] theorem State.addEntry_station : (s.addEntry k u o d v w c).station = s.station := rfl

@[simp] theorem State.addEntry_link (l' : LinkId) : (s.addEntry k u o d v w c).link l' = s.link l' := rfl

@[simp] theorem State.addEntry_port (p' : Port) : (s.addEntry k u o d v w c).port p' = s.port p' := rfl

@[simp] theorem State.addEntry_runner (r' : RunnerId) : (s.addEntry k u o d v w c).runner r' = s.runner r' := rfl

@[simp] theorem State.addEntry_holding (i' : Item) : (s.addEntry k u o d v w c).holding i' = s.holding i' := rfl

@[simp] theorem State.addEntry_position (f' : Feeder) : (s.addEntry k u o d v w c).position f' = s.position f' := rfl

@[simp] theorem State.addEntry_acPosition : (s.addEntry k u o d v w c).acPosition = s.acPosition := rfl

@[simp] theorem State.addEntry_slot (n' : Nat) : (s.addEntry k u o d v w c).slot n' = s.slot n' := rfl

end addEntry

/-! ## What an update writes -/

@[simp] theorem State.modFeeder_feeder_self (s : State) (f : Feeder) (g : FeederRecord → FeederRecord) :
    (s.modFeeder f g).feeder f = g (s.feeder f) := File.get_set_self ..

@[simp] theorem State.modFeeder_feeder_ne (s : State) {f h : Feeder} (g : FeederRecord → FeederRecord) (e : h ≠ f) :
    (s.modFeeder f g).feeder h = s.feeder h := File.get_set_ne _ _ e

@[simp] theorem State.modSection_section_self (s : State) (f : Feeder) (g : SectionRecord → SectionRecord) :
    (s.modSection f g).section' f = g (s.section' f) := File.get_set_self ..

@[simp] theorem State.modSection_section_ne (s : State) {f h : Feeder} (g : SectionRecord → SectionRecord) (e : h ≠ f) :
    (s.modSection f g).section' h = s.section' h := File.get_set_ne _ _ e

@[simp] theorem State.modFault_fault_self (s : State) (f : Feeder) (g : FaultRecord → FaultRecord) :
    (s.modFault f g).fault f = g (s.fault f) := File.get_set_self ..

@[simp] theorem State.modFault_fault_ne (s : State) {f h : Feeder} (g : FaultRecord → FaultRecord) (e : h ≠ f) :
    (s.modFault f g).fault h = s.fault h := File.get_set_ne _ _ e

@[simp] theorem State.modInput_input_self (s : State) (f : Feeder) (g : ContactInput → ContactInput) :
    (s.modInput f g).input f = g (s.input f) := File.get_set_self ..

@[simp] theorem State.modInput_input_ne (s : State) {f h : Feeder} (g : ContactInput → ContactInput) (e : h ≠ f) :
    (s.modInput f g).input h = s.input h := File.get_set_ne _ _ e

@[simp] theorem State.modLink_link_self (s : State) (l : LinkId) (g : SectionLink → SectionLink) :
    (s.modLink l g).link l = g (s.link l) := File.get_set_self ..

@[simp] theorem State.modLink_link_ne (s : State) {l k : LinkId} (g : SectionLink → SectionLink) (e : k ≠ l) :
    (s.modLink l g).link k = s.link k := File.get_set_ne _ _ (fun x => e (LinkId.index_inj.mp x))

@[simp] theorem State.modPort_port_self (s : State) (p : Port) (g : MasterPort → MasterPort) :
    (s.modPort p g).port p = g (s.port p) := File.get_set_self ..

@[simp] theorem State.modPort_port_ne (s : State) {p q : Port} (g : MasterPort → MasterPort) (e : q ≠ p) :
    (s.modPort p g).port q = s.port q := File.get_set_ne _ _ (fun x => e (Port.index_inj.mp x))

@[simp] theorem State.modRunner_runner_self (s : State) (r : RunnerId) (g : Runner → Runner) :
    (s.modRunner r g).runner r = g (s.runner r) := File.get_set_self ..

@[simp] theorem State.modRunner_runner_ne (s : State) {r q : RunnerId} (g : Runner → Runner) (e : q ≠ r) :
    (s.modRunner r g).runner q = s.runner q := File.get_set_ne _ _ (fun x => e (RunnerId.index_inj.mp x))

@[simp] theorem State.modCursor_cursor_self (s : State) (p : Port) (g : PortCursor → PortCursor) :
    (s.modCursor p g).cursor p = g (s.cursor p) := File.get_set_self ..

@[simp] theorem State.modCursor_cursor_ne (s : State) {p q : Port} (g : PortCursor → PortCursor) (e : q ≠ p) :
    (s.modCursor p g).cursor q = s.cursor q := File.get_set_ne _ _ (fun x => e (Port.index_inj.mp x))

@[simp] theorem State.setHolding_holding_self (s : State) (i : Item) (h : Option Holding) :
    (s.setHolding i h).holding i = h := File.get_set_self ..

@[simp] theorem State.setHolding_holding_ne (s : State) {i j : Item} (h : Option Holding) (e : j ≠ i) :
    (s.setHolding i h).holding j = s.holding j := File.get_set_ne _ _ (fun x => e (Item.index_inj.mp x))

@[simp] theorem State.setHolding_location (s : State) (i : Item) (h : Option Holding) :
    (s.setHolding i h).authority.location = s.authority.location := rfl

@[simp] theorem State.modRect_rect (s : State) (g : Rectifier → Rectifier) : (s.modRect g).rect = g s.rect := rfl

@[simp] theorem State.modSample_sample (s : State) (g : SamplePort → SamplePort) :
    (s.modSample g).sample = g s.sample := rfl

@[simp] theorem State.modCursor_ring (s : State) (p : Port) (g : PortCursor → PortCursor) :
    (s.modCursor p g).events.ring = s.events.ring := rfl

@[simp] theorem State.modCursor_nextSequence (s : State) (p : Port) (g : PortCursor → PortCursor) :
    (s.modCursor p g).events.nextSequence = s.events.nextSequence := rfl

@[simp] theorem State.setBuffer_self (s : State) (n : Fin 4) (c : Option Capture) :
    (s.setBuffer n c).captures.buffers.get n = c := File.get_set_self ..

@[simp] theorem State.setBuffer_ne (s : State) {n m : Fin 4} (c : Option Capture) (e : m ≠ n) :
    (s.setBuffer n c).captures.buffers.get m = s.captures.buffers.get m := File.get_set_ne _ _ e

@[simp] theorem State.setBuffer_histories (s : State) (n : Fin 4) (c : Option Capture) :
    (s.setBuffer n c).captures.histories = s.captures.histories := rfl

@[simp] theorem State.setBuffer_late (s : State) (n : Fin 4) (c : Option Capture) :
    (s.setBuffer n c).captures.late = s.captures.late := rfl

@[simp] theorem State.startCapture_buffer (s : State) (n : Fin 4) (f : Feeder) (cause : TripCause) :
    (s.startCapture n f cause).captures.buffers.get n = some (s.newCapture f cause) := State.setBuffer_self ..

@[simp] theorem State.frameLate_late (s : State) (q : Quantities) : (s.frameLate q).captures.late = some q := rfl

@[simp] theorem State.frameLate_buffers (s : State) (q : Quantities) :
    (s.frameLate q).captures.buffers = s.captures.buffers := rfl

@[simp] theorem State.frameLate_histories (s : State) (q : Quantities) :
    (s.frameLate q).captures.histories = s.captures.histories := rfl

@[simp] theorem State.frameHistories_late (s : State) (q : Quantities) :
    (s.frameHistories q).captures.late = none := rfl

@[simp] theorem State.frameHistories_buffers (s : State) (q : Quantities) :
    (s.frameHistories q).captures.buffers = s.captures.buffers := rfl

@[simp] theorem State.frameHistories_history (s : State) (q : Quantities) (f : Feeder) :
    (s.frameHistories q).captures.histories.get f = pushTriple (s.captures.histories.get f) (q.triple f) :=
  File.get_ofList_eight ..

@[simp] theorem State.emptyHistories_late (s : State) : s.emptyHistories.captures.late = none := rfl

/-- Without a late frame nothing is left to reach the Capture Unit. -/
theorem State.settleCaptures_none (s : State) (h : s.captures.late = none) : s.settleCaptures = s := by
  unfold State.settleCaptures; rw [h]

theorem State.settleCaptures_some (s : State) {q : Quantities} (h : s.captures.late = some q) :
    s.settleCaptures = together (fillParts q) (s.frameHistories q) := by
  unfold State.settleCaptures; rw [h]

/-- What a frame does at the Capture Unit: it reaches the histories and the buffers at once, or, where it decided a
trip, it may stay late with the unit as it was (10 R193). -/
theorem State.frameAtCaptures_cases (s : State) (decided : Bool) (q : Quantities) : ∃ x,
    s.frameAtCaptures decided q =
        together (frameParts q ++ fillParts q ++ waitParts readsBus) ({ s with choices := x }.frameHistories q) ∨
      decided = true ∧ s.frameAtCaptures decided q =
        together (frameParts q ++ waitParts readsBus) ({ s with choices := x }.frameLate q) := by
  unfold State.frameAtCaptures
  dsimp only
  split
  · rename_i h
    split
    · exact ⟨_, .inl rfl⟩
    · exact ⟨_, .inr ⟨h, rfl⟩⟩
  · exact ⟨s.choices, .inl rfl⟩

/-- What happens to a late frame when a request has been taken: it reaches the Capture Unit, or it stays late while
another request is on its way (10 R193). -/
theorem State.frameAfterTrip_cases (s : State) : ∃ x,
    s.frameAfterTrip = { s with choices := x }.settleCaptures ∨
      s.requestUnderWay = true ∧ s.frameAfterTrip = { s with choices := x } := by
  unfold State.frameAfterTrip
  dsimp only
  split
  · rename_i h
    split
    · exact ⟨_, .inl rfl⟩
    · exact ⟨_, .inr ⟨h.2, rfl⟩⟩
  · exact ⟨s.choices, .inl rfl⟩

/-! ## A slew that ends (08 R159) -/

/-- Without a step due, a slew ends with nothing else changed. -/
theorem TimeBase.endSlew_idle (x : TimeBase) (h : x.slewDue = false) :
    x.endSlew = { x with slew := none, slewCount := 0 } := by
  unfold TimeBase.endSlew; rw [h]; rfl

theorem TimeBase.endSlew_due (x : TimeBase) (h : x.slewDue = true) :
    x.endSlew = { x with slew := none, slewCount := 0 }.rise 1 := by
  unfold TimeBase.endSlew; rw [h]; rfl

/-- A rise moves the count of time and the boundary it reaches, and nothing else. -/
theorem TimeBase.rise_frame (x : TimeBase) (n : Nat) : ∃ v b, x.rise n = { x with now := v, boundary := b } := by
  unfold TimeBase.rise
  dsimp only
  split
  · exact ⟨_, _, rfl⟩
  · split <;> exact ⟨_, _, rfl⟩

/-- A slew that ends moves the count of time at most. -/
theorem TimeBase.endSlew_frame (x : TimeBase) :
    ∃ v b, x.endSlew = { x with now := v, boundary := b, slew := none, slewCount := 0 } := by
  unfold TimeBase.endSlew
  dsimp only
  split
  · exact TimeBase.rise_frame _ 1
  · exact ⟨_, _, rfl⟩

/-! ## A port that has clocked out part of a response (11 R197) -/

@[simp] theorem MasterPort.clockedOut_selected (y : MasterPort) (n : Nat) : (y.clockedOut n).selected = y.selected := rfl

@[simp] theorem MasterPort.clockedOut_buffers (y : MasterPort) (n : Nat) : (y.clockedOut n).buffers = y.buffers := rfl

@[simp] theorem MasterPort.clockedOut_responses (y : MasterPort) (n : Nat) : (y.clockedOut n).responses = y.responses := rfl

@[simp] theorem MasterPort.clockedOut_overrun (y : MasterPort) (n : Nat) : (y.clockedOut n).overrun = y.overrun := rfl

@[simp] theorem MasterPort.clockedOut_framesBad (y : MasterPort) (n : Nat) : (y.clockedOut n).framesBad = y.framesBad := rfl

@[simp] theorem MasterPort.clockedOut_framesDiscarded (y : MasterPort) (n : Nat) : (y.clockedOut n).framesDiscarded = y.framesDiscarded := rfl

end Sys2Proof.Machine
end

