-- ==== Sys2Proof/Laws/Record.lean ====
section
/-! SUPPORT. Laws of the Event Record: what adding an entry does to the ring, and that it keeps the record
sound. -/

set_option Elab.async false

namespace Sys2Proof.Machine

/-! ## The record grows by entries -/

theorem Grows.trans {a b c : EventRecord} (h : Grows a b) (k : Grows b c) : Grows a c := by
  induction k with
  | refl => exact h
  | entry e _ seq ih => exact .entry e ih seq

theorem Grows.addEntry (s : State) (k : EventKind) (u : Subject) (o : Origin) (d : Detail) (v w : Option Int)
    (c : Option (Fin 4)) : Grows s.events (s.addEntry k u o d v w c).events :=
  .entry _ (.refl _) rfl

@[simp] theorem makeRoom_nextSequence (r : EventRecord) : r.makeRoom.nextSequence = r.nextSequence := by
  unfold EventRecord.makeRoom
  split <;> [split; skip] <;> rfl

theorem append_nextSequence (r : EventRecord) (e : Entry) :
    (r.append e).nextSequence = nextSeq r.nextSequence := by
  simp [EventRecord.append]

/-- While fewer than 1024 entries are held, nothing is discarded (10 R185). -/
theorem append_of_room {r : EventRecord} (e : Entry) (h : r.ring.length < 1024) :
    r.append e = { r with ring := r.ring ++ [e], nextSequence := nextSeq r.nextSequence } := by
  have : r.makeRoom = r := by
    unfold EventRecord.makeRoom
    split
    · rw [if_neg (by omega)]
    · rfl
  simp [EventRecord.append, this]

/-- The newest entry of the record after one is added is that entry (10 R184). -/
theorem append_ring_last (r : EventRecord) (e : Entry) : (r.append e).ring.getLast? = some e := by
  simp [EventRecord.append]

theorem pushed_subscription (c : PortCursor) (n : Nat) : (c.pushed n).classes = c.classes := by
  unfold PortCursor.pushed
  split <;> rfl

/-! ## Soundness is kept -/

theorem EventRecord.sound.makeRoom {r : EventRecord} (h : r.sound) :
    r.makeRoom.sound ∧ r.makeRoom.ring.length < 1024 := by
  obtain ⟨hl, hn, hs, hc⟩ := h
  unfold EventRecord.makeRoom
  split
  · rename_i e rest hr
    rw [hr] at hl hs
    split
    · rename_i hf
      rw [hr] at hf
      simp only [List.length_cons] at hl hf
      refine ⟨⟨by simp; omega, hn, ?_, ?_⟩, by simp; omega⟩
      · intro k hk
        have := hs (k + 1) (by simpa using hk)
        simp only [List.getElem?_cons_succ, EventRecord.sequenceAt, hr, List.length_cons] at this ⊢
        rw [this]
        congr 2
        omega
      · intro p
        have h0 := hs 0 (by simp)
        simp only [List.getElem?_cons_zero, Option.map_some, EventRecord.sequenceAt, hr,
          List.length_cons, Option.some.injEq] at h0
        obtain ⟨ha, hb⟩ := hc p
        rw [hr] at hb
        simp only [File.get_map, PortCursor.pushed, seqDistance, nextSeq, List.length_cons] at hb ⊢
        split
        · dsimp only
          constructor <;> omega
        · constructor <;> omega
    · rename_i hf
      rw [hr] at hf
      exact ⟨⟨by rw [hr]; exact hl, hn, by rw [hr]; exact hs, hc⟩, by rw [hr]; omega⟩
  · rename_i hr
    exact ⟨⟨hl, hn, hs, hc⟩, by rw [hr]; simp⟩

theorem append_sequenceAt_lt {r : EventRecord} (e : Entry) {k : Nat}
    (h : k < r.ring.length) (hl : r.ring.length ≤ 1024) :
    EventRecord.sequenceAt { r with ring := r.ring ++ [e], nextSequence := nextSeq r.nextSequence } k =
      r.sequenceAt k := by
  simp only [EventRecord.sequenceAt, List.length_append, List.length_singleton, nextSeq]
  omega

theorem append_sequenceAt_last {r : EventRecord} (e : Entry) (h : r.nextSequence < 4294967296) :
    EventRecord.sequenceAt { r with ring := r.ring ++ [e], nextSequence := nextSeq r.nextSequence }
      r.ring.length = r.nextSequence := by
  simp only [EventRecord.sequenceAt, List.length_append, List.length_singleton, nextSeq]
  omega

theorem EventRecord.sound.append {r : EventRecord} (h : r.sound) (e : Entry)
    (seq : e.sequence = r.nextSequence) : (r.append e).sound := by
  obtain ⟨⟨hl, hn, hs, hc⟩, hlt⟩ := h.makeRoom
  have hseq : e.sequence = r.makeRoom.nextSequence := by rw [seq, makeRoom_nextSequence]
  unfold EventRecord.append
  refine ⟨?_, ?_, ?_, ?_⟩
  · simp only [List.length_append, List.length_singleton]
    omega
  · simp only [nextSeq]
    omega
  · intro k hk
    simp only [List.length_append, List.length_singleton] at hk
    rcases Nat.lt_or_ge k r.makeRoom.ring.length with h1 | h1
    · rw [append_sequenceAt_lt e h1 hl, ← hs k h1]
      simp only [List.getElem?_append_left h1]
    · obtain rfl : k = r.makeRoom.ring.length := by omega
      rw [append_sequenceAt_last e hn]
      simp only [List.getElem?_concat_length, Option.map_some, hseq]
  · intro p
    obtain ⟨ha, hb⟩ := hc p
    refine ⟨ha, ?_⟩
    simp only [seqDistance, nextSeq, List.length_append, List.length_singleton] at hb ⊢
    omega

theorem Grows.sound {r r' : EventRecord} (h : Grows r r') (hs : r.sound) : r'.sound := by
  induction h with
  | refl => exact hs
  | entry e _ seq ih => exact ih.append e seq

end Sys2Proof.Machine
end

