-- ==== Sys2Proof/Laws/Quiet.lean ====
section
/-! SUPPORT. What every event inside the part may change, said once: `Quiet s t` lists what the shared operations
leave and which conditions they keep. Each operation has one lemma, in the form "a quiet change followed by the
operation is quiet". -/

set_option Elab.async false

namespace Sys2Proof.Machine

/-- A change made by the blocks among themselves: queue, clock, settings, inputs, sample port, line clock,
authority, ports and programme store stand; the record grows; what is sound stays so. -/
structure Quiet (s t : State) : Prop where
  pending : t.pending = s.pending
  now : t.now = s.now
  resetLine : t.resetLine = s.resetLine
  startedAt : t.startedAt = s.startedAt
  restartCause : t.restartCause = s.restartCause
  settings : t.settings = s.settings
  store : t.store = s.store
  sample : t.sample = s.sample
  inputs : t.inputs = s.inputs
  acInput : t.acInput = s.acInput
  key : t.key = s.key
  authority : t.authority = s.authority
  clock : t.clock = s.clock
  slots : t.slots = s.slots
  headers : t.headers = s.headers
  ports : t.ports = s.ports
  grows : Grows s.events t.events
  ready : ∀ f, (t.feeder f).ready = (s.feeder f).ready
  feeders : FeedersSound s → FeedersSound t
  matching : MatchSound s → MatchSound t
  angle : s.settings.angleRange → s.rect.sound s.station → t.rect.sound t.station
  captures : CapturesSound s → CapturesSound t

namespace Quiet

variable {s t u : State}

theorem refl (s : State) : Quiet s s :=
  { pending := rfl, now := rfl, resetLine := rfl, startedAt := rfl, restartCause := rfl, settings := rfl,
    store := rfl, sample := rfl, inputs := rfl, acInput := rfl, key := rfl, authority := rfl, clock := rfl,
    slots := rfl, headers := rfl, ports := rfl, grows := .refl _, ready := fun _ => rfl, feeders := id,
    matching := id, angle := fun _ h => h, captures := id }

theorem trans (h : Quiet s t) (k : Quiet t u) : Quiet s u :=
  { pending := k.pending.trans h.pending
    now := k.now.trans h.now
    resetLine := k.resetLine.trans h.resetLine
    startedAt := k.startedAt.trans h.startedAt
    restartCause := k.restartCause.trans h.restartCause
    settings := k.settings.trans h.settings
    store := k.store.trans h.store
    sample := k.sample.trans h.sample
    inputs := k.inputs.trans h.inputs
    acInput := k.acInput.trans h.acInput
    key := k.key.trans h.key
    authority := k.authority.trans h.authority
    clock := k.clock.trans h.clock
    slots := k.slots.trans h.slots
    headers := k.headers.trans h.headers
    ports := k.ports.trans h.ports
    grows := h.grows.trans k.grows
    ready := fun f => (k.ready f).trans (h.ready f)
    feeders := k.feeders ∘ h.feeders
    matching := k.matching ∘ h.matching
    angle := fun r x => k.angle (by rw [h.settings]; exact r) (h.angle r x)
    captures := k.captures ∘ h.captures }

theorem config (h : Quiet s t) (f : Feeder) : t.config f = s.config f := by
  simp only [State.config, h.settings]

theorem station (h : Quiet s t) : t.station = s.station := by
  simp only [State.station, h.settings]

/-! ## The single updates -/

/-- An update of one Feeder Record that keeps it sound and leaves readiness. -/
theorem modFeeder (h : Quiet s t) (f : Feeder) {g : FeederRecord → FeederRecord}
    (hg : (t.feeder f).sound → (g (t.feeder f)).sound) (hr : (g (t.feeder f)).ready = (t.feeder f).ready) :
    Quiet s (t.modFeeder f g) :=
  h.trans
    { refl t with
      ready := fun f' => by
        by_cases e : f' = f
        · subst e; simpa using hr
        · simp [e]
      feeders := fun k f' => by
        by_cases e : f' = f
        · subst e; simpa using hg (k f')
        · simpa [e] using k f' }

/-- An update of one Section Record that keeps the kind of its match. -/
theorem modSection (h : Quiet s t) (f : Feeder) {g : SectionRecord → SectionRecord}
    (hg : ((t.section' f).matching = .noFarEnd ↔ (t.config f).farLink = none) →
      ((g (t.section' f)).matching = .noFarEnd ↔ (t.config f).farLink = none)) :
    Quiet s (t.modSection f g) :=
  h.trans
    { refl t with
      matching := fun k f' => by
        by_cases e : f' = f
        · subst e; simpa using hg (k f')
        · simpa [e] using k f' }

theorem modFault (h : Quiet s t) (f : Feeder) (g : FaultRecord → FaultRecord) : Quiet s (t.modFault f g) :=
  h.trans { refl t with }

theorem modLink (h : Quiet s t) (l : LinkId) (g : SectionLink → SectionLink) : Quiet s (t.modLink l g) :=
  h.trans { refl t with }

theorem modRunner (h : Quiet s t) (r : RunnerId) (g : Runner → Runner) : Quiet s (t.modRunner r g) :=
  h.trans { refl t with }

theorem modRect (h : Quiet s t) {g : Rectifier → Rectifier}
    (hg : t.settings.angleRange → t.rect.sound t.station → (g t.rect).sound t.station) :
    Quiet s (t.modRect g) :=
  h.trans { refl t with angle := hg }

theorem addEntry (h : Quiet s t) (k : EventKind) (o : Subject) (p : Origin) (d : Detail) (v w : Option Int)
    (c : Option (Fin 4)) : Quiet s (t.addEntry k o p d v w c) :=
  h.trans { refl t with grows := Grows.addEntry t k o p d v w c }

theorem choices (h : Quiet s t) (n : Nat) : Quiet s { t with choices := n } :=
  h.trans { refl t with }

theorem links (h : Quiet s t) (k : File SectionLink 2) : Quiet s { t with links := k } :=
  h.trans { refl t with }

theorem time (h : Quiet s t) (x : TimeBase) : Quiet s { t with time := x } :=
  h.trans { refl t with }

theorem captureUnit (h : Quiet s t) {u : CaptureUnit} (hu : t.captures.sound → u.sound) :
    Quiet s { t with captures := u } :=
  h.trans { refl t with captures := hu }

/-- An update is done or not. -/
theorem ite (c : Prop) [Decidable c] (h : Quiet s t) (k : Quiet s u) : Quiet s (if c then t else u) := by
  split <;> assumption

/-! ## Parts of one event -/

theorem inFreeOrder (n : Nat) (parts : List (State → State)) (h : Quiet s t)
    (hp : ∀ part ∈ parts, ∀ u, Quiet s u → Quiet s (part u)) : Quiet s (inFreeOrder n parts t) := by
  induction n generalizing parts t with
  | zero => exact h
  | succ n ih =>
    match parts with
    | [] => exact h
    | [part] => exact hp part (by simp) t h
    | a :: b :: rest =>
      simp only [Machine.inFreeOrder]
      apply ih
      · rcases hk : (a :: b :: rest)[Config.choice t.choices % (a :: b :: rest).length]? with _ | part
        · exact h.choices _
        · exact hp part (List.mem_of_getElem? hk) _ (h.choices _)
      · intro part hm u hu
        exact hp part (List.mem_of_mem_eraseIdx hm) u hu

theorem foldl {α : Type} (l : List α) (f : State → α → State) (h : Quiet s t)
    (hf : ∀ a ∈ l, ∀ u, Quiet s u → Quiet s (f u a)) : Quiet s (l.foldl f t) := by
  induction l generalizing t with
  | nil => exact h
  | cons a rest ih =>
    exact ih (hf a (by simp) t h) fun b hb => hf b (List.mem_cons_of_mem _ hb)

theorem together (parts : List (State → State)) (h : Quiet s t)
    (hp : ∀ part ∈ parts, ∀ u, Quiet s u → Quiet s (part u)) : Quiet s (together parts t) := by
  unfold Machine.together
  apply inFreeOrder
  · apply foldl _ _ h
    intro part hm u hu
    exact hp part (List.mem_of_mem_filter hm) u hu
  · intro part hm
    exact hp part (List.mem_of_mem_filter hm)

/-! ## Links and captures (Ops) -/

theorem post (h : Quiet s t) (l : LinkId) (g : Signal) (d : Option Instant) : Quiet s (t.post l g d) :=
  h.modLink l _

theorem postFar (h : Quiet s t) (f : Feeder) (g : Feeder → Signal) : Quiet s (t.postFar f g) := by
  unfold State.postFar
  split
  · exact h.post _ _ _
  · exact h

theorem withdrawFar (h : Quiet s t) (f : Feeder) (g : Feeder → Signal) : Quiet s (t.withdrawFar f g) := by
  unfold State.withdrawFar
  split
  · exact h.modLink _ _
  · exact h

theorem queueFeederEnd (h : Quiet s t) (f : Feeder) : Quiet s (t.queueFeederEnd f) := by
  unfold State.queueFeederEnd
  split
  · exact h.modLink _ _
  · exact h

theorem queueSystem (h : Quiet s t) : Quiet s t.queueSystem := h.links _

theorem setClaim (h : Quiet s t) (f : Feeder) (c : ClaimState) (d : Option Instant) :
    Quiet s (t.setClaim f c d) := by
  unfold State.setClaim
  split
  · exact h.modSection f id
  · exact (h.modSection f id).queueFeederEnd f

theorem captureHeldEntry (h : Quiet s t) (n : Fin 4) (c : Capture) : Quiet s (t.captureHeldEntry n c) :=
  h.addEntry ..

end Quiet

/-- A buffer that changes in its marks only, or fills by one frame in range, keeps the unit sound. -/
theorem CaptureUnit.sound.replace {u : CaptureUnit} (h : u.sound) {n : Fin 4} {c d : Capture}
    (hc : u.buffers.get n = some c) (hf : d.feeder = c.feeder) (hh : c.held = true → d.held = true)
    (hp : d.pre = c.pre) (h1 : d.pre ≤ d.triples.length) (h2 : d.triples.length ≤ d.pre + 192)
    (h3 : d.held = false → d.triples.length < d.pre + 192) :
    { u with buffers := u.buffers.set n (some d) }.sound := by
  obtain ⟨a, b, k⟩ := h
  refine ⟨a, ?_, ?_⟩
  · intro m e he
    by_cases hm : m = n
    · subst hm
      simp only [File.get_set_self, Option.some.injEq] at he
      subst he
      exact ⟨hp ▸ (b m c hc).1, h1, h2, h3⟩
    · simp only [File.get_set_ne _ _ hm] at he
      exact b m e he
  · intro i j x y hx hy hx' hy' hxy
    have key : ∀ i x, (u.buffers.set n (some d)).get i = some x → x.held = false →
        ∃ x', u.buffers.get i = some x' ∧ x'.held = false ∧ x'.feeder = x.feeder := by
      intro i x hx hx'
      by_cases hi : i = n
      · subst hi
        simp only [File.get_set_self, Option.some.injEq] at hx
        subst hx
        refine ⟨c, hc, ?_, hf.symm⟩
        cases hch : c.held
        · rfl
        · rw [hh hch] at hx'; cases hx'
      · simp only [File.get_set_ne _ _ hi] at hx
        exact ⟨x, hx, hx', rfl⟩
    obtain ⟨x', e1, e2, e3⟩ := key i x hx hx'
    obtain ⟨y', e4, e5, e6⟩ := key j y hy hy'
    exact k i j x' y' e1 e4 e2 e5 (by rw [e3, e6, hxy])

/-- A buffer released, or never used, is FREE. -/
theorem CaptureUnit.sound.free {u : CaptureUnit} (h : u.sound) (n : Fin 4) :
    { u with buffers := u.buffers.set n none }.sound := by
  obtain ⟨a, b, k⟩ := h
  have key : ∀ i x, (u.buffers.set n none).get i = some x → u.buffers.get i = some x := by
    intro i x hx
    by_cases hi : i = n
    · subst hi; simp at hx
    · simpa [hi] using hx
  exact ⟨a, fun m e he => b m e (key m e he), fun i j x y hx hy => k i j x y (key i x hx) (key j y hy)⟩

/-- A capture for a feeder without a FILLING buffer is started in a FREE buffer. -/
theorem CaptureUnit.sound.start {u : CaptureUnit} (h : u.sound) {n : Fin 4} {c : Capture}
    (hc : u.filling c.feeder = false) (hp : c.pre ≤ 64) (hl : c.triples.length = c.pre) :
    { u with buffers := u.buffers.set n (some c) }.sound := by
  obtain ⟨a, b, k⟩ := h
  have none' : ∀ i x, u.buffers.get i = some x → x.held = false → x.feeder ≠ c.feeder := by
    intro i x hx hh e
    unfold CaptureUnit.filling at hc
    rw [List.any_eq_false] at hc
    have := hc (some x) (by
      rw [← hx, File.get_eq_getElem]
      exact List.getElem_mem _)
    simp [hh, e] at this
  refine ⟨a, ?_, ?_⟩
  · intro m e he
    by_cases hm : m = n
    · subst hm
      simp only [File.get_set_self, Option.some.injEq] at he
      subst he
      exact ⟨hp, by omega, by omega, fun _ => by omega⟩
    · simp only [File.get_set_ne _ _ hm] at he
      exact b m e he
  · intro i j x y hx hy hx' hy' hxy
    by_cases hi : i = n <;> by_cases hj : j = n
    · rw [hi, hj]
    · subst hi
      simp only [File.get_set_self, Option.some.injEq] at hx
      simp only [File.get_set_ne _ _ hj] at hy
      subst hx
      exact absurd hxy.symm (none' j y hy hy')
    · subst hj
      simp only [File.get_set_self, Option.some.injEq] at hy
      simp only [File.get_set_ne _ _ hi] at hx
      subst hy
      exact absurd hxy (none' i x hx hx')
    · simp only [File.get_set_ne _ _ hi] at hx
      simp only [File.get_set_ne _ _ hj] at hy
      exact k i j x y hx hy hx' hy' hxy

theorem pushTriple_length (l : List Triple) (x : Triple) :
    (pushTriple l x).length ≤ 64 := by
  simp only [pushTriple, List.length_drop]
  omega

namespace Quiet

variable {s t : State}

theorem startCapture (h : Quiet s t) {n : Fin 4} {f : Feeder} (c : TripCause) (hn : t.captureFor f = some n) :
    Quiet s (t.startCapture n f c) := by
  have free : t.captures.filling f = false := by
    simp only [State.captureFor] at hn
    split at hn
    · cases hn
    · rename_i e
      simpa using e
  exact h.captureUnit fun k => k.start free (k.1 f) rfl

theorem truncateCapture (h : Quiet s t) (n : Fin 4) : Quiet s (t.truncateCapture n) := by
  unfold State.truncateCapture
  split
  · rename_i c hc
    split
    · exact h
    · apply Quiet.captureHeldEntry
      apply h.captureUnit
      intro k
      exact k.replace hc rfl (fun _ => rfl) rfl (k.2.1 n c hc).2.1 (k.2.1 n c hc).2.2.1
        fun e => by cases e
  · exact h

theorem fillCapture (h : Quiet s t) (n : Fin 4) (x : Feeder → Triple) : Quiet s (t.fillCapture n x) := by
  unfold State.fillCapture
  split
  · rename_i c hc
    split
    · exact h
    · rename_i hh
      dsimp only
      have e : c.held = false := by simpa using hh
      split
      · rename_i hl
        apply h.captureUnit
        intro k
        obtain ⟨_, b1, _, b3⟩ := k.2.1 n c hc
        exact k.replace hc rfl (fun e => absurd e hh) rfl (by simp; omega) (by dsimp only at hl ⊢; omega)
          fun _ => hl
      · apply Quiet.captureHeldEntry
        apply h.captureUnit
        intro k
        obtain ⟨_, b1, _, b3⟩ := k.2.1 n c hc
        exact k.replace hc rfl (fun _ => rfl) rfl (by simp; omega) (by have := b3 e; simp; omega)
          fun e => by cases e
  · exact h

theorem emptyHistories (h : Quiet s t) : Quiet s t.emptyHistories :=
  h.captureUnit fun ⟨_, b⟩ => ⟨fun f => by simp, b⟩

theorem frameHistories (h : Quiet s t) (q : Quantities) : Quiet s (t.frameHistories q) :=
  h.captureUnit fun ⟨_, b⟩ => ⟨fun f => by
    rw [File.get_ofList_eight]
    exact pushTriple_length _ _, b⟩

theorem frameLate (h : Quiet s t) (q : Quantities) : Quiet s (t.frameLate q) := h.captureUnit id

theorem fillParts {part : State → State} {q : Quantities} (hm : part ∈ fillParts q) {u : State}
    (h : Quiet s u) : Quiet s (part u) := by
  obtain ⟨n, _, rfl⟩ := List.mem_map.mp hm
  exact h.fillCapture n _

theorem settleCaptures (h : Quiet s t) : Quiet s t.settleCaptures := by
  unfold State.settleCaptures
  split
  · exact (h.frameHistories _).together _ fun _ hm _ k => k.fillParts hm
  · exact h

end Quiet

end Sys2Proof.Machine
end

