-- ==== Sys2Proof/Laws/QuietOps.lean ====
section
/-! SUPPORT. The shared operations of the runners, the Firing Unit, Fault Detection and Breaker Control are
quiet changes. -/

set_option Elab.async false

namespace Sys2Proof.Machine

namespace Quiet

variable {s t : State}

/-! ## Runners -/

theorem completeStep (h : Quiet s t) (r : RunnerId) (o : StepOutcome) : Quiet s (t.completeStep r o) := by
  unfold State.completeStep
  dsimp only
  split
  · exact (h.modRunner _ _).modRunner _ _
  · exact ((h.modRunner _ _).modRunner _ _).addEntry ..

theorem haltRunner (h : Quiet s t) (r : RunnerId) (c : FailureCause) : Quiet s (t.haltRunner r c) :=
  (h.modRunner _ _).addEntry ..

theorem failStep (h : Quiet s t) (r : RunnerId) (c : FailureCause) (e : Option Int) :
    Quiet s (t.failStep r c e) := by
  unfold State.failStep
  dsimp only
  split
  · exact ((h.modRunner _ _).addEntry ..).haltRunner _ _
  · exact ((h.modRunner _ _).addEntry ..).completeStep _ _

theorem await (h : Quiet s t) (r : RunnerId) (a : Awaiting) : Quiet s (t.await r a) := h.modRunner _ _

theorem closeToRunner (h : Quiet s t) (f : Feeder) (c : CloseResult) (r : RunnerId) :
    Quiet s (t.closeToRunner f c r) := by
  unfold State.closeToRunner
  split
  · split
    · exact h.completeStep _ _
    · exact h.failStep _ _ _
  · exact h

theorem rectToRunner (h : Quiet s t) (r : RunnerId) : Quiet s (t.rectToRunner r) := by
  unfold State.rectToRunner
  split
  · split
    · exact h.completeStep _ _
    · exact h.failStep _ _ _
    · exact h.failStep _ _ _
    · exact h
    · exact h
  · exact h

theorem judgeWait (h : Quiet s t) (p : Step → Bool) (r : RunnerId) : Quiet s (t.judgeWait p r) := by
  unfold State.judgeWait
  split
  · exact h.completeStep _ _
  · exact h

theorem judgeWaits (h : Quiet s t) (p : Step → Bool) : Quiet s (t.judgeWaits p) :=
  h.together _ (by
    intro part hm u hu
    obtain ⟨r, _, rfl⟩ := List.mem_map.mp hm
    exact hu.judgeWait p r)

theorem rectToRunners (h : Quiet s t) : Quiet s t.rectToRunners :=
  h.together _ (by
    intro part hm u hu
    obtain ⟨r, _, rfl⟩ := List.mem_map.mp hm
    exact (hu.rectToRunner r).judgeWait _ r)

theorem closeToRunners (h : Quiet s t) (f : Feeder) (c : CloseResult) : Quiet s (t.closeToRunners f c) :=
  h.together _ (by
    intro part hm u hu
    obtain ⟨r, _, rfl⟩ := List.mem_map.mp hm
    exact hu.closeToRunner f c r)

/-! ## The Firing Unit -/

/-- An update of the rectifier that leaves state, applied alpha and AC operation. -/
theorem modRectSame (h : Quiet s t) {g : Rectifier → Rectifier} (hs : (g t.rect).state = t.rect.state)
    (ha : (g t.rect).applied = t.rect.applied) (ho : (g t.rect).acOperation = t.rect.acOperation) :
    Quiet s (t.modRect g) :=
  h.modRect fun _ k => by unfold Rectifier.sound; rw [hs, ha, ho]; exact k

/-- An update of the rectifier that leads outside RUNNING at alpha max, with no close under way. -/
theorem modRectOut (h : Quiet s t) {g : Rectifier → Rectifier} (hs : (g t.rect).state ≠ .running)
    (ha : (g t.rect).applied = t.station.alphaMax)
    (ho : ∀ op, (g t.rect).acOperation = some op → op.kind ≠ .close) : Quiet s (t.modRect g) :=
  h.modRect fun _ _ => ⟨fun e => absurd e hs, fun _ => ha, fun op a b => absurd b (ho op a)⟩

theorem rectEntry (h : Quiet s t) (k : EventKind) (o : Origin) (d : Detail) (v w : Option Int) :
    Quiet s (t.rectEntry k o d v w) := h.addEntry ..

theorem setTarget (h : Quiet s t) (a : Nat) : Quiet s (t.setTarget a) := h.modRectSame rfl rfl rfl

/-- Entry into RUNNING from a state without a close under way. -/
theorem enterRunning (h : Quiet s t)
    (ho : t.rect.sound t.station → ∀ op, t.rect.acOperation = some op → op.kind ≠ .close) :
    Quiet s t.enterRunning := by
  apply Quiet.rectToRunners
  apply Quiet.rectEntry
  exact h.modRect fun r k =>
    ⟨fun _ => ⟨r, Nat.le_refl _⟩, fun e => absurd rfl e, fun op a b => absurd b (ho k op a)⟩

/-- The rectifier stops and its AC breaker opens, in one update. -/
theorem stopOpen (h : Quiet s t) {x : RectState} (hx : x ≠ .running) (c : RectTripCause → RectTripCause)
    (o : Origin) :
    Quiet s ((t.modRect fun r => { r.stopped t.station x with lastTripCause := c r.lastTripCause }).openAc
      o) := by
  have : (t.modRect fun r => { r.stopped t.station x with lastTripCause := c r.lastTripCause }).openAc o =
      t.modRect fun r =>
        { r.stopped t.station x with
          lastTripCause := c r.lastTripCause,
          acOperation :=
            if t.acPosition = .opened then none
            else some { kind := .opening, origin := o, startAt := t.now, deadline := t.now + ms 200,
                        overdue := false } } := rfl
  rw [this]
  refine h.modRectOut hx rfl ?_
  intro op e
  dsimp only at e
  split at e
  · cases e
  · cases e; simp

theorem openAc (h : Quiet s t) (o : Origin) : Quiet s (t.openAc o) := by
  refine h.modRect fun _ k => ⟨k.1, k.2.1, ?_⟩
  intro op e
  dsimp only at e
  split at e
  · cases e
  · cases e; nofun

theorem rectTrip (h : Quiet s t) (c : RectTripCause) (v w : Option Int) : Quiet s (t.rectTrip c v w) :=
  ((h.stopOpen (x := .tripped) (by simp) (fun _ => c) .protection).rectEntry _ _ _ _ _).rectToRunners

theorem startRect (h : Quiet s t) (o : Origin) (ht : t.rect.state ≠ .running) : Quiet s (t.startRect o) :=
  ((h.modRect fun _ k => ⟨(by intro e; cases e), fun _ => k.2.1 ht, fun _ _ _ => rfl⟩).rectEntry _ _ _ _ _).rectToRunners

theorem stopRect (h : Quiet s t) (o : Origin) : Quiet s (t.stopRect o) := by
  unfold State.stopRect
  dsimp only
  split
  · exact ((h.stopOpen (x := .blocked) (by simp) id o).rectEntry _ _ _ _ _).rectToRunners
  · split
    · exact (h.openAc _).rectEntry ..
    · exact h

theorem resetRect (h : Quiet s t) (o : Origin) (ht : t.rect.state = .tripped) : Quiet s (t.resetRect o) :=
  ((h.modRect fun _ k =>
    ⟨(by intro e; cases e), fun _ => k.2.1 (by simp [ht]), fun op a b => absurd (k.2.2 op a b) (by simp [ht])⟩).rectEntry
      _ _ _ _ _).rectToRunners

theorem acOpenedUncommanded (h : Quiet s t) : Quiet s t.acOpenedUncommanded :=
  ((h.modRectOut (by simp [Rectifier.stopped]) rfl (by intro op e; cases e)).rectEntry ..).rectToRunners

theorem acOpened (h : Quiet s t) (op : AcOperation) : Quiet s (t.acOpened op) :=
  (h.modRect fun _ k => ⟨k.1, k.2.1, (by intro op e; cases e)⟩).rectEntry ..

/-- AC CLOSED in CONNECTING: SYNCING, or RUNNING at once. -/
theorem acClosed (h : Quiet s t) {op : AcOperation} (ho : t.rect.acOperation = some op)
    (hk : op.kind = .close) : Quiet s (t.acClosed op) := by
  unfold State.acClosed State.enterSyncing
  dsimp only
  let g : Rectifier → Rectifier := fun r => { r with acOperation := none }
  let g' : Rectifier → Rectifier := fun r => { r with state := .syncing }
  have k : Quiet s (((t.modRect g).rectEntry .acClosed .protection .nothing
      (some (t.msSince op.startAt)) none).modRect g') := by
    have k := h.modRect (g := fun r => { r with acOperation := none, state := .syncing }) fun _ k =>
      ⟨(by intro e; cases e), fun _ => k.2.1 (by rw [k.2.2 op ho hk]; simp), (by intro op e; cases e)⟩
    exact k.rectEntry .acClosed .protection .nothing (some (t.msSince op.startAt)) none
  split
  · exact k.enterRunning fun _ op e => by cases e
  · exact k.rectToRunners

theorem acPositionChange (h : Quiet s t) (x : Position) : Quiet s (t.acPositionChange x) := by
  unfold State.acPositionChange
  split
  · rename_i op e
    split
    · rename_i e'
      exact h.acClosed e e'
    · exact Quiet.rectEntry h ..
  · split
    · exact h.acOpenedUncommanded
    · exact h.acOpened _
  · split
    · exact h.acOpenedUncommanded
    · exact h
  · split
    · exact h
    · exact Quiet.rectEntry h ..
  · exact h

theorem acCloseFailed (h : Quiet s t) : Quiet s t.acCloseFailed :=
  ((h.modRectOut (by simp [Rectifier.stopped]) rfl (by intro op e; cases e)).rectEntry ..).rectToRunners

theorem acOverdue (h : Quiet s t) {op : AcOperation} (ho : t.rect.acOperation = some op) :
    Quiet s (t.acOverdue op) :=
  (h.modRect fun _ k => ⟨k.1, k.2.1, fun x a b => by cases a; exact k.2.2 op ho b⟩).rectEntry ..

theorem overvoltageFrame (h : Quiet s t) (v : Option Int) : Quiet s (t.overvoltageFrame v) := by
  unfold State.overvoltageFrame
  split
  · exact h.modRectSame rfl rfl rfl
  · dsimp only
    split
    · exact (h.modRectSame rfl rfl rfl).rectEntry ..
    · exact h.modRectSame rfl rfl rfl

theorem overcurrentFrame (h : Quiet s t) (v : Option Int) : Quiet s (t.overcurrentFrame v) := by
  unfold State.overcurrentFrame
  split
  · split
    · exact h.modRectSame rfl rfl rfl
    · dsimp only
      split
      · exact (h.modRectSame rfl rfl rfl).rectTrip _ _ _
      · exact h.modRectSame rfl rfl rfl
  · exact h

theorem measurementHold (h : Quiet s t) (b : Bool) : Quiet s (t.measurementHold b) := h.modRectSame rfl rfl rfl

theorem retardNotice (h : Quiet s t) (f : Feeder) : Quiet s (t.retardNotice f) := by
  unfold State.retardNotice
  exact h.modRectSame rfl rfl rfl

theorem failureNotice (h : Quiet s t) (f : Feeder) : Quiet s (t.failureNotice f) := by
  unfold State.failureNotice
  split
  · exact h.rectTrip _ _ _
  · exact h

theorem unlockedNotice (h : Quiet s t) (c : ClockCause) : Quiet s (t.unlockedNotice c) := by
  unfold State.unlockedNotice
  split
  · rename_i e
    exact ((h.modRect fun _ k =>
      ⟨(by intro e; cases e), fun _ => rfl, fun op a b => absurd (k.2.2 op a b) (by simp [e])⟩).rectEntry ..).rectToRunners
  · exact h.modRectSame rfl rfl rfl

theorem lockedNotice (h : Quiet s t) : Quiet s t.lockedNotice := by
  unfold State.lockedNotice
  split
  · rename_i e
    exact h.enterRunning fun k op a b => absurd (k.2.2 op a b) (by simp [e])
  · exact h

end Quiet

/-- A step toward a value of a range stays in the range. -/
theorem toward_mem {a b v w n : Nat} (hv : a ≤ v ∧ v ≤ b) (hw : a ≤ w ∧ w ≤ b) :
    a ≤ toward v w n ∧ toward v w n ≤ b := by
  unfold toward
  split <;> omega

/-- A clamped angle lies in the range (06 R114). -/
theorem clamp_mem {v : StationSettings} (h : v.alphaMin ≤ v.alphaMax) (a : Nat) :
    v.alphaMin ≤ v.clamp a ∧ v.clamp a ≤ v.alphaMax := by
  unfold StationSettings.clamp
  omega

/-- The applied angle of a new cycle lies in the range (06 R115). -/
theorem nextAlpha_mem {v : StationSettings} {r : Rectifier} (h : v.alphaMin ≤ v.alphaMax)
    (hr : v.alphaMin ≤ r.applied ∧ r.applied ≤ v.alphaMax) :
    v.alphaMin ≤ nextAlpha v r ∧ nextAlpha v r ≤ v.alphaMax := by
  unfold nextAlpha
  split
  · omega
  · exact toward_mem hr (clamp_mem h _)

@[simp] theorem beginTick_state (r : Rectifier) (n : Nat) : (r.beginTick n).state = r.state := by
  unfold Rectifier.beginTick
  split <;> [split; skip] <;> rfl

@[simp] theorem beginTick_applied (r : Rectifier) (n : Nat) : (r.beginTick n).applied = r.applied := by
  unfold Rectifier.beginTick
  split <;> [split; skip] <;> rfl

@[simp] theorem beginTick_acOperation (r : Rectifier) (n : Nat) :
    (r.beginTick n).acOperation = r.acOperation := by
  unfold Rectifier.beginTick
  split <;> [split; skip] <;> rfl

/-- A cycle start keeps the angle in its range (06 R111, R115). -/
theorem cycleStart_angle {v : StationSettings} {r : Rectifier} (h : v.alphaMin ≤ v.alphaMax)
    (k : r.sound v) : (r.cycleStart v).sound v := by
  unfold Rectifier.cycleStart
  split
  · rename_i e
    have := nextAlpha_mem h (k.1 e)
    refine ⟨fun _ => by simpa using this, fun x => absurd (by simpa using e) x, fun op a b => ?_⟩
    simp only [beginTick_acOperation] at a
    exact absurd (k.2.2 op a b) (by simp [e])
  · exact k

namespace Quiet

variable {s t : State}

theorem cycleNotice (h : Quiet s t) : Quiet s t.cycleNotice :=
  h.modRect fun r k => cycleStart_angle r (by
    unfold Rectifier.sound Rectifier.tickBoundary
    exact k)

/-! ## Fault Detection -/

theorem protectionNotice (h : Quiet s t) (old : FeederState) (f : Feeder) : Quiet s (t.protectionNotice old f) :=
  h.modFault _ _

theorem groupNotice (h : Quiet s t) (f : Feeder) (g : GroupName) : Quiet s (t.groupNotice f g) := h.modFault _ _

end Quiet

end Sys2Proof.Machine
end

