-- ==== Sys2Proof/Laws/QuietBreaker.lean ====
section
/-! SUPPORT. Breaker Control's operations are quiet changes, and every state they lead a feeder to has the fields
of that state. -/

set_option Elab.async false

namespace Sys2Proof.Machine

/-! ## The states a feeder is led to -/

/-- What an update of a Feeder Record leads to is sound, whatever state it leaves, and ready as before. -/
def Leads (g : FeederRecord → FeederRecord) : Prop :=
  ∀ r, (g r).ready = r.ready ∧ (r.attempts ≤ 5 → (g r).sound)

theorem leads_toOpen : Leads FeederRecord.toOpen := fun _ =>
  ⟨rfl, fun _ => ⟨rfl, nofun, rfl, rfl, nofun, nofun,
    Nat.zero_le 5⟩⟩

theorem leads_toRecloseWait (d : Instant) : Leads fun r => r.toRecloseWait d := fun _ =>
  ⟨rfl, fun h => ⟨rfl, nofun, rfl, rfl, nofun, nofun, h⟩⟩

theorem leads_toLockedOut (x : LockoutReason) : Leads fun r => r.toLockedOut x := fun _ =>
  ⟨rfl, fun h => ⟨rfl, nofun, rfl, rfl, nofun, nofun, h⟩⟩

theorem leads_toClosed (x : StationTime) (w : Instant) : Leads fun r => r.toClosed x w := fun _ =>
  ⟨rfl, fun h => ⟨rfl, nofun, rfl, rfl, nofun, fun _ => rfl, h⟩⟩

theorem leads_toPhase {x : FeederState} {op : Operation} (hx : x.operates = true)
    (hd : op.deadline.isSome = x.timed) : Leads fun r => r.toPhase x op := fun r =>
  ⟨rfl, fun h =>
    ⟨by simpa [FeederRecord.toPhase, FeederRecord.leave] using hx,
      by
        intro op' h'
        simp only [FeederRecord.toPhase, Option.some.injEq] at h'
        subst h'
        exact hd,
      (by cases x <;> first | rfl | cases hx), (by cases x <;> first | rfl | cases hx), nofun, nofun, h⟩⟩

theorem attempt_attempts (r : FeederRecord) : r.attempt.attempts ≤ 5 := Nat.min_le_right _ _

theorem leads_attempt_toPhase {x : FeederState} {op : Operation} (hx : x.operates = true)
    (hd : op.deadline.isSome = x.timed) : Leads fun r => (r.toPhase x op).attempt := fun r =>
  ⟨rfl, fun h =>
    have ⟨a, b, c, d, e, f, _⟩ := (leads_toPhase hx hd r).2 h
    ⟨a, b, c, d, e, f, attempt_attempts _⟩⟩

theorem leads_waitOrOpen (t : State) (f : Feeder) (op : Operation) : Leads (t.waitOrOpen f op) := fun r => by
  unfold State.waitOrOpen
  split
  · exact leads_toRecloseWait _ r
  · exact leads_toOpen r

theorem leads_enterClosed (t : State) (f : Feeder) : Leads (t.enterClosed f) := fun r =>
  leads_toClosed _ _ r

theorem leads_faultyNext (t : State) (f : Feeder) : Leads (t.faultyNext f) := fun r => by
  unfold State.faultyNext
  dsimp only
  split
  · exact ⟨rfl, fun _ => (leads_toRecloseWait _ _).2 (attempt_attempts r)⟩
  · exact ⟨rfl, fun _ => (leads_toLockedOut _ _).2 (attempt_attempts r)⟩

theorem leads_afterTrip (t : State) (f : Feeder) : Leads (t.afterTrip f) := fun r => by
  unfold State.afterTrip
  dsimp only
  split
  · exact leads_toOpen r
  · split
    · exact leads_toRecloseWait _ r
    · exact leads_toLockedOut _ r

namespace Quiet

variable {s t : State}

/-- A feeder enters another state. -/
theorem toState (h : Quiet s t) (f : Feeder) {g : FeederRecord → FeederRecord} (hg : Leads g) :
    Quiet s (t.modFeeder f g) :=
  h.modFeeder f (fun k => (hg _).2 k.2.2.2.2.2.2) (hg _).1

theorem feederNotices (h : Quiet s t) (x : FeederState) (f : Feeder) : Quiet s (t.feederNotices x f) := by
  unfold State.feederNotices
  split
  · exact h
  · exact (((h.protectionNotice x f).retardNotice f).queueFeederEnd f).failureNotice f

theorem regroup (h : Quiet s t) (f : Feeder) : Quiet s (t.regroup f) := by
  unfold State.regroup
  dsimp only
  split
  · exact (h.modFeeder f (fun k => k) rfl).groupNotice f _
  · exact h

theorem setFarState (h : Quiet s t) (f : Feeder) (x : Option FeederState) : Quiet s (t.setFarState f x) := by
  unfold State.setFarState
  split
  · exact h
  · exact ((h.modSection f id).regroup f).judgeWaits _

theorem closeResultEntry (h : Quiet s t) (f : Feeder) (op : Operation) (c : CloseResult) :
    Quiet s (t.closeResultEntry f op c) := h.addEntry ..

theorem closeEnded (h : Quiet s t) (x : FeederState) (f : Feeder) (c : CloseResult) :
    Quiet s (t.closeEnded x f c) := (h.closeToRunners f c).feederNotices x f

theorem endClose (h : Quiet s t) (f : Feeder) (op : Operation) (c : CloseResult)
    {g : FeederRecord → FeederRecord} (hg : Leads g) : Quiet s (t.endClose f op c g) :=
  ((h.toState f hg).closeResultEntry f op c).closeEnded _ f c

theorem releaseClaim (h : Quiet s t) (f : Feeder) : Quiet s (t.releaseClaim f) := by
  unfold State.releaseClaim
  split
  · exact (h.postFar f _).setClaim f _ _
  · split
    · exact (h.withdrawFar f _).setClaim f _ _
    · exact (h.postFar f _).setClaim f _ _
  · exact h
  · exact h

theorem enterClosing (h : Quiet s t) (f : Feeder) (op : Operation) : Quiet s (t.enterClosing f op) := by
  unfold State.enterClosing
  dsimp only
  split
  · exact (h.toState f (leads_attempt_toPhase rfl rfl)).feederNotices _ f
  · exact (h.toState f (leads_toPhase rfl rfl)).feederNotices _ f

theorem enterTesting (h : Quiet s t) (f : Feeder) (op : Operation) (m : TestMode) :
    Quiet s (t.enterTesting f op m) := by
  unfold State.enterTesting
  split
  · exact (h.toState f (leads_toPhase rfl rfl)).feederNotices _ f
  · exact (h.releaseClaim f).endClose f op _ (leads_waitOrOpen _ _ _)

theorem testUnclaimed (h : Quiet s t) (f : Feeder) (op : Operation) (b : Bool) :
    Quiet s (t.testUnclaimed f op b) := (h.addEntry ..).enterTesting f op _

theorem beginClaim (h : Quiet s t) (f : Feeder) (op : Operation) : Quiet s (t.beginClaim f op) :=
  (((h.toState f (leads_toPhase rfl rfl)).postFar f _).setClaim f _ _).feederNotices _ f

theorem phaseChoice (h : Quiet s t) (f : Feeder) (op : Operation) : Quiet s (t.phaseChoice f op) := by
  unfold State.phaseChoice
  split
  · exact h.enterClosing f _
  · split
    · exact h.enterTesting f op _
    · split
      · exact h.testUnclaimed f op _
      · split
        · exact h.endClose f op _ (leads_waitOrOpen _ _ _)
        · exact h.beginClaim f op

theorem beginClose (h : Quiet s t) (f : Feeder) (o : Origin) : Quiet s (t.beginClose f o) :=
  h.phaseChoice f _

theorem abortClose (h : Quiet s t) (f : Feeder) (c : CloseResult)
    {g : Operation → FeederRecord → FeederRecord} (hg : ∀ op, Leads (g op)) :
    Quiet s (t.abortClose f c g) := by
  unfold State.abortClose
  split
  · exact (h.releaseClaim f).endClose f _ c (hg _)
  · exact h

theorem lockoutEntry (h : Quiet s t) (f : Feeder) (x : LockoutReason) : Quiet s (t.lockoutEntry f x) :=
  h.addEntry ..

theorem lockOut (h : Quiet s t) (f : Feeder) (x : LockoutReason) : Quiet s (t.lockOut f x) :=
  ((h.toState f (leads_toLockedOut x)).lockoutEntry f x).feederNotices _ f

/-- A reclose that is held keeps its state. -/
theorem holdReclose (h : Quiet s t) (f : Feeder) (c : InterlockCause)
    (hf : (t.feeder f).sound → (t.feeder f).state = .recloseWait) : Quiet s (t.holdReclose f c) := by
  apply Quiet.addEntry
  refine h.modFeeder f (fun k => ?_) rfl
  have e := hf k
  obtain ⟨a, b, c, d, _, i, j⟩ := k
  exact ⟨a, b, by simp [e], d, nofun, i, j⟩

theorem recloseSteps (h : Quiet s t) (f : Feeder) (hf : (t.feeder f).state = .recloseWait) :
    Quiet s (t.recloseSteps f) := by
  unfold State.recloseSteps
  dsimp only
  split
  · split
    · exact (h.toState f leads_toOpen).feederNotices _ f
    · exact h.lockOut f _
  · split
    · exact h.beginClose f _
    · refine h.modFeeder f (fun k => ?_) rfl
      obtain ⟨a, b, c, d, _, i, j⟩ := k
      exact ⟨a, b, c, d, fun _ => hf, i, j⟩
    · exact h.holdReclose f _ fun _ => hf


theorem grantEnded (h : Quiet s t) (f : Feeder) : Quiet s (t.grantEnded f) := by
  unfold State.grantEnded
  have k := h.setClaim f .idle none
  dsimp only
  split
  · exact k.phaseChoice f _
  · rename_i e _
    exact k.recloseSteps f e
  · exact k

theorem reclaim (h : Quiet s t) (f : Feeder) : Quiet s (t.reclaim f) := by
  have k := h.modFeeder f (g := fun r => { r with attempts := 0, reclaimWatch := none })
    (fun ⟨a, b, c, d, e, _, _⟩ => ⟨a, b, c, d, e, nofun, Nat.zero_le 5⟩) rfl
  unfold State.reclaim
  dsimp only
  split
  · exact k.addEntry ..
  · exact k

theorem claimTimeout (h : Quiet s t) (f : Feeder) : Quiet s (t.claimTimeout f) := by
  unfold State.claimTimeout
  dsimp only
  split
  · exact ((h.postFar f _).setClaim f _ _).endClose f _ _ (leads_waitOrOpen _ _ _)
  · exact (h.postFar f _).setClaim f _ _

theorem lineFaulty (h : Quiet s t) (f : Feeder) (op : Operation) : Quiet s (t.lineFaulty f op) := by
  have hg : Leads (if op.origin = .auto then t.faultyNext f else FeederRecord.toOpen) := by
    split
    · exact leads_faultyNext t f
    · exact leads_toOpen
  have k := (h.toState f hg).closeResultEntry f op .lineFaulty
  exact (Quiet.ite _ (k.lockoutEntry f _) k).closeEnded _ f _

theorem lineHealthy (h : Quiet s t) (f : Feeder) (op : Operation) : Quiet s (t.lineHealthy f op) := by
  unfold State.lineHealthy
  split
  · exact h.enterClosing f op
  · exact h.endClose f op _ (leads_waitOrOpen _ _ _)
  · exact h.endClose f op _ leads_toOpen

theorem judgeTest (h : Quiet s t) (f : Feeder) (op : Operation) : Quiet s (t.judgeTest f op) := by
  unfold State.judgeTest
  dsimp only
  have k : Quiet s (if op.testMode = .claimed then (t.postFar f .testDone).setClaim f .idle none else t) :=
    Quiet.ite _ ((h.postFar f _).setClaim f _ _) h
  generalize (if op.testMode = .claimed then (t.postFar f .testDone).setClaim f .idle none else t) = u at k ⊢
  split
  · exact k.endClose f op _ (leads_waitOrOpen _ _ _)
  · exact k.endClose f op _ leads_toOpen
  · split
    · exact (k.addEntry ..).lineHealthy f op
    · exact (k.addEntry ..).lineFaulty f op

theorem measurementLoss (h : Quiet s t) (f : Feeder) : Quiet s (t.measurementLoss f) := by
  unfold State.measurementLoss
  split
  · exact h.abortClose f _ fun _ => leads_waitOrOpen _ _ _
  · exact h

/-! ## Trips -/

theorem tripEntry (h : Quiet s t) (f : Feeder) (c : TripCause) (o : Origin) (b : Bool) (v w : Option Int) :
    Quiet s (t.tripEntry f c o b v w) := by
  unfold State.tripEntry State.captureAsked
  split
  · rename_i n hn
    have hn : t.captureFor f = some n := by
      split at hn
      · cases hn
      · exact hn
    exact (h.startCapture c hn).addEntry .trip (.feeder f) o (.trip c b false) v w (some n)
  · exact h.addEntry ..

theorem heldAtStart (h : Quiet s t) (n : Option (Fin 4)) : Quiet s (t.heldAtStart n) := by
  unfold State.heldAtStart
  split
  · split
    · exact Quiet.ite _ (h.captureHeldEntry _ _) h
    · exact h
  · exact h

theorem tripEnded (h : Quiet s t) (x : FeederState) (f : Feeder) (r : CloseResult) : Quiet s (t.tripEnded x f r) :=
  Quiet.ite _ (h.closeEnded x f r) (h.feederNotices x f)

theorem toTripping (h : Quiet s t) (f : Feeder) (c : TripCause) (o : Origin) :
    Quiet s (t.toTripping f c o) :=
  h.toState f fun r => ⟨rfl, (leads_toPhase (x := .tripping) rfl rfl r).2⟩

theorem tripTaken (h : Quiet s t) (f : Feeder) (c : TripCause) (o : Origin) (b : Bool) (v w : Option Int) :
    Quiet s (t.tripTaken f c o b v w) := by
  have k := h.toTripping f c o
  have k : Quiet s (match (t.feeder f).state, (t.feeder f).operation with
      | .closing, some op => (t.toTripping f c o).closeResultEntry f op (.aborted c.overtaking)
      | _, _ => t.toTripping f c o) := by
    split
    · exact k.closeResultEntry ..
    · exact k
  have k := k.tripEntry f c o b v w
  exact Quiet.ite (c.protective = true) (k.postFar f .transferTrip) k

theorem tripFeeder (h : Quiet s t) (f : Feeder) (c : TripCause) (o : Origin) (b : Bool) (v w : Option Int) :
    Quiet s (t.tripFeeder f c o b v w) := by
  refine (h.tripTaken f c o b v w).together _ fun part hm u hu => ?_
  simp only [List.mem_cons, List.not_mem_nil, or_false] at hm
  obtain rfl | rfl := hm
  · exact hu.heldAtStart _
  · exact hu.tripEnded _ f _

theorem takeRequest (h : Quiet s t) (f : Feeder) (x : TripDecision) : Quiet s (t.takeRequest f x) := by
  unfold State.takeRequest
  split
  · exact h.tripFeeder ..
  · exact h

theorem frameAfterTrip (h : Quiet s t) : Quiet s t.frameAfterTrip := by
  obtain ⟨x, e | ⟨-, e⟩⟩ := t.frameAfterTrip_cases <;> rw [e]
  · exact (h.choices x).settleCaptures
  · exact h.choices x

theorem openFeeder (h : Quiet s t) (f : Feeder) (o : Origin) : Quiet s (t.openFeeder f o) := by
  unfold State.openFeeder
  split
  · exact h.tripFeeder ..
  · exact h.tripFeeder ..
  · exact h.abortClose f _ fun _ => leads_toOpen
  · exact h.abortClose f _ fun _ => leads_toOpen
  · exact (h.toState f leads_toOpen).feederNotices _ f
  all_goals exact h

theorem ttIgnored (h : Quiet s t) (f : Feeder) (l : LinkId) : Quiet s (t.ttIgnored f l) := h.addEntry ..

theorem takeTransferTrip (h : Quiet s t) (f : Feeder) (l : LinkId) : Quiet s (t.takeTransferTrip f l) := by
  unfold State.takeTransferTrip
  split
  · exact h.ttIgnored f l
  · split
    · exact h.tripFeeder ..
    · exact h.tripFeeder ..
    · exact h.abortClose f _ fun _ => leads_waitOrOpen _ _ _
    · exact h.abortClose f _ fun _ => leads_waitOrOpen _ _ _
    · exact h.ttIgnored f l

theorem breakerFails (h : Quiet s t) (f : Feeder) (op : Operation) : Quiet s (t.breakerFails f op) :=
  (((h.toState f (leads_toPhase rfl rfl)).addEntry ..).postFar f _).feederNotices _ f

/-! ## Position changes -/

theorem tripCleared (h : Quiet s t) (f : Feeder) (op : Operation) {g : FeederRecord → FeederRecord}
    (hg : Leads g) : Quiet s (t.tripCleared f op g) := by
  unfold State.tripCleared
  refine Quiet.feederNotices ?_ _ f
  split
  · exact ((h.toState f hg).addEntry ..).lockoutEntry f _
  · exact (h.toState f hg).addEntry ..

theorem closedUncommanded (h : Quiet s t) (f : Feeder) : Quiet s (t.closedUncommanded f) :=
  ((h.toState f (leads_enterClosed t f)).addEntry ..).feederNotices _ f

theorem closedDuringTest (h : Quiet s t) (f : Feeder) (op : Operation) :
    Quiet s (t.closedDuringTest f op) :=
  ((((h.releaseClaim f).toState f (leads_enterClosed t f)).closeResultEntry f op _).addEntry ..).closeEnded
    _ f _

theorem openedUncommanded (h : Quiet s t) (f : Feeder) : Quiet s (t.openedUncommanded f) :=
  ((h.toState f leads_toOpen).addEntry ..).feederNotices _ f

theorem positionChange (h : Quiet s t) (f : Feeder) (x : Position) : Quiet s (t.positionChange f x) := by
  unfold State.positionChange
  split
  · unfold State.positionOpened
    split
    · exact h.tripCleared f _ (leads_afterTrip t f)
    · exact h.tripCleared f _ (leads_toLockedOut _)
    · exact h.openedUncommanded f
    · exact h
  · unfold State.positionClosed
    split
    · exact h.endClose f _ _ (leads_enterClosed t f)
    · exact h.closedUncommanded f
    · exact h.closedUncommanded f
    · exact h.closedDuringTest f _
    · exact h.closedDuringTest f _
    · exact h.addEntry ..
    · exact h
  · exact h

theorem resetLockout (h : Quiet s t) (f : Feeder) (o : Origin) : Quiet s (t.resetLockout f o) := by
  unfold State.resetLockout
  dsimp only
  have k := ((h.toState f leads_toOpen).addEntry .lockoutReset (.feeder f) o .nothing none none
    none).feederNotices .lockedOut f
  split
  · exact k.closedUncommanded f
  · exact k

end Quiet

end Sys2Proof.Machine
end

