-- ==== Sys2Proof/Laws/QuietLinks.lean ====
section
/-! SUPPORT. What the Section Links do with words, light and time, and what the Time Base does with marks, are
quiet changes. -/

set_option Elab.async false

namespace Sys2Proof.Machine

theorem mem_feedersOn {t : State} {l : LinkId} {f : Feeder} :
    f ∈ t.feedersOn l ↔ (t.config f).farLink = some l := by
  simp [State.feedersOn, mem_eight]

namespace Quiet

variable {s t : State}

/-! ## The Time Base -/

theorem setQuality (h : Quiet s t) (q : TimeQuality) : Quiet s (t.setQuality q) := by
  unfold State.setQuality
  split
  · exact h
  · exact (h.time _).queueSystem

theorem qualityChange (h : Quiet s t) (q : TimeQuality) (l : LinkId) : Quiet s (t.qualityChange q l) := by
  unfold State.qualityChange
  split
  · exact h
  · exact (h.setQuality q).addEntry ..

theorem delayNotice (h : Quiet s t) (l : LinkId) : Quiet s (t.delayNotice l) := by
  unfold State.delayNotice
  split
  · exact h.qualityChange _ l
  · exact h

theorem roleChange (h : Quiet s t) (x : TimeRole) : Quiet s (t.roleChange x) := by
  unfold State.roleChange
  split
  · exact h
  · dsimp only
    split
    · split
      · exact (h.time _).queueSystem.qualityChange _ _
      · exact (h.time _).queueSystem
    · exact (h.time _).queueSystem

theorem takeUpstream (h : Quiet s t) (l : LinkId) (x : Upstream) : Quiet s (t.takeUpstream l x) := by
  unfold State.takeUpstream
  split
  · exact h.time _
  · exact h

theorem timeStep (h : Quiet s t) (l : LinkId) (x : StationTime) (o : Int) : Quiet s (t.timeStep l x o) :=
  ((h.time _).addEntry ..).qualityChange _ l

theorem timeConflict (h : Quiet s t) (l : LinkId) (o : Int) : Quiet s (t.timeConflict l o) :=
  (h.time _).queueSystem.addEntry ..

theorem judgeMark (h : Quiet s t) (l : LinkId) (x : Upstream) : Quiet s (t.judgeMark l x) := by
  unfold State.judgeMark
  dsimp only
  split
  · exact (h.time _).timeStep l _ _
  · exact (h.time _).timeConflict l _
  · exact ((h.time _).time _).qualityChange _ l

theorem takeMark (h : Quiet s t) (l : LinkId) (b : Bool) : Quiet s (t.takeMark l b) := by
  unfold State.takeMark
  split
  · split
    · exact h.time _
    · exact h.judgeMark l _
    · exact h
  · exact h

/-! ## Link state -/

theorem linkUp (h : Quiet s t) (l : LinkId) : Quiet s (t.linkUp l) := (h.modLink l _).addEntry ..

theorem farLost (h : Quiet s t) {f : Feeder} (hf : (t.config f).farLink ≠ none) : Quiet s (t.farLost f) := by
  unfold State.farLost
  have k : Quiet s (t.modSection f fun r =>
      { r with staleFrom := none, heard := false, matching := .mismatch }) :=
    h.modSection f fun _ => ⟨nofun, fun e => absurd e hf⟩
  have k := k.setFarState f none
  dsimp only
  split
  · split
    · exact (k.setClaim f _ _).testUnclaimed f _ _
    · exact k.setClaim f _ _
  · exact k.setClaim f _ _
  · exact k.grantEnded f
  · exact k

theorem linkDown (h : Quiet s t) (l : LinkId) (c : LinkDownCause) : Quiet s (t.linkDown l c) := by
  have k := (h.modLink l SectionLink.fallen).addEntry .linkDown (.link l) (linkOrigin l) (.linkDown c)
    (some (t.msSince ((t.link l).upSince.getD t.now) : Nat)) (some ((t.link l).tripsPending : Nat)) none
  refine k.together _ ?_
  intro part hm u hu
  rcases List.mem_append.mp hm with hm | hm
  · obtain ⟨f, hf, rfl⟩ := List.mem_map.mp hm
    refine hu.farLost ?_
    rw [hu.config, ← h.config, mem_feedersOn.mp hf]
    simp
  · rw [List.mem_singleton.mp hm]
    exact hu.delayNotice l

theorem lightChange (h : Quiet s t) (l : LinkId) (b : Bool) : Quiet s (t.lightChange l b) := by
  unfold State.lightChange
  dsimp only
  split
  · exact h.modLink l _
  · split
    · exact h.modLink l _
    · exact (h.modLink l _).modLink l _
    · exact (h.modLink l _).linkDown l _

/-! ## Signals -/

theorem deliverTransferTrip (h : Quiet s t) (l : LinkId) (g : Feeder) :
    Quiet s (t.deliverTransferTrip l g) := by
  unfold State.deliverTransferTrip
  split
  · exact h.takeTransferTrip g l
  · exact h.addEntry ..

theorem transferTripCopy (h : Quiet s t) (l : LinkId) (g : Feeder) : Quiet s (t.transferTripCopy l g) := by
  unfold State.transferTripCopy
  split
  · exact h.modLink l _
  · split
    · exact h
    · exact (h.modLink l _).deliverTransferTrip l g

theorem grantFar (h : Quiet s t) (g : Feeder) : Quiet s (t.grantFar g) := (h.postFar g _).setClaim g _ _

theorem takeClaim (h : Quiet s t) (l : LinkId) (g : Feeder) : Quiet s (t.takeClaim l g) := by
  unfold State.takeClaim State.crossedClaim
  split
  · split
    · split
      · exact h
      · exact h.grantFar g
    · split
      · split
        · exact (h.withdrawFar g _).grantFar g
        · exact h
      · exact h
    · exact h
    · exact h.grantFar g
  · exact h

theorem takeGrant (h : Quiet s t) (l : LinkId) (f : Feeder) : Quiet s (t.takeGrant l f) := by
  unfold State.takeGrant
  split
  · dsimp only
    split
    · exact (h.setClaim f _ _).enterTesting f _ _
    · exact h.setClaim f _ _
  · exact h

theorem takeDone (h : Quiet s t) (l : LinkId) (g : Feeder) : Quiet s (t.takeDone l g) := by
  unfold State.takeDone
  split
  · exact h.grantEnded g
  · exact h

theorem measureLoop (h : Quiet s t) (l : LinkId) (m : Nat) : Quiet s (t.measureLoop l m) := by
  unfold State.measureLoop
  dsimp only
  split
  · exact h.modLink l _
  · refine Quiet.delayNotice ?_ l
    split
    · exact Quiet.addEntry ((h.modLink l _).modLink l _) ..
    · exact Quiet.addEntry ((h.modLink l _).modLink l _) ..
    · exact (h.modLink l _).modLink l _

theorem takeEcho (h : Quiet s t) (l : LinkId) (b : Bool) : Quiet s (t.takeEcho l b) := by
  unfold State.takeEcho
  dsimp only
  split
  · exact (h.modLink l _).measureLoop l _
  · exact h.modLink l _

theorem takeSignal (h : Quiet s t) (l : LinkId) (x : SlotSignal) : Quiet s (t.takeSignal l x) := by
  unfold State.takeSignal
  split
  · exact h
  · exact h.transferTripCopy l _
  · exact h.takeClaim l _
  · exact h.takeGrant l _
  · exact h.takeDone l _
  · exact h.post l _ _
  · exact h.takeEcho l _
  · exact h.takeMark l _

/-! ## Segments -/

theorem judgeConflict (h : Quiet s t) (l : LinkId) : Quiet s (t.judgeConflict l) := by
  unfold State.judgeConflict
  dsimp only
  split
  · exact Quiet.addEntry ((h.modLink l _).modLink l _) ..
  · exact h.modLink l _

theorem takeFeederEnd (h : Quiet s t) (l : LinkId) (b : List Byte) {f : Feeder}
    (hf : (t.config f).farLink ≠ none) : Quiet s (t.takeFeederEnd l b f) := by
  unfold State.takeFeederEnd
  refine Quiet.setFarState ?_ f _
  have k : Quiet s (t.modSection f fun r =>
      { r with farSeen := some (t.time.now, t.now), staleFrom := some t.now, heard := true,
               matching := if decide ((byteAt b 7).toNat = f.val ∧ byteAt b 8 ≠ 0#8) then .matched
                 else .mismatch }) :=
    h.modSection f fun _ =>
      ⟨fun e => (by dsimp only at e; split at e <;> cases e), fun e => absurd e hf⟩
  exact Quiet.ite _ (k.addEntry ..) k

theorem takeSegment (h : Quiet s t) (l : LinkId) (n : Fin 16) (b : List Byte) :
    Quiet s (t.takeSegment l n b) := by
  unfold State.takeSegment
  dsimp only
  split
  · exact (((h.modLink l _).modLink l _).judgeConflict l).takeUpstream l _
  · split
    · refine (h.modLink l _).together _ ?_
      intro part hm u hu
      obtain ⟨f, hf, rfl⟩ := List.mem_map.mp hm
      refine hu.takeFeederEnd l b ?_
      have := mem_feedersOn.mp (List.mem_of_mem_filter hf)
      rw [hu.config, ← h.config, this]
      simp
    · exact h.modLink l _

theorem takeData (h : Quiet s t) (l : LinkId) (x : Option RxData) : Quiet s (t.takeData l x) := by
  unfold State.takeData
  split
  · exact h.modLink l _
  · exact h.modLink l _
  · exact h.modLink l _
  · exact h.modLink l _
  · exact (h.modLink l _).takeSegment l _ _

/-! ## Words -/

theorem badWordAt (h : Quiet s t) (l : LinkId) : Quiet s (t.badWordAt l) := by
  unfold State.badWordAt
  split
  · exact h
  · exact h.modLink l _
  · dsimp only
    split
    · exact (h.modLink l _).takeData l _
    · exact (h.modLink l _).linkDown l _

theorem takeSlots (h : Quiet s t) (l : LinkId) (x : SlotSignal) (d : RxData) : Quiet s (t.takeSlots l x d) := by
  have parts : ∀ part ∈ [fun t : State => t.takeSignal l x, fun t : State => t.takeData l (some d)],
      ∀ u, Quiet s u → Quiet s (part u) := by
    intro part hm u hu
    simp only [List.mem_cons, List.not_mem_nil, or_false] at hm
    rcases hm with rfl | rfl
    · exact hu.takeSignal l x
    · exact hu.takeData l _
  unfold State.takeSlots
  dsimp only
  split
  · exact h.inFreeOrder _ _ parts
  · exact h.together _ parts

theorem goodWordAt (h : Quiet s t) (l : LinkId) (x : SlotSignal) (d : RxData) :
    Quiet s (t.goodWordAt l x d) := by
  unfold State.goodWordAt
  split
  · exact h.modLink l _
  · split
    · exact h.modLink l _
    · exact h.linkUp l
  · exact (h.modLink l _).takeSlots l x d

theorem takeWord (h : Quiet s t) (l : LinkId) (w : RxWord) : Quiet s (t.takeWord l w) := by
  unfold State.takeWord
  split
  · split
    · exact h.goodWordAt l _ _
    · exact h.badWordAt l
  · exact h

theorem transmit (h : Quiet s t) (l : LinkId) : Quiet s (t.transmit l) := h.modLink l _

end Quiet

end Sys2Proof.Machine
end

