-- ==== Sys2Proof/Laws/Inside.lean ====
section
/-! SUPPORT. What a command may do to the conditions of Safety.lean: `Inside s t` says that the ports stand and
that what was sound stays so. Every quiet change is one; so are the handling of each request, the sample port, the
field inputs and the line clock. -/

set_option Elab.async false

namespace Sys2Proof.Machine

/-- A change that leaves the ports and keeps every condition of Safety.lean. -/
structure Inside (s t : State) : Prop where
  ports : t.ports = s.ports
  authority : AuthoritySound s → AuthoritySound t
  record : RecordSound s → RecordSound t
  feeders : FeedersSound s → FeedersSound t
  matching : MatchSound s → MatchSound t
  rectifier : RectifierSound s → RectifierSound t
  captures : CapturesSound s → CapturesSound t

theorem Quiet.inside {s t : State} (h : Quiet s t) : Inside s t :=
  { ports := h.ports
    authority := fun ⟨a, b⟩ => ⟨by rw [h.authority, h.key]; exact a, fun i x e => by
      rw [h.key]
      refine b i x ?_
      rw [← e]
      simp only [State.holding, h.authority]⟩
    record := fun k => h.grows.sound k
    feeders := h.feeders
    matching := h.matching
    rectifier := fun ⟨a, b, c, d⟩ =>
      ⟨by rw [h.settings]; exact a, by rw [h.store]; exact b, by rw [h.store]; exact c, h.angle a d⟩
    captures := h.captures }

theorem frame_sound {r : FeederRecord} (h : r.sound) (i u : Option Int) :
    (r.frame i u).sound := by
  unfold FeederRecord.frame
  split
  · exact h
  · exact h

@[simp] theorem tickBoundary_state (r : Rectifier) : r.tickBoundary.state = r.state := rfl

namespace Inside

variable {s t u : State}

theorem refl (s : State) : Inside s s := (Quiet.refl s).inside

theorem trans (h : Inside s t) (k : Inside t u) : Inside s u :=
  { ports := k.ports.trans h.ports
    authority := k.authority ∘ h.authority
    record := k.record ∘ h.record
    feeders := k.feeders ∘ h.feeders
    matching := k.matching ∘ h.matching
    rectifier := k.rectifier ∘ h.rectifier
    captures := k.captures ∘ h.captures }

theorem quiet (h : Inside s t) (k : Quiet t u) : Inside s u := h.trans k.inside

theorem addEntry (h : Inside s t) (k : EventKind) (o : Subject) (p : Origin) (d : Detail) (v w : Option Int)
    (c : Option (Fin 4)) : Inside s (t.addEntry k o p d v w c) :=
  h.quiet ((Quiet.refl t).addEntry ..)

theorem foldl {α : Type} (l : List α) (f : State → α → State) (h : Inside s t)
    (hf : ∀ a u, Inside s u → Inside s (f u a)) : Inside s (l.foldl f t) := by
  induction l generalizing t with
  | nil => exact h
  | cons a rest ih => exact ih (hf a t h)

/-! ## Updates outside the reach of quiet changes -/

theorem modSample (h : Inside s t) (g : SamplePort → SamplePort) : Inside s (t.modSample g) :=
  h.trans { refl t with }

theorem modInputOf (h : Inside s t) (b : Breaker) (g : ContactInput → ContactInput) :
    Inside s (t.modInputOf b g) := by
  cases b with
  | feeder f => exact h.trans { refl t with }
  | ac => exact h.trans { refl t with }

theorem clock (h : Inside s t) (x : LineClock) : Inside s { t with clock := x } := h.trans { refl t with }

theorem faults (h : Inside s t) (x : File FaultRecord 8) : Inside s { t with faults := x } :=
  h.trans { refl t with }

theorem programmes (h : Inside s t) (x : File Step 256) (y : File (Option Header) 8) :
    Inside s { t with slots := x, headers := y } := h.trans { refl t with }

theorem slotMap (h : Inside s t) (m : File SlotEntry 32) :
    Inside s { t with settings := { t.settings with slotMap := m } } :=
  h.trans { refl t with }

theorem markChanged (h : Inside s t) : Inside s t.markChanged := h.trans { refl t with }

theorem resetLine (h : Inside s t) (b : Bool) : Inside s { t with resetLine := b } := h.trans { refl t with }

/-! ## The sample port -/

theorem blindAll (h : Inside s t) (i : Instant) (p : Feeder → Bool) : Inside s (t.blindAll i p) := h.faults _

theorem leavesValid (h : Inside s t) : Inside s t.leavesValid := by
  refine h.quiet ((((Quiet.refl t).settleCaptures).measurementHold true).together _ ?_)
  intro part hm u hu
  rcases List.mem_append.mp hm with hm | hm
  · rcases List.mem_append.mp hm with hm | hm
    · obtain ⟨f, _, rfl⟩ := List.mem_map.mp hm
      exact hu.measurementLoss f
    · obtain ⟨n, _, rfl⟩ := List.mem_map.mp hm
      exact hu.truncateCapture n
  · obtain ⟨r, _, rfl⟩ := List.mem_map.mp hm
    exact hu.judgeWait _ r

theorem enterLost (h : Inside s t) : Inside s t.enterLost := by
  unfold State.enterLost
  dsimp only
  split
  · refine Inside.leavesValid (Inside.blindAll ?_ _ _)
    split
    · exact (h.modSample _).addEntry ..
    · exact h.modSample _
  · refine Inside.blindAll ?_ _ _
    split
    · exact (h.modSample _).addEntry ..
    · exact h.modSample _

theorem emptyHistories (h : Inside s t) : Inside s t.emptyHistories :=
  h.quiet (Quiet.refl t).emptyHistories

theorem enterValid (h : Inside s t) : Inside s t.enterValid :=
  ((((h.modSample _).addEntry ..).modSample _).quiet ((Quiet.refl _).measurementHold false)).emptyHistories

theorem frameAtFaults (h : Inside s t) (m : Continuity) (n : Nat) (q : Quantities) :
    Inside s (t.frameAtFaults m n q) :=
  h.foldl eight _ fun f _ hu => hu.quiet ((Quiet.refl _).modFault f _)

theorem frameAtFeeders (h : Inside s t) (q : Quantities) : Inside s (t.frameAtFeeders q) :=
  h.trans
    { refl t with
      feeders := fun k f => by
        have : (t.frameAtFeeders q).feeder f = (t.feeder f).frame (q.ifs.get f) (q.ufs.get f) := by
          simp [State.frameAtFeeders, State.feeder]
        rw [this]
        exact frame_sound (k f) _ _ }

theorem frameAtCaptures (h : Inside s t) (d : Bool) (q : Quantities) : Inside s (t.frameAtCaptures d q) := by
  have parts : ∀ part, part ∈ frameParts q ∨ part ∈ fillParts q ∨ part ∈ waitParts readsBus →
      ∀ v u, Quiet v u → Quiet v (part u) := by
    intro part hm v u hu
    rcases hm with hm | hm | hm
    · simp only [frameParts, List.mem_cons, List.not_mem_nil, or_false] at hm
      rcases hm with rfl | rfl
      · exact hu.overvoltageFrame _
      · exact hu.overcurrentFrame _
    · exact hu.fillParts hm
    · obtain ⟨r, _, rfl⟩ := List.mem_map.mp hm
      exact hu.judgeWait _ r
  obtain ⟨x, e | ⟨-, e⟩⟩ := t.frameAtCaptures_cases d q <;> rw [e] <;> refine h.quiet ?_
  · refine (((Quiet.refl t).choices x).frameHistories q).together _ fun part hm => parts part ?_ _
    simpa [or_assoc] using hm
  · refine (((Quiet.refl t).choices x).frameLate q).together _ fun part hm => parts part ?_ _
    rcases List.mem_append.mp hm with hm | hm
    · exact .inl hm
    · exact .inr (.inr hm)

theorem handOn (h : Inside s t) (m : Continuity) (n : Nat) (q : Quantities) : Inside s (t.handOn m n q) :=
  ((((h.quiet (Quiet.refl t).settleCaptures).modSample _).frameAtFaults m n q).frameAtFeeders q).frameAtCaptures _ q

theorem validFrame (h : Inside s t) (w : File Word 34) : Inside s (t.validFrame w) := by
  unfold State.validFrame
  dsimp only
  split
  · exact h
  · split
    · exact ((h.modSample _).enterValid).handOn _ _ _
    · exact (h.modSample _).modSample _
  · exact (h.modSample _).handOn _ _ _
  · exact (h.modSample _).modSample _

theorem enterDisabled (h : Inside s t) : Inside s t.enterDisabled := by
  unfold State.enterDisabled
  dsimp only
  refine Inside.emptyHistories ?_
  split
  · exact (((h.modSample _).addEntry ..).blindAll _ _).leavesValid
  · exact ((h.modSample _).addEntry ..).blindAll _ _

theorem newMap (h : Inside s t) (m : File SlotEntry 32) : Inside s (t.newMap m) := by
  unfold State.newMap
  dsimp only
  split
  · split
    · exact ((h.slotMap m).modSample _).blindAll _ _
    · exact (((h.slotMap m).modSample _).blindAll _ _).enterDisabled
  · split
    · exact (((h.slotMap m).modSample _).blindAll _ _).modSample _
    · exact ((h.slotMap m).modSample _).blindAll _ _

/-! ## Field inputs -/

theorem takePosition (h : Inside s t) (b : Breaker) : Inside s (t.takePosition b) := by
  unfold State.takePosition
  dsimp only
  split
  · exact (h.modInputOf b _).addEntry ..
  · exact h.modInputOf b _

/-- A feeder that becomes ready is sound (02 R23). -/
theorem becomeReady (h : Inside s t) (f : Feeder) (x : Position) : Inside s (t.becomeReady f x) := by
  unfold State.becomeReady
  dsimp only
  refine Inside.quiet (t := t.modFeeder f fun _ =>
    { FeederRecord.reset with
      ready := true, group := groupFor (t.config f).farLink (t.section' f).farState,
      state := if x = .closed then .closed else .opened }) ?_
    ((((((Quiet.refl _).modFault f _).protectionNotice .opened f).retardNotice f).queueFeederEnd f))
  refine h.trans { refl t with feeders := fun k g => ?_ }
  by_cases e : g = f
  · subst e
    simp only [State.modFeeder_feeder_self]
    split <;> exact ⟨rfl, nofun, rfl, rfl, nofun, nofun, Nat.zero_le 5⟩
  · simpa [e] using k g

theorem debounced (h : Inside s t) (b : Breaker) : Inside s (t.debounced b) := by
  unfold State.debounced
  cases b with
  | feeder f =>
    dsimp only
    unfold State.feederPosition
    split
    · exact (h.takePosition _).becomeReady f _
    · exact (h.takePosition _).quiet (((Quiet.refl _).queueFeederEnd f).positionChange f _)
  | ac =>
    dsimp only
    unfold State.acBreakerPosition
    split
    · exact h.takePosition _
    · exact (h.takePosition _).quiet ((Quiet.refl _).acPositionChange _)

/-! ## The Line Clock -/

theorem crossingAt (h : Inside s t) (x : ClockState) (p : Option Nat) (a : Nat) (d : List Int)
    (k : Option Nat) : Inside s (t.crossingAt x p a d k) := h.clock _

theorem crossing (h : Inside s t) : Inside s t.crossing := by
  unfold State.crossing
  split
  · exact h.crossingAt ..
  · unfold State.acquire
    split
    · exact h.crossingAt ..
    · split
      · exact h.crossingAt ..
      · split
        · exact h.crossingAt ..
        · split
          · exact h.crossingAt ..
          · exact (h.crossingAt ..).quiet (((Quiet.refl _).rectEntry ..).lockedNotice)
  · exact h.crossingAt ..
  · unfold State.track
    dsimp only
    split
    · exact (h.crossingAt ..).quiet (((Quiet.refl _).rectEntry ..).unlockedNotice _)
    · split
      · exact (h.crossingAt ..).quiet (((Quiet.refl _).rectEntry ..).unlockedNotice _)
      · exact (h.crossingAt ..).quiet (Quiet.refl _).cycleNotice
  · exact h.crossingAt ..

theorem watchOut (h : Inside s t) : Inside s t.watchOut := by
  unfold State.watchOut
  dsimp only
  split
  · exact (h.clock _).quiet (((Quiet.refl _).rectEntry ..).unlockedNotice _)
  · exact (h.clock _).quiet ((Quiet.refl _).rectEntry ..)

theorem advanceTick (h : Inside s t) (n : Nat) : Inside s (t.advanceTick n) :=
  (h.clock _).quiet ((Quiet.refl _).modRectSame (by simp) (by simp [Rectifier.tickBoundary])
    (by simp [Rectifier.tickBoundary]))

/-! ## Authority -/

/-- An item goes to a master that the location admits, or to none. -/
theorem setHolding (h : Inside s t) (i : Item) (x : Option Holding)
    (hx : AuthoritySound t → ∀ y, x = some y → admitted t.key.location y.holder = true) :
    Inside s (t.setHolding i x) :=
  h.trans
    { refl t with
      authority := fun k => ⟨k.1, fun j y e => by
        by_cases hj : j = i
        · subst hj
          rw [State.setHolding_holding_self] at e
          exact hx k y e
        · rw [State.setHolding_holding_ne _ _ hj] at e
          exact k.2 j y e⟩ }

theorem renewItem (h : Inside s t) (i : Item) : Inside s (t.renewItem i) := by
  unfold State.renewItem
  split
  · rename_i x hx
    refine h.setHolding i _ fun k y e => ?_
    cases e
    exact k.2 i x hx
  · exact h

theorem renewItems (h : Inside s t) (l : List Item) : Inside s (t.renewItems l) :=
  h.foldl l _ fun i _ hu => hu.renewItem i

theorem loseItem (h : Inside s t) (i : Item) (x : Holding) (k : EventKind) (d : Detail) (v : Option Int) :
    Inside s (t.loseItem i x k d v) := (h.setHolding i none fun _ _ e => by cases e).addEntry ..

theorem releaseItem (h : Inside s t) (p : Port) (b : Bool) (i : Item) : Inside s (t.releaseItem p b i) := by
  unfold State.releaseItem
  split
  · split
    · exact h.loseItem ..
    · exact h
  · exact h

theorem releaseItems (h : Inside s t) (p : Port) (b : Bool) (l : List Item) :
    Inside s (t.releaseItems p b l) := h.foldl l _ fun i _ hu => hu.releaseItem p b i

end Inside

end Sys2Proof.Machine
end

