-- ==== Sys2Proof/Laws/Requests.lean ====
section
/-! SUPPORT. Requests: what taking one does at its port, and that handling one, whatever it is, leaves the ports
and keeps the conditions of Safety.lean. -/

set_option Elab.async false

namespace Sys2Proof.Machine

/-! ## Taking a request -/

/-- A good request that may be taken is found waiting under its kind. -/
theorem waiting_of_offers {s : State} {p : Port} {kind tag : Byte} {body : List Byte}
    (h : s.offers p kind tag body) : s.waiting p kind = some (tag, body) := by
  obtain ⟨_, h1, h2⟩ := h
  simp [State.waiting, State.oldest, MasterPort.room, h1, h2]

/-- A request is taken as one event: its buffer is emptied, its block answers, and the response is built (11
R199). -/
theorem takeRequest_of_offers {s : State} {p : Port} {kind tag : Byte} {body : List Byte}
    (handle : List Byte → State → Answer) (h : s.offers p kind tag body) :
    takeRequest p kind handle s =
      .next (State.respond p kind tag (handle body (s.dropBuffer p))) := by
  simp [takeRequest, live, h.1, waiting_of_offers h]

/-- The response of an answer that leaves the ports stands at the tail of the queue (11 R199, R201). -/
theorem respond_port {s t : State} {p : Port} {kind tag : Byte} {st : Status} {b : Body}
    (h : t.ports = (s.dropBuffer p).ports) :
    (State.respond p kind tag { status := st, body := b, state := t }).port p =
      { s.port p with
        buffers := (s.port p).buffers.tail,
        responses := (s.port p).responses ++ [t.responseTo p kind tag st b],
        overrun := false } := by
  have e : t.port p = (s.dropBuffer p).port p := by simp only [State.port, h]
  simp only [State.respond, State.modPort_port_self, State.responseTo, e, State.dropBuffer]

theorem respond_port_ne {s t : State} {p q : Port} {kind tag : Byte} {st : Status} {b : Body}
    (h : t.ports = (s.dropBuffer p).ports) (e : q ≠ p) :
    (State.respond p kind tag { status := st, body := b, state := t }).port q = s.port q := by
  have k : t.port q = (s.dropBuffer p).port q := by simp only [State.port, h]
  simp only [State.respond, State.modPort_port_ne _ _ e, k, State.dropBuffer]

/-- Responding to an answer is answering from the state it gives (11 R199, R201). -/
theorem respond_eq (p : Port) (kind tag : Byte) (a : Answer) :
    State.respond p kind tag a = a.state.answered p kind tag a.status a.body := rfl

/-- A request waiting at its port, taken by its handler. -/
theorem takeRequest_answered {s : State} {p : Port} {kind tag : Byte} {body : List Byte}
    (handle : List Byte → State → Answer) (h : s.offers p kind tag body) :
    takeRequest p kind handle s =
      .next ((handle body (s.dropBuffer p)).state.answered p kind tag (handle body (s.dropBuffer p)).status
        (handle body (s.dropBuffer p)).body) :=
  takeRequest_of_offers handle h

/-! ## What every part of an event leaves -/

/-- What every part leaves, the parts in any order leave, when it does not read the free counter. -/
theorem inFreeOrder_leaves {β : Type} (view : State → β) (n : Nat) (parts : List (State → State)) (s : State)
    (hc : ∀ u k, view { u with choices := k } = view u)
    (hp : ∀ part ∈ parts, ∀ u, view (part u) = view u) : view (inFreeOrder n parts s) = view s := by
  induction n generalizing parts s with
  | zero => rfl
  | succ n ih =>
    match parts with
    | [] => rfl
    | [part] => exact hp part (by simp) s
    | a :: b :: rest =>
      simp only [inFreeOrder]
      have hk : Config.choice s.choices % (a :: b :: rest).length < (a :: b :: rest).length :=
        Nat.mod_lt _ (by simp)
      generalize Config.choice s.choices % (a :: b :: rest).length = k at hk ⊢
      rw [ih _ _ fun part hm => hp part (List.mem_of_mem_eraseIdx hm), List.getElem?_eq_getElem hk,
        Option.getD_some, hp _ (List.getElem_mem hk), hc]

theorem together_leaves {β : Type} (view : State → β) (parts : List (State → State)) (s : State)
    (hc : ∀ u k, view { u with choices := k } = view u)
    (hp : ∀ part ∈ parts, ∀ u, view (part u) = view u) : view (together parts s) = view s := by
  unfold together
  rw [inFreeOrder_leaves view _ _ _ hc fun part hm => hp part (List.mem_of_mem_filter hm)]
  have k := fun part (hm : part ∈ parts.filter fun part => !addsEntry s part) =>
    hp part (List.mem_of_mem_filter hm)
  generalize parts.filter (fun part => !addsEntry s part) = l at k
  induction l generalizing s with
  | nil => rfl
  | cons a rest ih =>
    rw [List.foldl_cons, ih _ fun part hm => k part (List.mem_cons_of_mem _ hm), k a (by simp)]

/-! ## Parts of a change of location -/

/-- When one part of an event turns `A` into `B`, every part keeps both, and both ignore the free counter, then the
parts taken in any order turn `A` into `B`. -/
theorem inFreeOrder_reaches {A B : State → Prop} (n : Nat) (parts : List (State → State)) (s : State)
    (hc : ∀ u k, (A u → A { u with choices := k }) ∧ (B u → B { u with choices := k }))
    (hp : ∀ part ∈ parts, ∀ u, (A u → A (part u)) ∧ (B u → B (part u))) (hn : parts.length ≤ n) :
    (B s → B (inFreeOrder n parts s)) ∧ (A s → A (inFreeOrder n parts s)) ∧
      ∀ p0 ∈ parts, (∀ u, A u → B (p0 u)) → A s → B (inFreeOrder n parts s) := by
  induction n generalizing parts s with
  | zero =>
    obtain rfl : parts = [] := List.length_eq_zero_iff.mp (by omega)
    exact ⟨id, id, by simp⟩
  | succ n ih =>
    match parts with
    | [] => exact ⟨id, id, by simp⟩
    | [part] =>
      refine ⟨(hp part (by simp) s).2, (hp part (by simp) s).1, ?_⟩
      intro p0 hm h0 ha
      rw [List.mem_singleton.mp hm] at h0
      exact h0 s ha
    | a :: b :: rest =>
      simp only [inFreeOrder]
      have hk : Config.choice s.choices % (a :: b :: rest).length < (a :: b :: rest).length :=
        Nat.mod_lt _ (by simp)
      generalize Config.choice s.choices % (a :: b :: rest).length = k at hk ⊢
      have hg : (a :: b :: rest)[k]?.getD id = (a :: b :: rest)[k] := by
        rw [List.getElem?_eq_getElem hk, Option.getD_some]
      rw [hg]
      have hmem := List.getElem_mem hk
      have hlen : ((a :: b :: rest).eraseIdx k).length ≤ n := by
        rw [List.length_eraseIdx_of_lt hk]
        omega
      obtain ⟨i1, i2, i3⟩ := ih ((a :: b :: rest).eraseIdx k)
        ((a :: b :: rest)[k] { s with choices := s.choices + 1 })
        (fun part hm => hp part (List.mem_of_mem_eraseIdx hm)) hlen
      have hB := (hp _ hmem { s with choices := s.choices + 1 }).2
      have hA := (hp _ hmem { s with choices := s.choices + 1 }).1
      refine ⟨fun h => i1 (hB ((hc s _).2 h)), fun h => i2 (hA ((hc s _).1 h)), ?_⟩
      intro p0 hm h0 ha
      obtain ⟨m, hm', rfl⟩ := List.getElem_of_mem hm
      by_cases e : m = k
      · subst e
        exact i1 (h0 _ ((hc s _).1 ha))
      · have : (a :: b :: rest)[m] ∈ (a :: b :: rest).eraseIdx k :=
          List.mem_eraseIdx_iff_getElem?.mpr ⟨m, e, List.getElem?_eq_getElem hm'⟩
        exact i3 _ this h0 (hA ((hc s _).1 ha))

theorem foldl_reaches {A B : State → Prop} (parts : List (State → State)) (s : State)
    (hp : ∀ part ∈ parts, ∀ u, (A u → A (part u)) ∧ (B u → B (part u))) :
    (B s → B (parts.foldl (fun t part => part t) s)) ∧ (A s → A (parts.foldl (fun t part => part t) s)) ∧
      ∀ p0 ∈ parts, (∀ u, A u → B (p0 u)) → A s → B (parts.foldl (fun t part => part t) s) := by
  induction parts generalizing s with
  | nil => exact ⟨id, id, by simp⟩
  | cons a rest ih =>
    obtain ⟨i1, i2, i3⟩ := ih (a s) fun part hm => hp part (List.mem_cons_of_mem _ hm)
    have ha := hp a (by simp) s
    refine ⟨fun h => i1 (ha.2 h), fun h => i2 (ha.1 h), ?_⟩
    intro p0 hm h0 h
    rcases List.mem_cons.mp hm with rfl | hm
    · exact i1 (h0 s h)
    · exact i3 p0 hm h0 (ha.1 h)

/-- Two parts in a free order, or one after the other. -/
theorem inFreeOrder_two (a b : State → State) (s : State) :
    inFreeOrder 2 [a, b] s = b (a { s with choices := s.choices + 1 }) ∨
      inFreeOrder 2 [a, b] s = a (b { s with choices := s.choices + 1 }) := by
  unfold inFreeOrder
  dsimp only [List.length]
  rcases Nat.mod_two_eq_zero_or_one (Config.choice s.choices) with e | e
  · left
    rw [show Config.choice s.choices % (0 + 1 + 1) = 0 from e]
    rfl
  · right
    rw [show Config.choice s.choices % (0 + 1 + 1) = 1 from e]
    rfl

/-- Two parts of one event act one after the other, in one order or the other. -/
theorem together_two (a b : State → State) (s : State) :
    ∃ x, (x = s.choices ∨ x = s.choices + 1) ∧
      (together [a, b] s = b (a { s with choices := x }) ∨ together [a, b] s = a (b { s with choices := x })) := by
  unfold together
  cases ha : addsEntry s a <;> cases hb : addsEntry s b <;>
    simp only [List.filter, ha, hb, Bool.not_false, Bool.not_true, List.foldl, List.length]
  · exact ⟨s.choices, .inl rfl, .inl rfl⟩
  · exact ⟨s.choices, .inl rfl, .inl rfl⟩
  · exact ⟨s.choices, .inl rfl, .inr rfl⟩
  · exact ⟨_, .inr rfl, inFreeOrder_two a b s⟩

theorem together_reaches {A B : State → Prop} {parts : List (State → State)} {p0 : State → State} (s : State)
    (hc : ∀ u k, (A u → A { u with choices := k }) ∧ (B u → B { u with choices := k }))
    (hp : ∀ part ∈ parts, ∀ u, (A u → A (part u)) ∧ (B u → B (part u))) (hm : p0 ∈ parts)
    (h0 : ∀ u, A u → B (p0 u)) (h : A s) : B (together parts s) := by
  unfold together
  dsimp only
  have q := foldl_reaches (A := A) (B := B) (parts.filter fun part => !addsEntry s part) s
    fun part hm => hp part (List.mem_of_mem_filter hm)
  have l := inFreeOrder_reaches (A := A) (B := B) (parts.filter (addsEntry s)).length
    (parts.filter (addsEntry s))
    ((parts.filter fun part => !addsEntry s part).foldl (fun t part => part t) s) hc
    (fun part hm => hp part (List.mem_of_mem_filter hm)) (Nat.le_refl _)
  cases hk : addsEntry s p0
  · exact l.1 (q.2.2 p0 (List.mem_filter.mpr ⟨hm, by simp [hk]⟩) h0 h)
  · exact l.2.2 p0 (List.mem_filter.mpr ⟨hm, hk⟩) h0 (q.2.1 h)

end Sys2Proof.Machine
end

