-- ==== Sys2Proof/Laws/Handlers.lean ====
section
/-! SUPPORT. Handling a request leaves the ports and keeps the conditions of Safety.lean, request by request; and
the start-up makes them anew. -/

set_option Elab.async false

namespace Sys2Proof.Machine

/-! ## How the checks compose -/

/-- A handling keeps the conditions from every state. -/
def Handles (handle : State → Answer) : Prop := ∀ s, Inside s (handle s).state

theorem handles_report (b : State → Body) : Handles fun s => report (b s) s := fun s => Inside.refl s

theorem handles_withArgs {α : Type} {read : List Byte → Option α} {handle : α → State → Answer}
    (h : ∀ body a, read body = some a → Handles (handle a)) (body : List Byte) :
    Handles (withArgs read handle body) := fun s => by
  unfold withArgs
  split
  · rename_i a e
    exact h body a e s
  · exact Inside.refl s

theorem handles_withReady {handle : State → Answer} (f : Feeder) (h : Handles handle) :
    Handles (withReady f handle) := fun s => by
  unfold withReady
  split
  · exact h s
  · exact Inside.refl s

theorem renewing_inside {s : State} {a : Answer} (l : List Item) (h : Inside s a.state) :
    Inside s (renewing l a).state := by
  unfold renewing
  split
  · exact h
  · exact h.renewItems l

theorem handles_withAuthority {handle : State → Answer} (p : Port) (b : Bool) (l : List Item)
    (h : Handles handle) : Handles (withAuthority p b l handle) := fun s => by
  unfold withAuthority
  split
  · exact Inside.refl s
  · exact renewing_inside l (h s)

/-! ## Authority -/

theorem claimItem_inside {s t : State} (h : Inside s t) {p : Port} (i : Item)
    (hp : AuthoritySound t → admitted t.key.location p = true) : Inside s (t.claimItem p i) := by
  unfold State.claimItem
  split
  · exact (h.setHolding i _ fun k y e => by cases e; exact hp k).addEntry ..
  · exact h.renewItem i

theorem claimItem_key (t : State) (p : Port) (i : Item) : (t.claimItem p i).key = t.key := by
  unfold State.claimItem State.renewItem
  split
  · rfl
  · split <;> rfl

theorem claimItem_location (t : State) (p : Port) (i : Item) :
    (t.claimItem p i).authority.location = t.authority.location := by
  unfold State.claimItem State.renewItem
  split
  · rfl
  · split <;> rfl

theorem claimItems_inside {s t : State} (p : Port) (l : List Item) (h : Inside s t)
    (hp : l ≠ [] → t.admits p = true) : Inside s (l.foldl (fun t i => t.claimItem p i) t) := by
  induction l generalizing t with
  | nil => exact h
  | cons i rest ih =>
    have hp := hp (by simp)
    refine ih (claimItem_inside h i fun k => ?_) fun _ => ?_
    · rw [← k.1]
      exact hp
    · unfold State.admits at hp ⊢
      rw [claimItem_location]
      exact hp

theorem handles_claim (p : Port) (l : List Item) : Handles (handleClaim p l) := fun s => by
  unfold handleClaim
  split
  · exact Inside.refl s
  · rename_i e
    refine claimItems_inside p l (Inside.refl s) fun hl => ?_
    unfold State.claimCheck at e
    split at e
    · cases e
    · rename_i hc
      simp only [Bool.and_eq_true, Bool.not_eq_true', List.isEmpty_eq_false_iff, not_and,
        Bool.not_eq_false] at hc
      exact hc hl

theorem handles_release (p : Port) (l : List Item) : Handles (handleRelease p l) := fun s =>
  (Inside.refl s).releaseItems p false l

theorem handles_withItems {handle : List Item → State → Answer} (h : ∀ l, Handles (handle l))
    (body : List Byte) : Handles (withItems handle body) := fun s => by
  unfold withItems
  split
  · exact h _ s
  · exact Inside.refl s

/-! ## Feeders and rectifier -/

theorem handles_openFeeder (p : Port) (f : Feeder) : Handles (handleOpenFeeder p f) :=
  handles_withReady f fun s => by
    dsimp only
    split
    · exact ((Quiet.refl s).openFeeder f _).inside
    · exact ((Quiet.refl s).openFeeder f _).inside

theorem handles_closeFeeder (p : Port) (f : Feeder) : Handles (handleCloseFeeder p f) :=
  handles_withReady f (handles_withAuthority p _ _ fun s => by
    split
    · exact Inside.refl s
    · exact ((Quiet.refl s).beginClose f _).inside)

theorem handles_resetLockout (p : Port) (f : Feeder) : Handles (handleResetLockout p f) :=
  handles_withReady f (handles_withAuthority p _ _ fun s => by
    split
    · exact ((Quiet.refl s).resetLockout f _).inside
    · exact Inside.refl s
    · exact Inside.refl s)

theorem handles_setAlpha (p : Port) (a : Nat) : Handles (handleSetAlpha p a) :=
  handles_withAuthority p _ _ fun s => ((Quiet.refl s).setTarget a).inside

theorem blocked_of_startCheck {s : State} (h : s.startCheck = none) : s.rect.state = .blocked := by
  unfold State.startCheck at h
  split at h
  · cases h
  · rename_i e
    simpa using e

theorem tripped_of_resetCheck {s : State} (h : s.resetCheck = none) : s.rect.state = .tripped := by
  unfold State.resetCheck at h
  split at h
  · cases h
  · rename_i e
    simpa using e

theorem handles_start (p : Port) : Handles (handleStart p ()) :=
  handles_withAuthority p _ _ fun s => by
    split
    · exact Inside.refl s
    · rename_i e
      exact ((Quiet.refl s).startRect _ (by rw [blocked_of_startCheck e]; simp)).inside

theorem handles_stop (p : Port) : Handles (handleStop p ()) :=
  handles_withAuthority p _ _ fun s => ((Quiet.refl s).stopRect _).inside

theorem handles_reset (p : Port) : Handles (handleReset p ()) :=
  handles_withAuthority p _ _ fun s => by
    split
    · exact Inside.refl s
    · rename_i e
      exact ((Quiet.refl s).resetRect _ (tripped_of_resetCheck e)).inside

/-! ## Links and time -/

theorem handles_writeSegment (p : Port) (x : LinkId × Fin 7 × File Byte 16) :
    Handles (handleWriteSegment p x) := fun s => by
  unfold handleWriteSegment done
  dsimp only
  exact ((Quiet.refl s).modLink _ _).inside

theorem handles_readSegment (p : Port) (x : LinkId × Fin 16 × Bool) :
    Handles (handleReadSegment p x) := fun s => by
  unfold handleReadSegment
  dsimp only
  split
  · exact Inside.refl s
  · have k : Quiet s (s.clearFresh p x.1 x.2.1) := (Quiet.refl s).modLink _ _
    exact k.inside

theorem handles_setTime (p : Port) (v : StationTime) : Handles (handleSetTime p v) := fun s => by
  unfold handleSetTime
  split
  · exact Inside.refl s
  · split
    · exact Inside.refl s
    · exact ((((Quiet.refl s).time _).setQuality _).addEntry ..).inside

theorem handles_timeRestart (p : Port) : Handles fun s => done (s.restartTime p) := fun s => by
  dsimp only [done]
  unfold State.restartTime
  dsimp only
  split
  · exact (((Quiet.refl s).time _).addEntry ..).inside
  · exact (((Quiet.refl s).time _).queueSystem.addEntry ..).inside

/-! ## Programmes and records -/

theorem handles_loadSteps (x : Nat × List Step) : Handles (handleLoadSteps x) := fun s => by
  unfold handleLoadSteps
  split
  · exact Inside.refl s
  · exact (Inside.refl s).programmes _ _

theorem handles_define (x : Fin 8 × Option Header) : Handles (handleDefine x) := fun s => by
  unfold handleDefine
  split
  · exact Inside.refl s
  · exact (Inside.refl s).programmes _ _

theorem handles_startProgramme (p : Port) (x : RunnerId × Fin 8) : Handles (handleStartProgramme p x) :=
  fun s => by
    unfold handleStartProgramme
    split
    · exact Inside.refl s
    · dsimp only
      split
      · exact Inside.refl s
      · split
        · exact Inside.refl s
        · split
          · exact Inside.refl s
          · exact renewing_inside _ (((Quiet.refl s).modRunner _ _).addEntry ..).inside

theorem handles_withControl {handle : RunnerId → State → Answer} (p : Port) (h : ∀ r, Handles (handle r))
    (r : RunnerId) : Handles (withControl p handle r) := fun s => by
  unfold withControl
  split
  · exact h r s
  · exact Inside.refl s

theorem handles_suspend (p : Port) (r : RunnerId) : Handles (handleSuspend p r) := fun s => by
  unfold handleSuspend
  split
  · exact (((Quiet.refl s).modRunner _ _).addEntry ..).inside
  · exact (((Quiet.refl s).modRunner _ _).addEntry ..).inside
  all_goals exact Inside.refl s

theorem handles_resume (p : Port) (r : RunnerId) : Handles (handleResume p r) := fun s => by
  unfold handleResume
  split
  · exact (((Quiet.refl s).modRunner _ _).addEntry ..).inside
  · exact Inside.refl s

theorem handles_stopRunner (p : Port) (r : RunnerId) : Handles (handleStopRunner p r) := fun s => by
  unfold handleStopRunner
  split
  · exact Inside.refl s
  · exact (((Quiet.refl s).modRunner _ _).addEntry ..).inside

theorem handles_clear (p : Port) (r : RunnerId) : Handles (handleClear p r) := fun s => by
  unfold handleClear
  split
  · exact (((Quiet.refl s).modRunner _ _).addEntry ..).inside
  · exact Inside.refl s

/-- A cursor moved to a number between the oldest and the newest plus one keeps the record sound. -/
theorem EventRecord.sound.cursor {r : EventRecord} (h : r.sound) (p : Port) {c : PortCursor}
    (h1 : c.next < 4294967296) (h2 : seqDistance c.next r.nextSequence ≤ r.ring.length) :
    { r with cursors := r.cursors.set p.index c }.sound := by
  obtain ⟨a, b, k, m⟩ := h
  refine ⟨a, b, k, fun q => ?_⟩
  by_cases e : q.index = p.index
  · simp only [e, File.get_set_self]
    exact ⟨h1, h2⟩
  · simp only [File.get_set_ne _ _ e]
    exact m q

theorem walk_mem (c : PortCursor) (n : Nat) (l : List Entry) : ∀ e ∈ (walk c n l).1, e ∈ l := by
  induction l generalizing n with
  | nil => cases n <;> simp [walk]
  | cons a rest ih =>
    cases n with
    | zero => simp [walk]
    | succ n =>
      simp only [walk]
      split
      · intro e he
        simp only [List.mem_cons] at he ⊢
        exact he.imp_right (ih n e)
      · intro e he
        exact List.mem_cons_of_mem _ (ih (n + 1) e he)

theorem ahead_mem (r : EventRecord) (c : PortCursor) : ∀ e ∈ r.ahead c, e ∈ r.ring := by
  unfold EventRecord.ahead
  split
  · rename_i h
    intro e he
    rw [h] at he ⊢
    exact List.mem_of_mem_drop he
  · simp

/-- The cursor after a read lies between the oldest and the newest plus one (10 R185, R187). -/
theorem cursorAfter_sound {r : EventRecord} (h : r.sound) (c : PortCursor) (n : Nat) :
    cursorAfter r (walk c n (r.ahead c)) < 4294967296 ∧
      seqDistance (cursorAfter r (walk c n (r.ahead c))) r.nextSequence ≤ r.ring.length := by
  obtain ⟨a, b, k, _⟩ := h
  unfold cursorAfter
  split
  · rename_i e _ he
    have hm := ahead_mem r c e (walk_mem c n _ e (List.mem_of_getLast? he))
    obtain ⟨i, hi, rfl⟩ := List.getElem_of_mem hm
    have := k i hi
    rw [List.getElem?_eq_getElem hi, Option.map_some, Option.some.injEq, EventRecord.sequenceAt] at this
    simp only [nextSeq, seqDistance, this]
    omega
  · simp only [seqDistance]
    omega

theorem handles_readEvents (p : Port) (n : Nat) : Handles (handleReadEvents p n) := fun s =>
  { Inside.refl s with
    record := fun k => by
      have := cursorAfter_sound k (s.cursor p) (min n 9)
      exact EventRecord.sound.cursor k p this.1 this.2 }

theorem handles_subscribe (p : Port) (x : File Bool 8) : Handles (handleSubscribe p x) := fun s =>
  { Inside.refl s with record := fun k => EventRecord.sound.cursor k p (k.2.2.2 p).1 (k.2.2.2 p).2 }

theorem handles_releaseCapture (n : Fin 4) : Handles (handleReleaseCapture n) := fun s => by
  unfold handleReleaseCapture
  split
  · split
    · exact ((Quiet.refl s).captureUnit fun k => k.free n).inside
    · exact Inside.refl s
  · exact Inside.refl s

/-! ## Settings -/

/-- Rectifier values in range give a range of angles (06, rectifier settings). -/
theorem rectifierInRange_angles {v : StationSettings} (h : v.rectifierInRange = true) : v.alphaMin ≤ v.alphaMax := by
  simp only [StationSettings.rectifierInRange, decide_eq_true_eq] at h
  omega

theorem numberChange_quiet {s t : State} (h : Quiet s t) (n : Nat) (l : LinkId) :
    Quiet s (t.numberChange n l) := by
  unfold State.numberChange
  split
  · exact h
  · exact (h.modLink l _).judgeConflict l

/-- A SET STATION that is not refused keeps the present angle in the new range (06 R128). -/
theorem setStation_inside (s : State) {v : StationSettings} (hv : v.alphaMin ≤ v.alphaMax)
    (ha : s.angleOutside v = false) : Inside s (s.setStation v) := by
  unfold State.setStation
  dsimp only
  refine Inside.quiet (t := ({ s with settings := { s.settings with station := v } }.markChanged).newAlphaMax
    v) ?_ ?_
  · refine { Inside.refl s with rectifier := ?_ }
    rintro ⟨_, b, c, d⟩
    refine ⟨hv, b, c, ?_⟩
    show (if s.rect.state = .running then s.rect else { s.rect with applied := v.alphaMax }).sound v
    split
    · rename_i e
      simp only [State.angleOutside, e, beq_self_eq_true, Bool.true_and, Bool.or_eq_false_iff,
        decide_eq_false_iff_not, Nat.not_lt] at ha
      exact ⟨fun _ => ha, fun x => absurd e x, d.2.2⟩
    · rename_i e
      exact ⟨fun x => absurd x e, fun _ => rfl, d.2.2⟩
  · refine (Quiet.refl _).together _ ?_
    intro part hm u hu
    simp only [List.mem_cons, List.not_mem_nil, or_false] at hm
    rcases hm with rfl | rfl | rfl
    · exact numberChange_quiet hu _ _
    · exact numberChange_quiet hu _ _
    · exact hu.roleChange _

theorem handles_setStation (p : Port) (v : StationSettings) : Handles (handleSetStation p v) :=
  handles_withAuthority p _ _ fun s => by
    unfold changeStation
    split
    · exact Inside.refl s
    · rename_i hv
      split
      · exact Inside.refl s
      · rename_i e
        exact setStation_inside s (rectifierInRange_angles (by simpa using hv)) (by simpa using e)

theorem partnerDiffers_false {v w : FeederSettings} (h : v.partnerDiffers w = false) :
    v.farLink = w.farLink := by
  unfold FeederSettings.partnerDiffers at h
  simp only [Bool.or_eq_false_iff, bne_eq_false_iff_eq] at h
  exact h.1

/-- SET FEEDER carried out keeps match and far link together (02 R31). -/
theorem setFeederTo_inside (s : State) (f : Feeder) (v : FeederSettings) :
    Inside s (s.setFeederTo f v) := by
  have hcfg : ∀ g, ({ s with settings := { s.settings with feeders := s.settings.feeders.set f v } }.markChanged
      ).config g = if g = f then v else s.config g := fun g => File.get_set _ _ _ _
  unfold State.setFeederTo
  dsimp only
  by_cases hd : (s.config f).partnerDiffers v = true
  · rw [if_pos hd]
    unfold State.newPartner
    dsimp only
    refine Inside.quiet (t := ({ s with settings :=
        { s.settings with feeders := s.settings.feeders.set f v } }.markChanged).modSection f fun r =>
          { r with farSeen := none, staleFrom := none, heard := false,
                   matching := if v.farLink.isNone then .noFarEnd else .mismatch }) ?_ ?_
    · refine { Inside.refl s with matching := fun k g => ?_ }
      rw [State.modSection_config, hcfg]
      by_cases e : g = f
      · subst e
        rw [State.modSection_section_self, if_pos rfl]
        cases v.farLink <;> simp
      · rw [State.modSection_section_ne _ _ e, if_neg e]
        exact k g
    · have hv : ({ s with settings := { s.settings with feeders := s.settings.feeders.set f v } }.markChanged
          ).config f = v := by rw [hcfg, if_pos rfl]
      rw [hv]
      exact (((Quiet.refl _).setFarState f none).regroup f).queueFeederEnd f
  · rw [if_neg hd]
    have base : Inside s ({ s with settings :=
        { s.settings with feeders := s.settings.feeders.set f v } }.markChanged) := by
      refine { Inside.refl s with matching := fun k g => ?_ }
      rw [hcfg]
      by_cases e : g = f
      · subst e
        rw [if_pos rfl, ← partnerDiffers_false (by simpa using hd)]
        exact k g
      · rw [if_neg e]
        exact k g
    split
    · exact base.quiet ((Quiet.refl _).queueFeederEnd f)
    · exact base

theorem handles_setFeeder (p : Port) (x : Feeder × FeederSettings) : Handles (handleSetFeeder p x) :=
  handles_withReady _ (handles_withAuthority p _ _ fun s => by
    split
    · exact Inside.refl s
    · exact setFeederTo_inside s _ _)

theorem handles_setSlots (p : Port) (m : File SlotEntry 32) : Handles (handleSetSlots p m) :=
  handles_withAuthority p _ _ fun s => by
    unfold setMap
    split
    · exact Inside.refl s
    · split
      · exact Inside.refl s
      · exact ((Inside.refl s).newMap m).markChanged

theorem handles_commit (p : Port) : Handles (handleCommit p ()) := fun s => by
  unfold handleCommit
  split
  · exact Inside.refl s
  · split
    · exact Inside.refl s
    · exact { Inside.refl s with
        rectifier := fun ⟨a, _, _, d⟩ => ⟨a, nofun, fun c e => by cases e; exact a, d⟩ }

/-- The end of a write keeps the conditions (11 R205). -/
theorem endCommit_inside (s : State) {c : Commit} (h : s.store.commit = some c) : Inside s (s.endCommit c) := by
  unfold State.endCommit
  refine Inside.addEntry ?_ ..
  exact { Inside.refl s with
    rectifier := fun ⟨a, _, k, d⟩ => ⟨a, fun v e => by cases e; exact k c h, nofun, d⟩ }

end Sys2Proof.Machine
end

