-- ==== Sys2Proof/Laws/Views.lean ====
section
/-! SUPPORT. What entries, runners, the rectifier and the captures leave: a view of the state that does not look at
them is the same after every operation on them. -/

set_option Elab.async false

namespace Sys2Proof.Machine

/-- A view of the state that looks neither at entries, nor at runners, nor at the free counter. -/
structure Aside (β : Type) where
  view : State → β
  choices : ∀ u x, view { u with choices := x } = view u
  events : ∀ u x, view { u with events := x } = view u
  runners : ∀ u x, view { u with runners := x } = view u

namespace Aside

variable {β : Type} (V : Aside β) (s : State)

theorem addEntry (k : EventKind) (u : Subject) (o : Origin) (d : Detail) (v w : Option Int) (c : Option (Fin 4)) :
    V.view (s.addEntry k u o d v w c) = V.view s :=
  (V.choices { s with events := (s.addEntry k u o d v w c).events } (s.addEntry k u o d v w c).choices).trans
    (V.events s _)

theorem modRunner (r : RunnerId) (g : Runner → Runner) : V.view (s.modRunner r g) = V.view s := V.runners s _

theorem completeStep (r : RunnerId) (o : StepOutcome) : V.view (s.completeStep r o) = V.view s := by
  unfold State.completeStep
  dsimp only
  split
  · rw [V.modRunner, V.modRunner]
  · rw [V.addEntry, V.modRunner, V.modRunner]

theorem failStep (r : RunnerId) (c : FailureCause) (e : Option Int) : V.view (s.failStep r c e) = V.view s := by
  unfold State.failStep State.haltRunner
  dsimp only
  split
  · rw [V.addEntry, V.modRunner, V.addEntry, V.modRunner]
  · rw [V.completeStep, V.addEntry, V.modRunner]

theorem rectToRunner (r : RunnerId) : V.view (s.rectToRunner r) = V.view s := by
  unfold State.rectToRunner
  split
  · split
    · exact V.completeStep ..
    · exact V.failStep ..
    · exact V.failStep ..
    · rfl
    · rfl
  · rfl

theorem judgeWait (p : Step → Bool) (r : RunnerId) : V.view (s.judgeWait p r) = V.view s := by
  unfold State.judgeWait
  split
  · exact V.completeStep ..
  · rfl

theorem closeToRunner (f : Feeder) (x : CloseResult) (r : RunnerId) :
    V.view (s.closeToRunner f x r) = V.view s := by
  unfold State.closeToRunner
  split
  · split
    · exact V.completeStep ..
    · exact V.failStep ..
  · rfl

theorem together (parts : List (State → State)) (hp : ∀ part ∈ parts, ∀ u, V.view (part u) = V.view u) :
    V.view (Machine.together parts s) = V.view s :=
  together_leaves V.view parts s V.choices hp

theorem judgeWaits (p : Step → Bool) : V.view (s.judgeWaits p) = V.view s := by
  refine V.together _ _ fun part hm u => ?_
  obtain ⟨r, _, rfl⟩ := List.mem_map.mp hm
  exact V.judgeWait ..

theorem rectToRunners : V.view s.rectToRunners = V.view s := by
  refine V.together _ _ fun part hm u => ?_
  obtain ⟨r, _, rfl⟩ := List.mem_map.mp hm
  dsimp only
  rw [V.judgeWait, V.rectToRunner]

theorem closeToRunners (f : Feeder) (x : CloseResult) : V.view (s.closeToRunners f x) = V.view s := by
  refine V.together _ _ fun part hm u => ?_
  obtain ⟨r, _, rfl⟩ := List.mem_map.mp hm
  exact V.closeToRunner ..

theorem heldAtStart (n : Option (Fin 4)) : V.view (s.heldAtStart n) = V.view s := by
  unfold State.heldAtStart State.captureHeldEntry
  split
  · split
    · split
      · exact V.addEntry ..
      · rfl
    · rfl
  · rfl

end Aside

/-- A view that looks neither at the rectifier nor at the captures either. -/
structure View (β : Type) extends Aside β where
  rect : ∀ u x, view { u with rect := x } = view u
  captures : ∀ u x, view { u with captures := x } = view u

namespace View

variable {β : Type} (V : View β) (s : State)

theorem modRect (g : Rectifier → Rectifier) : V.view (s.modRect g) = V.view s := V.rect s _

theorem rectTrip (c : RectTripCause) (v w : Option Int) : V.view (s.rectTrip c v w) = V.view s := by
  unfold State.rectTrip State.rectEntry State.openAc
  dsimp only
  rw [V.rectToRunners, V.addEntry, V.modRect, V.modRect]

theorem enterRunning : V.view s.enterRunning = V.view s := by
  unfold State.enterRunning State.rectEntry
  rw [V.rectToRunners, V.addEntry, V.modRect]

theorem overvoltageFrame (v : Option Int) : V.view (s.overvoltageFrame v) = V.view s := by
  unfold State.overvoltageFrame State.rectEntry
  split
  · exact V.modRect ..
  · dsimp only
    split
    · rw [V.addEntry, V.modRect]
    · rw [V.modRect]

theorem overcurrentFrame (v : Option Int) : V.view (s.overcurrentFrame v) = V.view s := by
  unfold State.overcurrentFrame
  split
  · split
    · exact V.modRect ..
    · dsimp only
      split
      · rw [V.rectTrip, V.modRect]
      · rw [V.modRect]
  · rfl

theorem retardNotice (f : Feeder) : V.view (s.retardNotice f) = V.view s := V.rect s _

theorem failureNotice (f : Feeder) : V.view (s.failureNotice f) = V.view s := by
  unfold State.failureNotice
  split
  · exact V.rectTrip ..
  · rfl

theorem setBuffer (n : Fin 4) (c : Option Capture) : V.view (s.setBuffer n c) = V.view s := V.captures s _

theorem fillCapture (n : Fin 4) (x : Feeder → Triple) : V.view (s.fillCapture n x) = V.view s := by
  unfold State.fillCapture State.captureHeldEntry
  split
  · split
    · rfl
    · dsimp only
      split
      · exact V.setBuffer ..
      · rw [V.addEntry, V.setBuffer]
  · rfl

theorem truncateCapture (n : Fin 4) : V.view (s.truncateCapture n) = V.view s := by
  unfold State.truncateCapture State.captureHeldEntry
  split
  · split
    · rfl
    · dsimp only
      rw [V.addEntry, V.setBuffer]
  · rfl

theorem startCapture (n : Fin 4) (f : Feeder) (c : TripCause) : V.view (s.startCapture n f c) = V.view s := by
  exact V.captures s _

theorem tripEntry (f : Feeder) (c : TripCause) (o : Origin) (b : Bool) (v w : Option Int) :
    V.view (s.tripEntry f c o b v w) = V.view s := by
  unfold State.tripEntry
  split
  · rw [V.addEntry, V.startCapture]
  · exact V.addEntry ..

end View

/-! ## Views of one field -/

/-- The view of a field that none of these operations writes. -/
def feedersView : View (File FeederRecord 8) :=
  { view := State.feeders, choices := fun _ _ => rfl, events := fun _ _ => rfl, runners := fun _ _ => rfl,
    rect := fun _ _ => rfl, captures := fun _ _ => rfl }

def sectionsView : View (File SectionRecord 8) :=
  { view := State.sections, choices := fun _ _ => rfl, events := fun _ _ => rfl, runners := fun _ _ => rfl,
    rect := fun _ _ => rfl, captures := fun _ _ => rfl }

def faultsView : View (File FaultRecord 8) :=
  { view := State.faults, choices := fun _ _ => rfl, events := fun _ _ => rfl, runners := fun _ _ => rfl,
    rect := fun _ _ => rfl, captures := fun _ _ => rfl }

def linksView : View (File SectionLink 2) :=
  { view := State.links, choices := fun _ _ => rfl, events := fun _ _ => rfl, runners := fun _ _ => rfl,
    rect := fun _ _ => rfl, captures := fun _ _ => rfl }

def timeView : View TimeBase :=
  { view := State.time, choices := fun _ _ => rfl, events := fun _ _ => rfl, runners := fun _ _ => rfl,
    rect := fun _ _ => rfl, captures := fun _ _ => rfl }

def rectView : Aside Rectifier :=
  { view := State.rect, choices := fun _ _ => rfl, events := fun _ _ => rfl, runners := fun _ _ => rfl }

def capturesView : Aside CaptureUnit :=
  { view := State.captures, choices := fun _ _ => rfl, events := fun _ _ => rfl, runners := fun _ _ => rfl }

/-! ## What the operations of a feeder leave of the Feeder Records -/

theorem postFar_feeder (s : State) (f : Feeder) (g : Feeder → Signal) (h : Feeder) :
    (s.postFar f g).feeder h = s.feeder h := by
  unfold State.postFar
  split <;> rfl

theorem withdrawFar_feeder (s : State) (f : Feeder) (g : Feeder → Signal) (h : Feeder) :
    (s.withdrawFar f g).feeder h = s.feeder h := by
  unfold State.withdrawFar
  split <;> rfl

theorem queueFeederEnd_feeder (s : State) (f h : Feeder) : (s.queueFeederEnd f).feeder h = s.feeder h := by
  unfold State.queueFeederEnd
  split <;> rfl

theorem setClaim_feeder (s : State) (f : Feeder) (c : ClaimState) (d : Option Instant) (h : Feeder) :
    (s.setClaim f c d).feeder h = s.feeder h := by
  unfold State.setClaim
  dsimp only
  split
  · rfl
  · exact queueFeederEnd_feeder _ f h

theorem feederNotices_feeder (s : State) (old : FeederState) (f g : Feeder) :
    (s.feederNotices old f).feeder g = s.feeder g := by
  unfold State.feederNotices
  split
  · rfl
  · have e : ((((s.protectionNotice old f).retardNotice f).queueFeederEnd f).failureNotice f).feeders =
        (((s.protectionNotice old f).retardNotice f).queueFeederEnd f).feeders := feedersView.failureNotice _ f
    unfold State.feeder
    rw [e]
    exact queueFeederEnd_feeder _ f g

theorem closeEnded_feeder (s : State) (old : FeederState) (f : Feeder) (x : CloseResult) (g : Feeder) :
    (s.closeEnded old f x).feeder g = s.feeder g := by
  unfold State.closeEnded
  rw [feederNotices_feeder]
  exact congrArg (fun v => File.get v g) (feedersView.closeToRunners s f x)

theorem releaseClaim_feeder (s : State) (f h : Feeder) : (s.releaseClaim f).feeder h = s.feeder h := by
  unfold State.releaseClaim
  split
  · rw [setClaim_feeder, postFar_feeder]
  · split
    · rw [setClaim_feeder, withdrawFar_feeder]
    · rw [setClaim_feeder, postFar_feeder]
  · rfl
  · rfl

/-- The end of a close leaves the feeder in its next record and the other feeders as they are (04 R74). -/
theorem endClose_feeder (s : State) (f : Feeder) (op : Operation) (x : CloseResult)
    (next : FeederRecord → FeederRecord) (g : Feeder) :
    (s.endClose f op x next).feeder g = if g = f then next (s.feeder f) else s.feeder g := by
  unfold State.endClose
  rw [closeEnded_feeder]
  by_cases h : g = f
  · subst h
    simp [State.closeResultEntry]
  · simp [State.closeResultEntry, h]

end Sys2Proof.Machine
end

