-- ==== Sys2Proof/Laws/Terms.lean ====
section
/-! SUPPORT. The terms of the statements in use: entries added along a chain of steps, states that differ in the
table only, reports of the table, responses, and a request carried out. -/

set_option Elab.async false

namespace Sys2Proof.Machine

/-! ## Entries and the table -/

theorem AddsEntry.later {s t u : State} {P} (h : AddsEntry s t P) (k : Grows t.events u.events) : AddsEntry s u P := by
  obtain ⟨r, e, a, b, c, d⟩ := h
  exact ⟨r, e, a, b, c.trans k, d⟩

theorem AddsEntry.earlier {s t u : State} {P} (h : AddsEntry t u P) (k : Grows s.events t.events) :
    AddsEntry s u P := by
  obtain ⟨r, e, a, b, c, d⟩ := h
  exact ⟨r, e, k.trans a, b, c, d⟩

theorem AddsEntry.mono {s t : State} {P Q : Entry → Prop} (h : AddsEntry s t P) (k : ∀ e, P e → Q e) : AddsEntry s t Q := by
  obtain ⟨r, e, a, b, c, d⟩ := h
  exact ⟨r, e, a, b, c, k e d⟩

theorem AddsEntry.add (s : State) (k : EventKind) (u : Subject) (o : Origin) (d : Detail) (v w : Option Int)
    (c : Option (Fin 4)) :
    AddsEntry s (s.addEntry k u o d v w c) fun e => e.kind = k ∧ e.subject = u ∧ e.origin = o ∧ e.detail = d ∧
      e.capture = c ∧ (inField v = true → e.value1 = v) ∧ (inField w = true → e.value2 = w) :=
  ⟨s.events, _, .refl _, rfl, .refl _, rfl, rfl, rfl, rfl, rfl, fun h => by simp [fieldValue, h],
    fun h => by simp [fieldValue, h]⟩

theorem OnlyTable.refl (s : State) : OnlyTable s s := rfl

theorem OnlyTable.trans {s t u : State} (h : OnlyTable s t) (k : OnlyTable t u) : OnlyTable s u := by
  unfold OnlyTable at *
  rw [k, h]

theorem OnlyTable.now {s t : State} (h : OnlyTable s t) : t.now = s.now := by
  unfold OnlyTable at h
  rw [h]

theorem OnlyTable.station {s t : State} (h : OnlyTable s t) : t.station = s.station := by
  unfold OnlyTable at h
  rw [h]
  rfl

theorem tableReport_isTable (s : State) : IsTable s s.tableReport := by
  refine ⟨_, rfl, fun i => ?_⟩
  rw [File.get_ofList]
  have : ∀ i : Item, (items.map s.holdingReport).getD i.index.val none = s.holdingReport i := by
    intro i
    cases i with
    | feeder f => fin_cases f <;> rfl
    | rectifier => rfl
  rw [this]
  rfl

theorem setHolding_holding (s : State) (i j : Item) (h : Option Holding) :
    (s.setHolding i h).holding j = if j = i then h else s.holding j := by
  unfold State.setHolding State.holding
  simp only [File.get_set, Item.index_inj]

theorem responds_answered {s t : State} (p : Port) (kind tag : Byte) (st : Status) (b : Body)
    (h : t.ports = (s.dropBuffer p).ports) : Responds s (t.answered p kind tag st b) p kind tag st b := by
  have e : (t.port p).overrun = (s.port p).overrun := by
    rw [show t.port p = (s.dropBuffer p).port p by simp only [State.port, h]]
    simp [State.dropBuffer]
  refine ⟨?_, fun _ k => respond_port_ne h k (kind := kind) (tag := tag) (st := st) (b := b)⟩
  have r := respond_port h (kind := kind) (tag := tag) (st := st) (b := b)
  unfold State.responseTo at r
  rw [e] at r
  exact r

theorem exec_request {s : State} {p : Port} {kind tag : Byte} {body : List Byte}
    (handle : List Byte → State → Answer) (h : s.offers p kind tag body) {a : Answer} (ha : handle body (s.dropBuffer p) = a) :
    takeRequest p kind handle s = .next (a.state.answered p kind tag a.status a.body) := by
  rw [takeRequest_answered _ h, ha]

end Sys2Proof.Machine
end

