-- ==== Sys2Proof/Laws/Words.lean ====
section
/-! SUPPORT. A part that runs takes an event; a word heard on an UP link acts as its signal alone; whole files of
links. -/

set_option Elab.async false

namespace Sys2Proof.Machine

theorem live_next {s : State} (h : s.resetLine = false) (f : State → State) : live s f = .next (f s) := by
  unfold live; rw [h]; rfl

theorem get_map {α β : Type} {n : Nat} (v : File α n) (g : α → β) (i : Fin n) : (v.map g).get i = g (v.get i) := by
  simp only [File.get_eq_getElem, File.map, List.getElem_map]

theorem set_get {α : Type} {n : Nat} (v : File α n) (i : Fin n) : v.set i (v.get i) = v := by
  ext j; rw [File.get_set]; split
  · rename_i e; rw [e]
  · rfl

theorem takeData_idle {s : State} {l : LinkId} (h : (s.link l).assembly = .idle) : s.takeData l (some .idle) = s := by
  unfold State.takeData
  rw [h]
  dsimp only [assemble, assembleBreak]
  simp only [if_true]
  have e : ({ s.link l with assembly := .idle } : SectionLink) = s.link l := by rw [← h]
  exact (congrArg (fun k => ({ s with links := s.links.set l.index k } : State)) e).trans
    (by show ({ s with links := s.links.set l.index (s.links.get l.index) } : State) = s; rw [set_get])

theorem aged_eq (k : SectionLink) : k.ageWindows = k.aged := rfl

theorem goodWordAt_up {s : State} {l : LinkId} (g : SlotSignal) (d : RxData) (h : (s.link l).state = .up) :
    s.goodWordAt l g d =
      (s.modLink l fun _ => SectionLink.aged { s.link l with badRun := 0 }).takeSlots l g d := by
  unfold State.goodWordAt
  rw [h]
  rfl

/-- Without a signal, or without a segment that the word completes, the two slots are parts of one event. -/
theorem takeSlots_together {s : State} {l : LinkId} {g : SlotSignal} {d : RxData}
    (h : g = .nothing ∨ s.completes l d = false) :
    s.takeSlots l g d = together [fun t => t.takeSignal l g, fun t => t.takeData l (some d)] s := by
  unfold State.takeSlots
  rcases h with rfl | h
  · rfl
  · rw [h, Bool.and_false]; rfl

/-- An IDLE data slot completes no segment. -/
theorem completes_idle (s : State) (l : LinkId) : s.completes l .idle = false := by
  unfold State.completes
  by_cases h : (s.link l).assembly = .idle <;> simp [assemble, assembleBreak, h]

/-- A word that is heard acts as its signal on the link as the word finds it. -/
theorem hears_exec {s : State} {l : LinkId} {w : RxWord} {g : SlotSignal} (h : s.hears l w g)
    (ha : (((s.modLink l fun _ => SectionLink.aged { s.link l with badRun := 0 }).takeSignal l g).link l).assembly = .idle) :
    exec (.linkWord l w) s = .next ((s.modLink l fun _ => SectionLink.aged { s.link l with badRun := 0 }).takeSignal l g) := by
  obtain ⟨h1, h2, h3, h4, h5, h6⟩ := h
  unfold exec execLinkWord; dsimp only
  rw [live_next h1]
  unfold State.takeWord
  rw [if_pos h2, h5]
  dsimp only
  rw [goodWordAt_up _ _ h3]
  generalize hu : (s.modLink l fun _ => SectionLink.aged { s.link l with badRun := 0 }) = u at *
  have ua : (u.link l).assembly = .idle := by rw [← hu]; simp [State.modLink, State.link, SectionLink.aged]; exact h4
  congr 1
  rw [h6, takeSlots_together (.inr (completes_idle u l))]
  have q : addsEntry u (fun t => t.takeData l (some .idle)) = false := by unfold addsEntry; dsimp only; rw [takeData_idle ua]; simp
  unfold together
  cases hq : addsEntry u (fun t => t.takeSignal l g)
  · simp only [List.filter, hq, q, Bool.not_false, inFreeOrder, List.foldl, List.length]; exact takeData_idle ha
  · simp only [List.filter, hq, q, Bool.not_false, Bool.not_true, inFreeOrder, List.foldl, List.length]; rw [takeData_idle ua]

theorem queueSystem_queues (s t : State) (h : t.links = s.links.map fun k => k.queue 0) : QueuesSystem s t := by
  intro l
  unfold State.link
  rw [h, get_map]
  unfold SectionLink.queue
  rfl

theorem setQuality_eq (s : State) (q : TimeQuality) : s.setQuality q =
    { s with time := { s.time with quality := q },
             links := if s.time.quality = q then s.links else s.links.map fun k => k.queue 0 } := by
  unfold State.setQuality
  split
  · rename_i h; rw [← h]
  · rfl

end Sys2Proof.Machine
end

