-- ==== Sys2Proof/Laws/Bodies.lean ====
section
/-! SUPPORT. What the readers of the longer request bodies accept, byte by byte: each answers a value exactly for the
bodies that the terms of the statements describe. -/

set_option Elab.async false

namespace Sys2Proof.Machine

theorem below_eq_some {n : Nat} {b : Byte} {x : Fin n} : below n b = some x ↔ b.toNat = x.val := by
  unfold below
  split
  · rw [Option.some.injEq, Fin.ext_iff]
  · rename_i h
    exact ⟨nofun, fun e => absurd (e ▸ x.isLt) h⟩

theorem flagByte_eq_some {b : Byte} {x : Bool} : flagByte b = some x ↔ (b.toNat, x) ∈ [(0, false), (1, true)] := by
  unfold flagByte
  split <;> rename_i h <;> cases x <;> simp_all

theorem runnerByte_eq_some {b : Byte} {r : RunnerId} :
    runnerByte b = some r ↔ (b.toNat, r) ∈ [(0, RunnerId.runner0), (1, .runner1)] := by
  unfold runnerByte
  split <;> rename_i h <;> cases r <;> simp_all

theorem timeRoleByte_eq_some {b : Byte} {x : TimeRole} :
    timeRoleByte b = some x ↔ (b.toNat, x) ∈ [(0, TimeRole.master), (1, .followLink0), (2, .followLink1)] := by
  unfold timeRoleByte
  split <;> rename_i h <;> cases x <;> simp_all

theorem farLinkByte_eq_some {b : Byte} {x : Option LinkId} :
    farLinkByte b = some x ↔ (b.toNat, x) ∈ [(0, none), (1, some LinkId.link0), (2, some .link1)] := by
  unfold farLinkByte
  split <;> rename_i h <;> rcases x with _ | _ | _ <;> simp_all

theorem readAction_eq_some {b : Byte} {x : StepAction} : readAction b = some x ↔
    (b.toNat, x) ∈ [(0, StepAction.noAction), (1, .openFeeder), (2, .closeFeeder), (3, .setAlpha), (4, .startRectifier),
      (5, .stopRectifier), (6, .waitUntil), (7, .mark), (8, .finish)] := by
  unfold readAction
  split <;> rename_i h <;> cases x <;> simp_all

theorem readTarget_eq_some {b : Byte} {x : Option Item} : readTarget b = some x ↔ TargetByte b x := by
  have k (n : Nat) (hn : n < 256) : b = BitVec.ofNat 8 n ↔ b.toNat = n := by
    constructor
    · rintro rfl
      simp; omega
    · intro h
      apply BitVec.eq_of_toNat_eq
      simp [h]; omega
  unfold readTarget TargetByte
  split
  · rename_i h
    have h := (k 255 (by omega)).mp h
    constructor
    · intro e; cases e; exact .inr (.inr ⟨h, rfl⟩)
    · rintro (⟨f, e, _⟩ | ⟨e, _⟩ | ⟨_, rfl⟩)
      · have := f.isLt; omega
      · omega
      · rfl
  · rename_i h
    have h : b.toNat ≠ 255 := fun e => h ((k 255 (by omega)).mpr e)
    split
    · rename_i h'
      have h' := (k 8 (by omega)).mp h'
      constructor
      · intro e; cases e; exact .inr (.inl ⟨h', rfl⟩)
      · rintro (⟨f, e, _⟩ | ⟨_, rfl⟩ | ⟨e, _⟩)
        · have := f.isLt; omega
        · rfl
        · omega
    · rename_i h'
      have h' : b.toNat ≠ 8 := fun e => h' ((k 8 (by omega)).mpr e)
      rw [Option.map_eq_some_iff]
      constructor
      · rintro ⟨f, e, rfl⟩
        exact .inl ⟨f, below_eq_some.mp e, rfl⟩
      · rintro (⟨f, e, rfl⟩ | ⟨e, _⟩ | ⟨e, _⟩)
        · exact ⟨f, below_eq_some.mpr e, rfl⟩
        · exact absurd e h'
        · exact absurd e h

theorem readMask_eq_some {b : Byte} {x : Mask} : readMask b = some x ↔ b.toNat < 64 ∧ x =
    { busLive := b.toNat.testBit 0, rectifierRunning := b.toNat.testBit 1, farClosed := b.toNat.testBit 2,
      farOpenOrUnknown := b.toNat.testBit 3, locationLocal := b.toNat.testBit 4,
      locationRemote := b.toNat.testBit 5 } := by
  unfold readMask
  split
  · rename_i h
    rw [Option.some.injEq]
    exact ⟨fun e => ⟨h, e.symm⟩, fun e => e.2.symm⟩
  · rename_i h
    exact ⟨nofun, fun e => absurd e.1 h⟩

theorem suits_iff {x : Step} : x.suits = true ↔ StepSuits x := by
  obtain ⟨d, a, t, g, ⟨m0, m1, m2, m3, m4, m5⟩, o⟩ := x
  unfold Step.suits Step.targetSuits Step.maskSuits StepSuits
  cases a <;> rcases t with _ | _ | _ <;> cases m2 <;> cases m3 <;> cases m4 <;> cases m5 <;> simp

theorem readStep_eq_some {bytes : List Byte} {x : Step} : readStep bytes = some x ↔ IsStepRecord bytes x := by
  unfold IsStepRecord
  constructor
  · intro h
    unfold readStep at h
    split at h
    · rename_i d1 d0 a t g1 g0 m o
      split at h
      · rename_i a' t' m' o' ea et em eo
        dsimp only at h
        split at h
        · rename_i hs
          cases h
          obtain ⟨e1, e2⟩ := readMask_eq_some.mp em
          exact ⟨d1, d0, a, t, g1, g0, m, o, rfl, rfl, readAction_eq_some.mp ea, readTarget_eq_some.mp et, rfl, e1, e2,
            flagByte_eq_some.mp eo, suits_iff.mp hs⟩
        · cases h
      · cases h
    · cases h
  · rintro ⟨d1, d0, a, t, g1, g0, m, o, rfl, e1, e2, e3, e4, e5, e6, e7, e8⟩
    unfold readStep
    dsimp only
    rw [readAction_eq_some.mpr e2, readTarget_eq_some.mpr e3, readMask_eq_some.mpr ⟨e5, e6⟩, flagByte_eq_some.mpr e7]
    dsimp only
    have : ({ delay := be16 d1 d0, action := x.action, target := x.target, argument := be16 g1 g0, mask := x.mask,
              halt := x.halt } : Step) = x := by
      cases x
      simp only at e1 e4
      subst e1 e4
      rfl
    rw [this, if_pos (suits_iff.mpr e8)]

theorem readSteps_eq_some {n : Nat} {bytes : List Byte} {xs : List Step} : readSteps n bytes = some xs ↔
    xs.length = n ∧ bytes.length = 8 * n ∧
      ∀ (k : Nat) x, xs[k]? = some x → IsStepRecord ((bytes.drop (8 * k)).take 8) x := by
  induction n generalizing bytes xs with
  | zero =>
    cases bytes with
    | nil =>
      rw [readSteps, Option.some.injEq]
      constructor
      · rintro rfl
        exact ⟨rfl, rfl, fun k x h => by simp at h⟩
      · rintro ⟨h, -, -⟩
        exact (List.length_eq_zero_iff.mp h).symm
    | cons b rest =>
      rw [readSteps]
      · exact ⟨nofun, fun ⟨_, h, _⟩ => by simp at h⟩
      · nofun
  | succ n ih =>
    rw [readSteps]
    constructor
    · intro h
      split at h
      · rename_i x rest ex er
        cases h
        obtain ⟨l, b, r⟩ := ih.mp er
        have hx := readStep_eq_some.mp ex
        have hb : 8 ≤ bytes.length := by
          obtain ⟨d1, d0, a, t, g1, g0, m, o, e, _⟩ := hx
          have := congrArg List.length e
          rw [List.length_take] at this
          simp at this
          omega
        rw [List.length_drop] at b
        refine ⟨by simp [l], by omega, fun k y hy => ?_⟩
        cases k with
        | zero => simp at hy; subst hy; simpa using hx
        | succ k =>
          have := r k y (by simpa using hy)
          rwa [List.drop_drop, show 8 + 8 * k = 8 * (k + 1) by omega] at this
      · cases h
    · rintro ⟨l, b, r⟩
      cases xs with
      | nil => simp at l
      | cons x rest =>
        have h0 := readStep_eq_some.mpr (by simpa using r 0 x (by simp))
        have h1 : readSteps n (bytes.drop 8) = some rest := ih.mpr ⟨by simpa using l, by rw [List.length_drop]; omega,
          fun k y hy => by
            have := r (k + 1) y (by simpa using hy)
            rwa [List.drop_drop, show 8 + 8 * k = 8 * (k + 1) by omega]⟩
        rw [h0, h1]

theorem readLoadSteps_eq_some {body : List Byte} {first : Nat} {steps : List Step} :
    readLoadSteps body = some (first, steps) ↔ LoadsSteps body first steps := by
  unfold LoadsSteps
  cases body with
  | nil => exact ⟨nofun, fun ⟨_, _, _, _, _, _, h, _⟩ => by cases h⟩
  | cons f bytes =>
    unfold readLoadSteps
    dsimp only
    constructor
    · intro h
      split at h
      · rename_i hn
        rw [Option.map_eq_some_iff] at h
        obtain ⟨xs, e, k⟩ := h
        cases k
        obtain ⟨l, b, r⟩ := readSteps_eq_some.mp e
        exact ⟨by omega, by omega, by omega, by simp; omega, f, bytes, rfl, rfl, r⟩
      · cases h
    · rintro ⟨a, b, c, d, g, rest, e, rfl, r⟩
      cases e
      have hl : bytes.length = 8 * steps.length := by simp at d; omega
      have hn : bytes.length / 8 = steps.length := by omega
      rw [hn, if_pos ⟨a, b, c⟩, readSteps_eq_some.mpr ⟨rfl, hl, r⟩]
      rfl

theorem readDefine_eq_some {body : List Byte} {n : Fin 8} {h : Option Header} :
    readDefine body = some (n, h) ↔ DefinesProgramme body n h := by
  unfold DefinesProgramme
  constructor
  · intro e
    unfold readDefine at e
    split at e
    · rename_i p d f c1 c0
      split at e
      · rename_i q ep ed
        dsimp only at e
        split at e
        · rename_i hc
          cases e
          have := flagByte_eq_some.mp ed
          exact ⟨p, d, f, c1, c0, rfl, below_eq_some.mp ep,
            .inr ⟨by simpa using this, hc.1, hc.2.1, hc.2.2, rfl⟩⟩
        · cases e
      · rename_i q ep ed
        cases e
        have := flagByte_eq_some.mp ed
        exact ⟨p, d, f, c1, c0, rfl, below_eq_some.mp ep, .inl ⟨by simpa using this, rfl⟩⟩
      · cases e
    · cases e
  · rintro ⟨p, d, f, c1, c0, rfl, ep, ⟨ed, rfl⟩ | ⟨ed, a, b, c, rfl⟩⟩
    · have : flagByte d = some false := flagByte_eq_some.mpr (by simp [ed])
      unfold readDefine
      dsimp only
      rw [below_eq_some.mpr ep, this]
    · have : flagByte d = some true := flagByte_eq_some.mpr (by simp [ed])
      unfold readDefine
      dsimp only
      rw [below_eq_some.mpr ep, this]
      dsimp only
      rw [if_pos ⟨a, b, c⟩]
      rfl

theorem readStart_eq_some {body : List Byte} {r : RunnerId} {n : Fin 8} :
    readStart body = some (r, n) ↔ StartsProgramme body r n := by
  unfold StartsProgramme
  constructor
  · intro e
    unfold readStart at e
    split at e
    · split at e
      · rename_i ea eb
        cases e
        exact ⟨_, _, rfl, runnerByte_eq_some.mp ea, below_eq_some.mp eb⟩
      · cases e
    · cases e
  · rintro ⟨a, b, rfl, ea, eb⟩
    unfold readStart
    dsimp only
    rw [runnerByte_eq_some.mpr ea, below_eq_some.mpr eb]

theorem stationFits_iff {v : StationSettings} : (v.inRange && v.rectifierInRange) = true ↔ StationFits v := by
  unfold StationSettings.inRange StationSettings.rectifierInRange StationFits
  simp only [Bool.and_eq_true, decide_eq_true_eq]
  constructor
  · rintro ⟨⟨a, b, c, d, e, f⟩, g⟩
    exact ⟨a, b, c, d, e, f, g⟩
  · rintro ⟨a, b, c, d, e, f, g⟩
    exact ⟨⟨a, b, c, d, e, f⟩, g⟩

theorem readSetStation_eq_some {body : List Byte} {v : StationSettings} :
    readSetStation body = some v ↔ SetsStation body v := by
  unfold SetsStation
  constructor
  · intro e
    unfold readSetStation at e
    split at e
    · split at e
      · rename_i ht
        dsimp only at e
        split at e
        · rename_i hv
          cases e
          exact ⟨_, _, _, _, _, _, _, _, _, _, _, _, _, _, _, _, _, _, _, rfl, timeRoleByte_eq_some.mp ht, rfl,
            stationFits_iff.mp hv⟩
        · cases e
      · cases e
    · cases e
  · rintro ⟨sn, tr, _, _, _, _, _, _, _, _, _, _, _, _, _, _, _, _, _, rfl, et, ev, h⟩
    unfold readSetStation
    dsimp only
    rw [timeRoleByte_eq_some.mpr et]
    dsimp only
    have : ∀ w : StationSettings, w = v → (if w.inRange && w.rectifierInRange then some w else none) = some v := by
      rintro w rfl
      rw [if_pos (stationFits_iff.mpr h)]
    exact this _ ev.symm

theorem readGroup_eq_some {bytes : List Byte} {g : Group} : readGroup bytes = some g ↔ IsGroup bytes g := by
  unfold IsGroup
  constructor
  · intro e
    unfold readGroup at e
    split at e
    · dsimp only at e
      split at e
      · rename_i h
        cases e
        simp only [Group.inRange, decide_eq_true_eq] at h
        obtain ⟨a, b, c, d, e, f⟩ := h
        exact ⟨_, _, _, _, _, _, _, _, _, _, rfl, rfl, a, b, c, d, Nat.le_trans e d, e, f⟩
      · cases e
    · cases e
  · rintro ⟨_, _, _, _, _, _, _, _, _, _, rfl, eg, a, b, c, d, _, e, f⟩
    unfold readGroup
    dsimp only
    have : ∀ w : Group, w = g → (if w.inRange then some w else none) = some g := by
      rintro w rfl
      rw [if_pos (by simp only [Group.inRange, decide_eq_true_eq]; exact ⟨a, b, c, d, e, f⟩)]
    exact this _ eg.symm

theorem IsGroup.length {bytes : List Byte} {g : Group} (h : IsGroup bytes g) : bytes.length = 10 := by
  obtain ⟨_, _, _, _, _, _, _, _, _, _, rfl, _⟩ := h
  rfl

theorem readSetFeeder_eq_some {body : List Byte} {f : Feeder} {v : FeederSettings} :
    readSetFeeder body = some (f, v) ↔ SetsFeeder body f v := by
  unfold SetsFeeder
  constructor
  · intro e
    unfold readSetFeeder at e
    split at e
    · rename_i i sv fl ff rest
      split at e
      · rename_i f' sv' fl' ff' g1 g2 e1 e2 e3 e4 e5 e6
        rw [Option.map_eq_some_iff] at e
        obtain ⟨w, ew, k⟩ := e
        cases k
        unfold readFeederTail at ew
        split at ew
        · rename_i bl tc cc1 cc0 tt1 tt0 hf mr rd rc1 rc0 hl
          dsimp only at ew
          split at ew
          · rename_i hr
            cases ew
            simp only [FeederSettings.inRange, decide_eq_true_eq] at hr
            refine ⟨i, sv, fl, ff, bl, tc, cc1, cc0, tt1, tt0, hf, mr, rd, rc1, rc0, rest.take 10,
              (rest.drop 10).take 10, ?_, below_eq_some.mp e1, flagByte_eq_some.mp e2, farLinkByte_eq_some.mp e3,
              below_eq_some.mp e4, readGroup_eq_some.mp e5, readGroup_eq_some.mp e6, rfl, hr⟩
            rw [← hl]
            simp only [List.cons_append, List.nil_append, List.append_assoc]
            rw [show rest.drop 20 = (rest.drop 10).drop 10 by rw [List.drop_drop], List.take_append_drop,
              List.take_append_drop]
          · cases ew
        · cases ew
      · cases e
    · cases e
  · rintro ⟨i, sv, fl, ff, bl, tc, cc1, cc0, tt1, tt0, hf, mr, rd, rc1, rc0, g1, g2, rfl, e1, e2, e3, e4, e5, e6, ev, hr⟩
    have l1 := e5.length
    have l2 := e6.length
    unfold readSetFeeder
    simp only [List.cons_append, List.nil_append, List.append_assoc]
    have d1 : ∀ t : List Byte, (g1 ++ t).take 10 = g1 := fun t => by rw [← l1, List.take_left]
    have d2 : ∀ t : List Byte, (g1 ++ t).drop 10 = t := fun t => by rw [← l1, List.drop_left]
    have d3 : ∀ t : List Byte, (g2 ++ t).take 10 = g2 := fun t => by rw [← l2, List.take_left]
    have d4 : ∀ t : List Byte, (g1 ++ (g2 ++ t)).drop 20 = t := fun t => by
      rw [show (20 : Nat) = 10 + 10 by rfl, ← List.drop_drop, d2, ← l2, List.drop_left]
    rw [d1, d2, d3, d4, below_eq_some.mpr e1, flagByte_eq_some.mpr e2, farLinkByte_eq_some.mpr e3, below_eq_some.mpr e4,
      readGroup_eq_some.mpr e5, readGroup_eq_some.mpr e6]
    dsimp only [readFeederTail]
    have : ∀ w : FeederSettings, w = v → (if w.inRange then some w else none) = some v := by
      rintro w rfl
      rw [if_pos (by simp only [FeederSettings.inRange, decide_eq_true_eq]; exact hr)]
    erw [this _ ev.symm]
    rfl

theorem readSlot_eq_some {b : Byte} {e : SlotEntry} : readSlot b = some e ↔ EntryCode b e := by
  unfold EntryCode
  constructor
  · intro h
    unfold readSlot at h
    split at h
    · rename_i k; cases h; exact .inl ⟨k, rfl⟩
    · rename_i k; cases h; exact .inr (.inr (.inr (.inl ⟨k, rfl⟩)))
    · rename_i k; cases h; exact .inr (.inr (.inr (.inr ⟨k, rfl⟩)))
    · split at h
      · rename_i k; cases h; exact .inr (.inl ⟨_, by dsimp only; omega, rfl⟩)
      · split at h
        · rename_i k; cases h; exact .inr (.inr (.inl ⟨_, by dsimp only; omega, rfl⟩))
        · cases h
  · rintro (⟨k, rfl⟩ | ⟨f, k, rfl⟩ | ⟨f, k, rfl⟩ | ⟨k, rfl⟩ | ⟨k, rfl⟩) <;> unfold readSlot <;> rw [k] <;>
      first | rfl | (fin_cases f <;> rfl)

theorem readSlotCodes_eq_some {bytes : List Byte} {xs : List SlotEntry} : readSlotCodes bytes = some xs ↔
    bytes.length = xs.length ∧ ∀ (k : Nat) e, xs[k]? = some e → ∃ b, bytes[k]? = some b ∧ EntryCode b e := by
  induction bytes generalizing xs with
  | nil =>
    rw [readSlotCodes, Option.some.injEq]
    constructor
    · rintro rfl
      exact ⟨rfl, fun k e h => by simp at h⟩
    · rintro ⟨h, -⟩
      exact (List.length_eq_zero_iff.mp h.symm).symm
  | cons b rest ih =>
    rw [readSlotCodes]
    constructor
    · intro h
      split at h
      · rename_i x ys ex ey
        cases h
        obtain ⟨l, r⟩ := ih.mp ey
        refine ⟨by simp [l], fun k e he => ?_⟩
        cases k with
        | zero => simp at he; subst he; exact ⟨b, rfl, readSlot_eq_some.mp ex⟩
        | succ k => simpa using r k e (by simpa using he)
      · cases h
    · rintro ⟨l, r⟩
      cases xs with
      | nil => simp at l
      | cons x ys =>
        obtain ⟨b', eb, ex⟩ := r 0 x rfl
        cases eb
        have ey : readSlotCodes rest = some ys := ih.mpr ⟨by simpa using l, fun k e he => by
          simpa using r (k + 1) e (by simpa using he)⟩
        rw [readSlot_eq_some.mpr ex, ey]

theorem namesOnce_iff {xs : List SlotEntry} : namesOnce xs = true ↔
    ∀ i j : Nat, ∀ x, xs[i]? = some x → xs[j]? = some x → x ≠ .unused → i = j := by
  induction xs with
  | nil => exact ⟨fun _ i j x h => by simp at h, fun _ => rfl⟩
  | cons a rest ih =>
    rw [namesOnce, Bool.and_eq_true, ih, Bool.or_eq_true, beq_iff_eq, Bool.not_eq_true', List.contains_eq_mem,
      decide_eq_false_iff_not]
    constructor
    · rintro ⟨h, k⟩ i j x hi hj hx
      cases i <;> cases j
      · rfl
      · simp at hi hj
        subst hi
        exact absurd (List.mem_iff_getElem?.mpr ⟨_, hj⟩) (h.resolve_left hx)
      · simp at hi hj
        subst hj
        exact absurd (List.mem_iff_getElem?.mpr ⟨_, hi⟩) (h.resolve_left hx)
      · rename_i i j
        rw [k i j x (by simpa using hi) (by simpa using hj) hx]
    · intro h
      refine ⟨?_, fun i j x hi hj hx => by
        have := h (i + 1) (j + 1) x (by simpa using hi) (by simpa using hj) hx
        omega⟩
      by_cases ha : a = .unused
      · exact .inl ha
      · refine .inr fun hm => ?_
        obtain ⟨j, hj⟩ := List.mem_iff_getElem?.mp hm
        have := h 0 (j + 1) a rfl (by simpa using hj) ha
        omega

theorem File.getElem?_cells {α : Type} {n : Nat} (v : File α n) (i : Fin n) : v.cells[i.val]? = some (v.get i) := by
  rw [File.get_eq_getElem]
  exact List.getElem?_eq_getElem _

theorem namesOnce_file {m : File SlotEntry 32} :
    namesOnce m.cells = true ↔ ∀ n k, m.get n = m.get k → m.get n ≠ .unused → n = k := by
  rw [namesOnce_iff]
  constructor
  · intro h n k e hx
    exact Fin.ext (h n.val k.val (m.get n) (File.getElem?_cells m n) (e ▸ File.getElem?_cells m k) hx)
  · intro h i j x hi hj hx
    have li : i < 32 := by rw [← m.size]; exact (List.getElem?_eq_some_iff.mp hi).1
    have lj : j < 32 := by rw [← m.size]; exact (List.getElem?_eq_some_iff.mp hj).1
    have ei : m.get ⟨i, li⟩ = x := by
      have := File.getElem?_cells m ⟨i, li⟩
      rw [hi] at this
      exact (Option.some.inj this).symm
    have ej : m.get ⟨j, lj⟩ = x := by
      have := File.getElem?_cells m ⟨j, lj⟩
      rw [hj] at this
      exact (Option.some.inj this).symm
    exact congrArg Fin.val (h ⟨i, li⟩ ⟨j, lj⟩ (ei.trans ej.symm) (ei ▸ hx))

theorem readSlots_eq_some {body : List Byte} {m : File SlotEntry 32} : readSlots body = some m ↔ SetsSlots body m := by
  have codes : (∀ (k : Nat) e, m.cells[k]? = some e → ∃ b, body[k]? = some b ∧ EntryCode b e) ↔
      ∀ n : Fin 32, ∃ b, body[n.val]? = some b ∧ EntryCode b (m.get n) := by
    constructor
    · intro h n
      exact h n.val _ (File.getElem?_cells m n)
    · intro h k e he
      have lk : k < 32 := by rw [← m.size]; exact (List.getElem?_eq_some_iff.mp he).1
      have : m.get ⟨k, lk⟩ = e := by
        have := File.getElem?_cells m ⟨k, lk⟩
        rw [he] at this
        exact (Option.some.inj this).symm
      exact this ▸ h ⟨k, lk⟩
  unfold SetsSlots
  constructor
  · intro h
    unfold readSlots at h
    split at h
    · rename_i xs ex
      split at h
      · rename_i hl
        split at h
        · rename_i hn
          cases h
          obtain ⟨l, r⟩ := readSlotCodes_eq_some.mp ex
          exact ⟨l.trans hl, codes.mp r, namesOnce_file.mp hn⟩
        · cases h
      · cases h
    · cases h
  · rintro ⟨l, r, n⟩
    unfold readSlots
    rw [readSlotCodes_eq_some.mpr ⟨l.trans m.size.symm, codes.mpr r⟩]
    dsimp only
    rw [dif_pos m.size, if_pos (namesOnce_file.mpr n)]

end Sys2Proof.Machine
end

