-- ==== Sys2Proof/Laws/Notices.lean ====
section
/-! SUPPORT. What the notices of a feeder leave and what they hand on: a change of its state at Fault Detection, the Firing
Unit and the link (02 R25; 03 R40, R41; 06 R116; 07 R151), and of its group at Fault Detection (03 R50). -/

set_option Elab.async false

namespace Sys2Proof.Machine

/-! ## What the notices of a feeder leave -/

theorem queueFeederEnd_sections (s : State) (f : Feeder) : (s.queueFeederEnd f).sections = s.sections := by
  unfold State.queueFeederEnd
  split <;> rfl

theorem queue_pendingSet (k : SectionLink) (n : Fin 16) : (k.queue n).pendingSet = k.pendingSet := by
  unfold SectionLink.queue
  split <;> rfl

theorem link_modLink (s : State) (l m : LinkId) (g : SectionLink → SectionLink) :
    (s.modLink l g).link m = if m = l then g (s.link l) else s.link m := by
  unfold State.modLink State.link
  rw [File.get_set]
  by_cases h : m = l
  · subst h; simp
  · rw [if_neg h, if_neg]
    revert h; cases m <;> cases l <;> decide

theorem queueFeederEnd_pendingSet (s : State) (f : Feeder) (l : LinkId) :
    ((s.queueFeederEnd f).link l).pendingSet = (s.link l).pendingSet := by
  unfold State.queueFeederEnd
  split
  · rw [link_modLink]
    split
    · rename_i h
      rw [queue_pendingSet, h]
    · rfl
  · rfl

theorem feederNotices_sections (s : State) (x : FeederState) (f : Feeder) :
    (s.feederNotices x f).sections = s.sections := by
  unfold State.feederNotices
  split
  · rfl
  · rw [show ∀ u : State, (u.failureNotice f).sections = u.sections from fun u => sectionsView.failureNotice u f,
      queueFeederEnd_sections]
    rfl

theorem feederNotices_pendingSet (s : State) (x : FeederState) (f : Feeder) (l : LinkId) :
    ((s.feederNotices x f).link l).pendingSet = (s.link l).pendingSet := by
  unfold State.feederNotices
  split
  · rfl
  · unfold State.link
    rw [show ∀ u : State, (u.failureNotice f).links = u.links from fun u => linksView.failureNotice u f]
    exact queueFeederEnd_pendingSet _ f l

theorem feederNotices_grows (s : State) (x : FeederState) (f : Feeder) :
    Grows s.events (s.feederNotices x f).events := ((Quiet.refl s).feederNotices x f).grows

/-! ## What a change of state hands on -/

/-- The protection notice in the words of the statements (03 R40, R41). -/
theorem moved_eq_noticed (d : FaultRecord) (old new : FeederState) (now : Instant) :
    d.moved old new now = d.noticed old new now := by
  cases old <;> cases new <;> rfl

/-- With no change of state there is no notice (03 R40). -/
theorem noticed_self (d : FaultRecord) (x : FeederState) (now : Instant) : d.noticed x x now = d := by
  cases x <;> rfl

/-- The view of what a change of state is judged by, the state apart: the Fault Detection record, the instant, the
settings and the states of the links. -/
def groundView (f : Feeder) : View (FaultRecord × Instant × Settings × (LinkId → LinkState)) :=
  { view := fun s => (s.fault f, s.now, s.settings, fun l => (s.link l).state), choices := fun _ _ => rfl,
    events := fun _ _ => rfl, runners := fun _ _ => rfl, rect := fun _ _ => rfl, captures := fun _ _ => rfl }

theorem ground_modLink (s : State) (f : Feeder) (l : LinkId) {g : SectionLink → SectionLink}
    (h : ∀ k : SectionLink, (g k).state = k.state) : (groundView f).view (s.modLink l g) = (groundView f).view s := by
  refine Prod.ext rfl (Prod.ext rfl (Prod.ext rfl (funext fun m => ?_)))
  show ((s.modLink l g).link m).state = (s.link m).state
  rw [link_modLink]
  split
  · rename_i e; rw [h, e]
  · rfl

theorem queue_state (k : SectionLink) (n : Fin 16) : (k.queue n).state = k.state := by
  unfold SectionLink.queue
  split <;> rfl

theorem post_state (k : SectionLink) (g : Signal) (d : Option Instant) : (k.post g d).state = k.state := by
  unfold SectionLink.post
  split
  · rfl
  · split <;> rfl

theorem ground_postFar (s : State) (f h : Feeder) (g : Feeder → Signal) :
    (groundView f).view (s.postFar h g) = (groundView f).view s := by
  unfold State.postFar
  split
  · exact ground_modLink s f _ fun k => post_state ..
  · rfl

theorem ground_withdrawFar (s : State) (f h : Feeder) (g : Feeder → Signal) :
    (groundView f).view (s.withdrawFar h g) = (groundView f).view s := by
  unfold State.withdrawFar
  split
  · exact ground_modLink s f _ fun _ => rfl
  · rfl

theorem ground_queueFeederEnd (s : State) (f h : Feeder) :
    (groundView f).view (s.queueFeederEnd h) = (groundView f).view s := by
  unfold State.queueFeederEnd
  split
  · exact ground_modLink s f _ fun k => queue_state ..
  · rfl

theorem ground_setClaim (s : State) (f h : Feeder) (c : ClaimState) (d : Option Instant) :
    (groundView f).view (s.setClaim h c d) = (groundView f).view s := by
  unfold State.setClaim
  dsimp only
  split
  · rfl
  · exact ground_queueFeederEnd ..

theorem ground_releaseClaim (s : State) (f h : Feeder) :
    (groundView f).view (s.releaseClaim h) = (groundView f).view s := by
  unfold State.releaseClaim
  split
  · rw [ground_setClaim, ground_postFar]
  · split
    · rw [ground_setClaim, ground_withdrawFar]
    · rw [ground_setClaim, ground_postFar]
  · rfl
  · rfl

/-- The view of the feeders in FAULT_RETARD. -/
def retardView : Aside (File Bool 8) :=
  { view := fun s => s.rect.retard, choices := fun _ _ => rfl, events := fun _ _ => rfl, runners := fun _ _ => rfl }

theorem failureNotice_retard (s : State) (f : Feeder) : (s.failureNotice f).rect.retard = s.rect.retard := by
  unfold State.failureNotice State.rectTrip State.rectEntry State.openAc
  split
  · exact (retardView.rectToRunners _).trans ((retardView.addEntry ..).trans rfl)
  · rfl

/-- What the notices make of Fault Detection (03 R40, R41). -/
theorem feederNotices_fault (s : State) (old : FeederState) (f : Feeder) :
    (s.feederNotices old f).fault f = (s.fault f).noticed old (s.feeder f).state s.now := by
  unfold State.feederNotices
  split
  · rename_i e
    rw [e, noticed_self]
  · have e : (groundView f).view (((s.protectionNotice old f).retardNotice f).queueFeederEnd f |>.failureNotice f) =
        (groundView f).view (s.protectionNotice old f) :=
      ((groundView f).failureNotice _ f).trans ((ground_queueFeederEnd ..).trans ((groundView f).retardNotice _ f))
    refine (congrArg Prod.fst e).trans ?_
    show (s.protectionNotice old f).fault f = _
    unfold State.protectionNotice
    rw [State.modFault_fault_self, moved_eq_noticed]

/-- What they make of FAULT_RETARD (06 R116). -/
theorem feederNotices_retard {s : State} {old : FeederState} {f : Feeder} (h : (s.feeder f).state ≠ old) :
    (s.feederNotices old f).rect.retard.get f = true ↔ (s.feeder f).state = .tripping ∧
      ((s.feeder f).lastTripCause = .imax ∨ (s.feeder f).lastTripCause = .rise) := by
  unfold State.feederNotices
  rw [if_neg h, failureNotice_retard]
  have e (u : State) : (u.queueFeederEnd f).rect = u.rect := by
    unfold State.queueFeederEnd
    split <;> rfl
  rw [e]
  show ((s.rect.retard).set f _).get f = true ↔ _
  rw [File.get_set_self]
  simp only [Bool.and_eq_true, Bool.or_eq_true, beq_iff_eq]
  rfl

/-- What they queue on the link of the far link (07 R151). -/
theorem feederNotices_queued {s : State} {old : FeederState} {f : Feeder} {l : LinkId} (h : (s.feeder f).state ≠ old)
    (far : (s.config f).farLink = some l) (up : (s.link l).state = .up) :
    ((s.feederNotices old f).link l).queued.get (feederSegment f) = true := by
  unfold State.feederNotices
  rw [if_neg h]
  refine (congrArg (fun v => (File.get v l.index).queued.get (feederSegment f)) (linksView.failureNotice _ f)).trans ?_
  generalize hu : (s.protectionNotice old f).retardNotice f = u
  have uc : (u.config f).farLink = some l := by rw [← hu]; exact far
  have us : (u.link l).state = .up := by rw [← hu]; exact up
  show ((u.queueFeederEnd f).link l).queued.get (feederSegment f) = true
  unfold State.queueFeederEnd
  rw [uc]
  dsimp only
  rw [link_modLink, if_pos rfl]
  unfold SectionLink.queue
  rw [if_pos us]
  exact File.get_set_self ..

/-- The notices hand on the change of state from a state that has the same ground. -/
theorem StateHandedOn.notices {s u : State} {f : Feeder} (g : (groundView f).view u = (groundView f).view s) :
    StateHandedOn s (u.feederNotices (s.feeder f).state f) f := by
  have e1 : u.fault f = s.fault f := congrArg Prod.fst g
  have e2 : u.now = s.now := congrArg (fun x => x.2.1) g
  have e3 : u.settings = s.settings := congrArg (fun x => x.2.2.1) g
  have e4 (l : LinkId) : (u.link l).state = (s.link l).state := congrArg (fun x => x.2.2.2 l) g
  unfold StateHandedOn
  rw [feederNotices_feeder, feederNotices_fault, e1, e2]
  refine ⟨rfl, fun h => ⟨feederNotices_retard h, fun l far up => feederNotices_queued h ?_ ((e4 l).trans up)⟩⟩
  unfold State.config at far ⊢
  rw [e3]
  exact far

/-- Where the state stands, the record of Fault Detection has to stand, and no more. -/
theorem StateHandedOn.of_still {s t : State} {f : Feeder} (fault : t.fault f = s.fault f)
    (state : (t.feeder f).state = (s.feeder f).state) : StateHandedOn s t f :=
  ⟨by rw [state, noticed_self, fault], fun h => absurd state h⟩

/-- Steps before that leave the ground and the state. -/
theorem StateHandedOn.earlier {s u t : State} {f : Feeder} (h : StateHandedOn u t f)
    (g : (groundView f).view u = (groundView f).view s) (state : (u.feeder f).state = (s.feeder f).state) :
    StateHandedOn s t f := by
  have e1 : u.fault f = s.fault f := congrArg Prod.fst g
  have e2 : u.now = s.now := congrArg (fun x => x.2.1) g
  have e3 : u.settings = s.settings := congrArg (fun x => x.2.2.1) g
  have e4 (l : LinkId) : (u.link l).state = (s.link l).state := congrArg (fun x => x.2.2.2 l) g
  unfold StateHandedOn State.config at *
  simp only [e1, e2, e3, e4, state] at h
  exact h

theorem ground_of {s u : State} {f : Feeder} (fault : u.fault f = s.fault f) (now : u.now = s.now)
    (settings : u.settings = s.settings) (links : ∀ l, (u.link l).state = (s.link l).state) :
    (groundView f).view u = (groundView f).view s :=
  Prod.ext fault (Prod.ext now (Prod.ext settings (funext links)))

/-- The end of a close hands on the next state (04 R74). -/
theorem endClose_hands (s : State) (f : Feeder) (op : Operation) (x : CloseResult) (next : FeederRecord → FeederRecord) :
    StateHandedOn s (s.endClose f op x next) f :=
  StateHandedOn.notices ((groundView f).closeToRunners _ f x |>.trans ((groundView f).addEntry ..))

/-- So does the abort of a close (04 R81). -/
theorem abortClose_hands (s : State) (f : Feeder) (x : CloseResult) (next : Operation → FeederRecord → FeederRecord) :
    StateHandedOn s (s.abortClose f x next) f := by
  unfold State.abortClose
  split
  · exact (endClose_hands ..).earlier (ground_releaseClaim ..) (by rw [releaseClaim_feeder])
  · exact .of_still rfl rfl

theorem enterClosing_hands (s : State) (f : Feeder) (op : Operation) : StateHandedOn s (s.enterClosing f op) f :=
  StateHandedOn.notices (u := s.modFeeder f _) rfl

theorem enterTesting_hands (s : State) (f : Feeder) (op : Operation) (m : TestMode) :
    StateHandedOn s (s.enterTesting f op m) f := by
  unfold State.enterTesting
  split
  · exact StateHandedOn.notices (u := s.modFeeder f _) rfl
  · exact (endClose_hands ..).earlier (ground_releaseClaim ..) (by rw [releaseClaim_feeder])

theorem testUnclaimed_hands (s : State) (f : Feeder) (op : Operation) (lost : Bool) :
    StateHandedOn s (s.testUnclaimed f op lost) f :=
  (enterTesting_hands ..).earlier ((groundView f).addEntry ..) rfl

theorem beginClaim_hands (s : State) (f : Feeder) (op : Operation) : StateHandedOn s (s.beginClaim f op) f :=
  StateHandedOn.notices ((ground_setClaim ..).trans ((ground_postFar ..).trans rfl))

/-- Each row of the phase choice hands on the state it enters (04 R67). -/
theorem phaseChoice_hands (s : State) (f : Feeder) (op : Operation) : StateHandedOn s (s.phaseChoice f op) f := by
  unfold State.phaseChoice
  split
  · exact enterClosing_hands ..
  · split
    · exact enterTesting_hands ..
    · split
      · exact testUnclaimed_hands ..
      · split
        · exact endClose_hands ..
        · exact beginClaim_hands ..

theorem recloseSteps_hands (s : State) (f : Feeder) : StateHandedOn s (s.recloseSteps f) f := by
  unfold State.recloseSteps
  dsimp only
  split
  · split
    · exact StateHandedOn.notices (u := s.modFeeder f _) rfl
    · exact StateHandedOn.notices ((groundView f).addEntry ..)
  · split
    · exact phaseChoice_hands ..
    · exact .of_still rfl (by rw [State.modFeeder_feeder_self])
    · refine .of_still rfl ?_
      have e : ((s.modFeeder f fun r => { r with
          recloseDue := some (s.now + sec (s.config f).recloseDelay), deferred := false }).feeder f).state =
          (s.feeder f).state := by rw [State.modFeeder_feeder_self]
      exact e

theorem grantEnded_hands (s : State) (f : Feeder) : StateHandedOn s (s.grantEnded f) f := by
  have g := ground_setClaim s f f .idle none
  have v := setClaim_feeder s f .idle none f
  unfold State.grantEnded
  dsimp only
  split
  · exact (phaseChoice_hands ..).earlier g (by rw [v])
  · exact (recloseSteps_hands ..).earlier g (by rw [v])
  · exact .of_still (congrArg Prod.fst g) (by rw [v])

/-! ### A trip -/

/-- Steps after that leave the feeder's records, FAULT_RETARD and the links. -/
theorem StateHandedOn.later {s t u : State} {f : Feeder} (h : StateHandedOn s t f) (fault : u.fault f = t.fault f)
    (feeder : u.feeder f = t.feeder f) (retard : u.rect.retard = t.rect.retard) (links : u.links = t.links) :
    StateHandedOn s u f := by
  unfold StateHandedOn State.link at *
  rw [fault, feeder, retard, links]
  exact h

theorem tripTaken_ground (s : State) (f : Feeder) (c : TripCause) (o : Origin) (b : Bool) (v w : Option Int) :
    (groundView f).view (s.tripTaken f c o b v w) = (groundView f).view s := by
  have posts (u : State) : (groundView f).view (if c.protective then u.postFar f .transferTrip else u) =
      (groundView f).view u := by
    split
    · exact ground_postFar ..
    · rfl
  unfold State.tripTaken State.closeResultEntry State.toTripping
  dsimp only
  rw [posts, (groundView f).tripEntry]
  split
  · rw [(groundView f).addEntry]
    rfl
  · rfl

/-- A trip hands on the entry into TRIPPING (04 R60; 03 R41; 06 R116). -/
theorem tripFeeder_hands (s : State) (f : Feeder) (c : TripCause) (o : Origin) (b : Bool) (v w : Option Int) :
    StateHandedOn s (s.tripFeeder f c o b v w) f := by
  have hands (u : State) (x : CloseResult) (g : (groundView f).view u = (groundView f).view s) :
      StateHandedOn s (u.tripEnded (s.feeder f).state f x) f := by
    unfold State.tripEnded State.closeEnded
    split
    · exact StateHandedOn.notices (((groundView f).closeToRunners ..).trans g)
    · exact StateHandedOn.notices g
  have g := tripTaken_ground s f c o b v w
  unfold State.tripFeeder
  obtain ⟨x, _, e | e⟩ := together_two (fun t => t.heldAtStart (s.captureAsked f c))
    (fun t => t.tripEnded (s.feeder f).state f (.aborted c.overtaking)) (s.tripTaken f c o b v w)
  · rw [e]
    exact hands _ _ (((groundView f).heldAtStart ..).trans g)
  · rw [e]
    refine (hands { s.tripTaken f c o b v w with choices := x } (.aborted c.overtaking) g).later ?_ ?_ ?_ ?_
    · exact congrArg (fun v => File.get v f) (faultsView.heldAtStart ..)
    · exact congrArg (fun v => File.get v f) (feedersView.heldAtStart ..)
    · exact retardView.heldAtStart ..
    · exact linksView.heldAtStart ..

/-! ## What a change of group hands on (02 R33, 03 R50) -/

/-- The group in use evaluated again, and Fault Detection's copy of it. -/
theorem regroup_fault (s : State) (f : Feeder) :
    (s.regroup f).fault f = (s.fault f).regrouped (s.feeder f).group ((s.regroup f).feeder f).group := by
  unfold State.regroup FaultRecord.regrouped
  dsimp only
  split
  · rename_i h
    simp only [Bool.and_eq_true, bne_iff_ne, ne_eq] at h
    generalize groupFor (s.config f).farLink (s.section' f).farState = g at *
    have a : ((s.modFeeder f fun r => { r with group := g }).groupNotice f g).feeder f =
        { s.feeder f with group := g } := State.modFeeder_feeder_self s f fun r => { r with group := g }
    rw [a, if_neg (fun e => h.2 e.symm)]
    exact State.modFault_fault_self ..
  · rw [if_pos rfl]

theorem regroup_feeder (s : State) (f : Feeder) :
    (s.regroup f).feeder f = { s.feeder f with
      group := if (s.feeder f).ready = true then groupFor (s.config f).farLink (s.section' f).farState
        else (s.feeder f).group } := by
  unfold State.regroup
  dsimp only
  generalize groupFor (s.config f).farLink (s.section' f).farState = g
  split
  · rename_i h
    simp only [Bool.and_eq_true] at h
    rw [if_pos h.1]
    exact State.modFeeder_feeder_self s f fun r => { r with group := g }
  · rename_i h
    simp only [Bool.and_eq_true, bne_iff_ne, ne_eq, not_and, not_not] at h
    split
    · rename_i k
      rw [← h k]
    · rfl

theorem regrouped_self (d : FaultRecord) (g : GroupName) : d.regrouped g g = d := if_pos rfl

/-- Far state takes a value: Fault Detection's copy follows the group in use. -/
theorem setFarState_fault (s : State) (f : Feeder) (x : Option FeederState) :
    (s.setFarState f x).fault f = (s.fault f).regrouped (s.feeder f).group ((s.setFarState f x).feeder f).group := by
  have waits (u : State) (p : Step → Bool) :
      (u.judgeWaits p).feeder f = u.feeder f ∧ (u.judgeWaits p).fault f = u.fault f :=
    ⟨congrArg (fun v => File.get v f) (feedersView.judgeWaits u p),
      congrArg (fun v => File.get v f) (faultsView.judgeWaits u p)⟩
  unfold State.setFarState
  split
  · exact (regrouped_self ..).symm
  · rw [(waits ..).1, (waits ..).2]
    exact regroup_fault ..

/-- Far state takes a value: the group in use of a ready feeder with a far link, and Fault Detection's copy of it. -/
theorem setFarState_groups (s : State) (f : Feeder) (x : Option FeederState) (h : (s.config f).farLink ≠ none) :
    (s.setFarState f x).feeder f = { s.feeder f with group := s.groupAfter f x } ∧
      (s.setFarState f x).fault f = (s.fault f).regrouped (s.feeder f).group (s.groupAfter f x) := by
  have e : (s.setFarState f x).feeder f = { s.feeder f with group := s.groupAfter f x } := by
    unfold State.setFarState State.groupAfter
    split
    · rename_i e
      rw [if_neg (fun k => k.2 e)]
    · rename_i e
      refine (congrArg (fun v => File.get v f) (feedersView.judgeWaits _ (readsFar f))).trans ?_
      refine (regroup_feeder _ f).trans ?_
      rw [State.modSection_section_self]
      show { s.feeder f with group := if (s.feeder f).ready = true then groupFor (s.config f).farLink x
        else (s.feeder f).group } = _
      have g : groupFor (s.config f).farLink x = if x = some .closed then .normal else .isolated := by
        unfold groupFor
        rw [Option.isSome_iff_ne_none.mpr h]
        by_cases k : x = some .closed
        · rw [if_pos k, k]; rfl
        · rw [if_neg k, if_pos (by simpa using k)]
      rw [g]
      simp only [ne_eq, e, not_false_eq_true, and_true]
  refine ⟨e, ?_⟩
  rw [setFarState_fault, e]

theorem setFarState_section (s : State) (f : Feeder) (x : Option FeederState) :
    (s.setFarState f x).section' f = { s.section' f with farState := x } := by
  unfold State.setFarState
  split
  · rename_i e
    rw [← e]
  · have v := sectionsView.judgeWaits (((s.modSection f fun r => { r with farState := x }).regroup f)) (readsFar f)
    refine (congrArg (fun v => File.get v f) v).trans ?_
    show ((s.modSection f fun r => { r with farState := x }).regroup f).section' f = _
    unfold State.regroup
    dsimp only
    split
    · exact State.modSection_section_self s f fun r => { r with farState := x }
    · exact State.modSection_section_self s f fun r => { r with farState := x }

end Sys2Proof.Machine
end

