-- ==== Sys2Proof/Laws/Phases.lean ====
section
/-! SUPPORT. What the shared operations of Breaker Control do, said once: the phase choice, the end of a grant, a reclose
due, the claim given back and a far end lost, each in the terms of the statements. -/

set_option Elab.async false

namespace Sys2Proof.Machine

/-! ## The end of a close, and entries (04 R66 to R74) -/

theorem endClose_sections (s : State) (f : Feeder) (op : Operation) (x : CloseResult)
    (next : FeederRecord → FeederRecord) : (s.endClose f op x next).sections = s.sections := by
  unfold State.endClose State.closeEnded
  rw [feederNotices_sections, show ∀ u : State, (u.closeToRunners f x).sections = u.sections from
    fun u => sectionsView.closeToRunners u f x]
  rfl

theorem section_of_sections {s t : State} (h : t.sections = s.sections) (f : Feeder) : t.section' f = s.section' f :=
  congrArg (fun x => File.get x f) h

theorem inField_nat {n : Nat} (h : n < 2147483648) : inField (some (n : Int)) = true := by
  unfold inField
  simp only [decide_eq_true_eq]
  omega

/-- The end of a close adds its CLOSE RESULT, with the attempts of the record it leaves (04 R74; log 15). -/
theorem endClose_entry (s : State) (f : Feeder) (op : Operation) (x : CloseResult) (next : FeederRecord → FeederRecord) :
    AddsEntry s (s.endClose f op x next) (IsCloseResult s f op x ((s.endClose f op x next).feeder f).attempts) := by
  have e := endClose_feeder s f op x next f
  rw [if_pos rfl] at e
  rw [e]
  unfold State.endClose
  refine AddsEntry.later (t := (s.modFeeder f next).closeResultEntry f op x) ?_
    (((Quiet.refl _).closeEnded (s.feeder f).state f x).grows)
  refine AddsEntry.mono (AddsEntry.add (s.modFeeder f next) ..) fun r h => ?_
  obtain ⟨a, b, c, d, -, v, w⟩ := h
  refine ⟨a, b, c, d, fun h => ?_, fun h => ?_⟩
  · exact v (inField_nat h)
  · rw [State.modFeeder_feeder_self] at w
    exact w (inField_nat (by omega))

/-- The next record of a close that ends without being judged (04 R74). -/
theorem waitOrOpen_back (s : State) (f : Feeder) (op : Operation) :
    s.waitOrOpen f op (s.feeder f) = s.backRecord f op := by
  unfold State.waitOrOpen State.backRecord
  split
  · unfold State.waitRecord FeederRecord.toRecloseWait FeederRecord.leave sec ms
    simp only [FeederRecord.mk.injEq, true_and, and_true, Option.some.injEq]
    ring
  · rfl

/-! ## The phase choice (04 R67) -/

theorem lineLive_iff (s : State) (f : Feeder) : s.lineLive f = true ↔ s.liveFromFar f := by
  unfold State.lineLive State.liveFromFar
  rw [Bool.and_eq_true, beq_iff_eq]
  refine and_congr_right fun _ => ?_
  constructor
  · intro h
    split at h
    · rename_i u b hu hb
      exact ⟨u, b, hu, hb, by have := of_decide_eq_true h; omega⟩
    · cases h
  · rintro ⟨u, b, hu, hb, h⟩
    rw [hu, hb]
    exact decide_eq_true (by omega)

theorem enterClosing_feeder (s : State) (f : Feeder) (op : Operation) :
    (s.enterClosing f op).feeder f =
      { s.phaseRecord f .closing { op with deadline := some (s.now + (s.config f).closeConfirm * 100000) } with
        attempts := if op.origin = .auto then min ((s.feeder f).attempts + 1) 5 else (s.feeder f).attempts } := by
  unfold State.enterClosing
  dsimp only
  rw [feederNotices_feeder, State.modFeeder_feeder_self]
  split <;> rfl

theorem enterTesting_tests (s : State) (f : Feeder) (op : Operation) :
    TestsUnclaimed s (s.enterTesting f op .unclaimed) f op := by
  unfold State.enterTesting
  split
  · rename_i h
    refine ⟨fun _ => section_of_sections (feederNotices_sections _ _ f) f, fun _ => ?_, fun k => absurd h k⟩
    rw [feederNotices_feeder, State.modFeeder_feeder_self]
    rfl
  · rename_i h
    refine ⟨fun c => ?_, fun k => absurd k h, fun _ => ⟨?_, ?_⟩⟩
    · have : s.releaseClaim f = s := by unfold State.releaseClaim; rw [c]
      rw [this]
      exact section_of_sections (endClose_sections _ f op _ _) f
    · rw [endClose_feeder, if_pos rfl, releaseClaim_feeder]
      exact waitOrOpen_back s f op
    · have q := (Quiet.refl s).releaseClaim f
      refine AddsEntry.mono (AddsEntry.earlier (endClose_entry _ f op _ _) q.grows) fun e h => ?_
      unfold IsCloseResult at *
      rw [q.now] at h
      exact h

theorem testUnclaimed_tests (s : State) (f : Feeder) (op : Operation) (lost : Bool) :
    TestsUnclaimed s (s.testUnclaimed f op lost) f op ∧
      AddsEntry s (s.testUnclaimed f op lost) (IsUnclaimedTest f op lost) := by
  unfold State.testUnclaimed
  generalize hu : s.addEntry .unclaimedTest (.feeder f) op.origin (.unclaimedTest lost) = u
  have added : AddsEntry s u (fun e => e.kind = .unclaimedTest ∧ e.subject = .feeder f ∧ e.origin = op.origin ∧
      e.detail = .unclaimedTest lost ∧ e.capture = none ∧ (inField none = true → e.value1 = none) ∧
      (inField none = true → e.value2 = none)) := by rw [← hu]; exact AddsEntry.add s ..
  have grows : Grows s.events u.events := by rw [← hu]; exact Grows.addEntry ..
  obtain ⟨a, b, c⟩ := enterTesting_tests u f op
  have e1 : u.section' f = s.section' f := by rw [← hu]; rfl
  have e2 : u.sample = s.sample := by rw [← hu]; rfl
  have e3 : u.now = s.now := by rw [← hu]; rfl
  have e4 : u.feeder f = s.feeder f := by rw [← hu]; rfl
  have e5 : u.settings = s.settings := by rw [← hu]; rfl
  refine ⟨⟨fun h => ?_, fun h => ?_, fun h => ?_⟩, ?_⟩
  · rw [← e1] at h ⊢; exact a h
  · rw [← e2] at h
    rw [b h]
    unfold State.phaseRecord State.config
    rw [e3, e4, e5]
  · rw [← e2] at h
    obtain ⟨x, y⟩ := c h
    refine ⟨?_, AddsEntry.mono (y.earlier grows) fun e h => ?_⟩
    · rw [x]
      unfold State.backRecord State.waitRecord State.openRecord State.config
      rw [e3, e4, e5]
    · unfold IsCloseResult at *
      rw [e3] at h
      exact h
  · exact AddsEntry.mono (added.later ((Quiet.refl u).enterTesting f op .unclaimed).grows)
      fun e ⟨a, b, c, d, _, v, w⟩ => ⟨a, b, c, d, v rfl, w rfl⟩

theorem setClaim_section (s : State) (f : Feeder) (c : ClaimState) (d : Option Instant) :
    (s.setClaim f c d).section' f = { s.section' f with claim := c, claimDeadline := d } := by
  unfold State.setClaim
  dsimp only
  split
  · rw [State.modSection_section_self]
  · rw [section_of_sections (queueFeederEnd_sections _ f), State.modSection_section_self]

theorem setClaim_pendingSet (s : State) (f : Feeder) (c : ClaimState) (d : Option Instant) (l : LinkId) :
    ((s.setClaim f c d).link l).pendingSet = (s.link l).pendingSet := by
  unfold State.setClaim
  dsimp only
  split
  · rfl
  · rw [queueFeederEnd_pendingSet]
    rfl

/-- A signal posted on a link that is UP waits there (07 R137). -/
theorem post_pending (k : SectionLink) (g : Signal) (d : Option Instant) (h : k.state = .up) :
    ∃ e ∈ (k.post g d).pendingSet, e.signal = g := by
  unfold SectionLink.post
  rw [if_neg (by simp [h])]
  split
  · rename_i a
    obtain ⟨e, m, k⟩ := List.any_eq_true.mp a
    simp only [decide_eq_true_eq] at k
    exact ⟨{ e with repeats := g.copies }, List.mem_map.mpr ⟨e, m, by rw [if_pos k]⟩, k⟩
  · exact ⟨_, List.mem_append_right _ (List.mem_singleton.mpr rfl), rfl⟩

theorem postFar_link {s : State} {f : Feeder} {l : LinkId} (g : Feeder → Signal) (h : (s.config f).farLink = some l) :
    (s.postFar f g).link l = (s.link l).post (g (s.config f).farFeeder) none := by
  unfold State.postFar State.post
  rw [h]
  dsimp only
  rw [link_modLink, if_pos rfl]

theorem postFar_sections (s : State) (f : Feeder) (g : Feeder → Signal) : (s.postFar f g).sections = s.sections := by
  unfold State.postFar
  split <;> rfl

theorem beginClaim_claims {s : State} {f : Feeder} {l : LinkId} (op : Operation) (h : (s.config f).farLink = some l)
    (up : (s.link l).state = .up) :
    (s.beginClaim f op).feeder f = s.phaseRecord f .claiming { op with deadline := none } ∧
      (s.beginClaim f op).section' f =
        { s.section' f with claim := .claimSent, claimDeadline := some (s.now + 10000000) } ∧
      ∃ e ∈ ((s.beginClaim f op).link l).pendingSet, e.signal = .testClaim (s.config f).farFeeder := by
  unfold State.beginClaim
  generalize hu : (s.modFeeder f fun r => r.toPhase .claiming { op with deadline := none }) = u
  have hc : u.config f = s.config f := by rw [← hu]; rfl
  refine ⟨?_, ?_, ?_⟩
  · rw [feederNotices_feeder, setClaim_feeder, postFar_feeder, ← hu, State.modFeeder_feeder_self]
    rfl
  · rw [section_of_sections (feederNotices_sections _ _ f), setClaim_section,
      section_of_sections (postFar_sections u f _), ← hu]
    rfl
  · rw [feederNotices_pendingSet, setClaim_pendingSet, postFar_link _ (hc.symm ▸ h), hc]
    exact post_pending _ _ _ (by rw [← hu]; exact up)

/-- The phase choice takes the first of its five rows that applies (04 R67). -/
theorem phaseChoice_chooses (s : State) (f : Feeder) (op : Operation) : ChoosesPhase s (s.phaseChoice f op) f op := by
  refine ⟨phaseChoice_hands s f op, ?_⟩
  unfold State.phaseChoice
  by_cases live : s.lineLive f = true
  · rw [if_pos live]
    have live := (lineLive_iff s f).mp live
    refine ⟨fun _ => ⟨?_, ?_⟩, fun h => absurd live h, fun l h => absurd live h⟩
    · unfold State.enterClosing
      exact section_of_sections (feederNotices_sections _ _ f) f
    · exact enterClosing_feeder s f _
  · rw [if_neg live]
    have live : ¬s.liveFromFar f := fun h => live ((lineLive_iff s f).mpr h)
    refine ⟨fun h => absurd h live, fun _ far => ?_, fun l _ far => ?_⟩
    · rw [far]; exact enterTesting_tests s f op
    · rw [far]
      dsimp only
      by_cases up : (s.link l).state = .up
      · rw [if_neg (fun h => h up)]
        by_cases c : (s.link l).conflict = true ∨ (s.section' f).matching = .mismatch
        · rw [if_pos (by simpa using c)]
          refine ⟨fun h => absurd up h, fun _ _ => ⟨section_of_sections (endClose_sections _ f op _ _) f, ?_,
            endClose_entry s f op _ _⟩, fun _ a b => ?_⟩
          · rw [endClose_feeder, if_pos rfl]; exact waitOrOpen_back s f op
          · rcases c with c | c
            · rw [a] at c; cases c
            · exact absurd c b
        · rw [if_neg (by simpa using c)]
          exact ⟨fun h => absurd up h, fun _ h => absurd h c, fun _ _ _ => beginClaim_claims op far up⟩
      · rw [if_pos up]
        exact ⟨fun _ => testUnclaimed_tests s f op false, fun h => absurd h up, fun h => absurd h up⟩

/-! ## Reclose, the end of a grant and the far end lost (04 R68, R75, R76; 07 R134) -/

/-- The steps of a reached reclose due (04 R75, R76). -/
theorem recloseSteps_takes (s : State) (f : Feeder) : TakesReclose s (s.recloseSteps f) f := by
  refine ⟨recloseSteps_hands s f, ?_⟩
  unfold State.recloseSteps
  dsimp only
  by_cases h0 : (s.config f).maxReclose ≤ (s.feeder f).attempts
  · rw [if_pos h0]
    by_cases hz : (s.config f).maxReclose = 0
    · rw [if_pos hz]
      refine ⟨fun _ => ?_, fun h => by omega, fun h => by omega⟩
      rw [feederNotices_feeder, State.modFeeder_feeder_self]
      rfl
    · rw [if_neg hz]
      refine ⟨fun h => absurd h hz, fun _ _ => ⟨?_, ?_⟩, fun h => by omega⟩
      · unfold State.lockOut
        rw [feederNotices_feeder]
        exact State.modFeeder_feeder_self s f fun r => r.toLockedOut .attempts
      · unfold State.lockOut
        refine AddsEntry.later (t := (s.modFeeder f fun r => r.toLockedOut .attempts).lockoutEntry f .attempts) ?_
          (feederNotices_grows _ _ f)
        exact AddsEntry.mono (AddsEntry.add (s.modFeeder f fun r => r.toLockedOut .attempts) ..)
          fun e ⟨a, b, c, d, _⟩ => ⟨a, b, c, d⟩
  · rw [if_neg h0]
    refine ⟨fun h => by omega, fun _ h => absurd h h0, fun _ => ⟨fun h => ?_, fun c h n => ?_, fun h => ?_⟩⟩
    · rw [h]; exact State.modFeeder_feeder_self ..
    · rw [h]
      have k : (s.holdReclose f c).feeder f = { s.feeder f with
          deferred := false, recloseDue := some (s.now + (s.config f).recloseDelay * 100000000) } ∧
          AddsEntry s (s.holdReclose f c) (fun e => e.kind = .recloseHeld ∧ e.subject = .feeder f ∧ e.origin = .auto ∧
            e.detail = .interlock c) := by
        unfold State.holdReclose
        refine ⟨?_, AddsEntry.mono (AddsEntry.add (s.modFeeder f _) ..) fun e ⟨a, b, c, d, _⟩ => ⟨a, b, c, d⟩⟩
        rw [show ∀ (u : State) k o p d, (u.addEntry k o p d).feeder f = u.feeder f from fun _ _ _ _ _ => rfl,
          State.modFeeder_feeder_self]
        unfold sec ms
        simp only [FeederRecord.mk.injEq, true_and, and_true, Option.some.injEq]
        ring
      cases c <;> first | exact absurd rfl n | exact k
    · rw [h]; exact phaseChoice_chooses s f _

/-! ### The terms over two states that agree on the feeder -/

theorem TestsUnclaimed.of_same {s u t : State} {f : Feeder} {op : Operation} (h : TestsUnclaimed u t f op)
    (now : u.now = s.now) (settings : u.settings = s.settings) (sample : u.sample = s.sample)
    (feeder : u.feeder f = s.feeder f) (sect : u.section' f = s.section' f)
    (events : Grows s.events u.events) : TestsUnclaimed s t f op := by
  obtain ⟨a, b, c⟩ := h
  unfold TestsUnclaimed State.phaseRecord State.backRecord State.waitRecord State.openRecord IsCloseResult
    State.config at *
  rw [← now, ← settings, ← sample, ← feeder, ← sect]
  exact ⟨a, b, fun h => ⟨(c h).1, (c h).2.earlier events⟩⟩

theorem ChoosesPhase.of_same {s u t : State} {f : Feeder} {op : Operation} (h : ChoosesPhase u t f op)
    (now : u.now = s.now) (settings : u.settings = s.settings) (sample : u.sample = s.sample)
    (feeder : u.feeder f = s.feeder f) (sect : u.section' f = s.section' f) (fault : u.fault f = s.fault f)
    (links : ∀ l, (u.link l).state = (s.link l).state ∧ (u.link l).conflict = (s.link l).conflict)
    (events : Grows s.events u.events) : ChoosesPhase s t f op := by
  obtain ⟨hands, a, b, c⟩ := h
  have tests (h : TestsUnclaimed u t f op) := h.of_same now settings sample feeder sect events
  refine ⟨hands.earlier (ground_of fault now settings fun l => (links l).1) (by rw [feeder]), ?_⟩
  unfold State.liveFromFar State.phaseRecord State.backRecord State.waitRecord State.openRecord IsCloseResult
    State.config at *
  rw [← now, ← settings, ← sample, ← feeder, ← sect]
  refine ⟨a, fun x y => tests (b x y), fun l x y => ?_⟩
  rw [← (links l).1, ← (links l).2]
  obtain ⟨d, e, g⟩ := c l x y
  exact ⟨fun k => ⟨tests (d k).1, (d k).2.earlier events⟩,
    fun k m => ⟨(e k m).1, (e k m).2.1, (e k m).2.2.earlier events⟩, g⟩

theorem TakesReclose.of_same {s u t : State} {f : Feeder} (h : TakesReclose u t f)
    (now : u.now = s.now) (settings : u.settings = s.settings) (sample : u.sample = s.sample)
    (inputs : u.inputs = s.inputs) (time : u.time.now = s.time.now)
    (feeder : u.feeder f = s.feeder f) (sect : u.section' f = s.section' f) (fault : u.fault f = s.fault f)
    (links : ∀ l, (u.link l).state = (s.link l).state ∧ (u.link l).conflict = (s.link l).conflict)
    (events : Grows s.events u.events) : TakesReclose s t f := by
  have c : u.closeCheck f true = s.closeCheck f true := by
    unfold State.closeCheck State.stateCheck State.positionCheck State.position State.input State.recheck State.measured
      State.busLive State.station State.config
    rw [settings, feeder, inputs, sample, sect]
  have n : u.newClose .auto = s.newClose .auto := by unfold State.newClose; rw [now, time]
  obtain ⟨hands, a, b, d⟩ := h
  refine ⟨hands.earlier (ground_of fault now settings fun l => (links l).1) (by rw [feeder]), ?_⟩
  simp only [← c, ← n]
  have phase (h : ChoosesPhase u t f (u.newClose .auto)) := h.of_same now settings sample feeder sect fault links events
  unfold State.openRecord State.lockedRecord State.config at *
  rw [← now, ← settings, ← feeder]
  exact ⟨a, fun h k => ⟨(b h k).1, (b h k).2.earlier events⟩, fun h => ⟨(d h).1,
    fun c x y => ⟨((d h).2.1 c x y).1, ((d h).2.1 c x y).2.earlier events⟩, fun k => phase ((d h).2.2 k)⟩⟩

theorem GrantEnds.of_same {s u t : State} {f : Feeder} (h : GrantEnds u t f)
    (now : u.now = s.now) (settings : u.settings = s.settings) (sample : u.sample = s.sample)
    (inputs : u.inputs = s.inputs) (time : u.time.now = s.time.now)
    (feeder : u.feeder f = s.feeder f) (sect : u.section' f = s.section' f) (fault : u.fault f = s.fault f)
    (links : ∀ l, (u.link l).state = (s.link l).state ∧ (u.link l).conflict = (s.link l).conflict)
    (events : Grows s.events u.events) : GrantEnds s t f := by
  obtain ⟨hands, a, b, c⟩ := h
  have e : (u.modSection f fun r => { r with claim := .idle, claimDeadline := none }).section' f =
      (s.modSection f fun r => { r with claim := .idle, claimDeadline := none }).section' f := by
    rw [State.modSection_section_self, State.modSection_section_self, sect]
  unfold GrantEnds
  dsimp only
  refine ⟨hands.earlier (ground_of fault now settings fun l => (links l).1) (by rw [feeder]), ?_, ?_, ?_⟩
  · rw [← feeder, ← e]; exact a
  · intro op x y
    rw [← feeder] at x y
    exact (b op x y).of_same now settings sample feeder e fault links events
  · intro x y
    rw [← feeder] at x y
    exact (c x y).of_same now settings sample inputs time feeder e fault links events

/-- What the claim's end leaves: everything but the Section Record and what is queued on a link. -/
theorem queueFeederEnd_links (s : State) (f : Feeder) (l : LinkId) :
    ((s.queueFeederEnd f).link l).state = (s.link l).state ∧
      ((s.queueFeederEnd f).link l).conflict = (s.link l).conflict := by
  unfold State.queueFeederEnd
  split
  · rw [link_modLink]
    split
    · rename_i h
      subst h
      unfold SectionLink.queue
      split <;> exact ⟨rfl, rfl⟩
    · exact ⟨rfl, rfl⟩
  · exact ⟨rfl, rfl⟩

theorem setClaim_links (s : State) (f : Feeder) (c : ClaimState) (d : Option Instant) (l : LinkId) :
    ((s.setClaim f c d).link l).state = (s.link l).state ∧ ((s.setClaim f c d).link l).conflict = (s.link l).conflict := by
  unfold State.setClaim
  dsimp only
  split
  · exact ⟨rfl, rfl⟩
  · exact queueFeederEnd_links _ f l

theorem setClaim_events (s : State) (f : Feeder) (c : ClaimState) (d : Option Instant) :
    (s.setClaim f c d).events = s.events ∧ (s.setClaim f c d).time = s.time := by
  unfold State.setClaim State.queueFeederEnd
  dsimp only
  split
  · exact ⟨rfl, rfl⟩
  · split <;> exact ⟨rfl, rfl⟩

/-- A grant that ends leaves what waited on it to go on (04 R68, R76). -/
theorem grantEnded_ends (s : State) (f : Feeder) : GrantEnds s (s.grantEnded f) f := by
  have q := (Quiet.refl s).setClaim f .idle none
  have hands := grantEnded_hands s f
  have v := setClaim_feeder s f .idle none f
  have d : (s.setClaim f .idle none).fault f = s.fault f := congrArg Prod.fst (ground_setClaim s f f .idle none)
  have sect := setClaim_section s f .idle none
  have links := setClaim_links s f .idle none
  have ev := setClaim_events s f .idle none
  unfold GrantEnds
  refine ⟨hands, ?_⟩
  clear hands
  unfold State.grantEnded
  dsimp only
  rw [v]
  generalize s.setClaim f .idle none = u at *
  refine ⟨fun a b => ?_, fun op a b => ?_, fun a b => ?_⟩
  · rw [b]
    split
    · rename_i h _; exact absurd h a
    · rename_i h; cases h
    · rw [v, sect, State.modSection_section_self]; exact ⟨rfl, rfl⟩
  · rw [a, b]
    dsimp only
    exact (phaseChoice_chooses u f op).of_same q.now q.settings q.sample v
      (by rw [sect, State.modSection_section_self]) d links (by rw [ev.1]; exact .refl _)
  · rw [a, b]
    dsimp only
    exact (recloseSteps_takes u f).of_same q.now q.settings q.sample q.inputs (by rw [ev.2]; rfl) v
      (by rw [sect, State.modSection_section_self]) d links (by rw [ev.1]; exact .refl _)

/-- An abort gives the claim back (04 R81). -/
theorem releaseClaim_gives (s : State) (f : Feeder) : GivesClaimBack s (s.releaseClaim f) f := by
  have pend : s.pendingFar f .testClaim = true ↔ s.claimPending f := by
    unfold State.pendingFar State.claimPending
    constructor
    · intro h
      split at h
      · rename_i l hl
        obtain ⟨e, m, k⟩ := List.any_eq_true.mp h
        exact ⟨l, hl, e, m, of_decide_eq_true k⟩
      · cases h
    · rintro ⟨l, hl, e, m, k⟩
      rw [hl]
      exact List.any_eq_true.mpr ⟨e, m, decide_eq_true k⟩
  have done : ((s.postFar f .testDone).setClaim f .idle none).section' f =
        { s.section' f with claim := .idle, claimDeadline := none } ∧
      ∀ l, (s.config f).farLink = some l → (s.link l).state = .up →
        ∃ e ∈ (((s.postFar f .testDone).setClaim f .idle none).link l).pendingSet,
          e.signal = .testDone (s.config f).farFeeder := by
    refine ⟨?_, fun l h up => ?_⟩
    · rw [setClaim_section, section_of_sections (postFar_sections s f _)]
    · rw [setClaim_pendingSet, postFar_link _ h]
      exact post_pending _ _ _ up
  unfold State.releaseClaim
  refine ⟨fun h => ?_, fun a b => ?_, fun h => ?_⟩
  · rcases h with h | ⟨h, k⟩
    · rw [h]; exact done
    · rw [h]
      dsimp only
      rw [if_neg (fun x => k (pend.mp x))]
      exact done
  · rw [a]
    dsimp only
    rw [if_pos (pend.mpr b)]
    have w : ∀ l, (s.config f).farLink = some l → (s.withdrawFar f .testClaim).link l =
        (s.link l).withdraw (.testClaim (s.config f).farFeeder) := fun l h => by
      unfold State.withdrawFar
      rw [h]
      dsimp only
      rw [link_modLink, if_pos rfl]
    have e : (s.withdrawFar f .testClaim).sections = s.sections := by
      unfold State.withdrawFar
      split <;> rfl
    refine ⟨?_, fun l h => ?_⟩
    · rw [setClaim_section, section_of_sections e]
    · rw [setClaim_pendingSet, w l h]
      rfl
  · rcases h with h | h <;> rw [h]

/-- Far state goes UNKNOWN: the record keeps that, and the group of a ready feeder is ISOLATED where it changed (02 R30,
R33), at Fault Detection too (03 R50). -/
theorem setFarState_unknown (s : State) (f : Feeder) (h : (s.config f).farLink ≠ none) :
    (s.setFarState f none).section' f = { s.section' f with farState := none } ∧
      (s.setFarState f none).feeder f = { s.feeder f with group := s.groupAfter f none } ∧
      (s.setFarState f none).fault f = (s.fault f).regrouped (s.feeder f).group (s.groupAfter f none) ∧
      (s.setFarState f none).links = s.links ∧ (s.setFarState f none).time = s.time := by
  obtain ⟨a, b⟩ := setFarState_groups s f none h
  have leaves {β : Type} (V : View β) (u : State) (hs : ∀ u x, V.view { u with sections := x } = V.view u)
      (hf : ∀ u x, V.view { u with feeders := x } = V.view u) (hg : ∀ u x, V.view { u with faults := x } = V.view u) :
      V.view (u.setFarState f none) = V.view u := by
    unfold State.setFarState
    split
    · rfl
    · rw [V.judgeWaits]
      unfold State.regroup
      dsimp only
      split
      · exact (hg ..).trans ((hf ..).trans (hs ..))
      · exact hs ..
  exact ⟨setFarState_section s f none, a, b, leaves linksView s (fun _ _ => rfl) (fun _ _ => rfl) fun _ _ => rfl,
    leaves timeView s (fun _ _ => rfl) (fun _ _ => rfl) fun _ _ => rfl⟩

/-- A feeder whose far link is lost: far state UNKNOWN, MISMATCH, and its claim looked at (07 R134, 04 R68). -/
theorem farLost_loses (s : State) (f : Feeder) (h : (s.config f).farLink ≠ none) :
    LosesFarEnd (s.farLost' f) (s.farLost f) f := by
  unfold State.farLost
  generalize hv : (s.modSection f fun r => { r with staleFrom := none, heard := false, matching := .mismatch }) = v
  have vq : Quiet s v := by
    rw [← hv]
    refine (Quiet.refl s).modSection f fun _ => ⟨fun k => ?_, fun k => absurd k h⟩
    cases k
  have q := vq.setFarState f none
  obtain ⟨sect, feed, fault, links, time⟩ := setFarState_unknown v f (by rw [← hv]; exact h)
  have groups : v.groupAfter f none = s.groupAfter f none := by
    unfold State.groupAfter
    rw [← hv, State.modSection_section_self]
    rfl
  generalize v.setFarState f none = u at *
  have sect : u.section' f = (s.farLost' f).section' f := by
    rw [sect, ← hv, State.modSection_section_self]
    exact (State.modSection_section_self s f fun r =>
      { r with farState := none, staleFrom := none, matching := .mismatch, heard := false }).symm
  have feed : u.feeder f = (s.farLost' f).feeder f := by
    rw [feed, groups]
    exact (State.modFeeder_feeder_self _ f fun r => { r with group := s.groupAfter f none }).symm.trans
      (by rw [← hv]; rfl)
  have fault : u.fault f = (s.farLost' f).fault f := by
    rw [fault, groups, ← hv]
    exact (State.modFault_fault_self _ f fun d => d.regrouped (s.feeder f).group (s.groupAfter f none)).symm
  have links : ∀ l, u.link l = (s.farLost' f).link l := fun l => by
    unfold State.link
    rw [links, ← hv]
    rfl
  have time : u.time = (s.farLost' f).time := by rw [time, ← hv]; rfl
  have grows : Grows (s.farLost' f).events u.events := q.grows
  have e1 : u.now = (s.farLost' f).now := q.now
  have e2 : u.settings = (s.farLost' f).settings := q.settings
  have e3 : u.sample = (s.farLost' f).sample := q.sample
  have e4 : u.inputs = (s.farLost' f).inputs := q.inputs
  generalize s.farLost' f = w at *
  have ends := grantEnded_ends u f
  have none_op (k : (w.section' f).claim = .claimSent) (hop : (w.feeder f).state ≠ .claiming ∨ (w.feeder f).operation = none) :
      ∀ op, (w.feeder f).operation = some op → (w.feeder f).state ≠ .claiming := fun op h => by
    rcases hop with n | n
    · exact n
    · rw [n] at h; cases h
  have claimed : (u.setClaim f .idle none).section' f = { w.section' f with claim := .idle, claimDeadline := none } := by
    rw [setClaim_section, sect]
  have ground : (groundView f).view u = (groundView f).view w := ground_of fault e1 e2 fun l => by rw [links]
  have freed : (groundView f).view (u.setClaim f .idle none) = (groundView f).view w := (ground_setClaim ..).trans ground
  have still : StateHandedOn w (u.setClaim f .idle none) f :=
    .of_still (congrArg Prod.fst freed) (by rw [setClaim_feeder, feed])
  dsimp only
  rw [sect, feed]
  refine ⟨?_, fun k => ?_, fun op k x y => ?_, fun k x => ?_, fun k => ?_⟩
  · split
    · split
      · exact (testUnclaimed_hands ..).earlier freed (by rw [setClaim_feeder, feed])
      · exact still
    · exact still
    · exact (grantEnded_hands ..).earlier ground (by rw [feed])
    · exact .of_still fault (by rw [feed])
  · rcases k with k | k <;> rw [k] <;> exact ⟨sect, feed⟩
  · rw [k, y]
    dsimp only
    rw [setClaim_feeder, feed, if_pos x]
    have r := (Quiet.refl u).setClaim f .idle none
    have ev := setClaim_events u f .idle none
    obtain ⟨a, b⟩ := testUnclaimed_tests (u.setClaim f .idle none) f op true
    refine ⟨a.of_same ?_ ?_ ?_ ?_ ?_ ?_, b.earlier (by rw [ev.1]; exact grows)⟩
    · exact r.now.trans e1
    · exact r.settings.trans e2
    · exact r.sample.trans e3
    · exact (setClaim_feeder ..).trans feed
    · rw [claimed, State.modSection_section_self]
    · rw [ev.1]; exact grows
  · rw [k]
    cases hop : (w.feeder f).operation with
    | none => exact ⟨claimed, (setClaim_feeder ..).trans feed⟩
    | some op =>
      dsimp only
      rw [setClaim_feeder, feed, if_neg (none_op k x op hop)]
      exact ⟨claimed, (setClaim_feeder ..).trans feed⟩
  · rw [k]
    exact ends.of_same e1 e2 e3 e4 (by rw [time]) feed sect fault (fun l => by rw [links]; exact ⟨rfl, rfl⟩) grows

end Sys2Proof.Machine
end

