-- ==== Sys2Proof/Laws/Posts.lean ====
section
/-! SUPPORT. What the claim, the close, the trip and the signals that name a feeder leave of the links: all but the
pending sets and the segment queues. -/

set_option Elab.async false

namespace Sys2Proof.Machine

/-- A link's record but for what it is to send. -/
def SectionLink.bare (k : SectionLink) : SectionLink := { k with pendingSet := [], queued := File.fill 16 false }

/-- The view of the links but for what they are to send. -/
def bareView : View (LinkId → SectionLink) :=
  { view := fun s l => (s.link l).bare, choices := fun _ _ => rfl, events := fun _ _ => rfl, runners := fun _ _ => rfl,
    rect := fun _ _ => rfl, captures := fun _ _ => rfl }

/-- Only posts happened exactly when that view stands. -/
theorem onlyPosts_iff {s t : State} : OnlyPosts s t ↔ bareView.view t = bareView.view s := by
  constructor
  · intro h
    funext m
    show (t.link m).bare = (s.link m).bare
    rw [h m]
    rfl
  · intro h m
    have e : (t.link m).bare = (s.link m).bare := congrFun h m
    unfold SectionLink.bare at e
    generalize t.link m = x at *
    generalize s.link m = y at *
    cases x; cases y
    simp_all

/-! ### The updates of a link -/

theorem bare_modLink (s : State) (l : LinkId) {g : SectionLink → SectionLink} (h : (g (s.link l)).bare = (s.link l).bare) :
    bareView.view (s.modLink l g) = bareView.view s := by
  funext m
  show ((s.modLink l g).link m).bare = (s.link m).bare
  rw [link_modLink]
  split
  · rename_i e; subst e; exact h
  · rfl

theorem post_bare (k : SectionLink) (g : Signal) (d : Option Instant) : (k.post g d).bare = k.bare := by
  unfold SectionLink.post
  split
  · rfl
  · split <;> rfl

theorem queue_bare (k : SectionLink) (n : Fin 16) : (k.queue n).bare = k.bare := by
  unfold SectionLink.queue
  split <;> rfl

theorem bare_post (s : State) (l : LinkId) (g : Signal) (d : Option Instant) :
    bareView.view (s.post l g d) = bareView.view s := bare_modLink s l (post_bare ..)

theorem bare_postFar (s : State) (f : Feeder) (g : Feeder → Signal) :
    bareView.view (s.postFar f g) = bareView.view s := by
  unfold State.postFar
  split
  · exact bare_post ..
  · rfl

theorem bare_withdrawFar (s : State) (f : Feeder) (g : Feeder → Signal) :
    bareView.view (s.withdrawFar f g) = bareView.view s := by
  unfold State.withdrawFar
  split
  · exact bare_modLink s _ rfl
  · rfl

theorem bare_queueFeederEnd (s : State) (f : Feeder) : bareView.view (s.queueFeederEnd f) = bareView.view s := by
  unfold State.queueFeederEnd
  split
  · exact bare_modLink s _ (queue_bare ..)
  · rfl

/-- A view that looks at no record of a feeder and at nothing that a link is to send for it. -/
structure Apart {β : Type} (V : View β) (f : Feeder) : Prop where
  modFeeder : ∀ s g, V.view (State.modFeeder s f g) = V.view s
  modSection : ∀ s g, V.view (State.modSection s f g) = V.view s
  modFault : ∀ s g, V.view (State.modFault s f g) = V.view s
  postFar : ∀ s g, V.view (State.postFar s f g) = V.view s
  withdrawFar : ∀ s g, V.view (State.withdrawFar s f g) = V.view s
  queueFeederEnd : ∀ s, V.view (State.queueFeederEnd s f) = V.view s

/-! ### The operations of a feeder -/

namespace Apart

variable {β : Type} {V : View β} {f : Feeder} (h : Apart V f)
include h

theorem setClaim (s : State) (c : ClaimState) (d : Option Instant) :
    V.view (s.setClaim f c d) = V.view s := by
  unfold State.setClaim
  dsimp only
  split
  · exact h.modSection ..
  · exact (h.queueFeederEnd ..).trans (h.modSection ..)

theorem feederNotices (s : State) (old : FeederState) :
    V.view (s.feederNotices old f) = V.view s := by
  unfold State.feederNotices
  split
  · rfl
  · rw [V.failureNotice, h.queueFeederEnd, V.retardNotice]
    exact h.modFault ..

theorem closeEnded (s : State) (old : FeederState) (x : CloseResult) :
    V.view (s.closeEnded old f x) = V.view s := by
  unfold State.closeEnded
  rw [h.feederNotices, V.closeToRunners]

theorem endClose (s : State) (op : Operation) (x : CloseResult)
    (next : FeederRecord → FeederRecord) : V.view (s.endClose f op x next) = V.view s := by
  unfold State.endClose State.closeResultEntry
  rw [h.closeEnded, V.addEntry, h.modFeeder]

theorem releaseClaim (s : State) : V.view (s.releaseClaim f) = V.view s := by
  unfold State.releaseClaim
  split
  · rw [h.setClaim, h.postFar]
  · split
    · rw [h.setClaim, h.withdrawFar]
    · rw [h.setClaim, h.postFar]
  · rfl
  · rfl

theorem enterClosing (s : State) (op : Operation) :
    V.view (s.enterClosing f op) = V.view s := by
  unfold State.enterClosing
  dsimp only
  rw [h.feederNotices, h.modFeeder]

theorem enterTesting (s : State) (op : Operation) (m : TestMode) :
    V.view (s.enterTesting f op m) = V.view s := by
  unfold State.enterTesting
  split
  · dsimp only
    rw [h.feederNotices, h.modFeeder]
  · rw [h.endClose, h.releaseClaim]

theorem testUnclaimed (s : State) (op : Operation) (b : Bool) :
    V.view (s.testUnclaimed f op b) = V.view s := by
  unfold State.testUnclaimed
  rw [h.enterTesting, V.addEntry]

theorem beginClaim (s : State) (op : Operation) :
    V.view (s.beginClaim f op) = V.view s := by
  unfold State.beginClaim
  rw [h.feederNotices, h.setClaim, h.postFar, h.modFeeder]

theorem phaseChoice (s : State) (op : Operation) :
    V.view (s.phaseChoice f op) = V.view s := by
  unfold State.phaseChoice
  split
  · exact h.enterClosing ..
  · split
    · exact h.enterTesting ..
    · split
      · exact h.testUnclaimed ..
      · split
        · exact h.endClose ..
        · exact h.beginClaim ..

theorem recloseSteps (s : State) : V.view (s.recloseSteps f) = V.view s := by
  unfold State.recloseSteps
  dsimp only
  split
  · split
    · rw [h.feederNotices, h.modFeeder]
    · unfold State.lockOut State.lockoutEntry
      rw [h.feederNotices, V.addEntry, h.modFeeder]
  · split
    · exact h.phaseChoice ..
    · exact h.modFeeder ..
    · unfold State.holdReclose
      rw [V.addEntry, h.modFeeder]

theorem grantEnded (s : State) : V.view (s.grantEnded f) = V.view s := by
  unfold State.grantEnded
  dsimp only
  split
  · rw [h.phaseChoice, h.setClaim]
  · rw [h.recloseSteps, h.setClaim]
  · exact h.setClaim ..

theorem abortClose (s : State) (x : CloseResult) (next : Operation → FeederRecord → FeederRecord) :
    V.view (s.abortClose f x next) = V.view s := by
  unfold State.abortClose
  split
  · rw [h.endClose, h.releaseClaim]
  · rfl

theorem tripEnded (s : State) (old : FeederState) (x : CloseResult) :
    V.view (s.tripEnded old f x) = V.view s := by
  unfold State.tripEnded
  split
  · exact h.closeEnded ..
  · exact h.feederNotices ..

theorem tripTaken (s : State) (c : TripCause) (o : Origin) (b : Bool) (v w : Option Int) :
    V.view (s.tripTaken f c o b v w) = V.view s := by
  unfold State.tripTaken State.closeResultEntry State.toTripping
  dsimp only
  have posts (u : State) (e : V.view u = V.view s) :
      V.view (if c.protective then u.postFar f .transferTrip else u) = V.view s := by
    split
    · rw [h.postFar, e]
    · exact e
  apply posts
  rw [V.tripEntry]
  split
  · rw [V.addEntry, h.modFeeder]
  · rw [h.modFeeder]

theorem tripFeeder (s : State) (c : TripCause) (o : Origin) (b : Bool) (v w : Option Int) :
    V.view (s.tripFeeder f c o b v w) = V.view s := by
  refine Eq.trans (V.together _ _ fun part hm u => ?_) (tripTaken h s c o b v w)
  simp only [List.mem_cons, List.not_mem_nil, or_false] at hm
  obtain rfl | rfl := hm
  · exact V.heldAtStart ..
  · exact h.tripEnded ..

theorem takeTransferTrip (s : State) (l : LinkId) : V.view (s.takeTransferTrip f l) = V.view s := by
  unfold State.takeTransferTrip State.ttIgnored
  split
  · exact V.addEntry ..
  · split
    · exact h.tripFeeder ..
    · exact h.tripFeeder ..
    · exact h.abortClose ..
    · exact h.abortClose ..
    · exact V.addEntry ..

theorem deliverTransferTrip (s : State) (l : LinkId) : V.view (s.deliverTransferTrip l f) = V.view s := by
  unfold State.deliverTransferTrip
  split
  · exact h.takeTransferTrip ..
  · exact V.addEntry ..

theorem grantFar (s : State) : V.view (s.grantFar f) = V.view s := by
  unfold State.grantFar
  rw [h.setClaim, h.postFar]

theorem takeClaim (s : State) (l : LinkId) : V.view (s.takeClaim l f) = V.view s := by
  unfold State.takeClaim State.crossedClaim
  split
  · split
    · split
      · rfl
      · exact h.grantFar ..
    · split
      · split
        · rw [h.grantFar, h.withdrawFar]
        · rfl
      · rfl
    · rfl
    · exact h.grantFar ..
  · rfl

theorem takeGrant (s : State) (l : LinkId) : V.view (s.takeGrant l f) = V.view s := by
  unfold State.takeGrant
  split
  · dsimp only
    split
    · rw [h.enterTesting, h.setClaim]
    · exact h.setClaim ..
  · rfl

theorem takeDone (s : State) (l : LinkId) : V.view (s.takeDone l f) = V.view s := by
  unfold State.takeDone
  split
  · exact h.grantEnded ..
  · rfl

end Apart

/-! ### What the links keep, and what other feeders keep -/

theorem bare_apart (f : Feeder) : Apart bareView f :=
  { modFeeder := fun _ _ => rfl, modSection := fun _ _ => rfl, modFault := fun _ _ => rfl,
    postFar := fun s g => bare_postFar s f g, withdrawFar := fun s g => bare_withdrawFar s f g,
    queueFeederEnd := fun s => bare_queueFeederEnd s f }

/-- The view of one feeder's records. -/
def recordsView (f : Feeder) : View (FeederRecord × SectionRecord × FaultRecord) :=
  { view := fun s => (s.feeder f, s.section' f, s.fault f), choices := fun _ _ => rfl, events := fun _ _ => rfl,
    runners := fun _ _ => rfl, rect := fun _ _ => rfl, captures := fun _ _ => rfl }

theorem records_apart {f g : Feeder} (h : g ≠ f) : Apart (recordsView g) f :=
  { modFeeder := fun s k => Prod.ext (State.modFeeder_feeder_ne s k h) rfl
    modSection := fun s k => Prod.ext rfl (Prod.ext (State.modSection_section_ne s k h) rfl)
    modFault := fun s k => Prod.ext rfl (Prod.ext rfl (State.modFault_fault_ne s k h))
    postFar := fun s k => by unfold State.postFar; split <;> rfl
    withdrawFar := fun s k => by unfold State.withdrawFar; split <;> rfl
    queueFeederEnd := fun s => by unfold State.queueFeederEnd; split <;> rfl }

/-- Only one feeder changes, where the change is quiet and the other feeders' records stand. -/
theorem onlyFeeder_of {s t : State} {f : Feeder} (q : Quiet s t)
    (h : ∀ g, g ≠ f → (recordsView g).view t = (recordsView g).view s) : OnlyFeeder s t f :=
  ⟨fun g n => ⟨congrArg Prod.fst (h g n), congrArg (fun x => x.2.1) (h g n), congrArg (fun x => x.2.2) (h g n)⟩,
    q.settings, q.store, q.sample, q.inputs, q.key, q.clock, q.slots, q.headers⟩

/-! ### The signals that name a feeder -/

theorem deliverTransferTrip_posts (s : State) (l : LinkId) (g : Feeder) : OnlyPosts s (s.deliverTransferTrip l g) :=
  onlyPosts_iff.mpr ((bare_apart g).deliverTransferTrip s l)

theorem takeClaim_posts (s : State) (l : LinkId) (g : Feeder) : OnlyPosts s (s.takeClaim l g) :=
  onlyPosts_iff.mpr ((bare_apart g).takeClaim s l)

theorem takeGrant_posts (s : State) (l : LinkId) (g : Feeder) : OnlyPosts s (s.takeGrant l g) :=
  onlyPosts_iff.mpr ((bare_apart g).takeGrant s l)

theorem takeDone_posts (s : State) (l : LinkId) (g : Feeder) : OnlyPosts s (s.takeDone l g) :=
  onlyPosts_iff.mpr ((bare_apart g).takeDone s l)

/-! ### The loss of measurement -/

/-- A test that ends by the loss of measurement leaves every Fault Detection record: it led from an unprotected state to
another (03 R40, R41; 04 R81). -/
theorem measurementLoss_fault (s : State) (f g : Feeder) : (s.measurementLoss f).fault g = s.fault g := by
  unfold State.measurementLoss
  split
  · rename_i h
    by_cases e : g = f
    · subst e
      have hands := (abortClose_hands s g (.interlocked .measurementLost) (s.waitOrOpen g)).1
      rw [hands, h]
      unfold State.abortClose
      split
      · rename_i op _
        rw [endClose_feeder, if_pos rfl]
        unfold State.waitOrOpen
        split <;> rfl
      · rw [h]
        rfl
    · exact congrArg (fun x => x.2.2) ((records_apart e).abortClose s _ _)
  · rfl

end Sys2Proof.Machine
end

