-- ==== Sys2Proof/Laws/Slots.lean ====
section
/-! SUPPORT. A good word taken while UP: its signal and its data act in turn, and neither takes the link down. -/

set_option Elab.async false

namespace Sys2Proof.Machine

/-- A good word at an UP link acts as its two slots on the link as the word finds it. -/
theorem takesWord_exec {s : State} {l : LinkId} {w : RxWord} {g : SlotSignal} (h : s.takesWord l w g) :
    exec (.linkWord l w) s = .next ((s.heardOn l).takeSlots l g w.data) := by
  obtain ⟨live, light, up, good⟩ := h
  unfold exec execLinkWord
  dsimp only
  rw [live_next live]
  unfold State.takeWord
  rw [if_pos light, good]
  dsimp only
  unfold State.goodWordAt
  rw [up]
  rfl

/-- A word without a signal acts as its data. -/
theorem takeSlots_nothing (s : State) (l : LinkId) (d : RxData) :
    s.takeSlots l .nothing d = s.takeData l (some d) := by
  rw [takeSlots_together (.inl rfl)]
  unfold together
  have q : addsEntry s (fun t => t.takeSignal l .nothing) = false := by
    unfold addsEntry State.takeSignal
    simp
  cases hq : addsEntry s (fun t => t.takeData l (some d)) <;>
    simp only [List.filter, hq, q, Bool.not_false, Bool.not_true, inFreeOrder, List.foldl, List.length] <;> rfl

/-- The two slots act one after the other, in one order or the other. -/
theorem takeSlots_order (s : State) (l : LinkId) (g : SlotSignal) (d : RxData) : ∃ x,
    s.takeSlots l g d = ({ s with choices := x }.takeSignal l g).takeData l (some d) ∨
      s.takeSlots l g d = ({ s with choices := x }.takeData l (some d)).takeSignal l g := by
  have two := inFreeOrder_two (fun t => t.takeSignal l g) (fun t => t.takeData l (some d)) s
  unfold State.takeSlots
  dsimp only
  split
  · exact ⟨_, two⟩
  · exact (together_two ..).imp fun _ h => h.2

/-! ### The link stays UP -/

/-- The view of the states of the links. -/
def linkStateView : View (LinkId → LinkState) :=
  { view := fun s l => (s.link l).state, choices := fun _ _ => rfl, events := fun _ _ => rfl,
    runners := fun _ _ => rfl, rect := fun _ _ => rfl, captures := fun _ _ => rfl }

theorem linkState_modLink (s : State) (l : LinkId) {g : SectionLink → SectionLink}
    (h : (g (s.link l)).state = (s.link l).state) : linkStateView.view (s.modLink l g) = linkStateView.view s := by
  funext m
  show ((s.modLink l g).link m).state = (s.link m).state
  rw [link_modLink]
  split
  · rename_i e; subst e; exact h
  · rfl

theorem linkState_of_posts {s t : State} (h : OnlyPosts s t) : linkStateView.view t = linkStateView.view s := by
  funext m
  show (t.link m).state = (s.link m).state
  rw [h m]

theorem linkState_queueSystem (s : State) : linkStateView.view s.queueSystem = linkStateView.view s := by
  funext m
  show (s.queueSystem.link m).state = (s.link m).state
  unfold State.queueSystem State.link
  rw [get_map]
  exact queue_state ..

theorem linkState_setQuality (s : State) (q : TimeQuality) :
    linkStateView.view (s.setQuality q) = linkStateView.view s := by
  unfold State.setQuality
  split
  · rfl
  · exact linkState_queueSystem _

theorem linkState_delayNotice (s : State) (l : LinkId) : linkStateView.view (s.delayNotice l) = linkStateView.view s := by
  unfold State.delayNotice State.qualityChange
  split
  · split
    · rfl
    · rw [linkStateView.addEntry, linkState_setQuality]
  · rfl

theorem linkState_qualityChange (s : State) (q : TimeQuality) (l : LinkId) :
    linkStateView.view (s.qualityChange q l) = linkStateView.view s := by
  unfold State.qualityChange
  split
  · rfl
  · rw [linkStateView.addEntry, linkState_setQuality]

theorem measure_state (k : SectionLink) (m : Nat) : (k.measure m).state = k.state := by
  unfold SectionLink.measure
  split
  · rfl
  · split <;> rfl
  · split <;> rfl

theorem linkState_measureLoop (s : State) (l : LinkId) (m : Nat) :
    linkStateView.view (s.measureLoop l m) = linkStateView.view s := by
  have e : linkStateView.view (s.modLink l fun k => k.measure m) = linkStateView.view s :=
    linkState_modLink s l (measure_state _ m)
  unfold State.measureLoop State.linkEntry
  dsimp only
  split
  · exact e
  · rw [linkState_delayNotice]
    have q := (linkState_modLink (s.modLink l fun k => k.measure m) l (g := fun k => k.queue 0) (queue_state _ 0)).trans e
    split
    · exact (linkStateView.addEntry ..).trans q
    · exact (linkStateView.addEntry ..).trans q
    · exact q

theorem linkState_takeEcho (s : State) (l : LinkId) (late : Bool) :
    linkStateView.view (s.takeEcho l late) = linkStateView.view s := by
  unfold State.takeEcho
  dsimp only
  split
  · rw [linkState_measureLoop]
    exact linkState_modLink s l rfl
  · exact linkState_modLink s l rfl

theorem linkState_takeMark (s : State) (l : LinkId) (late : Bool) :
    linkStateView.view (s.takeMark l late) = linkStateView.view s := by
  unfold State.takeMark
  split
  · split
    · rfl
    · unfold State.judgeMark
      dsimp only
      split
      · unfold State.timeStep
        dsimp only
        rw [linkState_qualityChange, linkStateView.addEntry]
        rfl
      · unfold State.timeConflict
        rw [linkStateView.addEntry, linkState_queueSystem]
        rfl
      · rw [linkState_qualityChange]
        rfl
    · rfl
  · rfl

/-- A signal leaves the states of the links. -/
theorem takeSignal_state (s : State) (l : LinkId) (g : SlotSignal) :
    linkStateView.view (s.takeSignal l g) = linkStateView.view s := by
  unfold State.takeSignal
  split
  · rfl
  · unfold State.transferTripCopy
    split
    · exact linkState_modLink s l rfl
    · split
      · rfl
      · rw [linkState_of_posts (deliverTransferTrip_posts _ _ _)]
        exact linkState_modLink s l rfl
  · exact linkState_of_posts (takeClaim_posts _ _ _)
  · exact linkState_of_posts (takeGrant_posts _ _ _)
  · exact linkState_of_posts (takeDone_posts _ _ _)
  · exact linkState_of_posts (onlyPosts_iff.mpr (bare_post ..))
  · exact linkState_takeEcho ..
  · exact linkState_takeMark ..

/-- What a Feeder End segment leaves: what looks neither at the Section Records nor at the feeders. -/
theorem setFarState_view {β : Type} (V : View β) (hs : ∀ u x, V.view { u with sections := x } = V.view u)
    (hf : ∀ u x, V.view { u with feeders := x } = V.view u) (hg : ∀ u x, V.view { u with faults := x } = V.view u)
    (s : State) (f : Feeder) (x : Option FeederState) : V.view (s.setFarState f x) = V.view s := by
  unfold State.setFarState
  split
  · rfl
  · rw [V.judgeWaits]
    unfold State.regroup
    dsimp only
    split
    · exact (hg _ _).trans ((hf _ _).trans (hs s _))
    · exact hs s _

theorem takeFeederEnd_view {β : Type} (V : View β) (hs : ∀ u x, V.view { u with sections := x } = V.view u)
    (hf : ∀ u x, V.view { u with feeders := x } = V.view u) (hg : ∀ u x, V.view { u with faults := x } = V.view u)
    (s : State) (l : LinkId) (bytes : List Byte) (f : Feeder) :
    V.view (s.takeFeederEnd l bytes f) = V.view s := by
  unfold State.takeFeederEnd State.mismatchEntry
  dsimp only
  rw [setFarState_view V hs hf hg]
  split
  · exact (V.addEntry ..).trans (hs s _)
  · exact hs s _

theorem linkState_takeUpstream (s : State) (l : LinkId) (u : Upstream) :
    linkStateView.view (s.takeUpstream l u) = linkStateView.view s := by
  unfold State.takeUpstream
  split <;> rfl

/-- A segment leaves the states of the links. -/
theorem linkState_takeSegment (s : State) (l : LinkId) (n : Fin 16) (bytes : List Byte) :
    linkStateView.view (s.takeSegment l n bytes) = linkStateView.view s := by
  unfold State.takeSegment
  dsimp only
  split
  · unfold State.takeSystem
    rw [linkState_takeUpstream]
    unfold State.judgeConflict State.linkEntry
    dsimp only
    split
    · rw [linkStateView.addEntry, linkState_modLink _ l rfl, linkState_modLink _ l rfl, linkState_modLink _ l rfl,
        linkState_modLink _ l rfl]
    · rw [linkState_modLink _ l rfl, linkState_modLink _ l rfl, linkState_modLink _ l rfl]
  · split
    · rw [linkStateView.together]
      · exact linkState_modLink s l rfl
      · intro part hm u
        obtain ⟨f, _, rfl⟩ := List.mem_map.mp hm
        exact takeFeederEnd_view linkStateView (fun _ _ => rfl) (fun _ _ => rfl) (fun _ _ => rfl) u l bytes f
    · exact linkState_modLink s l rfl

theorem takeData_state (s : State) (l : LinkId) (d : Option RxData) :
    linkStateView.view (s.takeData l d) = linkStateView.view s := by
  unfold State.takeData
  split
  · exact linkState_modLink s l rfl
  · exact linkState_modLink s l rfl
  · exact linkState_modLink s l rfl
  · exact linkState_modLink s l rfl
  · rw [linkState_takeSegment]
    exact linkState_modLink s l rfl

/-- What is said of a signal and of data at an UP link is said of a word with both. -/
theorem takeSlots_inTurn {s : State} {l : LinkId} {g : SlotSignal} {d : RxData} {signal data : State → State → Prop}
    (up : (s.link l).state = .up) (hs : ∀ u : State, (u.link l).state = .up → signal u (u.takeSignal l g))
    (hd : ∀ u : State, (u.link l).state = .up → data u (u.takeData l (some d))) :
    InTurn l signal data s (s.takeSlots l g d) := by
  have keeps (u : State) : ((u.takeSignal l g).link l).state = (u.link l).state := congrFun (takeSignal_state u l g) l
  have holds (u : State) : ((u.takeData l (some d)).link l).state = (u.link l).state :=
    congrFun (takeData_state u l (some d)) l
  obtain ⟨x, h⟩ := takeSlots_order s l g d
  have up : (State.link { s with choices := x } l).state = .up := up
  refine ⟨x, ?_⟩
  generalize ({ s with choices := x } : State) = v at *
  rcases h with h | h <;> rw [h]
  · exact ⟨_, (keeps v).trans up, .inl ⟨hs v up, hd _ ((keeps v).trans up)⟩⟩
  · exact ⟨_, (holds v).trans up, .inr ⟨hd v up, hs _ ((holds v).trans up)⟩⟩

/-- A word with a signal and data, at an UP link. -/
theorem takesWord_inTurn {s : State} {l : LinkId} {w : RxWord} {g : SlotSignal} {signal data : State → State → Prop}
    (h : s.takesWord l w g) (hs : ∀ u : State, (u.link l).state = .up → signal u (u.takeSignal l g))
    (hd : ∀ u : State, (u.link l).state = .up → data u (u.takeData l (some w.data))) :
    ∃ t, exec (.linkWord l w) s = .next t ∧ InTurn l signal data (s.heardOn l) t := by
  refine ⟨_, takesWord_exec h, takeSlots_inTurn ?_ hs hd⟩
  unfold State.heardOn
  rw [link_modLink, if_pos rfl]
  exact h.2.2.1

end Sys2Proof.Machine
end

