-- ==== Sys2Proof/Laws/Acts.lean ====
section
/-! SUPPORT. What an echo and the data of a word do, as the statements say it (07 R150, R153, R154; 08 R160). -/

set_option Elab.async false

namespace Sys2Proof.Machine

/-! ### A delay status at the Time Base -/

theorem queue_get (k : SectionLink) (n m : Fin 16) (h : k.queued.get m = true) : (k.queue n).queued.get m = true := by
  unfold SectionLink.queue
  split
  · show (k.queued.set n true).get m = true
    rw [File.get_set]
    split
    · rfl
    · exact h
  · exact h

theorem queue_only (k : SectionLink) (n : Fin 16) : k.queue n = { k with queued := (k.queue n).queued } := by
  unfold SectionLink.queue
  split <;> rfl

theorem setQuality_link (s : State) (q : TimeQuality) (l : LinkId) :
    (s.setQuality q).link l = if s.time.quality = q then s.link l else (s.link l).queue 0 := by
  rw [setQuality_eq]
  unfold State.link
  dsimp only
  split
  · rfl
  · exact get_map ..

/-- What the Time Base makes of a delay status handed over changes no more than quality, the segment queues and the record
(08 R160). -/
theorem delayNotice_only (s : State) (l : LinkId) : s.delayNotice l =
      { s with time := (s.delayNotice l).time, links := (s.delayNotice l).links, events := (s.delayNotice l).events,
               choices := (s.delayNotice l).choices } ∧
    (∀ m, (s.delayNotice l).link m = { s.link m with queued := ((s.delayNotice l).link m).queued }) ∧
    (∀ m n, (s.link m).queued.get n = true → ((s.delayNotice l).link m).queued.get n = true) ∧
    Grows s.events (s.delayNotice l).events := by
  unfold State.delayNotice State.qualityChange
  split
  · split
    · exact ⟨rfl, fun _ => rfl, fun _ _ h => h, .refl _⟩
    · rename_i h
      generalize s.linkQuality l = q at *
      have e : ∀ (u : State) k b o d v w c m, (u.addEntry k b o d v w c).link m = u.link m := fun _ _ _ _ _ _ _ _ _ => rfl
      have g := Grows.addEntry (s.setQuality q) .timeQuality .nothing (linkOrigin l) (.quality q)
        (some (s.time.quality.code : Int)) none none
      rw [show (s.setQuality q).events = s.events by rw [setQuality_eq]] at g
      refine ⟨?_, fun m => ?_, fun m n k => ?_, g⟩
      · conv => lhs; rw [setQuality_eq]
        rw [setQuality_eq]
        rfl
      · rw [e, setQuality_link, if_neg h]
        exact queue_only ..
      · rw [e, setQuality_link, if_neg h]
        exact queue_get _ _ _ k
  · exact ⟨rfl, fun _ => rfl, fun _ _ h => h, .refl _⟩

/-- The Time Base takes a delay status (08 R160). -/
theorem delayNotice_takes (s : State) (l : LinkId) :
    TakesDelayStatus s (s.delayNotice l) l (s.link l).delayStatus := by
  have e : ∀ (u : State) k b o d v w c, (u.addEntry k b o d v w c).time = u.time := fun _ _ _ _ _ _ _ _ => rfl
  have f : ∀ (u : State) k b o d v w c m, (u.addEntry k b o d v w c).link m = u.link m := fun _ _ _ _ _ _ _ _ _ => rfl
  unfold TakesDelayStatus State.delayNotice State.qualityChange
  dsimp only
  refine ⟨fun a b => ?_, fun h => ?_⟩
  · rw [if_pos ⟨a, b⟩]
    change (if s.time.quality = s.linkQuality l then s else _).time = { s.time with quality := s.linkQuality l } ∧
      (s.time.quality ≠ s.linkQuality l → _)
    split
    · rename_i h
      exact ⟨by rw [← h], fun k => absurd h k⟩
    · rename_i h
      refine ⟨by rw [e, setQuality_eq], fun _ => ⟨?_, fun m up => ?_⟩⟩
      · have grows : Grows s.events (s.setQuality (s.linkQuality l)).events := by rw [setQuality_eq]; exact .refl _
        have small : inField (some (s.time.quality.code : Int)) = true := by cases s.time.quality <;> decide
        exact ((AddsEntry.add (s.setQuality (s.linkQuality l)) .timeQuality .nothing (linkOrigin l)
          (.quality (s.linkQuality l)) (some (s.time.quality.code : Int)) none none).earlier grows).mono
          fun e ⟨a, b, c, d, _, v, _⟩ => ⟨a, b, c, d, v small⟩
      · rw [f, setQuality_link, if_neg h] at up ⊢
        rw [queue_state] at up
        unfold SectionLink.queue
        rw [if_pos up]
        show ((s.link m).queued.set 0 true).get 0 = true
        rw [File.get_set, if_pos rfl]
  · rw [if_neg (fun k => ?_)]
    rcases h with h | h
    · exact h k.1
    · exact k.2.elim h.1 h.2

/-! ### An echo -/

theorem near_iff (a b : Nat) : near a b = true ↔ a ≤ b + 4 ∧ b ≤ a + 4 := by
  unfold near
  rw [decide_eq_true_iff]
  omega

/-- The delay record after a measurement, in the words of the statement (07 R150). -/
theorem measure_cases (k : SectionLink) (m : Nat) :
    let list := (k.measurements ++ [m]).drop (k.measurements.length + 1 - 16)
    let near := m ≤ k.loopAverage + 4 ∧ k.loopAverage ≤ m + 4
    (k.delayStatus = .invalid ∨ ¬near → k.measure m = k.delay [m] 0 .initial) ∧
    (k.delayStatus = .initial → near → k.measure m =
      k.delay list (k.goodCount + 1) (if k.goodCount + 1 = 16 then .locked else .initial)) ∧
    (k.delayStatus = .locked → near → k.measure m = k.delay list 16 .locked) := by
  dsimp only
  have push : pushMeasurement k.measurements m = (k.measurements ++ [m]).drop (k.measurements.length + 1 - 16) := by
    unfold pushMeasurement
    rw [List.length_append]
    rfl
  unfold SectionLink.measure
  refine ⟨fun h => ?_, fun h n => ?_, fun h n => ?_⟩
  · split
    · rfl
    all_goals
      rename_i e
      rw [e] at h
      rw [if_neg (fun x => h.elim (fun y => nomatch y) fun y => y ((near_iff ..).mp x))]
  · rw [h]
    dsimp only
    rw [if_pos ((near_iff ..).mpr n), push]
  · rw [h]
    dsimp only
    rw [if_pos ((near_iff ..).mpr n), push]

/-- The chain of a measurement whose status is another: the record, the queue, an entry and the notice. -/
theorem measureLoop_eq (s : State) (l : LinkId) (m : Nat) :
    s.measureLoop l m =
      if ((s.link l).measure m).delayStatus = (s.link l).delayStatus then s.modLink l fun _ => (s.link l).measure m
      else
        (match ((s.link l).measure m).delayStatus, (s.link l).delayStatus with
          | .locked, _ => (s.modLink l fun _ => ((s.link l).measure m).queue 0).linkEntry l .delayLocked .nothing
              (some (((s.link l).measure m).loopAverage : Int))
          | _, .locked => (s.modLink l fun _ => ((s.link l).measure m).queue 0).linkEntry l .delayRestart .nothing
              (some (m : Int)) (some ((s.link l).loopAverage : Int))
          | _, _ => s.modLink l fun _ => ((s.link l).measure m).queue 0).delayNotice l := by
  have e : (s.modLink l fun k => k.measure m).link l = (s.link l).measure m := by rw [link_modLink, if_pos rfl]
  have f : (s.modLink l fun k => k.measure m) = s.modLink l fun _ => (s.link l).measure m := rfl
  have g : ((s.modLink l fun k => k.measure m).modLink l fun k => k.queue 0) =
      s.modLink l fun _ => ((s.link l).measure m).queue 0 := by
    unfold State.modLink
    show ({ s with links := (s.links.set l.index _).set l.index ((((s.modLink l fun k => k.measure m).link l)).queue 0) } : State) = _
    rw [e]
    congr 1
    ext j
    simp only [File.get_set]
    split <;> rfl
  unfold State.measureLoop
  dsimp only
  rw [e, g, f]
  all_goals rfl

/-- The notice of a changed status, after the link's record and maybe an entry (07 R150; 08 R160). -/
theorem delayNotice_after {s w : State} {l : LinkId} {k : SectionLink}
    (hw : w = { s with links := w.links, events := w.events, choices := w.choices }) (hl : w.link l = k.queue 0)
    (hn : ∀ n, n ≠ l → w.link n = s.link n) (hg : Grows s.events w.events) (t : State) (ht : t = w.delayNotice l) :
    t = { s with links := t.links, time := t.time, events := t.events, choices := t.choices } ∧
    t.link l = { k with queued := (t.link l).queued } ∧
    (∀ n, n ≠ l → t.link n = { s.link n with queued := (t.link n).queued }) ∧
    (k.state = .up → (t.link l).queued.get 0 = true) ∧ TakesDelayStatus s t l k.delayStatus ∧
    Grows w.events t.events := by
  obtain ⟨a, b, c, d⟩ := delayNotice_only w l
  have e := delayNotice_takes w l
  rw [← ht] at a b c d e
  have hs : w.time = s.time := by rw [hw]
  have hf : w.followed = s.followed := by rw [hw]; rfl
  have status : (w.link l).delayStatus = k.delayStatus := by rw [hl, queue_only]
  refine ⟨?_, ?_, fun n h => ?_, fun up => ?_, ?_, d⟩
  · rw [a, hw]
  · rw [b l, hl, queue_only]
  · rw [b n, hn n h]
  · refine c l 0 ?_
    rw [hl]
    unfold SectionLink.queue
    rw [if_pos up]
    show (k.queued.set 0 true).get 0 = true
    rw [File.get_set, if_pos rfl]
  · rw [status] at e
    unfold TakesDelayStatus at e ⊢
    rw [hs, hf] at e
    dsimp only at e ⊢
    exact ⟨fun x y => ⟨(e.1 x y).1, fun z => ⟨((e.1 x y).2 z).1.earlier hg, ((e.1 x y).2 z).2⟩⟩, e.2⟩

/-- The link's record after one measurement, and what a change of status does beside it (07 R150). -/
theorem measureLoop_acts (s : State) (l : LinkId) (m : Nat) (k1 : SectionLink) (hk : k1 = (s.link l).measure m) (t : State)
    (ht : t = s.measureLoop l m) :
    t = { s with links := t.links, time := t.time, events := t.events, choices := t.choices } ∧
    t.link l = { k1 with queued := (t.link l).queued } ∧
    (∀ n, n ≠ l → t.link n = { s.link n with queued := (t.link n).queued }) ∧
    (k1.delayStatus = (s.link l).delayStatus → t.events = s.events ∧ t.time = s.time) ∧
    (k1.delayStatus ≠ (s.link l).delayStatus →
      (k1.state = .up → (t.link l).queued.get 0 = true) ∧ TakesDelayStatus s t l k1.delayStatus ∧
      (k1.delayStatus = .locked → AddsEntry s t fun e => e.kind = .delayLocked ∧ e.subject = .link l ∧
        e.origin = .link l ∧ (k1.loopAverage < 2147483648 → e.value1 = some (k1.loopAverage : Int))) ∧
      (k1.delayStatus ≠ .locked → (s.link l).delayStatus = .locked → AddsEntry s t fun e =>
        e.kind = .delayRestart ∧ e.subject = .link l ∧ e.origin = .link l ∧
          (m < 2147483648 → e.value1 = some (m : Int)) ∧
          ((s.link l).loopAverage < 2147483648 → e.value2 = some ((s.link l).loopAverage : Int)))) := by
  have small (n : Nat) (h : n < 2147483648) : inField (some (n : Int)) = true := by
    simp [inField]
    omega
  rw [measureLoop_eq, ← hk] at ht
  have self : ∀ g : SectionLink, (s.modLink l fun _ => g).link l = g := fun g => by rw [link_modLink, if_pos rfl]
  have other : ∀ (g : SectionLink) n, n ≠ l → (s.modLink l fun _ => g).link n = s.link n := fun g n h => by
    rw [link_modLink, if_neg h]
  split at ht
  · rename_i e
    refine ⟨by rw [ht]; rfl, by rw [ht, self], fun n h => by rw [ht, other _ n h], fun _ => ?_, fun h => absurd e h⟩
    rw [ht]
    exact ⟨rfl, rfl⟩
  · rename_i ne
    generalize hw0 : (s.modLink l fun _ => k1.queue 0) = w0 at ht
    have b0 : w0 = { s with links := w0.links, events := w0.events, choices := w0.choices } := by rw [← hw0]; rfl
    have l0 : w0.link l = k1.queue 0 := by rw [← hw0, self]
    have n0 : ∀ n, n ≠ l → w0.link n = s.link n := fun n h => by rw [← hw0, other _ n h]
    have g0 : Grows s.events w0.events := by rw [← hw0]; exact .refl _
    split at ht
    · rename_i hlock
      generalize hw : w0.linkEntry l .delayLocked .nothing (some (k1.loopAverage : Int)) = w at ht
      have a := AddsEntry.add w0 .delayLocked (.link l) (linkOrigin l) .nothing (some (k1.loopAverage : Int)) none none
      rw [show w0.addEntry .delayLocked (.link l) (linkOrigin l) .nothing (some (k1.loopAverage : Int)) none none = w
        from hw] at a
      have gw : Grows w0.events w.events := by rw [← hw]; exact Grows.addEntry ..
      obtain ⟨x1, x2, x3, x4, x5, x6⟩ := delayNotice_after (w := w) (k := k1) (l := l) (s := s)
        (by rw [← hw, b0]; rfl) (by rw [← hw]; exact l0) (fun n h => by rw [← hw]; exact n0 n h)
        (g0.trans gw) t ht
      refine ⟨x1, x2, x3, fun h => absurd h ne, fun _ => ⟨x4, x5, fun _ => ?_, fun h => absurd hlock h⟩⟩
      exact ((a.earlier g0).later x6).mono fun e ⟨p, q, r, _, _, v, _⟩ => ⟨p, q, r, fun h => v (small _ h)⟩
    · rename_i hold nlock
      generalize hw : w0.linkEntry l .delayRestart .nothing (some (m : Int)) (some ((s.link l).loopAverage : Int)) = w at ht
      have a := AddsEntry.add w0 .delayRestart (.link l) (linkOrigin l) .nothing (some (m : Int))
        (some ((s.link l).loopAverage : Int)) none
      rw [show w0.addEntry .delayRestart (.link l) (linkOrigin l) .nothing (some (m : Int))
        (some ((s.link l).loopAverage : Int)) none = w from hw] at a
      have gw : Grows w0.events w.events := by rw [← hw]; exact Grows.addEntry ..
      obtain ⟨x1, x2, x3, x4, x5, x6⟩ := delayNotice_after (w := w) (k := k1) (l := l) (s := s)
        (by rw [← hw, b0]; rfl) (by rw [← hw]; exact l0) (fun n h => by rw [← hw]; exact n0 n h)
        (g0.trans gw) t ht
      refine ⟨x1, x2, x3, fun h => absurd h ne, fun _ => ⟨x4, x5, fun h => absurd h nlock, fun _ _ => ?_⟩⟩
      exact ((a.earlier g0).later x6).mono fun e ⟨p, q, r, _, _, v, w⟩ =>
        ⟨p, q, r, fun h => v (small _ h), fun h => w (small _ h)⟩
    · rename_i nlock nold
      obtain ⟨x1, x2, x3, x4, x5, x6⟩ := delayNotice_after (w := w0) (k := k1) (l := l) (s := s) b0 l0 n0 g0 t ht
      exact ⟨x1, x2, x3, fun h => absurd h ne, fun _ => ⟨x4, x5, fun h => absurd h nlock, fun _ h => absurd h nold⟩⟩

/-- A BEACON ECHO acts as the statement says (07 R150). -/
theorem takeEcho_acts (s : State) (l : LinkId) (late : Bool) : EchoActs s (s.takeEcho l late) l late := by
  unfold EchoActs State.takeEcho
  dsimp only
  refine ⟨fun h => ?_, fun sent m hl ho hm => ?_⟩
  · rcases h with h | h
    · rw [h]
    · rw [h]
      cases late <;> rfl
  · subst hl
    rw [ho]
    dsimp only
    rw [← hm]
    generalize hs0 : (s.modLink l fun k => { k with beaconOutstanding := none }) = s0
    have k0 : s0.link l = { s.link l with beaconOutstanding := none } := by rw [← hs0, link_modLink, if_pos rfl]
    have n0 : ∀ n, n ≠ l → s0.link n = s.link n := fun n h => by rw [← hs0, link_modLink, if_neg h]
    have e0 : s0 = { s with links := s0.links } := by rw [← hs0]; rfl
    have ev : s0.events = s.events := by rw [e0]
    have tm : s0.time = s.time := by rw [e0]
    generalize ht : s0.measureLoop l m = t
    obtain ⟨a, b, c, d, e⟩ := measureLoop_acts s0 l m _ rfl t ht.symm
    obtain ⟨p, q, r⟩ := measure_cases (s0.link l) m
    have ds : (s0.link l).delayStatus = (s.link l).delayStatus := by rw [k0]
    have la : (s0.link l).loopAverage = (s.link l).loopAverage := by rw [k0]
    have ms' : (s0.link l).measurements = (s.link l).measurements := by rw [k0]
    have gc : (s0.link l).goodCount = (s.link l).goodCount := by rw [k0]
    simp only [ds, la, ms', gc] at p q r d e
    have earlier {P} (h : AddsEntry s0 t P) : AddsEntry s t P := h.earlier (by rw [ev]; exact .refl _)
    have only : (s0.link l).measure m = { s0.link l with
        measurements := ((s0.link l).measure m).measurements, loopAverage := ((s0.link l).measure m).loopAverage,
        goodCount := ((s0.link l).measure m).goodCount, delayStatus := ((s0.link l).measure m).delayStatus } := by
      unfold SectionLink.measure
      split <;> [rfl; (split <;> rfl); (split <;> rfl)]
    generalize hk : (s0.link l).measure m = k1 at *
    have b1 : (t.link l).delayStatus = k1.delayStatus := by rw [b]
    have b2 : (t.link l).measurements = k1.measurements := by rw [b]
    have b3 : (t.link l).loopAverage = k1.loopAverage := by rw [b]
    have b4 : (t.link l).goodCount = k1.goodCount := by rw [b]
    rw [b1, b2, b3, b4]
    refine ⟨?_, ?_, fun n h => ?_, fun h => ?_, fun h => ?_, fun h n => ?_, fun h n => ?_, fun h n => ?_, fun h n => ?_,
      fun h => ?_, fun h => ?_⟩
    · rw [a, e0]
    · rw [b, only, k0]
    · rw [c n h, n0 n h]
    · rw [p (.inl h)]; rfl
    · rw [p h]; exact ⟨rfl, by simp [SectionLink.delay, average], rfl, rfl⟩
    · cases hd : (s.link l).delayStatus with
      | invalid => exact absurd hd h
      | initial => rw [q hd n]; exact ⟨rfl, rfl⟩
      | locked => rw [r hd n]; exact ⟨rfl, rfl⟩
    · have x := q h n
      refine ⟨by rw [x]; rfl, fun y => by rw [x]; exact if_neg y, fun y => ?_⟩
      have z : k1.delayStatus = .locked := by rw [x]; exact if_pos y
      refine ⟨z, ?_⟩
      have w := earlier ((e (by rw [z, h]; exact fun k => nomatch k)).2.2.1 z)
      rw [show k1.loopAverage = _ by rw [x]] at w
      exact w
    · rw [r h n]; exact ⟨rfl, rfl⟩
    · have x := p (.inr n)
      have z : k1.delayStatus ≠ .locked := by rw [x]; exact fun k => nomatch k
      exact earlier ((e (by rw [h]; exact z)).2.2.2 z h)
    · obtain ⟨x, y, _⟩ := e h
      refine ⟨fun up => x (by rw [only, k0]; exact up), ?_⟩
      unfold TakesDelayStatus at y ⊢
      rw [tm, show s0.followed = s.followed by rw [e0]; rfl] at y
      dsimp only at y ⊢
      exact ⟨fun u v => ⟨(y.1 u v).1, fun w => ⟨earlier ((y.1 u v).2 w).1, ((y.1 u v).2 w).2⟩⟩, y.2⟩
    · rw [← ev, ← tm]
      exact d h

/-! ### The data of a word -/

theorem modLink_modLink (s : State) (l : LinkId) (g h : SectionLink → SectionLink) :
    (s.modLink l g).modLink l h = s.modLink l fun k => h (g k) := by
  have e : (s.modLink l g).link l = g (s.link l) := by rw [link_modLink, if_pos rfl]
  unfold State.modLink
  show ({ s with links := (s.links.set l.index _).set l.index (h ((s.modLink l g).link l)) } : State) = _
  rw [e]
  congr 1
  ext j
  simp only [File.get_set]
  split <;> rfl

/-- The receive assembly in the words of the statement (07 R153). -/
theorem assemble_cases (a : Assembly) (d : RxData) :
    (∀ b, AssemblyMoves a d b → assemble a (some d) = .moved b) ∧
    (∀ b, BreaksFraming a d b → assemble a (some d) = .framing b) ∧
    (∀ x : Byte, d = .byte x → a = .number → 16 ≤ x.toNat → assemble a (some d) = .badNumber) ∧
    ∀ (n : Fin 16) bytes (hi lo : Byte), d = .byte lo → a = .check2 n bytes hi →
      ((n.val + (bytes.map BitVec.toNat).sum + (hi.toNat * 256 + lo.toNat)) % 65536 ≠ 0 →
        assemble a (some d) = .badCheck) ∧
      ((n.val + (bytes.map BitVec.toNat).sum + (hi.toNat * 256 + lo.toNat)) % 65536 = 0 →
        assemble a (some d) = .segment n bytes) := by
  refine ⟨fun b h => ?_, fun b h => ?_, fun x hd ha h => ?_, fun n bytes hi lo hd ha => ?_⟩
  · rcases h with ⟨rfl, rfl, rfl⟩ | ⟨rfl, h, rfl⟩ | ⟨rfl, n, x, rfl, e, rfl⟩ | ⟨n, bytes, x, rfl, rfl, h⟩ |
      ⟨n, bytes, rfl, rfl, rfl⟩ | ⟨n, bytes, x, rfl, rfl, rfl⟩
    · rfl
    · rcases h with rfl | rfl | ⟨x, rfl⟩ <;> rfl
    · unfold assemble assembleByte
      dsimp only
      rw [below_eq_some.mpr e]
    · unfold assemble assembleByte
      dsimp only
      rcases h with ⟨c, rfl⟩ | ⟨c, rfl⟩
      · rw [if_pos c]
      · rw [if_neg (by omega)]
    · rfl
    · rfl
  · obtain ⟨ha, h⟩ := h
    rcases h with ⟨rfl, rfl⟩ | ⟨rfl, rfl⟩ | ⟨rfl, no, rfl⟩ | ⟨n, bytes, x, rfl, rfl, rfl⟩
    · unfold assemble assembleBreak
      exact if_neg ha
    · unfold assemble assembleBreak
      exact if_neg ha
    · unfold assemble assembleEnd
      cases a <;> first | rfl | exact absurd rfl ha | exact absurd rfl (no _ _)
    · rfl
  · subst hd ha
    unfold assemble assembleByte
    dsimp only
    cases hb : below 16 x with
    | none => rfl
    | some n => exact absurd (below_eq_some.mp hb) (by omega)
  · subst hd ha
    unfold assemble assembleByte judgeSegment be16
    dsimp only
    exact ⟨fun h => if_neg h, fun h => if_pos h⟩

/-- The view of station time, the present instant and the settings. -/
def setView : View (TimeBase × Instant × Settings) :=
  { view := fun s => (s.time, s.now, s.settings), choices := fun _ _ => rfl, events := fun _ _ => rfl,
    runners := fun _ _ => rfl, rect := fun _ _ => rfl, captures := fun _ _ => rfl }

theorem setFarState_other (s : State) {f g : Feeder} (x : Option FeederState) (h : g ≠ f) :
    (recordsView g).view (s.setFarState f x) = (recordsView g).view s := by
  have a := records_apart h
  unfold State.setFarState
  split
  · rfl
  · rw [(recordsView g).judgeWaits, ← a.modSection s fun r => { r with farState := x }]
    generalize s.modSection f _ = u
    unfold State.regroup
    dsimp only
    split
    · exact (a.modFault ..).trans (a.modFeeder ..)
    · rfl

/-- A Feeder End segment at a Section Record, in the words of the statement (02 R28, R29). -/
theorem takeFeederEnd_section (s : State) (l : LinkId) (bytes : List Byte) (f : Feeder) :
    (s.takeFeederEnd l bytes f).section' f = { s.section' f with
      farSeen := some (s.time.now, s.now), staleFrom := some s.now, heard := true,
      matching := if (byteAt bytes 7).toNat = f.val ∧ byteAt bytes 8 ≠ 0 then .matched else .mismatch,
      farState :=
        if (byteAt bytes 7).toNat = f.val ∧ byteAt bytes 8 ≠ 0 then FeederState.ofCode (byteAt bytes 0).toNat
        else none } := by
  unfold State.takeFeederEnd State.mismatchEntry
  dsimp only
  rw [setFarState_section]
  have e (g : SectionRecord → SectionRecord) (c : Bool) (a b o d v w) :
      (if c = true then (s.modSection f g).addEntry a b o d v w else s.modSection f g).section' f = g (s.section' f) := by
    split <;> exact State.modSection_section_self s f g
  rw [e]
  simp only [decide_eq_true_eq]
  rfl

/-- The group in use of the feeder it concerns, and Fault Detection's copy of it (02 R33, 03 R50). -/
theorem takeFeederEnd_groups (s : State) (l : LinkId) (bytes : List Byte) (f : Feeder) (h : (s.config f).farLink ≠ none)
    (x : Option FeederState) (hx : x = ((s.takeFeederEnd l bytes f).section' f).farState) :
    (s.takeFeederEnd l bytes f).feeder f = { s.feeder f with group := s.groupAfter f x } ∧
      (s.takeFeederEnd l bytes f).fault f = (s.fault f).regrouped (s.feeder f).group (s.groupAfter f x) := by
  rw [takeFeederEnd_section] at hx
  unfold State.takeFeederEnd State.mismatchEntry
  dsimp only
  have e (t : State) (t1 : t.feeder f = s.feeder f) (t2 : t.fault f = s.fault f) (t3 : t.config f = s.config f)
      (t4 : (t.section' f).farState = (s.section' f).farState) :
      (t.setFarState f x).feeder f = { s.feeder f with group := s.groupAfter f x } ∧
        (t.setFarState f x).fault f = (s.fault f).regrouped (s.feeder f).group (s.groupAfter f x) := by
    have t5 : t.groupAfter f x = s.groupAfter f x := by unfold State.groupAfter; rw [t1, t4]
    obtain ⟨a, b⟩ := setFarState_groups t f x (by rw [t3]; exact h)
    rw [t1, t5] at a
    rw [t1, t2, t5] at b
    exact ⟨a, b⟩
  rw [show (if decide ((byteAt bytes 7).toNat = f.val ∧ byteAt bytes 8 ≠ 0#8) = true
    then FeederState.ofCode (byteAt bytes 0).toNat else none) = x by rw [hx]; simp only [decide_eq_true_eq]; rfl]
  refine e _ ?_ ?_ ?_ ?_
  · split <;> rfl
  · split <;> rfl
  · split <;> rfl
  · split <;> simp

theorem takeFeederEnd_other (s : State) (l : LinkId) (bytes : List Byte) {f g : Feeder} (h : g ≠ f) :
    (recordsView g).view (s.takeFeederEnd l bytes f) = (recordsView g).view s := by
  unfold State.takeFeederEnd State.mismatchEntry
  dsimp only
  rw [setFarState_other _ _ h]
  split
  · rw [(recordsView g).addEntry, (records_apart h).modSection]
  · rw [(records_apart h).modSection]

theorem takeFeederEnd_grows (s : State) (l : LinkId) (bytes : List Byte) (f : Feeder) :
    Grows s.events (s.takeFeederEnd l bytes f).events := by
  unfold State.takeFeederEnd State.mismatchEntry
  dsimp only
  refine Grows.trans ?_ ((Quiet.refl _).setFarState f _).grows
  split
  · exact Grows.addEntry (s.modSection f _) ..
  · exact .refl _

/-- SECTION MISMATCH of a Section Record that was MATCHED or unheard (02 R29; log 20). -/
theorem takeFeederEnd_mismatch (s : State) (l : LinkId) (bytes : List Byte) (f : Feeder)
    (h : ¬((byteAt bytes 7).toNat = f.val ∧ byteAt bytes 8 ≠ 0))
    (m : (s.section' f).matching = .matched ∨ (s.section' f).heard = false) :
    AddsEntry s (s.takeFeederEnd l bytes f) fun e => e.kind = .sectionMismatch ∧ e.subject = .feeder f ∧
      e.origin = .link l ∧ e.value1 = some ((byteAt bytes 7).toNat : Int) ∧
      e.value2 = some ((byteAt bytes 8).toNat : Int) := by
  have small (b : Byte) : inField (some (b.toNat : Int)) = true := by
    have := b.isLt
    simp [inField]
    omega
  unfold State.takeFeederEnd State.mismatchEntry
  dsimp only
  rw [if_pos]
  · generalize hu : s.modSection f _ = u
    refine AddsEntry.later (AddsEntry.earlier (AddsEntry.mono (AddsEntry.add u ..) ?_) ?_)
      ((Quiet.refl _).setFarState f _).grows
    · exact fun e ⟨a, b, c, _, _, v, w⟩ => ⟨a, b, c, v (small _), w (small _)⟩
    · rw [← hu]; exact .refl _
  · rw [show decide ((byteAt bytes 7).toNat = f.val ∧ byteAt bytes 8 ≠ 0#8) = false from decide_eq_false h]
    rcases m with m | m <;> rw [m] <;> simp

theorem mem_partnersOf (s : State) (l : LinkId) (g : Nat) (f : Feeder) :
    f ∈ s.partnersOf l g ↔ (s.config f).farLink = some l ∧ (s.config f).farFeeder.val = g := by
  unfold State.partnersOf State.feedersOn
  simp only [List.mem_filter, mem_eight, true_and, decide_eq_true_eq, and_comm]

/-- A Feeder End segment at every Section Record (02 R28, R29, R33; 03 R50). -/
theorem takePartners_takes (s : State) (l : LinkId) (n : Nat) (bytes : List Byte) (t : State)
    (ht : t = together ((s.partnersOf l (n - 1)).map fun f t => t.takeFeederEnd l bytes f) s) (hn : 1 ≤ n) (f : Feeder) :
    ((s.config f).farLink = some l → (s.config f).farFeeder.val + 1 = n →
      t.section' f = { s.section' f with
        farSeen := some (s.time.now, s.now), staleFrom := some s.now, heard := true,
        matching := if (byteAt bytes 7).toNat = f.val ∧ byteAt bytes 8 ≠ 0 then .matched else .mismatch,
        farState :=
          if (byteAt bytes 7).toNat = f.val ∧ byteAt bytes 8 ≠ 0 then FeederState.ofCode (byteAt bytes 0).toNat
          else none } ∧
      t.feeder f = { s.feeder f with group := s.groupAfter f (t.section' f).farState } ∧
      t.fault f = (s.fault f).regrouped (s.feeder f).group (t.feeder f).group ∧
      ((t.section' f).matching = .mismatch →
        (s.section' f).matching = .matched ∨ (s.section' f).heard = false →
        AddsEntry s t fun e => e.kind = .sectionMismatch ∧ e.subject = .feeder f ∧ e.origin = .link l ∧
          e.value1 = some ((byteAt bytes 7).toNat : Int) ∧ e.value2 = some ((byteAt bytes 8).toNat : Int))) ∧
    ((s.config f).farLink ≠ some l ∨ (s.config f).farFeeder.val + 1 ≠ n →
      t.section' f = s.section' f ∧ t.feeder f = s.feeder f ∧ t.fault f = s.fault f) := by
  refine ⟨fun a b => ?_, fun h => ?_⟩
  · have member : f ∈ s.partnersOf l (n - 1) := (mem_partnersOf ..).mpr ⟨a, by omega⟩
    have keep (u : State) (g : Feeder) : setView.view (u.takeFeederEnd l bytes g) = setView.view u :=
      takeFeederEnd_view setView (fun _ _ => rfl) (fun _ _ => rfl) (fun _ _ => rfl) u l bytes g
    generalize hx : (if (byteAt bytes 7).toNat = f.val ∧ byteAt bytes 8 ≠ 0 then
      FeederState.ofCode (byteAt bytes 0).toNat else none) = x
    have takes (u : State) : (u.takeFeederEnd l bytes f).section' f = { u.section' f with
        farSeen := some (u.time.now, u.now), staleFrom := some u.now, heard := true,
        matching := if (byteAt bytes 7).toNat = f.val ∧ byteAt bytes 8 ≠ 0 then .matched else .mismatch,
        farState := x } := by rw [takeFeederEnd_section, hx]
    let B (u : State) : Prop := setView.view u = setView.view s ∧ Grows s.events u.events ∧
      u.section' f = { s.section' f with
        farSeen := some (s.time.now, s.now), staleFrom := some s.now, heard := true,
        matching := if (byteAt bytes 7).toNat = f.val ∧ byteAt bytes 8 ≠ 0 then .matched else .mismatch,
        farState := x } ∧
      u.feeder f = { s.feeder f with group := s.groupAfter f x } ∧
      u.fault f = (s.fault f).regrouped (s.feeder f).group (s.groupAfter f x) ∧
      (¬((byteAt bytes 7).toNat = f.val ∧ byteAt bytes 8 ≠ 0) →
        (s.section' f).matching = .matched ∨ (s.section' f).heard = false →
        AddsEntry s u fun e => e.kind = .sectionMismatch ∧ e.subject = .feeder f ∧ e.origin = .link l ∧
          e.value1 = some ((byteAt bytes 7).toNat : Int) ∧ e.value2 = some ((byteAt bytes 8).toNat : Int))
    let A (u : State) : Prop := B u ∨ (setView.view u = setView.view s ∧ Grows s.events u.events ∧
      (recordsView f).view u = (recordsView f).view s)
    have far (u : State) (h : setView.view u = setView.view s) : (u.config f).farLink ≠ none := by
      have e : u.settings = s.settings := congrArg (fun v => v.2.2) h
      unfold State.config at a ⊢
      rw [e, a]
      exact nofun
    have groups (u : State) (h : setView.view u = setView.view s) :=
      takeFeederEnd_groups u l bytes f (far u h) x (by rw [takes])
    have now (u : State) (h : setView.view u = setView.view s) : u.time.now = s.time.now ∧ u.now = s.now :=
      ⟨congrArg (fun v => v.1.now) h, congrArg (fun v => v.2.1) h⟩
    have onB (u : State) (g : Feeder) (h : B u) : B (u.takeFeederEnd l bytes g) := by
      obtain ⟨h1, h2, h3, h4, h5, h6⟩ := h
      refine ⟨(keep u g).trans h1, h2.trans (takeFeederEnd_grows u l bytes g), ?_, ?_, ?_,
        fun x y => (h6 x y).later (takeFeederEnd_grows u l bytes g)⟩
      all_goals by_cases e : f = g
      · subst e
        rw [takes, h3, (now u h1).1, (now u h1).2]
      · exact (congrArg (fun v => v.2.1) (takeFeederEnd_other u l bytes e)).trans h3
      · subst e
        have same : u.groupAfter f x = s.groupAfter f x := by
          rw [show u.groupAfter f x = (u.feeder f).group from if_neg fun k => k.2 (by rw [h3]), h4]
        rw [(groups u h1).1, same, h4]
      · exact (congrArg Prod.fst (takeFeederEnd_other u l bytes e)).trans h4
      · subst e
        have same : u.groupAfter f x = (u.feeder f).group := if_neg fun k => k.2 (by rw [h3])
        rw [(groups u h1).2, same, show ∀ d : FaultRecord, d.regrouped (u.feeder f).group (u.feeder f).group = d from
          fun d => if_pos rfl, h5]
      · exact (congrArg (fun v => v.2.2) (takeFeederEnd_other u l bytes e)).trans h5
    have first (u : State) (h : setView.view u = setView.view s ∧ Grows s.events u.events ∧
        (recordsView f).view u = (recordsView f).view s) : B (u.takeFeederEnd l bytes f) := by
      obtain ⟨h1, h2, h3⟩ := h
      have e1 : u.feeder f = s.feeder f := congrArg Prod.fst h3
      have e2 : u.section' f = s.section' f := congrArg (fun v => v.2.1) h3
      have e3 : u.fault f = s.fault f := congrArg (fun v => v.2.2) h3
      have e4 : u.groupAfter f x = s.groupAfter f x := by unfold State.groupAfter; rw [e1, e2]
      obtain ⟨p, q⟩ := groups u h1
      refine ⟨(keep u f).trans h1, h2.trans (takeFeederEnd_grows u l bytes f), ?_, ?_, ?_, fun y z => ?_⟩
      · rw [takes, e2, (now u h1).1, (now u h1).2]
      · rw [p, e1, e4]
      · rw [q, e1, e3, e4]
      · exact (takeFeederEnd_mismatch u l bytes f y (by rw [e2]; exact z)).earlier h2
    have done : B t := by
      rw [ht]
      refine together_reaches (A := A) (B := B) s (fun _ _ => ⟨id, id⟩) (fun part hm u => ?_)
        (List.mem_map.mpr ⟨f, member, rfl⟩) (fun u h => h.elim (onB u f) (first u)) (.inr ⟨rfl, .refl _, rfl⟩)
      obtain ⟨g, _, rfl⟩ := List.mem_map.mp hm
      refine ⟨fun h => ?_, onB u g⟩
      rcases h with h | h
      · exact .inl (onB u g h)
      · by_cases e : f = g
        · subst e; exact .inl (first u h)
        · exact .inr ⟨(keep u g).trans h.1, h.2.1.trans (takeFeederEnd_grows u l bytes g),
            (takeFeederEnd_other u l bytes e).trans h.2.2⟩
    obtain ⟨_, _, d, e, e', e6⟩ := done
    refine ⟨d, by rw [e, d], by rw [e', e], fun y z => e6 (fun k => ?_) z⟩
    rw [d] at y
    exact absurd ((if_pos k).symm.trans y) (by decide)
  · have v := (recordsView f).together s ((s.partnersOf l (n - 1)).map fun f t => t.takeFeederEnd l bytes f) fun part hm u => by
      obtain ⟨g, hg, rfl⟩ := List.mem_map.mp hm
      refine takeFeederEnd_other u l bytes fun e => ?_
      subst e
      obtain ⟨x, y⟩ := (mem_partnersOf ..).mp hg
      rcases h with h | h
      · exact h x
      · exact h (by omega)
    rw [← ht] at v
    exact ⟨congrArg (fun x => x.2.1) v, congrArg Prod.fst v, congrArg (fun x => x.2.2) v⟩

theorem modLink_self (s : State) (l : LinkId) (g : SectionLink → SectionLink) : (s.modLink l g).link l = g (s.link l) := by
  rw [link_modLink, if_pos rfl]

theorem modLink_other (s : State) {l m : LinkId} (g : SectionLink → SectionLink) (h : m ≠ l) :
    (s.modLink l g).link m = s.link m := by
  rw [link_modLink, if_neg h]

theorem linkEntry_link (s : State) (l : LinkId) (k : EventKind) (d : Detail) (v w : Option Int) (m : LinkId) :
    (s.linkEntry l k d v w).link m = s.link m := rfl

/-- A good System segment, in the words of the statement (07 R148; 08, Following). -/
theorem takeSystem_takes (s : State) (l : LinkId) (bytes : List Byte) (t : State) (ht : t = s.takeSystem l bytes) :
    t.link l = { s.link l with
      farStation := (t.link l).farStation, conflict := (t.link l).conflict,
      conflictReported := (t.link l).conflictReported } ∧
    (∀ m, m ≠ l → t.link m = s.link m) ∧ t.feeders = s.feeders ∧ t.sections = s.sections ∧ t.faults = s.faults ∧
    (t.link l).farStation =
      (if byteAt bytes 0 = 0 ∨ byteAt bytes 0 = 255 then none else some (byteAt bytes 0).toNat) ∧
    ((t.link l).conflict = true ↔ (t.link l).farStation = some s.station.stationNumber) ∧
    ((t.link l).conflict = true → (s.link l).conflict = false → (s.link l).conflictReported = false →
      (t.link l).conflictReported = true ∧ AddsEntry s t fun e => e.kind = .numberConflict ∧
        e.subject = .link l ∧ e.origin = .link l ∧
        (s.station.stationNumber < 2147483648 → e.value1 = some (s.station.stationNumber : Int))) ∧
    ((t.link l).conflict = false ∨ (s.link l).conflict = true ∨ (s.link l).conflictReported = true →
      (t.link l).conflictReported = (s.link l).conflictReported ∧ t.events = s.events) ∧
    (s.followed ≠ some l → t.time = s.time) ∧
    (s.followed = some l → t.time = { s.time with
      upstream := some
        { role := byteAt bytes 1, quality := byteAt bytes 2, delay := wordAt bytes 3,
          nextMark := wordAt bytes 7, arrival := s.now } }) := by
  have small (n : Nat) (h : n < 2147483648) : inField (some (n : Int)) = true := by
    simp [inField]
    omega
  have number : farNumber (byteAt bytes 0) =
      (if byteAt bytes 0 = 0 ∨ byteAt bytes 0 = 255 then none else some (byteAt bytes 0).toNat) := rfl
  have up (u : State) (x : Upstream) : (u.takeUpstream l x).links = u.links ∧
      (u.takeUpstream l x).feeders = u.feeders ∧ (u.takeUpstream l x).sections = u.sections ∧
      (u.takeUpstream l x).faults = u.faults ∧
      (u.takeUpstream l x).events = u.events ∧ (u.followed ≠ some l → (u.takeUpstream l x).time = u.time) ∧
      (u.followed = some l → (u.takeUpstream l x).time = { u.time with upstream := some x }) := by
    unfold State.takeUpstream
    split
    · rename_i h; exact ⟨rfl, rfl, rfl, rfl, rfl, fun k => absurd h k, fun _ => rfl⟩
    · rename_i h; exact ⟨rfl, rfl, rfl, rfl, rfl, fun _ => rfl, fun k => absurd k h⟩
  unfold State.takeSystem at ht
  generalize hx : Upstream.mk (byteAt bytes 1) (byteAt bytes 2) (wordAt bytes 3) (wordAt bytes 7) s.now = x at *
  generalize hu : (s.modLink l fun k => { k with farStation := farNumber (byteAt bytes 0) }).judgeConflict l = u at ht
  obtain ⟨a, b, c, flt, d, e, f⟩ := up u x
  rw [← ht] at a b c d e f flt
  have lk (m : LinkId) : t.link m = u.link m := by unfold State.link; rw [a]
  simp only [lk]
  clear ht
  unfold State.judgeConflict at hu
  dsimp only at hu
  rw [modLink_modLink, link_modLink, if_pos rfl] at hu
  dsimp only at hu
  generalize hc : (farNumber (byteAt bytes 0) == some s.station.stationNumber) = n at hu
  have hc' : n = true ↔ farNumber (byteAt bytes 0) = some s.station.stationNumber := by rw [← hc, beq_iff_eq]
  rw [show (s.modLink l fun k => { k with farStation := farNumber (byteAt bytes 0) }).station = s.station from rfl, hc,
    modLink_modLink] at hu
  split at hu
  · rename_i h
    simp only [Bool.and_eq_true, Bool.not_eq_true'] at h
    obtain ⟨⟨h1, h2⟩, h3⟩ := h
    have self : u.link l = { s.link l with
        farStation := farNumber (byteAt bytes 0), conflict := n, conflictReported := true } := by
      rw [← hu]
      simp only [linkEntry_link, modLink_self]
    refine ⟨by rw [self], fun m hm => ?_, b.trans (by rw [← hu]; rfl), c.trans (by rw [← hu]; rfl),
      flt.trans (by rw [← hu]; rfl), by rw [self, number],
      by rw [self]; exact hc', fun _ _ _ => ⟨by rw [self], ?_⟩, fun k => ?_, fun k => ?_, fun k => ?_⟩
    · rw [← hu]
      simp only [linkEntry_link, modLink_other _ _ hm]
    · refine AddsEntry.later (t := u) ?_ (by rw [d]; exact .refl _)
      rw [← hu]
      refine AddsEntry.mono (AddsEntry.earlier (AddsEntry.add (s.modLink l _) ..) (.refl _)) ?_
      exact fun e ⟨p, q, r, _, _, v, _⟩ => ⟨p, q, r, fun h => v (small _ h)⟩
    · rw [self] at k
      rcases k with k | k | k
      · rw [show n = false from k] at h1; cases h1
      · rw [k] at h2; cases h2
      · rw [k] at h3; cases h3
    · exact (e (by rw [← hu]; exact k)).trans (by rw [← hu]; rfl)
    · exact (f (by rw [← hu]; exact k)).trans (by rw [← hu]; rfl)
  · rename_i h
    have self : u.link l = { s.link l with farStation := farNumber (byteAt bytes 0), conflict := n } := by
      rw [← hu]
      simp only [modLink_self]
    refine ⟨by rw [self], fun m hm => ?_, b.trans (by rw [← hu]; rfl), c.trans (by rw [← hu]; rfl),
      flt.trans (by rw [← hu]; rfl), by rw [self, number],
      by rw [self]; exact hc', fun h1 h2 h3 => absurd ?_ h, fun k => ⟨by rw [self], d.trans (by rw [← hu]; rfl)⟩,
      fun k => ?_, fun k => ?_⟩
    · rw [← hu]
      simp only [modLink_other _ _ hm]
    · rw [self] at h1
      rw [show n = true from h1, h2, h3]
      rfl
    · exact (e (by rw [← hu]; exact k)).trans (by rw [← hu]; rfl)
    · exact (f (by rw [← hu]; exact k)).trans (by rw [← hu]; rfl)

theorem ofList_cells (bytes : List Byte) (h : bytes.length = 16) : (File.ofList 16 (0 : Byte) bytes).cells = bytes := by
  unfold File.ofList
  refine List.ext_getElem (by simp [h]) fun i _ k => ?_
  simp [k]

/-- A good segment acts as the statement says (07 R154). -/
theorem takeSegment_takes (s : State) (l : LinkId) (n : Fin 16) (bytes : List Byte) (h16 : bytes.length = 16) :
    TakesSegment s ((s.modLink l fun k => { k with assembly := .idle }).takeSegment l n bytes) l n bytes := by
  generalize ht : (s.modLink l fun k => { k with assembly := .idle }).takeSegment l n bytes = t
  unfold State.takeSegment at ht
  dsimp only at ht
  rw [modLink_modLink] at ht
  generalize hcopy : (InSegment.mk (File.ofList 16 0 bytes) (some (s.time.now, s.now)) (File.fill 3 (decide (9 ≤ n.val)))) = copy at *
  have c1 : copy.bytes.cells = bytes := by rw [← hcopy]; exact ofList_cells bytes h16
  have c2 : copy.arrival = some (s.time.now, s.now) := by rw [← hcopy]
  have c3 (p : Port) : copy.fresh.get p.index = decide (9 ≤ n.val) := by
    rw [← hcopy]
    cases p <;> cases decide (9 ≤ n.val) <;> rfl
  have ht : (if n.val = 0 then (s.modLink l fun k => { k with assembly := .idle, incoming := k.incoming.set n copy }).takeSystem l bytes
      else if n.val ≤ 8 then together
        (((s.modLink l fun k => { k with assembly := .idle, incoming := k.incoming.set n copy }).partnersOf l (n.val - 1)).map
          fun f t => t.takeFeederEnd l bytes f)
        (s.modLink l fun k => { k with assembly := .idle, incoming := k.incoming.set n copy })
      else s.modLink l fun k => { k with assembly := .idle, incoming := k.incoming.set n copy }) = t := by
    rw [← ht, ← hcopy]
    rfl
  generalize hu : (s.modLink l fun k => { k with assembly := .idle, incoming := k.incoming.set n copy }) = u at ht
  have ul : u.link l = { s.link l with assembly := .idle, incoming := (s.link l).incoming.set n copy } := by
    rw [← hu, modLink_self]
  have un (m : LinkId) (h : m ≠ l) : u.link m = s.link m := by rw [← hu, modLink_other _ _ h]
  have self : (u.link l).incoming.get n = copy := by rw [ul]; exact File.get_set_self ..
  have keep (m : Fin 16) (h : m ≠ n) : (u.link l).incoming.get m = (s.link l).incoming.get m := by
    rw [ul]
    exact File.get_set_ne _ _ h
  have far : (u.link l).farStation = (s.link l).farStation ∧ (u.link l).conflict = (s.link l).conflict ∧
      (u.link l).conflictReported = (s.link l).conflictReported := by
    rw [ul]
    exact ⟨rfl, rfl, rfl⟩
  unfold TakesSegment
  split at ht
  · rename_i n0
    obtain ⟨a, b, c, d, flt, e, f, g, g', i, j⟩ := takeSystem_takes u l bytes t ht.symm
    have inc : (t.link l).incoming = (u.link l).incoming := by rw [a]
    have inc' (m : Fin 16) : (t.link l).incoming.get m = (u.link l).incoming.get m := by rw [inc]
    have ue : u.events = s.events := by rw [← hu]; rfl
    rw [far.2.1, far.2.2] at g g'
    refine ⟨by rw [a, ul], fun m h => (b m h).trans (un m h), ?_, ?_, fun p => ?_, fun m h => ?_, fun h => absurd n0 h,
      fun h => absurd n0 (by omega), fun _ => ⟨?_, ?_, flt.trans (by rw [← hu]; rfl), e, ?_, fun x y z => ?_, fun x => ?_, fun x => ?_, fun x => ?_⟩,
      fun h => absurd n0 (by omega)⟩
    · rw [inc', self, c1]
    · rw [inc', self, c2]
    · rw [inc', self, c3]
    · rw [inc', keep m h]
    · rw [c, ← hu]; rfl
    · rw [d, ← hu]; rfl
    · rw [f, ← hu]; rfl
    · obtain ⟨p, q⟩ := g x y z
      refine ⟨p, ?_⟩
      rw [show u.station = s.station by rw [← hu]; rfl] at q
      exact q.earlier (by rw [ue]; exact .refl _)
    · exact ⟨(g' x).1, (g' x).2.trans ue⟩
    · exact (i (by rw [← hu]; exact x)).trans (by rw [← hu]; rfl)
    · exact (j (by rw [← hu]; exact x)).trans (by rw [← hu]; rfl)
  · rename_i n0
    split at ht
    · rename_i n8
      have leaves {β : Type} (V : View β) (hs : ∀ u x, V.view { u with sections := x } = V.view u)
          (hf : ∀ u x, V.view { u with feeders := x } = V.view u) (hg : ∀ u x, V.view { u with faults := x } = V.view u) :
          V.view t = V.view u := by
        rw [← ht]
        refine V.together _ _ fun part hm v => ?_
        obtain ⟨f, _, rfl⟩ := List.mem_map.mp hm
        exact takeFeederEnd_view V hs hf hg v l bytes f
      have lk : t.links = u.links := leaves linksView (fun _ _ => rfl) (fun _ _ => rfl) fun _ _ => rfl
      have lk (m : LinkId) : t.link m = u.link m := by unfold State.link; rw [lk]
      have tm : t.time = u.time := leaves timeView (fun _ _ => rfl) (fun _ _ => rfl) fun _ _ => rfl
      simp only [lk]
      refine ⟨by rw [ul], un, by rw [self, c1], by rw [self, c2], fun p => by rw [self, c3], keep, fun _ => far,
        fun h => by omega, fun h => absurd h n0, fun h1 _ => ⟨tm.trans (by rw [← hu]; rfl), fun f => ?_⟩⟩
      obtain ⟨x, y⟩ := takePartners_takes u l n.val bytes t ht.symm h1 f
      have us : u.section' f = s.section' f := by rw [← hu]; rfl
      have uf : u.feeder f = s.feeder f := by rw [← hu]; rfl
      have ud : u.fault f = s.fault f := by rw [← hu]; rfl
      have ug (z : Option FeederState) : u.groupAfter f z = s.groupAfter f z := by unfold State.groupAfter; rw [uf, us]
      have ut : u.time = s.time := by rw [← hu]; rfl
      have uw : u.now = s.now := by rw [← hu]; rfl
      rw [us, ut, uw, uf, ud, ug, show u.config f = s.config f by rw [← hu]; rfl] at x
      rw [us, uf, ud, show u.config f = s.config f by rw [← hu]; rfl] at y
      exact ⟨fun p q => ⟨(x p q).1, (x p q).2.1, (x p q).2.2.1,
        fun v w => ((x p q).2.2.2 v w).earlier (by rw [← hu]; exact .refl _)⟩, y⟩
    · rename_i n8
      have e : t = u := ht.symm
      subst e
      refine ⟨by rw [ul], un, by rw [self, c1], by rw [self, c2], fun p => by rw [self, c3], keep, fun _ => far,
        fun h => ?_, fun h => absurd h n0, fun _ h => absurd h n8⟩
      rw [ul, ← hu]
      rfl

/-- The data of a good word acts as the statement says (07 R152, R153). -/
theorem takeData_acts (s : State) (l : LinkId) (d : RxData) : DataActs s (s.takeData l (some d)) l d := by
  obtain ⟨a, b, c, e⟩ := assemble_cases (s.link l).assembly d
  unfold DataActs State.takeData
  dsimp only
  refine ⟨fun x h => ?_, fun x h => ?_, fun x h1 h2 h3 => ?_, fun n bytes hi lo h1 h2 => ⟨fun h => ?_, fun h k => ?_⟩⟩
  · rw [a x h]
  · rw [b x h]
    rfl
  · rw [c x h1 h2 h3]
    rfl
  · rw [(e n bytes hi lo h1 h2).1 h]
    rfl
  · rw [(e n bytes hi lo h1 h2).2 h]
    exact takeSegment_takes s l n bytes k

end Sys2Proof.Machine
end

