-- ==== Sys2Proof/Laws/Marks.lean ====
section
/-! SUPPORT. What a second mark received and the signals of the claim protocol do, as the statements say it (08 R164,
R165; 07 R144 to R147). -/

set_option Elab.async false

namespace Sys2Proof.Machine

/-! ### Claims -/

theorem withdrawFar_links (s : State) (f : Feeder) (g : Feeder → Signal) {l : LinkId}
    (h : (s.config f).farLink = some l) : (s.withdrawFar f g).link l = (s.link l).withdraw (g (s.config f).farFeeder) := by
  unfold State.withdrawFar
  rw [h]
  exact modLink_self ..

/-- A grant as the statement says it (07 R144). -/
theorem grantFar_grants (s : State) (l : LinkId) (g : Feeder) (h : (s.config g).farLink = some l) :
    (s.grantFar g).feeders = s.feeders ∧ (s.grantFar g).faults = s.faults ∧ (s.grantFar g).events = s.events ∧
    (s.grantFar g).section' g = { s.section' g with claim := .grantedToFar, claimDeadline := some (s.now + 200000000) } ∧
    ((s.grantFar g).link l).pendingSet = ((s.link l).post (.testGrant (s.config g).farFeeder)).pendingSet := by
  have far (u : State) (f : Feeder) (k : Feeder → Signal) : (u.postFar f k).feeders = u.feeders ∧
      (u.postFar f k).faults = u.faults ∧ (u.postFar f k).events = u.events ∧
      (u.postFar f k).sections = u.sections := by
    unfold State.postFar
    split <;> exact ⟨rfl, rfl, rfl, rfl⟩
  have claim (u : State) (c : ClaimState) (d : Option Instant) :
      (u.setClaim g c d).feeders = u.feeders ∧ (u.setClaim g c d).faults = u.faults := by
    unfold State.setClaim State.queueFeederEnd
    dsimp only
    split
    · exact ⟨rfl, rfl⟩
    · split <;> exact ⟨rfl, rfl⟩
  obtain ⟨a, a', b, c⟩ := far s g .testGrant
  unfold State.grantFar
  refine ⟨(claim ..).1.trans a, (claim ..).2.trans a', (setClaim_events ..).1.trans b, ?_, ?_⟩
  · rw [setClaim_section, section_of_sections c]
    rfl
  · rw [setClaim_pendingSet, postFar_link _ h]

theorem post_only (k : SectionLink) (g x : Signal) (h : x ≠ g) (hk : ∀ e ∈ k.pendingSet, e.signal ≠ x) (d : Option Instant) :
    ∀ e ∈ (k.post g d).pendingSet, e.signal ≠ x := by
  intro e he
  unfold SectionLink.post at he
  split at he
  · exact hk e he
  · split at he
    · obtain ⟨y, hy, rfl⟩ := List.mem_map.mp he
      split
      · rename_i i; exact hk y hy
      · exact hk y hy
    · rcases List.mem_append.mp he with m | m
      · exact hk e m
      · rw [List.mem_singleton.mp m]
        exact fun i => h i.symm

theorem post_once (k : SectionLink) (g : Signal) (d : Option Instant) (up : k.state = .up) :
    ∃ e ∈ (k.post g d).pendingSet, e.signal = g ∧ e.repeats = g.copies := by
  unfold SectionLink.post
  rw [if_neg (by rw [up]; decide)]
  split
  · rename_i h
    obtain ⟨e, he, k⟩ := List.any_eq_true.mp h
    have k := of_decide_eq_true k
    exact ⟨_, List.mem_map.mpr ⟨e, he, rfl⟩, by rw [if_pos k]; exact k, by rw [if_pos k]⟩
  · exact ⟨_, List.mem_append.mpr (.inr (List.mem_singleton.mpr rfl)), rfl, rfl⟩

/-- A TEST CLAIM acts as the statement says (07 R144, R145). -/
theorem takeClaim_acts (s : State) (l : LinkId) (g : Feeder) : ClaimActs s (s.takeClaim l g) l g := by
  refine ⟨takeClaim_posts s l g, fun far free ready h => ?_, fun h => ?_⟩
  · have enter : s.takeClaim l g = if (s.section' g).claim = .claimSent then (s.withdrawFar g .testClaim).grantFar g
        else s.grantFar g := by
      unfold State.takeClaim State.crossedClaim
      rw [if_pos (by rw [free, ready, far]; simp)]
      rcases h with ⟨a, b⟩ | b | ⟨b, n, c, d⟩
      · rw [b]
        dsimp only
        rw [if_neg a, if_neg (by decide)]
      · rw [b]
        dsimp only
        rw [if_neg (by decide)]
      · rw [b]
        dsimp only
        rw [c]
        dsimp only
        rw [if_pos d, if_pos rfl]
    rw [enter]
    split
    · rename_i sent
      obtain ⟨a, a', b, c, d⟩ := grantFar_grants (s.withdrawFar g .testClaim) l g (by
        unfold State.withdrawFar
        split <;> exact far)
      have q : (s.withdrawFar g .testClaim).feeders = s.feeders ∧
          (s.withdrawFar g .testClaim).faults = s.faults ∧ (s.withdrawFar g .testClaim).events = s.events ∧
          (s.withdrawFar g .testClaim).section' g = s.section' g ∧ (s.withdrawFar g .testClaim).now = s.now ∧
          (s.withdrawFar g .testClaim).config g = s.config g := by
        unfold State.withdrawFar
        split <;> exact ⟨rfl, rfl, rfl, rfl, rfl, rfl⟩
      obtain ⟨q1, q1', q2, q3, q4, q5⟩ := q
      rw [q3, q4] at c
      rw [q5, withdrawFar_links s g _ far] at d
      refine ⟨a.trans q1, a'.trans q1', b.trans q2, c, fun up => ?_, fun _ => ?_⟩
      · rw [d]
        exact post_once _ _ _ (show ((s.link l).withdraw _).state = .up from up)
      · rw [d]
        refine post_only _ _ (.testClaim (s.config g).farFeeder) (by intro k; cases k) (fun e he => ?_) _
        have := (List.mem_filter.mp he).2
        exact of_decide_eq_true this
    · rename_i n
      obtain ⟨a, a', b, c, d⟩ := grantFar_grants s l g far
      refine ⟨a, a', b, c, fun up => ?_, fun k => absurd k n⟩
      rw [d]
      exact post_once _ _ _ up
  · unfold State.takeClaim State.crossedClaim
    rcases h with h | h | h | ⟨h, k⟩ | h | ⟨h, k⟩
    · rw [if_neg (by simp [h])]
    · rw [if_neg (by simp [h])]
    · rw [if_neg (by simp [h])]
    · rw [h]
      dsimp only
      rw [if_pos k]
      exact ite_self s
    · rw [h]
      dsimp only
      exact ite_self s
    · rw [h]
      dsimp only
      cases hn : (s.link l).farStation with
      | none => exact ite_self s
      | some n =>
        dsimp only
        rw [if_neg (show ¬n < s.station.stationNumber by have := k n hn; omega)]
        exact ite_self s

/-- The end of a close posts nothing by itself (04 R74). -/
theorem endClose_pendingSet (s : State) (f : Feeder) (op : Operation) (x : CloseResult)
    (next : FeederRecord → FeederRecord) (l : LinkId) :
    ((s.endClose f op x next).link l).pendingSet = (s.link l).pendingSet := by
  unfold State.endClose State.closeEnded State.closeResultEntry
  rw [feederNotices_pendingSet]
  exact congrArg (fun v => (File.get v l.index).pendingSet) (linksView.closeToRunners _ f x)

/-- A TEST DONE acts as the statement says (07 R147). -/
theorem takeDone_acts (s : State) (l : LinkId) (g : Feeder) : DoneActs s (s.takeDone l g) l g := by
  refine ⟨takeDone_posts s l g, fun far claim => ?_, fun h => ?_⟩
  · have e : s.takeDone l g = s.grantEnded g := if_pos ⟨claim, far⟩
    rw [e]
    refine ⟨onlyFeeder_of ((Quiet.refl s).grantEnded g) fun x n => (records_apart n).grantEnded s, grantEnded_ends s g,
      fun a b => ?_⟩
    unfold State.grantEnded
    dsimp only
    rw [setClaim_feeder, b]
    split
    · rename_i k _; exact absurd k a
    · rename_i k; cases k
    · exact (setClaim_events ..).1
  · refine if_neg fun k => ?_
    rcases h with h | h
    · exact h k.2
    · exact h k.1

/-- A TEST GRANT acts as the statement says (07 R146, 04 R69). -/
theorem takeGrant_acts (s : State) (l : LinkId) (g : Feeder) : GrantActs s (s.takeGrant l g) l g := by
  refine ⟨takeGrant_posts s l g, fun op far claim hop => ?_, fun h => ?_⟩
  · refine ⟨onlyFeeder_of ((Quiet.refl s).takeGrant l g) fun x n => (records_apart n).takeGrant s l, ?_, ?_⟩
    · unfold State.takeGrant
      rw [if_pos ⟨claim, far⟩]
      dsimp only
      rw [setClaim_feeder, hop]
      exact (enterTesting_hands ..).earlier (ground_setClaim ..) (by rw [setClaim_feeder])
    have e : s.takeGrant l g = (s.setClaim g .grantedToUs none).enterTesting g op .claimed := by
      unfold State.takeGrant
      rw [if_pos ⟨claim, far⟩]
      dsimp only
      rw [setClaim_feeder, hop]
    rw [e]
    have us := setClaim_section s g .grantedToUs none
    have uf := setClaim_feeder s g .grantedToUs none g
    have ue := (setClaim_events s g .grantedToUs none).1
    have uq := (Quiet.refl s).setClaim g .grantedToUs none
    have ul := setClaim_links s g .grantedToUs none
    have uc := uq.config g
    generalize s.setClaim g .grantedToUs none = u at *
    unfold State.enterTesting
    refine ⟨fun v => ?_, fun v => ?_⟩
    · rw [if_pos (by rw [uq.sample]; exact v)]
      dsimp only
      rw [section_of_sections (feederNotices_sections _ _ g), feederNotices_feeder, State.modFeeder_feeder_self]
      refine ⟨us, rfl, ?_⟩
      show some _ = some _
      rw [uq.now, uc]
      rfl
    · rw [if_neg (by rw [uq.sample]; exact v)]
      obtain ⟨a, _, _⟩ := releaseClaim_gives u g
      obtain ⟨b, c⟩ := a (.inl (by rw [us]))
      have back := waitOrOpen_back u g op
      have ent := endClose_entry (u.releaseClaim g) g op (.interlocked .measurementLost) (u.waitOrOpen g op)
      refine ⟨?_, ?_, fun up => ?_, ?_⟩
      · rw [section_of_sections (endClose_sections _ g op _ _), b, us]
      · rw [endClose_feeder, if_pos rfl, releaseClaim_feeder, back]
        unfold State.backRecord State.waitRecord State.openRecord
        rw [uf, uq.now, uc]
      · obtain ⟨e, m, k⟩ := c l (by rw [uc]; exact far) ((ul l).1.trans up)
        refine ⟨e, ?_, by rw [← uc]; exact k⟩
        rw [endClose_pendingSet]
        exact m
      · have q := (Quiet.refl u).releaseClaim g
        refine AddsEntry.earlier (AddsEntry.mono ent fun e h => ?_) (by rw [← ue]; exact q.grows)
        unfold IsCloseResult at h ⊢
        rw [q.now, uq.now] at h
        exact h
  · refine if_neg fun k => ?_
    rcases h with h | h
    · exact h k.2
    · exact h k.1

/-! ### Second marks -/

theorem markUnused_some (s : State) (late : Bool) (r : UnusedReason) (h : s.markFails late r) :
    s.markUnused late = some r := by
  unfold State.markUnused
  rcases h with ⟨rfl, rfl⟩ | ⟨rfl, ⟨rfl, c⟩ | ⟨f, ⟨rfl, n⟩ | ⟨rfl, u, hu, a, q⟩⟩⟩
  · rfl
  · rw [if_neg (by simp), if_pos (by rw [c]; decide)]
  · rw [if_neg (by simp), if_neg (by rw [f]; decide)]
    cases hu : s.time.upstream with
    | none => rfl
    | some u => exact if_pos (n u hu)
  · rw [if_neg (by simp), if_neg (by rw [f]; decide), hu]
    dsimp only
    rw [if_neg (show ¬u.arrival + ms 50 < s.now from Nat.not_lt.mpr a), if_pos (by rw [q]; rfl)]

theorem markUnused_none (s : State) (late : Bool) (h : ∀ r, ¬s.markFails late r) : s.markUnused late = none := by
  cases hr : s.markUnused late with
  | none => rfl
  | some r =>
    refine absurd ?_ (h r)
    unfold State.markUnused at hr
    unfold State.markFails
    cases late with
    | true => exact .inl ⟨(Option.some.inj hr).symm, rfl⟩
    | false =>
      refine .inr ⟨rfl, ?_⟩
      rw [if_neg (by simp)] at hr
      split at hr
      · rename_i f
        refine .inl ⟨(Option.some.inj hr).symm, ?_⟩
        cases hf : s.time.follow with
        | following => exact absurd hf f
        | conflict => rfl
      · rename_i f
        have f : s.time.follow = .following := by simpa using f
        refine .inr ⟨f, ?_⟩
        split at hr
        · rename_i u hu
          split at hr
          · rename_i old
            refine .inl ⟨(Option.some.inj hr).symm, fun v hv => ?_⟩
            rw [hu] at hv
            cases hv
            exact old
          · rename_i new
            split at hr
            · rename_i q
              refine .inr ⟨(Option.some.inj hr).symm, u, hu, ?_, ?_⟩
              · exact Nat.not_lt.mp new
              · exact BitVec.eq_of_toNat_eq q
            · cases hr
        · rename_i hu
          exact .inl ⟨(Option.some.inj hr).symm, fun v hv => by rw [hu] at hv; cases hv⟩

theorem endSlew_eq (t : TimeBase) : t.endSlew = t.slewOver := by
  unfold TimeBase.endSlew TimeBase.slewOver TimeBase.slewDue TimeBase.slewing TimeBase.rise
  dsimp only
  have e : (match t.slew with
      | some k => k != 0
      | none => false) = true ↔ ∃ k ∈ t.slew, k ≠ 0 := by
    cases t.slew with
    | none => simp
    | some k => simp
  by_cases h : (∃ k ∈ t.slew, k ≠ 0) ∧ 2000 ≤ t.slewCount
  · rw [if_pos h, if_pos (by rw [Bool.and_eq_true]; exact ⟨e.mpr h.1, decide_eq_true h.2⟩)]
  · rw [if_neg h, if_neg (by rw [Bool.and_eq_true]; exact fun k => h ⟨e.mp k.1, of_decide_eq_true k.2⟩)]

/-- Quality takes a value with TIME QUALITY and the System segment where that is a change (08 R160, R166). -/
theorem qualityChange_acts (s : State) (q : TimeQuality) (l : LinkId) (t : State) (ht : t = s.qualityChange q l) :
    t = { s with time := t.time, links := t.links, events := t.events, choices := t.choices } ∧
    t.time = { s.time with quality := q } ∧ Grows s.events t.events ∧
    (s.time.quality = q → t = s) ∧
    (s.time.quality ≠ q → t.links = s.links.map (fun k => k.queue 0) ∧
      AddsEntry s t fun e => e.kind = .timeQuality ∧ e.subject = .nothing ∧ e.origin = .link l ∧
        e.detail = .quality q ∧ e.value1 = some (s.time.quality.code : Int)) := by
  unfold State.qualityChange at ht
  split at ht
  · rename_i h
    subst ht
    exact ⟨rfl, by rw [← h], .refl _, fun _ => rfl, fun k => absurd h k⟩
  · rename_i h
    generalize hu : s.setQuality q = u at ht
    rw [setQuality_eq, if_neg h] at hu
    have small : inField (some (s.time.quality.code : Int)) = true := by cases s.time.quality <;> decide
    have a := AddsEntry.add u .timeQuality .nothing (linkOrigin l) (.quality q) (some (s.time.quality.code : Int)) none none
    rw [← ht] at a
    have g : Grows u.events t.events := by rw [ht]; exact Grows.addEntry ..
    have ue : u.events = s.events := by rw [← hu]
    refine ⟨by rw [ht, ← hu]; rfl, by rw [ht, ← hu]; rfl, by rw [← ue]; exact g, fun k => absurd k h, fun _ => ⟨?_, ?_⟩⟩
    · rw [ht, ← hu]; rfl
    · exact (a.mono fun e ⟨a, b, c, d, _, v, _⟩ => ⟨a, b, c, d, v small⟩).earlier (by rw [ue]; exact .refl _)

/-- A second mark received acts as the statement says (08 R164, R165). -/
theorem takeMark_acts (s : State) (l : LinkId) (late : Bool) : MarkActs s (s.takeMark l late) l late := by
  have cap (d : Int) : inField (some (offsetUs d)) = true := by
    unfold offsetUs capSigned
    simp only [inField]
    simp
  refine ⟨fun h => if_neg h, fun r h k => ?_, fun u d h usable up hd => ?_⟩
  · unfold State.takeMark
    rw [if_pos h, markUnused_some s late r k]
    rfl
  · unfold State.takeMark
    rw [if_pos h, markUnused_none s late usable, up]
    dsimp only
    unfold State.judgeMark
    have units : (s.time.now.units : Int) -
        ((StationTime.mk u.nextMark (s.link l).oneWay).units : Int) = d := by rw [hd]; rfl
    dsimp only
    rw [units]
    generalize hr : s.recordMark d (markAction s.time.quality d) = r
    have rl : r.linkQuality l = s.markQuality l := by rw [← hr]; rfl
    have re : r.events = s.events := by rw [← hr]; rfl
    have rq : r.time.quality = s.time.quality := by rw [← hr]; rfl
    have rk : r.links = s.links := by rw [← hr]; rfl
    have rn : r.time.now = s.time.now := by rw [← hr]; rfl
    have rt : r.time = s.markTaken d (markAction s.time.quality d) := by rw [← hr]; rfl
    have rs : r = { s with time := r.time } := by rw [← hr]; rfl
    clear hr
    by_cases step : s.time.quality = .unset ∨ d < -100000
    · have act : markAction s.time.quality d = .step := if_pos step
      rw [act] at rt ⊢
      dsimp only
      unfold State.timeStep
      dsimp only
      rw [rn, rq, show r.linkQuality l = s.markQuality l from rl]
      generalize hv : ({ r with time := r.time.setNow { seconds := u.nextMark, fraction := (s.link l).oneWay } } : State) = v
      generalize hw : v.addEntry .timeStep .nothing (linkOrigin l) (.timeStep (s.time.quality == .unset))
        (some (offsetUs d)) (some (s.time.now.seconds : Int)) = w
      generalize hq : s.markQuality l = q
      generalize ht : w.qualityChange q l = t
      obtain ⟨c1, c2, c3, c4, c5⟩ := qualityChange_acts w q l t ht.symm
      have vt : v.time = r.time.setNow { seconds := u.nextMark, fraction := (s.link l).loopAverage / 2 } := by
        rw [← hv]; rfl
      have ws : w = { s with time := v.time, links := w.links, events := w.events, choices := w.choices } := by
        rw [← hw, ← hv, rs]; rfl
      have wt : w.time = v.time := by rw [ws]
      have wk : w.links = s.links := by rw [← hw, ← hv]; exact rk
      have wq : w.time.quality = s.time.quality := by rw [wt, vt, rt]; rfl
      have wf : w.time.follow = s.time.follow := by rw [wt, vt, rt]; rfl
      have tq : t.time.quality = q := by rw [c2]
      have tf : t.time.follow = s.time.follow := by rw [c2]; exact wf
      have tn : t.time.now = { seconds := u.nextMark, fraction := (s.link l).loopAverage / 2 } := by
        rw [c2]; show w.time.now = _; rw [wt, vt]; rfl
      have ve : v.events = s.events := by rw [← hv]; exact re
      have stamp : AddsEntry v w fun e => e.kind = .timeStep ∧ e.subject = .nothing ∧ e.origin = .link l ∧
          e.detail = .timeStep (s.time.quality == .unset) ∧ e.time = t.time.now ∧
          e.value1 = some (max (-2147483647) (min (d.tdiv 100) 2147483647)) ∧
          (s.time.now.seconds < 2147483648 → e.value2 = some (s.time.now.seconds : Int)) := by
        refine ⟨v.events, _, .refl _, ?_, by rw [← hw]; exact .refl _, rfl, rfl, rfl, rfl, ?_, ?_, fun h => ?_⟩
        · rfl
        · rw [tn]; show v.time.now = _; rw [vt]; rfl
        · show fieldValue 0 v.choices (some (offsetUs d)) = _
          simp only [fieldValue, cap d, if_true]
          rfl
        · show fieldValue 1 v.choices (some (s.time.now.seconds : Int)) = _
          have : inField (some (s.time.now.seconds : Int)) = true := by simp [inField]; omega
          simp only [fieldValue, this, if_true]
      refine ⟨?_, fun h _ => ?_, fun h => ?_, fun _ => ⟨?_, ?_⟩, fun n a _ => ?_, fun n a => ?_, fun _ ne => ?_⟩
      · rw [c1, ws]
      · rw [tq] at h
        rw [c4 (wq.trans h), wk]
      · rcases h with h | h
        · rw [tq] at h
          refine queueSystem_queues s t ?_
          rw [(c5 (by rw [wq]; exact h)).1, wk]
        · exact absurd tf.symm h
      · rw [c2, wt, vt, rt]
        rfl
      · exact (stamp.earlier (by rw [ve]; exact .refl _)).later c3
      · rcases step with k | k
        · exact absurd k n
        · omega
      · rcases step with k | k
        · exact absurd k n
        · omega
      · have := (c5 (by rw [wq]; exact ne)).2
        rw [wq] at this
        refine this.earlier ?_
        rw [← ve, ← hw]
        exact Grows.addEntry ..
    · rw [not_or] at step
      obtain ⟨nu, nd⟩ := step
      by_cases far : 1000000 < d
      · have act : markAction s.time.quality d = .conflict := by
          unfold markAction
          rw [if_neg (by rw [not_or]; exact ⟨nu, nd⟩), if_pos far]
        rw [act] at rt ⊢
        dsimp only
        unfold State.timeConflict
        rw [endSlew_eq]
        generalize hv : ({ r with time := { r.time.slewOver with follow := .conflict, quality := .free } } : State).queueSystem = v
        generalize hw : v.addEntry .timeConflict .nothing (linkOrigin l) .nothing (some (offsetUs d)) = t
        have vt : v.time = { r.time.slewOver with follow := .conflict, quality := .free } := by rw [← hv]; rfl
        have ts : t = { s with time := v.time, links := t.links, events := t.events, choices := t.choices } := by
          rw [← hw, ← hv, rs]; rfl
        have tt : t.time = v.time := by rw [ts]
        have tk : t.links = s.links.map fun k => k.queue 0 := by rw [← hw, ← hv, ← rk]; rfl
        have ve : v.events = s.events := by rw [← hv]; exact re
        have follows : s.time.follow = .following := by
          by_contra n
          cases hf : s.time.follow with
          | following => exact n hf
          | conflict =>
            cases late with
            | true => exact usable .late (.inl ⟨rfl, rfl⟩)
            | false => exact usable .conflict (.inr ⟨rfl, .inl ⟨rfl, hf⟩⟩)
        have add := AddsEntry.add v .timeConflict .nothing (linkOrigin l) .nothing (some (offsetUs d)) none none
        rw [hw] at add
        refine ⟨?_, fun _ h => ?_, fun _ => queueSystem_queues s t tk, fun h => ?_, fun _ _ h => ?_, fun _ _ => ⟨?_, ?_⟩,
          fun h _ => ?_⟩
        · rw [tt]; exact ts
        · rw [tt, vt, follows] at h
          cases h
        · rcases h with k | k
          · exact absurd k nu
          · omega
        · omega
        · rw [tt, vt, rt]
        · exact (add.mono fun e ⟨a, b, c, _, _, v, _⟩ => ⟨a, b, c, v (cap d)⟩).earlier (by rw [ve]; exact .refl _)
        · rcases h with k | k
          · exact absurd k nu
          · omega
      · have act : markAction s.time.quality d = if d = 0 then .noAction else .slew := by
          unfold markAction
          rw [if_neg (by rw [not_or]; exact ⟨nu, nd⟩), if_neg far]
        by_cases zero : d = 0
        all_goals
          first
            | rw [if_pos zero] at act
            | rw [if_neg zero] at act
          rw [act] at rt ⊢
          dsimp only
          rw [rl]
          unfold TimeBase.setSlew
          rw [endSlew_eq]
          generalize hv : ({ r with
            time := { r.time.slewOver with slew := if d = 0 then Option.none else some d } } : State) = v
          generalize hq : s.markQuality l = q
          generalize ht : v.qualityChange q l = t
          obtain ⟨c1, c2, c3, c4, c5⟩ := qualityChange_acts v q l t ht.symm
          have vt : v.time = { r.time.slewOver with slew := if d = 0 then Option.none else some d } := by rw [← hv]
          have vs : v = { s with time := v.time } := by rw [← hv, rs]
          have ve : v.events = s.events := by rw [vs]
          have vk : v.links = s.links := by rw [vs]
          have still : r.time.slewOver.quality = r.time.quality ∧ r.time.slewOver.follow = r.time.follow := by
            unfold TimeBase.slewOver
            dsimp only
            split
            · split
              · exact ⟨rfl, rfl⟩
              · split <;> exact ⟨rfl, rfl⟩
            · exact ⟨rfl, rfl⟩
          have vq : v.time.quality = s.time.quality := by rw [vt]; exact still.1.trans rq
          have vf : v.time.follow = s.time.follow := by rw [vt]; exact still.2.trans (by rw [rt]; rfl)
          have tq : t.time.quality = q := by rw [c2]
          have tf : t.time.follow = s.time.follow := by rw [c2]; exact vf
          refine ⟨?_, fun h _ => ?_, fun h => ?_, fun h => ?_, fun _ _ _ => ⟨?_, fun h => ?_⟩, fun _ h => absurd h far,
            fun _ ne => ?_⟩
          · rw [c1, vs]
          · rw [tq] at h
            rw [c4 (vq.trans h), vk]
          · rcases h with h | h
            · rw [tq] at h
              refine queueSystem_queues s t ?_
              rw [(c5 (by rw [vq]; exact h)).1, vk]
            · exact absurd tf.symm h
          · rcases h with k | k
            · exact absurd k nu
            · exact absurd k nd
          · rw [c2, vt, rt]
            simp only [zero, if_true, if_false]
          · rw [c4 (vq.trans h), ve]
          · have := (c5 (by rw [vq]; exact ne)).2
            rw [vq] at this
            exact this.earlier (by rw [ve]; exact .refl _)

end Sys2Proof.Machine
end

