-- ==== Sys2Proof/WellFormed.lean ====
section
/-! DEFINITION. Which commands can occur: the types carry every range of the operands but the shape of the
bytes a port command carries. -/

set_option Elab.async false

namespace Sys2Proof

/-- The bytes end with the last CRC byte of a frame (REQUEST_FRAME_RECEIVED, 11 R198). -/
def endsFrame (bytes : List Byte) : Bool :=
  match scan bytes with
  | .frame .. => true
  | _ => false

/-- The bytes end with a length above 256 (FRAME_LENGTH_ABOVE_256, 11 R198). -/
def endsOverLength (bytes : List Byte) : Bool :=
  scan bytes == .overLength

/-- The bytes hold no complete frame (SELECT_DEASSERTED, 11 R197). -/
def holdsNoFrame (bytes : List Byte) : Bool :=
  scan bytes == .nothing || scan bytes == .incomplete

/-- A command that can occur. Every other command's operands are in range by their types. -/
def Instr.wellFormed : Instr → Bool
  | .requestFrameReceived _ c => endsFrame c.bytes
  | .frameLengthAbove256 _ c => endsOverLength c.bytes
  | .selectDeasserted _ bytes => holdsNoFrame bytes
  | _ => true

end Sys2Proof
end

