-- ==== Sys2Proof/Laws/PerInstr.lean ====
section
/-! SUPPORT. The family F: which operands each command can occur with, one lemma for each constructor. -/

set_option Elab.async false

namespace Sys2Proof.Laws.F

/-- A command can occur exactly when the bytes a port command carries are those of its event: a whole frame, a length
above 256, or no whole frame (11 R197, R198). Every other command's operands are in range by their types. -/
def Statement (i : Instr) : Prop :=
  i.wellFormed = true ↔ ∀ p bytes,
    (∀ out, i = .requestFrameReceived p ⟨bytes, out⟩ → ∃ kind tag body ok, scan bytes = .frame kind tag body ok) ∧
    (∀ out, i = .frameLengthAbove256 p ⟨bytes, out⟩ → scan bytes = .overLength) ∧
    (i = .selectDeasserted p bytes → scan bytes = .nothing ∨ scan bytes = .incomplete)

theorem powerOn : Statement .powerOn := by
  simp [Statement, Instr.wellFormed]

theorem resetLineAssert : Statement .resetLineAssert := by
  simp [Statement, Instr.wellFormed]

theorem resetLineRelease : Statement .resetLineRelease := by
  simp [Statement, Instr.wellFormed]

theorem frameStart (trailing : Nat) : Statement (.frameStart trailing) := by
  simp [Statement, Instr.wellFormed]

theorem frameComplete (words : File Word 34) : Statement (.frameComplete words) := by
  simp [Statement, Instr.wellFormed]

theorem frameWatchExpiry : Statement .frameWatchExpiry := by
  simp [Statement, Instr.wellFormed]

theorem setSlots (p : Port) : Statement (.setSlots p) := by
  simp [Statement, Instr.wellFormed]

theorem contactChange (b : Breaker) (c : Contact) (made : Bool) : Statement (.contactChange b c made) := by
  simp [Statement, Instr.wellFormed]

theorem positionDebounceExpiry (b : Breaker) : Statement (.positionDebounceExpiry b) := by
  simp [Statement, Instr.wellFormed]

theorem positionFault (b : Breaker) : Statement (.positionFault b) := by
  simp [Statement, Instr.wellFormed]

theorem keyInputChange (made : Bool) : Statement (.keyInputChange made) := by
  simp [Statement, Instr.wellFormed]

theorem locationChanged : Statement .locationChanged := by
  simp [Statement, Instr.wellFormed]

theorem farStateStale (f : Feeder) : Statement (.farStateStale f) := by
  simp [Statement, Instr.wellFormed]

theorem blindDeadlineExpiry (f : Feeder) : Statement (.blindDeadlineExpiry f) := by
  simp [Statement, Instr.wellFormed]

theorem tripRequest (f : Feeder) : Statement (.tripRequest f) := by
  simp [Statement, Instr.wellFormed]

theorem tripConfirmLimit (f : Feeder) : Statement (.tripConfirmLimit f) := by
  simp [Statement, Instr.wellFormed]

theorem openFeeder (p : Port) : Statement (.openFeeder p) := by
  simp [Statement, Instr.wellFormed]

theorem closeFeeder (p : Port) : Statement (.closeFeeder p) := by
  simp [Statement, Instr.wellFormed]

theorem resetLockout (p : Port) : Statement (.resetLockout p) := by
  simp [Statement, Instr.wellFormed]

theorem claimDeadline (f : Feeder) : Statement (.claimDeadline f) := by
  simp [Statement, Instr.wellFormed]

theorem testEnd (f : Feeder) : Statement (.testEnd f) := by
  simp [Statement, Instr.wellFormed]

theorem closeConfirmLimit (f : Feeder) : Statement (.closeConfirmLimit f) := by
  simp [Statement, Instr.wellFormed]

theorem recloseDue (f : Feeder) : Statement (.recloseDue f) := by
  simp [Statement, Instr.wellFormed]

theorem reclaimWatchExpiry (f : Feeder) : Statement (.reclaimWatchExpiry f) := by
  simp [Statement, Instr.wellFormed]

theorem setFeeder (p : Port) : Statement (.setFeeder p) := by
  simp [Statement, Instr.wellFormed]

theorem setStation (p : Port) : Statement (.setStation p) := by
  simp [Statement, Instr.wellFormed]

theorem readSettings (p : Port) : Statement (.readSettings p) := by
  simp [Statement, Instr.wellFormed]

theorem commitSettings (p : Port) : Statement (.commitSettings p) := by
  simp [Statement, Instr.wellFormed]

theorem commitWriteEnd : Statement .commitWriteEnd := by
  simp [Statement, Instr.wellFormed]

theorem readFeeders (p : Port) : Statement (.readFeeders p) := by
  simp [Statement, Instr.wellFormed]

theorem claim (p : Port) : Statement (.claim p) := by
  simp [Statement, Instr.wellFormed]

theorem release (p : Port) : Statement (.release p) := by
  simp [Statement, Instr.wellFormed]

theorem leaseExpiry (i : Item) : Statement (.leaseExpiry i) := by
  simp [Statement, Instr.wellFormed]

theorem zeroCrossing : Statement .zeroCrossing := by
  simp [Statement, Instr.wellFormed]

theorem crossingWatchExpiry : Statement .crossingWatchExpiry := by
  simp [Statement, Instr.wellFormed]

theorem tick : Statement .tick := by
  simp [Statement, Instr.wellFormed]

theorem setAlpha (p : Port) : Statement (.setAlpha p) := by
  simp [Statement, Instr.wellFormed]

theorem startRectifier (p : Port) : Statement (.startRectifier p) := by
  simp [Statement, Instr.wellFormed]

theorem stopRectifier (p : Port) : Statement (.stopRectifier p) := by
  simp [Statement, Instr.wellFormed]

theorem resetRectifier (p : Port) : Statement (.resetRectifier p) := by
  simp [Statement, Instr.wellFormed]

theorem readRectifier (p : Port) : Statement (.readRectifier p) := by
  simp [Statement, Instr.wellFormed]

theorem acCloseDeadline : Statement .acCloseDeadline := by
  simp [Statement, Instr.wellFormed]

theorem acOpenDeadline : Statement .acOpenDeadline := by
  simp [Statement, Instr.wellFormed]

theorem overvoltageRelease : Statement .overvoltageRelease := by
  simp [Statement, Instr.wellFormed]

theorem linkWord (l : LinkId) (w : RxWord) : Statement (.linkWord l w) := by
  simp [Statement, Instr.wellFormed]

theorem lightPresentChange (l : LinkId) (present : Bool) : Statement (.lightPresentChange l present) := by
  simp [Statement, Instr.wellFormed]

theorem linkWordTransmit (l : LinkId) : Statement (.linkWordTransmit l) := by
  simp [Statement, Instr.wellFormed]

theorem acceptanceWindowClose (l : LinkId) (f : Feeder) : Statement (.acceptanceWindowClose l f) := by
  simp [Statement, Instr.wellFormed]

theorem beaconPeriod (l : LinkId) : Statement (.beaconPeriod l) := by
  simp [Statement, Instr.wellFormed]

theorem beaconTimeout (l : LinkId) : Statement (.beaconTimeout l) := by
  simp [Statement, Instr.wellFormed]

theorem segmentRefresh (l : LinkId) : Statement (.segmentRefresh l) := by
  simp [Statement, Instr.wellFormed]

theorem grantExpired (f : Feeder) : Statement (.grantExpired f) := by
  simp [Statement, Instr.wellFormed]

theorem writeSegment (p : Port) : Statement (.writeSegment p) := by
  simp [Statement, Instr.wellFormed]

theorem readSegment (p : Port) : Statement (.readSegment p) := by
  simp [Statement, Instr.wellFormed]

theorem readLinks (p : Port) : Statement (.readLinks p) := by
  simp [Statement, Instr.wellFormed]

theorem secondBoundary : Statement .secondBoundary := by
  simp [Statement, Instr.wellFormed]

theorem slewStep : Statement .slewStep := by
  simp [Statement, Instr.wellFormed]

theorem setTime (p : Port) : Statement (.setTime p) := by
  simp [Statement, Instr.wellFormed]

theorem timeRestart (p : Port) : Statement (.timeRestart p) := by
  simp [Statement, Instr.wellFormed]

theorem readTime (p : Port) : Statement (.readTime p) := by
  simp [Statement, Instr.wellFormed]

theorem loadSteps (p : Port) : Statement (.loadSteps p) := by
  simp [Statement, Instr.wellFormed]

theorem defineProgramme (p : Port) : Statement (.defineProgramme p) := by
  simp [Statement, Instr.wellFormed]

theorem startProgramme (p : Port) : Statement (.startProgramme p) := by
  simp [Statement, Instr.wellFormed]

theorem stepDue (r : RunnerId) : Statement (.stepDue r) := by
  simp [Statement, Instr.wellFormed]

theorem waitLimitExpiry (r : RunnerId) : Statement (.waitLimitExpiry r) := by
  simp [Statement, Instr.wellFormed]

theorem suspend (p : Port) : Statement (.suspend p) := by
  simp [Statement, Instr.wellFormed]

theorem resume (p : Port) : Statement (.resume p) := by
  simp [Statement, Instr.wellFormed]

theorem stop (p : Port) : Statement (.stop p) := by
  simp [Statement, Instr.wellFormed]

theorem clear (p : Port) : Statement (.clear p) := by
  simp [Statement, Instr.wellFormed]

theorem readRunners (p : Port) : Statement (.readRunners p) := by
  simp [Statement, Instr.wellFormed]

theorem readEvents (p : Port) : Statement (.readEvents p) := by
  simp [Statement, Instr.wellFormed]

theorem subscribe (p : Port) : Statement (.subscribe p) := by
  simp [Statement, Instr.wellFormed]

theorem readCapture (p : Port) : Statement (.readCapture p) := by
  simp [Statement, Instr.wellFormed]

theorem releaseCapture (p : Port) : Statement (.releaseCapture p) := by
  simp [Statement, Instr.wellFormed]

theorem requestFrameReceived (p : Port) (c : Clocked) : Statement (.requestFrameReceived p c) := by
  obtain ⟨bytes, out⟩ := c
  cases h : scan bytes with
  | frame kind tag body ok =>
    exact ⟨fun _ _ _ => ⟨fun _ e => by cases e; exact ⟨_, _, _, _, h⟩, nofun, nofun⟩,
      fun _ => by simp [Instr.wellFormed, endsFrame, h]⟩
  | _ => simp [Statement, Instr.wellFormed, endsFrame, h]

theorem badFrame (p : Port) : Statement (.badFrame p) := by
  simp [Statement, Instr.wellFormed]

theorem badKind (p : Port) : Statement (.badKind p) := by
  simp [Statement, Instr.wellFormed]

theorem selectAsserted (p : Port) : Statement (.selectAsserted p) := by
  simp [Statement, Instr.wellFormed]

theorem selectDeasserted (p : Port) (bytes : List Byte) : Statement (.selectDeasserted p bytes) := by
  simp [Statement, Instr.wellFormed, holdsNoFrame]

theorem responseSent (p : Port) : Statement (.responseSent p) := by
  simp [Statement, Instr.wellFormed]

theorem portReset (p : Port) (tag : Byte) : Statement (.portReset p tag) := by
  simp [Statement, Instr.wellFormed]

theorem identify (p : Port) : Statement (.identify p) := by
  simp [Statement, Instr.wellFormed]

theorem frameLengthAbove256 (p : Port) (c : Clocked) : Statement (.frameLengthAbove256 p c) := by
  obtain ⟨bytes, out⟩ := c
  simp [Statement, Instr.wellFormed, endsOverLength]

end Sys2Proof.Laws.F
end

