-- ==== Sys2Proof/Laws/Programmes.lean ====
section
/-! SUPPORT. Programmes and the checks of a request on items: which programmes are in use, what a load leaves in the
slots, what a programme targets, the first item that a check refuses, and leases renewed. -/

set_option Elab.async false

namespace Sys2Proof.Machine

theorem inUse_iff (s : State) (n : Fin 8) : s.inUse n = true ↔ s.using n := by
  unfold State.inUse State.usesProgramme State.using
  rw [List.any_eq_true]
  constructor
  · rintro ⟨r, _, h⟩; simp at h; exact ⟨r, h⟩
  · rintro ⟨r, h⟩; exact ⟨r, mem_allRunners r, by simpa using h⟩

theorem slotsInUse_iff (s : State) (a n : Nat) : s.slotsInUse a n = true ↔
    ∃ k h, s.using k ∧ s.headers.get k = some h ∧ a < h.first + h.count ∧ h.first < a + n := by
  unfold State.slotsInUse
  rw [List.any_eq_true]
  constructor
  · rintro ⟨k, _, h⟩
    rw [Bool.and_eq_true, inUse_iff] at h
    cases e : s.headers.get k with
    | none => rw [e] at h; exact absurd h.2 (by simp)
    | some y => rw [e] at h; exact ⟨k, y, h.1, e, by simpa using h.2⟩
  · rintro ⟨k, y, h1, h2, h3⟩
    refine ⟨k, mem_eight k, ?_⟩
    rw [Bool.and_eq_true, inUse_iff, h2]
    exact ⟨h1, by simpa using h3⟩

theorem storeSteps_get (xs : List Step) (a : Nat) (v : File Step 256) (h : a + xs.length ≤ 256) :
    (∀ (k : Nat) x, xs[k]? = some x → (storeSteps a xs v).get (Fin.ofNat 256 (a + k)) = x) ∧
    ∀ n : Fin 256, n.val < a ∨ a + xs.length ≤ n.val → (storeSteps a xs v).get n = v.get n := by
  induction xs generalizing a v with
  | nil => exact ⟨fun k x h => by simp at h, fun n _ => rfl⟩
  | cons y ys ih =>
    simp only [List.length_cons] at h ⊢
    have := ih (a + 1) (v.set (Fin.ofNat 256 a) y) (by omega)
    have va : (Fin.ofNat 256 a).val = a := by simp; omega
    refine ⟨fun k x hk => ?_, fun n hn => ?_⟩
    · cases k with
      | zero =>
        simp at hk; subst hk
        show (storeSteps (a + 1) ys _).get (Fin.ofNat 256 a) = _
        rw [this.2 _ (by rw [va]; omega), File.get_set, if_pos rfl]
      | succ k =>
        have := this.1 k x (by simpa using hk)
        rw [show a + (k + 1) = a + 1 + k by omega]; exact this
    · show (storeSteps (a + 1) ys _).get n = _
      rw [this.2 n (by omega), File.get_set, if_neg]
      intro e
      have : n.val = a := by rw [e, va]
      omega

theorem readSteps_length : ∀ (n : Nat) (b : List Byte) (xs : List Step), readSteps n b = some xs → xs.length = n := by
  intro n
  induction n with
  | zero => intro b xs h; cases b <;> simp [readSteps] at h; subst h; rfl
  | succ n ih =>
    intro b xs h
    unfold readSteps at h
    split at h
    · rename_i x rest _ h2; injection h with h; subst h; simp [ih _ _ h2]
    · cases h

theorem readLoad_fits {b : List Byte} {a : Nat} {xs : List Step} (h : readLoadSteps b = some (a, xs)) : a + xs.length ≤ 256 := by
  unfold readLoadSteps at h
  split at h
  · dsimp only at h
    split at h
    · rename_i c
      rw [Option.map_eq_some_iff] at h
      obtain ⟨ys, h1, h2⟩ := h
      injection h2 with h2 h3
      subst h2; subst h3
      rw [readSteps_length _ _ _ h1]; exact c.2.2
    · cases h
  · cases h

theorem targets_iff (s : State) (h : Header) (i : Item) : s.targets h i = true ↔ s.programmeTargets h i := by
  unfold State.targets State.programmeTargets
  rw [List.any_eq_true]
  have ha : ∀ a : StepAction, a.acts = true ↔ a ∈ [StepAction.openFeeder, .closeFeeder, .setAlpha, .startRectifier, .stopRectifier] := by
    intro a; cases a <;> decide
  constructor
  · rintro ⟨k, hk, h⟩; rw [List.mem_range] at hk; dsimp only at h; rw [Bool.and_eq_true] at h
    exact ⟨k, hk, by simpa using h.2, (ha _).1 h.1⟩
  · rintro ⟨k, hk, h1, h2⟩; exact ⟨k, List.mem_range.2 hk, by dsimp only; rw [Bool.and_eq_true]; exact ⟨(ha _).2 h2, by simpa using h1⟩⟩

theorem mem_targetItems (s : State) (h : Header) (i : Item) : i ∈ s.targetItems h ↔ s.programmeTargets h i := by
  unfold State.targetItems; rw [List.mem_filter, targets_iff]; exact ⟨fun h => h.2, fun k => ⟨mem_items i, k⟩⟩

theorem admits_excludes (s : State) (p : Port) : s.admits p = true ↔ ¬Excludes s.authority.location p := by
  unfold State.admits Excludes admitted; cases s.authority.location <;> cases p <;> simp

theorem items_pairwise : items.Pairwise fun i j => i.index < j.index := by decide

theorem findSome_first {β : Type} (f : Item → Option β) (l : List Item) (hl : l.Pairwise fun i j => i.index < j.index) (i : Item) (hi : i ∈ l) {b : β}
    (hb : f i = some b) (hn : ∀ j ∈ l, j.index < i.index → f j = none) : l.findSome? f = some b := by
  induction l with
  | nil => cases hi
  | cons x xs ih =>
    rw [List.pairwise_cons] at hl
    rw [List.findSome?_cons]
    rcases List.mem_cons.1 hi with rfl | hi'
    · rw [hb]
    · rw [hn x List.mem_cons_self (hl.1 i hi')]
      exact ih hl.2 hi' (fun j hj => hn j (List.mem_cons_of_mem _ hj))

theorem renewItems_holding (s : State) (l : List Item) (i : Item) : (s.renewItems l).holding i =
    if i ∈ l then (s.holding i).map fun h => { h with expiry := s.now + ms s.station.leaseTime, lease := s.station.leaseTime } else s.holding i := by
  unfold State.renewItems
  induction l generalizing s with
  | nil => simp
  | cons x xs ih =>
    have ho : OnlyTable s (s.renewItem x) := by
      unfold State.renewItem; split
      · rfl
      · exact OnlyTable.refl _
    rw [List.foldl_cons, ih, ho.now, ho.station]
    have hx : (s.renewItem x).holding i = if i = x then (s.holding i).map fun h => { h with expiry := s.now + ms s.station.leaseTime, lease := s.station.leaseTime } else s.holding i := by
      unfold State.renewItem
      split
      · rename_i h e
        rw [setHolding_holding]; split
        · rename_i q; subst q; rw [e]; rfl
        · rfl
      · rename_i e; split
        · rename_i q; subst q; rw [e]; rfl
        · rfl
    rw [hx]
    by_cases h1 : i = x <;> by_cases h2 : i ∈ xs <;> simp [h1, h2]
    · subst h1; simp [h2]; cases s.holding i <;> simp
    · subst h1; simp [h2]

theorem renewItems_only (s : State) (l : List Item) : s.renewItems l = { s with authority := { s.authority with entries := (s.renewItems l).authority.entries } } := by
  unfold State.renewItems
  induction l generalizing s with
  | nil => rfl
  | cons x xs ih =>
    have hx : s.renewItem x = { s with authority := { s.authority with entries := (s.renewItem x).authority.entries } } := by
      unfold State.renewItem; split <;> rfl
    rw [List.foldl_cons, ih]
    generalize (List.foldl State.renewItem (s.renewItem x) xs).authority.entries = e
    rw [hx]

end Sys2Proof.Machine
end

