-- ==== Sys2Proof/Laws/Reports.lean ====
section
/-! SUPPORT. The reports that the read requests give are, field by field, what the terms of the statements show. -/

set_option Elab.async false

namespace Sys2Proof.Machine

theorem combinationOf_eq (x : ContactInput) : combinationOf x.a x.b = shownContacts x := by
  unfold combinationOf shownContacts
  cases x.a <;> cases x.b <;> rfl

theorem faultReport_eq (s : State) (f : Feeder) : s.faultReport f = s.shownFault f := by
  unfold State.faultReport State.shownFault State.blindDeadline ms
  dsimp only
  rcases (s.fault f).blindSince with _ | b <;> rcases (s.fault f).protectSince with _ | p <;>
    cases (s.fault f).active <;> rfl

theorem sectionReport_eq (s : State) (f : Feeder) : s.sectionReport f = s.shownSection f := rfl

theorem feederReport_eq (s : State) (f : Feeder) (h : s.resetLine = false) : s.feederReport f = s.shownFeeder f := by
  unfold State.feederReport State.shownFeeder
  rw [combinationOf_eq]
  congr 1
  by_cases hr : (s.feeder f).ready = true
  · rw [if_pos hr, if_pos hr]
    unfold State.readyReport
    dsimp only
    rw [faultReport_eq, sectionReport_eq]
    have a : s.tripLine f = decide ((s.feeder f).state = .tripping ∨ (s.feeder f).state = .breakerFailed) := by
      unfold State.tripLine; rw [h, hr]; cases (s.feeder f).state <;> rfl
    have b : s.closeLine f = decide ((s.feeder f).state = .closing) := by
      unfold State.closeLine; rw [h, hr]; cases (s.feeder f).state <;> rfl
    have c : s.testLine f = decide ((s.feeder f).state = .testing) := by
      unfold State.testLine; rw [h, hr]; cases (s.feeder f).state <;> rfl
    rw [a, b, c]
    rfl
  · rw [if_neg hr, if_neg hr]

theorem sampleReport_eq (s : State) : s.sampleReport = s.shownSample := rfl

theorem acPosition_eq (s : State) : s.acPosition = s.shownRectifier.acPosition := by
  unfold State.acPosition State.shownRectifier
  dsimp only
  cases s.acInput.position <;> rfl

theorem rectifierReport_eq (s : State) (h : s.resetLine = false) : s.rectifierReport = s.shownRectifier := by
  have a : s.rect.faultRetard = decide (∃ f, s.rect.retard.get f = true) := by
    unfold Rectifier.faultRetard
    rw [Bool.eq_iff_iff, List.any_eq_true, decide_eq_true_eq]
    constructor
    · rintro ⟨x, hx, e⟩
      obtain ⟨k, hk, rfl⟩ := List.mem_iff_getElem.mp hx
      exact ⟨⟨k, by rw [← s.rect.retard.size]; exact hk⟩, by rw [File.get_eq_getElem]; exact e⟩
    · rintro ⟨f, e⟩
      rw [File.get_eq_getElem] at e
      exact ⟨s.rect.retard.cells[f.val]'(by rw [s.rect.retard.size]; exact f.isLt), List.getElem_mem _, e⟩
  have g : File.ofList 12 false (twelve.map s.gateLine) = s.rect.gates.map fun n => decide (0 < n) := by
    ext j
    rw [get_map]
    unfold State.gateLine
    rw [h]
    fin_cases j <;> rfl
  have c : s.acCloseLine = decide (∃ op ∈ s.rect.acOperation, op.kind = .close) := by
    unfold State.acCloseLine Rectifier.acKind; rw [h]
    rcases s.rect.acOperation with _ | ⟨_ | _, _, _, _, _⟩ <;> simp
  have d : s.acTripLine = decide (∃ op ∈ s.rect.acOperation, op.kind = .opening) := by
    unfold State.acTripLine Rectifier.acKind; rw [h]
    rcases s.rect.acOperation with _ | ⟨_ | _, _, _, _, _⟩ <;> simp
  have e : s.presentTick = s.shownRectifier.tickLength := by
    unfold State.presentTick State.shownRectifier tickLength
    dsimp only
    cases s.clock.period <;> cases s.clock.tick <;> dsimp only
    split <;> rfl
  unfold State.rectifierReport
  dsimp only
  rw [a, g, c, d, e, acPosition_eq, combinationOf_eq]
  rfl

theorem linkReport_eq (s : State) (p : Port) (l : LinkId) : s.linkReport p l = s.shownLink p l := rfl

theorem followed_eq (s : State) : s.followed = s.settings.station.timeRole.link := by
  unfold State.followed State.station
  cases s.settings.station.timeRole <;> rfl

theorem timeReport_eq (s : State) : s.timeReport = s.shownTime := by
  unfold State.timeReport State.shownTime State.accumulatedDelay
  rw [followed_eq]
  cases s.settings.station.timeRole.link <;> cases s.time.upstream <;> rfl

theorem runnerReport_eq (s : State) (r : RunnerId) : s.runnerReport r = s.shownRunner r := by
  unfold State.runnerReport State.shownRunner
  dsimp only
  congr 1
  cases (s.runner r).awaiting with
  | none => rfl
  | some a => cases a <;> rfl

theorem captureBytes_shown (n : Fin 4) (b : Option Capture) (offset count : Nat) :
    ShowsCapture n b offset count (captureBytes n b offset count) := by
  refine ⟨by rintro rfl; rfl, ?_⟩
  rintro c rfl
  refine ⟨(c.triples.drop offset).take count, ?_, fun k hk => ?_, ?_⟩
  · rw [List.length_take, List.length_drop]
  · rw [List.length_take] at hk
    rw [List.getElem?_take, if_pos (by omega), List.getElem?_drop]
  · have four (n : Nat) : beBytes 4 n = fourBytes n := by
      simp only [beBytes, fourBytes, Nat.div_div_eq_div_mul, List.nil_append, List.cons_append]
    have sample : sampleBytes = shownSample16 := by
      funext v
      cases v <;> simp [sampleBytes, shownSample16, beBytes, Option.getD]
    unfold captureBytes
    dsimp only
    rw [four, four, four, sample]
    simp only [List.map_cons, List.map_nil, beBytes, List.nil_append, List.cons_append, List.append_assoc]
    cases c.held <;> cases c.truncated <;> cases c.cause <;> cases c.quality <;> rfl

end Sys2Proof.Machine
end

