-- ==== Sys2Proof/Tests/Slice0.lean ====
section
/-! SUPPORT. Tests of the model on small states: the shape checks, the CRC, start-up, one event of each family, and
for each statement's hypotheses a state that meets them, each clause at a boundary of its range. -/

set_option Elab.async false

namespace Sys2Proof.Tests

open Sys2Proof Sys2Proof.Machine

/-! ## Helpers -/

/-- The state after a command; every command answers a next state. -/
def after (c : Instr) (s : State) : State :=
  match exec c s with
  | .next t => t
  | _ => s

/-- A state whose port has one request waiting. -/
def offering (p : Port) (kind : Byte) (body : List Byte) (s : State) : State :=
  s.modPort p fun x => { x with buffers := [.good kind 7 body] }

theorem offering_offers (s : State) (p : Port) (kind : Byte) (body : List Byte) (h : s.resetLine = false)
    (r : (s.port p).responses = []) : (offering p kind body s).offers p kind 7 body := by
  have e : (offering p kind body s).port p = { s.port p with buffers := [.good kind 7 body] } := by
    simp [offering, State.modPort, State.port]
  refine ⟨h, ?_, ?_⟩ <;> rw [e]
  · rw [r]; decide
  · rfl

/-- The instant n ms after the reset. -/
def at_ (n : Nat) (s : State) : State := { s with now := n * 100000 }

/-- A ready feeder in a state. -/
def inState (x : FeederState) (f : Feeder) (s : State) : State :=
  s.modFeeder f fun r => { r with ready := true, state := x }

/-- An item held by a master until 2 s. -/
def holds (p : Port) (i : Item) (s : State) : State :=
  s.setHolding i (some { holder := p, expiry := 200000000, grantedAt := 0, lease := 2000 })

/-- A sample frame with a number, the value of slot 0, and a check word that makes the sum 0. -/
def frame (number slot0 : Nat) : File Word 34 :=
  let head := number * 256 + 0xC3
  (((File.fill 34 0).set 0 (BitVec.ofNat 16 head)).set 1 (BitVec.ofNat 16 slot0)).set 33
    (BitVec.ofNat 16 (131072 - head - slot0))

/-- A port in a sample state, with slot 0 carrying the current of F0 and a frame under reception. -/
def sampling (x : SampleState) (s : State) : State :=
  { s with
    settings := { s.settings with slotMap := (File.fill 32 .unused).set 0 (.feederCurrent 0) },
    sample := { s.sample with state := x, reception := .receiving } }

/-! ## Shape, framing and start-up -/

/-- A request frame shorter than its length is not one that has been received. -/
theorem test_shape_request : (Instr.requestFrameReceived .A ⟨[0xA5, 0, 1, 0x10], 0⟩).wellFormed = false := by decide

theorem test_shape_over_length : (Instr.frameLengthAbove256 .A ⟨[0xA5, 1, 0], 0⟩).wellFormed = false := by decide

theorem test_shape_deselect : (Instr.selectDeasserted .A (requestFrame 0x7F 1 [])).wellFormed = false := by
  decide +kernel

/-- Well-formed neighbours of the three. -/
theorem test_shape_good : (Instr.requestFrameReceived .A ⟨requestFrame 0x10 1 [3], 0⟩).wellFormed = true ∧
    (Instr.frameLengthAbove256 .A ⟨[0xA5, 1, 1], 0⟩).wellFormed = true ∧
    (Instr.selectDeasserted .A [0xA5, 0]).wellFormed = true := by decide +kernel

/-- The nine digits have the CRC of 11 R198. -/
theorem test_crc : crc [0x31, 0x32, 0x33, 0x34, 0x35, 0x36, 0x37, 0x38, 0x39] = 0x29B1 := by decide +kernel

theorem test_no_word_spells_a_command : decodeTableWord 32 0x12345678 = none := rfl

theorem test_fetch_word : State.reset.withFetchWord 32 5 = State.reset := rfl

/-- State.reset is what a power-on leaves of it. -/
theorem test_reset_is_a_power_on : startUp .powerOn State.reset = State.reset := by decide +kernel

theorem test_first_entries : State.reset.events.ring.map (·.kind) = [.restart, .settingsDefaulted] := rfl

/-! ## The queue and the conditions every step keeps -/

theorem test_hyp_idle_held : (after .resetLineAssert State.reset).pending = [] ∧
    (after .resetLineAssert State.reset).resetLine = true := ⟨rfl, rfl⟩

/-- Slew remaining -1 whose step is due, and a boundary reached. -/
def slewing : State :=
  { State.reset with time := { TimeBase.reset with slew := some (-1), slewCount := 2000, boundary := some 1 } }

theorem test_hyp_idle_slew : slewing.pending = [] ∧ slewing.resetLine = false ∧ slewing.time.slewDue = true := by decide

theorem test_hyp_idle_boundary :
    let s := { State.reset with time := { TimeBase.reset with boundary := some 0 } }
    s.time.slewDue = false ∧ s.time.boundary.isSome = true := by decide

theorem test_hyp_idle_due : State.reset.time.slewDue = false ∧ State.reset.time.boundary = none ∧
    State.reset.dueEvents = [.linkWordTransmit .link0, .linkWordTransmit .link1] := by decide +kernel

/-- Both transmitters have just sent a word. -/
def sent : State := after (.linkWordTransmit .link1) (after (.linkWordTransmit .link0) State.reset)

theorem test_hyp_idle_count : sent.dueEvents = [] ∧ sent.time.slewDue = false ∧ sent.time.boundary = none ∧
    sent.pending = [] := by decide +kernel

/-- A step from the reset state answers a next state. -/
theorem test_hyp_step : ∃ t, step sent = .next t := ⟨_, rfl⟩

theorem test_hyp_ports : PortsBounded State.reset := by
  intro p
  cases p <;> decide

theorem test_hyp_authority : AuthoritySound State.reset := by
  refine ⟨rfl, fun i h k => ?_⟩
  rw [show State.reset.holding i = none by cases i with
    | rectifier => rfl
    | feeder f => fin_cases f <;> rfl] at k
  cases k

theorem test_hyp_record : RecordSound State.reset := by
  refine ⟨by decide, by decide, fun k h => ?_, fun p => ?_⟩
  · have : k = 0 ∨ k = 1 := by
      have : State.reset.events.ring.length = 2 := rfl
      omega
    rcases this with rfl | rfl <;> decide
  · cases p <;> decide

theorem test_hyp_feeders : FeedersSound (inState .opened 0 State.reset) := by
  intro f
  fin_cases f <;> exact ⟨rfl, nofun, rfl, rfl, nofun, nofun, by decide⟩

theorem test_hyp_match : MatchSound State.reset := by
  intro f
  fin_cases f <;> decide

theorem test_hyp_rectifier : RectifierSound State.reset :=
  ⟨by unfold Settings.angleRange; decide, nofun, nofun, nofun, fun _ => rfl, nofun⟩

theorem test_hyp_captures : CapturesSound State.reset := by
  refine ⟨fun f => ?_, fun n c h => ?_, fun n m c d h => ?_⟩
  · fin_cases f <;> decide
  · rw [show State.reset.captures.buffers.get n = none by fin_cases n <;> rfl] at h
    cases h
  · rw [show State.reset.captures.buffers.get n = none by fin_cases n <;> rfl] at h
    cases h

theorem test_hyp_request_frame : (List.replicate 256 (0xA5 : Byte)).length ≤ 256 ∧
    ∀ b ∈ ([0, 0xA4] : List Byte), b ≠ 0xA5#8 := by decide +kernel

/-! ## The sample line -/

theorem test_hyp_frame_start : State.reset.sample.state = .disabled ∧ State.reset.resetLine = false ∧
    (sampling .lost State.reset).sample.reception = .receiving ∧ (sampling .lost State.reset).sample.state ≠ .disabled ∧
    (after (.frameComplete (frame 1 0)) (sampling .starting State.reset)).sample.reception = .complete := by
  decide +kernel

/-- A frame that passes the checks: slot 0 at 4000, number 1. -/
theorem frame_passes {s : State} (r : s.sample.reference ≠ some 1)
    (m : s.settings.slotMap = (File.fill 32 .unused).set 0 (.feederCurrent 0)) (cause : DiscardCause) :
    ¬FrameFails s.settings.slotMap s.sample.reference (frame 1 4000) cause := by
  have marker : ((frame 1 4000).get 0).toNat % 256 = 0xC3 := by decide
  have check : frameSum (frame 1 4000) = 0 := by decide
  have number : ((frame 1 4000).get 0).toNat / 256 = 1 := by decide
  have fault : ¬∃ n, s.settings.slotMap.get n ≠ .unused ∧ slotWord (frame 1 4000) n = -32768 := by
    rintro ⟨n, a, b⟩
    rw [m, File.get_set] at a
    by_cases h : n = 0
    · subst h
      exact absurd b (by decide)
    · rw [if_neg h] at a
      exact a (by fin_cases n <;> rfl)
  rintro (⟨_, a⟩ | ⟨_, _, a⟩ | ⟨_, _, _, a⟩ | ⟨_, _, _, _, a⟩)
  · exact a marker
  · exact a check
  · exact fault a
  · rw [number] at a
    exact r a

theorem test_hyp_passing_frame :
    (∀ cause, ¬FrameFails (sampling .starting State.reset).settings.slotMap
      (sampling .starting State.reset).sample.reference (frame 1 4000) cause) ∧
    (after (.frameComplete (frame 1 4000)) (sampling .starting State.reset)).sample.reference = some 1 :=
  ⟨frame_passes (by decide) rfl, by decide +kernel⟩

/-- Each check in turn is the first to fail: a marker off by one, a sum off by one, the fault code, the number held. -/
theorem test_hyp_failing_frames :
    let m : File SlotEntry 32 := (File.fill 32 .unused).set 0 (.feederCurrent 0)
    FrameFails m none ((frame 1 0).set 0 0x01C2) .marker ∧ FrameFails m none ((frame 1 0).set 2 1) .check ∧
      FrameFails m none (frame 1 32768) .slotFault ∧ FrameFails m (some 1) (frame 1 32769) .repeated := by
  refine ⟨.inl ⟨rfl, by decide⟩, .inr (.inl ⟨rfl, by decide, by decide +kernel⟩),
    .inr (.inr (.inl ⟨rfl, by decide, by decide, 0, by decide, by decide⟩)),
    .inr (.inr (.inr ⟨rfl, by decide, by decide, ?_, by decide⟩))⟩
  rintro ⟨n, a, b⟩
  fin_cases n
  · exact absurd b (by decide)
  all_goals exact a rfl

/-- In STARTING the number after the reference, and one that follows a gap. -/
theorem test_hyp_gap : ¬FollowsGap none (frame 1 0) ∧ ¬FollowsGap (some 0) (frame 1 0) ∧ ¬FollowsGap (some 255) (frame 0 0) ∧
    FollowsGap (some 255) (frame 1 0) := by
  have number : ((frame 1 0).get 0).toNat / 256 = 1 := by decide
  have zero : ((frame 0 0).get 0).toNat / 256 = 0 := by decide
  refine ⟨nofun, ?_, ?_, ⟨255, rfl, by rw [number]; decide⟩⟩
  · rintro ⟨r, h, k⟩
    injection h with h
    subst h
    exact k number
  · rintro ⟨r, h, k⟩
    injection h with h
    subst h
    exact k zero

/-- In STARTING with primed yes, in VALID with a history of 63 and of 64 triples: the frame is handed on. -/
def valid : State := inState .closed 0 (sampling .valid State.reset)

theorem test_hyp_handed_on : valid.resetLine = false ∧ valid.sample.reception = .receiving ∧ valid.sample.state = .valid ∧
    (valid.feeder 0).ready = true ∧ (valid.feeder 1).ready = false ∧
    ∀ cause, ¬FrameFails valid.settings.slotMap valid.sample.reference (frame 1 4000) cause :=
  ⟨rfl, rfl, rfl, by decide, by decide, frame_passes (by decide) rfl⟩

theorem test_hyp_histories :
    let s (n : Nat) := { valid with captures := { valid.captures with
      histories := valid.captures.histories.set 0 (List.replicate n { current := none, voltage := none, bus := none }) } }
    (((s 63).captures.histories.get 0).length < 64) ∧ ((s 64).captures.histories.get 0).length = 64 := by decide

theorem test_frame_is_handed_on :
    let t := after (.frameComplete (frame 1 4000)) valid
    t.sample.last.values.ifs.get 0 = some 4000 ∧ (t.feeder 0).lastIf = some 4000 ∧ (t.feeder 0).peakIf = 4000 := by
  decide +kernel

/-- The frame watch set at 0 has run out at 200 us, in STARTING and in VALID, and not before. -/
theorem test_hyp_silent_line :
    let s (x : SampleState) := { sampling x State.reset with
      now := 20000, sample := { (sampling x State.reset).sample with frameWatch := some 0 } }
    (s .starting).sample.frameWatch = some 0 ∧ 0 + 20000 ≤ (s .starting).now ∧ (s .starting).sample.state = .starting ∧
      (s .valid).sample.state = .valid ∧ (s .valid).sample.outageStart = none ∧
      after .frameWatchExpiry { s .valid with now := 19999 } = { s .valid with now := 19999 } := by
  decide +kernel

/-! ## Field inputs -/

/-- F0's contacts at CLOSED since 0, with a position, at a time in ms. -/
def reading (position : Option Position) (r : Position) (n : Nat) : State :=
  at_ n (State.reset.modInput 0 fun x =>
    { x with a := r == .closed, b := r == .opened, reading := r, position := position })

theorem test_hyp_contacts : Reads false false .invalid ∧ Reads true false .closed ∧ Reads false true .opened ∧
    Reads true true .invalid ∧ ((at_ 1 State.reset).inputOf .ac).since < (at_ 1 State.reset).now ∧
    ((at_ 1 State.reset).inputOf .ac).reading = .invalid := by
  unfold Reads
  decide

theorem test_hyp_position : ((reading none .closed 4).inputOf (.feeder 0)).position ≠ some .closed ∧
    ((reading none .closed 4).inputOf (.feeder 0)).since + 400000 ≤ (reading none .closed 4).now ∧
    ((reading none .closed 4).input 0).reported = false ∧ (reading none .closed 3).now < 400000 := by decide

/-- After 4 ms F0 is ready and CLOSED, and protected. -/
theorem test_first_position : ((after (.positionDebounceExpiry (.feeder 0)) (reading none .closed 4)).feeder 0).state = .closed ∧
    ((after (.positionDebounceExpiry (.feeder 0)) (reading none .closed 4)).fault 0).active = true := by decide +kernel

theorem test_hyp_position_restored :
    let s := (reading (some .invalid) .opened 4).modInput 0 fun x => { x with reported := true }
    (s.inputOf (.feeder 0)).position ≠ some (s.inputOf (.feeder 0)).reading ∧
      (s.inputOf (.feeder 0)).reported = true := by decide

theorem test_hyp_position_fault :
    let s (n : Nat) := (reading (some .invalid) .invalid n).modInput 0 fun x => { x with invalidSince := some 0 }
    ((s 200).inputOf (.feeder 0)).reported = false ∧ 0 + 20000000 ≤ (s 200).now ∧
      after (.positionFault (.feeder 0)) (s 199) = s 199 := by decide +kernel

/-- A POSITION FAULT names the position held before the episode, and is reported once. -/
theorem test_position_fault :
    let s := (reading (some .invalid) .invalid 200).modInput 0 fun x => { x with invalidSince := some 0, before := some .closed }
    ((after (.positionFault (.feeder 0)) s).events.ring.getLast?.map fun e => (e.kind, e.value1)) = some (.positionFault, some 1)
      ∧ ((after (.positionFault (.feeder 0)) s).input 0).reported = true := by decide +kernel

/-- The key made since 0 while the location is LOCAL, with an item held by A and one by B. -/
def keyMade : State :=
  at_ 4 { holds .B .rectifier (holds .A (.feeder 0) State.reset) with key := { KeyInput.reset true 0 with made := true } }

theorem test_hyp_key : keyMade.key.since < keyMade.now ∧ keyMade.key.location = .localKey ∧
    keyMade.key.since + 400000 ≤ keyMade.now ∧ (keyMade.holding .rectifier).isSome = true ∧
    keyMade.holding (.feeder 1) = none := by decide

theorem test_hyp_excluded : Excludes .remoteKey .A ∧ ¬Excludes .remoteKey .G ∧ Excludes .localKey .G ∧
    ¬Excludes .localKey .B := by
  unfold Excludes
  decide

/-- F0 with its far end on link 0, heard at 0 as CLOSED. -/
def farHeard : State :=
  let s := inState .closed 0 State.reset
  let s := { s with settings := { s.settings with
    feeders := s.settings.feeders.set 0 { FeederSettings.default with inService := true, farLink := some .link0 } } }
  s.modSection 0 fun r => { r with farState := some .closed, staleFrom := some 0, matching := .matched, heard := true }

theorem test_hyp_stale : ((at_ 50 farHeard).section' 0).staleFrom = some 0 ∧ 0 + 5000000 ≤ (at_ 50 farHeard).now ∧
    ((at_ 50 farHeard).section' 0).farState ≠ none ∧ ((at_ 50 farHeard).feeder 0).ready = true ∧
    after (.farStateStale 0) (at_ 49 farHeard) = at_ 49 farHeard := by decide +kernel

theorem test_hyp_lines : (farHeard.feeder 0).ready = true ∧ farHeard.resetLine = false ∧
    (inState .tripping 0 State.reset).tripLine 0 = true ∧ (inState .testing 0 State.reset).testLine 0 = true ∧
    (inState .closing 0 State.reset).closeLine 0 = true := by decide

/-! ## Fault Detection -/

/-- F0 protected with marks held, and a sample line in VALID. -/
def watching (history : List Mark) (previous : Option Int) (i0 : Option Int) (rise : Nat) : State :=
  valid.modFault 0 fun d =>
    { d with active := true, protectSince := some 0, history := history, previousIf := previous, i0 := i0, riseCounter := rise }

theorem test_hyp_hands_on : (watching [true] none none 0).handsOn (frame 1 4000) :=
  ⟨rfl, rfl, .inr rfl, frame_passes (by decide) rfl⟩

theorem test_hyp_hands_on_primed :
    let s := { sampling .starting State.reset with
      sample := { (sampling .starting State.reset).sample with primed := true } }
    s.handsOn (frame 1 4000) := ⟨rfl, rfl, .inl ⟨rfl, rfl⟩, frame_passes (by decide) rfl⟩

theorem test_hyp_imax : ((watching [true] none none 0).fault 0).active = true ∧
    ((watching [true] none none 0).fault 0).outstanding = false ∧
    ((watching [true] none none 0).marksAfter 0 4000).count true = 2 ∧
    ((watching [true] none none 0).marksAfter 0 3999).count true = 1 ∧
    ((watching [true, false, false] none none 0).marksAfter 0 4000).count true = 1 := by decide

/-- A valid frame taken by Fault Detection and Breaker Control, before it reaches the Capture Unit. -/
def taken (w : File Word 34) (s : State) : State :=
  let q := quantities s.settings.slotMap w
  let t := (s.modSample fun x => ({ x with reception := .complete } : SamplePort).taken (frameNumber w) s.now).settleCaptures
  let t := t.modSample fun x =>
    { x with discards := 0, lastDiscard := .noCause,
             last := { values := q, number := some (frameNumber w), time := some t.time.now } }
  (t.frameAtFaults (continuity s.sample.reference (frameNumber w)) (frameNumber w) q).frameAtFeeders q

/-- A frame that decides a trip reaches the Capture Unit at once or later: what holds either way holds after it. -/
theorem after_deciding_frame (P : State → Prop) (w : File Word 34) (s : State) (q : Quantities)
    (h : after (.frameComplete w) s = (taken w s).frameAtCaptures true q)
    (now : P (together (frameParts q ++ fillParts q ++ waitParts readsBus)
      ({ taken w s with choices := (taken w s).choices + 1 }.frameHistories q)))
    (later : P (together (frameParts q ++ waitParts readsBus)
      ({ taken w s with choices := (taken w s).choices + 1 }.frameLate q))) :
    P (after (.frameComplete w) s) := by
  rw [h]
  unfold State.frameAtCaptures
  dsimp only
  rw [if_pos rfl]
  split
  · exact now
  · exact later

/-- A second pickup decides a trip with cause IMAX. -/
theorem test_imax_trips :
    let t := after (.frameComplete (frame 1 4000)) (watching [true] none none 0)
    (t.fault 0).outstanding = true ∧ ((t.fault 0).requests.map (·.cause)) = [.imax] := by
  let s := watching [true] none none 0
  apply after_deciding_frame (fun t => (t.fault 0).outstanding = true ∧ ((t.fault 0).requests.map (·.cause)) = [.imax])
    _ _ (quantities s.settings.slotMap (frame 1 4000)) rfl <;> decide +kernel

theorem test_hyp_rise_step : (watching [] (some 980) none 0).stepAt 0 (frame 1 1000) 1000 (some 20) ∧
    (watching [] (some 981) none 0).stepAt 0 (frame 1 1000) 1000 (some 19) ∧
    (watching [] none none 0).stepAt 0 (frame 1 1000) 1000 none := by
  refine ⟨⟨fun p _ h _ => ?_, ?_⟩, ⟨fun p _ h _ => ?_, ?_⟩, ⟨fun p _ h _ => ?_, fun _ => rfl⟩⟩
  · injection h with h
    subst h
    rfl
  · rintro (h | h | ⟨r, h, _⟩)
    · cases h
    · cases h
    · cases h
  · injection h with h
    subst h
    rfl
  · rintro (h | h | ⟨r, h, _⟩)
    · cases h
    · cases h
    · cases h
  · cases h

/-- The rise from I0 = 0 reaches deltaI at 1500 with the 40th frame, not with the 39th; and the low count at 1. -/
theorem test_hyp_rising : ((watching [] (some 1490) (some 0) 39).fault 0).i0 = some 0 ∧
    ((watching [] (some 1490) (some 0) 39).groupCopy 0).deltaI = 1500 ∧ (40 : Nat) ≤ bump 39 ∧ ¬(40 : Nat) ≤ bump 38 ∧
    ((watching [] (some 1490) (some 0) 39).marksAfter 0 1500).count true < 2 := by decide

theorem test_rise_trips :
    (((after (.frameComplete (frame 1 1500)) (watching [] (some 1490) (some 0) 39)).fault 0).requests.map (·.cause)) = [.rise] ∧
      (((after (.frameComplete (frame 1 1500)) (watching [] (some 1490) (some 0) 38)).fault 0).i0) = some 0 := by
  let s := watching [] (some 1490) (some 0) 39
  refine ⟨?_, by decide +kernel⟩
  apply after_deciding_frame (fun t => ((t.fault 0).requests.map (·.cause)) = [.rise]) _ _
    (quantities s.settings.slotMap (frame 1 1500)) rfl <;> decide +kernel

/-- A second step in a row below R2 = 5 ends a rise, and one at 5 does not. -/
theorem test_low_steps :
    let s := (watching [] (some 1000) (some 0) 1).modFault 0 fun d => { d with lowCount := 1 }
    let t (i : Nat) := (after (.frameComplete (frame 1 i)) s).fault 0
    (s.fault 0).lowCount + 1 = 2 ∧ (s.groupCopy 0).r2 = 5 ∧ (s.marksAfter 0 1004).count true < 2 ∧
      (t 1004).i0 = none ∧ (t 1004).riseCounter = 0 ∧ (t 1004).lowCount = 0 ∧
      (t 1005).i0 = some 0 ∧ (t 1005).riseCounter = 2 ∧ (t 1005).lowCount = 0 := by decide +kernel

theorem test_hyp_blind :
    let s (n : Nat) := at_ n (State.reset.modFault 0 fun d => { d with active := true, protectSince := some 0 })
    ((s 20).fault 0).blindSince = some 0 ∧ max 0 0 + ((s 20).config 0).blindLimit * 100000 ≤ (s 20).now ∧
      after (.blindDeadlineExpiry 0) (s 19) = s 19 := by decide +kernel

/-! ## Breaker operations -/

/-- A protection request for F0. -/
def decision (cause : TripCause) : TripDecision :=
  { cause := cause, group := .normal, frame := some 1, current := some 4000, voltage := none, value1 := 4000,
    value2 := 2, time := { seconds := 0, fraction := 0 } }

/-- F0 in a state, in service, with one protection request handed over. -/
def requested (x : FeederState) : State :=
  (inState x 0 State.reset).modFault 0 fun d => { d with active := true, requests := [decision .imax] }

theorem test_hyp_trip_request : (requested .closed).resetLine = false ∧
    ((requested .closed).fault 0).requests = [decision .imax] ∧ ((requested .closed).feeder 0).state = .closed ∧
    ((requested .closing).feeder 0).state = .closing ∧ ((requested .opened).feeder 0).state = .opened := by decide

theorem test_trip_request :
    ((after (.tripRequest 0) (requested .closed)).feeder 0).state = .tripping ∧
      (after (.tripRequest 0) (requested .opened)).feeders = (requested .opened).feeders := by decide +kernel

/-- An operation of F0 begun at 0 with a deadline at d. -/
def running (x : FeederState) (kind : OperationKind) (o : Origin) (d : Option Instant) (s : State) : State :=
  s.modFeeder 0 fun r => { r with
    ready := true, state := x,
    operation := some
      { kind := kind, origin := o, startTime := { seconds := 0, fraction := 0 }, startAt := 0, deadline := d,
        testMode := .unclaimed } }

/-- F0 tripping, its confirm limit at 60 ms. -/
def tripping : State := running .tripping .opening .protection (some 6000000) State.reset

theorem test_hyp_trip_limit : ((at_ 60 tripping).feeder 0).state = .tripping ∧
    (((at_ 60 tripping).feeder 0).operation.bind (·.deadline)) = some 6000000 ∧ 6000000 ≤ (at_ 60 tripping).now ∧
    after (.tripConfirmLimit 0) (at_ 59 tripping) = at_ 59 tripping ∧
    ((after (.tripConfirmLimit 0) (at_ 60 tripping)).feeder 0).state = .breakerFailed := by decide +kernel

/-- F0's contacts read a position since 0, after another one, with an operation. -/
def positioned (position : Position) (r : Position) (x : FeederState) (kind : OperationKind) (attempts : Nat) : State :=
  let s := running x kind .protection (some 6000000) (reading (some position) r 4)
  s.modFeeder 0 fun y => { y with attempts := attempts, lastTripCause := .imax }

theorem test_hyp_trip_confirmed :
    let s (n : Nat) := positioned .closed .opened .tripping .opening n
    ((s 0).input 0).position = some .closed ∧ ((s 0).input 0).reading = .opened ∧
      ((s 0).input 0).since + 400000 ≤ (s 0).now ∧ ((s 0).feeder 0).operation ≠ none ∧
      ((s 1).config 0).maxReclose = 2 ∧ ((s 1).feeder 0).attempts = 1 ∧ ((s 2).feeder 0).attempts = 2 ∧
      ((s 0).feeder 0).lastTripCause = .imax := by decide

theorem test_trip_confirmed :
    let s (n : Nat) := after (.positionDebounceExpiry (.feeder 0)) (positioned .closed .opened .tripping .opening n)
    ((s 1).feeder 0).state = .recloseWait ∧ ((s 2).feeder 0).state = .lockedOut := by decide +kernel

/-- OPEN FEEDER and RESET LOCKOUT: no such feeder, F0 not ready, F0 ready. -/
theorem test_hyp_open_feeder :
    (offering .A 0x10 [8] State.reset).offers .A 0x10 7 [8] ∧
      (offering .A 0x10 [7] State.reset).offers .A 0x10 7 [BitVec.ofNat 8 (7 : Feeder).val] ∧
      (∀ f : Feeder, ([8] : List Byte) ≠ [BitVec.ofNat 8 f.val]) ∧ (State.reset.feeder 7).ready = false ∧
      ((inState .closed 7 State.reset).feeder 7).ready = true := by
  exact ⟨offering_offers _ _ _ _ rfl rfl, offering_offers _ _ _ _ rfl rfl, by decide, rfl, by decide⟩

theorem test_open_feeder :
    let s := after (.openFeeder .A) (offering .A 0x10 [0] (inState .closed 0 State.reset))
    (s.feeder 0).state = .tripping ∧ ((s.port .A).responses.map (·.status)) = [.accepted] := by decide +kernel

/-- F0 OPEN and held by A, its eight checks passing, and its line voltage at u; the bus live at 5000. -/
def closable (u : Int) : State :=
  let s := State.reset
  let s := { s with
    settings := { s.settings with
      feeders := s.settings.feeders.set 0 { FeederSettings.default with inService := true },
      slotMap := ((File.fill 32 SlotEntry.unused).set 0 (.feederVoltage 0)).set 1 .busVoltage },
    sample := { s.sample with
      state := .valid,
      last := { s.sample.last with
        values := { Quantities.absent with ufs := (File.fill 8 none).set 0 (some u), ub := some 5000 } } } }
  let s := s.modInput 0 fun x => { x with position := some .opened }
  holds .A (.feeder 0) (inState .opened 0 s)

/-- The same with the far end known to be CLOSED. -/
def nearLive (u : Int) : State := (closable u).modSection 0 fun x => { x with farState := some .closed }

/-- The same with its far end on link 0, UP. -/
def claimable : State :=
  let s := closable 0
  let s := { s with settings := { s.settings with
    feeders := s.settings.feeders.set 0 { FeederSettings.default with inService := true, farLink := some .link0 } } }
  (s.modLink .link0 fun k => { k with state := .up }).modSection 0 fun x => { x with matching := .matched }

theorem test_hyp_close_feeder :
    (closable 0).closeCheck 0 false = none ∧ (closable 0).lineLive 0 = false ∧ (nearLive 4500).lineLive 0 = true ∧
      (nearLive 4499).lineLive 0 = false ∧ (nearLive 4500).closeCheck 0 false = none ∧ ((closable 0).config 0).farLink = none ∧ (closable 0).admits .A = true ∧
      (((closable 0).holding (.feeder 0)).map (·.holder)) = some .A ∧ ((closable 0).feeder 0).ready = true ∧
      claimable.closeCheck 0 false = none ∧ (claimable.config 0).farLink = some .link0 ∧
      (claimable.link .link0).state = .up ∧ (claimable.link .link0).conflict = false ∧
      (claimable.section' 0).matching = .matched ∧
      (inState .closed 0 (closable 0)).closeCheck 0 false = some .state := by decide +kernel

theorem test_hyp_close_offers : (offering .A 0x11 [0] (closable 0)).offers .A 0x11 7 [BitVec.ofNat 8 (0 : Feeder).val] :=
  offering_offers _ _ _ _ (by decide) (by decide)

theorem test_close_feeder :
    let s (x : State) := (after (.closeFeeder .A) (offering .A 0x11 [0] x)).feeder 0
    (s (nearLive 4500)).state = .closing ∧ (s (nearLive 4499)).state = .testing ∧ (s claimable).state = .claiming ∧
      (s (claimable.modLink .link0 fun k => { k with conflict := true })).state = .opened := by decide +kernel

/-- Each check in turn is the first to fail. -/
theorem test_hyp_close_checks :
    let dead := { closable 0 with sample := { (closable 0).sample with
      last := { (closable 0).sample.last with values := { (closable 0).sample.last.values with ub := some 4999 } } } }
    State.reset.closeCheck 0 false = some .notInService ∧
      (inState .lockedOut 0 (closable 0)).closeCheck 0 false = some .lockedOut ∧
      (inState .breakerFailed 0 (closable 0)).closeCheck 0 false = some .breakerFailed ∧
      (inState .recloseWait 0 (closable 0)).closeCheck 0 false = some .state ∧
      (inState .recloseWait 0 (closable 0)).closeCheck 0 true = none ∧
      ((closable 0).modInput 0 fun x => { x with position := some .invalid }).closeCheck 0 false
        = some .positionInvalid ∧
      ((closable 0).modInput 0 fun x => { x with position := some .closed }).closeCheck 0 false = some .state ∧
      { closable 0 with sample := { (closable 0).sample with state := .lost } }.closeCheck 0 false
        = some .measurementLost ∧
      dead.closeCheck 0 false = some .busDead ∧
      (claimable.modSection 0 fun x => { x with claim := .grantedToFar }).closeCheck 0 false = some .farTest := by
  decide +kernel

theorem test_hyp_reset_lockout :
    (offering .A 0x12 [0] (closable 0)).offers .A 0x12 7 [BitVec.ofNat 8 (0 : Feeder).val] ∧
      ((inState .lockedOut 0 (closable 0)).feeder 0).state = .lockedOut ∧ (closable 0).position 0 = .opened ∧
      ((closable 0).modInput 0 fun x => { x with position := some .closed }).position 0 = .closed ∧
      ((closable 0).fault 0).active = false := by
  refine ⟨offering_offers _ _ _ _ (by decide) (by decide), by decide, by decide, by decide, by decide⟩

theorem test_reset_lockout :
    let s (x : State) := (after (.resetLockout .A) (offering .A 0x12 [0] (inState .lockedOut 0 x)))
    ((s (closable 0)).feeder 0).state = .opened ∧
      ((s ((closable 0).modInput 0 fun x => { x with position := some .closed })).feeder 0).state = .closed := by
  decide +kernel

/-- F0 in CLAIMING with its claim sent, the deadline at 100 ms. -/
def claiming : State :=
  (running .claiming .close (.port .A) none claimable).modSection 0 fun x =>
    { x with claim := .claimSent, claimDeadline := some 10000000 }

theorem test_hyp_claim_deadline : ((at_ 100 claiming).section' 0).claim = .claimSent ∧
    ((at_ 100 claiming).section' 0).claimDeadline = some 10000000 ∧ 10000000 ≤ (at_ 100 claiming).now ∧
    ((at_ 100 claiming).feeder 0).operation ≠ none ∧ (at_ 100 claiming).resetLine = false ∧
    after (.claimDeadline 0) (at_ 99 claiming) = at_ 99 claiming ∧
    ((after (.claimDeadline 0) (at_ 100 claiming)).feeder 0).state = .opened := by decide +kernel

/-- F0 in TESTING to 400 ms, at a line voltage. -/
def testing (u : Int) (o : Origin) : State := at_ 400 (running .testing .close o (some 40000000) (closable u))

theorem test_hyp_test_end : ((testing 0 .auto).feeder 0).state = .testing ∧
    (((testing 0 .auto).feeder 0).operation.bind (·.deadline)) = some (testing 0 .auto).now ∧
    (testing 4000 .auto).sample.last.values.ufs.get 0 = some 4000 ∧
    (testing 4000 .auto).sample.last.values.ub = some 5000 ∧
    ((80 : Nat) : Int) * 5000 ≤ 100 * 4000 ∧ ¬((80 : Nat) : Int) * 5000 ≤ 100 * 3999 ∧
    ((testing 0 .auto).config 0).healthy = 80 ∧ (testing 4000 .auto).recheck 0 = none := by decide +kernel

theorem test_test_end :
    ((after (.testEnd 0) (testing 4000 .auto)).feeder 0).state = .closing ∧
      ((after (.testEnd 0) (testing 3999 .auto)).feeder 0).state = .recloseWait ∧
      ((after (.testEnd 0) (testing 3999 (.port .A))).feeder 0).state = .opened := by decide +kernel

/-- In TESTING, an absent line voltage, an absent bus voltage, and rechecks 6 and 7 failing. -/
theorem test_hyp_test_end_unjudged :
    let s (v : Quantities) (x : SampleState) := { testing 0 .auto with sample := { (testing 0 .auto).sample with
      state := x, last := { (testing 0 .auto).sample.last with values := v } } }
    let u : Quantities := { Quantities.absent with ufs := (File.fill 8 none).set 0 (some 4000) }
    (s Quantities.absent .valid).sample.last.values.ufs.get 0 = none ∧
      (s u .valid).sample.last.values.ufs.get 0 = some 4000 ∧ (s u .valid).sample.last.values.ub = none ∧
      (s { u with ub := some 5000 } .lost).recheck 0 = some .measurementLost ∧
      (s { u with ub := some 4999 } .valid).recheck 0 = some .busDead := by decide +kernel

/-- F0 in a claimed test to 400 ms, its claim granted by the far end. -/
def claimedTest : State :=
  ((at_ 400 (running .testing .close .auto (some 40000000) claimable)).modFeeder 0 fun r =>
    { r with operation := r.operation.map fun op => { op with testMode := .claimed } }).modSection 0 fun x =>
    { x with claim := .grantedToUs, claimDeadline := some 7 }

/-- Its end, and the loss of measurement, give the claim back. -/
theorem test_claimed_test :
    let lost := { claimedTest with sample := { claimedTest.sample with frameWatch := some 0 } }
    let r (t : State) := ((t.section' 0).claim, (t.section' 0).claimDeadline, (t.link .link0).pendingSet.map (·.signal))
    (claimedTest.feeder 0).operation.map (·.testMode) = some .claimed ∧ lost.sample.state = .valid ∧
      (∀ g, g ≠ 0 → (lost.feeder g).state ≠ .testing) ∧
      r (after (.testEnd 0) claimedTest) = (.idle, none, [.testDone 0]) ∧
      r (after .frameWatchExpiry lost) = (.idle, none, [.testDone 0]) ∧
      ((after .frameWatchExpiry lost).feeder 0).state = .recloseWait := by decide +kernel

theorem test_hyp_close_confirm :
    let s := at_ 150 (running .closing .close .auto (some 15000000) (closable 0))
    let c := positioned .opened .closed .closing .close 0
    (s.feeder 0).state = .closing ∧ ((s.feeder 0).operation.bind (·.deadline)) = some s.now ∧
      ((after (.closeConfirmLimit 0) s).feeder 0).state = .opened ∧
      (c.feeder 0).state = .closing ∧ (c.input 0).position = some .opened ∧ (c.input 0).reading = .closed ∧
      (c.input 0).since + 400000 ≤ c.now ∧
      ((after (.positionDebounceExpiry (.feeder 0)) c).feeder 0).state = .closed := by decide +kernel

/-- F0 in RECLOSE_WAIT, due at 5 s, after n attempts. -/
def waiting (n : Nat) (s : State) : State :=
  at_ 5000 (s.modFeeder 0 fun r => { r with
    ready := true, state := .recloseWait, recloseDue := some 500000000, attempts := n })

theorem test_hyp_reclose_due :
    ((waiting 2 (closable 0)).feeder 0).recloseDue = some (waiting 2 (closable 0)).now ∧
      ((waiting 2 (closable 0)).feeder 0).deferred = false ∧ ((waiting 2 (closable 0)).config 0).maxReclose = 2 ∧
      (waiting 1 (closable 0)).closeCheck 0 true = none ∧
      (waiting 1 (claimable.modSection 0 fun x => { x with claim := .grantedToFar })).closeCheck 0 true
        = some .farTest ∧
      (waiting 1 claimable).closeCheck 0 true = none ∧ (waiting 1 claimable).lineLive 0 = false ∧
      (waiting 1 ((closable 0).modInput 0 fun x => { x with position := some .closed })).closeCheck 0 true
        = some .state := by decide +kernel

theorem test_reclose_due :
    ((after (.recloseDue 0) (waiting 2 (closable 0))).feeder 0).state = .lockedOut ∧
      ((after (.recloseDue 0) (waiting 1 (closable 0))).feeder 0).state = .testing ∧
      ((after (.recloseDue 0) (waiting 1 claimable)).feeder 0).state = .claiming := by decide +kernel

/-- F0 due to reclose with no reclose allowed. -/
theorem test_no_reclose :
    let v := (closable 0).settings
    let s := { waiting 1 (closable 0) with
      settings := { v with feeders := v.feeders.set 0 { v.feeders.get 0 with maxReclose := 0 } } }
    (s.config 0).maxReclose = 0 ∧ ((after (.recloseDue 0) s).feeder 0).state = .opened := by decide +kernel

theorem test_hyp_reclaim :
    let s (n : Nat) := at_ 60000 ((inState .closed 0 State.reset).modFeeder 0 fun r =>
      { r with reclaimWatch := some 6000000000, attempts := n })
    ((s 0).feeder 0).reclaimWatch = some (s 0).now ∧ ((s 0).feeder 0).attempts = 0 ∧ 0 < ((s 1).feeder 0).attempts ∧
      ((s 1).feeder 0).state = .closed ∧ ((after (.reclaimWatchExpiry 0) (s 1)).feeder 0).attempts = 0 := by
  decide +kernel

/-- F0's contacts read a position since 0, after another one, in a state that awaits none. -/
def moved (position : Position) (r : Position) (x : FeederState) : State :=
  (inState x 0 (reading (some position) r 4)).modFault 0 fun d => { d with active := x == .closed }

theorem test_hyp_uncommanded : ((moved .closed .opened .closed).feeder 0).ready = true ∧
    ((moved .closed .opened .closed).input 0).position ≠ some .opened ∧
    ((moved .closed .opened .closed).input 0).since + 400000 ≤ (moved .closed .opened .closed).now ∧
    ((moved .closed .opened .closed).fault 0).active = true ∧ ((moved .opened .closed .opened).fault 0).active = false ∧
    ((moved .closed .invalid .closed).input 0).reported = false ∧
    ((positioned .opened .closed .testing .close 1).feeder 0).operation ≠ none ∧
    ((positioned .opened .closed .claiming .close 1).feeder 0).state = .claiming := by decide +kernel

theorem test_uncommanded :
    let t (x : State) := after (.positionDebounceExpiry (.feeder 0)) x
    let r (x : State) := (((t x).feeder 0).state, (t x).events.ring.drop 2 |>.map (·.kind))
    r (moved .closed .opened .closed) = (.opened, [.openedUncommanded]) ∧
      r (moved .opened .closed .opened) = (.closed, [.closedUncommanded]) ∧
      r (moved .opened .closed .recloseWait) = (.closed, [.closedUncommanded]) ∧
      r (positioned .opened .closed .testing .close 1) = (.closed, [.closeResult, .closedUncommanded]) ∧
      r (positioned .opened .closed .claiming .close 1) = (.closed, [.closeResult, .closedUncommanded]) ∧
      r (moved .opened .closed .lockedOut) = (.lockedOut, [.closedUncommanded]) ∧
      r (moved .closed .invalid .closed) = (.closed, []) ∧ r (moved .invalid .closed .closed) = (.closed, []) ∧
      r (moved .closed .opened .recloseWait) = (.recloseWait, []) ∧
      r (moved .invalid .opened .lockedOut) = (.lockedOut, []) := by decide +kernel

/-- A trip confirmed in BREAKER_FAILED, and one whose cause is COMMANDED. -/
theorem test_trip_confirmed_otherwise :
    let s (x : FeederState) (c : TripCause) :=
      (positioned .closed .opened x .opening 1).modFeeder 0 fun y => { y with lastTripCause := c }
    let t (x : FeederState) (c : TripCause) := (after (.positionDebounceExpiry (.feeder 0)) (s x c)).feeder 0
    ((s .breakerFailed .imax).feeder 0).state = .breakerFailed ∧
      ((s .tripping .commanded).feeder 0).lastTripCause = .commanded ∧
      (t .breakerFailed .imax).state = .lockedOut ∧ (t .breakerFailed .imax).lockoutReason = some .breakerFailed ∧
      (t .tripping .commanded).state = .opened := by decide +kernel

/-! ## Control authority, ports and the record -/

theorem test_hyp_claim : (offering .A 0x01 [1, 0xFF] State.reset).offers .A 0x01 7 [1, 0xFF] ∧
    ItemSet [1, 0xFF] 511 ∧ ItemSet [2, 0] 512 ∧ ItemSet [0, 0] 0 ∧ (∀ n, ItemSet [1] n → 512 ≤ n) ∧
    ¬Excludes State.reset.authority.location .A ∧ Excludes State.reset.authority.location .G ∧
    State.reset.holding .rectifier = none := by
  refine ⟨offering_offers _ _ _ _ rfl rfl, ⟨1, 0xFF, rfl, by decide⟩, ⟨2, 0, rfl, by decide⟩, ⟨0, 0, rfl, by decide⟩,
    fun n h => ?_, ?_, .inl ⟨rfl, rfl⟩, by decide⟩
  · obtain ⟨_, _, h, _⟩ := h
    cases h
  · rintro (⟨_, h⟩ | ⟨h, _⟩)
    · cases h
    · cases h

/-- B holds the rectifier, A the feeders F0 and F2. -/
def shared : State := holds .B .rectifier (holds .A (.feeder 2) (holds .A (.feeder 0) State.reset))

/-- The key turned to REMOTE takes every item, in their order. -/
theorem test_location_takes_items :
    let s := at_ 4 { shared with key := { KeyInput.reset true 0 with made := true } }
    s.key.since + 400000 ≤ s.now ∧
      ((after .locationChanged s).events.ring.drop 2 |>.map fun e => (e.kind, e.subject, e.origin, e.value1))
        = [(.locationChanged, .nothing, .protection, none), (.authorityLost, .feeder 0, .port .A, some 4),
           (.authorityLost, .feeder 2, .port .A, some 4), (.authorityLost, .rectifier, .port .B, some 4)] := by
  decide +kernel

/-- READ FEEDERS of a feeder not ready, and of a ready one. -/
theorem test_not_ready_report : ((State.reset.shownFeeder 0).ready).isNone = true ∧
    (((inState .opened 0 State.reset).shownFeeder 0).ready).isSome = true := by decide +kernel

theorem test_hyp_claim_held : (511).testBit Item.rectifier.index.val = true ∧
    (shared.holding .rectifier).map (·.holder) = some .B ∧ (shared.holding (.feeder 2)).map (·.holder) = some .A ∧
    shared.holding (.feeder 1) = none ∧ (5).testBit (Item.feeder 0).index.val = true ∧
    (5).testBit (Item.feeder 1).index.val = false := by decide +kernel

theorem test_claim :
    let s (p : Port) (body : List Byte) := (((after (.claim p) (offering p 0x01 body shared)).port p).responses.map (·.status))
    s .A [1, 0xFF] = [.refused (.heldByOther .rectifier .B)] ∧ s .A [0, 0xFF] = [.done] ∧
      s .G [0, 1] = [.refused .wrongLocation] ∧ s .B [2, 0] = [.refused .badArgument] := by decide +kernel

theorem test_release :
    let s := after (.release .A) (offering .A 0x02 [1, 1] shared)
    s.holding (.feeder 0) = none ∧ (s.holding .rectifier).isSome = true ∧ (s.holding (.feeder 2)).isSome = true := by
  decide +kernel

theorem test_hyp_release : (offering .A 0x02 [1, 1] shared).offers .A 0x02 7 [1, 1] ∧ ItemSet [1, 1] 257 ∧
    (257).testBit (Item.feeder 0).index.val = true ∧ (257).testBit Item.rectifier.index.val = true :=
  ⟨offering_offers _ _ _ _ (by decide) (by decide), ⟨1, 1, rfl, by decide⟩, by decide, by decide⟩

theorem test_hyp_lease :
    ((at_ 2000 shared).holding .rectifier) = some { holder := .B, expiry := 200000000, grantedAt := 0, lease := 2000 } ∧
      200000000 ≤ (at_ 2000 shared).now ∧ after (.leaseExpiry .rectifier) (at_ 1999 shared) = at_ 1999 shared := by
  decide +kernel

/-- The refusals of the Authority Table for a request of A that needs R: at REMOTE, unheld, and held by B. -/
theorem test_refused_by_the_table :
    let away := { shared with key := { shared.key with location := .remoteKey },
                              authority := { shared.authority with location := .remoteKey } }
    let r (x : State) := ((after (.startRectifier .A) (offering .A 0x20 [] x)).port .A).responses.map (·.status)
    Excludes away.authority.location .A ∧ ¬Excludes shared.authority.location .A ∧
      State.reset.holding .rectifier = none ∧ (shared.holding .rectifier).map (·.holder) = some .B ∧
      r away = [.refused .wrongLocation] ∧ r State.reset = [.refused (.notAuthorised true (some .rectifier))] ∧
      r shared = [.refused (.heldByOther .rectifier .B)] := by
  unfold Excludes
  decide +kernel

theorem test_feeder_refusals :
    let x := holds .B (.feeder 0) (inState .lockedOut 0 State.reset)
    let r (c : Instr) (k : Byte) (b : Byte) (x : State) := ((after c (offering .A k [b] x)).port .A).responses.map (·.status)
    r (.closeFeeder .A) 0x11 8 x = [.refused .badArgument] ∧ r (.closeFeeder .A) 0x11 1 x = [.refused .notReady] ∧
      r (.closeFeeder .A) 0x11 0 x = [.refused (.heldByOther (.feeder 0) .B)] ∧
      r (.resetLockout .A) 0x12 0 x = [.refused (.heldByOther (.feeder 0) .B)] ∧
      r (.setAlpha .A) 0x22 0 x = [.refused .badArgument] := by decide +kernel

/-- Port A selected. -/
def selected : State := after (.selectAsserted .A) shared

theorem test_hyp_port_reset : selected.resetLine = false ∧ (selected.port .A).selected = true ∧
    scan (requestFrame 0x7E 9 []) = .frame 0x7E 9 [] true := by decide +kernel

theorem test_port_reset :
    let s := after (.requestFrameReceived .A ⟨requestFrame 0x7E 9 [], 3⟩) (offering .A 0x10 [0] selected)
    (s.port .A).buffers = [] ∧ (s.port .A).sent = 0 ∧ ((s.port .A).responses.map (·.kind)) = [0x7E] ∧ s.holding (.feeder 0) = none ∧
      (s.holding .rectifier).isSome = true := by decide +kernel

/-- What the scan finds: a good frame, one with a bit changed, one broken off, a length of 256 and of 257. -/
theorem test_hyp_frames : scan (requestFrame 0x10 7 [0]) = .frame 0x10 7 [0] true ∧
    scan ((requestFrame 0x10 7 [0]).dropLast ++ [0]) = .frame 0x10 7 [0] false ∧
    scan (requestFrame 0x10 7 [0]).dropLast = .incomplete ∧ scan [0xA5, 1, 0] = .incomplete ∧
    scan [0xA5, 1, 1] = .overLength ∧ scan [] ≠ .incomplete := by decide +kernel

theorem test_hyp_enters : (selected.port .A).buffers.length < 2 ∧
    2 ≤ (({ selected.port .A with buffers := [.bad, .bad] } : MasterPort).buffers.length) := by decide +kernel

theorem test_hyp_turns :
    let s := State.reset.modPort .A fun x => { x with buffers := [.bad] }
    s.resetLine = false ∧ (s.port .A).responses.length < 2 ∧ (s.port .A).buffers.head? = some .bad ∧
      requestCommand .A 0x00 = none ∧ requestCommand .A 0x10 = some (.openFeeder .A) ∧
      (∀ tag body, ¬s.offers .A 0x10 tag body) := by
  refine ⟨rfl, by decide, by decide, by decide, by decide, fun tag body h => ?_⟩
  have := h.2.2
  rw [show ((State.reset.modPort .A fun x => { x with buffers := [.bad] }).port .A).buffers.head? = some .bad by
    decide] at this
  cases this

/-- A request of a kind the catalogue has not. -/
theorem test_hyp_bad_kind : (offering .A 0 [] State.reset).offers .A 0 7 [] := offering_offers _ _ _ _ rfl rfl

/-- Each report, with the arguments at the ends of their ranges. -/
theorem test_hyp_reads : (offering .A 0x73 [0, 9] State.reset).offers .A 0x73 7 [0, 9] ∧
    (offering .B 0x73 [2, 7] State.reset).offers .B 0x73 7 [2, BitVec.ofNat 8 (7 : Feeder).val] ∧
    (offering .G 0x13 [0xFF] State.reset).offers .G 0x13 7 [0xFF] ∧
    (offering .A 0x24 [] State.reset).offers .A 0x24 7 [] ∧ (offering .A 0x32 [] State.reset).offers .A 0x32 7 [] ∧
    (offering .A 0x42 [] State.reset).offers .A 0x42 7 [] ∧ (offering .A 0x57 [] State.reset).offers .A 0x57 7 [] ∧
    (offering .A 0x57 [248, 8] State.reset).offers .A 0x57 7 [248, 8] ∧
    (offering .A 0x57 [255, 1] State.reset).offers .A 0x57 7 [255, 1] ∧
    (offering .A 0x62 [3, 0, 32] State.reset).offers .A 0x62 7 [BitVec.ofNat 8 (3 : Fin 4).val, 0, 32] ∧
    (offering .A 0x7F [] State.reset).offers .A 0x7F 7 [] := by
  refine ⟨?_, ?_, ?_, ?_, ?_, ?_, ?_, ?_, ?_, ?_, ?_⟩ <;> exact offering_offers _ _ _ _ rfl rfl

theorem test_hyp_read_ranges : 1 ≤ (1 : Byte).toNat ∧ (8 : Byte).toNat ≤ 8 ∧ (248 : Byte).toNat + (8 : Byte).toNat ≤ 256 ∧
    (32 : Byte).toNat ≤ 32 := by decide

/-- An IDENTIFY is answered, and a report of the runners past the last slot is refused. -/
theorem test_reads :
    (((after (.identify .G) (offering .G 0x7F [] State.reset)).port .G).responses.map (·.status)) = [.done] ∧
      (((after (.readRunners .A) (offering .A 0x57 [249, 8] State.reset)).port .A).responses.map (·.status))
        = [.refused .badArgument] := by decide +kernel

/-- A record with n entries numbered on from the entries of State.reset. -/
def full : State :=
  { State.reset with events := { State.reset.events with
      ring := (List.range 1024).map fun n => { Entry.settingsDefaulted with sequence := n }, nextSequence := 1024 } }

theorem test_hyp_full_ring : 1024 ≤ full.events.ring.length ∧ (full.cursor .A).next = 0 ∧
    (full.events.ring.head?.map (·.sequence)) = some 0 ∧ State.reset.events.ring.length < 1024 := by decide +kernel

/-- READ EVENTS with counts 0, 1, 16 and 17: two entries wait. -/
theorem test_hyp_read_events :
    (offering .A 0x60 [1] State.reset).offers .A 0x60 7 [1] ∧ (0 : Byte).toNat < 1 ∧ 16 < (17 : Byte).toNat ∧
      1 ≤ (1 : Byte).toNat ∧ (16 : Byte).toNat ≤ 16 ∧ seqDistance (State.reset.cursor .A).next 2 = 2 :=
  ⟨offering_offers _ _ _ _ rfl rfl, by decide, by decide, by decide, by decide, by decide⟩

theorem test_read_events :
    let s (n : Byte) := after (.readEvents .A) (offering .A 0x60 [n] State.reset)
    ((s 1).cursor .A).next = 1 ∧ ((s 16).cursor .A).next = 2 ∧ ((s 17).cursor .A).next = 0 := by decide +kernel

theorem test_hyp_captures_held :
    let c (held : Bool) : Capture :=
      { held := held, feeder := 0, cause := .imax, trigger := 1, time := { seconds := 0, fraction := 0 },
        quality := .unset, pre := 0, truncated := false, triples := [] }
    let s (held : Bool) := State.reset.setBuffer 3 (some (c held))
    (s true).captures.buffers.get 3 = some (c true) ∧ (c true).held = true ∧ (c false).held = false ∧
      State.reset.captures.buffers.get 3 = none := by decide +kernel

theorem test_hyp_record_offers : (offering .A 0x61 [0xFF] State.reset).offers .A 0x61 7 [0xFF] ∧
    (offering .A 0x63 [3] State.reset).offers .A 0x63 7 [BitVec.ofNat 8 (3 : Fin 4).val] :=
  ⟨offering_offers _ _ _ _ rfl rfl, offering_offers _ _ _ _ rfl rfl⟩

/-! ## The rectifier -/

/-- The last crossing at 0, with a period held and n accepted crossings, at m us. -/
def crossing (x : ClockState) (period : Option Nat) (n m : Nat) : State :=
  { State.reset with
    now := m * 100,
    clock := { LineClock.reset with
      state := x, lastCrossing := some 0, period := period, accepted := n, tick := some 0, watch := some 2200000 } }

theorem test_hyp_acquire : State.reset.clock.state = .unlocked ∧
    (crossing .acquiring (some 20000) 3 20100).clock.state = .acquiring ∧
    (∀ m ∈ [17999, 18000, 22000, 22001], m = ((crossing .acquiring none 0 m).now - 0) / 100) := by decide +kernel

/-- The measured period at the ends of its range, and the difference at 100 and at 101. -/
theorem test_acquire :
    let s (x : State) := (after .zeroCrossing x).clock
    (s (crossing .acquiring none 0 17999)).period = none ∧ (s (crossing .acquiring none 0 18000)).period = some 18000 ∧
      (s (crossing .acquiring none 0 22000)).period = some 22000 ∧ (s (crossing .acquiring none 0 22001)).period = none ∧
      (s (crossing .acquiring (some 20000) 2 20100)).accepted = 3 ∧
      (s (crossing .acquiring (some 20000) 2 20101)).accepted = 0 ∧
      (s (crossing .acquiring (some 20000) 3 20100)).state = .locked := by decide +kernel

theorem test_locked_runs :
    let s := crossing .acquiring (some 20000) 3 20000
    (after .zeroCrossing { s with rect := { s.rect with state := .syncing } }).rect.state = .running := by decide +kernel

/-- LOCKED with a deviation held; at 20112 us the deviation is 4 ticks, at 20139 us it is 5. -/
def inLock (d m : Int) : State :=
  let s := crossing .locked (some 20000) 4 m.toNat
  { s with clock := { s.clock with deviations := [d] } }

theorem test_hyp_in_lock : (inLock 5 20139).clock.state = .locked ∧ (inLock 5 20139).clock.lastCrossing = some 0 ∧
    (inLock 5 20139).clock.period = some 20000 ∧ (inLock 5 20139).clock.deviations.head? = some 5 ∧
    (((inLock 5 20139).now : Int) - (0 + 100 * 20000 : Nat)) * 720 / (100 * 20000) = 5 ∧
    (((inLock 5 20138).now : Int) - (0 + 100 * 20000 : Nat)) * 720 / (100 * 20000) = 4 := by decide +kernel

theorem test_in_lock :
    let s (x : State) := (after .zeroCrossing x).clock.state
    s (inLock 5 20139) = .acquiring ∧ s (inLock 5 20138) = .locked ∧ s (inLock 4 20139) = .locked ∧
      s (inLock 0 17999) = .acquiring ∧ s (inLock 0 18000) = .locked ∧ s (inLock 0 22000) = .locked ∧
      s (inLock 0 22001) = .acquiring := by decide +kernel

theorem test_hyp_crossing_watch : (inLock 0 22000).clock.watch = some (inLock 0 22000).now ∧
    after .crossingWatchExpiry (inLock 0 21999) = inLock 0 21999 ∧
    (after .crossingWatchExpiry (inLock 0 22000)).clock.state = .unlocked := by decide +kernel

/-- Tick n of a period of 20,020 us, 27 us each and 28 us in the first 580. -/
def ticking (n : Nat) (at' : Instant) : State :=
  let s := crossing .locked (some 20020) 4 0
  { s with now := at', clock := { s.clock with tick := some n } }

theorem test_hyp_tick : (ticking 718 2002000).clock.tick = some 718 ∧
    (0 + ((718 + 1) * (20020 / 720) + min (718 + 1) (20020 % 720)) * 100 : Nat) = 1999300 ∧
    after .tick (ticking 718 1999299) = ticking 718 1999299 ∧
    (after .tick (ticking 718 1999300)).clock.tick = some 719 ∧
    after .tick (ticking 719 2002000) = ticking 719 2002000 ∧
    (after .tick (ticking 0 2800)).clock.tick = some 1 ∧ after .tick (ticking 0 2799) = ticking 0 2799 := by
  decide +kernel

/-- A cycle with offset 60 and angle 59: its step 10 falls at tick 719, its step 11 at 59 of the next crossing. -/
theorem test_hyp_steps : stepTick { offset := 60, alpha := 59 } 10 = 719 ∧ stepTick { offset := 60, alpha := 60 } 10 = 0 ∧
    InPair 0 0 ∧ InPair 0 5 ∧ InPair 1 6 ∧ InPair 1 11 ∧ InPair 2 1 ∧ InPair 2 0 ∧ ¬InPair 2 5 := by
  unfold InPair
  decide

/-- The rectifier in a state, held by A. -/
def held (x : RectState) (ac : Option Position) : State :=
  let s := holds .A .rectifier State.reset
  { s with rect := { s.rect with state := x }, acInput := { s.acInput with position := ac } }

theorem test_hyp_rectifier_held : ¬Excludes (held .blocked none).authority.location .A ∧
    Excludes (held .blocked none).authority.location .G ∧ ((held .blocked none).holding .rectifier).map (·.holder) = some .A ∧
    State.reset.holding .rectifier = none ∧ (held .blocked none).acPosition = .invalid ∧
    (held .blocked (some .opened)).acPosition = .opened ∧ (held .blocked (some .closed)).acPosition = .closed ∧
    (held .blocked none).rect.acOperation = none := by
  unfold Excludes
  decide +kernel

theorem test_hyp_some_failed : (inState .breakerFailed 3 (held .blocked none)).someFailed ∧ ¬(held .blocked none).someFailed := by
  refine ⟨⟨3, by decide, by decide⟩, ?_⟩
  rintro ⟨f, h, _⟩
  fin_cases f <;> exact absurd h (by decide)

theorem test_hyp_rectifier_offers : (offering .A 0x20 [] (held .blocked none)).offers .A 0x20 7 [] ∧
    (offering .B 0x21 [] (held .running none)).offers .B 0x21 7 [] ∧
    (offering .A 0x23 [] (held .tripped none)).offers .A 0x23 7 [] ∧
    (offering .A 0x22 [2, 207] (held .blocked none)).offers .A 0x22 7 [2, 207] ∧
    (2 : Byte).toNat * 256 + (207 : Byte).toNat = 719 := by
  refine ⟨?_, ?_, ?_, ?_, by decide⟩ <;> exact offering_offers _ _ _ _ (by decide) (by decide)

/-- Angles 719 and 720, and below the range. -/
theorem test_set_alpha :
    let s (hi lo : Byte) := after (.setAlpha .A) (offering .A 0x22 [hi, lo] (held .blocked none))
    (s 2 207).rect.target = 300 ∧ (s 0 9).rect.target = 10 ∧ (s 1 0).rect.target = 256 ∧
      ((s 2 208).port .A).responses.map (·.status) = [.refused .badArgument] := by decide +kernel

theorem test_start :
    let s (x : State) := after (.startRectifier .A) (offering .A 0x20 [] x)
    (s (held .blocked (some .opened))).rect.state = .connecting ∧
      ((s (held .blocked none)).port .A).responses.map (·.status) = [.refused (.interlocked .positionInvalid)] ∧
      ((s (inState .breakerFailed 3 (held .blocked (some .opened)))).port .A).responses.map (·.status)
        = [.refused (.interlocked .breakerFailed)] := by decide +kernel

theorem test_stop_and_reset :
    (after (.stopRectifier .A) (offering .A 0x21 [] (held .running (some .closed)))).rect.state = .blocked ∧
      (after (.stopRectifier .A) (offering .A 0x21 [] (held .blocked (some .opened)))).rect.acOperation = none ∧
      (after (.resetRectifier .A) (offering .A 0x23 [] (held .tripped (some .opened)))).rect.state = .blocked := by
  decide +kernel

/-- An AC operation begun at 0, due at 200 ms. -/
def acting (kind : OperationKind) (x : RectState) (n : Nat) : State :=
  let s := held x (some .opened)
  { s with
    now := n * 100000,
    acInput := { s.acInput with reading := .closed },
    rect := { s.rect with
      acOperation := some { kind := kind, origin := .port .A, startAt := 0, deadline := 20000000, overdue := false } } }

theorem test_hyp_ac : (acting .close .connecting 4).rect.acOperation.map (·.kind) = some .close ∧
    (acting .close .connecting 4).acInput.position = some .opened ∧
    (acting .close .connecting 4).acInput.reading = .closed ∧
    (acting .close .connecting 4).acInput.since + 400000 ≤ (acting .close .connecting 4).now ∧
    (acting .close .connecting 200).now = 20000000 ∧
    (acting .opening .blocked 200).rect.acOperation.map (·.kind) = some .opening := by decide +kernel

theorem test_ac :
    (after (.positionDebounceExpiry .ac) (acting .close .connecting 4)).rect.state = .syncing ∧
      (after .acCloseDeadline (acting .close .connecting 200)).rect.state = .blocked ∧
      (after .acCloseDeadline (acting .close .connecting 199)).rect.state = .connecting ∧
      (after .acOpenDeadline (acting .opening .blocked 200)).rect.acOperation.map (·.overdue) = some true := by
  decide +kernel

/-- The AC breaker's contacts read a position since 0, after another one or none, at 4 ms. -/
def acMoved (position : Option Position) (r : Position) (x : RectState) (kind : Option OperationKind) : State :=
  let s := held x position
  { s with
    now := 400000,
    acInput := { s.acInput with reading := r },
    rect := { s.rect with acOperation := kind.map fun k =>
      { kind := k, origin := .port .A, startAt := 0, deadline := 20000000, overdue := false } } }

theorem test_hyp_ac_moved : (acMoved none .opened .blocked (some .opening)).acInput.position = none ∧
    (acMoved none .opened .blocked (some .opening)).acInput.since + 400000
      ≤ (acMoved none .opened .blocked (some .opening)).now ∧
    (acMoved none .opened .blocked (some .opening)).acPosition = .invalid ∧
    (acMoved none .opened .blocked none).acInput.reported = false ∧
    (acMoved none .closed .connecting (some .close)).rect.acOperation ≠ none ∧
    ({ acMoved none .closed .connecting (some .close) with clock := { LineClock.reset with state := .locked } } :
      State).clock.state = .locked := by decide +kernel

/-- What an AC position leads to: the state, the operation left, and the entries added. -/
def acTaken (p : Option Position) (r : Position) (x : RectState) (k : Option OperationKind) :
    RectState × Option OperationKind × List EventKind :=
  let t := after (.positionDebounceExpiry .ac) (acMoved p r x k)
  (t.rect.state, t.rect.acOperation.map (·.kind), t.events.ring.drop 2 |>.map (·.kind))

/-- A first OPEN that an opening awaits, a first CLOSED that a close awaits, and first positions that nothing awaits. -/
theorem test_ac_first_position : acTaken none .opened .blocked (some .opening) = (.blocked, none, [.acOpened]) ∧
    acTaken none .closed .connecting (some .close) = (.syncing, none, [.acClosed]) ∧
    acTaken none .closed .blocked none = (.blocked, none, []) ∧
    acTaken none .opened .running none = (.running, none, []) := by decide +kernel

theorem test_ac_uncommanded :
    acTaken (some .closed) .opened .running none = (.blocked, none, [.acOpenedUncommanded]) ∧
      acTaken (some .closed) .opened .connecting (some .close) = (.blocked, none, [.acOpenedUncommanded]) ∧
      acTaken (some .opened) .closed .tripped none = (.tripped, none, [.acClosedUncommanded]) ∧
      acTaken (some .opened) .closed .blocked (some .opening) = (.blocked, some .opening, [.acClosedUncommanded]) ∧
      acTaken (some .closed) .opened .blocked none = (.blocked, none, []) ∧
      acTaken (some .closed) .invalid .running none = (.running, none, []) := by decide +kernel

theorem test_hyp_overvoltage :
    let s (n : Nat) := at_ n { State.reset with rect := { State.reset.rect with
      overvoltageHold := some 0, releaseSince := some 0 } }
    (s 20).rect.overvoltageHold = some 0 ∧ 0 + 2000000 ≤ (s 20).now ∧
      (after .overvoltageRelease (s 19)).rect.overvoltageHold = some 0 ∧
      (after .overvoltageRelease (s 20)).rect.overvoltageHold = none := by decide +kernel

/-- A capture of F0 with no triple before its trigger and n after it. -/
def filling (n : Nat) (held : Bool) : Capture :=
  { held := held, feeder := 0, cause := .imax, trigger := 1, time := { seconds := 0, fraction := 0 }, quality := .unset,
    pre := 0, truncated := false, triples := List.replicate n { current := none, voltage := none, bus := none } }

/-- The frame watch runs out in the first and in a second stretch of one outage; in VALID with F0 in TESTING, and with
buffer 3 FILLING. -/
theorem test_silent_line :
    let s (first : Option Instant) (lost : Nat) := { sampling .starting State.reset with
      now := 20000, sample := { (sampling .starting State.reset).sample with
        frameWatch := some 0, outageStart := first, outageLost := lost } }
    let t (first : Option Instant) (lost : Nat) := after .frameWatchExpiry (s first lost)
    let v (x : State) := { x with sample := { x.sample with frameWatch := some 0 } }
    let partly := (at_ 1 valid).setBuffer 3 (some (filling 0 false))
    (t none 0).sample.outageStart = some 20000 ∧ (t none 0).sample.outageLost = 1 ∧
      (t none 0).events.ring.length = 3 ∧ (t (some 5) 1).sample.outageStart = some 5 ∧
      (t (some 5) 1).sample.outageLost = 2 ∧ (t (some 5) 1).events = (s (some 5) 1).events ∧
      (v (testing 0 .auto)).sample.state = .valid ∧ ((v (testing 0 .auto)).feeder 0).operation ≠ none ∧
      ((after .frameWatchExpiry (v (testing 0 .auto))).feeder 0).state = .recloseWait ∧
      (v partly).captures.buffers.get 3 = some (filling 0 false) ∧ (v partly).sample.state = .valid ∧
      ((after .frameWatchExpiry (v partly)).captures.buffers.get 3).map (·.truncated) = some true := by decide +kernel

/-- Entry into VALID with two discards since the port left it, three times LOST. -/
theorem test_entry_into_valid :
    let s := { sampling .starting State.reset with sample := { (sampling .starting State.reset).sample with
      primed := true, discards := 2, outageStart := some 0, outageLost := 3 } }
    let t := after (.frameComplete (frame 1 4000)) s
    s.sample.primed = true ∧ t.sample.state = .valid ∧ t.sample.outageLost = 0 ∧
      (t.events.ring.getLast?.map fun e => (e.kind, e.value1, e.value2)) = some (.measurementValid, some 2, some 3) := by
  decide +kernel

/-- A frame with this value of slot 0, mapped to one quantity, at the Firing Unit in RUNNING with one PICKUP mark held of
each kind; Uov is 9000, Urel 8500 and Irmax 6000. -/
def firing (e : SlotEntry) (hold : Option Instant) : State :=
  let s := sampling .valid State.reset
  { s with
    settings := { s.settings with slotMap := (File.fill 32 .unused).set 0 e },
    rect := { s.rect with
      state := .running, overvoltage := [true, false], overcurrent := [true, false], overvoltageHold := hold } }

theorem test_hyp_firing : ∀ cause, ¬FrameFails (firing .busVoltage none).settings.slotMap
    (firing .busVoltage none).sample.reference (frame 1 9000) cause := by
  have fault : ¬∃ n, (firing .busVoltage none).settings.slotMap.get n ≠ .unused ∧ slotWord (frame 1 9000) n = -32768 := by
    rintro ⟨n, a, b⟩
    fin_cases n
    · exact absurd b (by decide)
    all_goals exact a rfl
  rintro cause (⟨_, a⟩ | ⟨_, _, a⟩ | ⟨_, _, _, a⟩ | ⟨_, _, _, _, a⟩)
  · exact a (by decide)
  · exact a (by decide +kernel)
  · exact fault a
  · cases a

theorem test_firing_marks :
    let t (e : SlotEntry) (hold : Option Instant) (v : Nat) := (after (.frameComplete (frame 1 v)) (firing e hold)).rect
    (t .busVoltage none 9000).overvoltageHold = some 0 ∧ (t .busVoltage none 8999).overvoltageHold = none ∧
      (t .busVoltage (some 0) 8500).releaseSince = none ∧ (t .busVoltage (some 0) 8499).releaseSince = some 0 ∧
      (t .busVoltage none 9000).overcurrent = [] ∧ (t .rectifierCurrent none 9000).overvoltage = [] ∧
      (t .rectifierCurrent none 6000).state = .tripped ∧ (t .rectifierCurrent none 5999).state = .running ∧
      (t .rectifierCurrent none 6000).lastTripCause = .dcOvercurrent := by decide +kernel

/-- Buffer 3 takes the 191st and the 192nd triple after its trigger. -/
theorem test_filling :
    let s (n : Nat) := valid.setBuffer 3 (some (filling n false))
    let t (n : Nat) := (after (.frameComplete (frame 1 4000)) (s n)).captures.buffers.get 3
    (s 191).captures.buffers.get 3 = some (filling 191 false) ∧ (s 191).captures.buffers.get 0 = none ∧
      (t 190).map (fun c => (c.held, c.triples.length)) = some (false, 191) ∧
      (t 191).map (fun c => (c.held, c.triples.length, c.truncated)) = some (true, 192, false) ∧
      ((t 191).map fun c => c.triples.getLast?.map (·.current)) = some (some (some 4000)) := by decide +kernel

/-- A request taken with the port not VALID and in VALID, buffer 0 taken; and with all four taken. -/
theorem test_trip_capture :
    let x (c : TripCause) := ((requested .closed).modFault 0 fun d =>
      { d with requests := [decision c] }).setBuffer 0 (some (filling 0 true))
    let s (v : SampleState) (c : TripCause) := { x c with sample := { (x c).sample with state := v } }
    let t (v : SampleState) (c : TripCause) := after (.tripRequest 0) (s v c)
    let kinds (x : State) := x.events.ring.drop 2 |>.map (·.kind)
    (s .lost .imax).captures.buffers.get 1 = none ∧ (s .lost .imax).captures.buffers.get 0 ≠ none ∧
      ((t .lost .imax).captures.buffers.get 1).map (fun c => (c.held, c.truncated, c.trigger)) = some (true, true, 2) ∧
      kinds (t .lost .imax) = [.trip, .captureHeld] ∧
      ((t .valid .blind).captures.buffers.get 1).map (fun c => (c.held, c.cause)) = some (false, .blind) ∧
      kinds (t .valid .blind) = [.trip] ∧ (t .lost .imax).rect.retard.get 0 = true ∧
      (t .valid .blind).rect.retard.get 0 = false := by decide +kernel

theorem test_no_capture_free :
    let s := ((((requested .closed).setBuffer 0 (some (filling 0 true))).setBuffer 1 (some (filling 0 true))).setBuffer 2
      (some (filling 0 true))).setBuffer 3 (some (filling 0 true))
    let own := (requested .closed).setBuffer 2 (some (filling 0 false))
    let last (x : State) := (after (.tripRequest 0) x).events.ring.getLast?.map fun e => (e.kind, e.capture)
    last s = some (.trip, none) ∧ last own = some (.trip, none) := by decide +kernel

/-- A breaker failure with the rectifier in RUNNING, the AC breaker CLOSED; and in BLOCKED. -/
theorem test_breaker_failure :
    let s (x : RectState) := at_ 60 { tripping with
      rect := { tripping.rect with state := x, retard := tripping.rect.retard.set 0 true },
      acInput := { tripping.acInput with position := some .closed } }
    let t (x : RectState) := after (.tripConfirmLimit 0) (s x)
    (s .running).rect.state = .running ∧ (t .running).rect.state = .tripped ∧
      (t .running).rect.lastTripCause = .feederBreakerFailed ∧ (t .running).rect.acOperation.map (·.kind) = some .opening ∧
      (t .running).rect.retard.get 0 = false ∧ (t .blocked).rect.state = .blocked ∧
      ((t .running).events.ring.drop 2 |>.map (·.kind)) = [.breakerFailed, .rectifierTrip] := by decide +kernel

/-- Outputs with the reset line asserted, and in the same state without it. -/
theorem test_outputs :
    let s := offering .A 0x7F [] { held .running none with rect := { (held .running none).rect with
      gates := (File.fill 12 0).set 3 20, acOperation := (acting .opening .blocked 0).rect.acOperation } }
    let t := after (.identify .A) s
    let r := after .resetLineAssert t
    s.gateLine 3 = true ∧ s.gateLine 4 = false ∧ s.acTripLine = true ∧ s.acCloseLine = false ∧
      t.attention .A = true ∧ t.resetLine = false ∧ r.resetLine = true ∧ r.gateLine 3 = false ∧ r.acTripLine = false ∧
      r.attention .A = false ∧ r.dataOut .A 0 = 0 := by decide +kernel

/-- Attention for a response, an entry in a subscribed class, an overrun and a fresh segment, each alone. -/
theorem test_attention :
    let s := State.reset.modCursor .A fun c => { c with next := 2 }
    let other := State.reset.modCursor .A fun c => { c with classes := File.fill 8 false }
    let fresh := s.modLink .link1 fun k => { k with incoming := k.incoming.set 9 { k.incoming.get 9 with
      fresh := (k.incoming.get 9).fresh.set 0 true } }
    s.attention .A = false ∧ State.reset.attention .A = true ∧ other.attention .A = false ∧ fresh.attention .A = true ∧
      fresh.attention .B = true ∧ (s.modCursor .A fun c => { c with overrun := true }).attention .A = true ∧
      (s.modPort .A fun x => { x with responses := [State.reset.responseTo .A 1 1 .done .empty] }).attention .A = true := by
  decide +kernel

/-- A PORT RESET answered DONE, its response sent from the fourth byte on in the same selection. -/
theorem test_data_out :
    let r : Response := { State.reset.responseTo .A 0x7E 9 .done .empty with eventsWaiting := false }
    let s := State.reset.modPort .A fun x => { x with selected := true, responses := [r], sent := 3 }
    r.frame.length = 10 ∧ r.frame.take 8 = [0x5A, 0, 0, 0x7E, 9, 0, 0, 0] ∧ (s.port .A).selected = true ∧
      (s.port .A).responses.head? = some r ∧ s.dataOut .A 0 = 0x7E ∧ s.dataOut .A 1 = 9 ∧ s.dataOut .A 7 = 0 ∧
      (s.modPort .A fun x => { x with selected := false }).dataOut .A 0 = 0 ∧ s.dataOut .B 0 = 0 ∧
      ({ r with status := .refused .badArgument, body := .empty } : Response).frame.take 9
        = [0x5A, 0, 2, 0x7E, 9, 2, BitVec.ofNat 8 (Reason.code .badArgument), 0, 0] := by decide +kernel

/-! ## Section links and segments -/

/-- Link 0 with light, in a state, with runs of good and of bad words. -/
def linked (x : LinkState) (good bad : Nat) (s : State) : State :=
  s.modLink .link0 fun k => { k with state := x, light := true, goodRun := good, badRun := bad }

/-- A word with a signal code and an idle data slot. -/
def word (c : Byte) : RxWord := { signal := some c, data := .idle }

/-- A word is good when its two slots are known: code 0x37 is a signal, 0x38 is not, and an undecodable slot is bad. -/
theorem test_hyp_words : goodSignal (word 0) = some .nothing ∧
    goodSignal (word 0x17) = some (.signal (.transferTrip 7) false) ∧ goodSignal (word 0x18) = none ∧
    goodSignal (word 0x37) = some (.signal (.testDone 7) false) ∧ goodSignal (word 0x38) = none ∧
    goodSignal (word 0x51) = some (.signal .secondMark true) ∧
    goodSignal { signal := none, data := .idle } = none ∧ goodSignal { signal := some 0, data := .undecodable } = none := by
  decide

theorem test_hyp_link_states : ((linked .aligning 63 7 State.reset).link .link0).goodRun + 1 = 64 ∧
    ((linked .aligning 62 6 State.reset).link .link0).badRun + 1 < 8 ∧
    8 ≤ ((linked .up 64 7 State.reset).link .link0).badRun + 1 ∧
    ((linked .up 64 7 State.reset).link .link0).assembly = .idle ∧ (State.reset.link .link0).light = false := by decide

theorem test_link_states :
    let s (g : Byte) (x : State) := ((after (.linkWord .link0 (word g)) x).link .link0).state
    s 0 (linked .down 0 0 State.reset) = .aligning ∧ s 0 (linked .aligning 62 0 State.reset) = .aligning ∧
      s 0 (linked .aligning 63 0 State.reset) = .up ∧ s 0xFF (linked .aligning 9 6 State.reset) = .aligning ∧
      s 0xFF (linked .aligning 9 7 State.reset) = .down ∧ s 0xFF (linked .up 64 6 State.reset) = .up ∧
      s 0xFF (linked .up 64 7 State.reset) = .down := by decide +kernel

theorem test_light :
    let s (x : LinkState) := (after (.lightPresentChange .link0 false) (linked x 64 0 State.reset)).link .link0
    (s .up).state = .down ∧ (s .up).counters.down = 1 ∧ (s .aligning).counters.alignFail = 1 ∧ (s .down).light = false := by
  decide +kernel

/-- F0 CLOSED with its far end on link 0, UP, and a window for its transfer trip. -/
def windowed (w : Option Window) : State :=
  (linked .up 64 0 farHeard).modLink .link0 fun k => { k with windows := k.windows.set 0 w }

theorem test_hyp_hears : (windowed none).hears .link0 (word 0) .nothing ∧
    (windowed none).hears .link0 (word 0x40) (.signal .beacon false) ∧
    (windowed none).hears .link0 (word 0x10) (.signal (.transferTrip 0) false) := by
  unfold State.hears
  decide

theorem test_hyp_windows : (((windowed none).link .link0).aged.windows.get 0) = none ∧
    (((windowed (some { words := 7, acted := false })).link .link0).aged.windows.get 0)
      = some { words := 8, acted := false } ∧
    (((windowed (some { words := 8, acted := false })).link .link0).aged.windows.get 0) = none ∧
    ((windowed none).config 0).farLink = some .link0 ∧ ((windowed none).config 1).farLink = none := by decide

/-- The first copy opens the window, the second within eight words trips, the ninth word opens another. -/
theorem test_transfer_trip :
    let s (w : Option Window) := (after (.linkWord .link0 (word 0x10)) (windowed w)).feeder 0
    (s none).state = .closed ∧ (s (some { words := 7, acted := false })).state = .tripping ∧
      (s (some { words := 8, acted := false })).state = .closed ∧
      (s (some { words := 7, acted := true })).state = .closed := by decide +kernel

/-- Two signals wait on an UP link; the transfer trip has the higher rank. -/
def sending : State :=
  (linked .up 64 0 State.reset).modLink .link0 fun k => { k with
    pendingSet := [{ signal := .secondMark, repeats := 1, due := some 0, late := false },
                   { signal := .transferTrip 7, repeats := 3, due := none, late := false }],
    queued := (File.fill 16 false).set 15 true }

theorem test_hyp_transmit : (sending.link .link0).nextWord ≤ sending.now ∧ (sending.link .link0).state = .up ∧
    (sending.link .link0).transfer = none ∧ (sending.link .link0).queued.get 15 = true ∧
    (∀ m, m < 15 → (sending.link .link0).queued.get m = false) ∧
    (∀ e ∈ (sending.link .link0).pendingSet, e.candidate 0 = true) ∧
    (Signal.transferTrip 7).rank < Signal.secondMark.rank ∧ (State.reset.link .link0).state ≠ .up := by decide +kernel

theorem test_transmit :
    let k := (after (.linkWordTransmit .link0) sending).link .link0
    k.lastWord = { code := 0x17, data := .segStart } ∧ (k.pendingSet.map (·.repeats)) = [1, 2] ∧
      (k.pendingSet.map (·.late)) = [true, false] := by decide +kernel

/-- A transfer with 20 words sent, of 21. -/
theorem test_transfer_ends :
    let s (n : Nat) := (linked .up 64 0 State.reset).modLink .link0 fun k =>
      { k with transfer := some { number := 0, bytes := File.fill 16 1, sent := n } }
    let t (n : Nat) := (after (.linkWordTransmit .link0) (s n)).link .link0
    ((s 20).link .link0).transfer.map (·.sent) = some 20 ∧ (t 20).transfer = none ∧
      (t 18).lastWord.data = .segEnd ∧ (t 19).transfer.map (·.sent) = some 20 := by decide +kernel

theorem test_hyp_window_timers :
    let s (n : Nat) := windowed (some { words := n, acted := false })
    after (.acceptanceWindowClose .link0 0) (s 7) = s 7 ∧
      ((after (.acceptanceWindowClose .link0 0) (s 8)).link .link0).windows.get 0 = none := by decide +kernel

theorem test_hyp_link_timers :
    let s (n : Nat) := { (linked .up 64 0 State.reset).modLink .link0 fun k => { k with
      beaconFrom := some 0, beaconOutstanding := some 0, refreshFrom := some 0 } with now := n }
    0 + 100000 ≤ (s 100000).now ∧ after (.beaconPeriod .link0) (s 99999) = s 99999 ∧
      ((after (.beaconPeriod .link0) (s 100000)).link .link0).beaconFrom = some 100000 ∧
      after (.beaconTimeout .link0) (s 65534) = s 65534 ∧
      ((after (.beaconTimeout .link0) (s 65535)).link .link0).beaconOutstanding = none ∧
      after (.segmentRefresh .link0) (s 999999) = s 999999 ∧
      ((after (.segmentRefresh .link0) (s 1000000)).link .link0).queued.get 8 = true := by decide +kernel

/-- A grant of F0's test to the far end, to 2 s. -/
def granted : State := (windowed none).modSection 0 fun x => { x with claim := .grantedToFar, claimDeadline := some 200000000 }

theorem test_hyp_grant : ((at_ 2000 granted).section' 0).claimDeadline = some (at_ 2000 granted).now ∧
    ((at_ 2000 granted).feeder 0).state ≠ .claiming ∧ after (.grantExpired 0) (at_ 1999 granted) = at_ 1999 granted ∧
    ((after (.grantExpired 0) (at_ 2000 granted)).section' 0).claim = .idle := by decide +kernel

/-- WRITE SEGMENT of segment 15 and READ SEGMENT of both directions. -/
theorem test_hyp_segments :
    (offering .A 0x30 (BitVec.ofNat 8 LinkId.link0.index.val :: BitVec.ofNat 8 ((6 : Fin 7).val + 9) :: (File.fill 16 3).cells)
      State.reset).offers .A 0x30 7
        (BitVec.ofNat 8 LinkId.link0.index.val :: BitVec.ofNat 8 ((6 : Fin 7).val + 9) :: (File.fill 16 3).cells) ∧
    (offering .G 0x31 [1, 15, 1] State.reset).offers .G 0x31 7
      [BitVec.ofNat 8 LinkId.link1.index.val, BitVec.ofNat 8 (15 : Fin 16).val, 1] ∧
    (offering .G 0x31 [0, 0, 0] State.reset).offers .G 0x31 7
      [BitVec.ofNat 8 LinkId.link0.index.val, BitVec.ofNat 8 (0 : Fin 16).val, 0] := by
  refine ⟨?_, ?_, ?_⟩ <;> exact offering_offers _ _ _ _ rfl rfl

theorem test_write_segment :
    let t := after (.writeSegment .A) (offering .A 0x30 (0 :: 15 :: List.replicate 16 3) (linked .up 64 0 State.reset))
    ((t.link .link0).outgoing.get 6) = { bytes := File.fill 16 3, writer := some .A } ∧
      (t.link .link0).queued.get 15 = true ∧ ((t.port .A).responses.map (·.status)) = [.done] := by decide +kernel

/-- The last byte of a segment of zeros but for its first byte, with the check that makes the sum 0. -/
def ending (n : Fin 16) (first : Byte) : State :=
  (windowed none).modLink .link0 fun k => { k with
    assembly := .check2 n (first :: List.replicate 15 0) (BitVec.ofNat 8 ((65536 - n.val - first.toNat) / 256)) }

theorem test_hyp_segment_ends :
    (ending 0 1).takesWord .link0 { signal := some 0, data := .byte 0xFF } .nothing ∧
      (ending 15 255).takesWord .link0 { signal := some 0, data := .byte 0xF2 } .nothing ∧
      ((ending 0 1).link .link0).assembly = .check2 0 (1 :: List.replicate 15 0) 0xFF ∧
      ((0 : Fin 16).val + ((1 :: List.replicate 15 (0 : Byte)).map BitVec.toNat).sum + (0xFF * 256 + 0xFF)) % 65536 = 0 ∧
      ((ending 15 255).link .link0).assembly = .check2 15 (255 :: List.replicate 15 0) 0xFE ∧
      ((15 : Fin 16).val + ((255 :: List.replicate 15 (0 : Byte)).map BitVec.toNat).sum + (0xFE * 256 + 0xF2)) % 65536 = 0 := by
  unfold State.takesWord
  decide

/-- Words with each signal that carry the last byte of a segment. -/
theorem test_hyp_words_with_data :
    let w (c : Byte) : RxWord := { signal := some c, data := .byte 0xF2 }
    (ending 15 255).takesWord .link0 (w 0x10) (.signal (.transferTrip 0) false) ∧
      (ending 15 255).takesWord .link0 (w 0x40) (.signal .beacon false) ∧
      (ending 15 255).takesWord .link0 (w 0x42) (.signal .beaconEcho true) ∧
      (ending 15 255).takesWord .link0 (w 0x50) (.signal .secondMark false) ∧
      (ending 15 255).takesWord .link0 (w 0x20) (.signal (.testClaim 0) false) ∧
      (ending 15 255).takesWord .link0 (w 0x28) (.signal (.testGrant 0) false) ∧
      (ending 15 255).takesWord .link0 (w 0x30) (.signal (.testDone 0) false) ∧ (ending 15 255).completes .link0 (.byte 0xF2) = true := by
  unfold State.takesWord
  decide

/-- A second copy of a transfer trip beside a segment's number, and a grant's end beside a framing error: both act. -/
theorem test_word_with_data :
    let t (c : Byte) (d : RxData) (x : State) := after (.linkWord .link0 { signal := some c, data := d })
      (x.modLink .link0 fun k => { k with assembly := .number })
    let a := t 0x10 (.byte 15) (windowed (some { words := 1, acted := false }))
    let b := t 0x30 .segEnd ((windowed none).modSection 0 fun x => { x with claim := .grantedToFar })
    (a.feeder 0).state = .tripping ∧ (a.link .link0).assembly = .data 15 [] ∧ (b.section' 0).claim = .idle ∧
      (b.link .link0).counters.segFraming = 1 := by decide +kernel

theorem test_segment_ends :
    let t (n : Fin 16) (first : Byte) := after (.linkWord .link0
      { signal := some 0, data := .byte (BitVec.ofNat 8 (65536 - n.val - first.toNat)) }) (ending n first)
    ((t 0 1).link .link0).farStation = some 1 ∧ ((t 0 1).link .link0).conflict = true ∧
      ((t 0 255).link .link0).farStation = none ∧ ((t 1 5).section' 0).heard = true ∧
      (((t 15 9).link .link0).incoming.get 15).fresh.get 2 = true ∧
      (((t 8 9).link .link0).incoming.get 8).fresh.get 2 = false := by decide +kernel

/-- The claim signals to F0: a claim taken in IDLE, a grant of a claim sent, and the end of a grant. -/
theorem test_hyp_claims :
    (windowed none).hears .link0 (word 0x20) (.signal (.testClaim 0) false) ∧
      ((windowed none).link .link0).conflict = false ∧ ((windowed none).feeder 0).ready = true ∧
      ((windowed none).section' 0).claim = .idle ∧
      (linked .up 64 0 claiming).hears .link0 (word 0x28) (.signal (.testGrant 0) false) ∧
      (linked .up 64 0 claiming).sample.state = .valid ∧
      granted.hears .link0 (word 0x30) (.signal (.testDone 0) false) ∧ (granted.section' 0).claim = .grantedToFar := by
  unfold State.hears
  decide

theorem test_claims :
    ((after (.linkWord .link0 (word 0x20)) (windowed none)).section' 0).claim = .grantedToFar ∧
      ((after (.linkWord .link0 (word 0x28)) (linked .up 64 0 claiming)).feeder 0).state = .testing ∧
      ((after (.linkWord .link0 (word 0x30)) granted).section' 0).claim = .idle := by decide +kernel

/-- F0 in a state with an operation and a claim state, link 0 its far link and UP, a window open for its transfer trip. -/
def told (x : FeederState) (o : Origin) (claim : ClaimState) : State :=
  ((running x .close o none (windowed (some { words := 1, acted := false }))).modFeeder 0 fun r =>
    { r with operation := if x.operates then r.operation else none }).modSection 0 fun r => { r with claim := claim }

theorem test_hyp_told : (told .testing .auto .grantedToUs).hears .link0 (word 0x10) (.signal (.transferTrip 0) false) ∧
    ((told .claiming (.port .A) .claimSent).feeder 0).operation ≠ none ∧
    ((told .tripping .protection .idle).feeder 0).state = .tripping ∧ (State.reset.feeder 0).ready = false := by
  unfold State.hears
  decide

/-- The second copy in each state, and for a feeder of another far link or not ready. -/
theorem test_told :
    let t (x : State) := after (.linkWord .link0 (word 0x10)) x
    let r (x : State) := (((t x).feeder 0).state, (t x).events.ring.drop 2 |>.map (·.kind))
    r (told .closing (.port .A) .idle) = (.tripping, [.closeResult, .trip, .captureHeld]) ∧
      r (told .testing .auto .grantedToUs) = (.recloseWait, [.closeResult]) ∧
      ((t (told .testing .auto .grantedToUs)).section' 0).claim = .idle ∧
      r (told .claiming (.port .A) .claimSent) = (.opened, [.closeResult]) ∧
      r (told .tripping .protection .idle) = (.tripping, [.ttIgnored]) ∧
      r (told .breakerFailed .protection .idle) = (.breakerFailed, [.ttIgnored]) ∧
      r (told .recloseWait .auto .idle) = (.recloseWait, [.ttIgnored]) ∧
      r ((told .closed .auto .idle).modFeeder 0 fun y => { y with ready := false }) = (.closed, [.ttIgnored]) := by
  decide +kernel

theorem test_told_misaddressed :
    let s := (told .closed .auto .idle).modLink .link0 fun k => { k with windows := k.windows.set 1 (some { words := 1, acted := false }) }
    (s.config 1).farLink = none ∧
      ((after (.linkWord .link0 (word 0x11)) s).events.ring.getLast?.map (·.kind)) = some .ttMisaddressed := by
  decide +kernel

/-- Link 0 UP with a beacon sent at 0, n measurements of 500 and an average of 500; an echo m units on. -/
def echoing (x : DelayStatus) (n m : Nat) : State :=
  { (linked .up 64 0 State.reset).modLink .link0 fun k => { k with
      beaconOutstanding := some 0, delayStatus := x, measurements := List.replicate n 500, loopAverage := 500,
      goodCount := n } with
    now := m }

theorem test_hyp_echo : (echoing .initial 15 504).hears .link0 (word 0x41) (.signal .beaconEcho false) ∧
    (echoing .initial 15 504).hears .link0 (word 0x42) (.signal .beaconEcho true) ∧
    ((echoing .initial 15 504).link .link0).beaconOutstanding = some 0 := by
  unfold State.hears
  decide

/-- In INVALID; 4 and 5 units off the average; the 16th in agreement; a restart; and a LATE echo. -/
theorem test_echo :
    let t (c : Byte) (x : State) := (after (.linkWord .link0 (word c)) x).link .link0
    let r (c : Byte) (x : State) := ((t c x).delayStatus, (t c x).measurements.length, (t c x).loopAverage, (t c x).goodCount)
    r 0x41 (echoing .invalid 0 700) = (.initial, 1, 700, 0) ∧ r 0x41 (echoing .initial 3 504) = (.initial, 4, 501, 4) ∧
      r 0x41 (echoing .initial 3 505) = (.initial, 1, 505, 0) ∧ r 0x41 (echoing .initial 15 496) = (.locked, 16, 499, 16) ∧
      r 0x41 (echoing .locked 16 504) = (.locked, 16, 500, 16) ∧ r 0x41 (echoing .locked 16 495) = (.initial, 1, 495, 0) ∧
      r 0x42 (echoing .initial 15 496) = (.initial, 15, 500, 15) ∧
      (t 0x42 (echoing .initial 15 496)).beaconOutstanding = none := by decide +kernel

theorem test_echo_entries :
    let t (x : State) := after (.linkWord .link0 (word 0x41)) x
    let r (x : State) := ((t x).events.ring.drop 2 |>.map fun e => (e.kind, e.value1, e.value2))
    r (echoing .initial 15 496) = [(.delayLocked, some 499, none)] ∧
      r (echoing .locked 16 495) = [(.delayRestart, some 495, some 500)] ∧ r (echoing .initial 3 505) = [] ∧
      ((t (echoing .initial 15 496)).link .link0).queued.get 0 = true := by decide +kernel

/-- A follower of link 0 at a quality, link 1 UP too. -/
def followed0 (q : TimeQuality) (s : State) : State :=
  let t := s.modLink .link1 fun k => { k with state := .up }
  { t with
    settings := { t.settings with station := { t.settings.station with timeRole := .followLink0 } },
    time := { t.time with quality := q } }

/-- A quality with the System segment queued on link 1, and the entries added. -/
def qualityIs (t : State) (q : TimeQuality) (l : List (EventKind × Option Int)) : Prop :=
  t.time.quality = q ∧ (t.link .link1).queued.get 0 = true ∧ (t.events.ring.drop 2).map (fun e => (e.kind, e.value1)) = l

/-- A follower at COARSE locks to FINE, and a restart takes it back. -/
theorem test_echo_quality :
    let t (x : State) := after (.linkWord .link0 (word 0x41)) x
    qualityIs (t (followed0 .coarse (echoing .initial 15 496))) .fine [(.delayLocked, some 499), (.timeQuality, some 2)] ∧
      qualityIs (t (followed0 .fine (echoing .locked 16 495))) .coarse
        [(.delayRestart, some 495), (.timeQuality, some 3)] := by
  unfold qualityIs
  decide +kernel

/-- A follower falls from FINE to COARSE with its link, and one at FREE stays. -/
theorem test_link_down_quality :
    let t (q : TimeQuality) := after (.lightPresentChange .link0 false)
      (followed0 q ((linked .up 64 0 State.reset).modLink .link0 fun k => { k with upSince := some 0 }))
    (followed0 .fine State.reset).followed = some .link0 ∧
      qualityIs (t .fine) .coarse [(.linkDown, some 0), (.timeQuality, some 3)] ∧ (t .free).time.quality = .free := by
  unfold qualityIs
  decide +kernel

/-- A receive assembly, and the word with a data slot and no signal. -/
def assembling (a : Assembly) : State := (linked .up 64 0 State.reset).modLink .link0 fun k => { k with assembly := a }

def dataWord (d : RxData) : RxWord := { signal := some 0, data := d }

theorem test_hyp_assembly : AssemblyMoves .idle .segStart .number ∧ AssemblyMoves .number (.byte 15) (.data 15 []) ∧
    AssemblyMoves (.data 15 (List.replicate 15 0)) (.byte 1) (.ending 15 (List.replicate 15 0 ++ [1])) ∧
    AssemblyMoves (.ending 15 []) .segEnd (.check1 15 []) ∧ AssemblyMoves (.check1 15 []) (.byte 1) (.check2 15 [] 1) ∧
    AssemblyMoves .idle (.byte 3) .idle ∧ BreaksFraming .number .segStart .number ∧
    BreaksFraming (.check1 15 []) .idle .idle ∧ BreaksFraming .number .segEnd .idle ∧
    BreaksFraming (.ending 15 []) (.byte 1) .idle ∧ 16 ≤ (16 : Byte).toNat := by
  refine ⟨.inl ⟨rfl, rfl, rfl⟩, .inr (.inr (.inl ⟨rfl, 15, 15, rfl, by decide, rfl⟩)),
    .inr (.inr (.inr (.inl ⟨15, _, 1, rfl, rfl, .inr ⟨by decide, rfl⟩⟩))),
    .inr (.inr (.inr (.inr (.inl ⟨15, [], rfl, rfl, rfl⟩)))), .inr (.inr (.inr (.inr (.inr ⟨15, [], 1, rfl, rfl, rfl⟩)))),
    .inr (.inl ⟨rfl, .inr (.inr ⟨3, rfl⟩), rfl⟩), ⟨nofun, .inl ⟨rfl, rfl⟩⟩, ⟨nofun, .inr (.inl ⟨rfl, rfl⟩)⟩,
    ⟨nofun, .inr (.inr (.inl ⟨rfl, nofun, rfl⟩))⟩, ⟨nofun, .inr (.inr (.inr ⟨15, [], 1, rfl, rfl, rfl⟩))⟩, by decide⟩

/-- Each position with its data, and the counts of framing, number and check. -/
theorem test_assembly :
    let t (a : Assembly) (d : RxData) := (after (.linkWord .link0 (dataWord d)) (assembling a)).link .link0
    (t .idle .segStart).assembly = .number ∧ (t .number (.byte 15)).assembly = .data 15 [] ∧
      (t (.data 15 (List.replicate 15 0)) (.byte 1)).assembly = .ending 15 (List.replicate 15 0 ++ [1]) ∧
      (t (.check1 15 []) (.byte 1)).assembly = .check2 15 [] 1 ∧ (t .number (.byte 16)).assembly = .idle ∧
      (t .number (.byte 16)).counters.segNumber = 1 ∧ (t .number .segEnd).counters.segFraming = 1 ∧
      (t (.check2 15 (List.replicate 16 0) 0) (.byte 1)).counters.segCheck = 1 ∧
      (t .number .undecodable).counters.segFraming = 1 ∧ (t .number .undecodable).counters.badWord = 1 := by
  decide +kernel

/-- The System segment of a station with this one's number; a Feeder End segment of another feeder, first of all. -/
theorem test_segment_entries :
    let t (n : Fin 16) (first : Byte) (x : State) := after (.linkWord .link0
      (dataWord (.byte (BitVec.ofNat 8 (65536 - n.val - first.toNat))))) x
    let r (x : State) := (x.events.ring.drop 2 |>.map (·.kind))
    let unheard (s : State) := s.modSection 0 fun y => { y with heard := false, matching := .mismatch }
    ((ending 0 1).link .link0).conflictReported = false ∧ (ending 0 1).station.stationNumber = 1 ∧
      r (t 0 1 (ending 0 1)) = [.numberConflict] ∧ r (t 0 2 (ending 0 2)) = [] ∧
      ((ending 1 5).section' 0).matching = .matched ∧ r (t 1 5 (ending 1 5)) = [.sectionMismatch] ∧
      ((t 1 5 (ending 1 5)).section' 0).matching = .mismatch ∧ r (t 1 5 (unheard (ending 1 5))) = [.sectionMismatch] := by
  decide +kernel

/-- F0 with a claim sent, heard from station 0 or 2 beside this station 1; and the other claim states. -/
def crossed (n : Option Nat) : State := (linked .up 64 0 claiming).modLink .link0 fun k => { k with farStation := n }

theorem test_hyp_crossed : (crossed (some 0)).hears .link0 (word 0x20) (.signal (.testClaim 0) false) ∧
    (crossed (some 0)).station.stationNumber = 1 ∧ ((crossed (some 0)).section' 0).claim = .claimSent ∧
    ((crossed (some 0)).config 0).farLink = some .link0 ∧ ((crossed (some 0)).link .link0).conflict = false := by
  unfold State.hears
  decide

/-- Crossed claims, and the claims, grants and dones that are ignored. -/
theorem test_crossed :
    let t (c : Byte) (x : State) := after (.linkWord .link0 (word c)) x
    let claim (c : Byte) (x : State) := ((t c x).section' 0).claim
    claim 0x20 (crossed (some 0)) = .grantedToFar ∧ claim 0x20 (crossed (some 2)) = .claimSent ∧
      claim 0x20 (crossed none) = .claimSent ∧ claim 0x20 granted = .grantedToFar ∧
      claim 0x20 ((windowed none).modLink .link0 fun k => { k with conflict := true }) = .idle ∧
      claim 0x20 (told .testing .auto .idle) = .idle ∧ claim 0x20 (told .testing .auto .grantedToUs) = .grantedToUs ∧
      claim 0x28 (windowed none) = .idle ∧ claim 0x28 granted = .grantedToFar ∧
      claim 0x30 (crossed (some 2)) = .claimSent ∧ claim 0x30 (told .testing .auto .grantedToUs) = .grantedToUs := by
  decide +kernel

/-- A grant that arrives with the port not VALID ends the operation. -/
theorem test_grant_without_measurement :
    let s := { linked .up 64 0 claiming with sample := { claiming.sample with state := .lost } }
    let t := after (.linkWord .link0 (word 0x28)) s
    s.sample.state = .lost ∧ (t.section' 0).claim = .idle ∧ (t.feeder 0).state = .opened ∧
      ((t.link .link0).pendingSet.map (·.signal)) = [.testDone 0] ∧
      (t.events.ring.getLast?.map (·.detail)) = some (.closeResult (.interlocked .measurementLost)) := by decide +kernel

/-- The end of a grant at a feeder that yielded a claim, with a line at u, and at one whose reclose is deferred. -/
def yielded (u : Int) : State :=
  let s := { linked .up 64 0 claiming with sample := (closable u).sample }
  s.modSection 0 fun x => { x with claim := .grantedToFar, claimDeadline := some 200000000, farState := some .closed }

def deferred : State :=
  (linked .up 64 0 (waiting 1 claimable)).modFeeder 0 fun r => { r with deferred := true }

theorem test_hyp_grant_ends : (yielded 0).hears .link0 (word 0x30) (.signal (.testDone 0) false) ∧
    ((yielded 0).feeder 0).state = .claiming ∧ ((yielded 0).feeder 0).operation ≠ none ∧
    (yielded 0).lineLive 0 = false ∧ (yielded 4500).lineLive 0 = true ∧ (deferred.feeder 0).deferred = true ∧
    (deferred.feeder 0).state = .recloseWait ∧ deferred.closeCheck 0 true = none := by
  unfold State.hears
  decide +kernel

theorem test_grant_ends :
    let t (x : State) := after (.linkWord .link0 (word 0x30)) x
    let expires (x : State) := after (.grantExpired 0) (at_ 2000 x)
    let d := deferred.modSection 0 fun x => { x with claim := .grantedToFar, claimDeadline := some 200000000 }
    ((t (yielded 0)).section' 0).claim = .claimSent ∧ ((t (yielded 0)).feeder 0).state = .claiming ∧
      ((t (yielded 4500)).feeder 0).state = .closing ∧ ((expires (yielded 4500)).feeder 0).state = .closing ∧
      ((t ((yielded 0).modLink .link0 fun k => { k with conflict := true })).feeder 0).state = .opened ∧
      ((t d).feeder 0).state = .claiming ∧ ((t d).section' 0).claim = .claimSent := by decide +kernel

/-! ## Station time -/

/-- Station time at a second and a fraction, with a slew remaining whose step is due. -/
def timed (seconds fraction : Nat) (slew : Option Int) (x : State) : State :=
  { x with time := { x.time with
      now := { seconds := seconds, fraction := fraction }, nextMark := seconds + 1, quality := .free, slew := slew,
      slewCount := 2000 } }

theorem test_hyp_slew : (timed 5 0 (some 1) State.reset).time.slew = some 1 ∧
    2000 ≤ (timed 5 0 (some 1) State.reset).time.slewCount ∧
    (timed 5 99999999 (some 1) State.reset).time.now.fraction < 100000000 ∧
    (timed 5 99999997 (some (-1)) State.reset).time.now.fraction + 2 < 100000000 ∧
    100000000 ≤ (timed 5 99999998 (some (-2)) State.reset).time.now.fraction + 2 ∧
    (timed 4294967295 99999998 (some (-2)) State.reset).time.now.seconds = 4294967295 := by decide +kernel

theorem test_slew :
    let s (x : State) := (after .slewStep x).time
    (s (timed 5 7 (some 1) State.reset)).slew = none ∧ (s (timed 5 7 (some 2) State.reset)).slew = some 1 ∧
      (s (timed 5 7 (some (-2)) State.reset)).slew = some (-1) ∧
      (s (timed 5 7 (some (-2)) State.reset)).now.fraction = 9 ∧
      (s (timed 5 99999997 (some (-1)) State.reset)).boundary = none ∧
      (s (timed 5 99999998 (some (-1)) State.reset)).boundary = some 0 ∧
      (s (timed 4294967295 99999998 (some (-1)) State.reset)).boundary = none := by decide +kernel

/-- Time with a slew in progress whose step is due: what leaves the slew gives the count a rise of 1. -/
theorem test_slew_over :
    let t (n : Nat) := (timed 5 n (some (-3)) State.reset).time
    (t 7).slewOver = { t 7 with slew := none, slewCount := 0, now := { seconds := 5, fraction := 8 } } ∧
      (t 99999999).slewOver.boundary = some 0 ∧ ({ t 7 with slewCount := 1999 } : TimeBase).slewOver.now.fraction = 7 ∧
      (after (.timeRestart .A) (offering .A 0x41 [] (timed 5 7 (some (-3)) State.reset))).time.now.fraction = 8 := by
  decide +kernel

theorem test_hyp_boundary :
    let s := { linked .up 64 0 State.reset with time := { TimeBase.reset with boundary := some 1 } }
    s.time.boundary = some 1 ∧ (s.link .link0).state = .up ∧ (s.link .link1).state = .down ∧
      (after .secondBoundary s).time.now = { seconds := 1, fraction := 1 } ∧ (after .secondBoundary s).time.nextMark = 2 ∧
      (((after .secondBoundary s).link .link0).pendingSet.map (·.signal)) = [.secondMark] := by decide +kernel

/-- SET TIME to 1 s and a fraction of 99,999,999, and of 100,000,000. -/
theorem test_hyp_set_time :
    (offering .A 0x40 [0, 0, 0, 1, 0x05, 0xF5, 0xE0, 0xFF] State.reset).offers .A 0x40 7
      [0, 0, 0, 1, 0x05, 0xF5, 0xE0, 0xFF] ∧
    be32 0 0 0 1 = 1 ∧ be32 0x05 0xF5 0xE0 0xFF = 99999999 ∧ be32 0x05 0xF5 0xE1 0 = 100000000 ∧
    State.reset.station.timeRole = .master ∧ State.reset.time.quality = .unset ∧
    (timed 1 99999999 none State.reset).time.now.units = 199999999 ∧
    (offering .A 0x41 [] State.reset).offers .A 0x41 7 [] :=
  ⟨offering_offers _ _ _ _ rfl rfl, by decide, by decide, by decide, rfl, rfl, by decide, offering_offers _ _ _ _ rfl rfl⟩

theorem test_set_time :
    let r (e : Byte) (x : State) := ((after (.setTime .A) (offering .A 0x40 [0, 0, 0, 1, 0x05, 0xF5, 0xE0, e] x)).port .A).responses.map (·.status)
    r 0xFF (timed 1 99999999 none State.reset) = [.done] ∧
      r 0xFE (timed 1 99999999 none State.reset) = [.refused .timeBackwards] ∧
      r 0xFE { State.reset with time := { (timed 1 99999999 none State.reset).time with quality := .unset } } = [.done] ∧
      r 0 { State.reset with settings := { State.reset.settings with
        station := { State.reset.station with timeRole := .followLink0 } } } = [.refused (.interlocked .state)] := by
  decide +kernel

/-- A follower of link 0 with light on it, a System segment heard at 0 and a mark due at 10 s; time at 10 s plus d. -/
def following (d : Int) (q : TimeQuality) : State :=
  let s := linked .up 64 0 State.reset
  { s with
    settings := { s.settings with station := { s.settings.station with timeRole := .followLink0 } },
    time := { s.time with
      now := { seconds := ((1000000000 + d) / 100000000).toNat, fraction := ((1000000000 + d) % 100000000).toNat },
      quality := q, upstream := some { role := 0, quality := 1, delay := 0, nextMark := 10, arrival := 0 } } }

theorem test_hyp_mark : (following 0 .free).hears .link0 (word 0x50) (.signal .secondMark false) ∧
    (following 0 .free).followed = some .link0 ∧ State.reset.followed = none ∧
    (∀ d ∈ ([-100001, -100000, 0, 1000000, 1000001] : List Int),
      ((following d .free).time.now.units : Int) - (10 * 100000000 + ((following d .free).link .link0).loopAverage / 2 : Nat)
        = d) := by
  unfold State.hears
  decide +kernel

/-- A mark fails no condition, and each in turn. -/
theorem test_hyp_mark_fails : (∀ r, ¬(following 0 .free).markFails false r) ∧
    (following 0 .free).markFails true .late ∧
    ({ following 0 .free with time := { (following 0 .free).time with follow := .conflict } } : State).markFails false .conflict ∧
    ({ following 0 .free with time := { (following 0 .free).time with upstream := none } } : State).markFails false .noSystem ∧
    ({ following 0 .free with now := 5000001 } : State).markFails false .noSystem ∧
    ({ following 0 .free with time := { (following 0 .free).time with
      upstream := some { role := 0, quality := 0, delay := 0, nextMark := 10, arrival := 0 } } } : State).markFails false
        .upstreamUnset := by
  refine ⟨?_, .inl ⟨rfl, rfl⟩, .inr ⟨rfl, .inl ⟨rfl, rfl⟩⟩, .inr ⟨rfl, .inr ⟨by decide, .inl ⟨rfl, nofun⟩⟩⟩,
    .inr ⟨rfl, .inr ⟨by decide, .inl ⟨rfl, ?_⟩⟩⟩, .inr ⟨rfl, .inr ⟨by decide, .inr ⟨rfl, _, rfl, by decide, rfl⟩⟩⟩⟩
  · rintro r (⟨_, h⟩ | ⟨_, ⟨_, h⟩ | ⟨_, ⟨_, h⟩ | ⟨_, u, h, _, k⟩⟩⟩)
    · cases h
    · exact absurd h (by decide)
    · exact absurd (h _ rfl) (by decide)
    · injection h with h
      subst h
      cases k
  · intro u h
    injection h with h
    subst h
    decide

theorem test_marks :
    let s (d : Int) (q : TimeQuality) (c : Byte) := (after (.linkWord .link0 (word c)) (following d q)).time
    ((s (-100001) .coarse 0x50).lastMark.map (·.action)) = some .step ∧
      ((s (-100000) .coarse 0x50).lastMark.map (·.action)) = some .slew ∧
      ((s 0 .coarse 0x50).lastMark.map (·.action)) = some .noAction ∧
      (s 1000000 .coarse 0x50).slew = some 1000000 ∧ (s 1000001 .coarse 0x50).follow = .conflict ∧
      ((s 0 .unset 0x50).lastMark.map (·.action)) = some .step ∧
      ((s 0 .coarse 0x51).lastMark.map (·.action)) = some (.unused .late) := by decide +kernel

/-! ## Switching programmes -/

/-- A step with an action, a target and an argument, no condition, and halt on failure. -/
def step_ (a : StepAction) (t : Option Item) (n : Nat) : Step :=
  { delay := 0, action := a, target := t, argument := n, mask := Mask.empty, halt := true }

/-- Programme 0 at slots 0 and 1 with this step first; runner 0, started by A, at its step. -/
def programmed (x : Step) (r : RunnerState) (w : Option Awaiting) (s : State) : State :=
  { s with
    slots := s.slots.set 0 x,
    headers := s.headers.set 0 (some { first := 0, count := 2 }),
    runners := s.runners.set 0
      { Runner.reset with
        state := r, programme := if r = .idle then none else some 0, index := if r = .idle then none else some 0,
        starter := if r = .idle then none else some .A, due := if r = .running then some 0 else none, awaiting := w } }

/-- A load of one step at slot 255, and one that does not fit; a definition of 256 steps, and one of 0. -/
theorem test_hyp_programme_bodies :
    readLoadSteps [255, 0, 0, 7, 0xFF, 0, 9, 0, 1] = some (255, [step_ .mark none 9]) ∧
      readLoadSteps (255 :: (List.replicate 2 [0, 0, 7, 0xFF, 0, 9, 0, 1]).flatten) = none ∧
      readLoadSteps [0] = none ∧ readDefine [7, 1, 0, 1, 0] = some (7, some { first := 0, count := 256 }) ∧
      readDefine [7, 1, 1, 1, 0] = none ∧ readDefine [7, 1, 0, 0, 0] = none ∧ readDefine [0, 0, 9, 9, 9] = some (0, none) ∧
      readStart [1, 7] = some (.runner1, 7) ∧ readStart [2, 0] = none := by decide +kernel

theorem test_hyp_programme_offers :
    (offering .A 0x50 [0] State.reset).offers .A 0x50 7 [0] ∧ (offering .A 0x51 [0, 0, 9, 9, 9] State.reset).offers .A 0x51 7 [0, 0, 9, 9, 9] ∧
      (offering .A 0x52 [1, 7] State.reset).offers .A 0x52 7 [1, 7] := by
  refine ⟨?_, ?_, ?_⟩ <;> exact offering_offers _ _ _ _ rfl rfl

theorem test_hyp_using : (programmed (step_ .mark none 0) .running none State.reset).using 0 ∧ ¬State.reset.using 0 := by
  refine ⟨⟨.runner0, by decide, by decide⟩, ?_⟩
  rintro ⟨r, h, _⟩
  cases r <;> exact absurd h (by decide)

/-- Slots 1 and 2 against a programme at slots 0 and 1. -/
theorem test_load :
    let r (f : Byte) (x : RunnerState) := ((after (.loadSteps .A) (offering .A 0x50 [f, 0, 0, 7, 0xFF, 0, 9, 0, 1]
      (programmed (step_ .mark none 0) x none State.reset))).port .A).responses.map (·.status)
    r 1 .running = [.refused .programmeBusy] ∧ r 2 .running = [.done] ∧ r 1 .idle = [.done] := by decide +kernel

theorem test_hyp_targets : let s := programmed (step_ .closeFeeder (some (.feeder 3)) 0) .idle none State.reset
    s.programmeTargets { first := 0, count := 2 } (.feeder 3) ∧ ¬s.programmeTargets { first := 0, count := 2 } .rectifier := by
  refine ⟨⟨0, by decide, by decide, by decide⟩, ?_⟩
  rintro ⟨k, h, a, _⟩
  have : k = 0 ∨ k = 1 := by
    simp only at h
    omega
  rcases this with rfl | rfl <;> exact absurd a (by decide)

theorem test_start_programme :
    let s (x : State) := after (.startProgramme .A) (offering .A 0x52 [0, 0] (programmed (step_ .closeFeeder (some (.feeder 0)) 0) .idle none x))
    let r (x : State) := ((s x).port .A).responses.map (·.status)
    r State.reset = [.refused .notReady] ∧
      r (inState .opened 0 State.reset) = [.refused (.notAuthorised true (some (.feeder 0)))] ∧
      r (holds .B (.feeder 0) (inState .opened 0 State.reset)) = [.refused (.heldByOther (.feeder 0) .B)] ∧
      r (holds .A (.feeder 0) (inState .opened 0 State.reset)) = [.accepted] ∧
      ((s (holds .A (.feeder 0) (inState .opened 0 State.reset))).runner .runner0).state = .running := by decide +kernel

theorem test_hyp_runner_control :
    let s (x : RunnerState) := programmed (step_ .mark none 0) x none State.reset
    (offering .G 0x53 [0] (s .running)).offers .G 0x53 7 [BitVec.ofNat 8 RunnerId.runner0.index.val] ∧
      ((s .running).runner .runner0).starter = some .A ∧ (Port.A ≠ .G) ∧
      (∀ r : RunnerId, ([2] : List Byte) ≠ [BitVec.ofNat 8 r.index.val]) := by
  refine ⟨offering_offers _ _ _ _ (by decide) (by decide), by decide, by decide, fun r => ?_⟩
  cases r <;> decide

theorem test_runner_control :
    let s (x : RunnerState) := programmed (step_ .mark none 0) x none State.reset
    let r (c : Instr) (k : Byte) (p : Port) (x : RunnerState) := (after c (offering p k [0] (s x))).runner .runner0
    (r (.suspend .A) 0x53 .A .running).state = .suspended ∧ (r (.suspend .A) 0x53 .A .running).remaining = some 0 ∧
      (r (.suspend .A) 0x53 .A .halted).state = .halted ∧ (r (.suspend .G) 0x53 .G .running).state = .running ∧
      (r (.stop .B) 0x55 .B .running).state = .idle ∧ (r (.clear .B) 0x56 .B .halted).state = .idle ∧
      (r (.clear .B) 0x56 .B .running).state = .running := by decide +kernel

theorem test_resume :
    let s (w : Option Awaiting) (n : Option Nat) : State := { State.reset with
      runners := State.reset.runners.set 0 { (programmed (step_ .mark none 0) .suspended w State.reset).runner .runner0 with
        remaining := n } }
    let r (w : Option Awaiting) (n : Option Nat) := (after (.resume .A) (offering .A 0x54 [0] (s w n))).runner .runner0
    (r none (some 5)).state = .running ∧ (r none (some 5)).due = some 5 ∧ (r (some .rectifier) none).state = .awaiting := by
  decide +kernel

/-- A due step of each kind: the hypotheses hold of the state the step is taken in. -/
theorem test_hyp_step_due : let s := programmed (step_ .mark none 9) .running none State.reset
    (s.runner .runner0).programme = some 0 ∧ s.headers.get 0 = some { first := 0, count := 2 } ∧
      (s.runner .runner0).index = some 0 ∧ s.slot (0 + 0) = step_ .mark none 9 ∧
      (s.runner .runner0).state = .running ∧ (s.runner .runner0).awaiting = none ∧
      (s.runner .runner0).due = some 0 ∧ 0 ≤ s.now := by decide +kernel

theorem test_hyp_conditions : State.reset.conditions (step_ .mark none 9) ∧
    ¬State.reset.conditions { step_ .mark none 9 with mask := { Mask.empty with locationRemote := true } } ∧
    State.reset.conditions { step_ .mark none 9 with mask := { Mask.empty with locationLocal := true } } ∧
    State.reset.conditions { step_ .openFeeder (some (.feeder 0)) 0 with
      mask := { Mask.empty with farOpenOrUnknown := true } } ∧
    ¬State.reset.conditions { step_ .waitUntil none 0 with mask := { Mask.empty with rectifierRunning := true } } := by
  refine ⟨⟨nofun, nofun, nofun, nofun, nofun, nofun⟩, fun h => absurd (h.2.2.2.2.2 rfl) (by decide),
    ⟨nofun, nofun, nofun, nofun, fun _ => rfl, nofun⟩, ⟨nofun, nofun, nofun, fun _ f h => ?_, nofun, nofun⟩,
    fun h => absurd (h.2.1 rfl) (by decide)⟩
  cases h
  decide

/-- What a due step leads to, with F0 or the rectifier held by A where it is needed. -/
theorem test_step_due :
    let r (x : Step) (s : State) := after (.stepDue .runner0) (programmed x .running none s)
    ((r (step_ .mark none 9) State.reset).runner .runner0).index = some 1 ∧
      ((r { step_ .mark none 9 with mask := { Mask.empty with locationRemote := true } } State.reset).runner .runner0).lastOutcome
        = some (.skipped, 0) ∧
      ((r (step_ .finish none 0) State.reset).runner .runner0).state = .idle ∧
      ((r (step_ .waitUntil none 0) State.reset).runner .runner0).index = some 1 ∧
      ((r (step_ .openFeeder (some (.feeder 0)) 0) State.reset).runner .runner0).haltReason = some .notReady ∧
      ((r (step_ .openFeeder (some (.feeder 0)) 0) (inState .closed 0 State.reset)).feeder 0).state = .tripping ∧
      ((r (step_ .closeFeeder (some (.feeder 0)) 0) State.reset).runner .runner0).haltReason = some .notAuthorised ∧
      ((r (step_ .closeFeeder (some (.feeder 0)) 0) (closable 0)).feeder 0).state = .testing ∧
      (r (step_ .setAlpha (some .rectifier) 720) (held .blocked none)).rect.target = 300 ∧
      (r (step_ .startRectifier (some .rectifier) 0) (held .blocked (some .opened))).rect.state = .connecting ∧
      (r (step_ .stopRectifier (some .rectifier) 0) (held .running (some .closed))).rect.state = .blocked := by
  decide +kernel

theorem test_wait_limit :
    let w (n : Nat) := { step_ .waitUntil none n with mask := { Mask.empty with rectifierRunning := true } }
    let s := programmed (w 3) .awaiting (some (.wait 300000)) State.reset
    ((after (.stepDue .runner0) (programmed (w 3) .running none State.reset)).runner .runner0).awaiting
        = some (.wait 300000) ∧
      ((after (.stepDue .runner0) (programmed (w 0) .running none State.reset)).runner .runner0).haltReason
        = some .waitLimit ∧
      after (.waitLimitExpiry .runner0) (at_ 2 s) = at_ 2 s ∧
      ((after (.waitLimitExpiry .runner0) (at_ 3 s)).runner .runner0).haltReason = some .waitLimit := by decide +kernel

/-- A runner awaiting a thing, RUNNING or not, at a step that halts on failure. -/
def awaits (x : RunnerState) (w : Awaiting) (m : Mask) (s : State) : State :=
  programmed { step_ .waitUntil (some (.feeder 0)) 0 with mask := m } x (some w) s

theorem test_hyp_awaits : let s := awaits .suspended (.close 0) Mask.empty (testing 0 .auto)
    (s.runner .runner0).programme = some 0 ∧ s.headers.get 0 = some { first := 0, count := 2 } ∧
      (s.runner .runner0).index = some 0 ∧ (s.runner .runner0).awaiting = some (.close 0) ∧
      (s.feeder 0).operation ≠ none ∧ (s.feeder 0).state = .testing := by decide +kernel

/-- What a runner is at, after a command: its state, its step, why it halted, and its last outcome. -/
structure RanOn where
  state : RunnerState
  index : Option Nat
  why : Option FailureCause
  outcome : Option (StepOutcome × Nat)
  deriving DecidableEq

def ranOn (c : Instr) (s : State) : RanOn :=
  let x := (after c s).runner .runner0
  { state := x.state, index := x.index, why := x.haltReason, outcome := x.lastOutcome }

/-- The first step DONE in a state of the runner, the first step failed and halted at, and still at the first step. -/
def RanOn.done (x : RunnerState) : RanOn := { state := x, index := some 1, why := none, outcome := some (.done, 0) }

def RanOn.failed (c : FailureCause) : RanOn :=
  { state := .halted, index := some 0, why := some c, outcome := some (.failed c, 0) }

def RanOn.still (x : RunnerState) : RanOn := { state := x, index := some 0, why := none, outcome := none }

/-- Close results at a runner: CLOSED_OK, CLOSE_FAILED, LINE_FAULTY, a test passed, and CLAIM_TIMEOUT; in SUSPENDED too. -/
theorem test_close_results :
    let w (x : RunnerState) (s : State) := awaits x (.close 0) Mask.empty s
    let failed (r : CloseResult) := RanOn.failed (.close r)
    ranOn (.positionDebounceExpiry (.feeder 0)) (w .awaiting (positioned .opened .closed .closing .close 0))
        = .done .running ∧
      ranOn (.positionDebounceExpiry (.feeder 0)) (w .suspended (positioned .opened .closed .closing .close 0))
        = .done .suspended ∧
      ranOn (.closeConfirmLimit 0) (w .awaiting (at_ 150 (running .closing .close .auto (some 15000000) (closable 0))))
        = failed .closeFailed ∧
      ranOn (.testEnd 0) (w .suspended (testing 3999 .auto)) = failed .lineFaulty ∧
      ranOn (.testEnd 0) (w .awaiting (testing 4000 .auto)) = .still .awaiting ∧
      ranOn (.claimDeadline 0) (w .awaiting (at_ 100 claiming)) = failed .claimTimeout ∧
      ranOn (.openFeeder .A) (offering .A 0x10 [0] (w .awaiting (running .closing .close .auto none (closable 0))))
        = failed (.aborted .openRequest) := by decide +kernel

/-- The kinds of the entries after the two of the start-up. -/
def kindsOf (s : State) : List EventKind := s.events.ring.drop 2 |>.map (·.kind)

/-- F0 CLOSING with the Sample Port not VALID and runner 0 awaiting its close. -/
def closingAwaited : State :=
  { awaits .awaiting (.close 0) Mask.empty (running .closing .close .auto none (closable 0)) with sample := SamplePort.reset }

/-- A transfer trip there: CAPTURE HELD and the runner's entries in either order, after Breaker Control's own. -/
theorem test_trip_entries_in_either_order :
    let t := closingAwaited.tripFeeder 0 .transfer (.link .link0) false none none
    kindsOf t = [.closeResult, .trip, .captureHeld, .stepFailed, .programmeHalted] ∨
      kindsOf t = [.closeResult, .trip, .stepFailed, .programmeHalted, .captureHeld] := by
  unfold State.tripFeeder
  obtain ⟨x, rfl | rfl, e | e⟩ := together_two
    (fun t => t.heldAtStart (closingAwaited.captureAsked 0 .transfer))
    (fun t => t.tripEnded (closingAwaited.feeder 0).state 0 (.aborted TripCause.transfer.overtaking))
    (closingAwaited.tripTaken 0 .transfer (.link .link0) false none none) <;> rw [e] <;> decide +kernel

/-- A rectifier start awaited: entry into RUNNING, into SYNCING, into BLOCKED and into TRIPPED. -/
theorem test_rectifier_outcomes :
    let w (x : RunnerState) (s : State) := awaits x .rectifier Mask.empty s
    let syncing := { crossing .acquiring (some 20000) 3 20000 with rect := { State.reset.rect with state := .syncing } }
    let failed := at_ 60 { tripping with rect := { tripping.rect with state := .running } }
    let e (c : Instr) (s : State) := (after c s).events.ring.filterMap fun x =>
      if x.kind = .stepFailed then some x.value2 else none
    syncing.rect.state = .syncing ∧ ranOn .zeroCrossing (w .awaiting syncing) = .done .running ∧
      ranOn .zeroCrossing (w .suspended syncing) = .done .suspended ∧
      ranOn (.positionDebounceExpiry .ac) (w .awaiting (acMoved none .closed .connecting (some .close)))
        = .still .awaiting ∧
      ranOn .acCloseDeadline (w .awaiting (acting .close .connecting 200)) = .failed .rectifierNotRunning ∧
      e .acCloseDeadline (w .awaiting (acting .close .connecting 200)) = [some 0] ∧
      e (.tripConfirmLimit 0) (w .awaiting failed) = [some (RectState.code .tripped : Int)] := by decide +kernel

/-- A wait satisfied by a frame, by the location, by the rectifier, and by a far state that goes UNKNOWN. -/
theorem test_waits :
    let w (x : RunnerState) (m : Mask) (s : State) := awaits x (.wait 900000000) m s
    let bus := firing .busVoltage (some 0)
    let far := { Mask.empty with farOpenOrUnknown := true }
    ranOn (.frameComplete (frame 1 5000)) (w .awaiting { Mask.empty with busLive := true } bus) = .done .running ∧
      ranOn (.frameComplete (frame 1 4999)) (w .awaiting { Mask.empty with busLive := true } bus)
        = .still .awaiting ∧
      ranOn .locationChanged (w .awaiting { Mask.empty with locationRemote := true } keyMade) = .done .running ∧
      ranOn (.farStateStale 0) (w .awaiting far (at_ 50 farHeard)) = .done .running ∧
      ranOn (.farStateStale 0) (w .suspended far (at_ 50 farHeard)) = .done .suspended ∧
      ranOn (.positionDebounceExpiry .ac) (w .awaiting { Mask.empty with rectifierRunning := true }
        (acMoved none .closed .connecting (some .close))) = .still .awaiting := by decide +kernel

theorem test_hyp_mask_reads :
    let x := { step_ .waitUntil (some (.feeder 0)) 0 with mask := { Mask.empty with farOpenOrUnknown := true } }
    ChangesWhatAMaskReads (at_ 50 farHeard) (after (.farStateStale 0) (at_ 50 farHeard)) x ∧
      (after (.farStateStale 0) (at_ 50 farHeard)).conditions x ∧ ¬(at_ 50 farHeard).conditions x := by
  refine ⟨.inr (.inr ⟨.inr rfl, 0, rfl, by decide +kernel⟩), ⟨nofun, nofun, nofun, fun _ f h => ?_, nofun, nofun⟩,
    fun h => absurd (h.2.2.2.1 rfl 0 rfl) (by decide +kernel)⟩
  cases h
  decide +kernel

theorem test_wait_limit_suspended :
    ranOn (.waitLimitExpiry .runner0) (awaits .suspended (.wait 0) { Mask.empty with rectifierRunning := true } State.reset)
      = .failed .waitLimit := by decide +kernel

/-- The runners' report gives a remaining delay in whole ms. -/
theorem test_remaining_in_ms :
    let x := { (programmed (step_ .mark none 0) .suspended none State.reset).runner .runner0 with remaining := some 299999 }
    let r := ({ State.reset with runners := State.reset.runners.set 0 x } : State).runnersReport 0 0
    (match r with
      | .runners y _ _ _ _ => y.remaining
      | _ => none) = some 2 := by decide +kernel

/-! ## Settings and start-up -/

/-- The bodies of the defaults, as SET STATION and SET FEEDER carry them. -/
def stationBody : List Byte :=
  [1, 0, 0x07, 0xD0, 0x13, 0x88, 0, 10, 1, 44, 2, 0, 60, 0x17, 0x70, 0x23, 0x28, 0x21, 0x34]

def groupBody : List Byte := [0x0F, 0xA0, 0, 20, 0, 5, 0x05, 0xDC, 0, 40]

def feederBody (f link farFeeder : Byte) : List Byte :=
  [f, 1, link, farFeeder] ++ groupBody ++ groupBody ++ [20, 60, 0, 150, 1, 0x90, 80, 2, 5, 0, 60]

theorem test_hyp_settings_bodies : readSetStation stationBody = some StationSettings.default ∧
    readSetStation (0 :: stationBody.tail) = none ∧ readSetStation (255 :: stationBody.tail) = none ∧
    readSetFeeder (feederBody 7 1 7)
      = some (7, { FeederSettings.default with inService := true, farLink := some .link0, farFeeder := 7 }) ∧
    readSetFeeder (feederBody 8 1 7) = none ∧
    (readSlots (0x17 :: List.replicate 31 0)).map (·.get 0) = some (.feederCurrent 7) ∧
    readSlots (0x17 :: 0x17 :: List.replicate 30 0) = none ∧ readSlots [0] = none := by decide +kernel

/-- A holds the rectifier and F0, which is ready and OPEN. -/
def setting : State := holds .A .rectifier (holds .A (.feeder 0) (inState .opened 0 State.reset))

theorem test_hyp_settings : (offering .A 0x70 stationBody setting).offers .A 0x70 7 stationBody ∧
    (offering .A 0x71 (feederBody 0 1 0) setting).offers .A 0x71 7 (feederBody 0 1 0) ∧
    (offering .A 0x72 (List.replicate 32 0) setting).offers .A 0x72 7 (List.replicate 32 0) ∧
    (offering .A 0x74 [] setting).offers .A 0x74 7 [] ∧ (setting.holding .rectifier).map (·.holder) = some .A ∧
    (setting.holding (.feeder 0)).map (·.holder) = some .A ∧ (setting.feeder 0).ready = true ∧
    (setting.config 0).farLink = none ∧ (setting.section' 0).claim = .idle ∧ setting.rect.applied = 300 := by
  refine ⟨?_, ?_, ?_, ?_, by decide, by decide, by decide, by decide, by decide, by decide⟩ <;>
    exact offering_offers _ _ _ _ (by decide) (by decide)

/-- In RUNNING, alpha max 299 leaves the applied angle 300 out. -/
theorem test_set_station :
    let s (ax : Byte) (x : RectState) := after (.setStation .A) (offering .A 0x70
      ([1, 0, 0x07, 0xD0, 0x13, 0x88, 0, 10, 1, ax, 2, 0, 60, 0x17, 0x70, 0x23, 0x28, 0x21, 0x34])
      { setting with rect := { setting.rect with state := x } })
    ((s 43 .running).port .A).responses.map (·.status) = [.refused (.interlocked .state)] ∧
      ((s 44 .running).port .A).responses.map (·.status) = [.done] ∧ (s 43 .blocked).rect.applied = 299 ∧
      (s 43 .blocked).station.alphaMax = 299 := by decide +kernel

theorem test_set_feeder :
    let s (x : State) := after (.setFeeder .A) (offering .A 0x71 (feederBody 0 1 0) x)
    ((s setting).config 0).farLink = some .link0 ∧ ((s setting).section' 0).matching = .mismatch ∧
      ((s setting).feeder 0).group = .isolated ∧
      ((s (setting.modSection 0 fun r => { r with claim := .claimSent })).port .A).responses.map (·.status)
        = [.refused (.interlocked .state)] ∧
      ((after (.setFeeder .B) (offering .B 0x71 (feederBody 0 1 0) setting)).port .B).responses.map (·.status)
        = [.refused (.heldByOther (.feeder 0) .A)] := by decide +kernel

/-- A SET STATION with another role and another number: the follower's upstream goes, and the number reaches the links. -/
theorem test_role_and_number :
    let s := (linked .up 64 0 (timed 5 7 (some (-3)) setting)).modLink .link0 fun k => { k with farStation := some 2 }
    let t (role : Byte) := after (.setStation .A) (offering .A 0x70 (2 :: role :: stationBody.drop 2) s)
    (readSetStation (2 :: 1 :: stationBody.drop 2)).map (·.timeRole) = some .followLink0 ∧
      ((t 1).port .A).responses.map (·.status) = [.done] ∧ (t 1).time.slew = none ∧ (t 1).time.now.fraction = 8 ∧
      (t 1).time.upstream = none ∧ ((t 1).link .link0).conflict = true ∧ (t 1).station.stationNumber = 2 ∧
      ((t 1).link .link0).queued.get 0 = true ∧ (t 0).time = s.time := by decide +kernel

/-- A station's rectifier values at the ends of their ranges and beyond, with authority and without it. -/
theorem test_station_ranges :
    let body (lo hi : Byte) := [1, 0, 0x07, 0xD0, 0x13, 0x88, 0, lo, 1, hi, 2, 0, 60, 0x17, 0x70, 0x23, 0x28, 0x21, 0x34]
    let r (p : Port) (lo hi : Byte) :=
      ((after (.setStation p) (offering p 0x70 (body lo hi) setting)).port p).responses.map (·.status)
    readSetStation (body 9 44) = none ∧ r .A 9 44 = [.refused .badArgument] ∧ r .A 10 44 = [.done] ∧
      r .A 60 44 = [.done] ∧ r .A 61 44 = [.refused .badArgument] ∧ r .A 10 45 = [.refused .badArgument] ∧
      r .B 9 44 = [.refused .badArgument] ∧ r .B 10 44 = [.refused (.heldByOther .rectifier .A)] := by decide +kernel

theorem test_hyp_station_fits : StationFits StationSettings.default ∧
    ¬StationFits { StationSettings.default with alphaMin := 9 } ∧
    ¬StationFits { StationSettings.default with stationNumber := 255 } := by
  refine ⟨by unfold StationFits; decide, fun h => ?_, fun h => absurd h.2.1 (by decide)⟩
  obtain ⟨-, -, -, -, -, -, h, -⟩ := h
  exact absurd h (by decide)

/-- Who a SET request of this station's is refused to, and to whom it is not. -/
theorem test_hyp_refuses_processor : setting.refusesProcessor .G .rectifier (.notAuthorised true (some .rectifier)) ∧
    setting.refusesProcessor .B .rectifier (.heldByOther .rectifier .A) ∧ (∀ why, ¬setting.refusesProcessor .A .rectifier why) ∧
    State.reset.refusesProcessor .A .rectifier (.notAuthorised true (some .rectifier)) := by
  refine ⟨.inl ⟨rfl, rfl⟩, .inr (.inr (.inr ⟨nofun, ?_, _, rfl, by decide, rfl⟩)), ?_,
    .inr (.inr (.inl ⟨nofun, ?_, by decide, rfl⟩))⟩
  · rintro (⟨_, h⟩ | ⟨h, _⟩) <;> cases h
  · rintro why (⟨h, _⟩ | ⟨_, h, _⟩ | ⟨_, _, h, _⟩ | ⟨_, _, x, h, k, _⟩)
    · cases h
    · rcases h with ⟨_, h⟩ | ⟨h, _⟩ <;> cases h
    · exact absurd h (by decide)
    · rw [show setting.holding .rectifier = some { holder := .A, expiry := 200000000, grantedAt := 0, lease := 2000 } by
        decide] at h
      injection h with h
      subst h
      exact k rfl
  · rintro (⟨_, h⟩ | ⟨h, _⟩) <;> cases h

/-- SET SLOTS: a body of another length and a bad map are refused first of all, then authority is looked at. -/
theorem test_set_slots_order :
    let r (p : Port) (body : List Byte) := ((after (.setSlots p) (offering p 0x72 body setting)).port p).responses.map (·.status)
    let bad : List Byte := 0x17 :: 0x17 :: List.replicate 30 0
    readSlots bad = none ∧ r .B [0] = [.refused .badArgument] ∧ r .B bad = [.refused .badArgument] ∧
      r .A bad = [.refused .badArgument] ∧ r .B (List.replicate 32 0) = [.refused (.heldByOther .rectifier .A)] := by
  decide +kernel

/-- F0 in service: busy in CLOSED, and not in OPEN. -/
def inService (x : FeederState) : State :=
  let s := inState x 0 setting
  { s with settings := { s.settings with
    feeders := s.settings.feeders.set 0 { FeederSettings.default with inService := true } } }

theorem test_hyp_changes_busy :
    let m : File SlotEntry 32 := (File.fill 32 .unused).set 31 (.feederCurrent 0)
    (inService .closed).changesBusy m ∧ ¬(inService .opened).changesBusy m ∧ NoQuantity (File.fill 32 .unused) ∧
      ¬NoQuantity m := by
  refine ⟨⟨31, by decide, .inl (.inl ⟨0, .inl (by decide), by decide, by decide, by decide, by decide⟩)⟩, ?_, ?_,
    fun h => absurd (h 31) (by decide)⟩
  · rintro ⟨n, h, (⟨f, k, r, v, a, b⟩ | ⟨_, a, b⟩) | (⟨f, k, r, v, a, b⟩ | ⟨_, a, b⟩)⟩
    · fin_cases f
      · exact a (by decide)
      all_goals exact absurd v (by decide)
    · exact a (by decide)
    · fin_cases f
      · exact a (by decide)
      all_goals exact absurd v (by decide)
    · exact a (by decide)
  · intro n
    fin_cases n <;> rfl

theorem test_set_slots :
    let s (x : FeederState) := after (.setSlots .A) (offering .A 0x72 (List.replicate 31 0 ++ [0x10]) (inService x))
    ((s .closed).port .A).responses.map (·.status) = [.refused (.interlocked .state)] ∧
      ((s .opened).port .A).responses.map (·.status) = [.done] ∧ (s .opened).sample.state = .starting := by decide +kernel

/-- A commit under way whose write ends at 250 ms. -/
def committing : State :=
  { setting with store := { setting.store with
    commit := some { snapshot := Settings.default, origin := .port .A, startAt := 0, endAt := 25000000 } } }

theorem test_hyp_commit : committing.store.commit.map (·.endAt) = some (at_ 250 committing).now ∧
    setting.store.commit = none ∧ after .commitWriteEnd (at_ 249 committing) = at_ 249 committing ∧
    (after .commitWriteEnd (at_ 250 committing)).store.copy = some Settings.default := by decide +kernel

theorem test_commit :
    let r (p : Port) (x : State) := ((after (.commitSettings p) (offering p 0x74 [] x)).port p).responses.map (·.status)
    r .G setting = [.refused (.notAuthorised true none)] ∧ r .A committing = [.refused .storeBusy] := by decide +kernel

/-- A COMMIT answered ACCEPTED: its write ends from 50 to 250 ms on, whatever the store chooses. -/
theorem test_commit_accepted : (after (.commitSettings .A) (offering .A 0x74 [] setting)).store.copy = none := by
  rfl

/-- Start-up with a stored copy and without one. -/
theorem test_hyp_start_up :
    let s := after .resetLineAssert { committing with store := { committing.store with copy := some Settings.default } }
    State.reset.store.copy = none ∧ s.store.copy = some Settings.default ∧ s.resetLine = true ∧
      (after .resetLineRelease s).store.source = .store ∧ (after .powerOn s).restartCause = .powerOn ∧
      (after .resetLineRelease s).events.ring.length = 1 ∧ (after .resetLineRelease s).resetLine = false := by
  decide +kernel

/-! ## A frame on its way to the Capture Unit (10 R193; log 32) -/

/-- The quantities of a frame still on its way: Ub alone. -/
def lateValues : Quantities := { Quantities.absent with ub := some 5000 }

/-- F0 CLOSED with its request on its way, an empty triple in its history, and the frame that decided it still late. -/
def lateFor (x : State) : State :=
  { x with
    sample := { x.sample with state := .valid },
    captures := { x.captures with
      histories := x.captures.histories.set 0 [{ current := none, voltage := none, bus := none }],
      late := some lateValues } }

/-- The capture starts before the frame: its first triple after the trigger, and its newest in the history. -/
theorem test_late_frame_after_the_trip :
    let s := lateFor (requested .closed)
    let t := after (.tripRequest 0) s
    s.captures.late = some lateValues ∧ t.captures.late = none ∧ (t.captures.histories.get 0).length = 2 ∧
      (t.captures.histories.get 1).length = 1 ∧
      ((t.captures.buffers.get 0).map fun c => (c.held, c.pre, c.triples.map (·.bus)))
        = some (false, 1, [none, some 5000]) ∧
      ((after (.tripRequest 0) (lateFor (requested .opened))).captures.late = none) := by decide +kernel

/-- Buffer 3 FILLING with 191 triples after its trigger: the trip has no capture, and the late frame fills the buffer. -/
theorem test_late_frame_fills_after_the_trip :
    let t := after (.tripRequest 0) ((lateFor (requested .closed)).setBuffer 3 (some (filling 191 false)))
    (t.events.ring.drop 2 |>.map fun e => (e.kind, e.capture)) = [(.trip, none), (.captureHeld, some 3)] ∧
      ((t.captures.buffers.get 3).map fun c => (c.held, c.triples.length)) = some (true, 192) := by decide +kernel

/-- The port leaves VALID with the frame still late: it is the last triple of a FILLING buffer, and of the history. -/
theorem test_late_frame_before_the_loss :
    let s := (lateFor (requested .closed)).setBuffer 3 (some (filling 5 false))
    let t := after .frameWatchExpiry { s with now := 20000, sample := { s.sample with frameWatch := some 0 } }
    t.sample.state = .lost ∧ t.captures.late = none ∧ (t.captures.histories.get 0).length = 2 ∧
      ((t.captures.buffers.get 3).map fun c => (c.held, c.truncated, c.triples.length)) = some (true, true, 6) := by
  decide +kernel

/-- The same where a map without a quantity takes the port from VALID into DISABLED. -/
theorem test_late_frame_before_disabled :
    let s := (lateFor setting).setBuffer 3 (some (filling 5 false))
    let s := { s with settings := { s.settings with slotMap := (File.fill 32 .unused).set 0 .busVoltage } }
    let t := after (.setSlots .A) (offering .A 0x72 (List.replicate 32 0) s)
    (t.port .A).responses.map (·.status) = [.done] ∧ t.sample.state = .disabled ∧ t.captures.late = none ∧
      t.sample.last = LastFrame.absent ∧ t.captures.histories.get 0 = [] ∧
      ((t.captures.buffers.get 3).map fun c => (c.held, c.truncated, c.triples.length)) = some (true, true, 6) := by
  decide +kernel

/-- A next frame is handed on after the late one. -/
theorem test_late_frame_before_the_next :
    let s := lateFor valid
    let t := after (.frameComplete (frame 1 4000)) s
    t.captures.late = none ∧ (t.captures.histories.get 0).map (·.bus) = [none, some 5000, none] ∧
      (t.captures.histories.get 0).map (·.current) = [none, none, some 4000] := by decide +kernel

/-- A frame that decides a trip is at the Capture Unit at once or still late. -/
theorem test_deciding_frame_is_late_or_not :
    let t := after (.frameComplete (frame 1 4000)) (watching [true] none none 0)
    (t.captures.late.isSome = true ∧ t.captures.histories.get 0 = []) ∨
      (t.captures.late = none ∧ (t.captures.histories.get 0).length = 1) := by
  let s := watching [true] none none 0
  apply after_deciding_frame (fun t => (t.captures.late.isSome = true ∧ t.captures.histories.get 0 = []) ∨
    (t.captures.late = none ∧ (t.captures.histories.get 0).length = 1)) _ _
    (quantities s.settings.slotMap (frame 1 4000)) rfl
  · exact .inr (by decide +kernel)
  · exact .inl (by decide +kernel)

theorem test_hyp_requests_under_way : (requested .closed).someRequest ∧ ¬State.reset.someRequest := by
  refine ⟨⟨0, by decide⟩, ?_⟩
  rintro ⟨f, h⟩
  fin_cases f <;> exact h rfl

/-! ## The phase choice, aborts and the far end lost (04, 07 R134) -/

/-- Row 1 at 90 % of the bus voltage, and below it. -/
theorem test_hyp_live_from_far : (nearLive 4500).liveFromFar 0 ∧ ¬(nearLive 4499).liveFromFar 0 ∧
    ¬(closable 4500).liveFromFar 0 := by
  refine ⟨⟨by decide +kernel, 4500, 5000, by decide +kernel, by decide +kernel, by decide⟩, ?_, fun h => ?_⟩
  · rintro ⟨_, u, b, hu, hb, h⟩
    rw [show (nearLive 4499).sample.last.values.ufs.get 0 = some 4499 by decide +kernel] at hu
    rw [show (nearLive 4499).sample.last.values.ub = some 5000 by decide +kernel] at hb
    injection hu; injection hb; omega
  · exact absurd h.1 (by decide +kernel)

/-- A far link that is not UP: the test is unclaimed, with its entry; a conflict or a mismatch ends the close. -/
theorem test_phase_choice :
    let down := claimable.modLink .link0 fun k => { k with state := .down }
    let mismatch := claimable.modSection 0 fun x => { x with matching := .mismatch }
    let t (x : State) := after (.closeFeeder .A) (offering .A 0x11 [0] x)
    let new (x : State) := (t x).events.ring.drop 2 |>.map fun e => (e.kind, e.detail)
    ((t down).feeder 0).state = .testing ∧ new down = [(.unclaimedTest, .unclaimedTest false)] ∧
      ((t (closable 0)).feeder 0).state = .testing ∧ new (closable 0) = [] ∧
      ((t mismatch).feeder 0).state = .opened ∧ new mismatch = [(.closeResult, .closeResult .claimConflict)] ∧
      (((t claimable).link .link0).pendingSet.map (·.signal)) = [.testClaim 0] ∧
      ((t claimable).section' 0).claim = .claimSent := by decide +kernel

theorem test_hyp_claim_conflicts : (claimable.modSection 0 fun x => { x with matching := .mismatch }).claimConflicts 0 ∧
    ¬claimable.claimConflicts 0 := by
  refine ⟨⟨fun h => absurd h.1 (by decide +kernel), .link0, by decide +kernel, by decide +kernel,
    .inr (by decide +kernel)⟩, ?_⟩
  rintro ⟨_, l, h, _, k⟩
  rw [show (claimable.config 0).farLink = some .link0 by decide +kernel] at h
  injection h with h
  subst h
  rcases k with k | k <;> exact absurd k (by decide +kernel)

/-- Light goes from link 0: a claim sent goes on to an unclaimed test, or ends where the Sample Port is not VALID; a
grant to us stands. -/
theorem test_far_end_lost_to_a_claim :
    let lit (s : State) := s.modLink .link0 fun k => { k with light := true }
    let t (s : State) := after (.lightPresentChange .link0 false) (lit s)
    let new (s : State) := (t s).events.ring.drop 2 |>.map fun e => (e.kind, e.detail)
    let off := { claiming with sample := { claiming.sample with state := .lost } }
    let ours := (running .testing .close .auto (some 40000000) claimable).modSection 0 fun x =>
      { x with claim := .grantedToUs }
    ((t claiming).feeder 0).state = .testing ∧ ((t claiming).section' 0).claim = .idle ∧
      (((t claiming).feeder 0).operation.map (·.testMode)) = some .unclaimed ∧
      new claiming = [(.linkDown, .linkDown .noLight), (.unclaimedTest, .unclaimedTest true)] ∧
      ((t off).feeder 0).state = .opened ∧ (new off).map (·.1) = [.linkDown, .unclaimedTest, .closeResult] ∧
      ((t ours).feeder 0).state = .testing ∧ ((t ours).section' 0).claim = .grantedToUs ∧
      ((t ours).section' 0).matching = .mismatch := by decide +kernel

/-- Light goes from link 0 while the far end holds a grant: a claim that yielded goes on, a deferred reclose is taken. -/
theorem test_far_end_lost_to_a_grant :
    let lit (s : State) := (s.modLink .link0 fun k => { k with light := true }).modSection 0 fun x =>
      { x with claim := .grantedToFar, claimDeadline := some 200000000 }
    let t (s : State) := after (.lightPresentChange .link0 false) (lit s)
    let put := waiting 1 claimable |>.modFeeder 0 fun r => { r with deferred := true }
    ((t claiming).feeder 0).state = .testing ∧
      (((t claiming).events.ring.drop 2).map (·.detail)) = [.linkDown .noLight, .unclaimedTest false] ∧
      ((t put).feeder 0).state = .testing ∧ ((t put).section' 0).claim = .idle ∧
      ((t put).section' 0).claimDeadline = none ∧
      (((t put).feeder 0).operation.map (·.origin)) = some .auto := by decide +kernel

/-- An abort gives a claim back: withdrawn while it is still pending, else with TEST DONE; a grant to the far end stays. -/
theorem test_claim_given_back :
    let pending := claiming.modLink .link0 fun k => { k with
      pendingSet := [{ signal := .testClaim 0, repeats := 1, due := none, late := false }] }
    let far := claiming.modSection 0 fun x => { x with claim := .grantedToFar }
    let t (s : State) := after (.openFeeder .A) (offering .A 0x10 [0] s)
    let left (s : State) := (((t s).section' 0).claim, ((t s).link .link0).pendingSet.map (·.signal))
    ((t claiming).feeder 0).state = .opened ∧ left claiming = (.idle, [.testDone 0]) ∧ left pending = (.idle, []) ∧
      left far = (.grantedToFar, []) := by decide +kernel

theorem test_hyp_claim_pending :
    (claiming.modLink .link0 fun k => { k with
      pendingSet := [{ signal := .testClaim 0, repeats := 1, due := none, late := false }] }).claimPending 0 ∧
      ¬claiming.claimPending 0 := by
  refine ⟨⟨.link0, by decide +kernel, _, List.mem_singleton.mpr rfl, by decide +kernel⟩, ?_⟩
  rintro ⟨l, _, e, m, _⟩
  rw [show (claiming.link l).pendingSet = [] by cases l <;> decide +kernel] at m
  cases m

/-- OPEN FEEDER in CLOSING: a CLOSE RESULT, then TRIP with cause COMMANDED, last If and no capture. -/
theorem test_open_feeder_in_closing :
    let s := (running .closing .close .auto none (closable 0)).modFeeder 0 fun r => { r with lastIf := some 7, attempts := 1 }
    let t := after (.openFeeder .A) (offering .A 0x10 [0] s)
    (t.events.ring.drop 2 |>.map fun e => (e.kind, e.detail)) =
        [(.closeResult, .closeResult (.aborted .openRequest)), (.trip, .trip .commanded false false)] ∧
      (t.events.ring.getLast?.map fun e => (e.value1, e.value2, e.capture)) = some (some 7, none, none) ∧
      (t.feeder 0).state = .tripping := by decide +kernel

/-- Checks 6 and 7 after a test. -/
theorem test_hyp_rechecks : (testing 4000 .auto).lineMeasured 0 ∧ (testing 4000 .auto).busIsLive ∧
    ¬(inState .testing 0 State.reset).lineMeasured 0 ∧ ¬(inState .testing 0 State.reset).busIsLive := by
  refine ⟨⟨by decide +kernel, 0, by decide +kernel⟩, ⟨5000, by decide +kernel, by decide +kernel⟩,
    fun h => absurd h.1 (by decide), ?_⟩
  rintro ⟨u, h, _⟩
  cases h

/-- Uf and Ub both absent at the end of a test: MEASUREMENT_LOST (log 47); Ub alone: BUS_DEAD. -/
theorem test_test_end_without_voltages :
    let s (v : Quantities) := { testing 0 .auto with sample := { (testing 0 .auto).sample with
      last := { (testing 0 .auto).sample.last with values := v } } }
    let t (v : Quantities) := after (.testEnd 0) (s v)
    let why (v : Quantities) := (t v).events.ring.getLast?.map (·.detail)
    let u : Quantities := { Quantities.absent with ufs := (File.fill 8 none).set 0 (some 4000) }
    why Quantities.absent = some (.closeResult (.interlocked .measurementLost)) ∧
      ((t Quantities.absent).feeder 0).state = .recloseWait ∧ why u = some (.closeResult (.interlocked .busDead)) ∧
      ((t u).feeder 0).state = .opened := by decide +kernel

/-- A close step whose phase choice is CLAIM_CONFLICT fails at once, and another one is awaited. -/
theorem test_close_step :
    let s (x : State) := programmed (step_ .closeFeeder (some (.feeder 0)) 0) .running none x
    let mismatch := claimable.modSection 0 fun x => { x with matching := .mismatch }
    ranOn (.stepDue .runner0) (s mismatch) = .failed (.close .claimConflict) ∧
      ranOn (.stepDue .runner0) (s claimable) = .still .awaiting := by decide +kernel

/-! ## Bodies, and first positions of the AC breaker -/

theorem test_hyp_bodies : LoadsSteps [255, 0, 0, 7, 0xFF, 0, 9, 0, 1] 255 [step_ .mark none 9] ∧
    (∀ n x, ¬LoadsSteps [0] n x) ∧ DefinesProgramme [7, 1, 0, 1, 0] 7 (some { first := 0, count := 256 }) ∧
    (∀ n h, ¬DefinesProgramme [7, 1, 1, 1, 0] n h) ∧ DefinesProgramme [0, 0, 9, 9, 9] 0 none ∧
    StartsProgramme [1, 7] .runner1 7 ∧ (∀ r n, ¬StartsProgramme [2, 0] r n) := by
  refine ⟨readLoadSteps_eq_some.mp (by decide +kernel), fun n x h => ?_, readDefine_eq_some.mp (by decide +kernel),
    fun n x h => ?_, readDefine_eq_some.mp (by decide +kernel), readStart_eq_some.mp (by decide +kernel), fun r n h => ?_⟩
  · exact absurd (readLoadSteps_eq_some.mpr h) (by rw [show readLoadSteps [0] = none by decide +kernel]; nofun)
  · exact absurd (readDefine_eq_some.mpr h) (by rw [show readDefine [7, 1, 1, 1, 0] = none by decide +kernel]; nofun)
  · exact absurd (readStart_eq_some.mpr h) (by rw [show readStart [2, 0] = none by decide +kernel]; nofun)

theorem test_hyp_set_bodies : SetsStation stationBody StationSettings.default ∧
    (∀ v, ¬SetsStation (255 :: stationBody.tail) v) ∧
    SetsFeeder (feederBody 7 1 7) 7 { FeederSettings.default with inService := true, farLink := some .link0, farFeeder := 7 } ∧
    (∀ f v, ¬SetsFeeder (feederBody 8 1 7) f v) ∧ SetsSlots (List.replicate 32 0) (File.fill 32 .unused) ∧
    (∀ m, ¬SetsSlots (0x17 :: 0x17 :: List.replicate 30 0) m) := by
  refine ⟨readSetStation_eq_some.mp (by decide +kernel), fun v h => ?_, readSetFeeder_eq_some.mp (by decide +kernel),
    fun f v h => ?_, readSlots_eq_some.mp (by decide +kernel), fun m h => ?_⟩
  · exact absurd (readSetStation_eq_some.mpr h)
      (by rw [show readSetStation (255 :: stationBody.tail) = none by decide +kernel]; nofun)
  · exact absurd (readSetFeeder_eq_some.mpr h)
      (by rw [show readSetFeeder (feederBody 8 1 7) = none by decide +kernel]; nofun)
  · exact absurd (readSlots_eq_some.mpr h)
      (by rw [show readSlots (0x17 :: 0x17 :: List.replicate 30 0) = none by decide +kernel]; nofun)

/-- A first OPEN during a close, and a first CLOSED during an opening, change nothing. -/
theorem test_ac_first_position_against : acTaken none .opened .connecting (some .close) = (.connecting, some .close, []) ∧
    acTaken none .closed .blocked (some .opening) = (.blocked, some .opening, []) := by decide +kernel

/-! ## What Fault Detection takes from Breaker Control (03 R40, R41, R50) -/

/-- F0's record with every field in use: ACTIVE or not, a request decided, marks and a rise held, blind since 3. -/
def inUse (active : Bool) (s : State) : State :=
  s.modFault 0 fun d => { d with
    active := active, protectSince := some 1, outstanding := true, history := [true, false], previousIf := some 2,
    i0 := some 1, riseCounter := 4, lowCount := 1, blindSince := some 3 }

/-- What protection becomes at a state entered from another. -/
theorem test_noticed :
    let d := (inUse true State.reset).fault 0
    d.noticed .closing .closed 9 = d ∧ d.noticed .tripping .opened 9 = d ∧
      d.noticed .testing .closing 9 = { d with
        protectSince := some 9, outstanding := false, history := [], previousIf := none, i0 := none, riseCounter := 0,
        lowCount := 0 } ∧
      d.noticed .closed .tripping 9 = { d with
        active := false, protectSince := none, outstanding := false, history := [], previousIf := none, i0 := none,
        riseCounter := 0, lowCount := 0 } := by decide

/-- Entry into CLOSING by a HEALTHY test and by a live-line close, its end by the confirm limit and by the position. -/
theorem test_protection_of_a_close :
    let t := after (.testEnd 0) (inUse false (testing 4000 .auto))
    let live := after (.closeFeeder .A) (offering .A 0x11 [0] (inUse false (nearLive 4500)))
    let failed := after (.closeConfirmLimit 0) (inUse true (at_ 150 (running .closing .close .auto (some 15000000) (closable 0))))
    let closed := inUse true (positioned .opened .closed .closing .close 0)
    ((t.fault 0).active, (t.fault 0).protectSince, (t.fault 0).outstanding, (t.fault 0).history) =
        (true, some t.now, false, []) ∧
      (live.feeder 0).state = .closing ∧ (live.fault 0).active = true ∧ (live.fault 0).protectSince = some live.now ∧
      (failed.fault 0).active = false ∧ (failed.fault 0).protectSince = none ∧ (failed.fault 0).blindSince = some 3 ∧
      (after (.positionDebounceExpiry (.feeder 0)) closed).faults = closed.faults := by decide +kernel

/-- FAULT_RETARD begins at a trip and ends when the trip is confirmed, from BREAKER_FAILED too. -/
theorem test_retard_ends :
    let held (x : FeederState) : State := { positioned .closed .opened x .opening 1 with
      rect := { State.reset.rect with retard := (File.fill 8 false).set 0 true } }
    let t (x : FeederState) := after (.positionDebounceExpiry (.feeder 0)) (held x)
    (after (.tripRequest 0) (requested .closed)).rect.retard.get 0 = true ∧
      (held .tripping).rect.retard.get 0 = true ∧ (t .tripping).rect = State.reset.rect ∧
      (t .breakerFailed).rect = State.reset.rect := by decide +kernel

/-- A feeder in TESTING at the loss of measurement: blind since takes the outage start where it is none, and stays else. -/
theorem test_blind_in_testing :
    let lost (b : Option Instant) : State :=
      let s := (testing 4000 .auto).modFault 0 fun d => { d with blindSince := b }
      { s with sample := { s.sample with frameWatch := some 0 } }
    let t (b : Option Instant) := after .frameWatchExpiry (lost b)
    ((lost none).feeder 0).state = .testing ∧ ((t none).feeder 0).state = .recloseWait ∧
      (t none).fault 0 = { (lost none).fault 0 with blindSince := some (lost none).now } ∧
      (t (some 3)).fault 0 = (lost (some 3)).fault 0 := by decide +kernel

/-- A far end silent for 50 ms: the group changes at Fault Detection with the rise detector cleared, or nothing does. -/
theorem test_stale_group :
    let s := inUse true (at_ 50 farHeard)
    let t := after (.farStateStale 0) s
    let same := s.modFeeder 0 fun r => { r with group := .isolated }
    (t.feeder 0).group = .isolated ∧
      t.fault 0 = { s.fault 0 with group := .isolated, i0 := none, riseCounter := 0, lowCount := 0 } ∧
      ((after (.farStateStale 0) same).feeder 0).group = .isolated ∧
      (after (.farStateStale 0) same).fault 0 = same.fault 0 := by decide +kernel

/-- Link 0 carries the last byte of F0's Feeder End segment, with the far end's state. -/
def telling (code : Byte) (s : State) : State :=
  s.modLink .link0 fun k => { k with
    assembly := .check2 1 (code :: List.replicate 7 0 ++ [1] ++ List.replicate 7 0) 0xFF }

/-- The group follows the far state the segment gives: NORMAL at CLOSED, ISOLATED at TRIPPING, and at Fault Detection. -/
theorem test_segment_group :
    let t (code check : Byte) (s : State) :=
      after (.linkWord .link0 { signal := some 0, data := .byte check }) (telling code s)
    let normal := inUse true (windowed none)
    let alone := inUse true (((windowed none).modSection 0 fun r => { r with farState := none }).modFeeder 0 fun r =>
      { r with group := .isolated })
    ((t 6 0xF8 normal).feeder 0).group = .isolated ∧
      (t 6 0xF8 normal).fault 0 =
        { normal.fault 0 with group := .isolated, i0 := none, riseCounter := 0, lowCount := 0 } ∧
      (t 5 0xF9 normal).feeder 0 = normal.feeder 0 ∧ (t 5 0xF9 normal).fault 0 = normal.fault 0 ∧
      ((t 5 0xF9 alone).section' 0).farState = some .closed ∧ ((t 5 0xF9 alone).feeder 0).group = .normal ∧
      (t 5 0xF9 alone).fault 0 = { alone.fault 0 with i0 := none, riseCounter := 0, lowCount := 0 } := by decide +kernel

/-- The group at Fault Detection at readiness, after another partner, and when the far link goes. -/
theorem test_group_copies :
    let first := inUse false { reading none .closed 4 with settings := farHeard.settings }
    let ready := after (.positionDebounceExpiry (.feeder 0)) first
    let partner := after (.setFeeder .A) (offering .A 0x71 (feederBody 0 1 0) (inUse true setting))
    let lit := inUse true ((windowed none).modLink .link0 fun k => { k with light := true })
    let dark := after (.lightPresentChange .link0 false) lit
    (ready.feeder 0).group = .isolated ∧ ready.fault 0 =
        { first.fault 0 with
          group := .isolated, active := true, protectSince := some first.now, outstanding := false, history := [],
          previousIf := none, i0 := none, riseCounter := 0, lowCount := 0 } ∧
      (partner.feeder 0).group = .isolated ∧ partner.fault 0 =
        { (inUse true setting).fault 0 with group := .isolated, i0 := none, riseCounter := 0, lowCount := 0 } ∧
      (dark.feeder 0).group = .isolated ∧
      dark.fault 0 = { lit.fault 0 with group := .isolated, i0 := none, riseCounter := 0, lowCount := 0 } ∧
      dark.fault 1 = lit.fault 1 := by decide +kernel

end Sys2Proof.Tests
end

/-! The checks of a completed frame (01 R2), and what a frame leaves in the Sample Port's record (01 R3, R7 to R13). -/

namespace Sys2Proof.Machine

/-! ## The checks of a completed frame (01 R2) -/

theorem slotValue_eq_slotWord (words : File Word 34) (n : Fin 32) : slotValue words n.val = slotWord words n := by
  have inside : n.val + 1 < words.cells.length := by rw [words.size]; omega
  exact congrArg BitVec.toInt (List.getD_eq_getElem _ _ inside)

theorem faultySlot_iff (m : File SlotEntry 32) (words : File Word 34) :
    faultySlot m words = true ↔ ∃ n, m.get n ≠ .unused ∧ slotWord words n = -32768 := by
  have entry (n : Fin 32) : m.cells.getD n.val .unused = m.get n :=
    List.getD_eq_getElem _ _ (by rw [m.size]; exact n.isLt)
  simp only [faultySlot, List.any_eq_true, List.mem_range, Bool.and_eq_true, bne_iff_ne, beq_iff_eq]
  constructor
  · rintro ⟨k, below, used, fault⟩
    let n : Fin 32 := ⟨k, below⟩
    exact ⟨n, entry n ▸ used, slotValue_eq_slotWord words n ▸ fault⟩
  · rintro ⟨n, used, fault⟩
    exact ⟨n.val, n.isLt, entry n ▸ used, slotValue_eq_slotWord words n ▸ fault⟩

theorem frameCheck_eq_some_iff (m : File SlotEntry 32) (reference : Option Nat) (words : File Word 34)
    (cause : DiscardCause) :
    frameCheck m reference words = some cause ↔ FrameFails m reference words cause := by
  have gives (c : DiscardCause) : some c = some cause ↔ cause = c := by rw [Option.some.injEq, eq_comm]
  simp only [frameCheck, FrameFails, frameSum, frameNumber, ← faultySlot_iff]
  by_cases marker : (words.get 0).toNat % 256 = 0xC3
  · by_cases sum : (words.cells.map BitVec.toNat).sum % 65536 = 0
    · by_cases fault : faultySlot m words = true
      · simp [marker, sum, fault, gives]
      · by_cases repeated : reference = some ((words.get 0).toNat / 256) <;>
          simp [marker, sum, fault, repeated, gives]
    · simp [marker, sum, gives]
  · simp [marker, gives]

theorem frameCheck_eq_none_iff (m : File SlotEntry 32) (reference : Option Nat) (words : File Word 34) :
    frameCheck m reference words = none ↔ ∀ cause, ¬FrameFails m reference words cause := by
  simp only [← frameCheck_eq_some_iff, Option.eq_none_iff_forall_ne_some, ne_eq]

/-! ## FRAME_COMPLETE at a port that receives (01 R1, R2) -/

theorem exec_frameComplete (words : File Word 34) (s : State) :
    exec (.frameComplete words) s = execFrameComplete words s := rfl

theorem exec_frameComplete_of_fails {words : File Word 34} {s : State} {cause : DiscardCause}
    (runs : s.resetLine = false) (receiving : s.sample.reception = .receiving)
    (fails : FrameFails s.settings.slotMap s.sample.reference words cause) :
    exec (.frameComplete words) s =
      .next (s.modSample fun x => SamplePort.discard { x with reception := .complete } cause) := by
  have check := (frameCheck_eq_some_iff ..).mpr fails
  simp only [exec_frameComplete, execFrameComplete, live_next runs, receiving, if_true, State.modSample, check]

theorem exec_frameComplete_of_passes {words : File Word 34} {s : State}
    (runs : s.resetLine = false) (receiving : s.sample.reception = .receiving)
    (passes : ∀ cause, ¬FrameFails s.settings.slotMap s.sample.reference words cause) :
    exec (.frameComplete words) s =
      .next ((s.modSample fun x => { x with reception := .complete }).validFrame words) := by
  have check := (frameCheck_eq_none_iff ..).mpr passes
  simp only [exec_frameComplete, execFrameComplete, live_next runs, receiving, if_true, State.modSample, check]

/-! ## A frame handed on changes the port's record in the last frame values and the discards only (01 R12, R13) -/

theorem State.enterValid_sample (s : State) :
    s.enterValid.sample = { s.sample with state := .valid, outageStart := none, outageLost := 0 } := rfl

theorem State.frameAtFeeders_sample (s : State) (q : Quantities) : (s.frameAtFeeders q).sample = s.sample := rfl

theorem Quiet.frameAtFaults {s t : State} (h : Quiet s t) (mark : Continuity) (number : Nat) (q : Quantities) :
    Quiet s (t.frameAtFaults mark number q) :=
  h.foldl eight _ fun f _ _ hu => hu.modFault f _

theorem Quiet.frameParts {s t : State} {q : Quantities} {part : State → State} (member : part ∈ frameParts q)
    (h : Quiet s t) : Quiet s (part t) := by
  simp only [Machine.frameParts, List.mem_cons, List.not_mem_nil, or_false] at member
  obtain rfl | rfl := member
  · exact h.overvoltageFrame _
  · exact h.overcurrentFrame _

theorem Quiet.waitParts {s t : State} {reads : Step → Bool} {part : State → State} (member : part ∈ waitParts reads)
    (h : Quiet s t) : Quiet s (part t) := by
  obtain ⟨r, _, rfl⟩ := List.mem_map.mp member
  exact h.judgeWait _ r

theorem Quiet.frameAtCaptures {s t : State} (h : Quiet s t) (decided : Bool) (q : Quantities) :
    Quiet s (t.frameAtCaptures decided q) := by
  obtain ⟨x, now | ⟨-, later⟩⟩ := t.frameAtCaptures_cases decided q
  · rw [now]
    refine ((h.choices x).frameHistories q).together _ fun part member u k => ?_
    simp only [List.mem_append] at member
    obtain (firing | filling) | waiting := member
    · exact k.frameParts firing
    · exact k.fillParts filling
    · exact k.waitParts waiting
  · rw [later]
    refine ((h.choices x).frameLate q).together _ fun part member u k => ?_
    obtain firing | waiting := List.mem_append.mp member
    · exact k.frameParts firing
    · exact k.waitParts waiting

theorem State.handOn_sample (s : State) (mark : Continuity) (number : Nat) (q : Quantities) :
    (s.handOn mark number q).sample =
      { s.sample with
        discards := 0, lastDiscard := .noCause,
        last := { values := q, number := some number, time := some s.time.now } } := by
  have settled : s.settleCaptures.sample = s.sample := (Quiet.refl s).settleCaptures.sample
  unfold State.handOn
  dsimp only
  rw [((Quiet.refl _).frameAtCaptures _ q).sample, State.frameAtFeeders_sample,
    ((Quiet.refl _).frameAtFaults mark number q).sample, State.modSample_sample, settled]

/-! ## A frame that passes (01 R3) -/

@[simp] theorem SamplePort.taken_reference (x : SamplePort) (number : Nat) (now : Instant) :
    (x.taken number now).reference = some number := rfl

@[simp] theorem SamplePort.discard_reference (x : SamplePort) (cause : DiscardCause) :
    (x.discard cause).reference = x.reference := rfl

/-- Whatever a port that is not DISABLED makes of a valid frame, handed on or discarded with cause STARTING, its number
becomes the reference number. -/
theorem State.validFrame_reference {s : State} (words : File Word 34) (enabled : s.sample.state ≠ .disabled) :
    (s.validFrame words).sample.reference = some (frameNumber words) := by
  cases state : s.sample.state with
  | disabled => exact absurd state enabled
  | starting =>
    cases primed : s.sample.primed with
    | true => simp [State.validFrame, state, primed, State.handOn_sample, State.enterValid_sample]
    | false => simp [State.validFrame, state, primed]
  | valid => simp [State.validFrame, state, State.handOn_sample]
  | lost => simp [State.validFrame, state]

/-- Settles O11: the checks of the model are those of the statement, in its order; a failing frame is a single discard,
and a passing one leaves its number whichever state the port is in. -/
theorem failingFrameIsDiscarded : Obligations.FailingFrameIsDiscarded := by
  intro words s runs receiving enabled
  refine ⟨fun cause fails => exec_frameComplete_of_fails runs receiving fails, fun passes => ?_⟩
  exact ⟨_, exec_frameComplete_of_passes runs receiving passes, State.validFrame_reference words enabled⟩

end Sys2Proof.Machine

/-! The contacts of a position input block, their reading, and what a change of one contact does (02 R18). -/

namespace Sys2Proof.Machine

/-! ## The table of contacts (02 R18) -/

theorem reads_iff_eq_readingOf {a b : Bool} {r : Position} : Reads a b r ↔ r = readingOf a b := by
  cases a <;> cases b <;> cases r <;> simp [Reads, readingOf]

/-! ## A position input block at new contacts (02 R18) -/

namespace ContactInput

variable (x : ContactInput) (a b : Bool) (now : Instant)

/-- New contacts reach the contacts, the reading and the instants of the readings, and no other field. -/
theorem at_frame :
    x.at a b now =
      { x with
        a := a, b := b, reading := readingOf a b,
        since := (x.at a b now).since, earlier := (x.at a b now).earlier,
        earlierSince := (x.at a b now).earlierSince } := by
  unfold ContactInput.at
  dsimp only
  split
  case isTrue same => rw [same]
  case isFalse =>
    split
    · split <;> rfl
    · rfl

@[simp] theorem at_a : (x.at a b now).a = a := by rw [at_frame]

@[simp] theorem at_b : (x.at a b now).b = b := by rw [at_frame]

@[simp] theorem at_reading : (x.at a b now).reading = readingOf a b := by rw [at_frame]

@[simp] theorem at_position : (x.at a b now).position = x.position := by rw [at_frame]

@[simp] theorem at_invalidSince : (x.at a b now).invalidSince = x.invalidSince := by rw [at_frame]

@[simp] theorem at_reported : (x.at a b now).reported = x.reported := by rw [at_frame]

variable {x a b now}

theorem at_since_of_same (same : readingOf a b = x.reading) : (x.at a b now).since = x.since := by
  simp only [ContactInput.at, if_pos same]

/-- The first change of reading in an instant starts reading since anew and keeps what it replaces. -/
theorem at_of_changed (changed : readingOf a b ≠ x.reading) (older : x.since ≠ now) :
    x.at a b now =
      { x with
        a := a, b := b, reading := readingOf a b, since := now,
        earlier := x.reading, earlierSince := x.since } := by
  simp only [ContactInput.at, if_neg changed, if_neg older]

theorem at_since_of_restored (changed : readingOf a b ≠ x.reading) (present : x.since = now)
    (restored : readingOf a b = x.earlier) : (x.at a b now).since = x.earlierSince := by
  simp only [ContactInput.at, if_neg changed, if_pos present, if_pos restored]

/-- Contacts that return within the instant leave reading since where it stood. -/
theorem at_at_since (reads : x.reading = readingOf x.a x.b) (older : x.since ≠ now) :
    ((x.at a b now).at x.a x.b now).since = x.since := by
  by_cases same : readingOf a b = x.reading
  · calc ((x.at a b now).at x.a x.b now).since
        = (x.at a b now).since := at_since_of_same (by rw [at_reading, same, reads])
      _ = x.since := at_since_of_same same
  · have first := at_of_changed same older
    have back : readingOf x.a x.b ≠ (x.at a b now).reading := by
      rw [at_reading, ← reads]
      exact Ne.symm same
    calc ((x.at a b now).at x.a x.b now).since
        = (x.at a b now).earlierSince :=
          at_since_of_restored back (by rw [first]) (by rw [first, reads])
      _ = x.since := by rw [first]

variable (x now) (c : Contact) (made : Bool)

theorem move_eq_at :
    x.move c made now = x.at (if c = .a then made else x.a) (if c = .b then made else x.b) now := by
  cases c <;> rfl

/-- The contact that moved and moves back puts the block at the contacts it had. -/
theorem move_move_eq_at :
    (x.move c made now).move c (if c = .a then x.a else x.b) now = (x.move c made now).at x.a x.b now := by
  cases c with
  | a => exact congrArg ((x.at made x.b now).at x.a · now) (at_b ..)
  | b => exact congrArg ((x.at x.a made now).at · x.b now) (at_a ..)

end ContactInput

/-! ## The input block of a breaker, a feeder's or the AC breaker's (02 R18, R22) -/

section inputOf

variable (s : State) (b : Breaker) (g : ContactInput → ContactInput)

@[simp] theorem State.modInputOf_now : (s.modInputOf b g).now = s.now := by
  cases b <;> rfl

@[simp] theorem State.modInputOf_inputOf : (s.modInputOf b g).inputOf b = g (s.inputOf b) := by
  cases b with
  | feeder f => exact File.get_set_self ..
  | ac => rfl

theorem State.modInputOf_eq_const : s.modInputOf b g = s.modInputOf b fun _ => g (s.inputOf b) := by
  cases b <;> rfl

end inputOf

theorem exec_contactChange (b : Breaker) (c : Contact) (made : Bool) (s : State) :
    exec (.contactChange b c made) s = .next (s.modInputOf b fun x => x.move c made s.now) := rfl

/-- Settles O15: the block at its new contacts is a single record, whose reading since stands with the reading, starts
at a change of it, and returns when the contact does. -/
theorem contactsGiveTheReading : Obligations.ContactsGiveTheReading := by
  intro b c made s _ table older
  have reads := reads_iff_eq_readingOf.mp table
  have earlier := Nat.ne_of_lt older
  have moved : (s.modInputOf b fun x => x.move c made s.now).inputOf b =
      (s.inputOf b).at (if c = .a then made else (s.inputOf b).a) (if c = .b then made else (s.inputOf b).b) s.now := by
    rw [State.modInputOf_inputOf, ContactInput.move_eq_at]
  refine ⟨_, exec_contactChange b c made s, ?_, ?_⟩
  · rw [State.modInputOf_inputOf]
    exact State.modInputOf_eq_const ..
  rw [moved]
  refine ⟨ContactInput.at_a .., ContactInput.at_b .., ?table, ?unmoved, ?restarted, ContactInput.at_position ..,
    ContactInput.at_invalidSince .., ContactInput.at_reported .., _, exec_contactChange .., ?undone⟩
  case table => simp [reads_iff_eq_readingOf]
  case unmoved =>
    rw [ContactInput.at_reading]
    exact ContactInput.at_since_of_same
  case restarted =>
    rw [ContactInput.at_reading]
    exact fun changed => by rw [ContactInput.at_of_changed changed earlier]
  case undone =>
    rw [State.modInputOf_inputOf, State.modInputOf_inputOf, State.modInputOf_now, ContactInput.move_move_eq_at,
      ContactInput.move_eq_at]
    exact ⟨ContactInput.at_a .., ContactInput.at_b .., (ContactInput.at_reading ..).trans reads.symm,
      ContactInput.at_at_since reads earlier⟩

end Sys2Proof.Machine

/-! A frame handed on at the Fault Detection of a feeder (03 R43 to R48), and the blind deadline (03 R52, R53). -/

namespace Sys2Proof.Machine

/-! ## The Capture Unit, the Firing Unit and the runners leave every other view of a frame (01 R13) -/

namespace View

variable {β : Type} (V : View β) (s : State)

theorem frameParts {q : Quantities} {part : State → State} (member : part ∈ Machine.frameParts q) :
    V.view (part s) = V.view s := by
  simp only [Machine.frameParts, List.mem_cons, List.not_mem_nil, or_false] at member
  obtain rfl | rfl := member
  · exact V.overvoltageFrame ..
  · exact V.overcurrentFrame ..

theorem fillParts {q : Quantities} {part : State → State} (member : part ∈ Machine.fillParts q) :
    V.view (part s) = V.view s := by
  obtain ⟨n, _, rfl⟩ := List.mem_map.mp member
  exact V.fillCapture ..

theorem waitParts {reads : Step → Bool} {part : State → State} (member : part ∈ Machine.waitParts reads) :
    V.view (part s) = V.view s := by
  obtain ⟨r, _, rfl⟩ := List.mem_map.mp member
  exact V.judgeWait ..

theorem frameHistories (q : Quantities) : V.view (s.frameHistories q) = V.view s := V.captures s _

theorem frameLate (q : Quantities) : V.view (s.frameLate q) = V.view s := V.captures s _

theorem settleCaptures : V.view s.settleCaptures = V.view s := by
  cases late : s.captures.late with
  | none => rw [s.settleCaptures_none late]
  | some q =>
    rw [s.settleCaptures_some late, V.together _ _ fun _ member u => V.fillParts u member, V.frameHistories]

theorem frameAtCaptures (decided : Bool) (q : Quantities) : V.view (s.frameAtCaptures decided q) = V.view s := by
  obtain ⟨x, now | ⟨-, later⟩⟩ := s.frameAtCaptures_cases decided q
  · rw [now, V.together, V.frameHistories, V.choices]
    intro part member u
    simp only [List.mem_append] at member
    obtain (firing | filling) | waiting := member
    · exact V.frameParts u firing
    · exact V.fillParts u filling
    · exact V.waitParts u waiting
  · rw [later, V.together, V.frameLate, V.choices]
    intro part member u
    obtain firing | waiting := List.mem_append.mp member
    · exact V.frameParts u firing
    · exact V.waitParts u waiting

end View

/-! ## A frame handed on reaches the Fault Detection of every feeder once (01 R13, 03 R43) -/

/-- What a frame makes of the Fault Detection record of a feeder. -/
def State.faultAfter (s : State) (mark : Continuity) (number : Nat) (q : Quantities) (f : Feeder) : FaultRecord :=
  faultFrame ((s.config f).groupValues (s.fault f).group) s.time.now mark number (q.ifs.get f) (q.ufs.get f) (s.fault f)

theorem State.frameAtFault_fault (s : State) (mark : Continuity) (number : Nat) (q : Quantities) (h f : Feeder) :
    (s.frameAtFault mark number q h).fault f = if f = h then s.faultAfter mark number q f else s.fault f := by
  split
  · next same =>
    subst same
    exact State.modFault_fault_self ..
  · next other => exact State.modFault_fault_ne _ _ other

theorem State.frameAtFault_faultAfter (s : State) (mark : Continuity) (number : Nat) (q : Quantities) {h f : Feeder}
    (other : f ≠ h) :
    (s.frameAtFault mark number q h).faultAfter mark number q f = s.faultAfter mark number q f := by
  have stands : (s.frameAtFault mark number q h).fault f = s.fault f := State.modFault_fault_ne _ _ other
  unfold State.faultAfter
  rw [stands]
  rfl

theorem State.foldl_frameAtFault_fault (mark : Continuity) (number : Nat) (q : Quantities) (f : Feeder)
    (l : List Feeder) (distinct : l.Nodup) (s : State) :
    (l.foldl (fun t h => t.frameAtFault mark number q h) s).fault f =
      if f ∈ l then s.faultAfter mark number q f else s.fault f := by
  induction l generalizing s with
  | nil => rfl
  | cons h rest ih =>
    obtain ⟨fresh, distinct⟩ := List.nodup_cons.mp distinct
    rw [List.foldl_cons, ih distinct, State.frameAtFault_fault]
    by_cases same : f = h
    · subst same
      simp [fresh]
    · simp [same, State.frameAtFault_faultAfter s mark number q same]

theorem State.frameAtFaults_fault (s : State) (mark : Continuity) (number : Nat) (q : Quantities) (f : Feeder) :
    (s.frameAtFaults mark number q).fault f = s.faultAfter mark number q f := by
  unfold State.frameAtFaults
  rw [State.foldl_frameAtFault_fault mark number q f eight (by decide), if_pos (mem_eight f)]

theorem State.frameAtFeeders_fault (s : State) (q : Quantities) (f : Feeder) :
    (s.frameAtFeeders q).fault f = s.fault f := rfl

theorem State.frameAtCaptures_fault (s : State) (decided : Bool) (q : Quantities) (f : Feeder) :
    (s.frameAtCaptures decided q).fault f = s.fault f :=
  congrArg (File.get · f) (faultsView.frameAtCaptures s decided q)

/-- What a frame makes of a record rests on the record, the feeder's values and the station time. -/
theorem State.faultAfter_congr {s t : State} {f : Feeder} (fault : t.fault f = s.fault f)
    (config : t.config f = s.config f) (time : t.time = s.time) (mark : Continuity) (number : Nat) (q : Quantities) :
    t.faultAfter mark number q f = s.faultAfter mark number q f := by
  simp only [State.faultAfter, fault, config, time]

theorem State.handOn_fault (s : State) (mark : Continuity) (number : Nat) (q : Quantities) (f : Feeder) :
    (s.handOn mark number q).fault f = s.faultAfter mark number q f := by
  have fault : s.settleCaptures.fault f = s.fault f := congrArg (File.get · f) (faultsView.settleCaptures s)
  have config : s.settleCaptures.config f = s.config f := (Quiet.refl s).settleCaptures.config f
  have time : s.settleCaptures.time = s.time := timeView.settleCaptures s
  unfold State.handOn
  dsimp only
  rw [State.frameAtCaptures_fault, State.frameAtFeeders_fault, State.frameAtFaults_fault]
  exact State.faultAfter_congr fault config time ..

/-! ## The continuity mark of a frame handed on (01 R3) -/

/-- The continuity mark of the frame that a handing-on takes: RESTART for the one that ends STARTING. -/
def State.frameMark (s : State) (words : File Word 34) : Continuity :=
  if s.sample.state = .starting then .restart else continuity s.sample.reference (frameNumber words)

theorem continuity_ne_restart (reference : Option Nat) (number : Nat) : continuity reference number ≠ .restart := by
  unfold continuity
  split
  · nofun
  · split <;> nofun

theorem continuity_eq_continuous_iff (reference : Option Nat) (words : File Word 34) :
    continuity reference (frameNumber words) = .continuous ↔ ¬FollowsGap reference words := by
  cases reference with
  | none => simp [continuity, FollowsGap]
  | some r =>
    by_cases next : (words.get 0).toNat / 256 = (r + 1) % 256 <;> simp [continuity, FollowsGap, frameNumber, next]

theorem State.frameMark_eq_restart_iff (s : State) (words : File Word 34) :
    s.frameMark words = .restart ↔ s.sample.state = .starting := by
  unfold State.frameMark
  split
  · next starting => simp [starting]
  · next running => simp [running, continuity_ne_restart]

theorem State.enterValid_fault (s : State) (f : Feeder) : s.enterValid.fault f = s.fault f := rfl

theorem State.enterValid_config (s : State) (f : Feeder) : s.enterValid.config f = s.config f := rfl

theorem State.enterValid_time (s : State) : s.enterValid.time = s.time := rfl

/-- In VALID and in STARTING alike, a frame that the port hands on reaches Fault Detection with the records, the values
and the station time of the moment it came. -/
theorem exec_frameComplete_of_handsOn {words : File Word 34} {s : State} (hands : s.handsOn words) :
    ∃ t, exec (.frameComplete words) s = .next t ∧
      t.sample.last.values = quantities s.settings.slotMap words ∧
      ∀ f, t.fault f =
        s.faultAfter (s.frameMark words) (frameNumber words) (quantities s.settings.slotMap words) f := by
  obtain ⟨runs, receiving, state, passes⟩ := hands
  refine ⟨_, exec_frameComplete_of_passes runs receiving passes, ?_⟩
  obtain ⟨starting, primed⟩ | valid := state
  · simp only [State.validFrame, State.modSample_sample, starting, primed, if_true, State.frameMark,
      State.handOn_sample, State.handOn_fault]
    exact ⟨rfl, fun f => State.faultAfter_congr (State.enterValid_fault ..) (State.enterValid_config ..)
      (State.enterValid_time _) ..⟩
  · simp only [State.validFrame, State.modSample_sample, valid, State.frameMark, State.handOn_sample,
      State.handOn_fault]
    exact ⟨rfl, fun f => State.faultAfter_congr rfl rfl rfl ..⟩

/-! ## The record that a frame is judged in, and what its verdict makes of it (03 R43) -/

/-- The record as the elements find it: blind since gone, and a new run begun at a RESTART frame. -/
def FaultRecord.entering (d : FaultRecord) (mark : Continuity) : FaultRecord :=
  let seen := { d with blindSince := none }
  if mark = .restart then seen.cleared else seen

/-- A verdict sends its request; without one the record stands. -/
def FaultRecord.conclude (d : FaultRecord) (verdict : Verdict) (number : Nat) (i : Int) (u : Option Int)
    (time : StationTime) : FaultRecord :=
  match verdict with
  | some (cause, v1, v2) =>
    d.request { cause := cause, group := d.group, frame := some number, current := some i, voltage := u,
                value1 := v1, value2 := v2, time := time }
  | none => d

section entering

variable (d : FaultRecord) (mark : Continuity)

@[simp] theorem FaultRecord.entering_blindSince : (d.entering mark).blindSince = none := by
  unfold FaultRecord.entering; split <;> rfl

@[simp] theorem FaultRecord.entering_group : (d.entering mark).group = d.group := by
  unfold FaultRecord.entering; split <;> rfl

@[simp] theorem FaultRecord.entering_lastDecision : (d.entering mark).lastDecision = d.lastDecision := by
  unfold FaultRecord.entering; split <;> rfl

@[simp] theorem FaultRecord.entering_requests : (d.entering mark).requests = d.requests := by
  unfold FaultRecord.entering; split <;> rfl

theorem FaultRecord.entering_of_restart :
    d.entering .restart = { d.cleared with blindSince := none } := rfl

theorem FaultRecord.entering_of_ne (running : mark ≠ .restart) :
    d.entering mark = { d with blindSince := none } := if_neg running

end entering

section conclude

variable (d : FaultRecord) (verdict : Verdict) (number : Nat) (i : Int) (u : Option Int) (time : StationTime)

@[simp] theorem FaultRecord.conclude_none : d.conclude none number i u time = d := rfl

@[simp] theorem FaultRecord.conclude_some (cause : TripCause) (v1 v2 : Int) :
    d.conclude (some (cause, v1, v2)) number i u time =
      d.request { cause := cause, group := d.group, frame := some number, current := some i, voltage := u,
                  value1 := v1, value2 := v2, time := time } := rfl

@[simp] theorem FaultRecord.conclude_history : (d.conclude verdict number i u time).history = d.history := by
  cases verdict <;> rfl

@[simp] theorem FaultRecord.conclude_previousIf : (d.conclude verdict number i u time).previousIf = d.previousIf := by
  cases verdict <;> rfl

@[simp] theorem FaultRecord.conclude_blindSince : (d.conclude verdict number i u time).blindSince = d.blindSince := by
  cases verdict <;> rfl

end conclude

/-- A frame whose If is present, at an active Fault Detection without a request outstanding, is judged. -/
theorem faultFrame_of_judged {d : FaultRecord} (active : d.active = true) (idle : d.outstanding = false) (g : Group)
    (time : StationTime) (mark : Continuity) (number : Nat) (i : Int) (u : Option Int) :
    faultFrame g time mark number (some i) u d =
      (judgeFrame g (d.entering mark) mark i).1.conclude (judgeFrame g (d.entering mark) mark i).2 number i u time := by
  unfold faultFrame FaultRecord.entering
  simp only [active, idle, Bool.not_false, Bool.and_self, if_true]
  generalize judgeFrame g _ mark i = judged
  obtain ⟨judged, _ | _⟩ := judged <;> rfl

theorem State.groupValues_eq_groupCopy (s : State) (f : Feeder) :
    (s.config f).groupValues (s.fault f).group = s.groupCopy f := by
  unfold State.groupCopy FeederSettings.groupValues
  cases (s.fault f).group <;> rfl

/-- What the elements of a feeder make of the frame that a handing-on takes. -/
def State.judged (s : State) (words : File Word 34) (f : Feeder) (i : Int) : FaultRecord × Verdict :=
  judgeFrame (s.groupCopy f) ((s.fault f).entering (s.frameMark words)) (s.frameMark words) i

theorem exec_frameComplete_judged {words : File Word 34} {s : State} {f : Feeder} (i : Int) (hands : s.handsOn words)
    (active : (s.fault f).active = true) (idle : (s.fault f).outstanding = false) :
    ∃ t, exec (.frameComplete words) s = .next t ∧
      (t.sample.last.values.ifs.get f = some i →
        t.fault f = (s.judged words f i).1.conclude (s.judged words f i).2 (frameNumber words) i
          (t.sample.last.values.ufs.get f) s.time.now) := by
  obtain ⟨t, ran, values, faults⟩ := exec_frameComplete_of_handsOn hands
  refine ⟨t, ran, fun present => ?_⟩
  rw [faults, State.faultAfter, ← values, present, faultFrame_of_judged active idle, State.groupValues_eq_groupCopy]
  rfl

/-! ## The Imax element (03 R44, R45) -/

theorem pushMark_of_length_le {h : List Mark} (short : h.length ≤ 3) (m : Mark) :
    pushMark h m = if 3 < (h ++ [m]).length then (h ++ [m]).tail else h ++ [m] := by
  unfold pushMark
  split
  · next full =>
    have one : (h ++ [m]).length - 3 = 1 := by
      rw [List.length_append, List.length_singleton] at full ⊢
      omega
    rw [one, List.drop_one]
  · next room => rw [Nat.sub_eq_zero_of_le (Nat.not_lt.mp room), List.drop_zero]

theorem picksUp_iff (h : List Mark) : picksUp h = true ↔ 2 ≤ h.count true := decide_eq_true_iff

/-- The record with its Imax history as the frame's mark leaves it. -/
def FaultRecord.marked (d : FaultRecord) (g : Group) (i : Int) : FaultRecord :=
  { d with history := pushMark d.history (decide (g.imax ≤ i.natAbs)) }

/-- A feeder's record as the Imax element leaves the frame that a handing-on takes. -/
def State.markedRecord (s : State) (words : File Word 34) (f : Feeder) (i : Int) : FaultRecord :=
  ((s.fault f).entering (s.frameMark words)).marked (s.groupCopy f) i

section markedRecord

variable {s : State} {f : Feeder}

theorem State.markedRecord_of_starting (starting : s.sample.state = .starting) (words : File Word 34) (i : Int) :
    s.markedRecord words f i = { (s.fault f).cleared with blindSince := none }.marked (s.groupCopy f) i := by
  unfold State.markedRecord
  rw [(s.frameMark_eq_restart_iff words).mpr starting, FaultRecord.entering_of_restart]

theorem State.markedRecord_of_running (running : s.sample.state ≠ .starting) (words : File Word 34) (i : Int) :
    s.markedRecord words f i = { s.fault f with blindSince := none }.marked (s.groupCopy f) i := by
  unfold State.markedRecord
  rw [FaultRecord.entering_of_ne _ _ (mt (s.frameMark_eq_restart_iff words).mp running)]

theorem State.markedRecord_history (short : (s.fault f).history.length ≤ 3) (words : File Word 34) (i : Int) :
    (s.markedRecord words f i).history = s.marksAfter f i := by
  unfold State.marksAfter
  by_cases starting : s.sample.state = .starting
  · rw [State.markedRecord_of_starting starting, if_pos starting]
    rfl
  · rw [State.markedRecord_of_running starting, if_neg starting]
    exact pushMark_of_length_le short _

end markedRecord

section judgeFrame

variable (g : Group) (d : FaultRecord) (mark : Continuity) (i : Int)

theorem judgeFrame_of_picksUp (pickup : picksUp (d.marked g i).history = true) :
    judgeFrame g d mark i = ({ d.marked g i with previousIf := some i }, some (.imax, i, (g.imax : Int))) := by
  have decides : imaxElement g d i = (d.marked g i, some (.imax, i, (g.imax : Int))) :=
    Prod.ext rfl (if_pos pickup)
  simp [judgeFrame, decides]

theorem judgeFrame_of_not_picksUp (below : picksUp (d.marked g i).history = false) :
    judgeFrame g d mark i =
      ({ (riseElement g (d.marked g i) mark i).1 with previousIf := some i },
        (riseElement g (d.marked g i) mark i).2) := by
  have silent : imaxElement g d i = (d.marked g i, none) :=
    Prod.ext rfl (if_neg (by rw [show pushMark .. = (d.marked g i).history from rfl, below]; nofun))
  simp [judgeFrame, silent]

end judgeFrame

/-! ## The rise element (03 R46 to R48) -/

theorem frameStep_of_ne {mark : Continuity} (broken : mark ≠ .continuous) (d : FaultRecord) (i : Int) :
    frameStep d mark i = none := by
  cases mark with
  | continuous => exact absurd rfl broken
  | restart => rfl
  | gap => rfl

theorem frameStep_continuous (d : FaultRecord) (i : Int) :
    frameStep d .continuous i = d.previousIf.map (i - ·) := by
  unfold frameStep
  cases d.previousIf <;> rfl

/-- The step of the statements is the one that the rise element computes. -/
theorem State.frameStep_eq_of_stepAt {words : File Word 34} {s : State} {f : Feeder} {i : Int} {x : Option Int}
    (hands : s.handsOn words) (step : s.stepAt f words i x) :
    frameStep ((s.fault f).entering (s.frameMark words)) (s.frameMark words) i = x := by
  obtain ⟨-, -, state, -⟩ := hands
  obtain ⟨follows, without⟩ := step
  obtain ⟨starting, -⟩ | valid := state
  · rw [(s.frameMark_eq_restart_iff words).mpr starting, without (.inl starting)]
    rfl
  have mark : s.frameMark words = continuity s.sample.reference (frameNumber words) := if_neg (by rw [valid]; nofun)
  by_cases gap : FollowsGap s.sample.reference words
  · rw [without (.inr (.inr gap))]
    refine frameStep_of_ne ?_ _ i
    rw [mark]
    exact fun next => (continuity_eq_continuous_iff ..).mp next gap
  · rw [mark, (continuity_eq_continuous_iff ..).mpr gap, FaultRecord.entering_of_ne _ _ (by decide),
      frameStep_continuous]
    cases previous : (s.fault f).previousIf with
    | none => exact (without (.inr (.inl previous))).symm
    | some p => exact (follows p valid previous gap).symm

section rise

variable {g : Group} {d : FaultRecord} {mark : Continuity} {i : Int}

theorem riseElement_quiet (quiet : d.i0 = none) : riseElement g d mark i = riseQuiet g d (frameStep d mark i) := by
  unfold riseElement
  rw [quiet]

theorem riseElement_rising {a : Int} (rising : d.i0 = some a) :
    riseElement g d mark i = riseRising g d a (frameStep d mark i) i := by
  unfold riseElement
  rw [rising]

/-- A step at or above R1 starts a rise from the current before it. -/
theorem riseQuiet_starts {v : Int} (starts : (g.r1 : Int) ≤ v) :
    riseQuiet g d (some v) = ({ d with i0 := d.previousIf, riseCounter := 0, lowCount := 0 }, none) := if_pos starts

/-- Without such a step the detector stays QUIET. -/
theorem riseQuiet_stays {x : Option Int} (below : ∀ v, x = some v → v < (g.r1 : Int)) :
    riseQuiet g d x = (d, none) := by
  cases x with
  | none => rfl
  | some v => exact if_neg (Int.not_le.mpr (below v rfl))

/-- In QUIET the rise element sends nothing. -/
theorem riseQuiet_silent (x : Option Int) : riseQuiet g d x = ((riseQuiet g d x).1, none) := by
  unfold riseQuiet
  split
  · split <;> rfl
  · rfl

theorem riseQuiet_outstanding (x : Option Int) : (riseQuiet g d x).1.outstanding = d.outstanding := by
  unfold riseQuiet
  split
  · split <;> rfl
  · rfl

/-- The low count that a frame in RISING leaves before the increment test. -/
def FaultRecord.lowAfter (d : FaultRecord) (g : Group) (x : Option Int) : Nat :=
  match x with
  | some v => if v < (g.r2 : Int) then d.lowCount + 1 else 0
  | none => d.lowCount

/-- The increment test of a frame in RISING that began from a current. -/
def FaultRecord.passesIncrement (d : FaultRecord) (g : Group) (i a : Int) : Prop :=
  (g.deltaI : Int) ≤ i - a ∧ g.tr ≤ bump d.riseCounter

theorem riseRising_trips {a : Int} (passes : d.passesIncrement g i a) (x : Option Int) :
    riseRising g d a x i = ({ d with riseCounter := bump d.riseCounter, lowCount := d.lowAfter g x },
      some (.rise, i - a, (bump d.riseCounter : Int))) := if_pos passes

theorem riseRising_ends {a : Int} {x : Option Int} (fails : ¬d.passesIncrement g i a) (low : d.lowAfter g x = 2) :
    riseRising g d a x i = (d.quiet, none) := (if_neg fails).trans (if_pos low)

theorem riseRising_holds {a : Int} {x : Option Int} (fails : ¬d.passesIncrement g i a) (high : d.lowAfter g x ≠ 2) :
    riseRising g d a x i = ({ d with riseCounter := bump d.riseCounter, lowCount := d.lowAfter g x }, none) :=
  (if_neg fails).trans (if_neg high)

/-- The rise element writes the rise fields, and what it decides is a RISE. -/
theorem riseElement_keeps (g : Group) (d : FaultRecord) (mark : Continuity) (i : Int) : ∃ a c l,
    (riseElement g d mark i).1 = { d with i0 := a, riseCounter := c, lowCount := l } ∧
      ∀ cause v1 v2, (riseElement g d mark i).2 = some (cause, v1, v2) → cause = .rise := by
  cases state : d.i0 with
  | none =>
    rw [riseElement_quiet state]
    by_cases below : ∀ v, frameStep d mark i = some v → v < (g.r1 : Int)
    · exact ⟨_, _, _, by rw [riseQuiet_stays below], by rw [riseQuiet_stays below]; nofun⟩
    · obtain ⟨v, step, starts⟩ : ∃ v, frameStep d mark i = some v ∧ (g.r1 : Int) ≤ v := by simpa using below
      rw [step, riseQuiet_starts starts]
      exact ⟨_, _, _, rfl, nofun⟩
  | some a =>
    rw [riseElement_rising state]
    by_cases passes : d.passesIncrement g i a
    · rw [riseRising_trips passes]
      refine ⟨_, _, _, rfl, fun cause v1 v2 decided => ?_⟩
      cases decided
      rfl
    · by_cases low : d.lowAfter g (frameStep d mark i) = 2
      · rw [riseRising_ends passes low]
        exact ⟨_, _, _, rfl, nofun⟩
      · rw [riseRising_holds passes low]
        exact ⟨_, _, _, rfl, nofun⟩

end rise

/-! ## The two elements on the frame that a handing-on takes (03 R43 to R45) -/

section judged

variable {s : State} {words : File Word 34} {f : Feeder} {i : Int}

/-- Two or more PICKUP marks decide an IMAX trip. -/
theorem State.judged_of_pickups (short : (s.fault f).history.length ≤ 3) (pickups : 2 ≤ (s.marksAfter f i).count true) :
    s.judged words f i =
      ({ s.markedRecord words f i with previousIf := some i }, some (.imax, i, ((s.groupCopy f).imax : Int))) := by
  refine judgeFrame_of_picksUp _ _ _ _ ((picksUp_iff _).mpr ?_)
  rw [← State.markedRecord_history short words i] at pickups
  exact pickups

/-- Fewer leave the frame to the rise element. -/
theorem State.judged_of_few (short : (s.fault f).history.length ≤ 3) (few : (s.marksAfter f i).count true < 2) :
    s.judged words f i =
      ({ (riseElement (s.groupCopy f) (s.markedRecord words f i) (s.frameMark words) i).1 with previousIf := some i },
        (riseElement (s.groupCopy f) (s.markedRecord words f i) (s.frameMark words) i).2) := by
  refine judgeFrame_of_not_picksUp _ _ _ _ (decide_eq_false (Nat.not_le.mpr ?_))
  rw [← State.markedRecord_history short words i] at few
  exact few

/-- Whatever the elements decide, the frame is marked, its If is taken, and at most the rise fields change besides. -/
theorem State.judged_keeps (s : State) (words : File Word 34) (f : Feeder) (i : Int) : ∃ a c l,
    (s.judged words f i).1 =
      { s.markedRecord words f i with i0 := a, riseCounter := c, lowCount := l, previousIf := some i } := by
  cases pickup : picksUp (s.markedRecord words f i).history with
  | true => exact ⟨_, _, _, congrArg Prod.fst (judgeFrame_of_picksUp _ _ _ _ pickup)⟩
  | false =>
    obtain ⟨a, c, l, keeps, -⟩ :=
      riseElement_keeps (s.groupCopy f) (s.markedRecord words f i) (s.frameMark words) i
    refine ⟨a, c, l, (congrArg Prod.fst (judgeFrame_of_not_picksUp _ _ _ _ pickup)).trans ?_⟩
    exact congrArg (fun d : FaultRecord => { d with previousIf := some i }) keeps

end judged

/-- Settles O20: the marked history holds two PICKUP marks and the verdict is the IMAX request, or it does not and only the
rise element can decide. -/
theorem twoPickupsOfThreeTrip : Obligations.TwoPickupsOfThreeTrip := by
  intro words s f i hands active idle
  obtain ⟨t, ran, concludes⟩ := exec_frameComplete_judged i hands active idle
  refine ⟨t, ran, fun present => ?_⟩
  obtain ⟨a, c, l, keeps⟩ := s.judged_keeps words f i
  rw [concludes present]
  refine ⟨fun short => ?marks, ?seen, ?taken, fun short pickups => ?imax, fun short few => ?quiet⟩
  case marks =>
    rw [FaultRecord.conclude_history, keeps]
    exact State.markedRecord_history short words i
  case seen => simp [keeps, State.markedRecord, FaultRecord.marked]
  case taken => simp [keeps]
  case imax =>
    rw [State.judged_of_pickups short pickups]
    simp [FaultRecord.request, State.markedRecord, FaultRecord.marked, frameNumber]
  case quiet =>
    obtain ⟨-, -, -, -, onlyRise⟩ :=
      riseElement_keeps (s.groupCopy f) (s.markedRecord words f i) (s.frameMark words) i
    cases verdict : (s.judged words f i).2 with
    | none => simp [keeps, State.markedRecord, FaultRecord.marked]
    | some decided =>
      obtain ⟨cause, v1, v2⟩ := decided
      rw [State.judged_of_few short few] at verdict
      exact .inr ⟨_, rfl, onlyRise _ _ _ verdict⟩

/-! ## The rise element on the frame that a handing-on takes (03 R46 to R48) -/

/-- Where the Imax element does not decide, the record that Fault Detection ends with is the rise element's. -/
theorem exec_frameComplete_rises {words : File Word 34} {s : State} {f : Feeder} {i : Int} (hands : s.handsOn words)
    (active : (s.fault f).active = true) (idle : (s.fault f).outstanding = false)
    (short : (s.fault f).history.length ≤ 3) (few : (s.marksAfter f i).count true < 2) :
    ∃ t, exec (.frameComplete words) s = .next t ∧
      (t.sample.last.values.ifs.get f = some i →
        ∀ d verdict, riseElement (s.groupCopy f) (s.markedRecord words f i) (s.frameMark words) i = (d, verdict) →
          t.fault f = { d with previousIf := some i }.conclude verdict (frameNumber words) i
            (t.sample.last.values.ufs.get f) s.time.now) := by
  obtain ⟨t, ran, concludes⟩ := exec_frameComplete_judged i hands active idle
  refine ⟨t, ran, fun present d verdict rises => ?_⟩
  rw [concludes present, State.judged_of_few short few, rises]

section riseElement

variable {s : State} {words : File Word 34} {f : Feeder} {i : Int} {x : Option Int}

theorem State.riseElement_of_quiet (hands : s.handsOn words) (step : s.stepAt f words i x)
    (quiet : (s.markedRecord words f i).i0 = none) :
    riseElement (s.groupCopy f) (s.markedRecord words f i) (s.frameMark words) i =
      riseQuiet (s.groupCopy f) (s.markedRecord words f i) x := by
  rw [riseElement_quiet quiet]
  exact congrArg _ (State.frameStep_eq_of_stepAt hands step)

theorem State.riseElement_of_rising {a : Int} (hands : s.handsOn words) (step : s.stepAt f words i x)
    (rising : (s.markedRecord words f i).i0 = some a) :
    riseElement (s.groupCopy f) (s.markedRecord words f i) (s.frameMark words) i =
      riseRising (s.groupCopy f) (s.markedRecord words f i) a x i := by
  rw [riseElement_rising rising]
  exact congrArg (riseRising _ _ a · i) (State.frameStep_eq_of_stepAt hands step)

end riseElement

/-- Settles O21: a RESTART frame and a frame in QUIET go through R47, one in RISING through the three outcomes of R48. -/
theorem riseDetectorFollowsTheSteps : Obligations.RiseDetectorFollowsTheSteps := by
  intro words s f i x hands active idle short few step
  obtain ⟨t, ran, becomes⟩ := exec_frameComplete_rises hands active idle short few
  refine ⟨t, ran, fun present => ?_⟩
  specialize becomes present
  intro g old new rising low
  refine ⟨?taken, fun quiet valid => ?quiet, fun starting => ?starting, fun a began => ?rising⟩
  case taken =>
    exact (congrArg FaultRecord.previousIf (becomes _ _ rfl)).trans (FaultRecord.conclude_previousIf ..)
  case quiet =>
    have running : s.sample.state ≠ .starting := by rw [valid]; decide
    have record := State.markedRecord_of_running (f := f) running words i
    have quiet : old.i0 = none := (if_neg running).symm.trans quiet
    have element := State.riseElement_of_quiet hands step (by rw [record]; exact quiet)
    refine ⟨fun v here starts => ?_, fun below => ?_, ?_⟩
    · rw [here, riseQuiet_starts starts] at element
      simp [new, becomes _ _ element, record, FaultRecord.marked, old]
    · rw [riseQuiet_stays below] at element
      simp [new, becomes _ _ element, record, FaultRecord.marked, old, quiet]
    · rw [riseQuiet_silent] at element
      simp [new, becomes _ _ element, riseQuiet_outstanding, record, FaultRecord.marked, idle]
  case starting =>
    have record := State.markedRecord_of_starting (f := f) starting words i
    have element := State.riseElement_of_quiet hands step (by rw [record]; rfl)
    obtain ⟨-, without⟩ := step
    rw [without (.inl starting), riseQuiet_stays (by nofun)] at element
    simp [new, becomes _ _ element, record, FaultRecord.marked, FaultRecord.cleared, FaultRecord.quiet, idle]
  case rising =>
    have running : s.sample.state ≠ .starting := fun starting => by simp [rising, starting] at began
    have record := State.markedRecord_of_running (f := f) running words i
    have began : old.i0 = some a := (if_neg running).symm.trans began
    have element := State.riseElement_of_rising hands step (by rw [record]; exact began)
    have test : (s.markedRecord words f i).passesIncrement g i a ↔
        (g.deltaI : Int) ≤ i - a ∧ g.tr ≤ bump old.riseCounter := by rw [record]; exact Iff.rfl
    have lowAfter : (s.markedRecord words f i).lowAfter g x = low := by rw [record]; rfl
    refine ⟨fun far late => ?trips, fun fails ends => ?ends, fun fails holds => ?holds⟩
    case trips =>
      rw [riseRising_trips (test.mpr ⟨far, late⟩)] at element
      simp [new, becomes _ _ element, record, FaultRecord.marked, FaultRecord.request, frameNumber, old]
    case ends =>
      rw [riseRising_ends (mt test.mp fails) (lowAfter.trans ends)] at element
      simp [new, becomes _ _ element, record, FaultRecord.marked, FaultRecord.quiet, idle]
    case holds =>
      rw [riseRising_holds (mt test.mp fails) (lowAfter ▸ holds), lowAfter] at element
      simp [new, becomes _ _ element, record, FaultRecord.marked, began, idle, old]

/-! ## The blind deadline (03 R52, R53) -/

theorem State.blindDeadline_eq_some {s : State} {f : Feeder} {b p : Instant} (active : (s.fault f).active = true)
    (blind : (s.fault f).blindSince = some b) (since : (s.fault f).protectSince = some p) :
    s.blindDeadline f = some (max b p + ms (s.config f).blindLimit) := by
  simp [State.blindDeadline, active, blind, since]

theorem exec_blindDeadlineExpiry (f : Feeder) (s : State) :
    exec (.blindDeadlineExpiry f) s = execBlindDeadlineExpiry f s := rfl

theorem exec_blindDeadlineExpiry_of_due {s : State} {f : Feeder} (runs : s.resetLine = false)
    (due : s.blindDue f = true) :
    exec (.blindDeadlineExpiry f) s = .next (s.modFault f fun d => d.request (s.blindRequest f)) := by
  rw [exec_blindDeadlineExpiry, execBlindDeadlineExpiry, live_next runs, if_pos due]

/-- Settles O22: the deadline is reached, so the command sends the request of the model, whose values are those of the
statement. -/
theorem blindDeadlineSendsARequest : Obligations.BlindDeadlineSendsARequest := by
  intro f s b p runs active idle blind since reached
  have deadline := State.blindDeadline_eq_some active blind since
  have due : s.blindDue f = true := by
    simp only [State.blindDue, idle, deadline, State.reached, ms, reached, decide_true, Bool.not_false, Bool.and_self]
  refine ⟨s.blindRequest f, ?_, exec_blindDeadlineExpiry_of_due runs due⟩
  rw [State.blindRequest, deadline, blind, Option.getD_some, Option.getD_some, ms, cap31, inUs]
  cases s.sample.state <;> rfl

end Sys2Proof.Machine

/-! A mains crossing in UNLOCKED and in ACQUIRING (06 R104, R105), and the entry into RUNNING at the LOCKED notice
(06 R121). -/

namespace Sys2Proof.Machine

/-! ## Changes inside the rectifier -/

namespace OnlyRectifierInside

variable {s t u : State}

theorem trans (h : OnlyRectifierInside s t) (k : OnlyRectifierInside t u) : OnlyRectifierInside s u := by
  obtain ⟨first, ports, authority⟩ := h
  obtain ⟨second, ports', authority'⟩ := k
  refine ⟨?_, ports'.trans ports, authority'.trans authority⟩
  unfold OnlyRectifier at *
  rw [second, first]

theorem refl (s : State) : OnlyRectifierInside s s := ⟨rfl, rfl, rfl⟩

theorem crossingAt (s : State) (x : ClockState) (p : Option Nat) (n : Nat) (d : List Int) (k : Option Nat) :
    OnlyRectifierInside s (s.crossingAt x p n d k) := ⟨rfl, rfl, rfl⟩

theorem modRect (s : State) (g : Rectifier → Rectifier) : OnlyRectifierInside s (s.modRect g) := ⟨rfl, rfl, rfl⟩

theorem rectEntry (s : State) (k : EventKind) (o : Origin) (d : Detail) (v w : Option Int) :
    OnlyRectifierInside s (s.rectEntry k o d v w) := ⟨rfl, rfl, rfl⟩

end OnlyRectifierInside

/-- All of a state but the runners, the record of events and the free counter, which are those of `t`. -/
def besideRunners (t : State) : Aside State :=
  { view := fun u => { u with runners := t.runners, events := t.events, choices := t.choices },
    choices := fun _ _ => rfl, events := fun _ _ => rfl, runners := fun _ _ => rfl }

/-- A change of rectifier state handed to the runners reaches them, the entries and the free counter only. -/
theorem State.rectToRunners_frame (s : State) :
    s.rectToRunners = { s with
      runners := s.rectToRunners.runners, events := s.rectToRunners.events, choices := s.rectToRunners.choices } :=
  (besideRunners s.rectToRunners).rectToRunners s

theorem OnlyRectifierInside.rectToRunners (s : State) : OnlyRectifierInside s s.rectToRunners := by
  rw [s.rectToRunners_frame]
  exact ⟨rfl, rfl, rfl⟩

/-! ## Entry into RUNNING (06 R121) -/

theorem OnlyRectifierInside.enterRunning (s : State) : OnlyRectifierInside s s.enterRunning :=
  ((modRect ..).trans (rectEntry ..)).trans (rectToRunners _)

theorem State.enterRunning_enters (s : State) : EntersRunning s s.enterRunning s.rect := by
  refine ⟨rectView.rectToRunners _, AddsEntry.later ?_ (Quiet.refl _).rectToRunners.grows⟩
  refine (AddsEntry.add (s.modRect _) ..).mono fun e ⟨kind, subject, origin, _, _, value, _⟩ =>
    ⟨kind, subject, origin, fun small => value (inField_nat (by omega))⟩

theorem State.lockedNotice_of_syncing {s : State} (syncing : s.rect.state = .syncing) :
    s.lockedNotice = s.enterRunning := if_pos syncing

theorem State.lockedNotice_of_not_syncing {s : State} (other : s.rect.state ≠ .syncing) : s.lockedNotice = s :=
  if_neg other

theorem OnlyRectifierInside.lockedNotice (s : State) : OnlyRectifierInside s s.lockedNotice := by
  by_cases syncing : s.rect.state = .syncing
  · rw [State.lockedNotice_of_syncing syncing]
    exact .enterRunning s
  · rw [State.lockedNotice_of_not_syncing syncing]
    exact .refl s

/-! ## The judgement of a crossing in ACQUIRING (06 R105) -/

theorem inWindow_iff {m : Nat} : inWindow m = true ↔ 18000 ≤ m ∧ m ≤ 22000 := decide_eq_true_iff

theorem State.crossingAt_eq (s : State) (x : ClockState) (p : Option Nat) (n : Nat) (d : List Int) (k : Option Nat) :
    s.crossingAt x p n d k = { s with clock := s.clockTaken x p n d k } := by
  cases p <;> rfl

/-- The clock LOCKED at the fourth accepted crossing and SYNC LOCKED added, before the LOCKED notice is handed on. -/
def State.syncLocked (s : State) (m : Nat) : State :=
  (s.crossingAt .locked (some m) 4 [] (some 0)).rectEntry .syncLocked (value1 := some (m : Int))

section syncLocked

variable (s : State) (m : Nat)

theorem OnlyRectifierInside.syncLocked : OnlyRectifierInside s (s.syncLocked m) :=
  (crossingAt ..).trans (rectEntry ..)

theorem State.syncLocked_clock : (s.syncLocked m).clock = s.clockTaken .locked (some m) 4 [] (some 0) := rfl

theorem State.syncLocked_grows : Grows s.events (s.syncLocked m).events :=
  Grows.addEntry (s.crossingAt .locked (some m) 4 [] (some 0)) ..

variable {m}

theorem State.syncLocked_entry (inside : inWindow m = true) :
    AddsEntry s (s.syncLocked m) fun e => e.kind = .syncLocked ∧ e.subject = .rectifier ∧ e.origin = .protection ∧
      e.value1 = some (m : Int) := by
  obtain ⟨-, small⟩ := inWindow_iff.mp inside
  have added := AddsEntry.add (s.crossingAt .locked (some m) 4 [] (some 0)) .syncLocked .rectifier .protection
    .nothing (some (m : Int)) none none
  exact added.mono fun e ⟨kind, subject, origin, _, _, value, _⟩ =>
    ⟨kind, subject, origin, value (inField_nat (by omega))⟩

theorem State.syncLocked_enters (syncing : s.rect.state = .syncing) :
    EntersRunning s (s.syncLocked m).lockedNotice s.rect := by
  obtain ⟨rect, entry⟩ := (s.syncLocked m).enterRunning_enters
  rw [State.lockedNotice_of_syncing (s := s.syncLocked m) syncing]
  exact ⟨rect, entry.earlier (s.syncLocked_grows m)⟩

theorem State.syncLocked_stands (other : s.rect.state ≠ .syncing) :
    (s.syncLocked m).lockedNotice.rect = s.rect ∧ (s.syncLocked m).lockedNotice.runners = s.runners := by
  rw [State.lockedNotice_of_not_syncing (s := s.syncLocked m) other]
  exact ⟨rfl, rfl⟩

end syncLocked

section acquire

variable {s : State} {m p : Nat}

theorem State.acquire_of_outside (outside : m < 18000 ∨ 22000 < m) :
    s.acquire m = s.crossingAt .acquiring none 0 [] none := by
  have fails : ¬inWindow m = true := by
    rw [inWindow_iff]
    omega
  simp only [State.acquire, fails, Bool.not_false, if_true]

theorem State.acquire_of_first (inside : inWindow m = true) (unheld : s.clock.period = none) :
    s.acquire m = s.crossingAt .acquiring (some m) 0 [] none := by
  simp only [State.acquire, inside, unheld, Bool.not_true, Bool.false_eq_true, if_false]

/-- With a period held the measured one is compared with it, and the accepted count with 4. -/
theorem State.acquire_of_held (inside : inWindow m = true) (held : s.clock.period = some p) :
    s.acquire m =
      if 100 < (m - p) + (p - m) then s.crossingAt .acquiring (some m) 0 [] none
      else if s.clock.accepted + 1 < 4 then s.crossingAt .acquiring (some m) (s.clock.accepted + 1) [] none
      else (s.syncLocked m).lockedNotice := by
  simp only [State.acquire, inside, held, Bool.not_true, Bool.false_eq_true, if_false, State.syncLocked]

end acquire

/-! ## ZERO_CROSSING (06 R104) -/

section crossing

variable {s : State}

theorem State.crossing_of_unlocked (unlocked : s.clock.state = .unlocked) :
    s.crossing = s.crossingAt .acquiring none 0 [] none := by
  simp only [State.crossing, unlocked]

theorem State.crossing_of_acquiring {last : Nat} (acquiring : s.clock.state = .acquiring)
    (before : s.clock.lastCrossing = some last) : s.crossing = s.acquire ((s.now - last) / 100) := by
  simp only [State.crossing, acquiring, before, inUs]

theorem exec_zeroCrossing (runs : s.resetLine = false) : exec .zeroCrossing s = .next s.crossing :=
  live_next runs _

end crossing

/-- Settles O40: each row of the judgement is one branch of `State.acquire`, with the clock record of the statement;
the fourth accepted crossing hands on the LOCKED notice. -/
theorem crossingsAcquire : Obligations.CrossingsAcquire := by
  intro s runs
  rw [exec_zeroCrossing runs]
  refine ⟨fun unlocked => ?unlocked, fun last m acquiring before measured => ?_⟩
  case unlocked => rw [State.crossing_of_unlocked unlocked, State.crossingAt_eq]
  rw [State.crossing_of_acquiring acquiring before, ← measured]
  refine ⟨fun outside => ?outside, fun above below => ?_⟩
  case outside => rw [State.acquire_of_outside outside, State.crossingAt_eq]
  have inside : inWindow m = true := inWindow_iff.mpr ⟨above, below⟩
  refine ⟨fun unheld => ?first, fun p held => ?_⟩
  case first => rw [State.acquire_of_first inside unheld, State.crossingAt_eq]
  rw [State.acquire_of_held inside held]
  refine ⟨fun far => ?far, fun near few => ?accepted, fun near fourth => ?fourth⟩
  case far => rw [if_pos far, State.crossingAt_eq]
  case accepted => rw [if_neg (Nat.not_lt.mpr near), if_pos few, State.crossingAt_eq]
  case fourth =>
    rw [if_neg (Nat.not_lt.mpr near), if_neg (by omega)]
    have noticed : Quiet (s.syncLocked m) (s.syncLocked m).lockedNotice := (Quiet.refl _).lockedNotice
    exact ⟨_, rfl, (OnlyRectifierInside.syncLocked s m).trans (.lockedNotice _),
      noticed.clock.trans (s.syncLocked_clock m), (s.syncLocked_entry inside).later noticed.grows,
      s.syncLocked_enters, s.syncLocked_stands⟩

end Sys2Proof.Machine

/-! Parts of one event, each taken once in some order (10 R184; log 3), and items of the Authority Table given up or taken one
by one (05). -/

namespace Sys2Proof.Machine

/-! ## Each part of an event acts once (log 3) -/

/-- The parts act one after the other, the free counter moving between them. -/
inductive Runs : List (State → State) → State → State → Prop where
  | nil (s : State) : Runs [] s s
  | cons {part : State → State} {rest : List (State → State)} {s t : State} (k : Nat)
      (h : Runs rest (part { s with choices := k }) t) : Runs (part :: rest) s t

namespace Runs

theorem append {l m : List (State → State)} {s t u : State} (h : Runs l s t) (k : Runs m t u) : Runs (l ++ m) s u := by
  induction h with
  | nil => exact k
  | cons n _ ih => exact .cons n (ih k)

theorem split {l m : List (State → State)} {s u : State} (h : Runs (l ++ m) s u) : ∃ t, Runs l s t ∧ Runs m t u := by
  induction l generalizing s with
  | nil => exact ⟨s, .nil s, h⟩
  | cons part rest ih =>
    obtain _ | ⟨k, later⟩ := h
    obtain ⟨t, first, second⟩ := ih later
    exact ⟨t, .cons k first, second⟩

theorem foldl (l : List (State → State)) (s : State) : Runs l s (l.foldl (fun t part => part t) s) := by
  induction l generalizing s with
  | nil => exact .nil s
  | cons part rest ih => exact .cons s.choices (ih (part s))

theorem inFreeOrder (n : Nat) (parts : List (State → State)) (enough : parts.length ≤ n) (s : State) :
    ∃ l, l.Perm parts ∧ Runs l s (inFreeOrder n parts s) := by
  induction n generalizing parts s with
  | zero =>
    rw [List.length_eq_zero_iff.mp (Nat.le_zero.mp enough)]
    exact ⟨[], .nil, .nil s⟩
  | succ n ih =>
    match parts with
    | [] => exact ⟨[], .nil, .nil s⟩
    | [part] => exact ⟨[part], .refl _, .cons s.choices (.nil _)⟩
    | a :: b :: rest =>
      have below : Config.choice s.choices % (a :: b :: rest).length < (a :: b :: rest).length :=
        Nat.mod_lt _ (Nat.succ_pos _)
      unfold Machine.inFreeOrder
      dsimp only
      generalize Config.choice s.choices % (a :: b :: rest).length = k at below ⊢
      rw [List.getElem?_eq_getElem below, Option.getD_some]
      have shorter : ((a :: b :: rest).eraseIdx k).length ≤ n := by
        rw [List.length_eraseIdx_of_lt below]
        simp only [List.length_cons] at enough ⊢
        omega
      obtain ⟨l, perm, runs⟩ := ih _ shorter ((a :: b :: rest)[k] { s with choices := s.choices + 1 })
      exact ⟨_, (perm.cons _).trans (List.getElem_cons_eraseIdx_perm below), .cons _ runs⟩

/-- The parts of one event act once each, in some order (10 R184; log 3). -/
theorem together (parts : List (State → State)) (s : State) : ∃ l, l.Perm parts ∧ Runs l s (together parts s) := by
  obtain ⟨l, perm, runs⟩ := inFreeOrder _ (parts.filter (addsEntry s)) le_rfl
    ((parts.filter fun part => !addsEntry s part).foldl (fun t part => part t) s)
  refine ⟨_ ++ l, ?_, (foldl (parts.filter fun part => !addsEntry s part) s).append runs⟩
  exact (perm.append_left _).trans ((List.perm_append_comm).trans (List.filter_append_perm ..))

variable {l : List (State → State)} {s t : State}

/-- A relation that the free counter and every part keep holds from before the parts to after them. -/
theorem rel {R : State → State → Prop} (runs : Runs l s t) (refl : ∀ u, R u u) (trans : ∀ u v w, R u v → R v w → R u w)
    (choices : ∀ (u : State) k, R u { u with choices := k }) (parts : ∀ part ∈ l, ∀ u, R u (part u)) : R s t := by
  induction runs with
  | nil => exact refl _
  | cons k _ ih =>
    refine trans _ _ _ (trans _ _ _ (choices _ k) (parts _ List.mem_cons_self _)) (ih fun part member => ?_)
    exact parts part (List.mem_cons_of_mem _ member)

theorem quiet (runs : Runs l s t) (parts : ∀ part ∈ l, ∀ u, Quiet u (part u)) : Quiet s t :=
  runs.rel .refl (fun _ _ _ => .trans) (fun u k => (Quiet.refl u).choices k) parts

/-- A view of the state that the free counter and every part leave. -/
theorem leaves {β : Type} {view : State → β} (runs : Runs l s t) (choices : ∀ (u : State) k, view { u with choices := k } = view u)
    (parts : ∀ part ∈ l, ∀ u, view (part u) = view u) : view t = view s :=
  runs.rel (R := fun u v => view v = view u) (fun _ => rfl) (fun _ _ _ h k => k.trans h) choices parts

end Runs

/-- One part of an event, with the others before and after it. -/
theorem together_around {p : State → State} {parts : List (State → State)} (member : p ∈ parts) (s : State) :
    ∃ before after u k, (before ++ p :: after).Perm parts ∧ Runs before s u ∧
      Runs after (p { u with choices := k }) (together parts s) := by
  obtain ⟨l, perm, runs⟩ := Runs.together parts s
  obtain ⟨before, after, rfl⟩ := List.append_of_mem (perm.mem_iff.mpr member)
  obtain ⟨u, first, _ | ⟨k, second⟩⟩ := runs.split
  exact ⟨before, after, u, k, perm, first, second⟩

/-- The first part of an event listed, with some of the others before it and the rest after it. -/
theorem together_first (p : State → State) (parts : List (State → State)) (s : State) :
    ∃ before after u k, (before ++ after).Perm parts ∧ Runs before s u ∧
      Runs after (p { u with choices := k }) (together (p :: parts) s) := by
  obtain ⟨before, after, u, k, perm, runs⟩ := together_around (p := p) (parts := p :: parts) List.mem_cons_self s
  exact ⟨before, after, u, k, (List.perm_middle.symm.trans perm).cons_inv, runs⟩

/-! ## Items taken or given up one by one (05) -/

/-- An act on the items of the Authority Table one by one: it leaves the holders of the others, and all but the table, the
ports, the entries and the free counter. -/
structure ItemWise (act : State → Item → State) : Prop where
  only : ∀ s i, OnlyTable s (act s i)
  ports : ∀ s i, (act s i).ports = s.ports
  other : ∀ s i j, j ≠ i → (act s i).holding j = s.holding j
  grows : ∀ s i, Grows s.events (act s i).events

namespace ItemWise

variable {act : State → Item → State} (h : ItemWise act)
include h

theorem foldl_only (l : List Item) (s : State) : OnlyTable s (l.foldl act s) := by
  induction l generalizing s with
  | nil => exact .refl s
  | cons i rest ih => exact (h.only s i).trans (ih _)

theorem foldl_ports (l : List Item) (s : State) : (l.foldl act s).ports = s.ports := by
  induction l generalizing s with
  | nil => rfl
  | cons i rest ih => exact (ih _).trans (h.ports s i)

theorem foldl_grows (l : List Item) (s : State) : Grows s.events (l.foldl act s).events := by
  induction l generalizing s with
  | nil => exact .refl _
  | cons i rest ih => exact (h.grows s i).trans (ih _)

theorem foldl_other {l : List Item} {j : Item} (outside : j ∉ l) (s : State) :
    (l.foldl act s).holding j = s.holding j := by
  induction l generalizing s with
  | nil => rfl
  | cons i rest ih =>
    obtain ⟨differs, later⟩ := not_or.mp (mt List.mem_cons.mpr outside)
    exact (ih later _).trans (h.other s i j differs)

/-- The act on one item of a list, with the holder it finds and the entries before and after it. -/
theorem foldl_at {l : List Item} (once : l.Nodup) {i : Item} (member : i ∈ l) (s : State) :
    ∃ u, OnlyTable s u ∧ u.holding i = s.holding i ∧ Grows s.events u.events ∧
      (l.foldl act s).holding i = (act u i).holding i ∧ Grows (act u i).events (l.foldl act s).events := by
  obtain ⟨before, after, rfl⟩ := List.append_of_mem member
  rw [List.nodup_middle, List.nodup_cons, List.mem_append, not_or] at once
  obtain ⟨⟨fresh, later⟩, -⟩ := once
  refine ⟨before.foldl act s, h.foldl_only .., h.foldl_other fresh s, h.foldl_grows .., ?_, ?_⟩
  · rw [List.foldl_append, List.foldl_cons, h.foldl_other later]
  · rw [List.foldl_append, List.foldl_cons]
    exact h.foldl_grows ..

/-- An entry that the act on one item adds is among those added. -/
theorem foldl_adds {l : List Item} (once : l.Nodup) {i : Item} (member : i ∈ l) {s : State} {P : Entry → Prop}
    (adds : ∀ u, OnlyTable s u → u.holding i = s.holding i → AddsEntry u (act u i) P) :
    AddsEntry s (l.foldl act s) P := by
  obtain ⟨u, only, holding, before, -, after⟩ := h.foldl_at once member s
  exact ((adds u only holding).earlier before).later after

/-- The entries of two items come in the order of their acts. -/
theorem foldl_order {l : List Item} (sorted : l.Pairwise fun i j => i.index < j.index) {i j : Item} (hi : i ∈ l)
    (hj : j ∈ l) (below : i.index < j.index) {s : State} {P Q : Entry → Prop}
    (first : ∀ u, OnlyTable s u → u.holding i = s.holding i → AddsEntry u (act u i) P)
    (second : ∀ u, OnlyTable s u → u.holding j = s.holding j → AddsEntry u (act u j) Q) :
    AddsInOrder s (l.foldl act s) P Q := by
  have once : l.Nodup := sorted.imp fun lt e => absurd (congrArg Item.index e) (ne_of_lt lt)
  obtain ⟨before, after, rfl⟩ := List.append_of_mem hi
  have notBefore : j ∉ i :: before := by
    rw [List.pairwise_append] at sorted
    obtain ⟨-, -, crossed⟩ := sorted
    rintro (_ | ⟨_, member⟩)
    · exact lt_irrefl _ below
    · exact lt_asymm below (crossed j member i List.mem_cons_self)
  have later : j ∈ after := by
    rcases List.mem_append.mp hj with member | member
    · exact absurd (List.mem_cons_of_mem i member) notBefore
    · refine (List.mem_cons.mp member).resolve_left fun e => notBefore ?_
      rw [e]
      exact List.mem_cons_self
  have parts := once
  rw [List.nodup_append] at parts
  obtain ⟨-, tail, -⟩ := parts
  rw [List.nodup_cons] at tail
  obtain ⟨-, onceAfter⟩ := tail
  rw [List.nodup_middle, List.nodup_cons, List.mem_append, not_or] at once
  obtain ⟨⟨fresh, -⟩, -⟩ := once
  have reached : OnlyTable s (act (before.foldl act s) i) := (h.foldl_only before s).trans (h.only _ i)
  have found : (act (before.foldl act s) i).holding j = s.holding j :=
    (h.other _ _ _ (ne_of_gt below ∘ congrArg Item.index)).trans
      (h.foldl_other (fun member => notBefore (List.mem_cons_of_mem i member)) s)
  refine ⟨act (before.foldl act s) i, ?_, ?_⟩
  · exact (first _ (h.foldl_only ..) (h.foldl_other fresh s)).earlier (h.foldl_grows ..)
  · rw [List.foldl_append, List.foldl_cons]
    exact h.foldl_adds onceAfter later fun u only holding => second u (reached.trans only) (holding.trans found)

end ItemWise

theorem items_nodup : items.Nodup := by decide

/-! ## The entries of a holder that gives up an item (05 R101) -/

section loseItem

variable (s : State) (i : Item) (x : Holding) (k : EventKind) (d : Detail) (v : Option Int)

theorem State.loseItem_only : OnlyTable s (s.loseItem i x k d v) := rfl

theorem State.loseItem_holding (j : Item) : (s.loseItem i x k d v).holding j = if j = i then none else s.holding j :=
  setHolding_holding s i j none

theorem State.loseItem_grows : Grows s.events (s.loseItem i x k d v).events := Grows.addEntry (s.setHolding i none) ..

/-- The time held is capped to what the entry's field carries (05 R101). -/
theorem State.inField_heldMs : inField (some (s.heldMs x)) = true := by
  refine inField_nat ?_
  unfold cap31
  omega

theorem State.loseItem_entry : AddsEntry s (s.loseItem i x k d v) fun e =>
    e.kind = k ∧ e.subject = Item.subject i ∧ e.origin = .port x.holder ∧ e.detail = d ∧ e.value1 = some (s.heldMs x) ∧
      (inField v = true → e.value2 = v) :=
  (AddsEntry.add (s.setHolding i none) ..).mono fun _ ⟨kind, subject, origin, detail, _, value1, value2⟩ =>
    ⟨kind, subject, origin, detail, value1 (s.inField_heldMs x), value2⟩

end loseItem

end Sys2Proof.Machine

/-! The location key and the control location at the Authority Table (02 R34, R35; 05 R86, R93). -/

namespace Sys2Proof.Machine

/-! ## The runners that judge their waits (09 R176) -/

/-- Nothing changes but the runners, the record of events, which grows, and the free counter. -/
structure OnlyWaits (s t : State) : Prop where
  frame : t = { s with runners := t.runners, events := t.events, choices := t.choices }
  grows : Grows s.events t.events

theorem Runs.onlyWaits {l : List (State → State)} {s t : State} {reads : Step → Bool} (runs : Runs l s t)
    (waits : ∀ part ∈ l, part ∈ waitParts reads) : OnlyWaits s t where
  frame := runs.leaves (view := (besideRunners t).view) (fun _ _ => rfl) fun part member u => by
    obtain ⟨r, -, rfl⟩ := List.mem_map.mp (waits part member)
    exact (besideRunners t).judgeWait u reads r
  grows := (runs.quiet fun part member u => (Quiet.refl u).waitParts (waits part member)).grows

/-! ## One item at a new location (05 R93) -/

theorem admitted_iff (x : Location) (p : Port) : admitted x p = true ↔ ¬Excludes x p := by
  cases x <;> cases p <;> simp [admitted, Excludes]

section loseExcluded

variable {s : State} {x : Location} {i : Item} {h : Holding}

theorem State.loseExcluded_free (free : s.holding i = none) : s.loseExcluded x i = s := by
  simp only [State.loseExcluded, free]

theorem State.loseExcluded_admitted (held : s.holding i = some h) (inside : ¬Excludes x h.holder) :
    s.loseExcluded x i = s := by
  simp only [State.loseExcluded, held, (admitted_iff ..).mpr inside, if_true]

theorem State.loseExcluded_excluded (held : s.holding i = some h) (outside : Excludes x h.holder) :
    s.loseExcluded x i = s.loseItem i h .authorityLost (.location x) := by
  have out : ¬admitted x h.holder = true := fun inside => (admitted_iff ..).mp inside outside
  simp only [State.loseExcluded, held, if_neg out]

/-- An item stands, or its excluded holder loses it. -/
theorem State.loseExcluded_cases (s : State) (x : Location) (i : Item) :
    s.loseExcluded x i = s ∨
      ∃ h, s.holding i = some h ∧ s.loseExcluded x i = s.loseItem i h .authorityLost (.location x) := by
  cases held : s.holding i with
  | none => exact .inl (loseExcluded_free held)
  | some h =>
    by_cases out : Excludes x h.holder
    · exact .inr ⟨h, rfl, loseExcluded_excluded held out⟩
    · exact .inl (loseExcluded_admitted held out)

end loseExcluded

theorem loseExcluded_itemWise (x : Location) : ItemWise fun t i => t.loseExcluded x i where
  only s i := by
    obtain stands | ⟨h, -, loses⟩ := s.loseExcluded_cases x i
    · rw [stands]
      exact .refl s
    · rw [loses]
      exact s.loseItem_only ..
  ports s i := by
    obtain stands | ⟨h, -, loses⟩ := s.loseExcluded_cases x i
    · rw [stands]
    · rw [loses]
      rfl
  other s i j differs := by
    obtain stands | ⟨h, -, loses⟩ := s.loseExcluded_cases x i
    · rw [stands]
    · rw [loses, s.loseItem_holding, if_neg differs]
  grows s i := by
    obtain stands | ⟨h, -, loses⟩ := s.loseExcluded_cases x i
    · rw [stands]
      exact .refl _
    · rw [loses]
      exact s.loseItem_grows ..

/-- AUTHORITY LOST of an item whose holder a location excludes (05 R93, R101). -/
def IsAuthorityLost (s : State) (x : Location) (i : Item) (h : Holding) (e : Entry) : Prop :=
  e.kind = .authorityLost ∧ e.subject = Item.subject i ∧ e.origin = .port h.holder ∧ e.detail = .location x ∧
    e.value2 = none ∧ e.value1 = some ((min ((s.now - h.grantedAt) / 100000) 2147483647 : Nat) : Int)

theorem State.loseExcluded_entry {s : State} {x : Location} {i : Item} {h : Holding} (held : s.holding i = some h)
    (outside : Excludes x h.holder) : AddsEntry s (s.loseExcluded x i) (IsAuthorityLost s x i h) := by
  rw [loseExcluded_excluded held outside]
  exact (s.loseItem_entry i h .authorityLost (.location x) none).mono
    fun _ ⟨kind, subject, origin, detail, value1, value2⟩ => ⟨kind, subject, origin, detail, value2 rfl, value1⟩

/-! ## The Authority Table at a new location (05 R93) -/

section takeLocation

variable (s : State) (x : Location)

/-- The table's copy of the location is the new one, its entries as they were. -/
def State.withLocation : State := { s with authority := { s.authority with location := x } }

theorem State.withLocation_holding (i : Item) : (s.withLocation x).holding i = s.holding i := rfl

/-- What a table at a new location leaves, whatever its entries become. -/
theorem OnlyTable.at_location {s t : State} {x : Location} (only : OnlyTable (s.withLocation x) t)
    (ports : t.ports = s.ports) :
    t.authority.location = x ∧
      t = { s with authority := t.authority, events := t.events, choices := t.choices } := by
  unfold OnlyTable at only
  rw [ports] at only
  exact ⟨congrArg (fun u => u.authority.location) only, by rw [only]; rfl⟩

theorem State.takeLocation_eq : s.takeLocation x = items.foldl (fun t i => t.loseExcluded x i) (s.withLocation x) := rfl

theorem State.takeLocation_only : OnlyTable (s.withLocation x) (s.takeLocation x) :=
  (loseExcluded_itemWise x).foldl_only ..

theorem State.takeLocation_ports : (s.takeLocation x).ports = s.ports :=
  (loseExcluded_itemWise x).foldl_ports items (s.withLocation x)

theorem State.takeLocation_grows : Grows s.events (s.takeLocation x).events :=
  (loseExcluded_itemWise x).foldl_grows items (s.withLocation x)

variable {s x}

theorem State.takeLocation_free {i : Item} (free : s.holding i = none) : (s.takeLocation x).holding i = none := by
  obtain ⟨u, -, found, -, left, -⟩ := (loseExcluded_itemWise x).foldl_at items_nodup (mem_items i) (s.withLocation x)
  rw [takeLocation_eq, left, loseExcluded_free (found.trans free)]
  exact found.trans free

theorem State.takeLocation_admitted {i : Item} {h : Holding} (held : s.holding i = some h) (inside : ¬Excludes x h.holder) :
    (s.takeLocation x).holding i = some h := by
  obtain ⟨u, -, found, -, left, -⟩ := (loseExcluded_itemWise x).foldl_at items_nodup (mem_items i) (s.withLocation x)
  rw [takeLocation_eq, left, loseExcluded_admitted (found.trans held) inside]
  exact found.trans held

theorem State.takeLocation_excluded {i : Item} {h : Holding} (held : s.holding i = some h) (outside : Excludes x h.holder) :
    (s.takeLocation x).holding i = none := by
  obtain ⟨u, -, found, -, left, -⟩ := (loseExcluded_itemWise x).foldl_at items_nodup (mem_items i) (s.withLocation x)
  rw [takeLocation_eq, left, loseExcluded_excluded (found.trans held) outside, loseItem_holding, if_pos rfl]

/-- Every holder left is of the class that the location admits. -/
theorem State.takeLocation_holders {i : Item} {h : Holding} (held : (s.takeLocation x).holding i = some h) :
    admitted x h.holder = true := by
  cases before : s.holding i with
  | none =>
    rw [takeLocation_free before] at held
    cases held
  | some k =>
    by_cases out : Excludes x k.holder
    · rw [takeLocation_excluded before out] at held
      cases held
    · rw [takeLocation_admitted before out] at held
      cases held
      exact (admitted_iff ..).mpr out

theorem State.takeLocation_entry {i : Item} {h : Holding} (held : s.holding i = some h) (outside : Excludes x h.holder) :
    AddsEntry s (s.takeLocation x) (IsAuthorityLost s x i h) := by
  refine (loseExcluded_itemWise x).foldl_adds (s := s.withLocation x) items_nodup (mem_items i) fun u only found => ?_
  have entry := loseExcluded_entry (found.trans held) outside
  unfold IsAuthorityLost at entry
  rw [only.now] at entry
  exact entry

theorem State.takeLocation_order {i j : Item} {h k : Holding} (hi : s.holding i = some h) (outI : Excludes x h.holder)
    (hj : s.holding j = some k) (outJ : Excludes x k.holder) (below : i.index.val < j.index.val) :
    AddsInOrder s (s.takeLocation x) (fun e => e.kind = .authorityLost ∧ e.subject = Item.subject i)
      (fun e => e.kind = .authorityLost ∧ e.subject = Item.subject j) := by
  refine (loseExcluded_itemWise x).foldl_order (s := s.withLocation x) items_pairwise (mem_items i) (mem_items j) below
    (fun u _ found => ?_) fun u _ found => ?_
  · exact (loseExcluded_entry (found.trans hi) outI).mono fun _ ⟨kind, subject, _⟩ => ⟨kind, subject⟩
  · exact (loseExcluded_entry (found.trans hj) outJ).mono fun _ ⟨kind, subject, _⟩ => ⟨kind, subject⟩

end takeLocation

/-! ## A change of the control location (02 R35) -/

/-- The table takes a location between waits: the table, the runners, the entries and the free counter change. -/
theorem OnlyWaits.around {s u v t : State} (early : OnlyWaits s u)
    (taken : v = { u with authority := v.authority, events := v.events, choices := v.choices }) (late : OnlyWaits v t) :
    t.authority = v.authority ∧
      t = { s with authority := t.authority, runners := t.runners, events := t.events, choices := t.choices } := by
  have authority := congrArg State.authority late.frame
  refine ⟨authority, ?_⟩
  have frame := late.frame
  rw [taken, early.frame] at frame
  rw [authority]
  exact frame

/-- LOCATION CHANGED added at the key's new location, before other blocks take it. -/
def State.locationAdded (s : State) (x : Location) : State :=
  ({ s with key := { s.key with location := x } }).addEntry .locationChanged .nothing .protection (.location x)

/-- The Authority Table takes the location once, the waits judged before it or after it (10 R184; log 3). -/
theorem State.changeLocation_parts (s : State) (x : Location) :
    ∃ u, OnlyWaits (s.locationAdded x) u ∧ OnlyWaits (u.takeLocation x) (s.changeLocation x) := by
  obtain ⟨before, after, u, k, perm, first, second⟩ :=
    together_first (fun t => t.takeLocation x) (waitParts readsLocation) (s.locationAdded x)
  have waits : ∀ part ∈ before ++ after, part ∈ waitParts readsLocation := fun _ => perm.mem_iff.mp
  have early := first.onlyWaits fun part member => waits part (List.mem_append_left _ member)
  have late := second.onlyWaits fun part member => waits part (List.mem_append_right _ member)
  refine ⟨{ u with choices := k }, ⟨?_, early.grows⟩, late⟩
  have frame := early.frame
  exact congrArg (fun v : State => { v with choices := k }) frame

/-- What a change of location leaves, and the table that it makes. -/
theorem State.changeLocation_frame (s : State) (x : Location) :
    ∃ u : State, OnlyWaits (s.locationAdded x) u ∧
      (s.changeLocation x).authority = (u.takeLocation x).authority ∧
      Grows (u.takeLocation x).events (s.changeLocation x).events ∧
      s.changeLocation x = { s.locationAdded x with
        authority := (s.changeLocation x).authority, runners := (s.changeLocation x).runners,
        events := (s.changeLocation x).events, choices := (s.changeLocation x).choices } := by
  obtain ⟨u, early, late⟩ := s.changeLocation_parts x
  obtain ⟨-, taken⟩ := (u.takeLocation_only x).at_location (u.takeLocation_ports x)
  obtain ⟨authority, frame⟩ := early.around taken late
  exact ⟨u, early, authority, late.grows, frame⟩

theorem OnlyWaits.holding {s u : State} (h : OnlyWaits s u) (i : Item) : u.holding i = s.holding i := by
  have same := congrArg (fun v : State => v.holding i) h.frame
  exact same

theorem OnlyWaits.now {s u : State} (h : OnlyWaits s u) : u.now = s.now := by
  have same := congrArg State.now h.frame
  exact same

theorem State.holding_congr {s t : State} (h : t.authority = s.authority) (i : Item) : t.holding i = s.holding i :=
  congrArg (fun a : AuthorityTable => a.entries.get i.index) h

/-- The table after a change of location, holder by holder. -/
theorem State.changeLocation_holds (s : State) (x : Location) : AuthoritySound (s.changeLocation x) := by
  obtain ⟨u, -, authority, -, frame⟩ := s.changeLocation_frame x
  obtain ⟨location, -⟩ := (u.takeLocation_only x).at_location (u.takeLocation_ports x)
  have key : (s.changeLocation x).key = { s.key with location := x } := congrArg State.key frame
  refine ⟨by rw [authority, location, key], fun i h held => ?_⟩
  rw [State.holding_congr authority] at held
  rw [key]
  exact u.takeLocation_holders held

end Sys2Proof.Machine

/-! Conditions that every step keeps: the six of Safety.lean, command by command, and the start-up that makes them anew
(02 R25, R29; 05 R86; 06 R110, R115; 10 R185, R191 to R193; 11 R199, R207). -/

namespace Sys2Proof.Machine

/-- The conditions of Safety.lean that hold before a change hold after it, those of the ports included. -/
structure Keeps (s t : State) : Prop where
  ports : PortsBounded s → PortsBounded t
  authority : AuthoritySound s → AuthoritySound t
  record : RecordSound s → RecordSound t
  feeders : FeedersSound s → FeedersSound t
  matching : MatchSound s → MatchSound t
  rectifier : RectifierSound s → RectifierSound t
  captures : CapturesSound s → CapturesSound t

/-- A command keeps the conditions: whatever next state it answers has them. -/
def Kept (s : State) (o : Host.Outcome State Fault Refusal) : Prop := ∀ t, o = .next t → Keeps s t

theorem Kept.next {s t : State} (h : Keeps s t) : Kept s (.next t) := by
  rintro u ⟨⟩
  exact h

namespace Keeps

variable {s t u : State}

theorem trans (h : Keeps s t) (k : Keeps t u) : Keeps s u where
  ports := k.ports ∘ h.ports
  authority := k.authority ∘ h.authority
  record := k.record ∘ h.record
  feeders := k.feeders ∘ h.feeders
  matching := k.matching ∘ h.matching
  rectifier := k.rectifier ∘ h.rectifier
  captures := k.captures ∘ h.captures

theorem inside (h : Inside s t) : Keeps s t where
  ports := fun bounded p => by
    rw [State.port, h.ports]
    exact bounded p
  authority := h.authority
  record := h.record
  feeders := h.feeders
  matching := h.matching
  rectifier := h.rectifier
  captures := h.captures

theorem refl (s : State) : Keeps s s := inside (.refl s)

/-- Only one port changes, and it stays within its sizes. -/
theorem modPort (s : State) (p : Port) {g : MasterPort → MasterPort}
    (bounded : (s.port p).buffers.length ≤ 2 ∧ (s.port p).responses.length ≤ 2 →
      (g (s.port p)).buffers.length ≤ 2 ∧ (g (s.port p)).responses.length ≤ 2) : Keeps s (s.modPort p g) where
  ports := fun h q => by
    by_cases same : q = p
    · rw [same, State.modPort_port_self]
      exact bounded (h p)
    · rw [State.modPort_port_ne _ _ same]
      exact h q
  authority := id
  record := id
  feeders := id
  matching := id
  rectifier := id
  captures := id

end Keeps

/-! ## Commands from inside the part -/

theorem Kept.live {s : State} {effect : State → State} (h : Keeps s (effect s)) : Kept s (live s effect) := by
  refine Kept.next ?_
  by_cases held : s.resetLine = true
  · rw [if_pos held]
    exact .refl s
  · rw [if_neg held]
    exact h

theorem Kept.inside {s : State} {effect : State → State} (h : Inside s (effect s)) : Kept s (Machine.live s effect) :=
  .live (.inside h)

/-- An event of a breaker's links, timers and blocks that is taken only where its occasion holds. -/
theorem Inside.ite {s t : State} {c : Prop} [Decidable c] (h : c → Inside s t) : Inside s (if c then t else s) := by
  split
  case isTrue holds => exact h holds
  case isFalse => exact .refl s

/-! ## The ports (11 R197 to R202) -/

theorem MasterPort.enter_bounded {x : MasterPort} (fr : Frame) (h : x.buffers.length ≤ 2 ∧ x.responses.length ≤ 2) :
    (x.enter fr).buffers.length ≤ 2 ∧ (x.enter fr).responses.length ≤ 2 := by
  obtain ⟨buffers, responses⟩ := h
  unfold MasterPort.enter
  split
  case isTrue room => exact ⟨by simp; omega, responses⟩
  case isFalse => exact ⟨buffers, responses⟩

/-- A response joins a queue that has room for it (11 R199). -/
theorem keeps_answered {s : State} {p : Port} (kind tag : Byte) (status : Status) (body : Body)
    (room : (s.port p).responses.length < 2) : Keeps s (s.answered p kind tag status body) := by
  unfold State.answered
  exact .modPort s p fun ⟨buffers, _⟩ => ⟨buffers, by rw [List.length_append]; exact room⟩

/-- A request that is handled leaves its buffer, and its response finds room (11 R199). -/
theorem keeps_respond {s : State} {p : Port} (kind tag : Byte) {a : Answer} (room : (s.port p).room = true)
    (h : Inside (s.dropBuffer p) a.state) : Keeps s (State.respond p kind tag a) := by
  have dropped : Keeps s (s.dropBuffer p) := .modPort s p fun ⟨buffers, responses⟩ => ⟨by simp; omega, responses⟩
  have port : a.state.port p = (s.dropBuffer p).port p := congrArg (fun x => File.get x p.index) h.ports
  have left : (s.dropBuffer p).port p = { s.port p with buffers := (s.port p).buffers.tail } :=
    State.modPort_port_self ..
  rw [respond_eq]
  refine (dropped.trans (.inside h)).trans (keeps_answered kind tag a.status a.body ?_)
  rw [port, left]
  exact of_decide_eq_true room

theorem room_of_oldest {s : State} {p : Port} {fr : Frame} (h : s.oldest p = some fr) : (s.port p).room = true := by
  unfold State.oldest at h
  split at h
  case isTrue room => exact room
  case isFalse => cases h

theorem room_of_waiting {s : State} {p : Port} {kind : Byte} {x : Byte × List Byte}
    (h : s.waiting p kind = some x) : (s.port p).room = true := by
  unfold State.waiting at h
  split at h
  case h_1 frame => exact room_of_oldest frame
  case h_2 => cases h

/-- A request keeps the conditions when its handling does, since it is taken only with room for its response. -/
theorem kept_takeRequest {s : State} {p : Port} {kind : Byte} {handle : List Byte → State → Answer}
    (h : ∀ body, Handles (handle body)) : Kept s (takeRequest p kind handle s) := by
  refine .live ?_
  split
  case h_1 tag body waits => exact keeps_respond _ _ (room_of_waiting waits) (h body _)
  case h_2 => exact .refl s

/-- A request with arguments, from the handling of each. -/
theorem kept_withArgs {α : Type} {s : State} {p : Port} {kind : Byte} {read : List Byte → Option α}
    {handle : α → State → Answer} (h : ∀ a, Handles (handle a)) :
    Kept s (takeRequest p kind (withArgs read handle) s) :=
  kept_takeRequest (handles_withArgs fun _ a _ => h a)

theorem keeps_badFrame (p : Port) (s : State) : Kept s (execBadFrame p s) := by
  refine .live ?_
  split
  case h_1 frame => exact keeps_respond _ _ (room_of_oldest frame) (.refl _)
  case h_2 => exact .refl s

theorem keeps_badKind (p : Port) (s : State) : Kept s (execBadKind p s) := by
  refine .live ?_
  split
  case h_1 frame =>
    split
    · exact keeps_respond _ _ (room_of_oldest frame) (.refl _)
    · exact .refl s
  case h_2 => exact .refl s

theorem keeps_deselect (s : State) (p : Port) (bytes : List Byte) : Keeps s (s.deselect p bytes) := by
  refine .modPort s p fun h => ?_
  dsimp only
  split
  · exact MasterPort.enter_bounded _ h
  · exact h

/-- A PORT RESET empties the port before it answers, so its response has room (11 R202). -/
theorem keeps_resetPort (s : State) (p : Port) (tag : Byte) : Keeps s (s.resetPort p tag) := by
  unfold State.resetPort
  dsimp only
  generalize emptied : (s.modPort p fun x => { x with buffers := [], responses := [], sent := 0, overrun := false }) = t
  have port : t.port p = { s.port p with buffers := [], responses := [], sent := 0, overrun := false } := by
    rw [← emptied, State.modPort_port_self]
  have cleared : Keeps s t := emptied ▸ .modPort s p fun _ => by simp
  have released : Inside t (t.releaseItems p true items) := (Inside.refl _).releaseItems ..
  generalize t.releaseItems p true items = u at released ⊢
  have same : u.port p = t.port p := congrArg (fun x => File.get x p.index) released.ports
  rw [respond_eq]
  refine (cleared.trans (.inside released)).trans (keeps_answered 0x7E tag .done .empty ?_)
  rw [same, port]
  exact Nat.zero_lt_two

theorem keeps_receive (s : State) (p : Port) (c : Clocked) : Keeps s (s.receive p c) := by
  have enters (fr : Frame) : Keeps s (s.modPort p fun x => (x.clockedOut c.out).enter fr) :=
    .modPort s p fun h => MasterPort.enter_bounded fr h
  unfold State.receive
  split
  case h_1 =>
    split
    · split
      · exact keeps_resetPort ..
      · exact enters _
    · exact enters _
  case h_2 => exact .refl s

/-! ## Start-up (11 R207) -/

theorem FeederRecord.reset_sound : FeederRecord.reset.sound := by
  simp [FeederRecord.sound, FeederRecord.reset, FeederState.operates]

theorem CaptureUnit.reset_sound : CaptureUnit.reset.sound := by
  simp [CaptureUnit.sound, CaptureUnit.reset]

theorem EventRecord.reset_sound : EventRecord.reset.sound := by
  simp [EventRecord.sound, EventRecord.reset, seqDistance]

/-- The record after start-up has grown from the empty one by its one or two entries (11 R208). -/
theorem EventRecord.started_sound (cause : RestartCause) (fromStore : Bool) :
    (EventRecord.started cause fromStore).sound := by
  have first : Grows EventRecord.reset (EventRecord.reset.append (.restart cause fromStore)) := .entry _ (.refl _) rfl
  cases fromStore with
  | true => exact first.sound reset_sound
  | false => exact (Grows.entry .settingsDefaulted first rfl).sound reset_sound

theorem Settings.default_angleRange : Settings.default.angleRange := by
  unfold Settings.angleRange
  decide

theorem Rectifier.reset_sound (v : StationSettings) : (Rectifier.reset v.alphaMax).sound v :=
  ⟨nofun, fun _ => rfl, nofun⟩

section startUp

variable (cause : RestartCause) (s : State)

theorem startUp_ports : PortsBounded (startUp cause s) := by
  intro p
  simp [State.port, startUp, MasterPort.reset]

theorem startUp_authority : AuthoritySound (startUp cause s) := by
  refine ⟨rfl, fun i h held => ?_⟩
  simp [State.holding, startUp, AuthorityTable.reset] at held

theorem startUp_record : RecordSound (startUp cause s) := EventRecord.started_sound ..

theorem startUp_feeders : FeedersSound (startUp cause s) := by
  intro f
  simp only [State.feeder, startUp, File.get_fill]
  exact FeederRecord.reset_sound

theorem startUp_matching : MatchSound (startUp cause s) := by
  intro f
  cases farLink : (s.store.loaded.feeders.get f).farLink <;>
    simp [State.section', State.config, startUp, SectionRecord.reset, farLink]

theorem startUp_captures : CapturesSound (startUp cause s) := CaptureUnit.reset_sound

/-- The settings loaded have a range of angles, those of the store or the defaults. -/
theorem startUp_rectifier (range : ∀ v, s.store.copy = some v → v.angleRange) : RectifierSound (startUp cause s) := by
  have loaded : s.store.loaded.angleRange := by
    cases copy : s.store.copy with
    | none =>
      rw [SettingsStore.loaded, copy]
      exact Settings.default_angleRange
    | some v =>
      rw [SettingsStore.loaded, copy]
      exact range v copy
  exact ⟨loaded, range, nofun, Rectifier.reset_sound _⟩

theorem keeps_startUp : Keeps s (startUp cause s) where
  ports := fun _ => startUp_ports cause s
  authority := fun _ => startUp_authority cause s
  record := fun _ => startUp_record cause s
  feeders := fun _ => startUp_feeders cause s
  matching := fun _ => startUp_matching cause s
  rectifier := fun ⟨_, copy, _⟩ => startUp_rectifier cause s copy
  captures := fun _ => startUp_captures cause s

end startUp

theorem keeps_hold (s : State) : Keeps s s.hold := by
  have held : Inside s { s with resetLine := true } := (Inside.refl s).resetLine true
  exact .inside ((held.modSample _).quiet ((Quiet.refl _).modRectSame rfl rfl rfl))

/-! ## A change of the control location (05 R86, R93) -/

/-- A change of location reaches the key, the Authority Table, the runners, the record and the free counter. -/
theorem State.changeLocation_reaches (s : State) (x : Location) :
    ∃ a r e k, s.changeLocation x =
      { s with key := { s.key with location := x }, authority := a, runners := r, events := e, choices := k } := by
  obtain ⟨_, _, _, _, frame⟩ := s.changeLocation_frame x
  exact ⟨_, _, _, _, frame⟩

theorem State.changeLocation_grows (s : State) (x : Location) : Grows s.events (s.changeLocation x).events := by
  obtain ⟨u, early, _, late, _⟩ := s.changeLocation_frame x
  have added : Grows s.events (s.locationAdded x).events := .addEntry _ ..
  exact ((added.trans early.grows).trans (u.takeLocation_grows x)).trans late

theorem keeps_changeLocation (s : State) (x : Location) : Keeps s (s.changeLocation x) := by
  have authority := s.changeLocation_holds x
  have grows := s.changeLocation_grows x
  obtain ⟨a, r, e, k, reached⟩ := s.changeLocation_reaches x
  rw [reached] at authority grows ⊢
  exact
    { ports := id, authority := fun _ => authority, record := fun sound => grows.sound sound, feeders := id,
      matching := id, rectifier := id, captures := id }

end Sys2Proof.Machine

/-! Every command keeps the conditions of Safety.lean, and so does every step; the state after reset has them. -/

namespace Sys2Proof.Machine

/-! ## Events whose occasion carries a fact (03; 04; 06; 11 R205) -/

theorem operation_of_acDue {s : State} {k : OperationKind} {op : AcOperation} (h : s.acDue k = some op) :
    s.rect.acOperation = some op := by
  unfold State.acDue at h
  split at h
  case h_1 found =>
    split at h
    · exact found.trans h
    · cases h
  case h_2 => cases h

theorem commit_of_commitDue {s : State} {c : Commit} (h : s.commitDue = some c) : s.store.commit = some c := by
  unfold State.commitDue at h
  split at h
  case h_1 found =>
    split at h
    · exact found.trans h
    · cases h
  case h_2 => cases h

theorem recloseWait_of_recloseIsDue {s : State} {f : Feeder} (h : s.recloseIsDue f = true) :
    (s.feeder f).state = .recloseWait := by
  simp only [State.recloseIsDue, Bool.and_eq_true, beq_iff_eq] at h
  obtain ⟨⟨waits, -⟩, -⟩ := h
  exact waits

/-! ## Command by command -/

section commandsKept

variable (s : State)

theorem keeps_frameStart (trailing : Nat) : Kept s (execFrameStart trailing s) := by
  refine .inside ?_
  dsimp only
  split
  · exact .refl s
  · exact (Inside.refl s).modSample _

theorem keeps_frameComplete (words : File Word 34) : Kept s (execFrameComplete words s) := by
  refine .inside (.ite fun _ => ?_)
  have completed : Inside s (s.modSample fun x => { x with reception := .complete }) := (Inside.refl s).modSample _
  dsimp only
  split
  · exact completed.modSample _
  · exact completed.validFrame words

theorem keeps_positionFault (b : Breaker) : Kept s (execPositionFault b s) :=
  .inside (.ite fun _ => ((Inside.refl s).modInputOf b _).addEntry ..)

theorem keeps_farStateStale (f : Feeder) : Kept s (execFarStateStale f s) :=
  .inside (.ite fun _ => (((Quiet.refl s).modSection f (fun h => h)).setFarState f none).inside)

theorem keeps_positionDebounceExpiry (b : Breaker) : Kept s (execPositionDebounceExpiry b s) := by
  refine .inside ?_
  split
  · exact (Inside.refl s).debounced b
  · exact .refl s

theorem keeps_tripRequest (f : Feeder) : Kept s (execTripRequest f s) := by
  refine .inside ?_
  split
  · exact (((Quiet.refl s).modFault f _).takeRequest f _).frameAfterTrip.inside
  · exact .refl s

theorem keeps_tripConfirmLimit (f : Feeder) : Kept s (execTripConfirmLimit f s) := by
  refine .inside ?_
  split
  · exact ((Quiet.refl s).breakerFails f _).inside
  · exact .refl s

theorem keeps_closeConfirmLimit (f : Feeder) : Kept s (execCloseConfirmLimit f s) := by
  refine .inside ?_
  split
  · exact ((Quiet.refl s).endClose f _ _ leads_toOpen).inside
  · exact .refl s

theorem keeps_testEnd (f : Feeder) : Kept s (execTestEnd f s) := by
  refine .inside ?_
  split
  · exact ((Quiet.refl s).judgeTest f _).inside
  · exact .refl s

theorem keeps_recloseDue (f : Feeder) : Kept s (execRecloseDue f s) :=
  .inside (.ite fun due => ((Quiet.refl s).recloseSteps f (recloseWait_of_recloseIsDue due)).inside)

theorem keeps_commitWriteEnd : Kept s (execCommitWriteEnd s) := by
  refine .inside ?_
  split
  · exact endCommit_inside s (commit_of_commitDue ‹_›)
  · exact .refl s

theorem keeps_leaseExpiry (i : Item) : Kept s (execLeaseExpiry i s) := by
  refine .inside ?_
  split
  · exact .ite fun _ => (Inside.refl s).loseItem ..
  · exact .refl s

theorem keeps_tick : Kept s (execTick s) := by
  refine .inside ?_
  split
  · exact .ite fun _ => (Inside.refl s).advanceTick _
  · exact .refl s

theorem keeps_acCloseDeadline : Kept s (execAcCloseDeadline s) := by
  refine .inside ?_
  split
  · exact (Quiet.refl s).acCloseFailed.inside
  · exact .refl s

theorem keeps_acOpenDeadline : Kept s (execAcOpenDeadline s) := by
  refine .inside ?_
  split
  · exact ((Quiet.refl s).acOverdue (operation_of_acDue ‹_›)).inside
  · exact .refl s

theorem keeps_overvoltageRelease : Kept s (execOvervoltageRelease s) :=
  .inside (.ite fun _ => (((Quiet.refl s).modRectSame rfl rfl rfl).rectEntry ..).inside)

theorem keeps_lightPresentChange (l : LinkId) (present : Bool) : Kept s (execLightPresentChange l present s) := by
  refine .next (.inside (Quiet.inside ?_))
  exact .ite _ ((Quiet.refl s).modLink l _) ((Quiet.refl s).lightChange l present)

theorem keeps_acceptanceWindowClose (l : LinkId) (f : Feeder) : Kept s (execAcceptanceWindowClose l f s) := by
  refine .inside ?_
  split
  · exact .ite fun _ => ((Quiet.refl s).modLink l _).inside
  · exact .refl s

theorem keeps_beaconPeriod (l : LinkId) : Kept s (execBeaconPeriod l s) := by
  refine .inside ?_
  split
  · exact .ite fun _ => (((Quiet.refl s).post l .beacon none).modLink l _).inside
  · exact .refl s

theorem keeps_segmentRefresh (l : LinkId) : Kept s (execSegmentRefresh l s) := by
  refine .inside ?_
  dsimp only
  split
  · exact .ite fun _ => ((Quiet.refl s).modLink l _).inside
  · exact .refl s

theorem keeps_grantExpired (f : Feeder) : Kept s (execGrantExpired f s) := by
  refine .inside ?_
  split
  · exact (((Quiet.refl s).addEntry ..).grantEnded f).inside
  · exact .refl s

theorem keeps_secondBoundary : Kept s (execSecondBoundary s) := by
  refine .inside ?_
  dsimp only
  split
  · exact ((((Quiet.refl s).time (s.time.carry _))).links _).inside
  · exact .refl s

theorem keeps_slewStep : Kept s (execSlewStep s) := by
  refine .inside ?_
  split
  · exact .ite fun _ => ((Quiet.refl s).time _).inside
  · exact .refl s

theorem keeps_requestFrameReceived (p : Port) (c : Clocked) : Kept s (execRequestFrameReceived p c s) := by
  refine .live ?_
  split
  · exact keeps_receive s p c
  · exact .refl s

theorem keeps_responseSent (p : Port) : Kept s (execResponseSent p s) := by
  refine .live ?_
  split
  · exact .modPort s p fun ⟨buffers, responses⟩ => ⟨buffers, by simp; omega⟩
  · exact .refl s

theorem keeps_portReset (p : Port) (tag : Byte) : Kept s (execPortReset p tag s) := by
  refine .live ?_
  split
  · exact keeps_resetPort s p tag
  · exact .refl s

theorem keeps_frameLengthAbove256 (p : Port) (c : Clocked) : Kept s (execFrameLengthAbove256 p c s) := by
  refine .live ?_
  split
  · exact .modPort s p fun h => MasterPort.enter_bounded .bad h
  · exact .refl s

theorem keeps_resetLineRelease : Kept s (execResetLineRelease s) := by
  refine .next ?_
  split
  · exact (Keeps.inside ((Inside.refl s).resetLine false)).trans (keeps_startUp ..)
  · exact .refl s

theorem quiet_performStep (r : RunnerId) (x : Step) : Quiet s (s.performStep r x) := by
  have same : Quiet s s := .refl s
  unfold State.performStep
  split
  · unfold State.stepOpen
    exact .ite _ ((same.openFeeder _ _).completeStep r _) (same.failStep r _ none)
  · unfold State.stepClose
    refine .ite _ ?_ (same.failStep r _ none)
    split
    · exact same.failStep r _ none
    · exact (same.await r _).beginClose _ _
  · exact (same.setTarget _).completeStep r _
  · unfold State.stepStart
    split
    · exact same.failStep r _ none
    · exact (same.await r _).startRect _ (ne_of_eq_of_ne (blocked_of_startCheck ‹_›) nofun)
  · exact (same.stopRect _).completeStep r _
  · unfold State.stepWait
    exact .ite _ (same.completeStep r _) (.ite _ (same.failStep r _ none) (same.await r _))
  · exact (same.addEntry ..).completeStep r _
  · exact (same.modRunner r _).addEntry ..
  · exact same.completeStep r _

theorem keeps_stepDue (r : RunnerId) : Kept s (execStepDue r s) := by
  refine .inside (.ite fun _ => Quiet.inside ?_)
  have same : Quiet s s := .refl s
  unfold State.takeStep
  exact .ite _ ((same.addEntry ..).completeStep r _) (.ite _ (same.haltRunner r _) (quiet_performStep s r _))

theorem keeps_locationChanged : Kept s (execLocationChanged s) := by
  refine .live ?_
  split
  · exact keeps_changeLocation ..
  · exact .refl s

end commandsKept

theorem KeyInput.at_location (x : KeyInput) (made : Bool) (now : Instant) : (x.at made now).location = x.location := by
  unfold KeyInput.at
  repeat' split
  all_goals rfl

/-- A change at the key input leaves the location, which follows it only when it has settled (02 R34). -/
theorem keeps_keyInputChange (made : Bool) (s : State) : Kept s (execKeyInputChange made s) := by
  refine .next { ports := id, authority := fun ⟨location, admits⟩ => ⟨?_, fun i h held => ?_⟩, record := id,
                 feeders := id, matching := id, rectifier := id, captures := id }
  · exact location.trans (s.key.at_location made s.now).symm
  · refine (congrArg (fun x => admitted x h.holder) (s.key.at_location made s.now)).trans ?_
    exact admits i h held

/-- Every command keeps the conditions (02 R25, R29; 05 R86; 06 R110, R115; 10 R185, R191 to R193; 11 R199). -/
theorem exec_keeps (c : Instr) (s : State) : Kept s (exec c s) := by
  have same : Inside s s := .refl s
  have quiet : Quiet s s := .refl s
  cases c with
  | powerOn => exact .next (keeps_startUp ..)
  | resetLineAssert => exact .next (keeps_hold s)
  | resetLineRelease => exact keeps_resetLineRelease s
  | frameStart trailing => exact keeps_frameStart s trailing
  | frameComplete words => exact keeps_frameComplete s words
  | frameWatchExpiry => exact .inside (.ite fun _ => same.enterLost)
  | setSlots p => exact kept_withArgs (handles_setSlots p)
  | contactChange b c made => exact .next (.inside (same.modInputOf b _))
  | positionDebounceExpiry b => exact keeps_positionDebounceExpiry s b
  | positionFault b => exact keeps_positionFault s b
  | keyInputChange made => exact keeps_keyInputChange made s
  | locationChanged => exact keeps_locationChanged s
  | farStateStale f => exact keeps_farStateStale s f
  | blindDeadlineExpiry f => exact .inside (.ite fun _ => (quiet.modFault f _).inside)
  | tripRequest f => exact keeps_tripRequest s f
  | tripConfirmLimit f => exact keeps_tripConfirmLimit s f
  | openFeeder p => exact kept_withArgs (handles_openFeeder p)
  | closeFeeder p => exact kept_withArgs (handles_closeFeeder p)
  | resetLockout p => exact kept_withArgs (handles_resetLockout p)
  | claimDeadline f => exact .inside (.ite fun _ => (quiet.claimTimeout f).inside)
  | testEnd f => exact keeps_testEnd s f
  | closeConfirmLimit f => exact keeps_closeConfirmLimit s f
  | recloseDue f => exact keeps_recloseDue s f
  | reclaimWatchExpiry f => exact .inside (.ite fun _ => (quiet.reclaim f).inside)
  | setFeeder p => exact kept_withArgs (handles_setFeeder p)
  | setStation p => exact kept_withArgs (handles_setStation p)
  | readSettings p => exact kept_withArgs fun _ => handles_report _
  | commitSettings p => exact kept_withArgs fun _ => handles_commit p
  | commitWriteEnd => exact keeps_commitWriteEnd s
  | readFeeders p => exact kept_withArgs fun _ => handles_report _
  | claim p => exact kept_takeRequest (handles_withItems (handles_claim p))
  | release p => exact kept_takeRequest (handles_withItems (handles_release p))
  | leaseExpiry i => exact keeps_leaseExpiry s i
  | zeroCrossing => exact .inside same.crossing
  | crossingWatchExpiry => exact .inside (.ite fun _ => same.watchOut)
  | tick => exact keeps_tick s
  | setAlpha p => exact kept_withArgs (handles_setAlpha p)
  | startRectifier p => exact kept_withArgs fun _ => handles_start p
  | stopRectifier p => exact kept_withArgs fun _ => handles_stop p
  | resetRectifier p => exact kept_withArgs fun _ => handles_reset p
  | readRectifier p => exact kept_withArgs fun _ => handles_report _
  | acCloseDeadline => exact keeps_acCloseDeadline s
  | acOpenDeadline => exact keeps_acOpenDeadline s
  | overvoltageRelease => exact keeps_overvoltageRelease s
  | linkWord l w => exact .inside (quiet.takeWord l w).inside
  | lightPresentChange l present => exact keeps_lightPresentChange s l present
  | linkWordTransmit l => exact .inside (.ite fun _ => (quiet.transmit l).inside)
  | acceptanceWindowClose l f => exact keeps_acceptanceWindowClose s l f
  | beaconPeriod l => exact keeps_beaconPeriod s l
  | beaconTimeout l => exact .inside (.ite fun _ => (quiet.modLink l _).inside)
  | segmentRefresh l => exact keeps_segmentRefresh s l
  | grantExpired f => exact keeps_grantExpired s f
  | writeSegment p => exact kept_withArgs (handles_writeSegment p)
  | readSegment p => exact kept_withArgs (handles_readSegment p)
  | readLinks p => exact kept_withArgs fun _ => handles_report _
  | secondBoundary => exact keeps_secondBoundary s
  | slewStep => exact keeps_slewStep s
  | setTime p => exact kept_withArgs (handles_setTime p)
  | timeRestart p => exact kept_withArgs fun _ => handles_timeRestart p
  | readTime p => exact kept_withArgs fun _ => handles_report _
  | loadSteps p => exact kept_withArgs handles_loadSteps
  | defineProgramme p => exact kept_withArgs handles_define
  | startProgramme p => exact kept_withArgs (handles_startProgramme p)
  | stepDue r => exact keeps_stepDue s r
  | waitLimitExpiry r => exact .inside (.ite fun _ => (quiet.failStep r _ none).inside)
  | suspend p => exact kept_withArgs (handles_withControl p (handles_suspend p))
  | resume p => exact kept_withArgs (handles_withControl p (handles_resume p))
  | stop p => exact kept_withArgs (handles_withControl p (handles_stopRunner p))
  | clear p => exact kept_withArgs (handles_withControl p (handles_clear p))
  | readRunners p => exact kept_withArgs fun _ => handles_report _
  | readEvents p => exact kept_withArgs (handles_readEvents p)
  | subscribe p => exact kept_withArgs (handles_subscribe p)
  | readCapture p => exact kept_withArgs fun _ => handles_report _
  | releaseCapture p => exact kept_withArgs handles_releaseCapture
  | requestFrameReceived p c => exact keeps_requestFrameReceived s p c
  | badFrame p => exact keeps_badFrame p s
  | badKind p => exact keeps_badKind p s
  | selectAsserted p => exact .next (.modPort s p id)
  | selectDeasserted p bytes => exact .next (keeps_deselect s p bytes)
  | responseSent p => exact keeps_responseSent s p
  | portReset p tag => exact keeps_portReset s p tag
  | identify p => exact kept_withArgs fun _ => handles_report _
  | frameLengthAbove256 p c => exact keeps_frameLengthAbove256 s p c

/-! ## Every step (log 1, log 2) -/

/-- Counting, posting and choosing leave all that the conditions speak of. -/
theorem keeps_idle (s : State) : Keeps s s.idle := by
  have posted (c : List Instr) (k : Nat) : Keeps s { s with pending := c, choices := k } :=
    { ports := id, authority := id, record := id, feeders := id, matching := id, rectifier := id, captures := id }
  have counted (x : TimeBase) : Keeps s { s with now := s.now + 1, time := x } :=
    { ports := id, authority := id, record := id, feeders := id, matching := id, rectifier := id, captures := id }
  unfold State.idle
  split
  · exact counted s.time
  · split
    · exact posted _ s.choices
    · split
      · exact posted _ s.choices
      · unfold State.postDue
        split
        · exact counted _
        · exact posted _ s.choices
        · exact posted _ _

/-- Every step keeps the conditions: the front command on the state with the queue's rest, or the clock. -/
theorem step_keeps {s t : State} (h : step s = .next t) : Keeps s t := by
  unfold step at h
  split at h
  case h_1 c rest _ =>
    have popped : Keeps s { s with pending := rest } :=
      { ports := id, authority := id, record := id, feeders := id, matching := id, rectifier := id, captures := id }
    exact popped.trans (exec_keeps c _ t h)
  case h_2 =>
    cases h
    exact keeps_idle s

/-- Settles O3: a frame enters only a free buffer and a request waits for room, whatever the command. -/
theorem stepKeepsBuffersBounded : Obligations.StepKeepsBuffersBounded := by
  intro s t h
  exact ⟨(step_keeps h).ports, (step_keeps h).captures⟩

/-- Settles O4: items are claimed under the location, and a change of the location takes them from those it excludes. -/
theorem stepKeepsAuthoritySound : Obligations.StepKeepsAuthoritySound := by
  intro s t sound h
  exact (step_keeps h).authority sound

/-- Settles O5: every change of the record adds entries one by one, or a cursor moves to an entry still kept. -/
theorem stepKeepsRecordSound : Obligations.StepKeepsRecordSound := by
  intro s t sound h
  exact (step_keeps h).record sound

/-- Settles O6: a Feeder Record changes by leading it into a state with that state's fields. -/
theorem stepKeepsFeedersAndMatchSound : Obligations.StepKeepsFeedersAndMatchSound := by
  intro s t h
  exact ⟨(step_keeps h).feeders, (step_keeps h).matching⟩

/-- Settles O7: applied alpha moves only toward angles in the range, and only in RUNNING. -/
theorem stepKeepsRectifierSound : Obligations.StepKeepsRectifierSound := by
  intro s t sound h
  exact (step_keeps h).rectifier sound

/-- Settles O8: the reset state is what start-up makes on an empty store. -/
theorem resetMeetsEveryCondition : Obligations.ResetMeetsEveryCondition := by
  have started : State.reset = startUp .powerOn State.reset := rfl
  have range : ∀ v, State.reset.store.copy = some v → v.angleRange := nofun
  rw [Obligations.ResetMeetsEveryCondition, started]
  exact ⟨startUp_ports _ _, startUp_authority _ _, startUp_record _ _, startUp_feeders _ _, startUp_matching _ _,
    startUp_rectifier _ _ range, startUp_captures _ _⟩

/-! ## The step function (log 1, log 2) -/

/-- Settles O1: on a queue with a front command, a step is that command on the rest. -/
theorem stepRunsTheFrontCommand : Obligations.StepRunsTheFrontCommand := fun _ _ => rfl

/-- An event due is posted, the free counter choosing among several (log 3). -/
theorem State.postDue_some (s : State) {l : List Instr} (h : l ≠ []) :
    ∃ c ∈ l, ∃ n, s.postDue l = { s with pending := [c], choices := n } := by
  match l with
  | [c] => exact ⟨c, List.mem_singleton_self c, s.choices, rfl⟩
  | c :: d :: rest =>
    have below : Config.choice s.choices % (c :: d :: rest).length < (c :: d :: rest).length :=
      Nat.mod_lt _ (Nat.succ_pos _)
    refine ⟨_, List.getElem_mem below, s.choices + 1, ?_⟩
    rw [State.postDue, List.getD_eq_getElem _ _ below]
    nofun

/-- Settles O2, branch by branch of the idle step. -/
theorem stepOnAnEmptyQueueActsAsTheClock : Obligations.StepOnAnEmptyQueueActsAsTheClock := by
  intro s empty
  have idles : step s = .next s.idle := by rw [step, empty]
  rw [idles]
  refine ⟨fun held => ?_, fun live slew => ?_, fun live slew boundary => ?_, fun live slew boundary due => ?_,
    fun live slew boundary due => ?_⟩
  · simp only [State.idle, held, if_true]
  · simp only [State.idle, live, slew, if_true, Bool.false_eq_true, if_false]
  · simp only [State.idle, live, slew, boundary, if_true, Bool.false_eq_true, if_false]
  · obtain ⟨c, member, n, posts⟩ := s.postDue_some due
    refine ⟨c, member, n, ?_⟩
    simp only [State.idle, live, slew, boundary, Option.isSome_none, Bool.false_eq_true, if_false, posts]
  · simp only [State.idle, live, slew, boundary, Option.isSome_none, Bool.false_eq_true, if_false, due, State.postDue,
      State.count]

end Sys2Proof.Machine

/-! Words received at an UP link: a signal alone, a signal beside data, and data alone (07 R131, R132, R136, R141 to R154). -/

namespace Sys2Proof.Machine

/-! ## A signal leaves the receive assembly (07 R152) -/

/-- The view of the receive assemblies of the links. -/
def assemblyView : View (LinkId → Assembly) :=
  { view := fun s l => (s.link l).assembly, choices := fun _ _ => rfl, events := fun _ _ => rfl,
    runners := fun _ _ => rfl, rect := fun _ _ => rfl, captures := fun _ _ => rfl }

theorem assembly_modLink (s : State) (l : LinkId) {g : SectionLink → SectionLink}
    (h : (g (s.link l)).assembly = (s.link l).assembly) : assemblyView.view (s.modLink l g) = assemblyView.view s := by
  funext m
  show ((s.modLink l g).link m).assembly = (s.link m).assembly
  rw [link_modLink]
  split
  case isTrue same => rw [same, h]
  case isFalse => rfl

theorem assembly_of_posts {s t : State} (h : OnlyPosts s t) : assemblyView.view t = assemblyView.view s := by
  funext m
  show (t.link m).assembly = (s.link m).assembly
  rw [h m]

theorem queue_assembly (k : SectionLink) (n : Fin 16) : (k.queue n).assembly = k.assembly := by
  rw [queue_only]

theorem assembly_queueSystem (s : State) : assemblyView.view s.queueSystem = assemblyView.view s := by
  funext m
  show (s.queueSystem.link m).assembly = (s.link m).assembly
  unfold State.queueSystem State.link
  rw [get_map]
  exact queue_assembly ..

theorem assembly_setQuality (s : State) (q : TimeQuality) : assemblyView.view (s.setQuality q) = assemblyView.view s := by
  unfold State.setQuality
  split
  · rfl
  · exact assembly_queueSystem _

theorem assembly_qualityChange (s : State) (q : TimeQuality) (l : LinkId) :
    assemblyView.view (s.qualityChange q l) = assemblyView.view s := by
  unfold State.qualityChange
  split
  · rfl
  · rw [assemblyView.addEntry, assembly_setQuality]

theorem assembly_delayNotice (s : State) (l : LinkId) : assemblyView.view (s.delayNotice l) = assemblyView.view s := by
  unfold State.delayNotice
  split
  · exact assembly_qualityChange ..
  · rfl

theorem measure_assembly (k : SectionLink) (m : Nat) : (k.measure m).assembly = k.assembly := by
  unfold SectionLink.measure
  split
  · rfl
  · split <;> rfl
  · split <;> rfl

theorem assembly_measureLoop (s : State) (l : LinkId) (m : Nat) :
    assemblyView.view (s.measureLoop l m) = assemblyView.view s := by
  have measured : assemblyView.view (s.modLink l fun k => k.measure m) = assemblyView.view s :=
    assembly_modLink s l (measure_assembly _ m)
  have queued := (assembly_modLink (s.modLink l fun k => k.measure m) l (g := fun k => k.queue 0) (queue_assembly _ 0)).trans
    measured
  unfold State.measureLoop State.linkEntry
  dsimp only
  split
  · exact measured
  · rw [assembly_delayNotice]
    split
    · exact (assemblyView.addEntry ..).trans queued
    · exact (assemblyView.addEntry ..).trans queued
    · exact queued

theorem assembly_takeEcho (s : State) (l : LinkId) (late : Bool) :
    assemblyView.view (s.takeEcho l late) = assemblyView.view s := by
  unfold State.takeEcho
  dsimp only
  split
  · rw [assembly_measureLoop]
    exact assembly_modLink s l rfl
  · exact assembly_modLink s l rfl

theorem assembly_judgeMark (s : State) (l : LinkId) (u : Upstream) :
    assemblyView.view (s.judgeMark l u) = assemblyView.view s := by
  unfold State.judgeMark
  dsimp only
  split
  · unfold State.timeStep
    dsimp only
    rw [assembly_qualityChange, assemblyView.addEntry]
    rfl
  · unfold State.timeConflict
    rw [assemblyView.addEntry, assembly_queueSystem]
    rfl
  · rw [assembly_qualityChange]
    rfl

theorem assembly_takeMark (s : State) (l : LinkId) (late : Bool) :
    assemblyView.view (s.takeMark l late) = assemblyView.view s := by
  unfold State.takeMark
  split
  · split
    · rfl
    · exact assembly_judgeMark ..
    · rfl
  · rfl

theorem assembly_transferTripCopy (s : State) (l : LinkId) (g : Feeder) :
    assemblyView.view (s.transferTripCopy l g) = assemblyView.view s := by
  unfold State.transferTripCopy
  split
  · exact assembly_modLink s l rfl
  · split
    · rfl
    · rw [assembly_of_posts (deliverTransferTrip_posts _ _ _)]
      exact assembly_modLink s l rfl

theorem takeSignal_assembly (s : State) (l : LinkId) (g : SlotSignal) :
    ((s.takeSignal l g).link l).assembly = (s.link l).assembly := by
  refine congrFun (f := assemblyView.view (s.takeSignal l g)) (g := assemblyView.view s) ?_ l
  unfold State.takeSignal
  split
  · rfl
  · exact assembly_transferTripCopy ..
  · exact assembly_of_posts (takeClaim_posts _ _ _)
  · exact assembly_of_posts (takeGrant_posts _ _ _)
  · exact assembly_of_posts (takeDone_posts _ _ _)
  · exact assembly_of_posts (onlyPosts_iff.mpr (bare_post ..))
  · exact assembly_takeEcho ..
  · exact assembly_takeMark ..

/-! ## Words with a signal (07 R136) -/

theorem heardOn_link (s : State) (l : LinkId) :
    (s.heardOn l).link l = SectionLink.aged { s.link l with badRun := 0 } := modLink_self ..

/-- A word with an IDLE data slot is its signal, on the link as the word finds it. -/
theorem hears_next {s : State} {l : LinkId} {w : RxWord} {g : SlotSignal} (h : s.hears l w g) :
    exec (.linkWord l w) s = .next ((s.heardOn l).takeSignal l g) := by
  refine hears_exec h ?_
  rw [takeSignal_assembly, modLink_self]
  obtain ⟨_, _, _, idle, _, _⟩ := h
  exact idle

theorem takesWord_acts {s : State} {l : LinkId} {w : RxWord} {g : SlotSignal} {signal : State → State → Prop}
    (acts : ∀ u : State, signal u (u.takeSignal l g)) (h : s.takesWord l w g) :
    ∃ t, exec (.linkWord l w) s = .next t ∧ InTurn l signal (fun u v => DataActs u v l w.data) (s.heardOn l) t :=
  takesWord_inTurn h (fun u _ => acts u) fun u _ => takeData_acts u l w.data

/-- Settles O49, from what an echo does at the link and what data does at the assembly. -/
theorem echoesMeasureTheLoop : Obligations.EchoesMeasureTheLoop := by
  intro l w s late
  exact ⟨fun h => ⟨_, hears_next h, takeEcho_acts _ l late⟩, takesWord_acts fun u => takeEcho_acts u l late⟩

/-- Settles O52, from what a second mark does at the Time Base and what data does at the assembly. -/
theorem marksSteerStationTime : Obligations.MarksSteerStationTime := by
  intro l w late s
  exact ⟨fun h => ⟨_, hears_next h, takeMark_acts _ l late⟩, takesWord_acts fun u => takeMark_acts u l late⟩

/-- Settles O60, signal by signal of the claim protocol. -/
theorem claimSignalsAreTaken : Obligations.ClaimSignalsAreTaken := by
  intro l w s g late
  exact ⟨fun h => ⟨_, hears_next h, takeClaim_acts _ l g⟩, takesWord_acts fun u => takeClaim_acts u l g,
    fun h => ⟨_, hears_next h, takeGrant_acts _ l g⟩, takesWord_acts fun u => takeGrant_acts u l g,
    fun h => ⟨_, hears_next h, takeDone_acts _ l g⟩, takesWord_acts fun u => takeDone_acts u l g⟩

/-! ## Words without a signal (07 R132, R153) -/

theorem linkWord_bad {s : State} {l : LinkId} {w : RxWord} (live : s.resetLine = false) (light : (s.link l).light = true)
    (bad : goodSignal w = none) : exec (.linkWord l w) s = .next (s.badWordAt l) := by
  refine (live_next live _).trans ?_
  rw [if_pos light, bad]

/-- A bad word while UP that does not take the link down: it ages the windows and breaks off a segment under reception. -/
theorem badWordAt_up {s : State} {l : LinkId} (up : (s.link l).state = .up) (few : (s.link l).badRun + 1 < 8) :
    s.badWordAt l = (s.modLink l fun k => k.badWord.ageWindows).takeData l none := by
  have run : ((s.modLink l fun k => k.badWord.ageWindows).link l).badRun < 8 := by
    rw [modLink_self]
    exact few
  unfold State.badWordAt
  rw [up]
  exact if_pos run

theorem takeData_broken {s : State} {l : LinkId} (busy : (s.link l).assembly ≠ .idle) :
    s.takeData l none = s.modLink l fun k => { k with
      assembly := .idle, counters := { k.counters with segFraming := min (k.counters.segFraming + 1) 65535 } } := by
  unfold State.takeData
  cases moves : (s.link l).assembly with
  | idle => exact absurd moves busy
  | _ => rfl

/-- Settles O59: a word without a signal is its data; a bad one breaks off the segment under reception. -/
theorem segmentsAreReceived : Obligations.SegmentsAreReceived := by
  refine fun l w s => ⟨fun takes => ?_, fun live light up bad busy few => ?_⟩
  · refine ⟨_, takesWord_exec takes, ?_⟩
    rw [takeSlots_nothing]
    exact takeData_acts ..
  · rw [linkWord_bad live light bad, badWordAt_up up few, takeData_broken, modLink_modLink]
    · rfl
    · rw [modLink_self]
      exact busy

end Sys2Proof.Machine

/-! The Capture Unit: the buffer that a trip takes, and a frame that reaches the histories and the FILLING buffers (10 R191 to
R193); one part of an event among the others (10 R184). -/

namespace Sys2Proof.Machine

/-! ## One part of an event among the others (log 3) -/

section member

variable {ι : Type} [DecidableEq ι] {l : List ι} {i : ι}

/-- The part of one index acts once, among the parts of the other indices and further parts. -/
theorem together_member (once : l.Nodup) (member : i ∈ l) (act : ι → State → State) (A B : List (State → State)) (s : State) :
    ∃ before after u k, (∀ part ∈ before ++ after, part ∈ A ∨ part ∈ B ∨ ∃ j, j ≠ i ∧ part = act j) ∧
      (∀ part ∈ before ++ after, part ∈ A ++ l.map act ++ B) ∧ Runs before s u ∧
      Runs after (act i { u with choices := k }) (together (A ++ l.map act ++ B) s) := by
  have listed : act i ∈ A ++ l.map act ++ B :=
    List.mem_append_left _ (List.mem_append_right _ (List.mem_map_of_mem member))
  obtain ⟨before, after, u, k, perm, first, second⟩ := together_around listed s
  have apart : (A ++ l.map act ++ B).Perm (act i :: (A ++ (l.erase i).map act ++ B)) := by
    have taken : (l.map act).Perm (act i :: (l.erase i).map act) := (List.perm_cons_erase member).map act
    exact ((taken.append_left A).append_right B).trans (List.perm_middle.append_right B)
  have others := (List.perm_middle.symm.trans (perm.trans apart)).cons_inv
  refine ⟨before, after, u, k, fun part among => ?_, fun part among => ?_, first, second⟩
  · have found := others.mem_iff.mp among
    rw [List.mem_append, List.mem_append, List.mem_map] at found
    obtain (inA | ⟨j, kept, rfl⟩) | inB := found
    · exact .inl inA
    · exact .inr (.inr ⟨j, (once.mem_erase_iff.mp kept).1, rfl⟩)
    · exact .inr (.inl inB)
  · exact apart.mem_iff.mpr (List.mem_cons_of_mem _ (others.mem_iff.mp among))

/-- A view that only the part of one index changes: what that part does, from a state with the same view. -/
theorem together_member_view {β : Type} {view : State → β} (once : l.Nodup) (member : i ∈ l) (act : ι → State → State)
    (A B : List (State → State)) (s : State) (choices : ∀ (u : State) k, view { u with choices := k } = view u)
    (others : ∀ j, j ≠ i → ∀ u, view (act j u) = view u) (further : ∀ part, part ∈ A ∨ part ∈ B → ∀ u, view (part u) = view u)
    (quiet : ∀ part ∈ A ++ l.map act ++ B, ∀ u, Quiet u (part u)) :
    ∃ u, view u = view s ∧ Quiet s u ∧ view (together (A ++ l.map act ++ B) s) = view (act i u) ∧
      Quiet (act i u) (together (A ++ l.map act ++ B) s) := by
  obtain ⟨before, after, u, k, apart, among, first, second⟩ := together_member once member act A B s
  have left : ∀ part ∈ before ++ after, ∀ v, view (part v) = view v := by
    intro part listed v
    obtain inA | inB | ⟨j, differs, rfl⟩ := apart part listed
    · exact further part (.inl inA) v
    · exact further part (.inr inB) v
    · exact others j differs v
  refine ⟨{ u with choices := k }, (choices u k).trans (first.leaves choices fun part h => left part (List.mem_append_left _ h)),
    (first.quiet fun part h => quiet part (among part (List.mem_append_left _ h))).choices k,
    second.leaves choices fun part h => left part (List.mem_append_right _ h),
    second.quiet fun part h => quiet part (among part (List.mem_append_right _ h))⟩

end member

/-! ## CAPTURE HELD (10 R193) -/

theorem State.captureHeldEntry_adds (s : State) (n : Fin 4) (c : Capture) :
    AddsCaptureHeld s (s.captureHeldEntry n c) n c :=
  (AddsEntry.add s ..).mono fun _ ⟨kind, subject, origin, detail, capture, value1, value2⟩ =>
    ⟨kind, subject, origin, detail, capture, fun fits => value1 (inField_nat fits), fun fits => value2 (inField_nat fits)⟩

/-! ## A frame at the buffers (10 R193) -/

section fillCapture

variable {s : State} {n : Fin 4} {x : Feeder → Triple}

theorem State.fillCapture_free (free : s.captures.buffers.get n = none) : s.fillCapture n x = s := by
  simp only [State.fillCapture, free]

theorem State.fillCapture_held {c : Capture} (found : s.captures.buffers.get n = some c) (held : c.held = true) :
    s.fillCapture n x = s := by
  simp only [State.fillCapture, found, held, if_true]

theorem State.fillCapture_filling {c : Capture} (found : s.captures.buffers.get n = some c) (filling : c.held = false)
    (short : c.triples.length + 1 < c.pre + 192) :
    s.fillCapture n x = s.setBuffer n (some { c with triples := c.triples ++ [x c.feeder] }) := by
  simp only [State.fillCapture, found, filling, Bool.false_eq_true, if_false, List.length_append, List.length_singleton,
    if_pos short]

theorem State.fillCapture_full {c : Capture} (found : s.captures.buffers.get n = some c) (filling : c.held = false)
    (full : c.pre + 192 ≤ c.triples.length + 1) (d : Capture)
    (last : d = { c with triples := c.triples ++ [x c.feeder], held := true }) :
    s.fillCapture n x = (s.setBuffer n (some d)).captureHeldEntry n d := by
  rw [last]
  simp only [State.fillCapture, found, filling, Bool.false_eq_true, if_false, List.length_append, List.length_singleton,
    if_neg (Nat.not_lt.mpr full)]

end fillCapture

theorem State.setBuffer_other (s : State) {m n : Fin 4} (c : Option Capture) (h : m ≠ n) :
    (s.setBuffer m c).captures.buffers.get n = s.captures.buffers.get n := File.get_set_ne _ _ h.symm

theorem State.fillCapture_other (s : State) {m n : Fin 4} (x : Feeder → Triple) (h : m ≠ n) :
    (s.fillCapture m x).captures.buffers.get n = s.captures.buffers.get n := by
  unfold State.fillCapture
  split
  · split
    · rfl
    · dsimp only
      split
      · exact s.setBuffer_other _ h
      · exact s.setBuffer_other _ h
  · rfl

/-- The histories and the frame on its way, which a change of buffers leaves. -/
def CaptureUnit.beside (u : CaptureUnit) : File (List Triple) 8 × Option Quantities := (u.histories, u.late)

theorem State.fillCapture_beside (s : State) (n : Fin 4) (x : Feeder → Triple) :
    (s.fillCapture n x).captures.beside = s.captures.beside := by
  unfold State.fillCapture
  split
  · split
    · rfl
    · dsimp only
      split <;> rfl
  · rfl

section fillParts

variable {A B : List (State → State)}

/-- A frame at one buffer, among the parts of its event. -/
theorem fillParts_buffer (q : Quantities) (s : State) (n : Fin 4)
    (leaves : ∀ part, part ∈ A ∨ part ∈ B → ∀ u, (part u).captures = u.captures)
    (quiet : ∀ part, part ∈ A ∨ part ∈ B → ∀ u, Quiet u (part u)) :
    ∃ u : State, u.captures.buffers.get n = s.captures.buffers.get n ∧ Grows s.events u.events ∧
      (together (A ++ fillParts q ++ B) s).captures.buffers.get n = (u.fillCapture n q.triple).captures.buffers.get n ∧
      Grows (u.fillCapture n q.triple).events (together (A ++ fillParts q ++ B) s).events := by
  have all : ∀ part ∈ A ++ fillParts q ++ B, ∀ u, Quiet u (part u) := by
    intro part member u
    simp only [List.mem_append] at member
    obtain (inA | fills) | inB := member
    · exact quiet part (.inl inA) u
    · exact Quiet.fillParts fills (.refl u)
    · exact quiet part (.inr inB) u
  obtain ⟨u, found, before, left, after⟩ := together_member_view (view := fun t => t.captures.buffers.get n)
    (List.nodup_finRange 4) (List.mem_finRange n) (fun n t => State.fillCapture t n q.triple) A B s (fun _ _ => rfl)
    (fun j differs u => u.fillCapture_other _ differs)
    (fun part other u => congrArg (fun c => c.buffers.get n) (leaves part other u)) all
  exact ⟨u, found, before.grows, left, after.grows⟩

theorem fillParts_beside (q : Quantities) (s : State)
    (leaves : ∀ part, part ∈ A ∨ part ∈ B → ∀ u, (part u).captures = u.captures) :
    (together (A ++ fillParts q ++ B) s).captures.beside = s.captures.beside := by
  refine together_leaves (fun t => t.captures.beside) (A ++ fillParts q ++ B) s (fun _ _ => rfl) fun part member u => ?_
  simp only [List.mem_append] at member
  obtain (inA | fills) | inB := member
  · exact congrArg CaptureUnit.beside (leaves part (.inl inA) u)
  · obtain ⟨n, -, rfl⟩ := List.mem_map.mp fills
    exact u.fillCapture_beside ..
  · exact congrArg CaptureUnit.beside (leaves part (.inr inB) u)

theorem pushTriple_short {h : List Triple} (x : Triple) (short : h.length < 64) : pushTriple h x = h ++ [x] := by
  rw [pushTriple, List.length_append, List.length_singleton, Nat.sub_eq_zero_of_le short, List.drop_zero]

theorem pushTriple_full {h : List Triple} (x : Triple) (full : h.length = 64) : pushTriple h x = h.tail ++ [x] := by
  rw [pushTriple, List.length_append, full, List.length_singleton, List.drop_append_of_le_length (by omega),
    Nat.add_sub_cancel_left, List.drop_one]

theorem triple_eq (q : Quantities) : q.triple = frameTriple q := rfl

theorem State.frameHistories_get (s : State) (q : Quantities) (f : Feeder) :
    (s.frameHistories q).captures.histories.get f = pushTriple (s.captures.histories.get f) (frameTriple q f) := by
  fin_cases f <;> rfl

/-- A frame at the histories and every FILLING buffer in one arrival (10 R191, R193). -/
theorem fillParts_reaches_among (q : Quantities) (s : State)
    (leaves : ∀ part, part ∈ A ∨ part ∈ B → ∀ u, (part u).captures = u.captures)
    (quiet : ∀ part, part ∈ A ∨ part ∈ B → ∀ u, Quiet u (part u)) :
    ReachesCaptures s (together (A ++ fillParts q ++ B) (s.frameHistories q)) s.captures
      (together (A ++ fillParts q ++ B) (s.frameHistories q)).captures q := by
  have beside := fillParts_beside q (s.frameHistories q) leaves
  obtain ⟨histories, late⟩ := Prod.mk.injEq .. ▸ beside
  refine ⟨late, fun f => ⟨fun short => ?_, fun full => ?_⟩, fun n free => ?_, fun n c found =>
    ⟨fun held => ?_, fun filling short => ?_, fun filling full => ?_⟩⟩
  · rw [histories, s.frameHistories_get, pushTriple_short _ short]
  · rw [histories, s.frameHistories_get, pushTriple_full _ full]
  · obtain ⟨u, same, -, left, -⟩ := fillParts_buffer q (s.frameHistories q) n leaves quiet
    rw [left, State.fillCapture_free (same.trans free)]
    exact same.trans free
  all_goals
    obtain ⟨u, same, before, left, after⟩ := fillParts_buffer q (s.frameHistories q) n leaves quiet
    have found := same.trans found
  · rw [left, State.fillCapture_held found held]
    exact found
  · rw [left, State.fillCapture_filling found filling short, triple_eq]
    exact File.get_set_self ..
  · rw [State.fillCapture_full found filling full _ rfl] at left after
    refine ⟨left.trans (File.get_set_self ..), ?_⟩
    exact ((State.captureHeldEntry_adds (u.setBuffer n _) n _).earlier before).later after

end fillParts

theorem fillParts_reaches (q : Quantities) (s : State) :
    ReachesCaptures s (together (fillParts q) (s.frameHistories q)) s.captures
      (together (fillParts q) (s.frameHistories q)).captures q := by
  have reaches := fillParts_reaches_among (A := []) (B := []) q s (fun _ h => by simp at h) (fun _ h => by simp at h)
  rwa [List.nil_append, List.append_nil] at reaches

theorem ReachesCaptures.grows {s s' t t' : State} {u v : CaptureUnit} {q : Quantities} (h : ReachesCaptures s t u v q)
    (before : Grows s'.events s.events) (after : Grows t.events t'.events) : ReachesCaptures s' t' u v q := by
  obtain ⟨late, histories, free, buffers⟩ := h
  refine ⟨late, histories, free, fun n c found => ?_⟩
  obtain ⟨held, filling, full⟩ := buffers n c found
  refine ⟨held, filling, fun fills last => ?_⟩
  obtain ⟨becomes, adds⟩ := full fills last
  exact ⟨becomes, (AddsEntry.earlier adds before).later after⟩

theorem LateFrameReaches.grows {s s' t t' : State} {u v : CaptureUnit} (h : LateFrameReaches s t u v)
    (before : Grows s'.events s.events) (after : Grows t.events t'.events) : LateFrameReaches s' t' u v :=
  ⟨h.1, fun q late => (h.2 q late).grows before after⟩

/-- A frame still on its way reaches the histories and every FILLING buffer (log 32). -/
theorem State.settleCaptures_reaches (s : State) :
    LateFrameReaches s s.settleCaptures s.captures s.settleCaptures.captures := by
  unfold State.settleCaptures
  refine ⟨fun none => by rw [none], fun q late => ?_⟩
  rw [late]
  exact fillParts_reaches q s

/-! ## The buffer that a trip takes (10 R192) -/

theorem CaptureUnit.filling_iff (u : CaptureUnit) (f : Feeder) :
    u.filling f = true ↔ ∃ m c, u.buffers.get m = some c ∧ c.held = false ∧ c.feeder = f := by
  unfold CaptureUnit.filling
  rw [List.any_eq_true]
  constructor
  · rintro ⟨x, member, fills⟩
    obtain ⟨k, below, rfl⟩ := List.getElem_of_mem member
    have lt : k < 4 := u.buffers.size ▸ below
    have cell : u.buffers.get ⟨k, lt⟩ = u.buffers.cells[k] := File.get_eq_getElem ..
    split at fills
    case h_1 c found =>
      simp only [Bool.and_eq_true, Bool.not_eq_true', decide_eq_true_eq] at fills
      obtain ⟨filling, feeder⟩ := fills
      exact ⟨⟨k, lt⟩, c, cell.trans found, filling, feeder⟩
    case h_2 => cases fills
  · rintro ⟨m, c, found, filling, feeder⟩
    refine ⟨some c, ?_, by simp [filling, feeder]⟩
    rw [← found, File.get_eq_getElem]
    exact List.getElem_mem _

theorem CaptureUnit.firstFree_eq_some_iff (u : CaptureUnit) (n : Fin 4) :
    u.firstFree = some n ↔ u.buffers.get n = none ∧ ∀ m : Fin 4, m.val < n.val → u.buffers.get m ≠ none := by
  unfold CaptureUnit.firstFree
  constructor
  · intro found
    obtain ⟨free, before, after, split, taken⟩ := List.find?_eq_some_iff_append.mp found
    refine ⟨Option.isNone_iff_eq_none.mp free, fun m below none => ?_⟩
    have placed : m ∈ before := by
      have order : ([0, 1, 2, 3] : List (Fin 4)).Pairwise (· < ·) := by decide
      rw [split, List.pairwise_append] at order
      obtain ⟨-, later, -⟩ := order
      have member : m ∈ before ++ n :: after := split ▸ (by fin_cases m <;> decide)
      refine (List.mem_append.mp member).resolve_right fun inAfter => ?_
      rcases List.mem_cons.mp inAfter with same | inAfter
      · exact absurd (congrArg Fin.val same) (ne_of_lt below)
      · exact absurd (List.rel_of_pairwise_cons later inAfter) (not_lt.mpr (le_of_lt below))
    have := taken m placed
    rw [none] at this
    cases this
  · rintro ⟨free, taken⟩
    have held (m : Fin 4) (below : m.val < n.val) : (u.buffers.get m).isNone = false := by
      have := taken m below
      cases found : u.buffers.get m with
      | none => exact absurd found this
      | some => rfl
    have found : (u.buffers.get n).isNone = true := by rw [free]; rfl
    fin_cases n
    · simp_all
    · have h0 := held 0 (by decide)
      simp_all
    · have h0 := held 0 (by decide)
      have h1 := held 1 (by decide)
      simp_all
    · have h0 := held 0 (by decide)
      have h1 := held 1 (by decide)
      have h2 := held 2 (by decide)
      simp_all

theorem State.captureFor_eq_some_iff (s : State) (f : Feeder) (n : Fin 4) : s.captureFor f = some n ↔ s.freeFor f n := by
  unfold State.captureFor State.freeFor
  have idle : ¬s.captures.filling f = true ↔
      ∀ m c, s.captures.buffers.get m = some c → c.held = false → c.feeder ≠ f := by
    rw [CaptureUnit.filling_iff]
    push Not
    rfl
  by_cases fills : s.captures.filling f = true
  · rw [if_pos fills]
    exact ⟨nofun, fun ⟨others, _⟩ => absurd fills (idle.mpr others)⟩
  · rw [if_neg fills, CaptureUnit.firstFree_eq_some_iff]
    exact (and_iff_right (idle.mp fills)).symm

theorem State.captureFor_eq_none_iff (s : State) (f : Feeder) : s.captureFor f = none ↔ ∀ n, ¬s.freeFor f n := by
  rw [Option.eq_none_iff_forall_ne_some]
  exact forall_congr' fun n => not_congr (s.captureFor_eq_some_iff f n)

end Sys2Proof.Machine

/-! A feeder's notices and a trip: the record, the entries, the capture, FAULT_RETARD and the far link (04 R60, R61; 06 R116;
10 R192). -/

namespace Sys2Proof.Machine

/-! ## The notices of a feeder that is not in BREAKER_FAILED (02 R25) -/

section notices

variable {s : State} {old : FeederState} {f : Feeder}

theorem feederNotices_of_same (same : (s.feeder f).state = old) : s.feederNotices old f = s := if_pos same

/-- Only an entry into BREAKER_FAILED reaches more than Fault Detection, the retard feeders and the far link. -/
theorem feederNotices_of_moved (moved : (s.feeder f).state ≠ old) (running : (s.feeder f).state ≠ .breakerFailed) :
    s.feederNotices old f = ((s.protectionNotice old f).retardNotice f).queueFeederEnd f := by
  have quiet (u : State) (same : u.feeder f = s.feeder f) : u.failureNotice f = u := by
    refine if_neg ?_
    rw [same]
    simp [running]
  refine (if_neg moved).trans (quiet _ ?_)
  rw [queueFeederEnd_feeder]
  rfl

theorem queueFeederEnd_frame (s : State) (f : Feeder) : s.queueFeederEnd f = { s with links := (s.queueFeederEnd f).links } := by
  unfold State.queueFeederEnd
  split <;> rfl

/-- The retard feeders after a state notice (06 R116). -/
def State.retardAfter (s : State) (f : Feeder) : Bool :=
  (s.feeder f).state == .tripping && ((s.feeder f).lastTripCause == .imax || (s.feeder f).lastTripCause == .rise)

theorem feederNotices_rect (moved : (s.feeder f).state ≠ old) (running : (s.feeder f).state ≠ .breakerFailed) :
    (s.feederNotices old f).rect = { s.rect with retard := s.rect.retard.set f (s.retardAfter f) } := by
  rw [feederNotices_of_moved moved running, queueFeederEnd_frame]
  rfl

theorem feederNotices_frame (running : (s.feeder f).state ≠ .breakerFailed) :
    s.feederNotices old f = { s with
      faults := (s.feederNotices old f).faults, rect := (s.feederNotices old f).rect,
      links := (s.feederNotices old f).links } := by
  by_cases moved : (s.feeder f).state = old
  · rw [feederNotices_of_same moved]
  · rw [feederNotices_of_moved moved running, queueFeederEnd_frame]
    rfl

end notices

/-! ## The parts of a trip (04 R60, R61) -/

section trip

variable (s : State) (f : Feeder) (c : TripCause) (o : Origin) (b : Bool) (v w : Option Int)

/-- Entry into TRIPPING, and the CLOSE RESULT of a close overtaken, before the TRIP entry (04 R60). -/
def State.tripBegun : State :=
  match (s.feeder f).state, (s.feeder f).operation with
  | .closing, some op => (s.toTripping f c o).closeResultEntry f op (.aborted c.overtaking)
  | _, _ => s.toTripping f c o

theorem tripTaken_eq : s.tripTaken f c o b v w =
    if c.protective then ((s.tripBegun f c o).tripEntry f c o b v w).postFar f .transferTrip
    else (s.tripBegun f c o).tripEntry f c o b v w := rfl

theorem tripBegun_frame : s.tripBegun f c o = { s with
    feeders := (s.toTripping f c o).feeders, events := (s.tripBegun f c o).events,
    choices := (s.tripBegun f c o).choices } := by
  unfold State.tripBegun
  split <;> rfl

theorem tripBegun_grows : Grows s.events (s.tripBegun f c o).events := by
  unfold State.tripBegun
  split
  · exact Grows.addEntry (s.toTripping f c o) ..
  · exact .refl _

theorem toTripping_feeder : (s.toTripping f c o).feeder f = s.trippingRecord f c o := State.modFeeder_feeder_self ..

theorem tripBegun_feeder : (s.tripBegun f c o).feeder f = s.trippingRecord f c o := by
  rw [tripBegun_frame]
  exact toTripping_feeder s f c o

/-- A close overtaken by a trip ends with its CLOSE RESULT (04 R60). -/
theorem tripBegun_closeResult {op : Operation} (closing : (s.feeder f).state = .closing)
    (operation : (s.feeder f).operation = some op) :
    AddsEntry s (s.tripBegun f c o) (IsCloseResult s f op (.aborted c.overtaking) (s.feeder f).attempts) := by
  have begun : s.tripBegun f c o = (s.toTripping f c o).closeResultEntry f op (.aborted c.overtaking) := by
    unfold State.tripBegun
    rw [closing, operation]
  have attempts : ((s.toTripping f c o).feeder f).attempts = (s.feeder f).attempts := by
    rw [toTripping_feeder]
    rfl
  rw [begun]
  refine (AddsEntry.add (s.toTripping f c o) ..).mono fun e ⟨kind, subject, origin, detail, _, value1, value2⟩ => ?_
  rw [attempts] at value2
  exact ⟨kind, subject, origin, detail, fun fits => value1 (inField_nat fits), fun few => value2 (inField_nat (by omega))⟩

theorem tripEntry_grows : Grows s.events (s.tripEntry f c o b v w).events :=
  (Quiet.tripEntry (.refl s) f c o b v w).grows

theorem postFar_frame (g : Feeder → Signal) : s.postFar f g = { s with links := (s.postFar f g).links } := by
  unfold State.postFar
  split <;> rfl

/-- What a trip posts reaches the links alone. -/
theorem tripTaken_frame : s.tripTaken f c o b v w = { (s.tripBegun f c o).tripEntry f c o b v w with
    links := (s.tripTaken f c o b v w).links } := by
  rw [tripTaken_eq]
  split
  · rw [postFar_frame]
  · rfl

theorem tripTaken_feeder : (s.tripTaken f c o b v w).feeder f = s.trippingRecord f c o := by
  have entry := feedersView.tripEntry (s.tripBegun f c o) f c o b v w
  rw [tripTaken_frame]
  exact (congrArg (fun x => File.get x f) entry).trans (tripBegun_feeder s f c o)

end trip

/-! ## What a trip reaches in other blocks (04 R60, R61) -/

section tripFeeder

variable (s : State) (f : Feeder) (c : TripCause) (o : Origin) (b : Bool) (v w : Option Int)

theorem heldAtStart_frame (u : State) (n : Option (Fin 4)) :
    u.heldAtStart n = { u with events := (u.heldAtStart n).events, choices := (u.heldAtStart n).choices } := by
  unfold State.heldAtStart
  split
  · split
    · split <;> rfl
    · rfl
  · rfl

/-- CAPTURE HELD, where there is one, reaches the record and the free counter, before or after the notices. -/
theorem tripFeeder_ends : ∃ e k e' k', s.tripFeeder f c o b v w =
    { State.tripEnded { s.tripTaken f c o b v w with events := e, choices := k } (s.feeder f).state f
        (.aborted c.overtaking) with events := e', choices := k' } := by
  unfold State.tripFeeder
  obtain ⟨x, -, first | second⟩ := together_two (fun t => t.heldAtStart (s.captureAsked f c))
    (fun t => t.tripEnded (s.feeder f).state f (.aborted c.overtaking)) (s.tripTaken f c o b v w)
  · rw [heldAtStart_frame] at first
    exact ⟨_, _, _, _, first⟩
  · rw [heldAtStart_frame] at second
    exact ⟨_, _, _, _, second⟩

/-- What a trip reaches in other blocks leaves what the notices of a feeder in TRIPPING leave. -/
theorem tripEnded_view {β : Type} (V : Aside β) {old : FeederState} {u : State}
    (notices : ∀ u : State, (u.feeder f).state = .tripping → V.view (u.feederNotices old f) = V.view u)
    (state : (u.feeder f).state = .tripping) (x : CloseResult) : V.view (u.tripEnded old f x) = V.view u := by
  have told : ((u.closeToRunners f x).feeder f).state = .tripping :=
    (congrArg (fun x => (File.get x f).state) (feedersView.closeToRunners ..)).trans state
  unfold State.tripEnded State.closeEnded
  split
  · exact (notices _ told).trans (V.closeToRunners ..)
  · exact notices _ state

/-- What a trip leaves of a view of other blocks: what the notices of a feeder in TRIPPING leave. -/
theorem tripFeeder_view {β : Type} (V : Aside β)
    (notices : ∀ u : State, (u.feeder f).state = .tripping → V.view (u.feederNotices (s.feeder f).state f) = V.view u) :
    V.view (s.tripFeeder f c o b v w) = V.view (s.tripTaken f c o b v w) := by
  have state := congrArg FeederRecord.state (tripTaken_feeder s f c o b v w)
  obtain ⟨e, k, e', k', ends⟩ := tripFeeder_ends s f c o b v w
  generalize s.tripTaken f c o b v w = t at state ends ⊢
  rw [ends]
  refine (V.choices _ k').trans ((V.events _ e').trans ?_)
  refine Eq.trans ?_ ((V.choices { t with events := e } k).trans (V.events t e))
  exact tripEnded_view f V (u := { t with events := e, choices := k }) notices state _

theorem tripFeeder_feeder : (s.tripFeeder f c o b v w).feeder f = s.trippingRecord f c o := by
  have same := tripFeeder_view s f c o b v w feedersView.toAside fun u _ =>
    File.ext_get fun g => feederNotices_feeder u _ f g
  exact (congrArg (fun x => File.get x f) same).trans (tripTaken_feeder s f c o b v w)

theorem tripFeeder_sections : (s.tripFeeder f c o b v w).sections = s.sections := by
  refine (tripFeeder_view s f c o b v w sectionsView.toAside fun u _ => feederNotices_sections ..).trans ?_
  rw [tripTaken_frame]
  refine (sectionsView.tripEntry ..).trans ?_
  rw [tripBegun_frame]
  rfl

theorem feederNotices_captures {u : State} (old : FeederState) (state : (u.feeder f).state = .tripping) :
    capturesView.view (u.feederNotices old f) = capturesView.view u := by
  rw [feederNotices_frame (ne_of_eq_of_ne state nofun)]
  rfl

theorem tripFeeder_captures :
    (s.tripFeeder f c o b v w).captures = ((s.tripBegun f c o).tripEntry f c o b v w).captures := by
  refine (tripFeeder_view s f c o b v w capturesView fun u state => feederNotices_captures f _ state).trans ?_
  rw [tripTaken_frame]
  rfl

theorem tripFeeder_grows :
    Grows ((s.tripBegun f c o).tripEntry f c o b v w).events (s.tripFeeder f c o b v w).events := by
  have taken : (s.tripTaken f c o b v w).events = ((s.tripBegun f c o).tripEntry f c o b v w).events := by
    rw [tripTaken_frame]
  rw [← taken]
  refine (Quiet.together _ (.refl _) fun part member u quiet => ?_).grows
  simp only [List.mem_cons, List.not_mem_nil, or_false] at member
  obtain rfl | rfl := member
  · exact quiet.heldAtStart _
  · exact quiet.tripEnded _ f _

theorem tripFeeder_only : OnlyFeeder s (s.tripFeeder f c o b v w) f :=
  onlyFeeder_of (Quiet.tripFeeder (.refl s) f c o b v w) fun _ other => (records_apart other).tripFeeder s c o b v w

/-- A close overtaken by a trip ends with its CLOSE RESULT (04 R60). -/
theorem tripFeeder_closeResult {op : Operation} (closing : (s.feeder f).state = .closing)
    (operation : (s.feeder f).operation = some op) :
    AddsEntry s (s.tripFeeder f c o b v w) (IsCloseResult s f op (.aborted c.overtaking) (s.feeder f).attempts) :=
  ((tripBegun_closeResult s f c o closing operation).later (tripEntry_grows ..)).later (tripFeeder_grows ..)

/-! ## FAULT_RETARD and the far link (04 R61; 06 R116) -/

theorem tripTaken_rect : (s.tripTaken f c o b v w).rect = s.rect := by
  have entry : ((s.tripBegun f c o).tripEntry f c o b v w).rect = (s.tripBegun f c o).rect := by
    unfold State.tripEntry
    split <;> rfl
  rw [tripTaken_frame]
  refine entry.trans ?_
  rw [tripBegun_frame]

/-- FAULT_RETARD follows the entry into TRIPPING; nothing else of the rectifier changes (06 R116). -/
theorem tripFeeder_rect (moved : (s.feeder f).state ≠ .tripping) : (s.tripFeeder f c o b v w).rect =
    { s.rect with retard := s.rect.retard.set f (decide (c = .imax ∨ c = .rise)) } := by
  have record := tripTaken_feeder s f c o b v w
  have rect := tripTaken_rect s f c o b v w
  obtain ⟨e, k, e', k', ends⟩ := tripFeeder_ends s f c o b v w
  generalize s.tripTaken f c o b v w = t at record rect ends
  have noticed (u : State) (same : u.feeder f = s.trippingRecord f c o) (left : u.rect = s.rect) :
      (u.feederNotices (s.feeder f).state f).rect =
        { s.rect with retard := s.rect.retard.set f (decide (c = .imax ∨ c = .rise)) } := by
    have state := congrArg FeederRecord.state same
    have after : u.retardAfter f = decide (c = .imax ∨ c = .rise) := by
      rw [State.retardAfter, same]
      cases c <;> rfl
    rw [feederNotices_rect (ne_of_eq_of_ne state moved.symm) (ne_of_eq_of_ne state nofun), after, left]
  rw [ends]
  show (State.tripEnded _ _ f _).rect = _
  unfold State.tripEnded State.closeEnded
  split
  · refine noticed _ ((congrArg (fun x => File.get x f) (feedersView.closeToRunners ..)).trans record) ?_
    exact (rectView.closeToRunners ..).trans rect
  · exact noticed _ record rect

/-- The view of what is pending on a link. -/
def pendingView (l : LinkId) : View (List PendingSignal) :=
  { view := fun s => (s.link l).pendingSet, choices := fun _ _ => rfl, events := fun _ _ => rfl, runners := fun _ _ => rfl,
    rect := fun _ _ => rfl, captures := fun _ _ => rfl }

theorem tripEntry_links (u : State) : (u.tripEntry f c o b v w).links = u.links := linksView.tripEntry ..

theorem tripFeeder_pendingSet (l : LinkId) :
    ((s.tripFeeder f c o b v w).link l).pendingSet = ((s.tripTaken f c o b v w).link l).pendingSet :=
  tripFeeder_view s f c o b v w (pendingView l).toAside fun u _ => feederNotices_pendingSet u _ f l

theorem tripBegun_links : (s.tripBegun f c o).links = s.links := by
  rw [tripBegun_frame]

/-- A trip that is not protective posts no signal (04 R61). -/
theorem tripFeeder_pendingSet_of_not_protective (other : c.protective = false) (l : LinkId) :
    ((s.tripFeeder f c o b v w).link l).pendingSet = (s.link l).pendingSet := by
  rw [tripFeeder_pendingSet, tripTaken_eq, other]
  have links := (tripEntry_links f c o b v w (s.tripBegun f c o)).trans (tripBegun_links s f c o)
  exact congrArg (fun x : File SectionLink 2 => (x.get l.index).pendingSet) links

/-- A protective trip posts TRANSFER TRIP, three copies, on an UP far link (04 R61). -/
theorem tripFeeder_transferTrip (protective : c.protective = true) {l : LinkId} (far : (s.config f).farLink = some l)
    (up : (s.link l).state = .up) :
    ∃ e ∈ ((s.tripFeeder f c o b v w).link l).pendingSet, e.signal = .transferTrip (s.config f).farFeeder ∧ e.repeats = 3 := by
  have settings := (Quiet.tripTaken (.refl s) f c o b v w).settings
  rw [tripTaken_frame] at settings
  have links := (tripEntry_links f c o b v w (s.tripBegun f c o)).trans (tripBegun_links s f c o)
  rw [tripFeeder_pendingSet, tripTaken_eq, if_pos protective]
  generalize (s.tripBegun f c o).tripEntry f c o b v w = u at settings links
  have link : u.link l = s.link l := congrArg (fun x : File SectionLink 2 => x.get l.index) links
  have config : u.config f = s.config f := congrArg (fun x : Settings => x.feeders.get f) settings
  rw [postFar_link .transferTrip (config ▸ far), link, config]
  exact post_once (s.link l) (.transferTrip (s.config f).farFeeder) none up

/-! ## The TRIP entry and its capture (04 R61; 10 R192) -/

theorem State.newCapture_of (u : State) (e : Entry) (captures : u.captures = s.captures) (sample : u.sample = s.sample)
    (sequence : e.sequence = u.events.nextSequence) (time : e.time = u.time.now) (quality : e.quality = u.time.quality) :
    s.captureOf f c e (u.newCapture f c) := by
  refine ⟨rfl, rfl, sequence.symm, time.symm, quality.symm, ?_, ?_, ?_, ?_⟩ <;>
    simp [State.newCapture, captures, sample]

/-- A capture HELD at its start adds CAPTURE HELD (10 R192). -/
theorem tripFeeder_heldAtStart {n : Fin 4} (asked : s.captureAsked f c = some n) {d : Capture} (held : d.held = true)
    (buffer : ((s.tripBegun f c o).tripEntry f c o b v w).captures.buffers.get n = some d) :
    AddsCaptureHeld ((s.tripBegun f c o).tripEntry f c o b v w) (s.tripFeeder f c o b v w) n d := by
  have taken : s.tripTaken f c o b v w = { (s.tripBegun f c o).tripEntry f c o b v w with
    links := (s.tripTaken f c o b v w).links } := tripTaken_frame ..
  have heldNow (u : State) (same : u.captures.buffers.get n = some d) : AddsCaptureHeld u (u.heldAtStart (some n)) n d := by
    have adds : u.heldAtStart (some n) = u.captureHeldEntry n d := by simp only [State.heldAtStart, same, held, if_true]
    rw [adds]
    exact u.captureHeldEntry_adds n d
  have events : (s.tripTaken f c o b v w).events = ((s.tripBegun f c o).tripEntry f c o b v w).events := by rw [taken]
  have found : (s.tripTaken f c o b v w).captures.buffers.get n = some d := by
    rw [taken]
    exact buffer
  have state := congrArg FeederRecord.state (tripTaken_feeder s f c o b v w)
  unfold State.tripFeeder
  rw [asked]
  generalize (s.tripBegun f c o).tripEntry f c o b v w = t at events
  generalize s.tripTaken f c o b v w = u at events found state ⊢
  have ended (x : Nat) := tripEnded_view f capturesView (old := (s.feeder f).state) (u := { u with choices := x })
    (fun u state => feederNotices_captures f _ state) state (.aborted c.overtaking)
  have quiet (u : State) : Quiet u (u.tripEnded (s.feeder f).state f (.aborted c.overtaking)) :=
    Quiet.tripEnded (.refl u) _ f _
  obtain ⟨x, -, first | second⟩ := together_two (fun t => t.heldAtStart (some n))
    (fun t => t.tripEnded (s.feeder f).state f (.aborted c.overtaking)) u
  · rw [first]
    refine (AddsEntry.later (heldNow { u with choices := x } found) (quiet _).grows).earlier ?_
    exact events ▸ .refl _
  · rw [second]
    refine AddsEntry.earlier (heldNow _ ?_) (events ▸ (quiet { u with choices := x }).grows)
    exact (congrArg (fun y : CaptureUnit => y.buffers.get n) (ended x)).trans found

/-- The TRIP entry, and the capture it names or none (04 R61; 10 R192). -/
theorem tripFeeder_trip : AddsEntry s (s.tripFeeder f c o b v w) fun e =>
    e.kind = .trip ∧ e.subject = .feeder f ∧ e.origin = o ∧ (inField v = true → e.value1 = v) ∧
      (inField w = true → e.value2 = w) ∧ e.detail = .trip c b (c != .commanded && e.capture.isNone) ∧
      (c = .commanded → e.capture = none) ∧
      (c ≠ .commanded → StartsCapture s (s.tripFeeder f c o b v w) (s.tripFeeder f c o b v w).captures f c e) := by
  have begun := tripBegun_frame s f c o
  have captures : (s.tripBegun f c o).captures = s.captures := by rw [begun]
  have sample : (s.tripBegun f c o).sample = s.sample := by rw [begun]
  have same : (s.tripBegun f c o).captureAsked f c = s.captureAsked f c := by rw [begun]; rfl
  have after := tripFeeder_captures s f c o b v w
  have grows := tripFeeder_grows s f c o b v w
  have held {n : Fin 4} (asked : s.captureAsked f c = some n) {d : Capture} :=
    tripFeeder_heldAtStart s f c o b v w asked (d := d)
  have earlier := tripBegun_grows s f c o
  generalize s.tripBegun f c o = t at captures sample same after grows held earlier
  cases asked : s.captureAsked f c with
  | none =>
    have entry : t.tripEntry f c o b v w = t.addEntry .trip (.feeder f) o (.trip c b (c != .commanded)) v w := by
      unfold State.tripEntry
      rw [same, asked]
    rw [entry] at after grows
    refine (((AddsEntry.add t ..).mono fun e ⟨kind, subject, origin, detail, capture, value1, value2⟩ => ?_).later
      grows).earlier earlier
    refine ⟨kind, subject, origin, value1, value2, by rw [detail, capture]; simp, fun _ => capture, fun other => ?_⟩
    have free : s.captureFor f = none := (if_neg other).symm.trans asked
    have unchanged := after.trans captures
    refine ⟨by rw [unchanged], by rw [unchanged], fun n freeFor => ?_, fun _ => ⟨capture, by rw [unchanged]⟩⟩
    exact absurd freeFor ((s.captureFor_eq_none_iff f).mp free n)
  | some n =>
    have other : c ≠ .commanded := fun e => by simp [State.captureAsked, e] at asked
    have free : s.captureFor f = some n := (if_neg other).symm.trans asked
    have entry : t.tripEntry f c o b v w =
        (t.startCapture n f c).addEntry .trip (.feeder f) o (.trip c b false) v w (some n) := by
      unfold State.tripEntry
      rw [same, asked]
    rw [entry] at after grows held
    have buffers : (s.tripFeeder f c o b v w).captures.buffers = s.captures.buffers.set n (some (t.newCapture f c)) := by
      rw [after, ← captures]
      rfl
    refine ⟨t.events, _, earlier, rfl, grows, rfl, rfl, rfl, fun fits => if_pos fits, fun fits => if_pos fits,
      by simp, fun commanded => absurd commanded other, fun _ => ⟨?_, ?_, fun m freeFor => ?_, fun none => ?_⟩⟩
    · rw [after, ← captures]
      rfl
    · rw [after, ← captures]
      rfl
    · have named : m = n := by
        have := ((s.captureFor_eq_some_iff f m).mpr freeFor).symm.trans free
        exact Option.some.inj this
      subst named
      have record := s.newCapture_of f c t ⟨t.events.nextSequence, t.time.now, t.time.quality, .trip, .feeder f, o,
        .trip c b false, fieldValue 0 (t.startCapture m f c).choices v, fieldValue 1 (t.startCapture m f c).choices w,
        some m⟩ captures sample rfl rfl rfl
      refine ⟨rfl, fun k differs => by rw [buffers, File.get_set_ne _ _ differs], t.newCapture f c, record,
        by rw [buffers, File.get_set_self], fun invalid => ?_⟩
      obtain ⟨-, -, -, -, -, heldIff, -⟩ := record
      refine (held asked (heldIff.mpr invalid) (File.get_set_self ..)).earlier ?_
      exact earlier.trans (Grows.addEntry (t.startCapture m f c) ..)
    · exact absurd ((s.captureFor_eq_some_iff f n).mp free) (none n)

/-- What a trip does, as the statements say it. -/
structure Trips (s t : State) (f : Feeder) (c : TripCause) (o : Origin) (b : Bool) (v w : Option Int) : Prop where
  feeder : t.feeder f = s.trippingRecord f c o
  records : t.sections = s.sections
  only : OnlyFeeder s t f
  hands : StateHandedOn s t f
  rect : (s.feeder f).state ≠ .tripping →
    t.rect = { s.rect with retard := s.rect.retard.set f (decide (c = .imax ∨ c = .rise)) }
  closeResult : ∀ op, (s.feeder f).state = .closing → (s.feeder f).operation = some op →
    AddsEntry s t (IsCloseResult s f op (.aborted c.overtaking) (s.feeder f).attempts)
  trip : AddsEntry s t fun e =>
    e.kind = .trip ∧ e.subject = .feeder f ∧ e.origin = o ∧ (inField v = true → e.value1 = v) ∧
      (inField w = true → e.value2 = w) ∧ e.detail = .trip c b (c != .commanded && e.capture.isNone) ∧
      (c = .commanded → e.capture = none) ∧ (c ≠ .commanded → StartsCapture s t t.captures f c e)
  captures : c = .commanded → t.captures = s.captures
  pending : c.protective = false → ∀ l, (t.link l).pendingSet = (s.link l).pendingSet
  transferTrip : c.protective = true → ∀ l, (s.config f).farLink = some l → (s.link l).state = .up →
    ∃ e ∈ (t.link l).pendingSet, e.signal = .transferTrip (s.config f).farFeeder ∧ e.repeats = 3
  quiet : Quiet s t

theorem tripFeeder_trips : Trips s (s.tripFeeder f c o b v w) f c o b v w where
  feeder := tripFeeder_feeder ..
  records := tripFeeder_sections ..
  only := tripFeeder_only ..
  hands := tripFeeder_hands ..
  rect := tripFeeder_rect s f c o b v w
  closeResult := fun _ => tripFeeder_closeResult s f c o b v w
  trip := tripFeeder_trip ..
  captures := fun commanded => by
    rw [tripFeeder_captures, State.tripEntry, State.captureAsked, if_pos commanded]
    show (s.tripBegun f c o).captures = s.captures
    rw [tripBegun_frame]
  pending := fun other l => tripFeeder_pendingSet_of_not_protective s f c o b v w other l
  transferTrip := fun protective _ far up => tripFeeder_transferTrip s f c o b v w protective far up
  quiet := Quiet.tripFeeder (.refl s) f c o b v w

end tripFeeder

end Sys2Proof.Machine

/-! Trips of a feeder: by a request of Fault Detection, and by a transfer trip at its second copy (03 R55; 04 R60, R61, R82; 07
R141, R142; 10 R193). -/

namespace Sys2Proof.Machine

/-! ## A frame still on its way after a request (10 R193; log 32) -/

/-- All of a state but the captures, the record of events and the free counter, which are those of `t`. -/
def State.besideCaptures (t u : State) : State :=
  { u with captures := t.captures, events := t.events, choices := t.choices }

theorem State.fillCapture_besideCaptures (t u : State) (n : Fin 4) (x : Feeder → Triple) :
    t.besideCaptures (u.fillCapture n x) = t.besideCaptures u := by
  unfold State.fillCapture
  split
  · split
    · rfl
    · dsimp only
      split <;> rfl
  · rfl

/-- The late frame reaches the captures, the record and the free counter. -/
theorem State.settleCaptures_frame (s : State) : s.settleCaptures = s.settleCaptures.besideCaptures s := by
  generalize reached : s.settleCaptures = t
  unfold State.settleCaptures at reached
  split at reached
  · rw [← reached]
    refine together_leaves (State.besideCaptures _) (fillParts _) (s.frameHistories _) (fun _ _ => rfl)
      fun part member u => ?_
    obtain ⟨n, -, rfl⟩ := List.mem_map.mp member
    exact State.fillCapture_besideCaptures ..
  · rw [← reached]
    rfl

theorem State.requestUnderWay_iff (s : State) : s.requestUnderWay = true ↔ s.someRequest := by
  unfold State.requestUnderWay State.someRequest
  rw [List.any_eq_true]
  constructor
  · rintro ⟨f, -, waits⟩
    exact ⟨f, fun none => by rw [none] at waits; cases waits⟩
  · rintro ⟨f, waits⟩
    refine ⟨f, mem_eight f, ?_⟩
    cases requests : (s.fault f).requests with
    | nil => exact absurd requests waits
    | cons => rfl

theorem State.frameAfterTrip_frame (s : State) : s.frameAfterTrip = s.frameAfterTrip.besideCaptures s := by
  obtain ⟨x, settles | ⟨-, waits⟩⟩ := s.frameAfterTrip_cases
  · rw [settles, State.settleCaptures_frame]
    rfl
  · rw [waits]
    rfl

theorem State.frameAfterTrip_grows (s : State) : Grows s.events s.frameAfterTrip.events :=
  (Quiet.refl s).frameAfterTrip.grows

/-- A frame still late reaches the captures, or waits for the other requests (log 32). -/
theorem State.frameAfterTrip_follows (s : State) : LateFrameFollows s s.frameAfterTrip s.captures := by
  obtain ⟨x, settles | ⟨waiting, waits⟩⟩ := s.frameAfterTrip_cases
  · rw [settles]
    exact .inl (State.settleCaptures_reaches { s with choices := x })
  · rw [waits]
    cases late : s.captures.late with
    | none => exact .inl ⟨fun _ => rfl, fun q found => by rw [late] at found; cases found⟩
    | some q => exact .inr ⟨s.requestUnderWay_iff.mp waiting, by rw [late]; exact Option.some_ne_none q, rfl⟩

/-- A frame that reaches the captures is no longer late, so captures that stand are those of no arrival. -/
theorem State.frameAfterTrip_events {s : State} (still : s.frameAfterTrip.captures = s.captures) :
    s.frameAfterTrip.events = s.events := by
  obtain ⟨x, settles | ⟨-, waits⟩⟩ := s.frameAfterTrip_cases
  · rw [settles] at still ⊢
    obtain ⟨-, reaches⟩ := State.settleCaptures_reaches { s with choices := x }
    unfold State.settleCaptures
    cases late : s.captures.late with
    | none => rfl
    | some q =>
      obtain ⟨gone, -⟩ := reaches q late
      rw [still, late] at gone
      cases gone
  · rw [waits]

theorem LateFrameFollows.grows {s s' t : State} {u : CaptureUnit} (h : LateFrameFollows s t u)
    (before : Grows s'.events s.events) : LateFrameFollows s' t u := by
  obtain reaches | waits := h
  · exact .inl (reaches.grows before (.refl _))
  · exact .inr waits

theorem StartsCapture.grows {s s' t t' : State} {u : CaptureUnit} {f : Feeder} {c : TripCause} {e : Entry}
    (h : StartsCapture s t u f c e) (captures : s'.captures = s.captures) (sample : s'.sample = s.sample)
    (before : Grows s'.events s.events) (after : Grows t.events t'.events) : StartsCapture s' t' u f c e := by
  have free (n : Fin 4) : s'.freeFor f n ↔ s.freeFor f n := by rw [State.freeFor, State.freeFor, captures]
  obtain ⟨histories, late, starts, none⟩ := h
  rw [← captures] at histories late
  refine ⟨histories, late, fun n freeFor => ?_, fun full => ?_⟩
  · obtain ⟨named, others, d, record, buffer, held⟩ := starts n ((free n).mp freeFor)
    refine ⟨named, captures ▸ others, d, ?_, buffer, fun invalid => ?_⟩
    · rw [State.captureOf, sample, captures]
      exact record
    · exact (AddsEntry.later (held (sample ▸ invalid)) after).earlier before
  · obtain ⟨named, buffers⟩ := none fun n freeFor => full n ((free n).mpr freeFor)
    exact ⟨named, captures ▸ buffers⟩

/-! ## A request of Fault Detection (03 R55, R56) -/

theorem exec_tripRequest {s : State} {f : Feeder} {x : TripDecision} {rest : List TripDecision} (live : s.resetLine = false)
    (waits : (s.fault f).requests = x :: rest) : exec (.tripRequest f) s =
      .next ((s.modFault f fun d => { d with requests := rest }).takeRequest f x).frameAfterTrip := by
  show execTripRequest f s = _
  unfold execTripRequest
  rw [live_next live, waits]

theorem takeRequest_dropped {s : State} {f : Feeder} (x : TripDecision) (closing : (s.feeder f).state ≠ .closing)
    (closed : (s.feeder f).state ≠ .closed) : s.takeRequest f x = s := by
  refine if_neg ?_
  cases state : (s.feeder f).state with
  | closing => exact absurd state closing
  | closed => exact absurd state closed
  | _ => exact Bool.false_ne_true

theorem takeRequest_trips {s : State} {f : Feeder} (x : TripDecision)
    (protects : (s.feeder f).state = .closing ∨ (s.feeder f).state = .closed) : s.takeRequest f x =
      s.tripFeeder f x.cause .protection (x.group == .isolated) (some x.value1) (some x.value2) := by
  refine if_pos ?_
  obtain state | state := protects <;> rw [state] <;> rfl

theorem FaultRecord.noticed_requests (d : FaultRecord) (old new : FeederState) (now : Instant) (l : List TripDecision) :
    FaultRecord.noticed { d with requests := l } old new now = { d.noticed old new now with requests := l } := by
  unfold FaultRecord.noticed
  repeat' split
  all_goals rfl

theorem TripCause.protective_of {c : TripCause} (h : c = .imax ∨ c = .rise ∨ c = .blind) :
    c.protective = true ∧ c ≠ .commanded ∧ decide (c = .imax ∨ c = .rise) = decide (c ≠ .blind) ∧ c.overtaking = .trip := by
  obtain rfl | rfl | rfl := h <;> decide

/-- Settles O24: a request taken in CLOSING or CLOSED is a trip, and a frame still late follows it; any other is dropped. -/
theorem tripRequestTripsTheFeeder : Obligations.TripRequestTripsTheFeeder := by
  intro f s x rest live waits
  refine ⟨fun closing closed => ?_, fun protects cause => ?_⟩
  · refine ⟨_, exec_tripRequest live waits, ?_⟩
    rw [takeRequest_dropped (s := s.modFault f _) x closing closed]
    exact ⟨(State.frameAfterTrip_follows _).grows (.refl s.events), State.frameAfterTrip_frame _, State.frameAfterTrip_events⟩
  obtain ⟨protective, other, retards, overtaking⟩ := TripCause.protective_of cause
  refine ⟨_, exec_tripRequest live waits, ?_⟩
  generalize taken : (s.modFault f fun d => { d with requests := rest }) = u
  have feeder : u.feeder f = s.feeder f := by rw [← taken]; rfl
  have fault : u.fault f = { s.fault f with requests := rest } := by rw [← taken]; exact State.modFault_fault_self ..
  have same : u = { s with faults := u.faults } := by rw [← taken]; rfl
  have moved : (u.feeder f).state ≠ .tripping := by rw [feeder]; obtain h | h := protects <;> rw [h] <;> decide
  rw [takeRequest_trips x (feeder.symm ▸ protects)]
  have trips := tripFeeder_trips u f x.cause .protection (x.group == .isolated) (some x.value1) (some x.value2)
  have grows := (u.tripFeeder f x.cause .protection (x.group == .isolated) (some x.value1)
    (some x.value2)).frameAfterTrip_grows
  have follows := (u.tripFeeder f x.cause .protection (x.group == .isolated) (some x.value1)
    (some x.value2)).frameAfterTrip_follows
  have frame := (u.tripFeeder f x.cause .protection (x.group == .isolated) (some x.value1)
    (some x.value2)).frameAfterTrip_frame
  generalize u.tripFeeder f x.cause .protection (x.group == .isolated) (some x.value1) (some x.value2) = v at *
  generalize v.frameAfterTrip = t at *
  obtain ⟨u, rfl⟩ : ∃ d, u = { s with faults := d } := ⟨_, same⟩
  have onlyHere : OnlyFeeder s t f := by
    obtain ⟨others, settings, store, sample, inputs, key, clock, slots, headers⟩ := trips.only
    rw [frame]
    refine ⟨fun g differs => ?_, settings, store, sample, inputs, key, clock, slots, headers⟩
    obtain ⟨feeder, sect, fault⟩ := others g differs
    have stands : (s.modFault f fun d => { d with requests := rest }).fault g = s.fault g :=
      State.modFault_fault_ne _ _ differs
    exact ⟨feeder, sect, fault.trans ((congrArg (fun w : State => w.fault g) taken).symm.trans stands)⟩
  have faults : t.fault f = v.fault f := by rw [frame]; rfl
  refine ⟨?_, onlyHere, ?_, ?_, ?_, fun op closing operation => ?_, fun l far up => ⟨?_, ?_⟩⟩
  · rw [frame]
    exact trips.feeder
  · obtain ⟨noticed, -⟩ := trips.hands
    have state : (v.feeder f).state = .tripping := by rw [trips.feeder]; rfl
    rw [faults, noticed, fault, state]
    exact FaultRecord.noticed_requests ..
  · refine AddsEntry.later (trips.trip.mono fun e ⟨kind, subject, origin, value1, value2, detail, _, starts⟩ => ?_) grows
    refine ⟨kind, subject, origin, value1, value2, ?_, v.captures, ?_, ?_⟩
    · rw [detail, bne_iff_ne.mpr other, Bool.true_and]
    · exact (starts other).grows rfl rfl (.refl _) grows
    · exact follows.grows trips.quiet.grows
  · rw [frame]
    refine (trips.rect moved).trans ?_
    rw [retards]
  · rw [← overtaking]
    exact AddsEntry.later (trips.closeResult op closing operation) grows
  · obtain ⟨-, handed⟩ := trips.hands
    rw [frame]
    exact (handed (by rw [trips.feeder]; exact moved.symm)).2 l far up
  · rw [frame]
    exact trips.transferTrip protective l far up

/-! ## A transfer trip (04 R82; 07 R141, R142) -/

theorem post_taking (k : SectionLink) (up : k.state = .up) (g : Signal) (once : g.copies = 1) (d : Option Instant) :
    k.post g d = k.taking g 1 d := by
  unfold SectionLink.post SectionLink.taking
  rw [if_neg (not_not.mpr up), once]
  by_cases found : ∃ e ∈ k.pendingSet, e.signal = g
  · have any : (k.pendingSet.any fun e => e.signal = g) = true := by simpa using found
    rw [if_pos any, if_pos found]
  · have any : ¬(k.pendingSet.any fun e => e.signal = g) = true := by simpa using found
    rw [if_neg any, if_neg found]

/-- A transfer trip that finds the feeder in no state of its own, or not ready, adds TT IGNORED (04 R82). -/
theorem ttIgnored_adds (s : State) (f : Feeder) (l : LinkId) : AddsEntry s (s.ttIgnored f l) fun e =>
    e.kind = .ttIgnored ∧ e.subject = .feeder f ∧ e.origin = .link l ∧ e.detail =
      if (s.feeder f).ready = true then .feederState (s.feeder f).state else .nothing :=
  (AddsEntry.add s ..).mono fun _ ⟨kind, subject, origin, detail, _⟩ => ⟨kind, subject, origin, detail⟩

theorem takeTransferTrip_ignored {s : State} {f : Feeder} (l : LinkId)
    (h : (s.feeder f).ready = false ∨ (s.feeder f).state = .opened ∨ (s.feeder f).state = .recloseWait ∨
      (s.feeder f).state = .tripping ∨ (s.feeder f).state = .breakerFailed ∨ (s.feeder f).state = .lockedOut) :
    s.takeTransferTrip f l = s.ttIgnored f l := by
  unfold State.takeTransferTrip
  cases ready : (s.feeder f).ready with
  | false => rfl
  | true =>
    obtain h | h | h | h | h | h := h
    · rw [ready] at h
      cases h
    all_goals rw [h]; rfl

theorem takeTransferTrip_trips {s : State} {f : Feeder} (l : LinkId) (ready : (s.feeder f).ready = true)
    (protects : (s.feeder f).state = .closed ∨ (s.feeder f).state = .closing) :
    s.takeTransferTrip f l = s.tripFeeder f .transfer (linkOrigin l) (s.isolated f) (s.feeder f).lastIf
      (some ((s.config f).farFeeder.val : Int)) := by
  unfold State.takeTransferTrip
  rw [ready]
  obtain h | h := protects <;> rw [h] <;> rfl

theorem takeTransferTrip_aborts {s : State} {f : Feeder} (l : LinkId) (ready : (s.feeder f).ready = true)
    (begun : (s.feeder f).state = .claiming ∨ (s.feeder f).state = .testing) :
    s.takeTransferTrip f l = s.abortClose f (.aborted .transferTrip) (s.waitOrOpen f) := by
  unfold State.takeTransferTrip
  rw [ready]
  obtain h | h := begun <;> rw [h] <;> rfl

/-! ### The abort of a close (04 R81) -/

/-- What the end of a close leaves of the claim given back before it. -/
theorem GivesClaimBack.later {s t u : State} {f : Feeder} (h : GivesClaimBack s t f) (sections : u.sections = t.sections)
    (pending : ∀ l, (u.link l).pendingSet = (t.link l).pendingSet) : GivesClaimBack s u f := by
  unfold GivesClaimBack at h ⊢
  rw [section_of_sections sections]
  simp only [pending]
  exact h

/-- Two states that agree on the feeder's claim and far link. -/
theorem GivesClaimBack.of_same {s u t : State} {f : Feeder} (h : GivesClaimBack u t f) (sections : u.sections = s.sections)
    (settings : u.settings = s.settings)
    (links : ∀ l, (u.link l).state = (s.link l).state ∧ (u.link l).pendingSet = (s.link l).pendingSet) :
    GivesClaimBack s t f := by
  have pending : u.claimPending f ↔ s.claimPending f := by
    unfold State.claimPending State.config
    rw [settings]
    exact exists_congr fun l => and_congr_right fun _ => by rw [(links l).2]
  unfold GivesClaimBack State.config at h ⊢
  rw [section_of_sections sections, settings, pending] at h
  simp only [(links _).1, (links _).2] at h
  exact h

section abortClose

variable {s : State} {f : Feeder} {op : Operation} (operation : (s.feeder f).operation = some op) (x : CloseResult)
  (next : Operation → FeederRecord → FeederRecord)
include operation

theorem abortClose_eq : s.abortClose f x next = (s.releaseClaim f).endClose f op x (next op) := by
  unfold State.abortClose
  rw [operation]

theorem abortClose_feeder : (s.abortClose f x next).feeder f = next op (s.feeder f) := by
  rw [abortClose_eq operation, endClose_feeder, if_pos rfl, releaseClaim_feeder]

theorem abortClose_gives : GivesClaimBack s (s.abortClose f x next) f := by
  rw [abortClose_eq operation]
  exact (releaseClaim_gives s f).later (endClose_sections ..) fun l => endClose_pendingSet ..

theorem abortClose_entry : AddsEntry s (s.abortClose f x next)
    (IsCloseResult s f op x ((s.abortClose f x next).feeder f).attempts) := by
  rw [abortClose_eq operation]
  have quiet := (Quiet.refl s).releaseClaim f
  refine AddsEntry.earlier ((endClose_entry (s.releaseClaim f) f op x (next op)).mono fun e entry => ?_) quiet.grows
  rw [IsCloseResult, quiet.now] at entry
  exact entry

end abortClose

theorem abortClose_only (s : State) (f : Feeder) (x : CloseResult) {next : Operation → FeederRecord → FeederRecord}
    (leads : ∀ op, Leads (next op)) : OnlyFeeder s (s.abortClose f x next) f :=
  onlyFeeder_of ((Quiet.refl s).abortClose f x leads) fun _ other => (records_apart other).abortClose s x next

/-! ### The copies (07 R141) -/

/-- What a transfer trip delivered does, the window marked before it (07 R142; 04 R82). -/
theorem deliverTransferTrip_acts (s : State) (l : LinkId) (g : Feeder) :
    ((s.config g).farLink ≠ some l → (s.deliverTransferTrip l g).feeders = s.feeders ∧
      (s.deliverTransferTrip l g).faults = s.faults ∧ AddsEntry s (s.deliverTransferTrip l g) fun e =>
        e.kind = .ttMisaddressed ∧ e.subject = .feeder g ∧ e.origin = .link l) ∧
    ((s.config g).farLink = some l → s.deliverTransferTrip l g = s.takeTransferTrip g l) := by
  unfold State.deliverTransferTrip
  refine ⟨fun other => ?_, fun far => if_pos far⟩
  rw [if_neg other]
  exact ⟨rfl, rfl, (AddsEntry.add s ..).mono fun _ ⟨kind, subject, origin, _⟩ => ⟨kind, subject, origin⟩⟩

theorem inField_feeder (g : Feeder) : inField (some (g.val : Int)) = true := inField_nat (by omega)

theorem transferTripCopy_accepted {s : State} {l : LinkId} {g : Feeder} {x : Window}
    (found : (s.link l).windows.get g = some x) (fresh : x.acted = false) :
    s.transferTripCopy l g = (s.setWindow l g { x with acted := true }).deliverTransferTrip l g := by
  unfold State.transferTripCopy
  rw [found]
  exact if_neg (fresh ▸ Bool.false_ne_true)

theorem setWindow_links (s : State) (l : LinkId) (g : Feeder) (x : Window) (m : LinkId) :
    ((s.setWindow l g x).link m).state = (s.link m).state ∧ ((s.setWindow l g x).link m).pendingSet = (s.link m).pendingSet := by
  unfold State.setWindow
  rw [link_modLink]
  split
  case isTrue same => exact ⟨same ▸ rfl, same ▸ rfl⟩
  case isFalse => exact ⟨rfl, rfl⟩

/-- A TRANSFER TRIP copy opens the window, acts in it, or finds that it has acted (07 R141). -/
theorem transferTripCopy_acts (s : State) (l : LinkId) (g : Feeder) : CopyActs s (s.transferTripCopy l g) l g := by
  refine ⟨fun unopened => ?_, fun x found => ⟨fun acted => ?_, fun fresh => ?_⟩⟩
  · unfold State.transferTripCopy
    rw [unopened]
    rfl
  · unfold State.transferTripCopy
    rw [found]
    exact if_pos acted
  rw [transferTripCopy_accepted found fresh]
  generalize marked : s.setWindow l g { x with acted := true } = u
  have links := setWindow_links s l g { x with acted := true }
  rw [marked] at links
  obtain ⟨misaddressed, taken⟩ := deliverTransferTrip_acts u l g
  have posts := deliverTransferTrip_posts u l g
  have same : u = { s with links := u.links } := marked ▸ rfl
  have marks : (s.modLink l fun k => { k with windows := k.windows.set g (some { x with acted := true }) }) = u := marked
  generalize u.links = d at same
  subst same
  have ground : (groundView g).view { s with links := d } = (groundView g).view s :=
    ground_of rfl rfl rfl fun m => (links m).1
  rw [marks]
  refine ⟨posts, misaddressed, fun far ready protects => ?_, fun op far ready begun operation => ?_, fun far ignored => ?_⟩
  · rw [taken far, takeTransferTrip_trips (s := { s with links := d }) l ready protects]
    have trips := tripFeeder_trips { s with links := d } g .transfer (linkOrigin l)
      (State.isolated { s with links := d } g) (s.feeder g).lastIf (some ((s.config g).farFeeder.val : Int))
    refine ⟨trips.feeder, trips.only, trips.hands.earlier ground rfl, trips.closeResult, ?_⟩
    refine trips.trip.mono fun e ⟨kind, subject, origin, _, value2, _, _, starts⟩ => ?_
    exact ⟨kind, subject, origin, value2 (inField_feeder _), (starts nofun).grows rfl rfl (.refl _) (.refl _)⟩
  · rw [taken far, takeTransferTrip_aborts (s := { s with links := d }) l ready begun]
    have back := waitOrOpen_back s g op
    refine ⟨(abortClose_feeder (s := { s with links := d }) operation _ _).trans back,
      abortClose_only { s with links := d } g _ (leads_waitOrOpen { s with links := d } g),
      (abortClose_hands ..).earlier ground rfl,
      (abortClose_gives (s := { s with links := d }) operation _ _).of_same rfl rfl links,
      abortClose_entry (s := { s with links := d }) operation _ _⟩
  · rw [taken far, takeTransferTrip_ignored (s := { s with links := d }) l ignored]
    exact ⟨rfl, rfl, ttIgnored_adds ..⟩

theorem modLink_congr {s : State} {l : LinkId} {g h : SectionLink → SectionLink} (same : g (s.link l) = h (s.link l)) :
    s.modLink l g = s.modLink l h := by
  have cells : s.links.set l.index (g (s.link l)) = s.links.set l.index (h (s.link l)) := by rw [same]
  exact congrArg (fun x => ({ s with links := x } : State)) cells

/-- A BEACON is answered by an echo (07 R149). -/
theorem takeSignal_beacon {u : State} {l : LinkId} (up : (u.link l).state = .up) (late : Bool) :
    u.takeSignal l (.signal .beacon late) = u.modLink l fun k => k.taking .beaconEcho 1 (some u.now) :=
  modLink_congr (s := u) (g := fun k => k.post .beaconEcho (some u.now))
    (h := fun k => k.taking .beaconEcho 1 (some u.now)) (post_taking (u.link l) up .beaconEcho rfl (some u.now))

theorem heardOn_state (s : State) (l : LinkId) : ((s.heardOn l).link l).state = (s.link l).state := by
  rw [heardOn_link]
  rfl

/-- A BEACON beside data: the echo is due at the instant of the word, whichever comes first (log 3). -/
theorem takesWord_beacon {s : State} {l : LinkId} {w : RxWord} {late : Bool}
    (takes : s.takesWord l w (.signal .beacon late)) : ∃ t, exec (.linkWord l w) s = .next t ∧
      InTurn l (fun u v => v = u.modLink l fun k => k.taking .beaconEcho 1 (some s.now))
        (fun u v => DataActs u v l w.data) (s.heardOn l) t := by
  obtain ⟨-, -, up, -⟩ := id takes
  obtain ⟨x, order⟩ := takeSlots_order (s.heardOn l) l (.signal .beacon late) w.data
  refine ⟨_, takesWord_exec takes, x, ?_⟩
  have upNow : (State.link { s.heardOn l with choices := x } l).state = .up := (heardOn_state s l).trans up
  have now : (State.now { s.heardOn l with choices := x }) = s.now := rfl
  generalize ({ s.heardOn l with choices := x } : State) = u at order upNow now ⊢
  obtain first | second := order
  · rw [first]
    refine ⟨_, (congrFun (takeSignal_state u l _) l).trans upNow, .inl ⟨?_, takeData_acts ..⟩⟩
    rw [takeSignal_beacon upNow, now]
  · rw [second]
    have stays := (congrFun (takeData_state u l (some w.data)) l).trans upNow
    refine ⟨_, stays, .inr ⟨takeData_acts .., ?_⟩⟩
    rw [takeSignal_beacon stays, ((Quiet.refl u).takeData l _).now, now]

/-- Settles O46, from what a copy does at its window and what data does at the assembly. -/
theorem transferTripActsAtItsSecondCopy : Obligations.TransferTripActsAtItsSecondCopy := by
  intro l w s g
  refine ⟨hears_next, fun late hears => ?_, fun late => takesWord_beacon, fun late hears => ⟨_, hears_next hears,
    transferTripCopy_acts _ l g⟩, fun late => takesWord_acts fun u => transferTripCopy_acts u l g⟩
  rw [hears_next hears, takeSignal_beacon]
  · rfl
  · obtain ⟨-, -, up, -⟩ := hears
    exact (heardOn_state s l).trans up

end Sys2Proof.Machine

/-! The close interlock checks, and how a close operation ends: at its deadlines, by its test, and at a reclose (02 R36; 04 R66 to
R77; 07 R143). -/

namespace Sys2Proof.Machine

/-! ## The close interlock checks (02 R36) -/

theorem File.mem_cells {α : Type} {n : Nat} {v : File α n} {x : α} : x ∈ v.cells ↔ ∃ i, v.get i = x := by
  constructor
  · intro member
    obtain ⟨k, below, found⟩ := List.getElem_of_mem member
    exact ⟨⟨k, v.size ▸ below⟩, found⟩
  · rintro ⟨i, rfl⟩
    rw [File.get_eq_getElem]
    exact List.getElem_mem _

theorem State.measured_iff (s : State) (f : Feeder) : s.measured f = true ↔ s.lineMeasured f := by
  unfold State.measured State.lineMeasured
  rw [Bool.and_eq_true, beq_iff_eq, List.contains_iff_mem, File.mem_cells]

theorem State.busLive_iff (s : State) : s.busLive = true ↔ s.busIsLive := by
  unfold State.busLive State.busIsLive
  cases s.sample.last.values.ub <;> simp

/-- Checks 6 and 7 (02 R36; 04 R71). -/
theorem State.recheck_eq (s : State) (f : Feeder) [Decidable (s.lineMeasured f)] [Decidable s.busIsLive] :
    s.recheck f = if ¬s.lineMeasured f then some .measurementLost else if ¬s.busIsLive then some .busDead else none := by
  unfold State.recheck
  simp only [Bool.not_eq_true', ← Bool.not_eq_true, s.measured_iff f, s.busLive_iff]

theorem Option.or_ite_some {α : Type} {c : Prop} [Decidable c] (a : α) (x y : Option α) :
    (if c then some a else x).or y = if c then some a else x.or y := by
  split <;> rfl

/-- Checks 1 to 4, in their order (02 R36). -/
theorem State.stateCheck_eq (s : State) (f : Feeder) (auto : Bool) : s.stateCheck f auto =
    if (s.config f).inService = false then some .notInService
    else if (s.feeder f).state = .lockedOut then some .lockedOut
    else if (s.feeder f).state = .breakerFailed then some .breakerFailed
    else if ¬((s.feeder f).state = .opened ∨ ((s.feeder f).state = .recloseWait ∧ auto = true)) then some .state
    else none := by
  unfold State.stateCheck
  cases (s.config f).inService <;> cases (s.feeder f).state <;> cases auto <;> rfl

theorem State.positionCheck_eq (s : State) (f : Feeder) : s.positionCheck f =
    if s.position f = .invalid then some .positionInvalid else if s.position f = .closed then some .state else none := by
  unfold State.positionCheck
  cases s.position f <;> rfl

open Classical in
/-- Settles O23: the groups of checks one after the other. -/
theorem closeChecksInOrder : Obligations.CloseChecksInOrder := by
  intro s f auto
  unfold State.closeCheck
  rw [s.stateCheck_eq, s.positionCheck_eq, s.recheck_eq]
  simp only [Option.or_ite_some, Option.none_or]
  unfold State.lineMeasured State.busIsLive
  congr

/-! ## States that differ beside a feeder's record -/

/-- A change inside the part that leaves the feeder's record, what Fault Detection keeps of it, the links' states, and the
records of the other feeders. -/
structure Beside (s u : State) (f : Feeder) : Prop where
  quiet : Quiet s u
  feeder : u.feeder f = s.feeder f
  ground : (groundView f).view u = (groundView f).view s
  others : ∀ g, g ≠ f → (recordsView g).view u = (recordsView g).view s

namespace Beside

variable {s t u : State} {f : Feeder}

theorem refl (s : State) (f : Feeder) : Beside s s f := ⟨.refl s, rfl, rfl, fun _ _ => rfl⟩

theorem trans (h : Beside s t f) (k : Beside t u f) : Beside s u f :=
  ⟨h.quiet.trans k.quiet, k.feeder.trans h.feeder, k.ground.trans h.ground, fun g differs =>
    (k.others g differs).trans (h.others g differs)⟩

theorem addEntry (s : State) (f : Feeder) (k : EventKind) (o : Subject) (p : Origin) (d : Detail) (v w : Option Int)
    (c : Option (Fin 4)) : Beside s (s.addEntry k o p d v w c) f :=
  ⟨(Quiet.refl s).addEntry .., rfl, (groundView f).addEntry .., fun g _ => (recordsView g).addEntry ..⟩

/-- The claim is given up with a signal on the far link (04 R81; 07 R143, R147). -/
theorem giveUp (s : State) (f : Feeder) (g : Feeder → Signal) : Beside s ((s.postFar f g).setClaim f .idle none) f :=
  ⟨((Quiet.refl s).postFar f g).setClaim f .idle none, (setClaim_feeder ..).trans (postFar_feeder ..),
    (ground_setClaim ..).trans (ground_postFar ..), fun _ differs =>
      ((records_apart differs).setClaim ..).trans ((records_apart differs).postFar ..)⟩

end Beside

/-- The signal that gives up a claim, on an UP far link. -/
theorem giveUp_posts {s : State} {f : Feeder} {l : LinkId} (g : Feeder → Signal) (far : (s.config f).farLink = some l)
    (up : (s.link l).state = .up) :
    ∃ e ∈ (((s.postFar f g).setClaim f .idle none).link l).pendingSet, e.signal = g (s.config f).farFeeder := by
  rw [setClaim_pendingSet, postFar_link g far]
  exact post_pending _ _ none up

theorem giveUp_section (s : State) (f : Feeder) (g : Feeder → Signal) :
    ((s.postFar f g).setClaim f .idle none).section' f = { s.section' f with claim := .idle, claimDeadline := none } := by
  rw [setClaim_section, section_of_sections (postFar_sections s f g)]

namespace Beside

variable {s u : State} {f : Feeder} (h : Beside s u f)
include h

theorem config : u.config f = s.config f := by
  unfold State.config
  rw [h.quiet.settings]

theorem openRecord : u.openRecord f = s.openRecord f := by
  unfold State.openRecord
  rw [h.feeder]

theorem backRecord (op : Operation) : u.backRecord f op = s.backRecord f op := by
  unfold State.backRecord State.waitRecord
  rw [h.openRecord, h.feeder, h.config, h.quiet.now]

theorem lineMeasured : u.lineMeasured f ↔ s.lineMeasured f := by
  unfold State.lineMeasured
  rw [h.quiet.sample, h.quiet.settings]

theorem busIsLive : u.busIsLive ↔ s.busIsLive := by
  unfold State.busIsLive State.station
  rw [h.quiet.sample, h.quiet.settings]

end Beside

/-! ## The end of a close (04 R74) -/

/-- A close ends with a result, the feeder in the next state, and other blocks told of it. -/
structure EndsClose (s t : State) (f : Feeder) (op : Operation) (x : CloseResult) (r : FeederRecord) : Prop where
  feeder : t.feeder f = r
  hands : StateHandedOn s t f
  entry : AddsEntry s t (IsCloseResult s f op x r.attempts)
  only : OnlyFeeder s t f
  ports : t.ports = s.ports

theorem EndsClose.earlier {s u t : State} {f : Feeder} {op : Operation} {x : CloseResult} {r : FeederRecord}
    (h : EndsClose u t f op x r) (b : Beside s u f) : EndsClose s t f op x r where
  feeder := h.feeder
  hands := h.hands.earlier b.ground (by rw [b.feeder])
  entry := by
    refine AddsEntry.earlier (h.entry.mono fun e entry => ?_) b.quiet.grows
    rw [IsCloseResult, b.quiet.now] at entry
    exact entry
  only := by
    obtain ⟨others, settings, store, sample, inputs, key, clock, slots, headers⟩ := h.only
    refine ⟨fun g differs => ?_, settings.trans b.quiet.settings, store.trans b.quiet.store, sample.trans b.quiet.sample,
      inputs.trans b.quiet.inputs, key.trans b.quiet.key, clock.trans b.quiet.clock, slots.trans b.quiet.slots,
      headers.trans b.quiet.headers⟩
    obtain ⟨feeder, sect, fault⟩ := others g differs
    have left := b.others g differs
    exact ⟨feeder.trans (congrArg Prod.fst left), sect.trans (congrArg (fun y => y.2.1) left),
      fault.trans (congrArg (fun y => y.2.2) left)⟩
  ports := h.ports.trans b.quiet.ports

theorem endClose_ends (s : State) (f : Feeder) (op : Operation) (x : CloseResult) {next : FeederRecord → FeederRecord}
    (leads : Leads next) : EndsClose s (s.endClose f op x next) f op x (next (s.feeder f)) := by
  have record := endClose_feeder s f op x next f
  rw [if_pos rfl] at record
  refine ⟨record, endClose_hands .., record ▸ endClose_entry s f op x next, ?_,
    ((Quiet.refl s).endClose f op x leads).ports⟩
  exact onlyFeeder_of ((Quiet.refl s).endClose f op x leads) fun _ differs => (records_apart differs).endClose s op x next

/-- A close that ends unjudged goes back to RECLOSE_WAIT or OPEN (04 R74). -/
theorem endClose_back (s u : State) (f : Feeder) (op : Operation) (x : CloseResult) (b : Beside s u f) :
    EndsClose s (u.endClose f op x (s.waitOrOpen f op)) f op x (s.backRecord f op) := by
  have ends := (endClose_ends u f op x (leads_waitOrOpen s f op)).earlier b
  rw [b.feeder, waitOrOpen_back] at ends
  exact ends

/-! ## The phases' deadlines (04 R68, R73; 07 R143) -/

theorem exec_claimDeadline {f : Feeder} {s : State} {d : Instant} (live : s.resetLine = false)
    (sent : (s.section' f).claim = .claimSent) (deadline : (s.section' f).claimDeadline = some d) (due : d ≤ s.now) :
    exec (.claimDeadline f) s = .next (s.claimTimeout f) := by
  have isDue : s.claimIsDue f .claimSent = true := by
    rw [State.claimIsDue, sent, deadline]
    exact decide_eq_true due
  exact (live_next live _).trans (by rw [if_pos isDue])

theorem State.phaseDue_eq {f : Feeder} {s : State} {op : Operation} {x : FeederState} {d : Instant}
    (state : (s.feeder f).state = x) (operation : (s.feeder f).operation = some op) (deadline : op.deadline = some d)
    (due : d ≤ s.now) : s.phaseDue f x = some op := by
  have reached : s.reached op.deadline = true := by
    rw [deadline]
    exact decide_eq_true due
  rw [State.phaseDue, if_pos state, operation]
  exact if_pos reached

theorem exec_closeConfirmLimit {f : Feeder} {s : State} {op : Operation} {d : Instant} (live : s.resetLine = false)
    (state : (s.feeder f).state = .closing) (operation : (s.feeder f).operation = some op)
    (deadline : op.deadline = some d) (due : d ≤ s.now) :
    exec (.closeConfirmLimit f) s = .next (s.endClose f op .closeFailed FeederRecord.toOpen) := by
  show execCloseConfirmLimit f s = _
  unfold execCloseConfirmLimit
  rw [live_next live, State.phaseDue_eq state operation deadline due]

theorem exec_testEnd {f : Feeder} {s : State} {op : Operation} {d : Instant} (live : s.resetLine = false)
    (state : (s.feeder f).state = .testing) (operation : (s.feeder f).operation = some op)
    (deadline : op.deadline = some d) (due : d ≤ s.now) : exec (.testEnd f) s = .next (s.judgeTest f op) := by
  show execTestEnd f s = _
  unfold execTestEnd
  rw [live_next live, State.phaseDue_eq state operation deadline due]

/-- A claim that runs out: given up, and the operation ends (04 R68; 07 R143). -/
theorem claimTimeout_ends {f : Feeder} {s : State} {op : Operation} (operation : (s.feeder f).operation = some op) :
    EndsClose s (s.claimTimeout f) f op .claimTimeout (s.backRecord f op) := by
  unfold State.claimTimeout
  rw [operation]
  exact endClose_back s _ f op .claimTimeout (.giveUp s f .testDone)

theorem claimTimeout_idle {f : Feeder} {s : State} (none : (s.feeder f).operation = none) :
    s.claimTimeout f = (s.postFar f .testDone).setClaim f .idle Option.none := by
  unfold State.claimTimeout
  rw [none]

/-- What a claim that runs out gives up, whether an operation ends or not. -/
theorem claimTimeout_claim (f : Feeder) (s : State) :
    (s.claimTimeout f).sections = ((s.postFar f .testDone).setClaim f .idle none).sections ∧
      ∀ l, ((s.claimTimeout f).link l).pendingSet = (((s.postFar f .testDone).setClaim f .idle none).link l).pendingSet := by
  unfold State.claimTimeout
  split
  · exact ⟨endClose_sections .., fun l => endClose_pendingSet ..⟩
  · exact ⟨rfl, fun _ => rfl⟩

/-! ## A test judged (04 R70 to R72) -/

/-- A claimed test gives its claim back first (07 R147). -/
def State.testOver (s : State) (f : Feeder) (op : Operation) : State :=
  if op.testMode = .claimed then (s.postFar f .testDone).setClaim f .idle none else s

theorem testOver_beside (s : State) (f : Feeder) (op : Operation) : Beside s (s.testOver f op) f := by
  unfold State.testOver
  split
  · exact .giveUp s f .testDone
  · exact .refl s f

/-- The outcome of a test, once its claim is given back (04 R70). -/
def State.testOutcome (s : State) (f : Feeder) (op : Operation) : State :=
  match s.sample.last.values.ufs.get f, s.sample.last.values.ub with
  | none, _ => s.endClose f op (.interlocked .measurementLost) (s.waitOrOpen f op)
  | some _, none => s.endClose f op (.interlocked .busDead) FeederRecord.toOpen
  | some u, some b =>
    let healthy := decide (((s.config f).healthy : Int) * b ≤ 100 * u)
    let t := s.addEntry .lineTest (.feeder f) op.origin (.lineTest healthy op.testMode) (some u) (some b)
    if healthy then t.lineHealthy f op else t.lineFaulty f op

theorem judgeTest_eq (s : State) (f : Feeder) (op : Operation) : s.judgeTest f op = (s.testOver f op).testOutcome f op := rfl

/-- What a change leaves of the sections and of what is pending on the links. -/
structure LeavesClaim (s t : State) : Prop where
  records : t.sections = s.sections
  pending : ∀ l, (t.link l).pendingSet = (s.link l).pendingSet

namespace LeavesClaim

theorem trans {s t u : State} (h : LeavesClaim s t) (k : LeavesClaim t u) : LeavesClaim s u :=
  ⟨k.records.trans h.records, fun l => (k.pending l).trans (h.pending l)⟩

theorem addEntry (s : State) (k : EventKind) (o : Subject) (p : Origin) (d : Detail) (v w : Option Int)
    (c : Option (Fin 4)) : LeavesClaim s (s.addEntry k o p d v w c) := ⟨rfl, fun _ => rfl⟩

theorem endClose (s : State) (f : Feeder) (op : Operation) (x : CloseResult) (next : FeederRecord → FeederRecord) :
    LeavesClaim s (s.endClose f op x next) := ⟨endClose_sections .., fun _ => endClose_pendingSet ..⟩

theorem notices (s : State) (old : FeederState) (f : Feeder) : LeavesClaim s (s.feederNotices old f) :=
  ⟨feederNotices_sections .., fun _ => feederNotices_pendingSet ..⟩

theorem enterClosing (s : State) (f : Feeder) (op : Operation) : LeavesClaim s (s.enterClosing f op) := by
  unfold State.enterClosing
  dsimp only
  refine trans (t := s.modFeeder f _) ?_ (notices _ _ f)
  exact ⟨rfl, fun _ => rfl⟩

theorem closeEnded (s : State) (old : FeederState) (f : Feeder) (x : CloseResult) : LeavesClaim s (s.closeEnded old f x) := by
  unfold State.closeEnded
  have told : LeavesClaim s (s.closeToRunners f x) :=
    ⟨sectionsView.closeToRunners .., fun l => (pendingView l).closeToRunners ..⟩
  exact told.trans (notices ..)

end LeavesClaim

/-! ### A healthy line (04 R71) -/

section lineHealthy

variable {s : State} {f : Feeder} {op : Operation}

theorem lineHealthy_closes (measured : s.lineMeasured f) (bus : s.busIsLive) : s.lineHealthy f op = s.enterClosing f op := by
  classical
  unfold State.lineHealthy
  rw [s.recheck_eq, if_neg (not_not.mpr measured), if_neg (not_not.mpr bus)]

theorem lineHealthy_unmeasured (lost : ¬s.lineMeasured f) :
    s.lineHealthy f op = s.endClose f op (.interlocked .measurementLost) (s.waitOrOpen f op) := by
  classical
  unfold State.lineHealthy
  rw [s.recheck_eq, if_pos lost]

theorem lineHealthy_busDead (measured : s.lineMeasured f) (dead : ¬s.busIsLive) :
    s.lineHealthy f op = s.endClose f op (.interlocked .busDead) FeederRecord.toOpen := by
  classical
  unfold State.lineHealthy
  rw [s.recheck_eq, if_neg (not_not.mpr measured), if_pos dead]

end lineHealthy

/-! ### A faulty line (04 R72) -/

/-- The record after a FAULTY test (04 R72). -/
def State.faultyRecord (s : State) (f : Feeder) (op : Operation) : FeederRecord :=
  if op.origin = .auto then
    if min ((s.feeder f).attempts + 1) 5 < (s.config f).maxReclose
      then { s.waitRecord f with attempts := min ((s.feeder f).attempts + 1) 5 }
      else { s.lockedRecord f .attempts with attempts := min ((s.feeder f).attempts + 1) 5 }
  else s.openRecord f

theorem faultyNext_record (s : State) (f : Feeder) (op : Operation) :
    (if op.origin = .auto then s.faultyNext f else FeederRecord.toOpen) (s.feeder f) = s.faultyRecord f op := by
  unfold State.faultyRecord
  split
  · unfold State.faultyNext
    dsimp only
    split
    case isTrue below =>
      have few : min ((s.feeder f).attempts + 1) 5 < (s.config f).maxReclose := below
      rw [if_pos few]
      simp only [FeederRecord.toRecloseWait, FeederRecord.leave, FeederRecord.attempt, State.waitRecord, sec, ms,
        FeederRecord.mk.injEq, true_and, and_true, Option.some.injEq]
      ring
    case isFalse above =>
      have spent : ¬min ((s.feeder f).attempts + 1) 5 < (s.config f).maxReclose := above
      rw [if_neg spent]
      rfl
  · rfl

theorem leads_faulty (s : State) (f : Feeder) (op : Operation) :
    Leads (if op.origin = .auto then s.faultyNext f else FeederRecord.toOpen) := by
  split
  · exact leads_faultyNext s f
  · exact leads_toOpen

/-- What a FAULTY test records: CLOSE RESULT, and LOCKOUT where the feeder is locked out (04 R72, R78). -/
def State.faultyNoted (s : State) (f : Feeder) (op : Operation) : State :=
  if (s.feeder f).state = .lockedOut then (s.closeResultEntry f op .lineFaulty).lockoutEntry f .attempts
  else s.closeResultEntry f op .lineFaulty

theorem lineFaulty_eq (s : State) (f : Feeder) (op : Operation) : s.lineFaulty f op =
    ((s.modFeeder f (if op.origin = .auto then s.faultyNext f else FeederRecord.toOpen)).faultyNoted f op).closeEnded
      (s.feeder f).state f .lineFaulty := rfl

section faultyNoted

variable (s : State) (f : Feeder) (op : Operation)

theorem faultyNoted_view {β : Type} (V : View β) : V.view (s.faultyNoted f op) = V.view s := by
  unfold State.faultyNoted State.lockoutEntry State.closeResultEntry
  split
  · exact (V.addEntry ..).trans (V.addEntry ..)
  · exact V.addEntry ..

theorem faultyNoted_leaves : LeavesClaim s (s.faultyNoted f op) := by
  unfold State.faultyNoted
  split
  · exact ⟨rfl, fun _ => rfl⟩
  · exact ⟨rfl, fun _ => rfl⟩

theorem closeEnded_grows (old : FeederState) (x : CloseResult) : Grows s.events (s.closeEnded old f x).events :=
  ((Quiet.refl s).closeEnded old f x).grows

theorem closeResultEntry_adds (x : CloseResult) :
    AddsEntry s (s.closeResultEntry f op x) (IsCloseResult s f op x (s.feeder f).attempts) :=
  (AddsEntry.add s ..).mono fun _ ⟨kind, subject, origin, detail, _, value1, value2⟩ =>
    ⟨kind, subject, origin, detail, fun fits => value1 (inField_nat fits), fun few => value2 (inField_nat (by omega))⟩

theorem faultyNoted_result :
    AddsEntry s (s.faultyNoted f op) (IsCloseResult s f op .lineFaulty (s.feeder f).attempts) := by
  unfold State.faultyNoted
  split
  · exact (closeResultEntry_adds s f op .lineFaulty).later (Grows.addEntry _ ..)
  · exact closeResultEntry_adds s f op .lineFaulty

theorem faultyNoted_lockout (locked : (s.feeder f).state = .lockedOut) (few : (s.feeder f).attempts ≤ 5) :
    AddsEntry s (s.faultyNoted f op) fun e => e.kind = .lockout ∧ e.subject = .feeder f ∧ e.origin = .auto ∧
      e.detail = .lockout .attempts ∧ e.value1 = some ((s.feeder f).attempts : Int) := by
  unfold State.faultyNoted
  rw [if_pos locked]
  refine AddsEntry.earlier (t := s.closeResultEntry f op .lineFaulty) ?_ (Grows.addEntry s ..)
  exact (AddsEntry.add (s.closeResultEntry f op .lineFaulty) ..).mono fun e ⟨kind, subject, origin, detail, _, value1, _⟩ =>
    ⟨kind, subject, origin, detail, value1 (inField_nat (show (s.feeder f).attempts < _ by omega))⟩

end faultyNoted

section lineFaulty

variable (s : State) (f : Feeder) (op : Operation)

theorem lineFaulty_leaves : LeavesClaim s (s.lineFaulty f op) := by
  rw [lineFaulty_eq]
  generalize (if op.origin = .auto then s.faultyNext f else FeederRecord.toOpen) = next
  have entered : LeavesClaim s (s.modFeeder f next) := ⟨rfl, fun _ => rfl⟩
  exact (entered.trans (faultyNoted_leaves ..)).trans (.closeEnded ..)

/-- A FAULTY test ends the close (04 R72). -/
theorem lineFaulty_ends : EndsClose s (s.lineFaulty f op) f op .lineFaulty (s.faultyRecord f op) := by
  rw [lineFaulty_eq]
  have record := (State.modFeeder_feeder_self s f (if op.origin = .auto then s.faultyNext f else FeederRecord.toOpen)).trans
    (faultyNext_record s f op)
  have quiet := (Quiet.refl s).lineFaulty f op
  rw [lineFaulty_eq] at quiet
  generalize (if op.origin = .auto then s.faultyNext f else FeederRecord.toOpen) = next at record quiet ⊢
  refine ⟨?_, ?_, ?_, onlyFeeder_of quiet fun g differs => ?_, quiet.ports⟩
  · rw [closeEnded_feeder]
    exact (congrArg (fun v => File.get v f) (faultyNoted_view _ f op feedersView)).trans record
  · exact StateHandedOn.notices (((groundView f).closeToRunners ..).trans (faultyNoted_view (s.modFeeder f next) f op (groundView f)))
  · have noted := faultyNoted_result (s.modFeeder f next) f op
    rw [record] at noted
    exact noted.later (closeEnded_grows ..)
  · rw [(records_apart differs).closeEnded, faultyNoted_view]
    exact (records_apart differs).modFeeder ..

/-- It locks out the feeder of an AUTO close with its attempts spent (04 R72, R78). -/
theorem lineFaulty_lockout (auto : op.origin = .auto)
    (spent : (s.config f).maxReclose ≤ min ((s.feeder f).attempts + 1) 5) :
    AddsEntry s (s.lineFaulty f op) fun e => e.kind = .lockout ∧ e.subject = .feeder f ∧ e.origin = .auto ∧
      e.detail = .lockout .attempts ∧ e.value1 = some ((min ((s.feeder f).attempts + 1) 5 : Nat) : Int) := by
  rw [lineFaulty_eq]
  have record := (State.modFeeder_feeder_self s f (if op.origin = .auto then s.faultyNext f else FeederRecord.toOpen)).trans
    (faultyNext_record s f op)
  rw [show s.faultyRecord f op = _ from if_pos auto, if_neg (not_lt.mpr spent)] at record
  generalize (if op.origin = .auto then s.faultyNext f else FeederRecord.toOpen) = next at record ⊢
  have noted := faultyNoted_lockout (s.modFeeder f next) f op (by rw [record]; rfl)
    (by rw [record]; exact Nat.min_le_right ..)
  rw [record] at noted
  exact noted.later (closeEnded_grows ..)

end lineFaulty

/-! ### The outcome of a test (04 R70) -/

section testOutcome

variable {s : State} {f : Feeder} {op : Operation}

/-- The entry of a judged test (04 R70). -/
def State.lineTested (s : State) (f : Feeder) (op : Operation) (u b : Int) : State :=
  s.addEntry .lineTest (.feeder f) op.origin
    (.lineTest (decide (((s.config f).healthy : Int) * b ≤ 100 * u)) op.testMode) (some u) (some b)

theorem lineTested_beside (u b : Int) : Beside s (s.lineTested f op u b) f := .addEntry ..

theorem testOutcome_unmeasured (lost : s.sample.last.values.ufs.get f = none) :
    s.testOutcome f op = s.endClose f op (.interlocked .measurementLost) (s.waitOrOpen f op) := by
  unfold State.testOutcome
  rw [lost]

theorem testOutcome_busDead {u : Int} (voltage : s.sample.last.values.ufs.get f = some u)
    (dead : s.sample.last.values.ub = none) :
    s.testOutcome f op = s.endClose f op (.interlocked .busDead) FeederRecord.toOpen := by
  unfold State.testOutcome
  rw [voltage, dead]

theorem testOutcome_judged {u b : Int} (voltage : s.sample.last.values.ufs.get f = some u)
    (bus : s.sample.last.values.ub = some b) :
    s.testOutcome f op = if ((s.config f).healthy : Int) * b ≤ 100 * u then (s.lineTested f op u b).lineHealthy f op
      else (s.lineTested f op u b).lineFaulty f op := by
  unfold State.testOutcome
  rw [voltage, bus]
  dsimp only
  simp only [decide_eq_true_eq]
  rfl

/-- Every outcome of a test is the end of the close or the entry into CLOSING (04 R70 to R72). -/
theorem testOutcome_ends (s : State) (f : Feeder) (op : Operation) :
    (∃ x r, EndsClose s (s.testOutcome f op) f op x r) ∨
      ∃ u, Beside s u f ∧ s.testOutcome f op = u.enterClosing f op := by
  classical
  cases voltage : s.sample.last.values.ufs.get f with
  | none => exact .inl ⟨_, _, testOutcome_unmeasured voltage ▸ endClose_back s s f op _ (.refl s f)⟩
  | some u =>
    cases bus : s.sample.last.values.ub with
    | none => exact .inl ⟨_, _, testOutcome_busDead voltage bus ▸ endClose_ends s f op _ leads_toOpen⟩
    | some b =>
      rw [testOutcome_judged voltage bus]
      have beside : Beside s (s.lineTested f op u b) f := lineTested_beside u b
      generalize s.lineTested f op u b = v at beside
      split
      · by_cases measured : v.lineMeasured f
        · by_cases live : v.busIsLive
          · exact .inr ⟨v, beside, lineHealthy_closes measured live⟩
          · rw [lineHealthy_busDead measured live]
            exact .inl ⟨_, _, (endClose_ends v f op _ leads_toOpen).earlier beside⟩
        · rw [lineHealthy_unmeasured measured]
          exact .inl ⟨_, _, (endClose_back v v f op _ (.refl v f)).earlier beside⟩
      · exact .inl ⟨_, _, (lineFaulty_ends v f op).earlier beside⟩

theorem testOutcome_leaves (s : State) (f : Feeder) (op : Operation) : LeavesClaim s (s.testOutcome f op) := by
  unfold State.testOutcome
  split
  · exact .endClose ..
  · exact .endClose ..
  · rename_i u b _ _
    refine LeavesClaim.trans (t := s.lineTested f op u b) ⟨rfl, fun _ => rfl⟩ ?_
    dsimp only
    split
    · unfold State.lineHealthy
      split
      · exact .enterClosing ..
      · exact .endClose ..
      · exact .endClose ..
    · exact lineFaulty_leaves ..

end testOutcome

theorem Beside.faultyRecord {s u : State} {f : Feeder} (h : Beside s u f) (op : Operation) :
    u.faultyRecord f op = s.faultyRecord f op := by
  unfold State.faultyRecord State.waitRecord State.lockedRecord
  rw [h.openRecord, h.feeder, h.config, h.quiet.now]

/-! ### The whole judgement -/

section judgeTest

variable {s : State} {f : Feeder} {op : Operation}

theorem judgeTest_only (s : State) (f : Feeder) (op : Operation) : OnlyFeeder s (s.judgeTest f op) f := by
  have before := testOver_beside s f op
  rw [judgeTest_eq]
  rcases testOutcome_ends (s.testOver f op) f op with ⟨x, r, ends⟩ | ⟨u, beside, closes⟩
  · exact (ends.earlier before).only
  · rw [closes]
    refine onlyFeeder_of ((before.trans beside).quiet.enterClosing f op) fun g differs => ?_
    rw [(records_apart differs).enterClosing, (before.trans beside).others g differs]

theorem judgeTest_hands (s : State) (f : Feeder) (op : Operation) : StateHandedOn s (s.judgeTest f op) f := by
  have before := testOver_beside s f op
  rw [judgeTest_eq]
  rcases testOutcome_ends (s.testOver f op) f op with ⟨x, r, ends⟩ | ⟨u, beside, closes⟩
  · exact (ends.earlier before).hands
  · rw [closes]
    have gone := before.trans beside
    exact (enterClosing_hands u f op).earlier gone.ground (by rw [gone.feeder])

/-- A claimed test gives its claim back with TEST DONE (04 R70; 07 R147). -/
theorem judgeTest_claimed (claimed : op.testMode = .claimed) :
    (s.judgeTest f op).section' f = { s.section' f with claim := .idle, claimDeadline := none } ∧
      ∀ l, (s.config f).farLink = some l → (s.link l).state = .up →
        ∃ e ∈ ((s.judgeTest f op).link l).pendingSet, e.signal = .testDone (s.config f).farFeeder := by
  have leaves := testOutcome_leaves (s.testOver f op) f op
  have before : s.testOver f op = (s.postFar f .testDone).setClaim f .idle none := if_pos claimed
  rw [before] at leaves
  rw [judgeTest_eq, before, section_of_sections leaves.records, giveUp_section]
  refine ⟨rfl, fun l far up => ?_⟩
  rw [leaves.pending]
  exact giveUp_posts .testDone far up

theorem judgeTest_unclaimed (unclaimed : op.testMode ≠ .claimed) : (s.judgeTest f op).section' f = s.section' f := by
  have leaves := testOutcome_leaves (s.testOver f op) f op
  have before : s.testOver f op = s := if_neg unclaimed
  rw [before] at leaves
  rw [judgeTest_eq, before, section_of_sections leaves.records]

theorem testOver_sample (s : State) (f : Feeder) (op : Operation) : (s.testOver f op).sample = s.sample :=
  (testOver_beside s f op).quiet.sample

theorem judgeTest_unmeasured (lost : s.sample.last.values.ufs.get f = none) :
    EndsClose s (s.judgeTest f op) f op (.interlocked .measurementLost) (s.backRecord f op) := by
  have before := testOver_beside s f op
  rw [judgeTest_eq, testOutcome_unmeasured (by rw [testOver_sample]; exact lost), ← before.backRecord]
  exact (endClose_back _ _ f op _ (.refl _ f)).earlier before

theorem judgeTest_busDead {u : Int} (voltage : s.sample.last.values.ufs.get f = some u)
    (dead : s.sample.last.values.ub = none) :
    EndsClose s (s.judgeTest f op) f op (.interlocked .busDead) (s.openRecord f) := by
  have before := testOver_beside s f op
  rw [judgeTest_eq, testOutcome_busDead (by rw [testOver_sample]; exact voltage) (by rw [testOver_sample]; exact dead),
    ← before.openRecord]
  exact (endClose_ends _ f op _ leads_toOpen).earlier before

/-- The state in which a test with both voltages present is judged. -/
def State.testNoted (s : State) (f : Feeder) (op : Operation) (u b : Int) : State := (s.testOver f op).lineTested f op u b

theorem testNoted_beside (u b : Int) : Beside s (s.testNoted f op u b) f :=
  (testOver_beside s f op).trans (lineTested_beside u b)

theorem judgeTest_judged {u b : Int} (voltage : s.sample.last.values.ufs.get f = some u)
    (bus : s.sample.last.values.ub = some b) :
    s.judgeTest f op = if ((s.config f).healthy : Int) * b ≤ 100 * u then (s.testNoted f op u b).lineHealthy f op
      else (s.testNoted f op u b).lineFaulty f op := by
  rw [judgeTest_eq, testOutcome_judged (by rw [testOver_sample]; exact voltage) (by rw [testOver_sample]; exact bus),
    (testOver_beside s f op).config]
  rfl

/-- The TEST RESULT entry of a test with both voltages present (04 R70). -/
theorem lineTested_adds (s : State) (f : Feeder) (op : Operation) (u b : Int) :
    AddsEntry s (s.lineTested f op u b) fun e => e.kind = .lineTest ∧ e.subject = .feeder f ∧ e.origin = op.origin ∧
      e.detail = .lineTest (decide (((s.config f).healthy : Int) * b ≤ 100 * u)) op.testMode ∧
      (inField (some u) = true → e.value1 = some u) ∧ (inField (some b) = true → e.value2 = some b) :=
  (AddsEntry.add s ..).mono fun _ ⟨kind, subject, origin, detail, _, value1, value2⟩ =>
    ⟨kind, subject, origin, detail, value1, value2⟩

theorem judgeTest_tested {u b : Int} (voltage : s.sample.last.values.ufs.get f = some u)
    (bus : s.sample.last.values.ub = some b) :
    AddsEntry s (s.judgeTest f op) fun e => e.kind = .lineTest ∧ e.subject = .feeder f ∧ e.origin = op.origin ∧
      e.detail = .lineTest (decide (((s.config f).healthy : Int) * b ≤ 100 * u)) op.testMode ∧
      (inField (some u) = true → e.value1 = some u) ∧ (inField (some b) = true → e.value2 = some b) := by
  have before := testOver_beside s f op
  have tested := (lineTested_adds (s.testOver f op) f op u b).earlier before.quiet.grows
  rw [before.config] at tested
  rw [judgeTest_judged voltage bus]
  split
  · exact tested.later ((Quiet.refl (s.testNoted f op u b)).lineHealthy f op).grows
  · exact tested.later ((Quiet.refl (s.testNoted f op u b)).lineFaulty f op).grows

/-- A HEALTHY test with checks 6 and 7 passing leads into CLOSING (04 R71). -/
theorem enterClosing_closes {v : State} (beside : Beside s v f) (testing : (s.feeder f).state = .testing) :
    (v.enterClosing f op).feeder f = { s.feeder f with
        state := .closing, recloseDue := none, deferred := false, lockoutReason := none, reclaimWatch := none,
        operation := some { op with deadline := some (s.now + (s.config f).closeConfirm * 100000) },
        attempts := if op.origin = .auto then min ((s.feeder f).attempts + 1) 5 else (s.feeder f).attempts } ∧
      (v.enterClosing f op).fault f = { s.fault f with
        active := true, outstanding := false, protectSince := some s.now, history := [], previousIf := none,
        i0 := none, riseCounter := 0, lowCount := 0 } := by
  have record := enterClosing_feeder v f op
  have fault := ((enterClosing_hands v f op).earlier beside.ground (by rw [beside.feeder])).1
  rw [State.phaseRecord, beside.feeder, beside.config, beside.quiet.now] at record
  rw [record, testing] at fault
  exact ⟨record, fault⟩

end judgeTest

/-- Settles O32: a judged test is the end of its close or the entry into CLOSING. -/
theorem testEndIsJudged : Obligations.TestEndIsJudged := by
  intro f s op d live testing operation deadline due
  refine ⟨_, exec_testEnd live testing operation deadline due, judgeTest_only s f op,
    ((Quiet.refl s).judgeTest f op).ports, judgeTest_hands s f op, judgeTest_claimed, judgeTest_unclaimed,
    fun lost => ?_, fun u voltage dead => ?_, fun u b voltage bus => ⟨judgeTest_tested voltage bus, ?_⟩⟩
  · have ends := judgeTest_unmeasured (op := op) lost
    exact ⟨ends.feeder, ends.feeder ▸ ends.entry⟩
  · have ends := judgeTest_busDead (op := op) voltage dead
    exact ⟨ends.feeder, ends.entry⟩
  · have beside := testNoted_beside (s := s) (f := f) (op := op) u b
    have judged := judgeTest_judged (op := op) voltage bus
    generalize s.testNoted f op u b = v at beside judged
    refine ⟨fun healthy measured bus => ?_, fun healthy lost => ?_, fun healthy measured dead => ?_,
      fun faulty remote => ?_, fun faulty auto => ?_⟩
    · rw [judged, if_pos healthy, lineHealthy_closes (beside.lineMeasured.mpr measured) (beside.busIsLive.mpr bus)]
      exact enterClosing_closes beside testing
    · rw [judged, if_pos healthy, lineHealthy_unmeasured (mt beside.lineMeasured.mp lost)]
      have ends := (endClose_back v v f op (.interlocked .measurementLost) (.refl v f)).earlier beside
      rw [beside.backRecord] at ends
      exact ⟨ends.feeder, ends.feeder ▸ ends.entry⟩
    · rw [judged, if_pos healthy, lineHealthy_busDead (beside.lineMeasured.mpr measured) (mt beside.busIsLive.mp dead)]
      have ends := (endClose_ends v f op (.interlocked .busDead) leads_toOpen).earlier beside
      rw [beside.feeder] at ends
      exact ⟨ends.feeder, ends.entry⟩
    · rw [judged, if_neg faulty]
      have ends := (lineFaulty_ends v f op).earlier beside
      rw [beside.faultyRecord, show s.faultyRecord f op = _ from if_neg remote] at ends
      exact ⟨ends.feeder, ends.entry⟩
    · rw [judged, if_neg faulty]
      have ends := (lineFaulty_ends v f op).earlier beside
      rw [beside.faultyRecord] at ends
      have record : s.faultyRecord f op = _ := if_pos auto
      have attempts : (s.faultyRecord f op).attempts = min ((s.feeder f).attempts + 1) 5 := by
        rw [record]
        split <;> rfl
      refine ⟨ends.feeder.trans record, fun spent => ?_, attempts ▸ ends.entry⟩
      have locked := lineFaulty_lockout v f op auto (by rw [beside.config, beside.feeder]; exact spent)
      rw [beside.feeder] at locked
      exact locked.earlier beside.quiet.grows

/-! ## A reached reclose due, and the reclaim time run (04 R75 to R77) -/

theorem exec_recloseDue {f : Feeder} {s : State} {d : Instant} (live : s.resetLine = false)
    (state : (s.feeder f).state = .recloseWait) (free : (s.feeder f).deferred = false)
    (deadline : (s.feeder f).recloseDue = some d) (due : d ≤ s.now) : exec (.recloseDue f) s = .next (s.recloseSteps f) := by
  have isDue : s.recloseIsDue f = true := by
    rw [State.recloseIsDue, state, free, deadline]
    exact decide_eq_true due
  exact (live_next live _).trans (by rw [if_pos isDue])

theorem exec_reclaimWatchExpiry {f : Feeder} {s : State} {d : Instant} (live : s.resetLine = false)
    (state : (s.feeder f).state = .closed) (watch : (s.feeder f).reclaimWatch = some d) (due : d ≤ s.now) :
    exec (.reclaimWatchExpiry f) s = .next (s.reclaim f) := by
  have isDue : s.reclaimIsDue f = true := by
    rw [State.reclaimIsDue, state, watch]
    exact decide_eq_true due
  exact (live_next live _).trans (by rw [if_pos isDue])

/-- With no attempts left to clear, the reclaim ends its watch only. -/
theorem reclaim_unattempted {f : Feeder} {s : State} (fresh : (s.feeder f).attempts = 0) :
    s.reclaim f = s.modFeeder f fun r => { r with reclaimWatch := none } := by
  have same : s.reclaim f = s.modFeeder f fun r => { r with attempts := 0, reclaimWatch := none } :=
    if_neg (by rw [fresh]; exact lt_irrefl 0)
  rw [same]
  unfold State.modFeeder
  rw [← fresh]

/-- Settles O33. -/
theorem recloseAndReclaimAreJudged : Obligations.RecloseAndReclaimAreJudged := by
  constructor
  · intro f s d live state free deadline due
    have quiet := (Quiet.refl s).recloseSteps f state
    exact ⟨_, exec_recloseDue live state free deadline due,
      onlyFeeder_of quiet fun g differs => (records_apart differs).recloseSteps s, quiet.ports, recloseSteps_takes s f⟩
  · intro f s d live state watch due
    rw [exec_reclaimWatchExpiry live state watch due]
    exact ⟨fun fresh => by rw [reclaim_unattempted fresh], fun tried => congrArg Host.Outcome.next (if_pos tried)⟩

end Sys2Proof.Machine

/-! The positions of the breakers: how a reading is taken, and what a changed position of a feeder leads to (02 R18 to R23;
04 R63, R65, R73, R83). -/

namespace Sys2Proof.Machine

/-! ## A reading taken (02 R19, R20) -/

theorem exec_positionDebounceExpiry {b : Breaker} {s : State} (live : s.resetLine = false)
    (moved : (s.inputOf b).position ≠ some (s.inputOf b).reading) (due : (s.inputOf b).since + 400000 ≤ s.now) :
    exec (.positionDebounceExpiry b) s = .next (s.debounced b) := by
  have stood : (s.inputOf b).since + ms 4 ≤ s.now := by unfold ms; omega
  have isDue : s.debounceDue b = true := by
    unfold State.debounceDue
    dsimp only
    rw [Bool.and_eq_true, bne_iff_ne, decide_eq_true_iff]
    exact ⟨moved, stood⟩
  show execPositionDebounceExpiry b s = _
  unfold execPositionDebounceExpiry
  rw [live_next live, if_pos isDue]

/-- The state in which a changed position of a ready feeder reaches its state machine (02 R20). -/
def State.positionTaken (s : State) (f : Feeder) : State := (s.takePosition (.feeder f)).queueFeederEnd f

theorem debounced_later {s : State} {f : Feeder} (known : (s.input f).position ≠ none) :
    s.debounced (.feeder f) = (s.positionTaken f).positionChange f (s.input f).reading := by
  have notFirst : (s.input f).position.isNone = false := by
    cases e : (s.input f).position with
    | none => exact absurd e known
    | some x => rfl
  show (s.takePosition (.feeder f)).feederPosition f (s.input f).position.isNone (s.input f).reading = _
  rw [notFirst]
  rfl

theorem exec_positionChange {f : Feeder} {s : State} {x : Position} (live : s.resetLine = false)
    (known : (s.input f).position ≠ none) (moved : (s.input f).position ≠ some x) (reading : (s.input f).reading = x)
    (due : (s.input f).since + 400000 ≤ s.now) :
    exec (.positionDebounceExpiry (.feeder f)) s = .next ((s.positionTaken f).positionChange f x) := by
  subst reading
  rw [exec_positionDebounceExpiry (b := .feeder f) live moved due, debounced_later known]

theorem takePosition_frame (s : State) (f : Feeder) : s.takePosition (.feeder f) = { s with
    inputs := (s.modInput f fun x => x.take s.now).inputs, events := (s.takePosition (.feeder f)).events,
    choices := (s.takePosition (.feeder f)).choices } := by
  unfold State.takePosition
  dsimp only
  split <;> rfl

theorem takePosition_grows (s : State) (b : Breaker) : Grows s.events (s.takePosition b).events := by
  have same : (s.modInputOf b fun x => x.take s.now).events = s.events := by cases b <;> rfl
  unfold State.takePosition
  dsimp only
  split
  · exact same ▸ Grows.addEntry (s.modInputOf b fun x => x.take s.now) ..
  · exact same ▸ .refl _

theorem takePosition_events {s : State} {b : Breaker} (silent : (s.inputOf b).reported = false) :
    (s.takePosition b).events = s.events := by
  unfold State.takePosition
  dsimp only
  rw [silent]
  cases b <;> rfl

/-- What a reading taken leaves: all but the inputs, the entries, and what is queued on the far link. -/
structure TakesReading (s v : State) (f : Feeder) : Prop where
  frame : v = { s with inputs := v.inputs, events := v.events, choices := v.choices, links := v.links }
  grows : Grows s.events v.events
  silent : (s.input f).reported = false → v.events = s.events
  ground : (groundView f).view v = (groundView f).view s
  pending : ∀ l, (v.link l).pendingSet = (s.link l).pendingSet

theorem positionTaken_takes (s : State) (f : Feeder) : TakesReading s (s.positionTaken f) f := by
  have frame := takePosition_frame s f
  have grows := takePosition_grows s (.feeder f)
  have silent := takePosition_events (s := s) (b := .feeder f)
  unfold State.positionTaken
  generalize s.takePosition (.feeder f) = u at frame grows silent ⊢
  have ground : (groundView f).view u = (groundView f).view s := by rw [frame]; rfl
  have pending (l : LinkId) : (u.link l).pendingSet = (s.link l).pendingSet := by rw [frame]; rfl
  have queued := queueFeederEnd_frame u f
  refine ⟨?_, ?_, ?_, (ground_queueFeederEnd ..).trans ground, fun l => (queueFeederEnd_pendingSet ..).trans (pending l)⟩
  · rw [queued, frame]
  · rw [queued]; exact grows
  · rw [queued]; exact silent

namespace TakesReading

variable {s v : State} {f : Feeder} (h : TakesReading s v f)
include h

theorem feeder (g : Feeder) : v.feeder g = s.feeder g := by rw [h.frame]; rfl

theorem records (g : Feeder) : (recordsView g).view v = (recordsView g).view s := by rw [h.frame]; rfl

theorem now : v.now = s.now := by rw [h.frame]

theorem sections : v.sections = s.sections := by rw [h.frame]

theorem config : v.config f = s.config f := by rw [h.frame]; rfl

theorem rect : v.rect = s.rect := by rw [h.frame]

theorem openRecord : v.openRecord f = s.openRecord f := by rw [h.frame]; rfl

theorem closedRecord : v.closedRecord f = s.closedRecord f := by rw [h.frame]; rfl

theorem waitRecord : v.waitRecord f = s.waitRecord f := by rw [h.frame]; rfl

theorem lockedRecord (x : LockoutReason) : v.lockedRecord f x = s.lockedRecord f x := by rw [h.frame]; rfl

theorem hands {t : State} (k : StateHandedOn v t f) : StateHandedOn s t f := k.earlier h.ground (by rw [h.feeder])

theorem closeResult (op : Operation) (x : CloseResult) (n : Nat) : IsCloseResult v f op x n = IsCloseResult s f op x n := by
  funext e
  unfold IsCloseResult
  rw [h.now]

end TakesReading

/-! ## What a position leads to -/

theorem enterClosed_record (s : State) (f : Feeder) : s.enterClosed f (s.feeder f) = s.closedRecord f := by
  unfold State.enterClosed State.closedRecord FeederRecord.toClosed FeederRecord.leave sec ms
  simp only [FeederRecord.mk.injEq, true_and, Option.some.injEq]
  ring

section positionChange

variable {s : State} {f : Feeder} {op : Operation}

theorem positionChange_closing (closing : (s.feeder f).state = .closing) (operation : (s.feeder f).operation = some op) :
    s.positionChange f .closed = s.endClose f op .closedOk (s.enterClosed f) := by
  show s.positionClosed f = _
  unfold State.positionClosed
  rw [closing, operation]

theorem positionChange_confirms (closing : (s.feeder f).state = .closing) (operation : (s.feeder f).operation = some op) :
    EndsClose s (s.positionChange f .closed) f op .closedOk (s.closedRecord f) := by
  rw [positionChange_closing closing operation, ← enterClosed_record]
  exact endClose_ends s f op .closedOk (leads_enterClosed s f)

end positionChange

/-! ## A close at its deadlines, or confirmed (04 R68, R73; 07 R143) -/

theorem claimTimeout_only (f : Feeder) (s : State) : OnlyFeeder s (s.claimTimeout f) f := by
  cases operation : (s.feeder f).operation with
  | some op => exact (claimTimeout_ends operation).only
  | none =>
    rw [claimTimeout_idle operation]
    have beside := Beside.giveUp s f .testDone
    exact onlyFeeder_of beside.quiet beside.others

theorem claimTimeout_hands (f : Feeder) (s : State) : StateHandedOn s (s.claimTimeout f) f := by
  cases operation : (s.feeder f).operation with
  | some op => exact (claimTimeout_ends operation).hands
  | none =>
    rw [claimTimeout_idle operation]
    have beside := Beside.giveUp s f .testDone
    exact .of_still (congrArg Prod.fst beside.ground) (by rw [beside.feeder])

/-- Settles O31: a claim run out, the confirm limit, and the position that confirms. -/
theorem closesEndAtTheirDeadlinesOrConfirmed : Obligations.ClosesEndAtTheirDeadlinesOrConfirmed := by
  constructor
  · intro f s d live sent deadline due
    obtain ⟨sections, pending⟩ := claimTimeout_claim f s
    have claim : (s.claimTimeout f).section' f = { s.section' f with claim := .idle, claimDeadline := none } :=
      (section_of_sections sections f).trans (giveUp_section s f .testDone)
    refine ⟨_, exec_claimDeadline live sent deadline due, claimTimeout_only f s, ((Quiet.refl s).claimTimeout f).ports,
      claimTimeout_hands f s, by rw [claim], by rw [claim], fun l far up => ?_, fun op operation => ?_, fun idle => ?_⟩
    · rw [pending]
      exact giveUp_posts .testDone far up
    · have ends := claimTimeout_ends operation
      exact ⟨ends.feeder, ends.feeder ▸ ends.entry⟩
    · rw [claimTimeout_idle idle]
      exact (Beside.giveUp s f .testDone).feeder
  · intro f s op live closing operation
    refine ⟨fun d deadline due => ?_, fun known moved reading due => ?_⟩
    · have ends := endClose_ends s f op .closeFailed leads_toOpen
      refine ⟨_, exec_closeConfirmLimit live closing operation deadline due, ends.only, ends.ports, ends.feeder, ends.hands,
        ?_, ends.entry⟩
      have fault := ends.hands.1
      rw [ends.feeder, closing] at fault
      exact fault
    · have taken := positionTaken_takes s f
      have run := exec_positionChange live known moved reading due
      generalize s.positionTaken f = v at taken run
      have ends := positionChange_confirms (s := v) (f := f) (op := op) (by rw [taken.feeder]; exact closing)
        (by rw [taken.feeder]; exact operation)
      rw [taken.closedRecord] at ends
      have hands := taken.hands ends.hands
      refine ⟨_, run, ends.feeder, hands, ?_, ?_⟩
      · have fault := hands.1
        rw [ends.feeder, closing] at fault
        exact fault
      · have entry := ends.entry
        rw [taken.closeResult] at entry
        exact entry.earlier taken.grows

end Sys2Proof.Machine

/-! A trip confirmed or not, positions that no operation awaits, and the reading a breaker takes (02 R19 to R23; 04 R63 to R65,
R78, R83; 06 R127). -/

namespace Sys2Proof.Machine

/-! ## The rectifier tripped (06 R113, R123) -/

theorem openAc_acOperation (s : State) (o : Origin) : (s.openAc o).rect.acOperation = s.acOpening o := by
  unfold State.openAc State.acOpening ms
  rfl

theorem rectTrip_trips (s : State) (c : RectTripCause) (v w : Option Int) : TripsRectifier s (s.rectTrip c v w) c v w := by
  unfold State.rectTrip
  dsimp only
  generalize stopped : s.modRect (fun r => { r.stopped s.station .tripped with lastTripCause := c }) = u
  have rect : ((u.openAc .protection).rectEntry .rectifierTrip .protection (.rectTrip c) v w).rectToRunners.rect =
      (u.openAc .protection).rect := rectView.rectToRunners _
  have opening : (u.openAc .protection).rect.acOperation = s.acOpening .protection := by
    rw [openAc_acOperation, ← stopped]
    rfl
  have grows : Grows s.events (u.openAc .protection).events := by
    rw [← stopped]
    exact .refl _
  unfold TripsRectifier
  rw [rect]
  refine ⟨?_, ?_, ?_, ?_, ?_, opening, ?_⟩
  · rw [← stopped]; rfl
  · rw [← stopped]; rfl
  · rw [← stopped]; rfl
  · rw [← stopped]; rfl
  · rw [← stopped]
    exact fun g => File.get_fill ..
  · refine AddsEntry.later (t := (u.openAc .protection).rectEntry .rectifierTrip .protection (.rectTrip c) v w) ?_
      (Quiet.refl _).rectToRunners.grows
    refine AddsEntry.earlier (t := u.openAc .protection) ?_ grows
    exact (AddsEntry.add (u.openAc .protection) ..).mono fun e ⟨kind, subject, origin, detail, _, value1, value2⟩ =>
      ⟨kind, subject, origin, detail, value1, value2⟩

theorem TripsRectifier.of_same {s u t : State} {c : RectTripCause} {v w : Option Int} (h : TripsRectifier u t c v w)
    (now : u.now = s.now) (settings : u.settings = s.settings) (acInput : u.acInput = s.acInput)
    (grows : Grows s.events u.events) : TripsRectifier s t c v w := by
  obtain ⟨state, cause, applied, cycle, gates, opening, entry⟩ := h
  unfold TripsRectifier State.station State.acOpening State.acPosition at *
  rw [settings] at applied
  rw [now, acInput] at opening
  exact ⟨state, cause, applied, cycle, gates, opening, entry.earlier grows⟩

/-! ## A trip not confirmed (04 R64) -/

theorem exec_tripConfirmLimit {f : Feeder} {s : State} {op : Operation} {d : Instant} (live : s.resetLine = false)
    (state : (s.feeder f).state = .tripping) (operation : (s.feeder f).operation = some op)
    (deadline : op.deadline = some d) (due : d ≤ s.now) : exec (.tripConfirmLimit f) s = .next (s.breakerFails f op) := by
  show execTripConfirmLimit f s = _
  unfold execTripConfirmLimit
  rw [live_next live, State.phaseDue_eq state operation deadline due]

theorem postFar_transferTrip {u : State} {f : Feeder} {l : LinkId} (far : (u.config f).farLink = some l)
    (up : (u.link l).state = .up) : ∃ e ∈ ((u.postFar f .transferTrip).link l).pendingSet,
      e.signal = .transferTrip (u.config f).farFeeder ∧ e.repeats = 3 := by
  rw [postFar_link .transferTrip far]
  exact post_once (u.link l) (.transferTrip (u.config f).farFeeder) none up

section feederNotices

variable {u : State} {old : FeederState} {f : Feeder}

theorem failureNotice_of_failed (failed : (u.feeder f).state = .breakerFailed) (started : u.rect.state.started = true) :
    u.failureNotice f = u.rectTrip .feederBreakerFailed (some (f.val : Int)) none := by
  unfold State.failureNotice
  rw [if_pos (by rw [failed, started]; rfl)]

theorem failureNotice_of_stopped (stopped : u.rect.state.started = false) : u.failureNotice f = u := by
  unfold State.failureNotice
  rw [if_neg (by rw [stopped, Bool.and_false]; exact Bool.false_ne_true)]

/-- The notices of a change of state before the Firing Unit judges a failed breaker (02 R25). -/
def State.plainNotices (u : State) (old : FeederState) (f : Feeder) : State :=
  ((u.protectionNotice old f).retardNotice f).queueFeederEnd f

theorem feederNotices_eq (moved : (u.feeder f).state ≠ old) :
    u.feederNotices old f = (u.plainNotices old f).failureNotice f := if_neg moved

theorem plainNotices_frame (u : State) (old : FeederState) (f : Feeder) : u.plainNotices old f = { u with
    faults := u.faults.set f ((u.fault f).moved old (u.feeder f).state u.now),
    rect := { u.rect with retard := u.rect.retard.set f (u.retardAfter f) },
    links := (u.plainNotices old f).links } := by
  unfold State.plainNotices
  rw [queueFeederEnd_frame]
  rfl

/-- A change between states that Fault Detection does not tell apart leaves it (03 R40). -/
theorem feederNotices_faults (same : (u.fault f).noticed old (u.feeder f).state u.now = u.fault f) :
    (u.feederNotices old f).faults = u.faults := by
  by_cases moved : (u.feeder f).state = old
  · rw [feederNotices_of_same moved]
  · rw [feederNotices_eq moved]
    refine (faultsView.failureNotice ..).trans ?_
    show (u.plainNotices old f).faults = u.faults
    rw [plainNotices_frame, moved_eq_noticed, same]
    exact set_get ..

end feederNotices

section breakerFails

variable (s : State) (f : Feeder) (op : Operation)

/-- The entry into BREAKER_FAILED, recorded (04 R64). -/
def State.failureEntered : State :=
  (s.modFeeder f fun r => r.toPhase .breakerFailed { op with deadline := none }).addEntry .breakerFailed
    (.feeder f) .protection (.failedTrip (s.feeder f).lastTripCause)
    (some ((inMs (op.deadline.getD s.now - op.startAt) : Nat) : Int)) (some ((s.position f).code : Int))

/-- A TRANSFER TRIP posted for it, before the notices (04 R64). -/
def State.failureNoted : State := (s.failureEntered f op).postFar f .transferTrip

theorem breakerFails_eq : s.breakerFails f op = (s.failureNoted f op).feederNotices .tripping f := rfl

theorem failureNoted_frame : s.failureNoted f op = { s with
    feeders := s.feeders.set f ((s.feeder f).toPhase .breakerFailed { op with deadline := none }),
    events := (s.failureNoted f op).events, choices := (s.failureNoted f op).choices,
    links := (s.failureNoted f op).links } := by
  unfold State.failureNoted
  rw [postFar_frame]
  rfl

theorem failureNoted_feeder (g : Feeder) : (s.failureNoted f op).feeder g =
    if g = f then (s.feeder f).toPhase .breakerFailed { op with deadline := none } else s.feeder g := by
  rw [failureNoted_frame]
  exact File.get_set ..

end breakerFails

section breakerFails

variable {s : State} {f : Feeder} {op : Operation}

theorem failureNoted_state : ((s.failureNoted f op).feeder f).state = .breakerFailed := by
  rw [failureNoted_feeder, if_pos rfl]
  rfl

theorem failureNoted_grows : Grows s.events (s.failureNoted f op).events := by
  unfold State.failureNoted
  rw [postFar_frame]
  exact Grows.addEntry (s.modFeeder f _) ..

theorem failureNoted_entry {d : Instant} (deadline : op.deadline = some d) : AddsEntry s (s.failureNoted f op) fun e =>
    e.kind = .breakerFailed ∧ e.subject = .feeder f ∧ e.origin = .protection ∧
      e.detail = .failedTrip (s.feeder f).lastTripCause ∧
      ((d - op.startAt) / 100000 < 2147483648 → e.value1 = some (((d - op.startAt) / 100000 : Nat) : Int)) ∧
      e.value2 = some (match s.position f with
        | .opened => 0
        | .closed => 1
        | .invalid => 2) := by
  unfold State.failureNoted State.failureEntered
  rw [postFar_frame, deadline, Option.getD_some]
  refine (AddsEntry.add (s.modFeeder f _) ..).mono fun e ⟨kind, subject, origin, detail, _, value1, value2⟩ =>
    ⟨kind, subject, origin, detail, fun fits => value1 (inField_nat fits), ?_⟩
  refine (value2 (inField_nat ?_)).trans ?_
  · cases s.position f <;> decide
  · cases s.position f <;> rfl

theorem breakerFails_feeder (g : Feeder) : (s.breakerFails f op).feeder g =
    if g = f then (s.feeder f).toPhase .breakerFailed { op with deadline := none } else s.feeder g := by
  rw [breakerFails_eq, feederNotices_feeder, failureNoted_feeder]

theorem breakerFails_faults : (s.breakerFails f op).faults = s.faults := by
  rw [breakerFails_eq]
  refine (feederNotices_faults ?_).trans (by rw [failureNoted_frame])
  rw [failureNoted_state]
  rfl

theorem failureNoted_ground : (groundView f).view (s.failureNoted f op) = (groundView f).view s := by
  unfold State.failureNoted
  exact (ground_postFar ..).trans ((groundView f).addEntry ..)

theorem breakerFails_hands (tripping : (s.feeder f).state = .tripping) : StateHandedOn s (s.breakerFails f op) f := by
  rw [breakerFails_eq, ← tripping]
  exact .notices failureNoted_ground

theorem failureNoted_rect : (s.failureNoted f op).rect = s.rect := by rw [failureNoted_frame]

/-- A failed breaker trips a started rectifier (06 R127). -/
theorem breakerFails_trips (started : s.rect.state.started = true) :
    TripsRectifier s (s.breakerFails f op) .feederBreakerFailed (some (f.val : Int)) none ∧
      (s.breakerFails f op).rect.retard.get f = false := by
  have moved : ((s.failureNoted f op).feeder f).state ≠ .tripping := by
    rw [failureNoted_state]
    decide
  have quiet : Quiet s (s.failureNoted f op) := (((Quiet.refl s).toState f (leads_toPhase rfl rfl)).addEntry ..).postFar f _
  have plain := plainNotices_frame (s.failureNoted f op) .tripping f
  have rect := failureNoted_rect (s := s) (f := f) (op := op)
  rw [breakerFails_eq, feederNotices_eq moved]
  generalize (s.failureNoted f op).plainNotices .tripping f = u at plain ⊢
  have failed : (u.feeder f).state = .breakerFailed := by rw [plain]; exact failureNoted_state
  have running : u.rect.state.started = true := by rw [plain]; exact rect ▸ started
  rw [failureNotice_of_failed failed running]
  refine ⟨(rectTrip_trips u _ _ _).of_same ?_ ?_ ?_ ?_, ?_⟩
  · rw [plain]; exact quiet.now
  · rw [plain]; exact quiet.settings
  · rw [plain]; exact quiet.acInput
  · rw [plain]; exact quiet.grows
  · have retard := failureNotice_retard u f
    rw [failureNotice_of_failed failed running] at retard
    rw [retard, plain]
    refine (File.get_set_self ..).trans ?_
    rw [State.retardAfter, failureNoted_state]
    rfl

/-- A rectifier that has not started hears of the retard only (06 R116). -/
theorem breakerFails_rect (stopped : s.rect.state.started = false) :
    (s.breakerFails f op).rect = { s.rect with retard := s.rect.retard.set f false } := by
  have moved : ((s.failureNoted f op).feeder f).state ≠ .tripping := by
    rw [failureNoted_state]
    decide
  have plain := plainNotices_frame (s.failureNoted f op) .tripping f
  have rect := failureNoted_rect (s := s) (f := f) (op := op)
  rw [breakerFails_eq, feederNotices_eq moved]
  generalize (s.failureNoted f op).plainNotices .tripping f = u at plain ⊢
  rw [failureNotice_of_stopped (by rw [plain]; exact rect ▸ stopped), plain, rect, State.retardAfter, failureNoted_state]
  rfl

theorem breakerFails_transferTrip {l : LinkId} (far : (s.config f).farLink = some l) (up : (s.link l).state = .up) :
    ∃ e ∈ ((s.breakerFails f op).link l).pendingSet, e.signal = .transferTrip (s.config f).farFeeder ∧ e.repeats = 3 := by
  rw [breakerFails_eq, feederNotices_pendingSet]
  exact postFar_transferTrip (u := s.failureEntered f op) far up

end breakerFails

/-- Settles O25. -/
theorem unconfirmedTripIsABreakerFailure : Obligations.UnconfirmedTripIsABreakerFailure := by
  intro f s op d live tripping operation deadline due
  have quiet := (Quiet.refl s).breakerFails f op
  refine ⟨_, exec_tripConfirmLimit live tripping operation deadline due, ?_, fun g differs => ?_, quiet.settings, quiet.inputs,
    quiet.ports, breakerFails_faults, breakerFails_hands tripping, ?_, fun started => ?_, fun stopped => ?_,
    fun l far up => breakerFails_transferTrip far up⟩
  · rw [breakerFails_feeder, if_pos rfl]
    rfl
  · rw [breakerFails_feeder, if_neg differs]
  · exact (failureNoted_entry deadline).later (feederNotices_grows ..)
  · refine breakerFails_trips ?_
    rcases started with state | state | state <;> rw [state] <;> rfl
  · refine breakerFails_rect ?_
    rcases stopped with state | state <;> rw [state] <;> rfl

/-! ## A trip confirmed (04 R63, R65) -/

section tripCleared

variable (s : State) (f : Feeder) (op : Operation)

/-- The TRIP CLEARED entry (04 R63). -/
def State.clearedEntry : State :=
  s.addEntry .tripCleared (.feeder f) op.origin (.feederState (s.feeder f).state) (some ((s.msSince op.startAt : Nat) : Int))

/-- LOCKOUT follows it where the next state is locked out (04 R78). -/
def State.clearedNoted : State :=
  match (s.feeder f).lockoutReason with
  | some reason => (s.clearedEntry f op).lockoutEntry f reason
  | none => s.clearedEntry f op

theorem tripCleared_eq (next : FeederRecord → FeederRecord) : s.tripCleared f op next =
    ((s.modFeeder f next).clearedNoted f op).feederNotices (s.feeder f).state f := rfl

theorem clearedNoted_view {β : Type} (V : View β) : V.view (s.clearedNoted f op) = V.view s := by
  unfold State.clearedNoted State.lockoutEntry State.clearedEntry
  split
  · exact (V.addEntry ..).trans (V.addEntry ..)
  · exact V.addEntry ..

theorem clearedNoted_rect : (s.clearedNoted f op).rect = s.rect := by
  unfold State.clearedNoted
  split <;> rfl

theorem clearedNoted_entry : AddsEntry s (s.clearedNoted f op) fun e => e.kind = .tripCleared ∧ e.subject = .feeder f ∧
    e.origin = op.origin ∧ e.detail = .feederState (s.feeder f).state ∧
    ((s.now - op.startAt) / 100000 < 2147483648 → e.value1 = some (((s.now - op.startAt) / 100000 : Nat) : Int)) := by
  have cleared : AddsEntry s (s.clearedEntry f op) fun e => e.kind = .tripCleared ∧ e.subject = .feeder f ∧
      e.origin = op.origin ∧ e.detail = .feederState (s.feeder f).state ∧
      ((s.now - op.startAt) / 100000 < 2147483648 → e.value1 = some (((s.now - op.startAt) / 100000 : Nat) : Int)) :=
    (AddsEntry.add s ..).mono fun e ⟨kind, subject, origin, detail, _, value1, _⟩ =>
      ⟨kind, subject, origin, detail, fun fits => value1 (inField_nat fits)⟩
  unfold State.clearedNoted
  split
  · exact cleared.later (Grows.addEntry _ ..)
  · exact cleared

theorem clearedNoted_lockout (reason : LockoutReason) (locked : (s.feeder f).lockoutReason = some reason) :
    AddsEntry s (s.clearedNoted f op) fun e => e.kind = .lockout ∧ e.detail = .lockout reason ∧
      (reason = .breakerFailed → e.origin = .protection) := by
  unfold State.clearedNoted
  rw [locked]
  refine AddsEntry.earlier (t := s.clearedEntry f op) ?_ (Grows.addEntry s ..)
  refine (AddsEntry.add (s.clearedEntry f op) ..).mono fun e ⟨kind, _, origin, detail, _⟩ => ⟨kind, detail, ?_⟩
  rintro rfl
  exact origin

end tripCleared

/-- A trip ends in a next state, told to the other blocks (04 R63). -/
structure ClearsTrip (s t : State) (f : Feeder) (op : Operation) (r : FeederRecord) : Prop where
  feeder : t.feeder f = r
  hands : StateHandedOn s t f
  rect : t.rect = { s.rect with retard := s.rect.retard.set f false }
  entry : AddsEntry s t fun e => e.kind = .tripCleared ∧ e.subject = .feeder f ∧ e.origin = op.origin ∧
    e.detail = .feederState r.state ∧
    ((s.now - op.startAt) / 100000 < 2147483648 → e.value1 = some (((s.now - op.startAt) / 100000 : Nat) : Int))
  lockout : ∀ reason, r.lockoutReason = some reason → AddsEntry s t fun e => e.kind = .lockout ∧ e.detail = .lockout reason ∧
    (reason = .breakerFailed → e.origin = .protection)

theorem tripCleared_clears {s : State} {f : Feeder} (op : Operation) {next : FeederRecord → FeederRecord} {r : FeederRecord}
    (record : next (s.feeder f) = r) (moved : r.state ≠ (s.feeder f).state) (ended : r.state ≠ .tripping)
    (whole : r.state ≠ .breakerFailed) : ClearsTrip s (s.tripCleared f op next) f op r := by
  rw [tripCleared_eq]
  have entered : (s.modFeeder f next).feeder f = r := (State.modFeeder_feeder_self ..).trans record
  have entry := clearedNoted_entry (s.modFeeder f next) f op
  have lockout := clearedNoted_lockout (s.modFeeder f next) f op
  have noted : ((s.modFeeder f next).clearedNoted f op).feeder f = r :=
    (congrArg (fun v => File.get v f) (clearedNoted_view _ f op feedersView)).trans entered
  have rect := clearedNoted_rect (s.modFeeder f next) f op
  have ground : (groundView f).view ((s.modFeeder f next).clearedNoted f op) = (groundView f).view s :=
    clearedNoted_view (s.modFeeder f next) f op (groundView f)
  rw [entered] at entry lockout
  generalize (s.modFeeder f next).clearedNoted f op = u at entry lockout noted rect ground
  refine ⟨(feederNotices_feeder ..).trans noted, .notices ground, ?_, entry.later (feederNotices_grows ..),
    fun reason locked => (lockout reason locked).later (feederNotices_grows ..)⟩
  rw [feederNotices_rect (by rw [noted]; exact moved) (by rw [noted]; exact whole), rect, State.retardAfter, noted,
    beq_eq_false_iff_ne.mpr ended]
  rfl

namespace ClearsTrip

variable {s v t : State} {f : Feeder} {op : Operation} {r : FeederRecord}

theorem retard (h : ClearsTrip s t f op r) : t.rect.retard.get f = false := by
  rw [h.rect]
  exact File.get_set_self ..

theorem taken (h : ClearsTrip v t f op r) (k : TakesReading s v f) : ClearsTrip s t f op r := by
  refine ⟨h.feeder, k.hands h.hands, k.rect ▸ h.rect, ?_, fun reason locked => (h.lockout reason locked).earlier k.grows⟩
  have entry := h.entry
  rw [k.now] at entry
  exact entry.earlier k.grows

end ClearsTrip

/-! ### The next state (04 R63) -/

theorem afterTrip_open {s : State} {f : Feeder} (ends : (s.feeder f).lastTripCause = .commanded ∨ (s.config f).maxReclose = 0) :
    s.afterTrip f (s.feeder f) = s.openRecord f := if_pos ends

theorem toRecloseWait_record (s : State) (f : Feeder) :
    (s.feeder f).toRecloseWait (s.now + sec (s.config f).recloseDelay) = s.waitRecord f := by
  unfold FeederRecord.toRecloseWait State.waitRecord FeederRecord.leave sec ms
  simp only [FeederRecord.mk.injEq, true_and, and_true, Option.some.injEq]
  ring

section afterTrip

variable {s : State} {f : Feeder} (faulted : (s.feeder f).lastTripCause ≠ .commanded) (recloses : 0 < (s.config f).maxReclose)
include faulted recloses

theorem afterTrip_waits (few : (s.feeder f).attempts < (s.config f).maxReclose) :
    s.afterTrip f (s.feeder f) = s.waitRecord f := by
  rw [← toRecloseWait_record]
  exact (if_neg (by rintro (cause | zero) <;> [exact faulted cause; omega])).trans (if_pos few)

theorem afterTrip_locks (spent : (s.config f).maxReclose ≤ (s.feeder f).attempts) :
    s.afterTrip f (s.feeder f) = s.lockedRecord f .attempts :=
  (if_neg (by rintro (cause | zero) <;> [exact faulted cause; omega])).trans (if_neg (not_lt.mpr spent))

end afterTrip

theorem afterTrip_state (s : State) (f : Feeder) (r : FeederRecord) : (s.afterTrip f r).state = .opened ∨
    (s.afterTrip f r).state = .recloseWait ∨ (s.afterTrip f r).state = .lockedOut := by
  unfold State.afterTrip
  dsimp only
  split
  · exact .inl rfl
  · split
    · exact .inr (.inl rfl)
    · exact .inr (.inr rfl)

section positionOpened

variable {s : State} {f : Feeder} {op : Operation}

theorem positionChange_tripping (tripping : (s.feeder f).state = .tripping) (operation : (s.feeder f).operation = some op) :
    s.positionChange f .opened = s.tripCleared f op (s.afterTrip f) := by
  show s.positionOpened f = _
  unfold State.positionOpened
  rw [tripping, operation]

theorem positionChange_failed (failed : (s.feeder f).state = .breakerFailed) (operation : (s.feeder f).operation = some op) :
    s.positionChange f .opened = s.tripCleared f op fun r => r.toLockedOut .breakerFailed := by
  show s.positionOpened f = _
  unfold State.positionOpened
  rw [failed, operation]

theorem tripping_clears (tripping : (s.feeder f).state = .tripping) (operation : (s.feeder f).operation = some op) :
    ClearsTrip s (s.positionChange f .opened) f op (s.afterTrip f (s.feeder f)) := by
  rw [positionChange_tripping tripping operation]
  have left := afterTrip_state s f (s.feeder f)
  refine tripCleared_clears op rfl ?_ ?_ ?_
  · rw [tripping]
    rcases left with state | state | state <;> rw [state] <;> decide
  · rcases left with state | state | state <;> rw [state] <;> decide
  · rcases left with state | state | state <;> rw [state] <;> decide

theorem failed_clears (failed : (s.feeder f).state = .breakerFailed) (operation : (s.feeder f).operation = some op) :
    ClearsTrip s (s.positionChange f .opened) f op (s.lockedRecord f .breakerFailed) := by
  rw [positionChange_failed failed operation]
  refine tripCleared_clears op rfl ?_ ?_ ?_
  · rw [failed]
    exact FeederState.noConfusion
  · exact FeederState.noConfusion
  · exact FeederState.noConfusion

end positionOpened

/-- Settles O26. -/
theorem openPositionConfirmsATrip : Obligations.OpenPositionConfirmsATrip := by
  intro f s op live known moved reading due operation
  have taken := positionTaken_takes s f
  have run := exec_positionChange live known moved reading due
  generalize s.positionTaken f = v at taken run
  have operation' : (v.feeder f).operation = some op := by rw [taken.feeder]; exact operation
  refine ⟨fun tripping => ?_, fun failed => ?_⟩
  · have clears := (tripping_clears (by rw [taken.feeder]; exact tripping) operation').taken taken
    refine ⟨_, run, clears.hands, clears.retard, clears.rect, fun ends => ?_, fun faulted recloses few => ?_,
      fun faulted recloses spent => ?_, clears.feeder ▸ clears.entry⟩
    · rw [clears.feeder, afterTrip_open (by rw [taken.feeder, taken.config]; exact ends), taken.openRecord]
    · rw [← taken.feeder f] at faulted few
      rw [← taken.config] at recloses few
      rw [clears.feeder, afterTrip_waits faulted recloses few, taken.waitRecord]
    · rw [← taken.feeder f] at faulted spent
      rw [← taken.config] at recloses spent
      rw [clears.feeder, afterTrip_locks faulted recloses spent, taken.lockedRecord]
  · have clears := (failed_clears (by rw [taken.feeder]; exact failed) operation').taken taken
    rw [taken.lockedRecord] at clears
    exact ⟨_, run, clears.hands, clears.retard, clears.rect, clears.feeder,
      clears.entry.mono fun e ⟨kind, _, _, detail, _⟩ => ⟨kind, detail⟩,
      (clears.lockout .breakerFailed rfl).mono fun e ⟨kind, detail, origin⟩ => ⟨kind, detail, origin rfl⟩⟩

end Sys2Proof.Machine

/-! Positions of a feeder that no operation awaits, the reading a breaker takes, and position faults (02 R19 to R23; 04 R83). -/

namespace Sys2Proof.Machine

/-! ## Positions that no operation awaits (04 R78, R83) -/

theorem isCloseResult_of_now {s u : State} (now : u.now = s.now) (f : Feeder) (op : Operation) (x : CloseResult) (n : Nat) :
    IsCloseResult u f op x n = IsCloseResult s f op x n := by
  funext e
  unfold IsCloseResult
  rw [now]

section uncommanded

variable (s : State) (f : Feeder) (op : Operation)

theorem openedUncommanded_feeder : (s.openedUncommanded f).feeder f = s.openRecord f := by
  unfold State.openedUncommanded
  rw [feederNotices_feeder]
  exact State.modFeeder_feeder_self ..

theorem openedUncommanded_entry : AddsEntry s (s.openedUncommanded f) fun e =>
    e.kind = .openedUncommanded ∧ e.subject = .feeder f ∧ e.origin = .protection ∧ e.detail = .nothing ∧
      (inField (s.feeder f).lastIf = true → e.value1 = (s.feeder f).lastIf) := by
  unfold State.openedUncommanded
  refine AddsEntry.later ?_ (feederNotices_grows ..)
  exact (AddsEntry.add (s.modFeeder f _) ..).mono fun e ⟨kind, subject, origin, detail, _, value1, _⟩ =>
    ⟨kind, subject, origin, detail, value1⟩

theorem openedUncommanded_hands : StateHandedOn s (s.openedUncommanded f) f := by
  unfold State.openedUncommanded
  exact .notices ((groundView f).addEntry ..)

theorem closedUncommandedEntry_adds (d : Detail) : AddsEntry s (s.closedUncommandedEntry f d) fun e =>
    e.kind = .closedUncommanded ∧ e.subject = .feeder f ∧ e.origin = .protection ∧ e.detail = d :=
  (AddsEntry.add s ..).mono fun _ ⟨kind, subject, origin, detail, _⟩ => ⟨kind, subject, origin, detail⟩

theorem closedUncommanded_feeder : (s.closedUncommanded f).feeder f = s.closedRecord f := by
  unfold State.closedUncommanded
  rw [feederNotices_feeder, ← enterClosed_record]
  exact State.modFeeder_feeder_self ..

theorem closedUncommanded_entry : AddsEntry s (s.closedUncommanded f) fun e =>
    e.kind = .closedUncommanded ∧ e.subject = .feeder f ∧ e.origin = .protection ∧ e.detail = .nothing := by
  unfold State.closedUncommanded
  exact (closedUncommandedEntry_adds (s.modFeeder f (s.enterClosed f)) f .nothing).later (feederNotices_grows ..)

theorem closedUncommanded_hands : StateHandedOn s (s.closedUncommanded f) f := by
  unfold State.closedUncommanded
  exact .notices ((groundView f).addEntry ..)

/-- The claim given back and CLOSED entered, before the entries (04 R83). -/
def State.testClosed : State := (s.releaseClaim f).modFeeder f (s.enterClosed f)

theorem closedDuringTest_eq : s.closedDuringTest f op =
    (((s.testClosed f).closeResultEntry f op (.aborted .uncommandedClose)).closedUncommandedEntry f).closeEnded
      (s.feeder f).state f (.aborted .uncommandedClose) := rfl

theorem testClosed_feeder : (s.testClosed f).feeder f = s.closedRecord f := by
  rw [← enterClosed_record, ← releaseClaim_feeder s f f]
  exact State.modFeeder_feeder_self ..

theorem closedDuringTest_feeder : (s.closedDuringTest f op).feeder f = s.closedRecord f := by
  rw [closedDuringTest_eq, closeEnded_feeder]
  exact testClosed_feeder s f

theorem closedDuringTest_gives : GivesClaimBack s (s.closedDuringTest f op) f := by
  rw [closedDuringTest_eq]
  have ended := LeavesClaim.closeEnded (((s.testClosed f).closeResultEntry f op (.aborted .uncommandedClose)).closedUncommandedEntry f)
    (s.feeder f).state f (.aborted .uncommandedClose)
  exact (releaseClaim_gives s f).later ended.records ended.pending

theorem closedDuringTest_result : AddsEntry s (s.closedDuringTest f op)
    (IsCloseResult s f op (.aborted .uncommandedClose) (s.feeder f).attempts) := by
  have quiet := (Quiet.refl s).releaseClaim f
  have result := closeResultEntry_adds (s.testClosed f) f op (.aborted .uncommandedClose)
  have now : (s.testClosed f).now = s.now := quiet.now
  have attempts : ((s.testClosed f).feeder f).attempts = (s.feeder f).attempts := by rw [testClosed_feeder]; rfl
  rw [closedDuringTest_eq]
  rw [isCloseResult_of_now now, attempts] at result
  exact ((result.later (Grows.addEntry _ ..)).later (closeEnded_grows ..)).earlier quiet.grows

theorem closedDuringTest_entry : AddsEntry s (s.closedDuringTest f op) fun e =>
    e.kind = .closedUncommanded ∧ e.subject = .feeder f ∧ e.origin = .protection ∧ e.detail = .nothing := by
  have quiet := (Quiet.refl s).releaseClaim f
  have entry := closedUncommandedEntry_adds ((s.testClosed f).closeResultEntry f op (.aborted .uncommandedClose)) f .nothing
  rw [closedDuringTest_eq]
  refine (entry.later (closeEnded_grows ..)).earlier ?_
  exact quiet.grows.trans (Grows.addEntry (s.testClosed f) ..)

theorem closedDuringTest_hands : StateHandedOn s (s.closedDuringTest f op) f := by
  rw [closedDuringTest_eq]
  refine .notices (((groundView f).closeToRunners ..).trans (((groundView f).addEntry ..).trans ?_))
  exact ((groundView f).addEntry ..).trans (ground_releaseClaim s f f)

end uncommanded

/-! ## A changed position at the state machine -/

section positionChange

variable {s : State} {f : Feeder}

theorem positionChange_hands (s : State) (f : Feeder) (x : Position) : StateHandedOn s (s.positionChange f x) f := by
  cases x with
  | opened =>
    show StateHandedOn s (s.positionOpened f) f
    unfold State.positionOpened
    split
    next op tripping operation =>
      have clears := (tripping_clears tripping operation).hands
      rw [positionChange_tripping tripping operation] at clears
      exact clears
    next op failed operation =>
      have clears := (failed_clears failed operation).hands
      rw [positionChange_failed failed operation] at clears
      exact clears
    · exact openedUncommanded_hands s f
    · exact .of_still rfl rfl
  | closed =>
    show StateHandedOn s (s.positionClosed f) f
    unfold State.positionClosed
    split
    · exact endClose_hands ..
    · exact closedUncommanded_hands s f
    · exact closedUncommanded_hands s f
    · exact closedDuringTest_hands s f _
    · exact closedDuringTest_hands s f _
    · exact .of_still rfl rfl
    · exact .of_still rfl rfl
  | invalid => exact .of_still rfl rfl

theorem Apart.positionChange {β : Type} {V : View β} {f : Feeder} (h : Apart V f) (s : State) (x : Position) :
    V.view (s.positionChange f x) = V.view s := by
  have cleared (op : Operation) (next : FeederRecord → FeederRecord) : V.view (s.tripCleared f op next) = V.view s := by
    rw [tripCleared_eq, h.feederNotices, clearedNoted_view, h.modFeeder]
  have closed : V.view (s.closedUncommanded f) = V.view s := by
    unfold State.closedUncommanded State.closedUncommandedEntry
    rw [h.feederNotices, V.addEntry, h.modFeeder]
  have tested (op : Operation) : V.view (s.closedDuringTest f op) = V.view s := by
    rw [closedDuringTest_eq, h.closeEnded]
    unfold State.closedUncommandedEntry State.closeResultEntry State.testClosed
    rw [V.addEntry, V.addEntry, h.modFeeder, h.releaseClaim]
  cases x with
  | opened =>
    show V.view (s.positionOpened f) = V.view s
    unfold State.positionOpened
    split
    · exact cleared ..
    · exact cleared ..
    · unfold State.openedUncommanded
      rw [h.feederNotices, V.addEntry, h.modFeeder]
    · rfl
  | closed =>
    show V.view (s.positionClosed f) = V.view s
    unfold State.positionClosed
    split
    · exact h.endClose ..
    · exact closed
    · exact closed
    · exact tested _
    · exact tested _
    · exact V.addEntry ..
    · rfl
  | invalid => rfl

theorem positionChange_opens (state : (s.feeder f).state = .closed) : s.positionChange f .opened = s.openedUncommanded f := by
  show s.positionOpened f = _
  unfold State.positionOpened
  rw [state]

theorem positionChange_closes (state : (s.feeder f).state = .opened ∨ (s.feeder f).state = .recloseWait) :
    s.positionChange f .closed = s.closedUncommanded f := by
  show s.positionClosed f = _
  unfold State.positionClosed
  rcases state with state | state <;> rw [state]

theorem positionChange_tests {op : Operation} (state : (s.feeder f).state = .claiming ∨ (s.feeder f).state = .testing)
    (operation : (s.feeder f).operation = some op) : s.positionChange f .closed = s.closedDuringTest f op := by
  show s.positionClosed f = _
  unfold State.positionClosed
  rcases state with state | state <;> rw [state, operation]

theorem positionChange_locked (state : (s.feeder f).state = .lockedOut) :
    s.positionChange f .closed = s.closedUncommandedEntry f (.feederState .lockedOut) := by
  show s.positionClosed f = _
  unfold State.positionClosed
  rw [state]

/-- The positions that a state answers with nothing (04 R83). -/
theorem positionChange_still {x : Position} (rest : x = .invalid ∨
    (x = .closed ∧ ((s.feeder f).state = .closed ∨ (s.feeder f).state = .tripping ∨ (s.feeder f).state = .breakerFailed)) ∨
    (x = .opened ∧ ((s.feeder f).state = .opened ∨ (s.feeder f).state = .recloseWait ∨ (s.feeder f).state = .claiming ∨
      (s.feeder f).state = .testing ∨ (s.feeder f).state = .closing ∨ (s.feeder f).state = .lockedOut))) :
    s.positionChange f x = s := by
  rcases rest with rfl | ⟨rfl, state⟩ | ⟨rfl, state⟩
  · rfl
  · show s.positionClosed f = s
    unfold State.positionClosed
    rcases state with state | state | state <;> rw [state]
  · show s.positionOpened f = s
    unfold State.positionOpened
    rcases state with state | state | state | state | state | state <;> rw [state]

end positionChange

/-- Settles O27. -/
theorem uncommandedPositionsOfAFeeder : Obligations.UncommandedPositionsOfAFeeder := by
  intro f s x live ready known reading moved due
  have taken := positionTaken_takes s f
  have run := exec_positionChange live known moved reading.symm due
  generalize s.positionTaken f = v at taken run
  have feeder := taken.feeder f
  refine ⟨_, run, fun g differs => ?_, taken.hands (positionChange_hands v f x), ?_, ?_, ?_, ?_, ?_⟩
  · have left := ((records_apart differs).positionChange v x).trans (taken.records g)
    exact ⟨congrArg Prod.fst left, congrArg (fun y => y.2.1) left, congrArg (fun y => y.2.2) left⟩
  · rintro rfl state
    rw [positionChange_opens (by rw [feeder]; exact state), openedUncommanded_feeder, taken.openRecord]
    have entry := openedUncommanded_entry v f
    rw [feeder] at entry
    exact ⟨rfl, entry.earlier taken.grows⟩
  · rintro rfl state
    rw [positionChange_closes (by rw [feeder]; exact state), closedUncommanded_feeder, taken.closedRecord]
    exact ⟨rfl, (closedUncommanded_entry v f).earlier taken.grows⟩
  · rintro op rfl state operation
    rw [positionChange_tests (by rw [feeder]; exact state) (by rw [feeder]; exact operation), closedDuringTest_feeder,
      taken.closedRecord]
    have links := congrArg (fun y => y.2.2.2) taken.ground
    have settings := congrArg (fun y => y.2.2.1) taken.ground
    have result := closedDuringTest_result v f op
    rw [taken.closeResult, feeder] at result
    exact ⟨rfl, (closedDuringTest_gives v f op).of_same taken.sections settings fun l => ⟨congrFun links l, taken.pending l⟩,
      result.earlier taken.grows, (closedDuringTest_entry v f op).earlier taken.grows⟩
  · rintro rfl state
    rw [positionChange_locked (by rw [feeder]; exact state)]
    exact ⟨feeder, (closedUncommandedEntry_adds v f _).earlier taken.grows⟩
  · intro rest
    rw [positionChange_still (by rw [feeder]; exact rest)]
    exact ⟨feeder, taken.silent⟩

end Sys2Proof.Machine

/-! The reading a breaker takes, its first, and a position fault (02 R19 to R23). -/

namespace Sys2Proof.Machine

/-! ## A reading taken (02 R19, R21) -/

theorem State.inputOf_modInputOf_self (s : State) (b : Breaker) (g : ContactInput → ContactInput) :
    (s.modInputOf b g).inputOf b = g (s.inputOf b) := by
  cases b with
  | feeder f => exact File.get_set_self ..
  | ac => rfl

theorem State.inputOf_modInputOf_ne (s : State) {b b' : Breaker} (g : ContactInput → ContactInput) (differs : b' ≠ b) :
    (s.modInputOf b g).inputOf b' = s.inputOf b' := by
  cases b with
  | feeder f =>
    cases b' with
    | feeder f' => exact File.get_set_ne _ _ fun same => differs (congrArg _ same)
    | ac => rfl
  | ac =>
    cases b' with
    | feeder f' => rfl
    | ac => exact absurd rfl differs

theorem takePosition_inputOf (s : State) (b b' : Breaker) :
    (s.takePosition b).inputOf b' = (s.modInputOf b fun x => x.take s.now).inputOf b' := by
  unfold State.takePosition
  dsimp only
  split <;> cases b' <;> rfl

theorem ContactInput.take_eq (x : ContactInput) (now : Instant) : x.take now = { x with
    position := some x.reading, reported := false, invalidSince := if x.reading = .invalid then some now else none,
    before := if x.reading = .invalid then x.position else x.before } := by
  unfold ContactInput.take
  split
  next invalid => rw [invalid]
  · rfl

theorem takePosition_restored {s : State} {b : Breaker} (reported : (s.inputOf b).reported = true)
    (valid : (s.inputOf b).reading ≠ .invalid) : (s.takePosition b).events =
      (s.addEntry .positionRestored (Breaker.subject b) .protection (.position (s.inputOf b).reading)).events := by
  unfold State.takePosition
  dsimp only
  rw [if_pos (by rw [reported, bne_iff_ne.mpr valid]; rfl)]
  cases b <;> rfl

/-- What a reading handed on leaves (02 R20, R22). -/
structure HandsPosition (u t : State) : Prop where
  inputs : t.inputs = u.inputs
  acInput : t.acInput = u.acInput
  settings : t.settings = u.settings
  sample : t.sample = u.sample
  ports : t.ports = u.ports
  key : t.key = u.key
  authority : t.authority = u.authority
  grows : Grows u.events t.events

theorem HandsPosition.of_quiet {u t : State} (h : Quiet u t) : HandsPosition u t :=
  ⟨h.inputs, h.acInput, h.settings, h.sample, h.ports, h.key, h.authority, h.grows⟩

/-- A feeder that becomes ready (02 R23). -/
theorem becomeReady_frame (s : State) (f : Feeder) (x : Position) : s.becomeReady f x = { s with
    feeders := (s.becomeReady f x).feeders, faults := (s.becomeReady f x).faults, rect := (s.becomeReady f x).rect,
    links := (s.becomeReady f x).links } := by
  unfold State.becomeReady
  dsimp only
  rw [queueFeederEnd_frame]
  rfl

theorem debounced_hands (s : State) (b : Breaker) : HandsPosition (s.takePosition b) (s.debounced b) := by
  cases b with
  | feeder f =>
    show HandsPosition _ ((s.takePosition (.feeder f)).feederPosition f (s.input f).position.isNone (s.input f).reading)
    generalize s.takePosition (.feeder f) = u
    unfold State.feederPosition
    split
    · rw [becomeReady_frame]
      exact ⟨rfl, rfl, rfl, rfl, rfl, rfl, rfl, .refl _⟩
    · exact .of_quiet (((Quiet.refl u).queueFeederEnd f).positionChange f _)
  | ac =>
    show HandsPosition _ ((s.takePosition .ac).acBreakerPosition s.acInput.position.isNone s.acInput.reading)
    generalize s.takePosition .ac = u
    unfold State.acBreakerPosition
    split
    · exact .of_quiet (.refl u)
    · exact .of_quiet ((Quiet.refl u).acPositionChange _)

theorem HandsPosition.inputOf {u t : State} (h : HandsPosition u t) (b : Breaker) : t.inputOf b = u.inputOf b := by
  cases b with
  | feeder f => exact congrArg (fun v => File.get v f) h.inputs
  | ac => exact h.acInput

theorem takePosition_keeps (s : State) (b : Breaker) : (s.takePosition b).settings = s.settings ∧
    (s.takePosition b).sample = s.sample ∧ (s.takePosition b).ports = s.ports ∧ (s.takePosition b).key = s.key ∧
    (s.takePosition b).authority = s.authority := by
  unfold State.takePosition
  dsimp only
  split <;> cases b <;> exact ⟨rfl, rfl, rfl, rfl, rfl⟩

/-! ## The first reading of a feeder (02 R23) -/

section becomeReady

variable (s : State) (f : Feeder) (x : Position)

/-- The record of a feeder at its first position (02 R23, R33). -/
def State.firstRecord : FeederRecord :=
  { FeederRecord.reset with
    ready := true, group := groupFor (s.config f).farLink (s.section' f).farState,
    state := if x = .closed then .closed else .opened }

/-- Ready, before Fault Detection, the retard feeders and the far link are told. -/
def State.madeReady : State :=
  (s.modFeeder f fun _ => s.firstRecord f x).modFault f fun d =>
    { d with group := groupFor (s.config f).farLink (s.section' f).farState }

theorem becomeReady_eq : s.becomeReady f x =
    (((s.madeReady f x).protectionNotice .opened f).retardNotice f).queueFeederEnd f := rfl

theorem madeReady_feeder : (s.madeReady f x).feeder f = s.firstRecord f x :=
  State.modFeeder_feeder_self s f fun _ => s.firstRecord f x

theorem becomeReady_feeder (g : Feeder) : (s.becomeReady f x).feeder g = if g = f then s.firstRecord f x else s.feeder g := by
  rw [becomeReady_eq, queueFeederEnd_feeder]
  exact File.get_set ..

theorem FaultRecord.noticed_group (d : FaultRecord) (old new : FeederState) (now : Instant) (g : GroupName) :
    { d with group := g }.noticed old new now = { d.noticed old new now with group := g } := by
  unfold FaultRecord.noticed
  split
  · rfl
  · split <;> rfl

theorem becomeReady_fault : (s.becomeReady f x).fault f =
    { (s.fault f).noticed .opened (s.firstRecord f x).state s.now with group := (s.firstRecord f x).group } := by
  rw [becomeReady_eq, queueFeederEnd_frame, State.firstRecord, ← FaultRecord.noticed_group, ← moved_eq_noticed]
  refine (File.get_set_self ..).trans ?_
  have record : ((s.madeReady f x).feeder f).state = (s.firstRecord f x).state := by rw [madeReady_feeder]
  have fault : (s.madeReady f x).fault f = { s.fault f with group := groupFor (s.config f).farLink (s.section' f).farState } :=
    State.modFault_fault_self ..
  rw [record, fault]
  rfl

theorem becomeReady_fault_ne {g : Feeder} (differs : g ≠ f) : (s.becomeReady f x).fault g = s.fault g := by
  rw [becomeReady_eq, queueFeederEnd_frame]
  exact (File.get_set_ne _ _ differs).trans (File.get_set_ne _ _ differs)

theorem becomeReady_rect : (s.becomeReady f x).rect = { s.rect with retard := s.rect.retard.set f false } := by
  have resting : ((s.firstRecord f x).state == .tripping) = false := by
    unfold State.firstRecord
    dsimp only
    split <;> rfl
  rw [becomeReady_eq, queueFeederEnd_frame]
  show { s.rect with retard := s.rect.retard.set f ((s.madeReady f x).retardAfter f) } = _
  rw [State.retardAfter, madeReady_feeder, resting, Bool.false_and]

theorem queueFeederEnd_queues {u : State} {f : Feeder} {l : LinkId} (far : (u.config f).farLink = some l)
    (up : (u.link l).state = .up) : ((u.queueFeederEnd f).link l).queued.get (feederSegment f) = true := by
  unfold State.queueFeederEnd
  rw [far]
  dsimp only
  rw [link_modLink, if_pos rfl]
  unfold SectionLink.queue
  rw [if_pos up]
  exact File.get_set_self ..

theorem groupFor_eq (l : Option LinkId) (x : Option FeederState) :
    groupFor l x = if l ≠ none ∧ x ≠ some .closed then .isolated else .normal := by
  unfold groupFor
  cases l <;> simp

end becomeReady

theorem debounced_first {s : State} {f : Feeder} (first : (s.input f).position = none) :
    s.debounced (.feeder f) = (s.takePosition (.feeder f)).becomeReady f (s.input f).reading := by
  show (s.takePosition (.feeder f)).feederPosition f (s.input f).position.isNone (s.input f).reading = _
  rw [first]
  rfl

/-! ## A position fault (02 R21) -/

theorem exec_positionFault {b : Breaker} {s : State} {t : Instant} (live : s.resetLine = false)
    (position : (s.inputOf b).position = some .invalid) (silent : (s.inputOf b).reported = false)
    (since : (s.inputOf b).invalidSince = some t) (due : t + 20000000 ≤ s.now) :
    exec (.positionFault b) s = .next ((s.modInputOf b fun x => { x with reported := true }).addEntry .positionFault
      (Breaker.subject b) .protection (combinationDetail (s.inputOf b)) (some (beforeCode (s.inputOf b).before))) := by
  have stood : t + ms 200 ≤ s.now := by unfold ms; omega
  have isDue : s.faultDue b = true := by
    simp [State.faultDue, State.reached, position, silent, since, stood]
  show execPositionFault b s = _
  unfold execPositionFault
  rw [live_next live, if_pos isDue]

theorem combinationDetail_eq (x : ContactInput) : combinationDetail x = match x.a, x.b with
    | false, false => .combination .bothOpen
    | true, true => .combination .bothMade
    | _, _ => .nothing := by
  unfold combinationDetail combinationOf
  cases x.a <;> cases x.b <;> rfl

theorem beforeCode_eq (x : Option Position) : beforeCode x = match x with
    | some .opened => 0
    | some .closed => 1
    | _ => -1 := by
  unfold beforeCode
  rfl

/-- Settles O16. -/
theorem positionsAreTakenAndFaultsReported : Obligations.PositionsAreTakenAndFaultsReported := by
  refine ⟨fun b s live moved due => ?taken, fun b s t live position silent since due => ?fault,
    fun f s live first silent due => ?first⟩
  case taken =>
    have hands := debounced_hands s b
    obtain ⟨settings, sample, ports, key, authority⟩ := takePosition_keeps s b
    refine ⟨_, exec_positionDebounceExpiry live moved due, ?_, fun b' differs => ?_, fun reported valid => ?_,
      hands.settings.trans settings, hands.sample.trans sample, hands.ports.trans ports, hands.key.trans key,
      hands.authority.trans authority⟩
    · rw [hands.inputOf, takePosition_inputOf, State.inputOf_modInputOf_self, ContactInput.take_eq]
    · rw [hands.inputOf, takePosition_inputOf, State.inputOf_modInputOf_ne _ _ differs]
    · rw [← takePosition_restored reported valid]
      exact hands.grows
  case fault =>
    rw [exec_positionFault live position silent since due, combinationDetail_eq, beforeCode_eq] <;> rfl
  case first =>
    have run := exec_positionDebounceExpiry (b := .feeder f) live (by rw [show s.inputOf (.feeder f) = s.input f from rfl, first]; nofun) due
    rw [debounced_first first] at run
    have frame := takePosition_frame s f
    have events := takePosition_events (b := .feeder f) silent
    generalize s.takePosition (.feeder f) = u at run frame events
    have record : u.firstRecord f (s.input f).reading = s.firstRecord f (s.input f).reading := by rw [frame]; rfl
    have feeder := becomeReady_feeder u f (s.input f).reading
    refine ⟨_, run, ?_, fun g differs => ⟨?_, ?_⟩, ?_, ?_, fun l far up => ?_, ?_⟩
    · rw [feeder, if_pos rfl, record, State.firstRecord, groupFor_eq]
      rfl
    · rw [feeder, if_neg differs, frame]
      rfl
    · rw [becomeReady_fault_ne _ _ _ differs, frame]
      rfl
    · rw [feeder, if_pos rfl, becomeReady_fault, frame]
      rfl
    · rw [becomeReady_rect, frame]
    · have config : u.config f = s.config f := by rw [frame]; rfl
      have link : u.link l = s.link l := by rw [frame]; rfl
      rw [becomeReady_eq]
      exact queueFeederEnd_queues (u := ((u.madeReady f _).protectionNotice .opened f).retardNotice f)
        (config.symm ▸ far : (u.config f).farLink = some l) (link.symm ▸ up : (u.link l).state = .up)
    · rw [becomeReady_frame]
      exact events

end Sys2Proof.Machine

/-! The requests to a feeder: their refusals, OPEN FEEDER, CLOSE FEEDER and RESET LOCKOUT (04 R66, R79, R80; 05 R96, R97). -/

namespace Sys2Proof.Machine

/-! ## A request and the Authority Table (05 R96, R97) -/

section answers

variable {s : State} {p : Port} {kind tag : Byte} {body : List Byte} {handle : List Byte → State → Answer}

/-- A refused request changes its port only. -/
theorem takeRequest_refused {r : Reason} (offers : s.offers p kind tag body)
    (refuses : handle body (s.dropBuffer p) = refuse r (s.dropBuffer p)) :
    takeRequest p kind handle s = .next ((s.dropBuffer p).answered p kind tag (.refused r) .empty) :=
  exec_request handle offers refuses

theorem takeRequest_done {u : State} (offers : s.offers p kind tag body)
    (answers : handle body (s.dropBuffer p) = done u) :
    takeRequest p kind handle s = .next (u.answered p kind tag .done .empty) := exec_request handle offers answers

theorem takeRequest_accepted {u : State} (offers : s.offers p kind tag body)
    (answers : handle body (s.dropBuffer p) = accepted u) :
    takeRequest p kind handle s = .next (u.answered p kind tag .accepted .empty) := exec_request handle offers answers

theorem withArgs_reads {α : Type} {read : List Byte → Option α} {ask : α → State → Answer} {a : α} (u : State)
    (reads : read body = some a) : withArgs read ask body u = ask a u := by
  unfold withArgs
  rw [reads]

theorem withArgs_fails {α : Type} {read : List Byte → Option α} {ask : α → State → Answer} (u : State)
    (fails : read body = none) : withArgs read ask body u = refuse .badArgument u := by
  unfold withArgs
  rw [fails]

end answers

section withAuthority

variable {s : State} {p : Port} {i : Item} {ask : State → Answer}

theorem withAuthority_excluded (outside : Excludes s.authority.location p) :
    withAuthority p false [i] ask s = refuse .wrongLocation s := by
  have refused : s.authorityCheck p false [i] = some .wrongLocation := by
    simp [State.authorityCheck, mt (admits_excludes s p).mp (not_not.mpr outside)]
  unfold withAuthority
  rw [refused]

variable (inside : ¬Excludes s.authority.location p)
include inside

theorem withAuthority_unheld (unheld : s.holding i = none) :
    withAuthority p false [i] ask s = refuse (.notAuthorised true (some i)) s := by
  have refused : s.authorityCheck p false [i] = some (.notAuthorised true (some i)) := by
    simp [State.authorityCheck, (admits_excludes s p).mpr inside, unheld]
  unfold withAuthority
  rw [refused]

theorem withAuthority_other {h : Holding} (held : s.holding i = some h) (other : h.holder ≠ p) :
    withAuthority p false [i] ask s = refuse (.heldByOther i h.holder) s := by
  have refused : s.authorityCheck p false [i] = some (.heldByOther i h.holder) := by
    simp [State.authorityCheck, (admits_excludes s p).mpr inside, held, other]
  unfold withAuthority
  rw [refused]

theorem withAuthority_held {h : Holding} (held : s.holding i = some h) (own : h.holder = p) :
    withAuthority p false [i] ask s = renewing [i] (ask s) := by
  have passes : s.authorityCheck p false [i] = none := by
    simp [State.authorityCheck, (admits_excludes s p).mpr inside, held, own]
  unfold withAuthority
  rw [passes]

end withAuthority

theorem renewing_refuse (l : List Item) (r : Reason) (u : State) : renewing l (refuse r u) = refuse r u := rfl

theorem renewing_done (l : List Item) (u : State) : renewing l (done u) = done (u.renewItems l) := rfl

theorem renewing_accepted (l : List Item) (u : State) : renewing l (accepted u) = accepted (u.renewItems l) := rfl

/-- A request that asks the table for one item meets its refusals in their order. -/
theorem refusedByTheTable {s : State} {p : Port} {kind tag : Byte} {body : List Byte} {i : Item} {c : Instr}
    {handle : List Byte → State → Answer} {ask : State → Answer} (offers : s.offers p kind tag body)
    (run : exec c s = takeRequest p kind handle s)
    (asks : handle body (s.dropBuffer p) = withAuthority p false [i] ask (s.dropBuffer p)) :
    RefusedByTheTable s p kind tag i c := by
  unfold RefusedByTheTable
  rw [run]
  refine ⟨fun outside => ?_, fun inside unheld => ?_, fun h inside held other => ?_⟩
  · exact takeRequest_refused offers (asks.trans (withAuthority_excluded (s := s.dropBuffer p) outside))
  · exact takeRequest_refused offers (asks.trans (withAuthority_unheld (s := s.dropBuffer p) inside unheld))
  · exact takeRequest_refused offers (asks.trans (withAuthority_other (s := s.dropBuffer p) inside held other))

/-! ## The body of a feeder request -/

theorem readFeeder_feeder (f : Feeder) : readFeeder [BitVec.ofNat 8 f.val] = some f := by
  revert f
  decide

theorem readFeeder_other {body : List Byte} (other : ∀ f : Feeder, body ≠ [BitVec.ofNat 8 f.val]) : readFeeder body = none := by
  unfold readFeeder
  split
  next b =>
    refine Option.eq_none_iff_forall_ne_some.mpr fun f reads => other f ?_
    unfold below at reads
    split at reads
    next small =>
      cases reads
      simp
    · cases reads
  · rfl

theorem withReady_unready {u : State} {f : Feeder} (ask : State → Answer) (unready : (u.feeder f).ready = false) :
    withReady f ask u = refuse .notReady u := by
  unfold withReady
  rw [unready]
  rfl

theorem withReady_ready {u : State} {f : Feeder} (ask : State → Answer) (ready : (u.feeder f).ready = true) :
    withReady f ask u = ask u := by
  unfold withReady
  rw [ready]
  rfl

section feederRequest

variable {s : State} {p : Port} {kind tag : Byte} {body : List Byte} {c : Instr} {f : Feeder} {ask : Feeder → State → Answer}
  (offers : s.offers p kind tag body)
  (run : exec c s = takeRequest p kind (withArgs readFeeder fun f => withReady f (ask f)) s)
include offers run

theorem feederRequest_badArgument (other : ∀ f : Feeder, body ≠ [BitVec.ofNat 8 f.val]) :
    exec c s = .next ((s.dropBuffer p).answered p kind tag (.refused .badArgument) .empty) :=
  run.trans (takeRequest_refused offers (withArgs_fails _ (readFeeder_other other)))

theorem feederRequest_notReady (named : body = [BitVec.ofNat 8 f.val]) (unready : (s.feeder f).ready = false) :
    exec c s = .next ((s.dropBuffer p).answered p kind tag (.refused .notReady) .empty) := by
  subst named
  refine run.trans (takeRequest_refused offers ((withArgs_reads _ (readFeeder_feeder f)).trans ?_))
  exact withReady_unready (u := s.dropBuffer p) _ unready

theorem feederRequest_asks (named : body = [BitVec.ofNat 8 f.val]) (ready : (s.feeder f).ready = true) :
    exec c s = .next ((ask f (s.dropBuffer p)).state.answered p kind tag (ask f (s.dropBuffer p)).status
      (ask f (s.dropBuffer p)).body) := by
  subst named
  refine run.trans (exec_request _ offers ((withArgs_reads _ (readFeeder_feeder f)).trans ?_))
  exact withReady_ready (u := s.dropBuffer p) _ ready

end feederRequest

/-! ## OPEN FEEDER (04 R80) -/

section openFeeder

variable {s : State} {f : Feeder} (o : Origin)

theorem openFeeder_trips (running : (s.feeder f).state = .closed ∨ (s.feeder f).state = .closing) :
    s.openFeeder f o = s.tripFeeder f .commanded o (s.isolated f) (s.feeder f).lastIf none := by
  unfold State.openFeeder
  rcases running with state | state <;> rw [state]

theorem openFeeder_aborts (begun : (s.feeder f).state = .claiming ∨ (s.feeder f).state = .testing) :
    s.openFeeder f o = s.abortClose f (.aborted .openRequest) fun _ => FeederRecord.toOpen := by
  unfold State.openFeeder
  rcases begun with state | state <;> rw [state]

theorem openFeeder_waits (waiting : (s.feeder f).state = .recloseWait) :
    s.openFeeder f o = (s.modFeeder f FeederRecord.toOpen).feederNotices .recloseWait f := by
  unfold State.openFeeder
  rw [waiting]

theorem openFeeder_stands (still : (s.feeder f).state = .opened ∨ (s.feeder f).state = .lockedOut ∨
    (s.feeder f).state = .tripping ∨ (s.feeder f).state = .breakerFailed) : s.openFeeder f o = s := by
  unfold State.openFeeder
  rcases still with state | state | state | state <;> rw [state]

theorem openFeeder_hands (s : State) (f : Feeder) (o : Origin) : StateHandedOn s (s.openFeeder f o) f := by
  unfold State.openFeeder
  split
  · exact tripFeeder_hands ..
  · exact tripFeeder_hands ..
  · exact abortClose_hands ..
  · exact abortClose_hands ..
  next waiting =>
    rw [← waiting]
    exact StateHandedOn.notices (u := s.modFeeder f FeederRecord.toOpen) rfl
  all_goals exact .of_still rfl rfl

theorem Apart.openFeeder {β : Type} {V : View β} {f : Feeder} (h : Apart V f) (s : State) (o : Origin) :
    V.view (s.openFeeder f o) = V.view s := by
  unfold State.openFeeder
  split
  · exact h.tripFeeder ..
  · exact h.tripFeeder ..
  · exact h.abortClose ..
  · exact h.abortClose ..
  · exact (h.feederNotices ..).trans (h.modFeeder ..)
  all_goals rfl

theorem openFeeder_only (s : State) (f : Feeder) (o : Origin) : OnlyFeeder s (s.openFeeder f o) f :=
  onlyFeeder_of ((Quiet.refl s).openFeeder f o) fun _ differs => (records_apart differs).openFeeder s o

end openFeeder

/-- Settles O28. -/
theorem openFeederBySituation : Obligations.OpenFeederBySituation := by
  intro p tag body s offers
  have run : exec (.openFeeder p) s = takeRequest p 0x10 (withArgs readFeeder fun f => withReady f fun s =>
      if s.opensByTrip f then accepted (s.openFeeder f (.port p)) else done (s.openFeeder f (.port p))) s := rfl
  refine ⟨feederRequest_badArgument offers run, fun f named => ⟨feederRequest_notReady offers run named, fun ready => ?_⟩⟩
  have asked := feederRequest_asks offers run named ready
  have state : ((s.dropBuffer p).feeder f).state = (s.feeder f).state := rfl
  have only : OnlyFeeder s ((s.dropBuffer p).openFeeder f (.port p)) f := openFeeder_only (s.dropBuffer p) f (.port p)
  have hands : StateHandedOn s ((s.dropBuffer p).openFeeder f (.port p)) f := openFeeder_hands (s.dropBuffer p) f (.port p)
  have quiet := (Quiet.refl (s.dropBuffer p)).openFeeder f (.port p)
  have authority : ((s.dropBuffer p).openFeeder f (.port p)).authority = s.authority := quiet.authority
  by_cases trips : (s.feeder f).state = .closed ∨ (s.feeder f).state = .closing
  · have opens : (s.dropBuffer p).opensByTrip f = true := by
      unfold State.opensByTrip
      rcases trips with running | running <;> rw [state, running] <;> rfl
    rw [if_pos opens] at asked
    refine ⟨_, asked, only, authority, hands, fun _ => ⟨responds_answered p 0x10 tag .accepted .empty quiet.ports, ?_⟩, ?_, ?_, ?_⟩
    · have taken : Trips (s.dropBuffer p) ((s.dropBuffer p).openFeeder f (.port p)) f .commanded (.port p)
          ((s.dropBuffer p).isolated f) (s.feeder f).lastIf none :=
        openFeeder_trips (s := s.dropBuffer p) (.port p) trips ▸ tripFeeder_trips ..
      refine ⟨taken.feeder, taken.captures rfl, taken.pending rfl, ?_, fun op closing operation => ?_⟩
      · refine AddsEntry.mono taken.trip fun e ⟨kind, subject, origin, value1, value2, detail, capture, _⟩ =>
          ⟨kind, subject, origin, ?_, value1, value2 rfl, capture rfl⟩
        rw [detail]
        unfold State.isolated
        cases group : (s.feeder f).group <;> rw [show ((s.dropBuffer p).feeder f).group = (s.feeder f).group from rfl, group] <;> rfl
      · exact taken.closeResult op closing operation
    · rintro (claiming | testing)
      · simp [claiming] at trips
      · simp [testing] at trips
    · intro waiting
      simp [waiting] at trips
    · rintro (still | still | still | still) <;> simp [still] at trips
  · have stays : (s.dropBuffer p).opensByTrip f = false := by
      unfold State.opensByTrip
      rw [state]
      cases other : (s.feeder f).state <;> simp [other] at trips <;> rfl
    rw [if_neg (by rw [stays]; exact Bool.false_ne_true)] at asked
    have responds := responds_answered p 0x10 tag .done .empty quiet.ports
    refine ⟨_, asked, only, authority, hands, fun running => absurd running trips, fun begun => ⟨responds, fun op operation => ?_⟩,
      fun waiting => ⟨responds, ?_⟩, fun still => ?_⟩
    · have aborts := openFeeder_aborts (s := s.dropBuffer p) (.port p) begun
      have feeder := abortClose_feeder (s := s.dropBuffer p) operation (.aborted .openRequest) fun _ => FeederRecord.toOpen
      have gives := abortClose_gives (s := s.dropBuffer p) operation (.aborted .openRequest) fun _ => FeederRecord.toOpen
      have entry := abortClose_entry (s := s.dropBuffer p) operation (.aborted .openRequest) fun _ => FeederRecord.toOpen
      rw [← aborts] at feeder gives entry
      rw [feeder] at entry
      exact ⟨feeder, gives, entry⟩
    · have waits := openFeeder_waits (s := s.dropBuffer p) (.port p) waiting
      show ((s.dropBuffer p).openFeeder f (.port p)).feeder f = s.openRecord f
      rw [waits, feederNotices_feeder]
      exact State.modFeeder_feeder_self (s.dropBuffer p) f FeederRecord.toOpen
    · exact congrArg (fun u : State => u.answered p 0x10 tag .done .empty) (openFeeder_stands (s := s.dropBuffer p) (.port p) still)

/-! ## CLOSE FEEDER and RESET LOCKOUT (04 R66, R79) -/

section renewed

variable {s u : State} {p : Port} {i : Item} {h : Holding}

/-- The lease of a request carried out is renewed (05 R97). -/
theorem renewItems_renews (quiet : Quiet (s.dropBuffer p) u) (held : s.holding i = some h) :
    (u.renewItems [i]).holding i = some { h with
      expiry := s.now + s.station.leaseTime * 100000, lease := s.station.leaseTime } := by
  have holding : u.holding i = some h := (congrArg (fun a : AuthorityTable => a.entries.get i.index) quiet.authority).trans held
  have now : u.now = s.now := quiet.now
  have station : u.station = s.station := congrArg Settings.station quiet.settings
  rw [renewItems_holding, if_pos (List.mem_singleton_self i), holding, now, station]
  rfl

theorem renewItems_ports (quiet : Quiet (s.dropBuffer p) u) (l : List Item) :
    (u.renewItems l).ports = (s.dropBuffer p).ports := by
  rw [renewItems_only]
  exact quiet.ports

end renewed

theorem ChoosesPhase.answered {s u : State} {p : Port} {f : Feeder} {op : Operation} {kind tag : Byte} {st : Status} {b : Body}
    (h : ChoosesPhase (s.dropBuffer p) u f op) (e : File (Option Holding) 9) :
    ChoosesPhase s ({ u with authority := { u.authority with entries := e } }.answered p kind tag st b) f op := by
  unfold ChoosesPhase at h ⊢
  exact h

/-- Settles O29. -/
theorem closeFeederIsCheckedThenBegun : Obligations.CloseFeederIsCheckedThenBegun := by
  intro p tag body s offers
  have run : exec (.closeFeeder p) s = takeRequest p 0x11 (withArgs readFeeder fun f => withReady f
      (withAuthority p false [.feeder f] fun s =>
        match s.closeCheck f false with
        | some cause => refuse (.interlocked cause) s
        | none => accepted (s.beginClose f (.port p)))) s := rfl
  refine ⟨feederRequest_badArgument offers run, fun f named => ⟨feederRequest_notReady offers run named, fun ready => ?_, ?_⟩⟩
  · subst named
    exact refusedByTheTable offers run ((withArgs_reads _ (readFeeder_feeder f)).trans (withReady_ready (u := s.dropBuffer p) _ ready))
  · intro h ready inside held own
    have asked := feederRequest_asks offers run named ready
    rw [withAuthority_held (s := s.dropBuffer p) inside held own] at asked
    have check : (s.dropBuffer p).closeCheck f false = s.closeCheck f false := rfl
    refine ⟨fun cause fails => ?_, fun passes => ?_⟩
    · rw [check, fails] at asked
      exact asked
    · rw [check, passes] at asked
      have quiet := (Quiet.refl (s.dropBuffer p)).beginClose f (.port p)
      refine ⟨_, asked, ?_, responds_answered p 0x11 tag .accepted .empty (renewItems_ports quiet _), renewItems_renews quiet held, ?_⟩
      · have only : OnlyFeeder (s.dropBuffer p) ((s.dropBuffer p).beginClose f (.port p)) f :=
          onlyFeeder_of quiet fun g differs => (records_apart differs).phaseChoice ..
        rw [renewing_accepted, renewItems_only]
        exact only
      · have chooses : ChoosesPhase (s.dropBuffer p) ((s.dropBuffer p).beginClose f (.port p)) f (s.newClose (.port p)) :=
          phaseChoice_chooses (s.dropBuffer p) f (s.newClose (.port p))
        rw [renewing_accepted, renewItems_only]
        exact chooses.answered _

theorem time_apart (f : Feeder) : Apart timeView f :=
  { modFeeder := fun _ _ => rfl, modSection := fun _ _ => rfl, modFault := fun _ _ => rfl,
    postFar := fun s g => by rw [postFar_frame]; rfl
    withdrawFar := fun s g => by unfold State.withdrawFar; split <;> rfl
    queueFeederEnd := fun s => by rw [queueFeederEnd_frame]; rfl }

section resetLockout

variable {s : State} {f : Feeder} (o : Origin)

/-- OPEN entered from LOCKED_OUT, recorded and told (04 R79). -/
def State.lockoutCleared (s : State) (f : Feeder) (o : Origin) : State :=
  ((s.modFeeder f FeederRecord.toOpen).addEntry .lockoutReset (.feeder f) o).feederNotices .lockedOut f

theorem lockoutCleared_quiet (s : State) (f : Feeder) : Quiet s (s.lockoutCleared f o) :=
  (((Quiet.refl s).toState f leads_toOpen).addEntry ..).feederNotices _ f

theorem lockoutCleared_feeder (s : State) (f : Feeder) : (s.lockoutCleared f o).feeder f = s.openRecord f := by
  unfold State.lockoutCleared
  rw [feederNotices_feeder]
  exact State.modFeeder_feeder_self s f FeederRecord.toOpen

theorem lockoutCleared_hands (locked : (s.feeder f).state = .lockedOut) : StateHandedOn s (s.lockoutCleared f o) f := by
  unfold State.lockoutCleared
  rw [← locked]
  exact .notices ((groundView f).addEntry ..)

theorem lockoutCleared_entry (s : State) (f : Feeder) : AddsEntry s (s.lockoutCleared f o) fun e =>
    e.kind = .lockoutReset ∧ e.subject = .feeder f ∧ e.origin = o := by
  unfold State.lockoutCleared
  refine AddsEntry.later (t := (s.modFeeder f FeederRecord.toOpen).addEntry .lockoutReset (.feeder f) o) ?_ (feederNotices_grows ..)
  exact (AddsEntry.add (s.modFeeder f FeederRecord.toOpen) ..).mono fun e ⟨kind, subject, origin, _⟩ => ⟨kind, subject, origin⟩

theorem lockoutCleared_fault (locked : (s.feeder f).state = .lockedOut) : (s.lockoutCleared f o).fault f = s.fault f := by
  rw [(lockoutCleared_hands o locked).1, lockoutCleared_feeder, locked]
  rfl

theorem lockoutCleared_ground (locked : (s.feeder f).state = .lockedOut) :
    (groundView f).view (s.lockoutCleared f o) = (groundView f).view s := by
  have quiet := lockoutCleared_quiet o s f
  refine ground_of (lockoutCleared_fault o locked) quiet.now quiet.settings fun l => ?_
  have bare : bareView.view (s.lockoutCleared f o) = bareView.view s :=
    ((bare_apart f).feederNotices ..).trans (bareView.addEntry ..)
  have link : ((s.lockoutCleared f o).link l).bare = (s.link l).bare := congrFun bare l
  have state : ((s.lockoutCleared f o).link l).bare.state = (s.link l).bare.state := by rw [link]
  exact state

/-- A breaker found closed goes on to CLOSED (04 R79, R83). -/
theorem resetLockout_eq (s : State) (f : Feeder) : s.resetLockout f o =
    if s.position f = .closed then (s.lockoutCleared f o).closedUncommanded f else s.lockoutCleared f o := by
  have position : (s.lockoutCleared f o).position f = s.position f :=
    congrArg (fun v : File ContactInput 8 => (v.get f).position.getD .invalid) (lockoutCleared_quiet o s f).inputs
  rw [← position]
  rfl

theorem resetLockout_hands (locked : (s.feeder f).state = .lockedOut) : StateHandedOn s (s.resetLockout f o) f := by
  rw [resetLockout_eq]
  split
  · have hands := closedUncommanded_hands (s.lockoutCleared f o) f
    have ground := lockoutCleared_ground o locked
    obtain ⟨fault, rest⟩ := hands
    have settings : (s.lockoutCleared f o).settings = s.settings := congrArg (fun y => y.2.2.1) ground
    have links (l : LinkId) : ((s.lockoutCleared f o).link l).state = (s.link l).state := congrFun (congrArg (fun y => y.2.2.2) ground) l
    have now : (s.lockoutCleared f o).now = s.now := congrArg (fun y => y.2.1) ground
    rw [lockoutCleared_feeder, closedUncommanded_feeder] at fault rest
    rw [lockoutCleared_fault o locked, now] at fault
    obtain ⟨retard, queued⟩ := rest (by exact FeederState.noConfusion)
    unfold StateHandedOn
    rw [closedUncommanded_feeder, locked]
    refine ⟨fault, fun _ => ⟨retard, fun l far up => queued l ?_ ((links l).trans up)⟩⟩
    unfold State.config at far ⊢
    rw [settings]
    exact far
  · exact lockoutCleared_hands o locked

theorem resetLockout_quiet (s : State) (f : Feeder) : Quiet s (s.resetLockout f o) := (Quiet.refl s).resetLockout f o

theorem Apart.resetLockout {β : Type} {V : View β} {f : Feeder} (h : Apart V f) (s : State) :
    V.view (s.resetLockout f o) = V.view s := by
  have cleared : V.view (s.lockoutCleared f o) = V.view s :=
    (h.feederNotices ..).trans ((V.addEntry ..).trans (h.modFeeder ..))
  rw [resetLockout_eq]
  split
  · unfold State.closedUncommanded State.closedUncommandedEntry
    rw [h.feederNotices, V.addEntry, h.modFeeder, cleared]
  · exact cleared

theorem resetLockout_entry (s : State) (f : Feeder) : AddsEntry s (s.resetLockout f o) fun e =>
    e.kind = .lockoutReset ∧ e.subject = .feeder f ∧ e.origin = o := by
  rw [resetLockout_eq]
  split
  · exact (lockoutCleared_entry o s f).later ((Quiet.refl _).closedUncommanded f).grows
  · exact lockoutCleared_entry o s f

/-- What a breaker found closed leaves (04 R79, R83). -/
theorem resetLockout_closed (found : s.position f = .closed) :
    (s.resetLockout f o).feeder f = { s.closedRecord f with attempts := 0 } ∧
      AddsEntry s (s.resetLockout f o) fun e => e.kind = .closedUncommanded ∧ e.subject = .feeder f ∧ e.detail = .nothing := by
  have quiet := lockoutCleared_quiet o s f
  have record := lockoutCleared_feeder o s f
  have time : (s.lockoutCleared f o).time = s.time :=
    ((time_apart f).feederNotices ..).trans (timeView.addEntry (s.modFeeder f FeederRecord.toOpen) ..)
  rw [resetLockout_eq, if_pos found, closedUncommanded_feeder]
  refine ⟨?_, (((closedUncommanded_entry _ f).mono fun e ⟨kind, subject, _, detail⟩ => ⟨kind, subject, detail⟩)).earlier quiet.grows⟩
  unfold State.closedRecord State.config
  rw [record, quiet.now, quiet.settings, time]
  rfl

end resetLockout

/-- Settles O30. -/
theorem resetLockoutBySituation : Obligations.ResetLockoutBySituation := by
  intro p tag body s offers
  have run : exec (.resetLockout p) s = takeRequest p 0x12 (withArgs readFeeder fun f => withReady f
      (withAuthority p false [.feeder f] fun s =>
        match (s.feeder f).state with
        | .lockedOut => done (s.resetLockout f (.port p))
        | .breakerFailed => refuse (.interlocked .breakerFailed) s
        | _ => refuse (.interlocked .state) s)) s := rfl
  refine ⟨feederRequest_badArgument offers run, fun f named => ⟨feederRequest_notReady offers run named, fun ready => ?_, ?_⟩⟩
  · subst named
    exact refusedByTheTable offers run ((withArgs_reads _ (readFeeder_feeder f)).trans (withReady_ready (u := s.dropBuffer p) _ ready))
  · intro h ready inside held own
    have asked := feederRequest_asks offers run named ready
    rw [withAuthority_held (s := s.dropBuffer p) inside held own] at asked
    have state : ((s.dropBuffer p).feeder f).state = (s.feeder f).state := rfl
    refine ⟨fun failed => ?_, fun whole other => ?_, fun locked => ?_⟩
    · rw [state, failed] at asked
      exact asked
    · rw [state] at asked
      split at asked
      next locked => exact absurd locked other
      next failed => exact absurd failed whole
      · exact asked
    · rw [state, locked] at asked
      have quiet := resetLockout_quiet (.port p) (s.dropBuffer p) f
      have only : OnlyFeeder (s.dropBuffer p) ((s.dropBuffer p).resetLockout f (.port p)) f :=
        onlyFeeder_of quiet fun g differs => (records_apart differs).resetLockout (.port p) _
      have hands := resetLockout_hands (s := s.dropBuffer p) (.port p) (state.trans locked)
      have entry := resetLockout_entry (.port p) (s.dropBuffer p) f
      have found := resetLockout_closed (s := s.dropBuffer p) (f := f) (.port p)
      have opened (away : s.position f ≠ .closed) : ((s.dropBuffer p).resetLockout f (.port p)).feeder f = s.openRecord f := by
        rw [resetLockout_eq, if_neg (c := (s.dropBuffer p).position f = .closed) away]
        exact lockoutCleared_feeder (.port p) (s.dropBuffer p) f
      simp only at asked
      generalize (s.dropBuffer p).resetLockout f (.port p) = u at asked quiet only hands entry found opened
      refine ⟨_, asked, ?_, ?_, responds_answered p 0x12 tag .done .empty (renewItems_ports quiet _), ?_, ?_, ?_⟩
      all_goals rw [renewing_done, renewItems_only]
      · exact only
      · exact hands
      · exact entry
      · exact opened
      · exact found

end Sys2Proof.Machine

/-! The location key, CLAIM, RELEASE, PORT RESET and lease expiry (02 R34, R35; 05 R86 to R94, R101; 11 R202). -/

namespace Sys2Proof.Machine

/-! ## The location key (02 R34, R35) -/

theorem AddsInOrder.earlier {s t u : State} {P Q : Entry → Prop} (h : AddsInOrder t u P Q) (g : Grows s.events t.events) :
    AddsInOrder s u P Q := by
  obtain ⟨v, first, second⟩ := h
  exact ⟨v, first.earlier g, second⟩

theorem AddsInOrder.later {s t u : State} {P Q : Entry → Prop} (h : AddsInOrder s t P Q) (g : Grows t.events u.events) :
    AddsInOrder s u P Q := by
  obtain ⟨v, first, second⟩ := h
  exact ⟨v, first, second.later g⟩

section KeyInput

variable (x : KeyInput) {now : Instant} (made : Bool)

theorem KeyInput.at_made : (x.at made now).made = made := by
  unfold KeyInput.at
  split
  next same => exact same.symm
  · split
    · split <;> rfl
    · rfl

theorem KeyInput.at_since (settled : x.since < now) :
    (x.at made now).since = if made = x.made then x.since else now := by
  unfold KeyInput.at
  split
  · rfl
  · rw [if_neg (ne_of_lt settled)]

end KeyInput

theorem exec_locationChanged {s : State} {x : Location} (live : s.resetLine = false)
    (reading : x = if s.key.made = true then Location.remoteKey else .localKey) (moved : x ≠ s.key.location)
    (due : s.key.since + 400000 ≤ s.now) : exec .locationChanged s = .next (s.changeLocation x) := by
  have reads : keyReading s.key.made = x := reading.symm
  have stood : s.key.since + ms 4 ≤ s.now := by unfold ms; omega
  have isDue : s.keyDue = true := by simp [State.keyDue, reads, moved, stood]
  show execLocationChanged s = _
  unfold execLocationChanged
  rw [live_next live, if_pos isDue, reads]

/-- Settles O17: the table takes the location once, the waits judged around it. -/
theorem keyIsFollowedAndReachesTheTable : Obligations.KeyIsFollowedAndReachesTheTable := by
  refine ⟨fun made s settled => ?key, fun s x live reading moved due => ?table⟩
  case key =>
    have since := s.key.at_since made settled
    exact ⟨_, rfl, rfl, s.key.at_made made, s.key.at_location made s.now, fun same => since.trans (if_pos same),
      fun differs => since.trans (if_neg differs)⟩
  case table =>
    obtain ⟨u, early, authority, late, frame⟩ := s.changeLocation_frame x
    obtain ⟨location, -⟩ := (u.takeLocation_only x).at_location (u.takeLocation_ports x)
    have held (i : Item) : (s.changeLocation x).holding i = (u.takeLocation x).holding i := State.holding_congr authority i
    have before (i : Item) : u.holding i = s.holding i := early.holding i
    have now : u.now = s.now := early.now
    refine ⟨_, exec_locationChanged live reading moved due, ?_, by rw [authority, location], fun i h holds outside => ?_,
      fun i h holds inside => ?_, fun i free => ?_, ?_, ?_⟩
    · rw [frame]
      rfl
    · rw [held]
      exact State.takeLocation_excluded ((before i).trans holds) outside
    · rw [held]
      exact State.takeLocation_admitted ((before i).trans holds) inside
    · rw [held]
      exact State.takeLocation_free ((before i).trans free)
    · rintro v rfl
      have grows : Grows (s.addEntry .locationChanged .nothing .protection (.location x)).events u.events := early.grows
      refine ⟨(grows.trans (u.takeLocation_grows x)).trans late, fun i h holds outside => ?_,
        fun i j h k holdsI outI holdsJ outJ below => ?_⟩
      · have entry := State.takeLocation_entry ((before i).trans holds) outside
        unfold IsAuthorityLost at entry
        rw [now] at entry
        exact (entry.later late).earlier grows
      · exact ((State.takeLocation_order ((before i).trans holdsI) outI ((before j).trans holdsJ) outJ below).later late).earlier
          grows
    · rw [frame]
      exact ⟨rfl, rfl, rfl, rfl, rfl, rfl, rfl, rfl⟩

/-! ## The items of a set (05 R88) -/

/-- The items that a set names, in order. -/
def namedItems (n : Nat) : List Item := items.filter fun i => n.testBit i.index.val

theorem mem_namedItems {n : Nat} {i : Item} : i ∈ namedItems n ↔ n.testBit i.index.val = true := by
  simp [namedItems, mem_items]

theorem namedItems_sorted (n : Nat) : (namedItems n).Pairwise fun i j => i.index < j.index := items_pairwise.filter _

theorem namedItems_nodup (n : Nat) : (namedItems n).Nodup := items_nodup.filter _

theorem readItems_set {body : List Byte} {n : Nat} (set : ItemSet body n) :
    readItems body = if n < 512 then some (namedItems n) else none := by
  obtain ⟨hi, lo, rfl, rfl⟩ := set
  rfl

theorem readItems_other {body : List Byte} (wide : ∀ n, ItemSet body n → 512 ≤ n) : readItems body = none := by
  unfold readItems
  split
  next hi lo => exact if_neg (not_lt.mpr (wide _ ⟨hi, lo, rfl, rfl⟩))
  · rfl

theorem namedItems_isEmpty {n : Nat} (small : n < 512) : (namedItems n).isEmpty = true ↔ n = 0 := by
  rw [List.isEmpty_iff]
  constructor
  · intro empty
    refine Nat.eq_of_testBit_eq fun k => ?_
    rw [Nat.zero_testBit]
    by_cases below : k < 9
    · have item : ∃ i : Item, i.index.val = k := by
        by_cases last : k = 8
        · exact ⟨.rectifier, last.symm⟩
        · exact ⟨.feeder ⟨k, by omega⟩, rfl⟩
      obtain ⟨i, rfl⟩ := item
      by_contra set
      have member := mem_namedItems.mpr (Bool.eq_true_of_not_eq_false set)
      rw [empty] at member
      cases member
    · exact Nat.testBit_lt_two_pow (lt_of_lt_of_le small (Nat.pow_le_pow_right (by decide) (not_lt.mp below) : 2 ^ 9 ≤ 2 ^ k))
  · rintro rfl
    decide

/-! ## CLAIM (05 R88, R89) -/

section claimItem

variable {s : State} {p : Port} {i : Item}

theorem claimItem_free (free : s.holding i = none) : s.claimItem p i = s.grantItem p i := by
  unfold State.claimItem
  rw [free]
  rfl

theorem claimItem_held {h : Holding} (held : s.holding i = some h) : s.claimItem p i =
    s.setHolding i (some { h with expiry := s.now + ms s.station.leaseTime, lease := s.station.leaseTime }) := by
  unfold State.claimItem State.renewItem
  rw [held]
  rfl

/-- What an item claimed is held with (05 R89, R91). -/
def State.claimed (s : State) (p : Port) (i : Item) : Holding :=
  { holder := p, expiry := s.now + s.station.leaseTime * 100000, lease := s.station.leaseTime,
    grantedAt := match s.holding i with
      | some h => h.grantedAt
      | none => s.now }

theorem claimItem_holding (own : ∀ h, s.holding i = some h → h.holder = p) :
    (s.claimItem p i).holding i = some (s.claimed p i) := by
  cases found : s.holding i with
  | none =>
    rw [claimItem_free found, State.claimed, found]
    exact (setHolding_holding ..).trans (if_pos rfl)
  | some h =>
    rw [claimItem_held found, setHolding_holding, if_pos rfl, State.claimed, found, ← own h found]
    rfl

theorem claimItem_entry (free : s.holding i = none) : AddsEntry s (s.claimItem p i) fun e =>
    e.kind = .authorityGranted ∧ e.subject = Item.subject i ∧ e.origin = .port p ∧ e.detail = .nothing ∧
      (s.station.leaseTime ≤ 10000 → e.value1 = some (s.station.leaseTime : Int)) ∧ e.value2 = none := by
  rw [claimItem_free free]
  exact (AddsEntry.add (s.setHolding i _) ..).mono fun e ⟨kind, subject, origin, detail, _, value1, value2⟩ =>
    ⟨kind, subject, origin, detail, fun small => value1 (inField_nat (by omega)), value2 rfl⟩

end claimItem

theorem claimItem_itemWise (p : Port) : ItemWise fun t i => t.claimItem p i where
  only s i := by
    cases found : s.holding i with
    | none =>
      rw [claimItem_free found]
      rfl
    | some h =>
      rw [claimItem_held found]
      rfl
  ports s i := by
    cases found : s.holding i with
    | none =>
      rw [claimItem_free found]
      rfl
    | some h =>
      rw [claimItem_held found]
      rfl
  other s i j differs := by
    cases found : s.holding i with
    | none =>
      rw [claimItem_free found]
      exact (setHolding_holding ..).trans (if_neg differs)
    | some h => rw [claimItem_held found, setHolding_holding, if_neg differs]
  grows s i := by
    cases found : s.holding i with
    | none =>
      rw [claimItem_free found]
      exact Grows.addEntry (s.setHolding i _) ..
    | some h =>
      rw [claimItem_held found]
      exact .refl _

/-- Renewals add no entry (05 R91). -/
theorem claimItems_events (p : Port) {l : List Item} {s : State} (held : ∀ i ∈ l, s.holding i ≠ none) :
    (l.foldl (fun t i => t.claimItem p i) s).events = s.events := by
  induction l generalizing s with
  | nil => rfl
  | cons i rest ih =>
    obtain ⟨h, found⟩ := Option.ne_none_iff_exists'.mp (held i List.mem_cons_self)
    have renewed := claimItem_held (p := p) found
    rw [List.foldl_cons, renewed]
    refine (ih fun j member => ?_).trans rfl
    rw [setHolding_holding]
    split
    · exact Option.some_ne_none _
    · exact held j (List.mem_cons_of_mem i member)

section claims

variable {s : State} {p : Port} {n : Nat}

theorem claimCheck_excluded (small : n < 512) (some' : n ≠ 0) (outside : Excludes s.authority.location p) :
    s.claimCheck p (namedItems n) = some .wrongLocation := by
  have named : (namedItems n).isEmpty = false := Bool.eq_false_iff.mpr (mt (namedItems_isEmpty small).mp some')
  have refused : s.admits p = false := Bool.eq_false_iff.mpr (mt (admits_excludes s p).mp (not_not.mpr outside))
  unfold State.claimCheck
  rw [named, refused]
  rfl

variable (admitted : n = 0 ∨ ¬Excludes s.authority.location p) (small : n < 512)
include admitted small

theorem claimCheck_admitted : s.claimCheck p (namedItems n) = (namedItems n).findSome? fun i =>
    match s.holding i with
      | some h => if h.holder = p then none else some (.heldByOther i h.holder)
      | none => none := by
  unfold State.claimCheck
  refine if_neg ?_
  rcases admitted with rfl | inside
  · rw [(namedItems_isEmpty small).mpr rfl]
    simp
  · simp [(admits_excludes s p).mpr inside]

theorem claimCheck_other {i : Item} {h : Holding} (named : n.testBit i.index.val = true) (held : s.holding i = some h)
    (other : h.holder ≠ p) (first : ∀ j k, j.index.val < i.index.val → n.testBit j.index.val = true →
      s.holding j = some k → k.holder = p) : s.claimCheck p (namedItems n) = some (.heldByOther i h.holder) := by
  rw [claimCheck_admitted admitted small]
  refine findSome_first _ _ (namedItems_sorted n) i (mem_namedItems.mpr named) ?_ fun j member below => ?_
  · rw [held]
    exact if_neg other
  · cases found : s.holding j with
    | none => rfl
    | some k => exact if_pos (first j k below (mem_namedItems.mp member) found)

theorem claimCheck_passes (own : ∀ i h, n.testBit i.index.val = true → s.holding i = some h → h.holder = p) :
    s.claimCheck p (namedItems n) = none := by
  rw [claimCheck_admitted admitted small, List.findSome?_eq_none_iff]
  intro j member
  cases found : s.holding j with
  | none => rfl
  | some k => exact if_pos (own j k (mem_namedItems.mp member) found)

end claims

/-! ## A request for items, and its report of the table (05 R102) -/

section itemRequest

variable {s : State} {p : Port} {kind tag : Byte} {body : List Byte} {c : Instr} {ask : List Item → State → Answer}
  (offers : s.offers p kind tag body) (run : exec c s = takeRequest p kind (withItems ask) s)
include offers run

theorem itemRequest_badArgument (wide : ∀ n, ItemSet body n → 512 ≤ n) : ∃ b, IsTable s b ∧
    exec c s = .next ((s.dropBuffer p).answered p kind tag (.refused .badArgument) b) := by
  refine ⟨_, tableReport_isTable s, run.trans (exec_request _ offers (a := ⟨.refused .badArgument, s.tableReport, s.dropBuffer p⟩) ?_)⟩
  unfold withItems
  rw [readItems_other wide]
  rfl

theorem itemRequest_asks {n : Nat} (set : ItemSet body n) (small : n < 512) : exec c s =
    .next ((ask (namedItems n) (s.dropBuffer p)).state.answered p kind tag (ask (namedItems n) (s.dropBuffer p)).status
      (ask (namedItems n) (s.dropBuffer p)).body) := by
  refine run.trans (exec_request _ offers ?_)
  unfold withItems
  rw [readItems_set set, if_pos small]

end itemRequest

theorem IsTable.answered {u : State} {b : Body} (h : IsTable u b) (p : Port) (kind tag : Byte) (st : Status) (c : Body) :
    IsTable (u.answered p kind tag st c) b := h

theorem OnlyTable.answered {s u : State} {p : Port} (h : OnlyTable (s.dropBuffer p) u) (kind tag : Byte) (st : Status)
    (b : Body) : OnlyTable s (u.answered p kind tag st b) := by
  unfold OnlyTable at h ⊢
  rw [h]
  rfl

theorem exec_claim (p : Port) (s : State) : exec (.claim p) s = takeRequest p 0x01 (withItems (handleClaim p)) s := rfl

theorem handleClaim_refused {s : State} {p : Port} {l : List Item} {r : Reason} (fails : s.claimCheck p l = some r) :
    handleClaim p l s = { status := .refused r, body := s.tableReport, state := s } := by
  unfold handleClaim
  rw [fails]

theorem handleClaim_passes {s : State} {p : Port} {l : List Item} (passes : s.claimCheck p l = none) :
    handleClaim p l s = report (l.foldl (fun t i => t.claimItem p i) s).tableReport (l.foldl (fun t i => t.claimItem p i) s) := by
  unfold handleClaim
  rw [passes]

/-- Settles O34. -/
theorem claimBySituation : Obligations.ClaimBySituation := by
  intro p tag body s offers
  refine ⟨itemRequest_badArgument offers (exec_claim p s), fun n set small => ?_⟩
  have asked := itemRequest_asks offers (exec_claim p s) set small
  refine ⟨fun some' outside => ?_, fun admitted => ⟨fun i h named held other first => ?_, fun own => ?_⟩⟩
  · rw [handleClaim_refused (claimCheck_excluded (s := s.dropBuffer p) small some' outside)] at asked
    exact ⟨_, tableReport_isTable (s.dropBuffer p), asked⟩
  · rw [handleClaim_refused (claimCheck_other (s := s.dropBuffer p) admitted small named held other first)] at asked
    exact ⟨_, tableReport_isTable (s.dropBuffer p), asked⟩
  · rw [handleClaim_passes (claimCheck_passes (s := s.dropBuffer p) admitted small own)] at asked
    have items := claimItem_itemWise p
    have only := items.foldl_only (namedItems n) (s.dropBuffer p)
    have ports := items.foldl_ports (namedItems n) (s.dropBuffer p)
    have other (i : Item) (unnamed : n.testBit i.index.val = false) :=
      items.foldl_other (fun member => Bool.noConfusion (unnamed.symm.trans (mem_namedItems.mp member))) (s.dropBuffer p)
    have taken (i : Item) (named : n.testBit i.index.val = true) :
        ((namedItems n).foldl (fun t i => t.claimItem p i) (s.dropBuffer p)).holding i = some (s.claimed p i) := by
      obtain ⟨u, reached, found, -, left, -⟩ := items.foldl_at (namedItems_nodup n) (mem_namedItems.mpr named) (s.dropBuffer p)
      have found : u.holding i = s.holding i := found
      have now : u.now = s.now := reached.now
      have station : u.station = s.station := reached.station
      have same : u.claimed p i = s.claimed p i := by
        unfold State.claimed
        rw [found, now, station]
      rw [left, claimItem_holding fun h held => own i h named (found.symm.trans held), same]
    have entry (u : State) (i : Item) (reached : OnlyTable (s.dropBuffer p) u) (free : u.holding i = none) :
        AddsEntry u (u.claimItem p i) fun e => e.kind = .authorityGranted ∧ e.subject = Item.subject i ∧ e.origin = .port p ∧
          e.detail = .nothing ∧ (s.station.leaseTime ≤ 10000 → e.value1 = some (s.station.leaseTime : Int)) ∧
          e.value2 = none := by
      have station : u.station = s.station := reached.station
      exact station ▸ claimItem_entry free
    have adds (i : Item) (named : n.testBit i.index.val = true) (free : s.holding i = none) :=
      items.foldl_adds (s := s.dropBuffer p) (namedItems_nodup n) (mem_namedItems.mpr named) fun u reached found =>
        entry u i reached (found.trans free)
    have ordered (i j : Item) (namedI : n.testBit i.index.val = true) (freeI : s.holding i = none)
        (namedJ : n.testBit j.index.val = true) (freeJ : s.holding j = none) (below : i.index.val < j.index.val) :=
      items.foldl_order (s := s.dropBuffer p) (P := fun e => e.kind = .authorityGranted ∧ e.subject = Item.subject i)
        (Q := fun e => e.kind = .authorityGranted ∧ e.subject = Item.subject j) (namedItems_sorted n)
        (mem_namedItems.mpr namedI) (mem_namedItems.mpr namedJ) below
        (fun u reached found => (entry u i reached (found.trans freeI)).mono fun e ⟨kind, subject, _⟩ => ⟨kind, subject⟩)
        fun u reached found => (entry u j reached (found.trans freeJ)).mono fun e ⟨kind, subject, _⟩ => ⟨kind, subject⟩
    have silent (held : ∀ i, n.testBit i.index.val = true → s.holding i ≠ none) :=
      claimItems_events p (l := namedItems n) (s := s.dropBuffer p) fun i member => held i (mem_namedItems.mp member)
    generalize (namedItems n).foldl (fun t i => t.claimItem p i) (s.dropBuffer p) = u at *
    exact ⟨_, u.tableReport, asked, responds_answered p 0x01 tag .done u.tableReport ports, (tableReport_isTable u).answered ..,
      only.answered .., other, taken, adds, ordered, silent⟩

/-! ## RELEASE, PORT RESET and lease expiry (05 R90, R92, R94; 11 R202) -/

section releaseItem

variable {s : State} {p : Port} {byReset : Bool} {i : Item} {h : Holding}

theorem releaseItem_own (held : s.holding i = some h) (own : h.holder = p) :
    s.releaseItem p byReset i = s.loseItem i h .authorityReleased (.release byReset) := by
  unfold State.releaseItem
  rw [held]
  exact if_pos own

theorem releaseItem_other (other : ∀ h, s.holding i = some h → h.holder ≠ p) : s.releaseItem p byReset i = s := by
  unfold State.releaseItem
  split
  next h held => exact if_neg (other h held)
  · rfl

/-- An item stands, or its holder gives it up. -/
theorem releaseItem_cases (s : State) (p : Port) (byReset : Bool) (i : Item) : s.releaseItem p byReset i = s ∨
    ∃ h, s.releaseItem p byReset i = s.loseItem i h .authorityReleased (.release byReset) := by
  by_cases own : ∃ h, s.holding i = some h ∧ h.holder = p
  · obtain ⟨h, held, own⟩ := own
    exact .inr ⟨h, releaseItem_own held own⟩
  · exact .inl (releaseItem_other fun h held same => own ⟨h, held, same⟩)

/-- AUTHORITY RELEASED of an item given up (05 R90, R101). -/
def IsAuthorityReleased (s : State) (p : Port) (byReset : Bool) (i : Item) (h : Holding) (e : Entry) : Prop :=
  e.kind = .authorityReleased ∧ e.subject = Item.subject i ∧ e.origin = .port p ∧ e.detail = .release byReset ∧
    e.value2 = none ∧ e.value1 = some ((min ((s.now - h.grantedAt) / 100000) 2147483647 : Nat) : Int)

theorem releaseItem_entry (held : s.holding i = some h) (own : h.holder = p) :
    AddsEntry s (s.releaseItem p byReset i) (IsAuthorityReleased s p byReset i h) := by
  rw [releaseItem_own held own, ← own]
  exact (s.loseItem_entry i h .authorityReleased (.release byReset) none).mono
    fun _ ⟨kind, subject, origin, detail, value1, value2⟩ => ⟨kind, subject, origin, detail, value2 rfl, value1⟩

end releaseItem

theorem releaseItem_itemWise (p : Port) (byReset : Bool) : ItemWise fun t i => t.releaseItem p byReset i where
  only s i := by
    obtain stands | ⟨h, loses⟩ := releaseItem_cases s p byReset i
    · rw [stands]
      exact .refl s
    · rw [loses]
      exact s.loseItem_only ..
  ports s i := by
    obtain stands | ⟨h, loses⟩ := releaseItem_cases s p byReset i
    · rw [stands]
    · rw [loses]
      rfl
  other s i j differs := by
    obtain stands | ⟨h, loses⟩ := releaseItem_cases s p byReset i
    · rw [stands]
    · rw [loses, s.loseItem_holding, if_neg differs]
  grows s i := by
    obtain stands | ⟨h, loses⟩ := releaseItem_cases s p byReset i
    · rw [stands]
      exact .refl _
    · rw [loses]
      exact s.loseItem_grows ..

section releaseItems

variable {s : State} {p : Port} {byReset : Bool} {l : List Item} (sorted : l.Pairwise fun i j => i.index < j.index)
include sorted

theorem sorted_nodup : l.Nodup := sorted.imp fun below same => absurd (congrArg Item.index same) (ne_of_lt below)

theorem releaseItems_gives {i : Item} {h : Holding} (member : i ∈ l) (held : s.holding i = some h) (own : h.holder = p) :
    (s.releaseItems p byReset l).holding i = none ∧
      AddsEntry s (s.releaseItems p byReset l) (IsAuthorityReleased s p byReset i h) := by
  have items := releaseItem_itemWise p byReset
  constructor
  · obtain ⟨u, -, found, -, left, -⟩ := items.foldl_at (sorted_nodup sorted) member s
    refine left.trans ?_
    rw [releaseItem_own (found.trans held) own, State.loseItem_holding, if_pos rfl]
  · refine items.foldl_adds (sorted_nodup sorted) member fun u reached found => ?_
    have entry := releaseItem_entry (byReset := byReset) (found.trans held) own
    unfold IsAuthorityReleased at entry
    rw [reached.now] at entry
    exact entry

theorem releaseItems_order {i j : Item} {h k : Holding} (hi : i ∈ l) (heldI : s.holding i = some h) (ownI : h.holder = p)
    (hj : j ∈ l) (heldJ : s.holding j = some k) (ownJ : k.holder = p) (below : i.index.val < j.index.val) :
    AddsInOrder s (s.releaseItems p byReset l) (fun e => e.kind = .authorityReleased ∧ e.subject = Item.subject i)
      (fun e => e.kind = .authorityReleased ∧ e.subject = Item.subject j) := by
  refine (releaseItem_itemWise p byReset).foldl_order sorted hi hj below (fun u _ found => ?_) fun u _ found => ?_
  · exact (releaseItem_entry (found.trans heldI) ownI).mono fun _ ⟨kind, subject, _⟩ => ⟨kind, subject⟩
  · exact (releaseItem_entry (found.trans heldJ) ownJ).mono fun _ ⟨kind, subject, _⟩ => ⟨kind, subject⟩

/-- The other items stand. -/
theorem releaseItems_stands {i : Item} (other : ∀ h, i ∈ l → s.holding i = some h → h.holder ≠ p) :
    (s.releaseItems p byReset l).holding i = s.holding i := by
  have items := releaseItem_itemWise p byReset
  by_cases member : i ∈ l
  · obtain ⟨u, -, found, -, left, -⟩ := items.foldl_at (sorted_nodup sorted) member s
    refine left.trans ?_
    rw [releaseItem_other fun h held => other h member (found.symm.trans held)]
    exact found
  · exact items.foldl_other member s

end releaseItems

/-! ### Lease expiry -/

theorem exec_leaseExpiry {i : Item} {s : State} {h : Holding} (live : s.resetLine = false) (held : s.holding i = some h)
    (due : h.expiry ≤ s.now) :
    exec (.leaseExpiry i) s = .next (s.loseItem i h .authorityExpired .nothing (some (h.lease : Int))) := by
  show execLeaseExpiry i s = _
  unfold execLeaseExpiry
  rw [live_next live, held]
  exact congrArg Host.Outcome.next (if_pos due)

/-! ### PORT RESET -/

/-- The port emptied, before its items are released (11 R202). -/
def State.portCleared (s : State) (p : Port) : State :=
  s.modPort p fun x => { x with buffers := [], responses := [], sent := 0, overrun := false }

/-- Its items released (05 R94). -/
def State.portReleased (s : State) (p : Port) : State := (s.portCleared p).releaseItems p true items

theorem resetPort_eq (s : State) (p : Port) (tag : Byte) :
    s.resetPort p tag = (s.portReleased p).answered p 0x7E tag .done .empty := by
  unfold State.resetPort State.portReleased State.portCleared
  simp only [respond_eq, done]

theorem portReleased_ports (s : State) (p : Port) : (s.portReleased p).ports = (s.portCleared p).ports :=
  (releaseItem_itemWise p true).foldl_ports items (s.portCleared p)

theorem portReleased_only (s : State) (p : Port) : OnlyTable (s.portCleared p) (s.portReleased p) :=
  (releaseItem_itemWise p true).foldl_only items (s.portCleared p)

/-- PORT RESET, clocked in as its own event or as the last byte of its frame (11 R198, R202). -/
theorem exec_portReset {p : Port} {tag : Byte} {s : State} {c : Instr} (live : s.resetLine = false)
    (selected : (s.port p).selected = true) (reset : c = .portReset p tag ∨
      ∃ bytes out body, c = .requestFrameReceived p ⟨bytes, out⟩ ∧ scan bytes = .frame 0x7E tag body true) :
    exec c s = .next (s.resetPort p tag) := by
  rcases reset with rfl | ⟨bytes, out, body, rfl, reads⟩
  · show execPortReset p tag s = _
    unfold execPortReset
    rw [live_next live, if_pos selected]
  · show execRequestFrameReceived p ⟨bytes, out⟩ s = _
    unfold execRequestFrameReceived
    rw [live_next live, if_pos selected]
    unfold State.receive
    rw [reads]
    rfl

theorem answered_self (u : State) (p : Port) (kind tag : Byte) (st : Status) (b : Body) :
    (u.answered p kind tag st b).port p =
      { u.port p with responses := (u.port p).responses ++ [u.responseTo p kind tag st b], overrun := false } :=
  State.modPort_port_self ..

theorem resetPort_port (s : State) (p : Port) (tag : Byte) : (s.resetPort p tag).port p = { s.port p with
    buffers := [], overrun := false, sent := 0,
    responses := [{ kind := 0x7E, tag := tag, status := .done, overrun := false,
                    eventsWaiting := (s.resetPort p tag).eventsWaiting p,
                    segmentFresh := (s.resetPort p tag).segmentFresh p, body := .empty }] } := by
  have cleared : (s.portReleased p).port p = { s.port p with buffers := [], responses := [], sent := 0, overrun := false } :=
    (congrArg (fun x => File.get x p.index) (portReleased_ports s p)).trans (State.modPort_port_self ..)
  rw [resetPort_eq]
  generalize s.portReleased p = u at cleared
  rw [answered_self, State.responseTo, cleared]
  rfl

theorem resetPort_port_ne (s : State) {p q : Port} (tag : Byte) (differs : q ≠ p) :
    (s.resetPort p tag).port q = s.port q := by
  have ports : (s.portReleased p).port q = s.port q :=
    (congrArg (fun x => File.get x q.index) (portReleased_ports s p)).trans (State.modPort_port_ne s _ differs)
  rw [resetPort_eq]
  exact (State.modPort_port_ne _ _ differs).trans ports

theorem resetPort_only (s : State) (p : Port) (tag : Byte) : OnlyTable s (s.resetPort p tag) := by
  have only := portReleased_only s p
  rw [resetPort_eq]
  generalize s.portReleased p = u at only
  unfold OnlyTable at only ⊢
  rw [only]
  rfl

/-- Settles O35. -/
theorem releasePortResetAndExpiryGiveUp : Obligations.ReleasePortResetAndExpiryGiveUp := by
  refine ⟨fun p tag body s offers => ?release, fun i s h live held due => ?expiry, fun p tag s c live selected reset => ?reset⟩
  case release =>
    have run : exec (.release p) s = takeRequest p 0x02 (withItems (handleRelease p)) s := rfl
    refine ⟨itemRequest_badArgument offers run, fun n set small => ?_⟩
    have asked := itemRequest_asks offers run set small
    have items := releaseItem_itemWise p false
    have only : OnlyTable (s.dropBuffer p) ((s.dropBuffer p).releaseItems p false (namedItems n)) := items.foldl_only ..
    have ports : ((s.dropBuffer p).releaseItems p false (namedItems n)).ports = (s.dropBuffer p).ports := items.foldl_ports ..
    have gives {i : Item} {h : Holding} := releaseItems_gives (s := s.dropBuffer p) (p := p) (byReset := false) (i := i) (h := h)
      (namedItems_sorted n)
    have order {i j : Item} {h k : Holding} := releaseItems_order (s := s.dropBuffer p) (p := p) (byReset := false) (i := i)
      (j := j) (h := h) (k := k) (namedItems_sorted n)
    have stands {i : Item} := releaseItems_stands (s := s.dropBuffer p) (p := p) (byReset := false) (i := i) (namedItems_sorted n)
    have answer : handleRelease p (namedItems n) (s.dropBuffer p) =
        report ((s.dropBuffer p).releaseItems p false (namedItems n)).tableReport
          ((s.dropBuffer p).releaseItems p false (namedItems n)) := rfl
    rw [answer] at asked
    generalize (s.dropBuffer p).releaseItems p false (namedItems n) = u at *
    refine ⟨_, u.tableReport, asked, responds_answered p 0x02 tag .done _ ports, (tableReport_isTable u).answered ..,
      only.answered .., fun i h named held own => ?_, fun i j h k namedI heldI ownI namedJ heldJ ownJ below => ?_,
      fun i other => ?_⟩
    · exact gives (mem_namedItems.mpr named) held own
    · exact order (mem_namedItems.mpr namedI) heldI ownI (mem_namedItems.mpr namedJ) heldJ ownJ below
    · exact stands fun h member => other h (mem_namedItems.mp member)
  case expiry =>
    refine ⟨_, exec_leaseExpiry live held due, ?_, fun j differs => ?_, s.loseItem_only .., rfl, rfl⟩
    · rw [s.loseItem_holding, if_pos rfl]
    · rw [s.loseItem_holding, if_neg differs]
  case reset =>
    have gives {i : Item} {h : Holding} (held : s.holding i = some h) (own : h.holder = p) :=
      releaseItems_gives (s := s.portCleared p) (byReset := true) items_pairwise (mem_items i) held own
    have order {i j : Item} {h k : Holding} (heldI : s.holding i = some h) (ownI : h.holder = p) (heldJ : s.holding j = some k)
        (ownJ : k.holder = p) (below : i.index.val < j.index.val) :=
      releaseItems_order (s := s.portCleared p) (byReset := true) items_pairwise (mem_items i) heldI ownI (mem_items j) heldJ
        ownJ below
    have stands {i : Item} (other : ∀ h, s.holding i = some h → h.holder ≠ p) :=
      releaseItems_stands (s := s.portCleared p) (byReset := true) (i := i) items_pairwise fun h _ => other h
    refine ⟨_, exec_portReset live selected reset, resetPort_only s p tag, fun q differs => resetPort_port_ne s tag differs,
      resetPort_port s p tag, ?_, ?_, ?_⟩
    all_goals
      rw [resetPort_eq, State.portReleased]
      generalize (s.portCleared p).releaseItems p true items = u at gives order stands
    · intro i h held own
      obtain ⟨free, entry⟩ := gives held own
      exact ⟨free, AddsEntry.mono entry fun e ⟨kind, subject, origin, detail, _⟩ => ⟨kind, subject, origin, detail⟩⟩
    · exact fun i j h k => order
    · exact fun i => stands

end Sys2Proof.Machine

/-! The bytes of a master port: the framing, the request buffers, and a request taken in its turn (11 R197 to R201). -/

namespace Sys2Proof.Machine

/-! ## A request frame read back (11 R197, R198) -/

theorem extractLsb'_halves_append (c : BitVec 16) : c.extractLsb' 8 8 ++ c.extractLsb' 0 8 = c := by
  refine BitVec.eq_of_getLsbD_eq fun i below => ?_
  rw [BitVec.getLsbD_append, BitVec.getLsbD_extractLsb', BitVec.getLsbD_extractLsb']
  by_cases low : i < 8
  · simp [low]
  · have high : i - 8 < 8 := by omega
    simp [low, high, show 8 + (i - 8) = i by omega]

/-- Bytes before the first 0xA5 are ignored (11 R197). -/
theorem scan_skip {before : List Byte} (skipped : ∀ b ∈ before, b ≠ 0xA5#8) (rest : List Byte) :
    scan (before ++ rest) = scan rest := by
  induction before with
  | nil => rfl
  | cons b more ih =>
    have other : b ≠ 0xA5#8 := skipped b List.mem_cons_self
    rw [List.cons_append, scan, if_neg other]
    exact ih fun x member => skipped x (List.mem_cons_of_mem b member)

/-- The two length bytes of a body of at most 256 bytes. -/
theorem lengthBytes {n : Nat} (short : n ≤ 256) :
    (BitVec.ofNat 8 (n / 256)).toNat * 256 + (BitVec.ofNat 8 n).toNat = n := by
  rw [BitVec.toNat_ofNat, BitVec.toNat_ofNat]
  omega

theorem scanRest_whole (hi lo kind tag : Byte) (body : List Byte) (a b : Byte) :
    scanRest hi lo body.length (kind :: tag :: (body ++ [a, b])) =
      .frame kind tag body (crc (hi :: lo :: kind :: tag :: body) == a ++ b) := by
  have length : (kind :: tag :: (body ++ [a, b])).length = body.length + 4 := by simp
  unfold scanRest
  rw [length, if_neg (lt_irrefl _), if_neg (lt_irrefl _)]
  simp only [List.take_left, List.drop_left]
  rfl

/-- Settles O9. -/
theorem requestFrameIsReadBack : Obligations.RequestFrameIsReadBack := by
  intro kind tag body before short skipped
  rw [scan_skip skipped]
  unfold requestFrame
  dsimp only
  rw [List.cons_append, scan, if_pos rfl]
  simp only [List.cons_append]
  rw [scanFrame, lengthBytes short, if_neg (by omega), scanRest_whole, extractLsb'_halves_append, beq_self_eq_true]

/-! ## Frames at the request buffers (11 R197 to R200) -/

theorem enter_enters (x : MasterPort) (fr : Frame) : Enters x (x.enter fr) fr := by
  unfold MasterPort.enter
  refine ⟨fun room => ?_, fun full => ?_⟩
  · rw [if_pos room]
    rfl
  · rw [if_neg (by omega)]
    rfl

theorem clockedOut_eq (x : MasterPort) (out : Nat) : x.clockedOut out = x.sentUpTo out := by
  unfold MasterPort.clockedOut MasterPort.sentUpTo
  simp only [List.isEmpty_iff]

/-- A change of a port is a change to the port that it makes. -/
theorem State.modPort_eq (s : State) (p : Port) (g : MasterPort → MasterPort) :
    s.modPort p g = s.modPort p fun _ => g (s.port p) := rfl

section frames

variable {p : Port} {bytes : List Byte} {out : Nat} {s : State}

theorem exec_selectDeasserted_whole (still : scan bytes ≠ .incomplete ∨ (s.port p).selected = false ∨ s.resetLine = true) :
    exec (.selectDeasserted p bytes) s = .next (s.modPort p fun x => { x with selected := false, sent := 0 }) := by
  show Host.Outcome.next (s.deselect p bytes) = _
  have passes : ((s.port p).selected && !s.resetLine && scan bytes == .incomplete) = false := by
    rcases still with other | idle | held
    · rw [beq_eq_false_iff_ne.mpr other, Bool.and_false]
    · rw [idle]
      rfl
    · rw [held, Bool.not_true, Bool.and_false]
      rfl
  unfold State.deselect
  rw [State.modPort_eq]
  dsimp only
  rw [passes]
  rfl

variable (live : s.resetLine = false) (selected : (s.port p).selected = true)
include live selected

theorem exec_selectDeasserted_cut (cut : scan bytes = .incomplete) : exec (.selectDeasserted p bytes) s =
    .next (s.modPort p fun _ => MasterPort.enter { s.port p with selected := false, sent := 0 } .bad) := by
  show Host.Outcome.next (s.deselect p bytes) = _
  unfold State.deselect
  rw [State.modPort_eq]
  dsimp only
  rw [selected, live, cut]
  rfl

theorem exec_requestFrameReceived : exec (.requestFrameReceived p ⟨bytes, out⟩) s = .next (s.receive p ⟨bytes, out⟩) := by
  show execRequestFrameReceived p ⟨bytes, out⟩ s = _
  unfold execRequestFrameReceived
  rw [live_next live, if_pos selected]

theorem exec_frameLengthAbove256 (long : scan bytes = .overLength) : exec (.frameLengthAbove256 p ⟨bytes, out⟩) s =
    .next (s.modPort p fun _ => ((s.port p).sentUpTo out).enter .bad) := by
  show execFrameLengthAbove256 p ⟨bytes, out⟩ s = _
  unfold execFrameLengthAbove256
  rw [live_next live, if_pos (by rw [selected, long]; rfl), State.modPort_eq, clockedOut_eq]

theorem exec_responseSent :
    exec (.responseSent p) s = .next (s.modPort p fun x => { x with responses := x.responses.tail, sent := 0 }) := by
  show execResponseSent p s = _
  unfold execResponseSent
  rw [live_next live, if_pos selected]

end frames

theorem receive_good {p : Port} {bytes body : List Byte} {out : Nat} {kind tag : Byte} {s : State}
    (reads : scan bytes = .frame kind tag body true) (other : kind ≠ 0x7E#8) : s.receive p ⟨bytes, out⟩ =
      s.modPort p fun _ => ((s.port p).sentUpTo out).enter (.good kind tag body) := by
  unfold State.receive
  rw [reads]
  dsimp only
  rw [if_pos rfl, if_neg other, State.modPort_eq, clockedOut_eq]

theorem receive_bad {p : Port} {bytes body : List Byte} {out : Nat} {kind tag : Byte} {s : State}
    (reads : scan bytes = .frame kind tag body false) : s.receive p ⟨bytes, out⟩ =
      s.modPort p fun _ => ((s.port p).sentUpTo out).enter .bad := by
  unfold State.receive
  rw [reads]
  dsimp only
  rw [if_neg Bool.false_ne_true, State.modPort_eq, clockedOut_eq]

/-- Settles O36. -/
theorem framesEnterTheBuffers : Obligations.FramesEnterTheBuffers := by
  intro p bytes out s
  refine ⟨rfl, exec_selectDeasserted_whole, fun live selected => ⟨fun cut => ?_, fun kind tag body reads other => ?_,
    fun kind tag body reads => ?_, fun long => ?_, exec_responseSent live selected⟩⟩
  · exact ⟨_, enter_enters .., exec_selectDeasserted_cut live selected cut⟩
  · exact ⟨_, enter_enters .., (exec_requestFrameReceived live selected).trans (by rw [receive_good reads other])⟩
  · exact ⟨_, enter_enters .., (exec_requestFrameReceived live selected).trans (by rw [receive_bad reads])⟩
  · exact ⟨_, enter_enters .., exec_frameLengthAbove256 live selected long⟩

/-! ## Requests in their turn (11 R198, R199) -/

/-- Every kind of the catalogue names a command that takes its requests. -/
theorem requestCommand_takes {p : Port} {kind : Byte} {c : Instr} (named : requestCommand p kind = some c) :
    ∃ handle, ∀ s, exec c s = takeRequest p kind handle s := by
  have byte : kind = BitVec.ofNat 8 kind.toNat := by simp
  unfold requestCommand at named
  split at named <;> cases named
  all_goals
    rename_i code
    rw [code] at byte
    exact ⟨_, fun s => by rw [byte]; rfl⟩

theorem oldest_of_head {p : Port} {s : State} {fr : Frame} (room : (s.port p).responses.length < 2)
    (head : (s.port p).buffers.head? = some fr) : s.oldest p = some fr := by
  unfold State.oldest MasterPort.room
  rw [if_pos (decide_eq_true room), head]

theorem exec_badFrame {p : Port} {s : State} (live : s.resetLine = false) (room : (s.port p).responses.length < 2)
    (head : (s.port p).buffers.head? = some .bad) :
    exec (.badFrame p) s = .next ((s.dropBuffer p).answered p 0 0 (.refused .badFrame) .empty) := by
  show execBadFrame p s = _
  unfold execBadFrame
  rw [live_next live, oldest_of_head room head]
  rfl

theorem exec_badKind {p : Port} {s : State} {kind tag : Byte} {body : List Byte} (offers : s.offers p kind tag body)
    (unnamed : requestCommand p kind = none) :
    exec (.badKind p) s = .next ((s.dropBuffer p).answered p kind tag (.refused .badKind) .empty) := by
  obtain ⟨live, room, head⟩ := offers
  show execBadKind p s = _
  unfold execBadKind
  rw [live_next live, oldest_of_head room head]
  dsimp only
  rw [unnamed]
  rfl

theorem waiting_none {p : Port} {kind : Byte} {s : State} (live : s.resetLine = false)
    (away : ∀ tag body, ¬s.offers p kind tag body) : s.waiting p kind = none := by
  unfold State.waiting
  split
  next k tag body found =>
    refine if_neg fun same => away tag body ⟨live, ?_, ?_⟩
    · unfold State.oldest at found
      split at found
      next room => exact of_decide_eq_true room
      · cases found
    · unfold State.oldest at found
      split at found
      · rw [found, same]
      · cases found
  · rfl

/-- Settles O37. -/
theorem requestsAreTakenInTheirTurn : Obligations.RequestsAreTakenInTheirTurn := by
  intro p s live
  refine ⟨exec_badFrame live, fun kind tag body => exec_badKind, fun kind c named away => ?_⟩
  obtain ⟨handle, takes⟩ := requestCommand_takes named
  rw [takes, takeRequest, live_next live, waiting_none live away]

/-! ## The requests that report (01 R16; 02 R38; 06 R129; 07 R157; 08 R166; 09 R182; 10 R194; 11 R203, R206) -/

section reports

variable {s : State} {p : Port} {kind tag : Byte} {body : List Byte} {c : Instr} {α : Type} {read : List Byte → Option α}
  {ask : α → State → Answer} {a : α}

theorem takeRequest_reports {b : Body} (offers : s.offers p kind tag body)
    (run : exec c s = takeRequest p kind (withArgs read ask) s) (reads : read body = some a)
    (reports : ask a (s.dropBuffer p) = report b (s.dropBuffer p)) :
    exec c s = .next ((s.dropBuffer p).answered p kind tag .done b) :=
  run.trans (exec_request _ offers ((withArgs_reads _ reads).trans reports))

end reports

theorem below_val {n : Nat} (small : n ≤ 256) (x : Fin n) : below n (BitVec.ofNat 8 x.val) = some x := by
  rw [below_eq_some, BitVec.toNat_ofNat]
  omega

theorem readFeederChoice_feeder (f : Feeder) : readFeederChoice [BitVec.ofNat 8 f.val] = some [f] := by
  revert f
  decide

section shown

variable {s : State} (p : Port) (live : s.resetLine = false)
include live

theorem feedersReport_shown (l : List Feeder) : handleReadFeeders l (s.dropBuffer p) =
    report (.feeders (l.map s.shownFeeder) s.key.location (s.shownRectifier).acPosition s.shownSample) (s.dropBuffer p) := by
  have feeders : l.map (s.dropBuffer p).feederReport = l.map s.shownFeeder :=
    List.map_congr_left fun f _ => feederReport_eq (s.dropBuffer p) f live
  unfold handleReadFeeders
  rw [feeders, acPosition_eq, sampleReport_eq]
  rfl

theorem rectifierReport_shown : (s.dropBuffer p).rectifierReport = s.shownRectifier :=
  rectifierReport_eq (s.dropBuffer p) live

end shown

theorem runnersReport_shown (s : State) (p : Port) (a n : Nat) : (s.dropBuffer p).runnersReport a n =
    .runners (s.shownRunner .runner0) (s.shownRunner .runner1) s.key.location s.headers
      ((List.range n).map fun k => s.slots.get (Fin.ofNat 256 (a + k))) := by
  unfold State.runnersReport
  rw [runnerReport_eq, runnerReport_eq]
  rfl

theorem identity_shown (s : State) (p : Port) : (s.dropBuffer p).identity p =
    { partCode := 0xCF08, revision := 1, port := p, stationNumber := s.settings.station.stationNumber,
      uptime := min ((s.now - s.startedAt) / 100000) 4294967295, restartCause := s.restartCause,
      source := s.store.source, framesBad := (s.port p).framesBad, framesDiscarded := (s.port p).framesDiscarded } := by
  have port : (s.dropBuffer p).port p = { s.port p with buffers := (s.port p).buffers.tail } := State.modPort_port_self ..
  unfold State.identity
  rw [port]
  rfl

/-- Settles O38. -/
theorem readsReportAndChangeNothing : Obligations.ReadsReportAndChangeNothing := by
  intro p tag s
  refine ⟨fun b offers => ?_, fun b offers => ?_, fun f offers => ?_, fun offers => ?_, fun f offers => ?_, fun offers => ?_,
    fun offers => ?_, fun offers => ?_, fun offers => ?_, fun a n offers some' few inside => ?_,
    fun k o n offers some' few => ?_, fun offers => ?_⟩
  · exact takeRequest_reports offers (read := readPart) (ask := handleReadSettings) (a := .station) rfl rfl rfl
  · exact takeRequest_reports offers (read := readPart) (ask := handleReadSettings) (a := .slotMap) rfl rfl rfl
  · refine takeRequest_reports offers (read := readPart) (ask := handleReadSettings) (a := .feeder f) rfl ?_ rfl
    exact congrArg (Option.map PartChoice.feeder) (below_val (by decide) f)
  · exact takeRequest_reports offers (read := readFeederChoice) (ask := handleReadFeeders) (a := eight) rfl rfl
      (feedersReport_shown p offers.1 eight)
  · exact takeRequest_reports offers (read := readFeederChoice) (ask := handleReadFeeders) (a := [f]) rfl
      (readFeederChoice_feeder f) (feedersReport_shown p offers.1 [f])
  · refine takeRequest_reports offers (read := readEmpty) (ask := fun _ s => report (.rectifier s.rectifierReport) s)
      (a := ()) rfl rfl ?_
    rw [rectifierReport_shown p offers.1]
  · exact takeRequest_reports offers (read := readEmpty) (a := ())
      (ask := fun _ s => report (.links (s.linkReport p .link0) (s.linkReport p .link1)) s) rfl rfl rfl
  · refine takeRequest_reports offers (read := readEmpty) (ask := fun _ s => report (.time s.timeReport) s) (a := ()) rfl rfl ?_
    rw [timeReport_eq]
    rfl
  · refine takeRequest_reports offers (read := readSlotRange) (ask := fun x s => report (s.runnersReport x.1 x.2) s)
      (a := (0, 0)) rfl rfl ?_
    rw [runnersReport_shown]
    rfl
  · refine takeRequest_reports offers (read := readSlotRange) (ask := fun x s => report (s.runnersReport x.1 x.2) s)
      (a := (a.toNat, n.toNat)) rfl (if_pos ⟨some', few, inside⟩) ?_
    rw [runnersReport_shown]
  · have reads : readCaptureRange [BitVec.ofNat 8 k.val, o, n] = some (k, o.toNat, n.toNat) := by
      refine (if_pos ⟨some', few⟩).trans ?_
      rw [below_val (by decide)]
      rfl
    exact ⟨_, captureBytes_shown k (s.captures.buffers.get k) o.toNat n.toNat,
      takeRequest_reports offers (read := readCaptureRange) (ask := handleReadCapture) (a := (k, o.toNat, n.toNat)) rfl reads rfl⟩
  · refine takeRequest_reports offers (read := readEmpty) (ask := fun _ s => report (.identity (s.identity p)) s) (a := ()) rfl rfl ?_
    rw [identity_shown]

end Sys2Proof.Machine

/-! The Event Record: an entry added, READ EVENTS, SUBSCRIBE and RELEASE CAPTURE (10 R184 to R188, R195). -/

namespace Sys2Proof.Machine

/-! ## An entry joins the ring (10 R184 to R186) -/

theorem fieldValue_fits (which draw : Nat) {x : Int} (above : -2147483648 ≤ x) (below : x ≤ 2147483647) :
    fieldValue which draw (some x) = some x := if_pos (decide_eq_true ⟨above, below⟩)

theorem EventRecord.makeRoom_full {r : EventRecord} {g : Entry} {rest : List Entry} (ring : r.ring = g :: rest)
    (full : 1024 ≤ r.ring.length) :
    r.makeRoom = { r with ring := rest, cursors := r.cursors.map fun c => c.pushed g.sequence } := by
  unfold EventRecord.makeRoom
  split
  next h more found =>
    rw [ring] at found
    cases found
    exact if_pos full
  next empty => rw [empty] at ring; cases ring

/-! ## READ EVENTS (10 R187) -/

/-- What a walk gives: the first subscribed entries, as many as it may. -/
theorem walk_given (c : PortCursor) (n : Nat) (l : List Entry) : (walk c n l).1 = (l.filter c.subscribes).take n := by
  induction l generalizing n with
  | nil => cases n <;> rfl
  | cons e rest ih =>
    cases n with
    | zero => rfl
    | succ n =>
      by_cases wanted : c.subscribes e = true
      · simp only [walk, wanted, if_true, List.filter_cons_of_pos, List.take_succ_cons, ih]
      · simp only [walk, wanted, if_false, Bool.false_eq_true, not_false_eq_true, List.filter_cons_of_neg, ih]

/-- Where a walk stops short of its count, nothing is left. -/
theorem walk_short (c : PortCursor) {n : Nat} {l : List Entry} (short : (l.filter c.subscribes).length < n) :
    (walk c n l).2 = [] := by
  induction l generalizing n with
  | nil => cases n <;> [cases short; rfl]
  | cons e rest ih =>
    cases n with
    | zero => cases short
    | succ n =>
      by_cases wanted : c.subscribes e = true
      · rw [List.filter_cons_of_pos wanted, List.length_cons] at short
        simp only [walk, wanted, if_true]
        exact ih (Nat.lt_of_succ_lt_succ short)
      · rw [List.filter_cons_of_neg wanted] at short
        simp only [walk, wanted, if_false, Bool.false_eq_true]
        exact ih short

/-- Where it reaches its count with nothing left, it gave the newest entry last. -/
theorem walk_newest (c : PortCursor) {n : Nat} {l : List Entry} {e : Entry} (reached : n ≤ (l.filter c.subscribes).length)
    (last : (walk c n l).1.getLast? = some e) (nothing : (walk c n l).2 = []) : l.getLast? = some e := by
  induction l generalizing n with
  | nil =>
    cases n with
    | zero => cases last
    | succ n => cases last
  | cons x rest ih =>
    cases n with
    | zero => cases last
    | succ n =>
      by_cases wanted : c.subscribes x = true
      · rw [List.filter_cons_of_pos wanted, List.length_cons] at reached
        simp only [walk, wanted, if_true] at last nothing
        cases n with
        | zero =>
          have ends : rest = [] := by cases rest <;> exact nothing
          have given : (walk c 0 rest).1 = [] := by cases rest <;> rfl
          rw [given] at last
          rw [ends]
          exact last
        | succ n =>
          cases given : (walk c (n + 1) rest).1 with
          | nil =>
            rw [walk_given, List.take_eq_nil_iff] at given
            rcases given with zero | none'
            · cases zero
            · rw [none'] at reached
              cases reached with
              | step impossible => cases impossible
          | cons y more =>
            rw [given, List.getLast?_cons_cons] at last
            rw [← given] at last
            have newest := ih (Nat.le_of_succ_le_succ reached) last nothing
            cases rest with
            | nil => cases newest
            | cons z tail => rw [List.getLast?_cons_cons, newest]
      · rw [List.filter_cons_of_neg wanted] at reached
        simp only [walk, wanted, if_false, Bool.false_eq_true] at last nothing
        have newest := ih reached last nothing
        cases rest with
        | nil => cases newest
        | cons z tail => rw [List.getLast?_cons_cons, newest]

section sound

variable {r : EventRecord} (sound : r.sound)
include sound

/-- The entries ahead of a port, counted from the newest back. -/
theorem ahead_eq (p : Port) : r.ahead (r.cursors.get p.index) =
    r.ring.drop (r.ring.length - seqDistance (r.cursors.get p.index).next r.nextSequence) := by
  obtain ⟨short, next, sequences, cursors⟩ := sound
  obtain ⟨cursor, near⟩ := cursors p
  unfold EventRecord.ahead
  cases ring : r.ring with
  | nil => exact List.drop_nil.symm
  | cons e rest =>
    have first := sequences 0 (by rw [ring]; exact Nat.succ_pos _)
    rw [ring] at first short near
    have number : e.sequence = (r.nextSequence + 4294967296 - (e :: rest).length) % 4294967296 := by
      have := Option.some.inj first
      rw [EventRecord.sequenceAt, ring] at this
      exact this
    dsimp only
    generalize (e :: rest).length = n at *
    congr 1
    unfold seqDistance at near ⊢
    omega

/-- The entry after the newest is the next one. -/
theorem newest_next {e : Entry} (newest : r.ring.getLast? = some e) : nextSeq e.sequence = r.nextSequence := by
  obtain ⟨short, next, sequences, -⟩ := sound
  have some' : 0 < r.ring.length := by
    cases ring : r.ring with
    | nil => rw [ring] at newest; cases newest
    | cons x rest => exact Nat.succ_pos _
  have last := sequences (r.ring.length - 1) (by omega)
  rw [← List.getLast?_eq_getElem?, newest] at last
  have number : e.sequence = r.sequenceAt (r.ring.length - 1) := Option.some.inj last
  rw [number, EventRecord.sequenceAt, nextSeq]
  omega

/-- The cursor after a walk (10 R187). -/
theorem cursorAfter_eq (n : Nat) (c : PortCursor) (l : List Entry) (ahead : ∃ k, l = r.ring.drop k) :
    (∀ e, n ≤ (l.filter c.subscribes).length → ((l.filter c.subscribes).take n).getLast? = some e →
      cursorAfter r (walk c n l) = (e.sequence + 1) % 4294967296) ∧
    ((l.filter c.subscribes).length < n → cursorAfter r (walk c n l) = r.nextSequence) := by
  constructor
  · intro e reached last
    rw [← walk_given] at last
    unfold cursorAfter
    cases left : (walk c n l).2 with
    | nil =>
      have newest := walk_newest c reached last left
      obtain ⟨k, rfl⟩ := ahead
      have ring : r.ring.getLast? = some e := by
        rw [List.getLast?_drop] at newest
        split at newest
        · cases newest
        · exact newest
      exact (newest_next sound ring).symm
    | cons x rest =>
      rw [last]
      rfl
  · intro short
    unfold cursorAfter
    rw [walk_short c short]

end sound

theorem handleReadEvents_eq {s : State} (p : Port) (n : Nat) (sound : RecordSound s) : handleReadEvents p n s =
    report (.events (s.cursor p).overrun (s.cursor p).gap (((s.events.ring.drop (s.events.ring.length -
        seqDistance (s.cursor p).next s.events.nextSequence)).filter (s.cursor p).subscribes).take (min n 9)))
      (s.modCursor p fun c => { c with
        next := cursorAfter s.events (walk (s.cursor p) (min n 9) (s.events.ring.drop (s.events.ring.length -
          seqDistance (s.cursor p).next s.events.nextSequence))), overrun := false, gap := 0 }) := by
  have ahead : s.events.ahead (s.cursor p) = _ := ahead_eq sound p
  unfold handleReadEvents
  dsimp only
  rw [ahead, walk_given]
  rfl

/-! ## The statement -/

/-- The entry that an addition appends (10 R184). -/
def State.entryOf (s : State) (k : EventKind) (u : Subject) (o : Origin) (d : Detail) (v w : Option Int)
    (c : Option (Fin 4)) : Entry :=
  { sequence := s.events.nextSequence, time := s.time.now, quality := s.time.quality, kind := k, subject := u, origin := o,
    detail := d, value1 := fieldValue 0 s.choices v, value2 := fieldValue 1 s.choices w, capture := c }

section addEntry

variable (s : State) (k : EventKind) (u : Subject) (o : Origin) (d : Detail) (v w : Option Int) (c : Option (Fin 4))

theorem addEntry_events : (s.addEntry k u o d v w c).events = s.events.append (s.entryOf k u o d v w c) := rfl

theorem append_full {g : Entry} {rest : List Entry} (ring : s.events.ring = g :: rest) (full : 1024 ≤ s.events.ring.length)
    (e : Entry) : (s.events.append e).ring = rest ++ [e] ∧ ∀ p : Port, (s.events.append e).cursors.get p.index =
      if (s.cursor p).next = g.sequence then
        { s.cursor p with next := (g.sequence + 1) % 4294967296, overrun := true, gap := min ((s.cursor p).gap + 1) 65535 }
      else s.cursor p := by
  unfold EventRecord.append
  rw [EventRecord.makeRoom_full ring full]
  refine ⟨rfl, fun p => ?_⟩
  exact get_map s.events.cursors (fun x => x.pushed g.sequence) p.index

theorem append_few (few : s.events.ring.length < 1024) (e : Entry) :
    (s.events.append e).ring = s.events.ring ++ [e] ∧ (s.events.append e).cursors = s.events.cursors := by
  rw [append_of_room e few]
  exact ⟨rfl, rfl⟩

end addEntry

theorem readClasses_bits (m : Byte) : ∃ x : File Bool 8, (∀ k : Fin 8, x.get k = m.toNat.testBit k.val) ∧
    readClasses [m] = some x := by
  refine ⟨_, fun k => ?_, rfl⟩
  fin_cases k <;> rfl

/-- Settles O39. -/
theorem entriesJoinTheRecordAndAreRead : Obligations.EntriesJoinTheRecordAndAreRead := by
  refine ⟨fun s k u o d v w c => ?_, fun p tag s => ⟨fun n offers outside => ?_, fun n offers some' few sound => ?_,
    fun m offers => ?_, fun n offers => ⟨fun free => ?_, fun c found => ⟨fun held => ?_, fun filling => ?_⟩⟩⟩⟩
  · refine ⟨s.entryOf k u o d v w c, rfl, rfl, rfl, rfl, rfl, rfl, rfl, rfl, ?_, ?_, ?_, ?_, _, _, rfl,
      append_nextSequence s.events _, fun few => append_few s few _, fun g rest ring full => append_full s ring full _⟩
    · rintro rfl
      rfl
    · rintro rfl
      rfl
    · rintro x rfl above below
      exact fieldValue_fits _ _ above below
    · rintro x rfl above below
      exact fieldValue_fits _ _ above below
  · have fails : readCount [n] = none := if_neg (by omega)
    exact takeRequest_refused (kind := 0x60) offers (withArgs_fails (ask := handleReadEvents p) _ fails)
  · have reads : readCount [n] = some n.toNat := if_pos ⟨some', few⟩
    have run := exec_request (withArgs readCount (handleReadEvents p)) (kind := 0x60) offers
      ((withArgs_reads _ reads).trans (handleReadEvents_eq (s := s.dropBuffer p) p n.toNat sound))
    obtain ⟨reached, short⟩ := cursorAfter_eq (r := s.events) sound (min n.toNat 9) (s.cursor p)
      (s.events.ring.drop (s.events.ring.length - seqDistance (s.cursor p).next s.events.nextSequence)) ⟨_, rfl⟩
    exact ⟨_, run, reached, short⟩
  · obtain ⟨x, bits, reads⟩ := readClasses_bits m
    exact ⟨x, bits, takeRequest_done (kind := 0x61) offers (withArgs_reads (ask := handleSubscribe p) _ reads)⟩
  · have reads : readBuffer [BitVec.ofNat 8 n.val] = some n := below_val (by decide) n
    have answer : handleReleaseCapture n (s.dropBuffer p) = done (s.dropBuffer p) := by
      unfold handleReleaseCapture
      rw [show (s.dropBuffer p).captures.buffers.get n = none from free]
    exact takeRequest_done (kind := 0x63) offers ((withArgs_reads (ask := handleReleaseCapture) _ reads).trans answer)
  · have reads : readBuffer [BitVec.ofNat 8 n.val] = some n := below_val (by decide) n
    have answer : handleReleaseCapture n (s.dropBuffer p) = done ((s.dropBuffer p).setBuffer n none) := by
      unfold handleReleaseCapture
      rw [show (s.dropBuffer p).captures.buffers.get n = some c from found]
      exact if_pos held
    exact takeRequest_done (kind := 0x63) offers ((withArgs_reads (ask := handleReleaseCapture) _ reads).trans answer)
  · have reads : readBuffer [BitVec.ofNat 8 n.val] = some n := below_val (by decide) n
    have answer : handleReleaseCapture n (s.dropBuffer p) = refuse .busy (s.dropBuffer p) := by
      unfold handleReleaseCapture
      rw [show (s.dropBuffer p).captures.buffers.get n = some c from found]
      exact if_neg (by rw [filling]; exact Bool.false_ne_true)
    exact takeRequest_refused (kind := 0x63) offers ((withArgs_reads (ask := handleReleaseCapture) _ reads).trans answer)

end Sys2Proof.Machine

/-! The sample line: delimiting (01 R1), a valid frame before the port is VALID (01 R7, R11), and a frame handed on
(01 R9, R12, R13) at Breaker Control, the Firing Unit and the Capture Unit; the line that falls silent (01 R8, R10). -/

namespace Sys2Proof.Machine

/-! ## A frame starts (01 R1) -/

theorem exec_frameStart {s : State} (runs : s.resetLine = false) (trailing : Nat) :
    exec (.frameStart trailing) s = .next (if s.sample.state = .disabled then s
      else s.modSample fun x => { x.endFrame trailing with reception := .receiving }) := by
  show execFrameStart trailing s = _
  exact live_next runs _

theorem exec_frameStart_enabled {s : State} {trailing : Nat} {x : SamplePort} (runs : s.resetLine = false)
    (enabled : s.sample.state ≠ .disabled) (ends : s.sample.endFrame trailing = x) :
    exec (.frameStart trailing) s = .next { s with sample := { x with reception := .receiving } } := by
  rw [exec_frameStart runs, if_neg enabled, ← ends]
  rfl

/-- The state once the 34th word of a frame has been received. -/
def State.received (s : State) : State := s.modSample fun x => { x with reception := .complete }

theorem exec_frameComplete_received {words : File Word 34} {s : State} (runs : s.resetLine = false)
    (receiving : s.sample.reception = .receiving)
    (passes : ∀ cause, ¬FrameFails s.settings.slotMap s.sample.reference words cause) :
    exec (.frameComplete words) s = .next (s.received.validFrame words) :=
  exec_frameComplete_of_passes runs receiving passes

/-! ## A valid frame that is not handed on (01 R7, R11) -/

theorem State.validFrame_of_unsteady {s : State} (words : File Word 34)
    (unsteady : s.sample.state = .starting ∧ s.sample.primed = false ∨ s.sample.state = .lost) :
    s.validFrame words = s.modSample fun x =>
      { (x.taken (frameNumber words) s.now).discard .starting with state := .starting, primed := true } := by
  obtain ⟨starting, unprimed⟩ | lost := unsteady
  · simp [State.validFrame, starting, unprimed, State.modSample, SamplePort.discard, SamplePort.taken]
  · simp [State.validFrame, lost, State.modSample, SamplePort.discard, SamplePort.taken]

theorem continuity_gap_iff (reference : Option Nat) (words : File Word 34) :
    continuity reference (frameNumber words) = .gap ↔ FollowsGap reference words := by
  cases reference with
  | none => simp [continuity, FollowsGap]
  | some r =>
    by_cases next : (words.get 0).toNat / 256 = (r + 1) % 256 <;> simp [continuity, FollowsGap, frameNumber, next]

/-- Settles O10: a frame start ends what was under reception, and a valid frame at a port that is not steady is
discarded with cause STARTING after its number has been taken. -/
theorem framesAreDelimitedAndSteadied : Obligations.FramesAreDelimitedAndSteadied := by
  refine ⟨fun trailing s runs => ⟨fun disabled => ?_, fun enabled receiving => ?_, fun enabled complete trails => ?_,
    fun enabled standing short => ?_⟩, fun words s runs receiving unsteady passes => ?_⟩
  · rw [exec_frameStart runs, if_pos disabled]
  · have ends : s.sample.endFrame trailing = s.sample.discard .length := by rw [SamplePort.endFrame, receiving]
    exact exec_frameStart_enabled runs enabled ends
  · have ends : s.sample.endFrame trailing = { s.sample with counters := s.sample.counters.counted .length } := by
      simp only [SamplePort.endFrame, complete, if_pos trails]
    exact exec_frameStart_enabled runs enabled ends
  · refine exec_frameStart_enabled runs enabled ?_
    cases reception : s.sample.reception with
    | idle => simp [SamplePort.endFrame, reception]
    | receiving => exact absurd reception standing
    | complete =>
      obtain idle | none_trail := short
      · rw [reception] at idle; cases idle
      · simp [SamplePort.endFrame, reception, none_trail]
  · have taken := exec_frameComplete_received runs receiving passes
    rw [State.validFrame_of_unsteady (s := s.received) words unsteady] at taken
    refine ⟨_, taken, rfl, ?_⟩
    have marks := continuity_gap_iff s.sample.reference words
    simp only [State.received, State.modSample, SamplePort.discard, SamplePort.taken, SampleCounters.counted, ← marks]
    by_cases gap : continuity s.sample.reference (frameNumber words) = .gap <;> simp [gap]

/-! ## The values of a frame (01 R12) -/

theorem quantity_carries (m : File SlotEntry 32) (words : File Word 34) (e : SlotEntry) :
    Carries m words e (quantity m words e) := by
  have cell (k : Nat) (below : k < 32) : m.cells[k]'(m.size.symm ▸ below) = m.get ⟨k, below⟩ := (File.get_eq_getElem m ⟨k, below⟩).symm
  refine ⟨fun n found only => ?_, fun unassigned => ?_⟩
  · have first : m.cells.findIdx? (fun x => x == e) = some n.val := by
      rw [List.findIdx?_eq_some_iff_getElem]
      refine ⟨by rw [m.size]; exact n.isLt, by rw [cell n.val n.isLt, found, beq_self_eq_true], fun j before same => ?_⟩
      have below : j < 32 := before.trans n.isLt
      have at_j : m.get ⟨j, below⟩ = e := (cell j below).symm.trans (beq_iff_eq.mp same)
      exact absurd (congrArg Fin.val (only _ at_j)) (Nat.ne_of_lt before)
    rw [quantity, first, Option.map_some, slotValue_eq_slotWord]
  · have absent : m.cells.findIdx? (fun x => x == e) = none := by
      rw [List.findIdx?_eq_none_iff]
      intro x member
      obtain ⟨k, below, rfl⟩ := List.getElem_of_mem member
      rw [beq_eq_false_iff_ne]
      rw [cell k (m.size ▸ below)]
      exact unassigned ⟨k, m.size ▸ below⟩
    rw [quantity, absent, Option.map_none]

theorem quantities_ifs (m : File SlotEntry 32) (words : File Word 34) (f : Feeder) :
    (quantities m words).ifs.get f = quantity m words (.feederCurrent f) := File.get_ofList_eight ..

theorem quantities_ufs (m : File SlotEntry 32) (words : File Word 34) (f : Feeder) :
    (quantities m words).ufs.get f = quantity m words (.feederVoltage f) := File.get_ofList_eight ..

/-! ## A frame at the Firing Unit (06 R116, R117) -/

theorem State.rectTrip_rect (s : State) (c : RectTripCause) (v w : Option Int) :
    (s.rectTrip c v w).rect =
      { s.rect.stopped s.station .tripped with lastTripCause := c, acOperation := s.acOpening .protection } := by
  unfold State.rectTrip
  dsimp only
  generalize stopped : s.modRect (fun r => { r.stopped s.station .tripped with lastTripCause := c }) = u
  have opening : (u.openAc .protection).rect.acOperation = s.acOpening .protection := by
    rw [openAc_acOperation, ← stopped]
    rfl
  have rect : ((u.openAc .protection).rectEntry .rectifierTrip .protection (.rectTrip c) v w).rectToRunners.rect =
      { u.rect with acOperation := (u.openAc .protection).rect.acOperation } := rectView.rectToRunners _
  rw [rect, opening, ← stopped]
  rfl

theorem State.rectTrip_captures (s : State) (c : RectTripCause) (v w : Option Int) :
    (s.rectTrip c v w).captures = s.captures := capturesView.rectToRunners _

/-- The fields of the rectifier that Ub reaches. -/
def Rectifier.overvoltageFields (r : Rectifier) : List Mark × Option Instant × Option Instant :=
  (r.overvoltage, r.overvoltageHold, r.releaseSince)

/-- The fields of the rectifier that Ir reaches. -/
def Rectifier.overcurrentFields (r : Rectifier) :
    RectState × List Mark × RectTripCause × Nat × Option CycleValues × File Nat 12 × Option AcOperation :=
  (r.state, r.overcurrent, r.lastTripCause, r.applied, r.cycle, r.gates, r.acOperation)

section firing

variable (s : State) (v : Option Int)

theorem State.overvoltageFrame_captures : (s.overvoltageFrame v).captures = s.captures := by
  unfold State.overvoltageFrame
  split
  · rfl
  · dsimp only
    split <;> rfl

theorem State.overvoltageFrame_overcurrentFields :
    (s.overvoltageFrame v).rect.overcurrentFields = s.rect.overcurrentFields := by
  unfold State.overvoltageFrame
  split
  · rfl
  · dsimp only
    split <;> rfl

theorem State.overvoltageFrame_measurementHold :
    (s.overvoltageFrame v).rect.measurementHold = s.rect.measurementHold := by
  unfold State.overvoltageFrame
  split
  · rfl
  · dsimp only
    split <;> rfl

theorem State.overcurrentFrame_captures : (s.overcurrentFrame v).captures = s.captures := by
  unfold State.overcurrentFrame
  split
  · split
    · rfl
    · dsimp only
      split
      · exact State.rectTrip_captures ..
      · rfl
  · rfl

theorem State.overcurrentFrame_overvoltageFields :
    (s.overcurrentFrame v).rect.overvoltageFields = s.rect.overvoltageFields := by
  unfold State.overcurrentFrame
  split
  · split
    · rfl
    · dsimp only
      split
      · rw [State.rectTrip_rect]
        rfl
      · rfl
  · rfl

theorem State.overcurrentFrame_measurementHold :
    (s.overcurrentFrame v).rect.measurementHold = s.rect.measurementHold := by
  unfold State.overcurrentFrame
  split
  · split
    · rfl
    · dsimp only
      split
      · rw [State.rectTrip_rect]
        rfl
      · rfl
  · rfl

theorem State.fillCapture_rect (n : Fin 4) (x : Feeder → Triple) : (s.fillCapture n x).rect = s.rect := by
  unfold State.fillCapture
  split
  · split
    · rfl
    · dsimp only
      split <;> rfl
  · rfl

end firing

section parts

variable {q : Quantities} {part : State → State} {reads : Step → Bool}

theorem frameParts_captures (member : part ∈ frameParts q) (u : State) : (part u).captures = u.captures := by
  simp only [frameParts, List.mem_cons, List.not_mem_nil, or_false] at member
  obtain rfl | rfl := member
  · exact u.overvoltageFrame_captures _
  · exact u.overcurrentFrame_captures _

theorem waitParts_captures (member : part ∈ waitParts reads) (u : State) : (part u).captures = u.captures := by
  obtain ⟨r, -, rfl⟩ := List.mem_map.mp member
  exact capturesView.judgeWait ..

theorem waitParts_rect (member : part ∈ waitParts reads) (u : State) : (part u).rect = u.rect := by
  obtain ⟨r, -, rfl⟩ := List.mem_map.mp member
  exact rectView.judgeWait ..

theorem fillParts_rect (member : part ∈ fillParts q) (u : State) : (part u).rect = u.rect := by
  obtain ⟨n, -, rfl⟩ := List.mem_map.mp member
  exact u.fillCapture_rect ..

end parts

/-! ## A frame handed on, at the captures and the Firing Unit (01 R13; 10 R193) -/

/-- The state once the frame is the last one. -/
def State.lastTaken (s : State) (number : Nat) (q : Quantities) : State :=
  s.settleCaptures.modSample fun x =>
    { x with discards := 0, lastDiscard := .noCause,
             last := { values := q, number := some number, time := some s.time.now } }

/-- The state once Fault Detection and Breaker Control have taken the frame. -/
def State.takenIn (s : State) (mark : Continuity) (number : Nat) (q : Quantities) : State :=
  ((s.lastTaken number q).frameAtFaults mark number q).frameAtFeeders q

theorem State.handOn_eq (s : State) (mark : Continuity) (number : Nat) (q : Quantities) :
    s.handOn mark number q = (s.takenIn mark number q).frameAtCaptures
      ((s.lastTaken number q).newRequest ((s.lastTaken number q).frameAtFaults mark number q)) q := rfl

theorem State.foldl_frameAtFault_frame (mark : Continuity) (number : Nat) (q : Quantities) (l : List Feeder) (s : State) :
    ∃ x, l.foldl (fun t f => t.frameAtFault mark number q f) s = { s with faults := x } := by
  induction l generalizing s with
  | nil => exact ⟨s.faults, rfl⟩
  | cons f rest ih => exact ih (s.frameAtFault mark number q f)

/-- A frame leaves what neither the captures nor a feeder nor Fault Detection nor the port holds. -/
theorem State.takenIn_frame (s : State) (mark : Continuity) (number : Nat) (q : Quantities) :
    ∃ sample faults feeders, s.takenIn mark number q = { s with
      captures := s.settleCaptures.captures, events := s.settleCaptures.events, choices := s.settleCaptures.choices,
      sample := sample, faults := faults, feeders := feeders } := by
  obtain ⟨faults, frame⟩ := State.foldl_frameAtFault_frame mark number q eight (s.lastTaken number q)
  unfold State.takenIn State.frameAtFaults
  rw [frame]
  unfold State.lastTaken
  have settled := s.settleCaptures_frame
  generalize s.settleCaptures = u at settled ⊢
  unfold State.besideCaptures at settled
  generalize u.captures = captures, u.events = events, u.choices = choices at settled ⊢
  rw [settled]
  exact ⟨_, _, _, rfl⟩

theorem State.frameAtFeeders_feeder (s : State) (q : Quantities) (f : Feeder) :
    (s.frameAtFeeders q).feeder f = (s.feeder f).frame (q.ifs.get f) (q.ufs.get f) := File.get_ofList_eight ..

theorem State.takenIn_feeder (s : State) (mark : Continuity) (number : Nat) (q : Quantities) (f : Feeder) :
    (s.takenIn mark number q).feeder f = (s.feeder f).frame (q.ifs.get f) (q.ufs.get f) := by
  have settled : s.settleCaptures.feeder f = s.feeder f := congrArg (File.get · f) (feedersView.settleCaptures s)
  obtain ⟨faults, frame⟩ := State.foldl_frameAtFault_frame mark number q eight (s.lastTaken number q)
  unfold State.takenIn State.frameAtFaults
  rw [frame, State.frameAtFeeders_feeder]
  exact congrArg (fun r => r.frame (q.ifs.get f) (q.ufs.get f)) settled

theorem State.newRequest_iff (s t : State) :
    s.newRequest t = true ↔ ∃ f, (s.fault f).requests.length < (t.fault f).requests.length := by
  simp only [State.newRequest, List.any_eq_true, decide_eq_true_eq, mem_eight, true_and]

/-- A frame at the captures and the Firing Unit, or at the Firing Unit only while Fault Detection's request waits. -/
theorem State.frameAtCaptures_captures (s : State) (decided : Bool) (q : Quantities) :
    ReachesCaptures s (s.frameAtCaptures decided q) s.captures (s.frameAtCaptures decided q).captures q ∨
      decided = true ∧ (s.frameAtCaptures decided q).captures = { s.captures with late := some q } := by
  have leaves : ∀ part, part ∈ frameParts q ∨ part ∈ waitParts readsBus → ∀ u : State, (part u).captures = u.captures := by
    rintro part (firing | waits) u
    · exact frameParts_captures firing u
    · exact waitParts_captures waits u
  have quiet : ∀ part, part ∈ frameParts q ∨ part ∈ waitParts readsBus → ∀ u : State, Quiet u (part u) := by
    rintro part (firing | waits) u
    · exact Quiet.frameParts firing (.refl u)
    · exact Quiet.waitParts waits (.refl u)
  obtain ⟨x, now | ⟨decides, later⟩⟩ := s.frameAtCaptures_cases decided q
  · rw [now]
    exact .inl (fillParts_reaches_among q { s with choices := x } leaves quiet)
  · refine .inr ⟨decides, ?_⟩
    rw [later, together_leaves State.captures _ _ (fun _ _ => rfl)
      fun part member u => leaves part (List.mem_append.mp member) u]
    rfl

theorem State.handOn_grows (s : State) (mark : Continuity) (number : Nat) (q : Quantities) :
    Grows (s.takenIn mark number q).events (s.handOn mark number q).events := by
  rw [State.handOn_eq]
  exact ((Quiet.refl _).frameAtCaptures _ q).grows

/-- A frame handed on at the captures: at once, or later when it decided a trip (log 32). -/
theorem State.handOn_captures (s : State) (mark : Continuity) (number : Nat) (q : Quantities) :
    ∃ u, LateFrameReaches s (s.handOn mark number q) s.captures u ∧
      (ReachesCaptures s (s.handOn mark number q) u (s.handOn mark number q).captures q ∨
        (∃ f, (s.fault f).requests.length < ((s.handOn mark number q).fault f).requests.length) ∧
          (s.handOn mark number q).captures = { u with late := some q }) := by
  have after := s.handOn_grows mark number q
  have decides := (s.lastTaken number q).newRequest_iff ((s.lastTaken number q).frameAtFaults mark number q)
  have first (f : Feeder) : (s.lastTaken number q).fault f = s.fault f :=
    congrArg (File.get · f) (faultsView.settleCaptures s)
  have last (f : Feeder) : (s.handOn mark number q).fault f = ((s.lastTaken number q).frameAtFaults mark number q).fault f := by
    rw [State.handOn_eq, State.frameAtCaptures_fault]
    exact State.frameAtFeeders_fault ..
  have reaches := (s.takenIn mark number q).frameAtCaptures_captures
    ((s.lastTaken number q).newRequest ((s.lastTaken number q).frameAtFaults mark number q)) q
  rw [← State.handOn_eq] at reaches
  simp only [decides, first, ← last] at reaches
  obtain ⟨sample, faults, feeders, frame⟩ := s.takenIn_frame mark number q
  generalize s.handOn mark number q = t at after reaches ⊢
  rw [frame] at after reaches
  exact ⟨s.settleCaptures.captures, s.settleCaptures_reaches.grows (.refl _) after,
    reaches.imp_left fun reached => reached.grows (Quiet.refl s).settleCaptures.grows (.refl _)⟩

/-! ## A frame handed on, at the Firing Unit (06 R116 to R118) -/

/-- The clock, the settings and the AC breaker's block of `s` at `u`, whose record has grown since. -/
structure SameMoment (s u : State) : Prop where
  now : u.now = s.now
  settings : u.settings = s.settings
  acInput : u.acInput = s.acInput
  grows : Grows s.events u.events

theorem SameMoment.quiet {s u v : State} (h : SameMoment s u) (k : Quiet u v) : SameMoment s v :=
  ⟨k.now.trans h.now, k.settings.trans h.settings, k.acInput.trans h.acInput, h.grows.trans k.grows⟩

theorem SameMoment.station {s u : State} (h : SameMoment s u) : u.station = s.station := by
  rw [State.station, h.settings, State.station]

/-- What a view of the rectifier is when one part of the frame has acted on it, among parts that leave it. -/
def FiringPart {β : Type} (view : Rectifier → β) (act : State → State) (s t : State) : Prop :=
  ∃ u, view u.rect = view s.rect ∧ SameMoment s u ∧ view t.rect = view (act u).rect ∧ Grows (act u).events t.events

section frameParts

variable {q : Quantities} {rest : List (State → State)} {s : State}

theorem frameParts_firingPart {β : Type} {view : Rectifier → β} {A B : List (State → State)} {act : State → State}
    (listed : A ++ [act] ++ B = frameParts q ++ rest) (quiet : ∀ part ∈ rest, ∀ u, Quiet u (part u))
    (others : ∀ part, part ∈ A ∨ part ∈ B → ∀ u : State, view (part u).rect = view u.rect) :
    FiringPart view act s (together (frameParts q ++ rest) s) := by
  have all : ∀ part ∈ A ++ [()].map (fun _ => act) ++ B, ∀ u, Quiet u (part u) := by
    show ∀ part ∈ A ++ [act] ++ B, ∀ u, Quiet u (part u)
    rw [listed]
    intro part member u
    obtain firing | further := List.mem_append.mp member
    · exact Quiet.frameParts firing (.refl u)
    · exact quiet part further u
  obtain ⟨u, found, before, left, after⟩ := together_member_view (view := fun t => view t.rect) (List.nodup_singleton ())
    (List.mem_singleton_self ()) (fun _ => act) A B s (fun _ _ => rfl) (fun j differs => absurd rfl differs) others all
  have last : together (A ++ [()].map (fun _ => act) ++ B) s = together (frameParts q ++ rest) s :=
    congrArg (together · s) listed
  rw [last] at left after
  exact ⟨u, found, ⟨before.now, before.settings, before.acInput, before.grows⟩, left, after.grows⟩

/-- A part that is neither of the two leaves the rectifier. -/
theorem frameParts_overvoltage (quiet : ∀ part ∈ rest, ∀ u, Quiet u (part u))
    (leaves : ∀ part ∈ rest, ∀ u : State, (part u).rect = u.rect) :
    FiringPart Rectifier.overvoltageFields (·.overvoltageFrame q.ub) s (together (frameParts q ++ rest) s) := by
  refine frameParts_firingPart (A := []) (B := (·.overcurrentFrame q.ir) :: rest) rfl quiet fun part other u => ?_
  obtain none | other := other
  · simp at none
  · obtain rfl | further := List.mem_cons.mp other
    · exact u.overcurrentFrame_overvoltageFields _
    · rw [leaves part further u]

theorem frameParts_overcurrent (quiet : ∀ part ∈ rest, ∀ u, Quiet u (part u))
    (leaves : ∀ part ∈ rest, ∀ u : State, (part u).rect = u.rect) :
    FiringPart Rectifier.overcurrentFields (·.overcurrentFrame q.ir) s (together (frameParts q ++ rest) s) := by
  refine frameParts_firingPart (A := [(·.overvoltageFrame q.ub)]) (B := rest) rfl quiet fun part other u => ?_
  obtain first | further := other
  · rw [List.mem_singleton.mp first]
    exact u.overvoltageFrame_overcurrentFields _
  · rw [leaves part further u]

theorem frameParts_measurementHold (leaves : ∀ part ∈ rest, ∀ u : State, (part u).rect = u.rect) :
    (together (frameParts q ++ rest) s).rect.measurementHold = s.rect.measurementHold := by
  refine together_leaves (fun t => t.rect.measurementHold) _ s (fun _ _ => rfl) fun part member u => ?_
  obtain firing | further := List.mem_append.mp member
  · simp only [frameParts, List.mem_cons, List.not_mem_nil, or_false] at firing
    obtain rfl | rfl := firing
    · exact u.overvoltageFrame_measurementHold _
    · exact u.overcurrentFrame_measurementHold _
  · exact congrArg Rectifier.measurementHold (leaves part further u)

end frameParts

/-- What follows the histories, or the frame's being late, is the two parts of the Firing Unit and parts that leave it. -/
theorem State.frameAtCaptures_parts (s : State) (decided : Bool) (q : Quantities) : ∃ rest u,
    s.frameAtCaptures decided q = together (frameParts q ++ rest) u ∧ u.rect = s.rect ∧ Quiet s u ∧
      (∀ part ∈ rest, ∀ u, Quiet u (part u)) ∧ ∀ part ∈ rest, ∀ u : State, (part u).rect = u.rect := by
  obtain ⟨x, now | ⟨-, later⟩⟩ := s.frameAtCaptures_cases decided q
  · refine ⟨fillParts q ++ waitParts readsBus, { s with choices := x }.frameHistories q, ?_, rfl,
      ((Quiet.refl s).choices x).frameHistories q, fun part member u => ?_, fun part member u => ?_⟩
    · rw [now, List.append_assoc]
    · obtain fills | waits := List.mem_append.mp member
      · exact Quiet.fillParts fills (.refl u)
      · exact Quiet.waitParts waits (.refl u)
    · obtain fills | waits := List.mem_append.mp member
      · exact fillParts_rect fills u
      · exact waitParts_rect waits u
  · exact ⟨waitParts readsBus, { s with choices := x }.frameLate q, later, rfl, ((Quiet.refl s).choices x).frameLate q,
      fun part member u => Quiet.waitParts member (.refl u), fun part member u => waitParts_rect member u⟩

theorem FiringPart.earlier {β : Type} {view : Rectifier → β} {act : State → State} {s u t : State}
    (h : FiringPart view act u t) (same : SameMoment s u) (rect : view u.rect = view s.rect) :
    FiringPart view act s t := by
  obtain ⟨v, found, moment, left, after⟩ := h
  exact ⟨v, found.trans rect, ⟨moment.now.trans same.now, moment.settings.trans same.settings,
    moment.acInput.trans same.acInput, same.grows.trans moment.grows⟩, left, after⟩

section handOn

variable (s : State) (mark : Continuity) (number : Nat) (q : Quantities)

theorem State.takenIn_sameMoment : SameMoment s (s.takenIn mark number q) ∧ (s.takenIn mark number q).rect = s.rect := by
  obtain ⟨sample, faults, feeders, frame⟩ := s.takenIn_frame mark number q
  rw [frame]
  exact ⟨⟨rfl, rfl, rfl, (Quiet.refl s).settleCaptures.grows⟩, rfl⟩

theorem State.handOn_firing :
    FiringPart Rectifier.overvoltageFields (·.overvoltageFrame q.ub) s (s.handOn mark number q) ∧
      FiringPart Rectifier.overcurrentFields (·.overcurrentFrame q.ir) s (s.handOn mark number q) ∧
      (s.handOn mark number q).rect.measurementHold = s.rect.measurementHold := by
  obtain ⟨moment, rect⟩ := s.takenIn_sameMoment mark number q
  obtain ⟨rest, u, parts, same, before, quiet, leaves⟩ := (s.takenIn mark number q).frameAtCaptures_parts
    ((s.lastTaken number q).newRequest ((s.lastTaken number q).frameAtFaults mark number q)) q
  have moment := moment.quiet before
  have rect := same.trans rect
  rw [State.handOn_eq, parts]
  exact ⟨(frameParts_overvoltage quiet leaves).earlier moment (congrArg _ rect),
    (frameParts_overcurrent quiet leaves).earlier moment (congrArg _ rect), (frameParts_measurementHold leaves).trans (by rw [rect])⟩

theorem State.handOn_leaves (t : State) (h : s.handOn mark number q = t) :
    t.settings = s.settings ∧ t.inputs = s.inputs ∧ t.ports = s.ports ∧ t.authority = s.authority ∧
      t.sections = s.sections ∧ t.clock = s.clock ∧ Grows s.events t.events := by
  obtain ⟨sample, faults, feeders, frame⟩ := s.takenIn_frame mark number q
  rw [← h, State.handOn_eq]
  have settled := (Quiet.refl s).settleCaptures.grows
  generalize (s.lastTaken number q).newRequest ((s.lastTaken number q).frameAtFaults mark number q) = decided
  generalize s.takenIn mark number q = u at frame ⊢
  have quiet := (Quiet.refl u).frameAtCaptures decided q
  have sections := sectionsView.frameAtCaptures u decided q
  subst frame
  exact ⟨quiet.settings, quiet.inputs, quiet.ports, quiet.authority, sections, quiet.clock, settled.trans quiet.grows⟩

theorem State.handOn_feeder (f : Feeder) :
    (s.handOn mark number q).feeder f = (s.feeder f).frame (q.ifs.get f) (q.ufs.get f) := by
  rw [← s.takenIn_feeder mark number q f, State.handOn_eq]
  exact congrArg (File.get · f) (feedersView.frameAtCaptures ..)

end handOn

/-! ## Ub and Ir of a frame handed on (06 R116, R117) -/

/-- A frame's Ub at the overvoltage marks, the hold and the release of it. -/
def OvervoltageTaken (s t : State) (v : Int) : Prop :=
  let h := markedHistory s.rect.overvoltage (decide ((s.station.uov : Int) ≤ v))
  t.rect.overvoltage = h ∧
    (s.rect.overvoltageHold = none → 2 ≤ h.count true → t.rect.overvoltageHold = some s.now ∧
      AddsEntry s t fun e => e.kind = .overvoltageHold ∧ e.subject = .rectifier ∧ e.origin = .protection ∧
        e.value1 = some v ∧ (inField (some (s.station.uov : Int)) = true → e.value2 = some (s.station.uov : Int))) ∧
    (s.rect.overvoltageHold ≠ none ∨ h.count true < 2 → t.rect.overvoltageHold = s.rect.overvoltageHold) ∧
    (t.rect.overvoltageHold ≠ none → v < (s.station.urel : Int) →
      t.rect.releaseSince = some (match s.rect.releaseSince with
        | some x => x
        | none => s.now)) ∧
    (t.rect.overvoltageHold ≠ none → (s.station.urel : Int) ≤ v → t.rect.releaseSince = none) ∧
    (t.rect.overvoltageHold = none → t.rect.releaseSince = s.rect.releaseSince)

section overvoltageFrame

variable {s : State} {v : Int} {h : List Mark}

theorem State.overvoltageFrame_sets (marks : pushMark s.rect.overvoltage (decide ((s.station.uov : Int) ≤ v)) = h)
    (sets : (s.rect.overvoltageHold.isNone && picksUp h) = true) :
    s.overvoltageFrame (some v) = ({ s with rect := { s.rect with
      overvoltage := h, overvoltageHold := some s.now,
      releaseSince := if v < (s.station.urel : Int) then some (s.rect.releaseSince.getD s.now) else none } } : State).rectEntry
        .overvoltageHold (value1 := some v) (value2 := some (s.station.uov : Int)) := by
  subst marks
  simp only [State.overvoltageFrame, sets, if_true, Option.isSome_some]
  rfl

theorem State.overvoltageFrame_keeps (marks : pushMark s.rect.overvoltage (decide ((s.station.uov : Int) ≤ v)) = h)
    (keeps : (s.rect.overvoltageHold.isNone && picksUp h) = false) :
    s.overvoltageFrame (some v) = { s with rect := { s.rect with
      overvoltage := h,
      releaseSince := if s.rect.overvoltageHold.isSome then
          if v < (s.station.urel : Int) then some (s.rect.releaseSince.getD s.now) else none
        else s.rect.releaseSince } } := by
  subst marks
  simp only [State.overvoltageFrame, keeps, Bool.false_eq_true, if_false]
  rfl

theorem State.overvoltageFrame_takes (short : s.rect.overvoltage.length ≤ 3)
    (fits : inField (some v) = true) : OvervoltageTaken s (s.overvoltageFrame (some v)) v := by
  have marks : pushMark s.rect.overvoltage (decide ((s.station.uov : Int) ≤ v)) =
    markedHistory s.rect.overvoltage (decide ((s.station.uov : Int) ≤ v)) := pushMark_of_length_le short _
  have release (r : Option Instant) (n : Instant) : some (r.getD n) = some (match r with
      | some x => x
      | none => n) := by cases r <;> rfl
  unfold OvervoltageTaken
  generalize markedHistory s.rect.overvoltage (decide ((s.station.uov : Int) ≤ v)) = h at marks
  cases sets : s.rect.overvoltageHold.isNone && picksUp h with
  | true =>
    obtain ⟨unset, picks⟩ := Bool.and_eq_true_iff.mp sets
    have unset := Option.isNone_iff_eq_none.mp unset
    have picks := (picksUp_iff h).mp picks
    rw [State.overvoltageFrame_sets marks sets]
    refine ⟨rfl, fun _ _ => ⟨rfl, ?_⟩, fun stays => ?_, fun _ below => (if_pos below).trans (release _ _),
      fun _ above => if_neg (Int.not_lt.mpr above), nofun⟩
    · refine AddsEntry.mono (AddsEntry.earlier (AddsEntry.add ..) (.refl _)) ?_
      exact fun e ⟨kind, subject, origin, _, _, value1, value2⟩ => ⟨kind, subject, origin, value1 fits, value2⟩
    · obtain set | few := stays
      · exact absurd unset set
      · omega
  | false =>
    rw [State.overvoltageFrame_keeps marks sets]
    refine ⟨rfl, fun unset picks => ?_, fun _ => rfl, fun set below => ?_, fun set above => ?_, fun unset => ?_⟩
    · rw [unset, (picksUp_iff h).mpr picks] at sets
      cases sets
    · exact (if_pos (Option.isSome_iff_ne_none.mpr set)).trans ((if_pos below).trans (release _ _))
    · exact (if_pos (Option.isSome_iff_ne_none.mpr set)).trans (if_neg (Int.not_lt.mpr above))
    · have unset : s.rect.overvoltageHold.isSome = false := Option.isSome_eq_false_iff.mpr (Option.isNone_iff_eq_none.mpr unset)
      exact if_neg (by rw [unset]; exact Bool.false_ne_true)

end overvoltageFrame

theorem FiringPart.overvoltage {s t : State} {v : Int} (h : FiringPart Rectifier.overvoltageFields (·.overvoltageFrame (some v)) s t)
    (short : s.rect.overvoltage.length ≤ 3) (fits : inField (some v) = true) : OvervoltageTaken s t v := by
  obtain ⟨u, found, moment, left, after⟩ := h
  simp only [Rectifier.overvoltageFields, Prod.mk.injEq] at found left
  obtain ⟨marks, hold, release⟩ := found
  have takes := State.overvoltageFrame_takes (marks ▸ short : u.rect.overvoltage.length ≤ 3) fits
  obtain ⟨leftMarks, leftHold, leftRelease⟩ := left
  unfold OvervoltageTaken at takes ⊢
  rw [← leftMarks, ← leftHold, ← leftRelease, marks, hold, release, moment.station, moment.now] at takes
  obtain ⟨pushes, sets, stays, releasing⟩ := takes
  refine ⟨pushes, fun unset picks => ?_, stays, releasing⟩
  obtain ⟨set, adds⟩ := sets unset picks
  exact ⟨set, (adds.earlier moment.grows).later after⟩

theorem FiringPart.overvoltage_absent {s t : State}
    (h : FiringPart Rectifier.overvoltageFields (·.overvoltageFrame none) s t) :
    t.rect.overvoltage = [] ∧ t.rect.releaseSince = none ∧ t.rect.overvoltageHold = s.rect.overvoltageHold := by
  obtain ⟨u, found, -, left, -⟩ := h
  simp only [Rectifier.overvoltageFields, State.overvoltageFrame, State.modRect_rect, Prod.mk.injEq] at found left
  obtain ⟨-, hold, -⟩ := found
  obtain ⟨marks, kept, release⟩ := left
  exact ⟨marks, release, kept.trans hold⟩

section overcurrentFrame

variable {s t : State} {v : Int}

theorem State.overcurrentFrame_stands (stands : s.rect.state ≠ .running) (v : Option Int) : s.overcurrentFrame v = s :=
  if_neg stands

theorem State.overcurrentFrame_absent (running : s.rect.state = .running) :
    s.overcurrentFrame none = s.modRect fun r => { r with overcurrent := [] } := if_pos running

theorem State.overcurrentFrame_present (running : s.rect.state = .running) (short : s.rect.overcurrent.length ≤ 3) :
    s.overcurrentFrame (some v) =
      let h := markedHistory s.rect.overcurrent (decide ((s.station.irmax : Int) ≤ v))
      let u := s.modRect fun r => { r with overcurrent := h }
      if 2 ≤ h.count true then u.rectTrip .dcOvercurrent (some v) (some (s.station.irmax : Int)) else u := by
  have marks : pushMark s.rect.overcurrent (decide ((s.station.irmax : Int) ≤ v)) =
    markedHistory s.rect.overcurrent (decide ((s.station.irmax : Int) ≤ v)) := pushMark_of_length_le short _
  simp only [State.overcurrentFrame, running, if_true, marks, picksUp_iff]

theorem TripsRectifier.left {t' : State} {c : RectTripCause} {v w : Option Int} (h : TripsRectifier s t c v w)
    (fields : t'.rect.overcurrentFields = t.rect.overcurrentFields) (after : Grows t.events t'.events) :
    TripsRectifier s t' c v w := by
  simp only [Rectifier.overcurrentFields, Prod.mk.injEq] at fields
  obtain ⟨state, -, cause, applied, cycle, gates, opening⟩ := fields
  unfold TripsRectifier at h ⊢
  rw [state, cause, applied, cycle, gates, opening]
  obtain ⟨tripped, because, alpha, ended, open', begun, adds⟩ := h
  exact ⟨tripped, because, alpha, ended, open', begun, adds.later after⟩

theorem FiringPart.overcurrent_stands {v : Option Int}
    (h : FiringPart Rectifier.overcurrentFields (·.overcurrentFrame v) s t) (stands : s.rect.state ≠ .running) :
    t.rect.state = s.rect.state ∧ t.rect.overcurrent = s.rect.overcurrent := by
  obtain ⟨u, found, -, left, -⟩ := h
  have state : u.rect.state = s.rect.state := congrArg Prod.fst found
  dsimp only at left
  rw [State.overcurrentFrame_stands (state ▸ stands), found] at left
  simp only [Rectifier.overcurrentFields, Prod.mk.injEq] at left
  obtain ⟨state, marks, -⟩ := left
  exact ⟨state, marks⟩

theorem FiringPart.overcurrent_absent (h : FiringPart Rectifier.overcurrentFields (·.overcurrentFrame none) s t)
    (running : s.rect.state = .running) : t.rect.state = .running ∧ t.rect.overcurrent = [] := by
  obtain ⟨u, found, -, left, -⟩ := h
  have state : u.rect.state = .running := (congrArg Prod.fst found).trans running
  dsimp only at left
  rw [State.overcurrentFrame_absent state] at left
  simp only [Rectifier.overcurrentFields, Prod.mk.injEq] at left
  obtain ⟨kept, marks, -⟩ := left
  exact ⟨kept.trans state, marks⟩

theorem FiringPart.overcurrent_present (h : FiringPart Rectifier.overcurrentFields (·.overcurrentFrame (some v)) s t)
    (running : s.rect.state = .running) (short : s.rect.overcurrent.length ≤ 3) :
    let h := markedHistory s.rect.overcurrent (decide ((s.station.irmax : Int) ≤ v))
    t.rect.overcurrent = h ∧ (2 ≤ h.count true → TripsRectifier s t .dcOvercurrent (some v) (some (s.station.irmax : Int))) ∧
      (h.count true < 2 → t.rect.state = .running) := by
  obtain ⟨u, found, moment, left, after⟩ := h
  simp only [Rectifier.overcurrentFields, Prod.mk.injEq] at found
  obtain ⟨state, old, -⟩ := found
  have state := state.trans running
  simp only [State.overcurrentFrame_present (v := v) state (old ▸ short), old, moment.station] at left after
  generalize markedHistory s.rect.overcurrent (decide ((s.station.irmax : Int) ≤ v)) = h at left after ⊢
  by_cases picks : 2 ≤ h.count true
  · rw [if_pos picks] at left after
    have trips := rectTrip_trips (u.modRect fun r => { r with overcurrent := h }) .dcOvercurrent (some v)
      (some (s.station.irmax : Int))
    have marks : t.rect.overcurrent = h := by
      have fields := left
      simp only [Rectifier.overcurrentFields, Prod.mk.injEq] at fields
      obtain ⟨-, marks, -⟩ := fields
      rw [marks, State.rectTrip_rect]
      rfl
    exact ⟨marks, fun _ => (trips.of_same moment.now moment.settings moment.acInput moment.grows).left left after,
      fun few => absurd picks (Nat.not_le.mpr few)⟩
  · rw [if_neg picks] at left
    simp only [Rectifier.overcurrentFields, Prod.mk.injEq] at left
    obtain ⟨kept, marks, -⟩ := left
    exact ⟨marks, fun many => absurd many picks, fun _ => kept.trans state⟩

end overcurrentFrame

theorem quantity_fits {m : File SlotEntry 32} {words : File Word 34} {e : SlotEntry} {v : Int}
    (found : quantity m words e = some v) : inField (some v) = true := by
  obtain ⟨slot, -, rfl⟩ := Option.map_eq_some_iff.mp found
  have above := BitVec.le_toInt (words.cells.getD (slot + 1) 0)
  have below := BitVec.toInt_lt (x := words.cells.getD (slot + 1) 0)
  unfold inField slotValue
  simp only [decide_eq_true_eq]
  omega

/-! ## The state a frame is handed on in (01 R9, R12) -/

/-- The port has taken the number of the frame, and, at the end of STARTING, entered VALID. -/
def State.handBase (s : State) (words : File Word 34) : State :=
  let t := s.received.modSample fun x => x.taken (frameNumber words) s.now
  if s.sample.state = .starting then t.enterValid else t

section handBase

variable {s : State} {words : File Word 34}

theorem exec_frameComplete_hands (hands : s.handsOn words) :
    exec (.frameComplete words) s = .next ((s.handBase words).handOn (s.frameMark words) (frameNumber words)
      (quantities s.settings.slotMap words)) := by
  obtain ⟨runs, receiving, state, passes⟩ := hands
  rw [exec_frameComplete_received runs receiving passes]
  have same : s.received.sample.state = s.sample.state := rfl
  have primes : s.received.sample.primed = s.sample.primed := rfl
  obtain ⟨starting, primed⟩ | valid := state
  · simp only [State.validFrame, same, starting, primes, primed, if_true, State.handBase, State.frameMark]
    rfl
  · have differs : s.sample.state ≠ .starting := by rw [valid]; nofun
    simp only [State.validFrame, same, valid, State.handBase, State.frameMark]
    rfl

theorem State.handBase_starting (starting : s.sample.state = .starting) :
    s.handBase words = (s.received.modSample fun x => x.taken (frameNumber words) s.now).enterValid := if_pos starting

theorem State.handBase_valid (valid : s.sample.state = .valid) :
    s.handBase words = s.received.modSample fun x => x.taken (frameNumber words) s.now :=
  if_neg (by rw [valid]; nofun)

/-- All but the port, the hold for lost measurement, the captures and the record stand as they did. -/
theorem State.handBase_frame : ∃ sample hold captures events choices, s.handBase words =
    { s with
      sample := sample, captures := captures, events := events, choices := choices, rect := { s.rect with measurementHold := hold } } := by
  unfold State.handBase
  dsimp only
  split
  · exact ⟨_, false, _, _, _, rfl⟩
  · exact ⟨_, s.rect.measurementHold, _, _, _, rfl⟩

theorem State.handBase_grows : Grows s.events (s.handBase words).events := by
  unfold State.handBase
  dsimp only
  split
  · exact .entry _ (.refl _) rfl
  · exact .refl _

theorem State.handBase_moment : SameMoment s (s.handBase words) := by
  have grows := State.handBase_grows (s := s) (words := words)
  obtain ⟨sample, hold, captures, events, choices, frame⟩ := State.handBase_frame (s := s) (words := words)
  rw [frame] at grows ⊢
  exact ⟨rfl, rfl, rfl, grows⟩

end handBase

/-! ## O12 and O13 -/

theorem State.handBase_histories {s : State} {words : File Word 34} (starting : s.sample.state = .starting) :
    (s.handBase words).captures = { s.captures with histories := File.fill 8 [], late := none } := by
  rw [State.handBase_starting starting]
  rfl

theorem State.handBase_captures {s : State} {words : File Word 34} (valid : s.sample.state = .valid) :
    (s.handBase words).captures = s.captures := by
  rw [State.handBase_valid valid]
  rfl

/-- Settles O13: one part of the frame acts on the marks of Ub, one on those of Ir, and the captures take the frame at
once, or keep it when it decided a trip. -/
theorem framesReachTheFiringUnitAndTheCaptures : Obligations.FramesReachTheFiringUnitAndTheCaptures := by
  intro words s hands shortUb shortIr
  have run := exec_frameComplete_hands hands
  have moment := State.handBase_moment (s := s) (words := words)
  have started := State.handBase_histories (s := s) (words := words)
  have stayed := State.handBase_captures (s := s) (words := words)
  obtain ⟨sample, hold, captures, events, choices, frame⟩ := State.handBase_frame (s := s) (words := words)
  have rect : (s.handBase words).rect = { s.rect with measurementHold := hold } := by rw [frame]
  have fault (f : Feeder) : (s.handBase words).fault f = s.fault f := by rw [frame]; rfl
  generalize s.handBase words = b at run moment started stayed rect fault
  generalize mark : s.frameMark words = m at run
  generalize number : frameNumber words = n at run
  obtain ⟨overvoltage, overcurrent, -⟩ := b.handOn_firing m n (quantities s.settings.slotMap words)
  have overvoltage := overvoltage.earlier moment (by rw [rect]; rfl)
  have overcurrent := overcurrent.earlier moment (by rw [rect]; rfl)
  have values : (b.handOn m n (quantities s.settings.slotMap words)).sample.last.values = quantities s.settings.slotMap words := by
    rw [State.handOn_sample]
  obtain ⟨u, reached, taken⟩ := b.handOn_captures m n (quantities s.settings.slotMap words)
  have ub (v : Int) (found : (quantities s.settings.slotMap words).ub = some v) : inField (some v) = true := quantity_fits found
  simp only [fault] at taken
  generalize quantities s.settings.slotMap words = q at *
  generalize b.handOn m n q = t at *
  refine ⟨t, run, ?_⟩
  rw [values]
  refine ⟨fun absent => ?_, fun v present => ?_, fun stands => overcurrent.overcurrent_stands stands,
    fun running absent => ?_, fun v running present => ?_, u, fun valid => ?_, fun starting => ?_, ?_⟩
  · rw [absent] at overvoltage
    exact overvoltage.overvoltage_absent
  · rw [present] at overvoltage
    exact overvoltage.overvoltage shortUb (ub v present)
  · rw [absent] at overcurrent
    exact overcurrent.overcurrent_absent running
  · rw [present] at overcurrent
    exact overcurrent.overcurrent_present running shortIr
  · exact (stayed valid ▸ reached).grows moment.grows (.refl _)
  · obtain ⟨same, -⟩ := reached
    have nothing := started starting
    exact (same (by rw [nothing])).trans nothing
  · exact taken.imp_left fun takes => takes.grows moment.grows (.refl _)

theorem State.handBase_sample_starting {s : State} {words : File Word 34} (starting : s.sample.state = .starting) :
    (s.handBase words).sample = { s.received.sample.taken (frameNumber words) s.now with
      state := .valid, outageStart := none, outageLost := 0 } := by
  rw [State.handBase_starting starting, State.enterValid_sample]
  rfl

theorem State.handBase_sample_valid {s : State} {words : File Word 34} (valid : s.sample.state = .valid) :
    (s.handBase words).sample = s.received.sample.taken (frameNumber words) s.now := by
  rw [State.handBase_valid valid]
  rfl

/-- The port when it hands a frame on: VALID, its number taken, its watch started anew. -/
theorem State.handBase_port {s : State} {words : File Word 34}
    (steady : s.sample.state = .starting ∨ s.sample.state = .valid) :
    let x := (s.handBase words).sample
    x.state = .valid ∧ x.frameWatch = some s.now ∧ x.reference = some (frameNumber words) ∧
      (s.sample.state = .starting → x.outageStart = none ∧ x.outageLost = 0) ∧
      (s.sample.state = .valid → x.outageStart = s.sample.outageStart ∧ x.outageLost = s.sample.outageLost) := by
  dsimp only
  obtain starting | valid := steady
  · rw [State.handBase_sample_starting starting, starting]
    exact ⟨rfl, rfl, rfl, fun _ => ⟨rfl, rfl⟩, nofun⟩
  · rw [State.handBase_sample_valid valid, valid]
    exact ⟨valid, rfl, rfl, nofun, fun _ => ⟨rfl, rfl⟩⟩

/-- Entry into VALID: its entry, and the end of the hold (01 R9). -/
theorem State.handBase_enters {s : State} {words : File Word 34} (starting : s.sample.state = .starting) :
    (s.handBase words).rect.measurementHold = false ∧
      AddsEntry s (s.handBase words) fun e => e.kind = .measurementValid ∧ e.subject = .nothing ∧ e.origin = .protection ∧
        e.detail = .nothing ∧ (s.sample.discards < 2147483648 → e.value1 = some (s.sample.discards : Int)) ∧
        (s.sample.outageLost < 2147483648 → e.value2 = some (s.sample.outageLost : Int)) := by
  rw [State.handBase_starting starting]
  refine ⟨rfl, ?_⟩
  have adds := AddsEntry.add s .measurementValid .nothing .protection .nothing (some (s.sample.discards : Int))
    (some (s.sample.outageLost : Int)) none
  exact adds.mono fun e ⟨kind, subject, origin, detail, _, value1, value2⟩ =>
    ⟨kind, subject, origin, detail, fun fits => value1 (inField_nat fits), fun fits => value2 (inField_nat fits)⟩

/-- The histories after a frame that the captures take at once. -/
theorem State.histories_taken {s t : State} {q : Quantities} {u : CaptureUnit} (f : Feeder)
    (reached : LateFrameReaches s t s.captures u)
    (taken : ReachesCaptures s t u t.captures q ∨
      (∃ f, (s.fault f).requests.length < (t.fault f).requests.length) ∧ t.captures = { u with late := some q })
    (early : s.captures.late = none) (same : ∀ g, (t.fault g).requests = (s.fault g).requests) :
    ((s.captures.histories.get f).length < 64 →
        t.captures.histories.get f = s.captures.histories.get f ++ [frameTriple q f]) ∧
      ((s.captures.histories.get f).length = 64 →
        t.captures.histories.get f = (s.captures.histories.get f).tail ++ [frameTriple q f]) := by
  obtain ⟨settled, -⟩ := reached
  have settled := settled early
  subst settled
  obtain ⟨-, histories, -⟩ | ⟨⟨g, longer⟩, -⟩ := taken
  · exact histories f
  · rw [same g] at longer
    exact absurd longer (Nat.lt_irrefl _)

theorem FeederRecord.frame_ready {r : FeederRecord} (ready : r.ready = true) (i u : Option Int) :
    r.frame i u = { r with
      lastIf := i, lastUf := u,
      peakIf := match i with
        | some v => max r.peakIf v.natAbs
        | none => r.peakIf } := if_pos ready

theorem FeederRecord.frame_unready {r : FeederRecord} (unready : r.ready = false) (i u : Option Int) : r.frame i u = r :=
  if_neg (by rw [unready]; exact Bool.false_ne_true)

/-- Settles O12: the port takes the frame's number, enters VALID at the end of STARTING, and hands the values on to the
feeders and the histories. -/
theorem validFrameIsHandedOn : Obligations.ValidFrameIsHandedOn := by
  intro words s runs receiving steady passes
  have run := exec_frameComplete_hands ⟨runs, receiving, steady, passes⟩
  have enters := State.handBase_enters (s := s) (words := words)
  have started := State.handBase_histories (s := s) (words := words)
  have stayed := State.handBase_captures (s := s) (words := words)
  have port := State.handBase_port (s := s) (words := words) (steady.imp_left And.left)
  have grows := State.handBase_grows (s := s) (words := words)
  obtain ⟨sample, hold, captures, events, choices, frame⟩ := State.handBase_frame (s := s) (words := words)
  have fault (f : Feeder) : (s.handBase words).fault f = s.fault f := by rw [frame]; rfl
  have feeder (f : Feeder) : (s.handBase words).feeder f = s.feeder f := by rw [frame]; rfl
  have kept : s.sample.state = .valid → (s.handBase words).rect = s.rect := fun valid => by
    rw [State.handBase_valid valid]; rfl
  have stands : (s.handBase words).settings = s.settings ∧ (s.handBase words).inputs = s.inputs ∧
      (s.handBase words).ports = s.ports ∧ (s.handBase words).authority = s.authority ∧
      (s.handBase words).sections = s.sections ∧ (s.handBase words).clock = s.clock ∧
      (s.handBase words).time = s.time := by
    rw [frame]
    exact ⟨rfl, rfl, rfl, rfl, rfl, rfl, rfl⟩
  clear frame
  generalize s.handBase words = b at *
  obtain ⟨-, -, hold⟩ := b.handOn_firing (s.frameMark words) (frameNumber words) (quantities s.settings.slotMap words)
  have taken := b.handOn_sample (s.frameMark words) (frameNumber words) (quantities s.settings.slotMap words)
  have leaves := b.handOn_leaves (s.frameMark words) (frameNumber words) (quantities s.settings.slotMap words) _ rfl
  have feeders := b.handOn_feeder (s.frameMark words) (frameNumber words) (quantities s.settings.slotMap words)
  obtain ⟨u, reached, takes⟩ :=
    b.handOn_captures (s.frameMark words) (frameNumber words) (quantities s.settings.slotMap words)
  generalize b.handOn (s.frameMark words) (frameNumber words) (quantities s.settings.slotMap words) = t at *
  obtain ⟨settings, inputs, ports, authority, sections, clock, time⟩ := stands
  obtain ⟨settings', inputs', ports', authority', sections', clock', after⟩ := leaves
  obtain ⟨state, watch, reference, outage, outageKept⟩ := port
  refine ⟨t, run, ?_⟩
  rw [taken]
  refine ⟨state, watch, rfl, rfl, reference, rfl, congrArg (fun x => some x.now) time,
    fun f => quantities_ifs .. ▸ quantity_carries .., fun f => quantities_ufs .. ▸ quantity_carries ..,
    quantity_carries .., quantity_carries .., fun f ready => ?ready, fun f unready => ?unready, fun starting => ?starting,
    fun valid => ?valid, fun f => ⟨frameTriple (quantities s.settings.slotMap words) f, rfl, rfl, rfl,
      fun early same => ⟨fun starting => ?first, fun valid short => ?short, fun valid full => ?full⟩⟩,
    settings'.trans settings, inputs'.trans inputs, ports'.trans ports, authority'.trans authority, sections'.trans sections,
    clock'.trans clock⟩
  case ready =>
    rw [feeders, feeder]
    exact FeederRecord.frame_ready ready ..
  case unready => rw [feeders, feeder, FeederRecord.frame_unready unready]
  case starting =>
    obtain ⟨none, zero⟩ := outage starting
    obtain ⟨ended, adds⟩ := enters starting
    exact ⟨none, zero, hold.trans ended, adds.later after⟩
  case valid =>
    obtain ⟨start, lost⟩ := outageKept valid
    exact ⟨start, lost, hold.trans (by rw [kept valid])⟩
  all_goals
    have same (g : Feeder) : (t.fault g).requests = (b.fault g).requests := (same g).trans (by rw [fault])
  case first =>
    have emptied := started starting
    obtain ⟨short, -⟩ := State.histories_taken f reached takes (by rw [emptied]) same
    have nothing : b.captures.histories.get f = [] := by
      rw [emptied]
      exact File.get_fill ..
    rw [nothing] at short
    exact short (by decide)
  case short =>
    rw [← stayed valid] at early short ⊢
    exact (State.histories_taken f reached takes early same).1 short
  case full =>
    rw [← stayed valid] at early full ⊢
    exact (State.histories_taken f reached takes early same).2 full

end Sys2Proof.Machine

/-! The sample line falls silent (01 R8, R10, R14): the port in LOST, the tests that end, the claims they give up, and the
buffers that the loss truncates. -/

namespace Sys2Proof.Machine

/-! ## What the end of a test asks of the links (04 R74; 07 R145, R147) -/

/-- A signal is among those a link is to send. -/
def SectionLink.sends (k : SectionLink) (g : Signal) : Prop := ∃ e ∈ k.pendingSet, e.signal = g

theorem SectionLink.sends_of_post {k : SectionLink} {g x : Signal} {d : Option Instant} (h : k.sends x) : (k.post g d).sends x := by
  obtain ⟨e, member, signal⟩ := h
  unfold SectionLink.post
  split
  · exact ⟨e, member, signal⟩
  · split
    · refine ⟨_, List.mem_map.mpr ⟨e, member, rfl⟩, ?_⟩
      split <;> exact signal
    · exact ⟨e, List.mem_append_left _ member, signal⟩

theorem SectionLink.sends_before_post {k : SectionLink} {g x : Signal} {d : Option Instant} (differs : x ≠ g)
    (h : (k.post g d).sends x) : k.sends x := by
  obtain ⟨e, member, signal⟩ := h
  unfold SectionLink.post at member
  split at member
  · exact ⟨e, member, signal⟩
  · split at member
    · obtain ⟨e', inOld, rfl⟩ := List.mem_map.mp member
      refine ⟨e', inOld, ?_⟩
      split at signal <;> exact signal
    · obtain inOld | last := List.mem_append.mp member
      · exact ⟨e, inOld, signal⟩
      · rw [List.mem_singleton.mp last] at signal
        exact absurd signal.symm differs

theorem SectionLink.sends_withdraw {k : SectionLink} {g x : Signal} : (k.withdraw g).sends x ↔ x ≠ g ∧ k.sends x := by
  constructor
  · rintro ⟨e, member, rfl⟩
    obtain ⟨member, differs⟩ := List.mem_filter.mp member
    exact ⟨of_decide_eq_true differs, e, member, rfl⟩
  · rintro ⟨differs, e, member, rfl⟩
    exact ⟨e, List.mem_filter.mpr ⟨member, decide_eq_true differs⟩, rfl⟩

/-- Every TEST DONE to be sent stays so, and no TEST CLAIM joins those to be sent. -/
def ClaimsDrop (s t : State) : Prop :=
  ∀ l h, ((s.link l).sends (.testDone h) → (t.link l).sends (.testDone h)) ∧
    ((t.link l).sends (.testClaim h) → (s.link l).sends (.testClaim h))

theorem ClaimsDrop.refl (s : State) : ClaimsDrop s s := fun _ _ => ⟨id, id⟩

theorem ClaimsDrop.trans {s t u : State} (h : ClaimsDrop s t) (k : ClaimsDrop t u) : ClaimsDrop s u := fun l g => by
  obtain ⟨done, claim⟩ := h l g
  obtain ⟨done', claim'⟩ := k l g
  exact ⟨done' ∘ done, claim ∘ claim'⟩

theorem ClaimsDrop.of_pendingSet {s t : State} (same : ∀ l, (t.link l).pendingSet = (s.link l).pendingSet) : ClaimsDrop s t :=
  fun l g => by
    unfold SectionLink.sends
    rw [same l]
    exact ⟨id, id⟩

theorem ClaimsDrop.modLink {s : State} {l : LinkId} {g : SectionLink → SectionLink}
    (drops : ∀ h, ((s.link l).sends (.testDone h) → (g (s.link l)).sends (.testDone h)) ∧
      ((g (s.link l)).sends (.testClaim h) → (s.link l).sends (.testClaim h))) : ClaimsDrop s (s.modLink l g) := fun m h => by
  rw [link_modLink]
  split
  · next same =>
    subst same
    exact drops h
  · exact ⟨id, id⟩

theorem postFar_drops (s : State) (f : Feeder) : ClaimsDrop s (s.postFar f .testDone) := by
  unfold State.postFar
  split
  · exact .modLink fun h => ⟨SectionLink.sends_of_post, SectionLink.sends_before_post nofun⟩
  · exact .refl s

theorem withdrawFar_drops (s : State) (f : Feeder) : ClaimsDrop s (s.withdrawFar f .testClaim) := by
  unfold State.withdrawFar
  split
  · exact .modLink fun h => ⟨fun sends => SectionLink.sends_withdraw.mpr ⟨nofun, sends⟩,
      fun sends => (SectionLink.sends_withdraw.mp sends).2⟩
  · exact .refl s

theorem releaseClaim_drops (s : State) (f : Feeder) : ClaimsDrop s (s.releaseClaim f) := by
  have claimed (u : State) : ClaimsDrop u (u.setClaim f .idle none) := .of_pendingSet (setClaim_pendingSet u f _ _)
  unfold State.releaseClaim
  split
  · exact (postFar_drops s f).trans (claimed _)
  · split
    · exact (withdrawFar_drops s f).trans (claimed _)
    · exact (postFar_drops s f).trans (claimed _)
  · exact .refl s
  · exact .refl s

theorem linkState_apart (f : Feeder) : Apart linkStateView f where
  modFeeder _ _ := rfl
  modSection _ _ := rfl
  modFault _ _ := rfl
  postFar s g := by
    unfold State.postFar
    split
    · refine linkState_modLink s _ ?_
      unfold SectionLink.post
      split
      · rfl
      · split <;> rfl
    · rfl
  withdrawFar s g := by
    unfold State.withdrawFar
    split
    · exact linkState_modLink s _ rfl
    · rfl
  queueFeederEnd s := funext fun l => (queueFeederEnd_links s f l).1

/-! ## The loss of measurement at a feeder (04 R81) -/

theorem measurementLoss_stands {s : State} {f : Feeder} (untested : (s.feeder f).state ≠ .testing) : s.measurementLoss f = s :=
  if_neg untested

theorem measurementLoss_tested {s : State} {f : Feeder} (tested : (s.feeder f).state = .testing) :
    s.measurementLoss f = s.abortClose f (.interlocked .measurementLost) (s.waitOrOpen f) := if_pos tested

theorem measurementLoss_quiet (s : State) (f : Feeder) : Quiet s (s.measurementLoss f) := (Quiet.refl s).measurementLoss f

theorem Apart.measurementLoss {β : Type} {V : View β} {f : Feeder} (h : Apart V f) (s : State) :
    V.view (s.measurementLoss f) = V.view s := by
  unfold State.measurementLoss
  split
  · exact h.abortClose ..
  · rfl

theorem measurementLoss_drops (s : State) (f : Feeder) : ClaimsDrop s (s.measurementLoss f) := by
  unfold State.measurementLoss State.abortClose
  split
  · split
    · exact (releaseClaim_drops s f).trans (.of_pendingSet (endClose_pendingSet _ f _ _ _))
    · exact .refl s
  · exact .refl s

theorem setClaim_beside (s : State) (f : Feeder) (c : ClaimState) (d : Option Instant) :
    (s.setClaim f c d).captures = s.captures ∧ (s.setClaim f c d).rect = s.rect := by
  unfold State.setClaim
  dsimp only
  split
  · exact ⟨rfl, rfl⟩
  · rw [queueFeederEnd_frame]
    exact ⟨rfl, rfl⟩

theorem releaseClaim_beside (s : State) (f : Feeder) :
    (s.releaseClaim f).captures = s.captures ∧ (s.releaseClaim f).rect = s.rect := by
  have posted : (s.postFar f .testDone).captures = s.captures ∧ (s.postFar f .testDone).rect = s.rect := by
    rw [postFar_frame]
    exact ⟨rfl, rfl⟩
  have withdrawn : (s.withdrawFar f .testClaim).captures = s.captures ∧ (s.withdrawFar f .testClaim).rect = s.rect := by
    unfold State.withdrawFar
    split <;> exact ⟨rfl, rfl⟩
  have claimed (u : State) (same : u.captures = s.captures ∧ u.rect = s.rect) :
      (u.setClaim f .idle none).captures = s.captures ∧ (u.setClaim f .idle none).rect = s.rect := by
    obtain ⟨captures, rect⟩ := setClaim_beside u f .idle none
    exact ⟨captures.trans same.1, rect.trans same.2⟩
  unfold State.releaseClaim
  split
  · exact claimed _ posted
  · split
    · exact claimed _ withdrawn
    · exact claimed _ posted
  · exact ⟨rfl, rfl⟩
  · exact ⟨rfl, rfl⟩

/-- A test that ends leaves the captures, and of the rectifier all but the feeder's retard. -/
theorem measurementLoss_beside (s : State) (f : Feeder) :
    (s.measurementLoss f).captures = s.captures ∧ (s.measurementLoss f).rect.measurementHold = s.rect.measurementHold := by
  unfold State.measurementLoss State.abortClose
  split
  · split
    · next op _ =>
      obtain ⟨captures, rect⟩ := releaseClaim_beside s f
      unfold State.endClose State.closeEnded
      generalize released : s.releaseClaim f = u at captures rect
      have closing : ((((u.modFeeder f (s.waitOrOpen f op)).closeResultEntry f op (.interlocked .measurementLost)).closeToRunners f
          (.interlocked .measurementLost)).feeder f).state ≠ .breakerFailed := by
        have record : ((((u.modFeeder f (s.waitOrOpen f op)).closeResultEntry f op (.interlocked .measurementLost)).closeToRunners f
            (.interlocked .measurementLost)).feeder f) = s.waitOrOpen f op (u.feeder f) :=
          (congrArg (File.get · f) (feedersView.closeToRunners ..)).trans (State.modFeeder_feeder_self ..)
        rw [record]
        unfold State.waitOrOpen
        split <;> nofun
      have kept := capturesView.closeToRunners ((u.modFeeder f (s.waitOrOpen f op)).closeResultEntry f op
        (.interlocked .measurementLost)) f (.interlocked .measurementLost)
      have stays := rectView.closeToRunners ((u.modFeeder f (s.waitOrOpen f op)).closeResultEntry f op
        (.interlocked .measurementLost)) f (.interlocked .measurementLost)
      generalize ((u.modFeeder f (s.waitOrOpen f op)).closeResultEntry f op (.interlocked .measurementLost)).closeToRunners f
        (.interlocked .measurementLost) = v at closing kept stays ⊢
      refine ⟨?_, ?_⟩
      · rw [feederNotices_frame closing]
        exact kept.trans captures
      · have hold : v.rect.measurementHold = s.rect.measurementHold := congrArg Rectifier.measurementHold (stays.trans rect)
        by_cases moved : (v.feeder f).state = (u.feeder f).state
        · rw [feederNotices_of_same moved]
          exact hold
        · rw [feederNotices_rect moved closing]
          exact hold
    · exact ⟨rfl, rfl⟩
  · exact ⟨rfl, rfl⟩

/-! ## A buffer that the loss truncates (10 R193) -/

section truncateCapture

variable {s : State} {n : Fin 4} {c : Capture}

theorem State.truncateCapture_free (free : s.captures.buffers.get n = none) : s.truncateCapture n = s := by
  simp only [State.truncateCapture, free]

theorem State.truncateCapture_held (found : s.captures.buffers.get n = some c) (held : c.held = true) :
    s.truncateCapture n = s := by
  simp only [State.truncateCapture, found, held, if_true]

theorem State.truncateCapture_filling (found : s.captures.buffers.get n = some c) (filling : c.held = false) :
    BecomesHeld s (s.truncateCapture n) n { c with held := true, truncated := true } := by
  simp only [State.truncateCapture, found, filling, Bool.false_eq_true, if_false]
  exact ⟨File.get_set_self .., State.captureHeldEntry_adds (s.setBuffer n _) n _⟩

theorem State.truncateCapture_other (s : State) {m n : Fin 4} (differs : m ≠ n) :
    (s.truncateCapture m).captures.buffers.get n = s.captures.buffers.get n := by
  unfold State.truncateCapture
  split
  · split
    · rfl
    · exact s.setBuffer_other _ differs
  · rfl

theorem State.truncateCapture_beside (s : State) (n : Fin 4) :
    (s.truncateCapture n).captures.beside = s.captures.beside ∧ (s.truncateCapture n).rect = s.rect := by
  unfold State.truncateCapture
  split
  · split <;> exact ⟨rfl, rfl⟩
  · exact ⟨rfl, rfl⟩

end truncateCapture

/-! ## The parts of leaving VALID (01 R14) -/

/-- The notices of leaving VALID, once the late frame has been taken and the Firing Unit holds. -/
def lossParts : List (State → State) :=
  eight.map (fun f t => t.measurementLoss f) ++
    ((List.finRange 4).map (fun n t => State.truncateCapture t n) ++ waitParts readsBus)

/-- The state that the notices of leaving VALID find. -/
def State.lossTold (s : State) : State := s.settleCaptures.measurementHold true

theorem State.leavesValid_eq (s : State) : s.leavesValid = together lossParts s.lossTold := by
  unfold State.leavesValid lossParts State.lossTold
  rw [List.append_assoc]
  rfl

theorem State.lossTold_frame (s : State) : ∃ captures events choices, s.lossTold = { s with
    captures := captures, events := events, choices := choices,
    rect := { s.rect with measurementHold := true, releaseSince := none } } := by
  have settled := s.settleCaptures_frame
  unfold State.lossTold
  rw [settled]
  exact ⟨_, _, _, rfl⟩

theorem State.lossTold_quiet (s : State) : Quiet s s.lossTold := (Quiet.refl s).settleCaptures.measurementHold true

/-- What every part of leaving VALID keeps. -/
structure LossKeeps (u v : State) : Prop where
  quiet : Quiet u v
  links : linkStateView.view v = linkStateView.view u
  drops : ClaimsDrop u v
  beside : v.captures.beside = u.captures.beside
  hold : v.rect.measurementHold = u.rect.measurementHold

theorem LossKeeps.refl (u : State) : LossKeeps u u := ⟨.refl u, rfl, .refl u, rfl, rfl⟩

theorem LossKeeps.trans {u v w : State} (h : LossKeeps u v) (k : LossKeeps v w) : LossKeeps u w :=
  ⟨h.quiet.trans k.quiet, k.links.trans h.links, h.drops.trans k.drops, k.beside.trans h.beside, k.hold.trans h.hold⟩

theorem LossKeeps.choices (u : State) (k : Nat) : LossKeeps u { u with choices := k } :=
  ⟨(Quiet.refl u).choices k, rfl, .of_pendingSet fun _ => rfl, rfl, rfl⟩

theorem LossKeeps.measurementLoss (u : State) (f : Feeder) : LossKeeps u (u.measurementLoss f) := by
  obtain ⟨captures, hold⟩ := measurementLoss_beside u f
  exact ⟨measurementLoss_quiet u f, (linkState_apart f).measurementLoss u, measurementLoss_drops u f,
    congrArg CaptureUnit.beside captures, hold⟩

theorem LossKeeps.truncateCapture (u : State) (n : Fin 4) : LossKeeps u (u.truncateCapture n) := by
  obtain ⟨captures, rect⟩ := u.truncateCapture_beside n
  have links : (u.truncateCapture n).links = u.links := linksView.truncateCapture u n
  exact ⟨(Quiet.refl u).truncateCapture n, linkStateView.truncateCapture u n,
    .of_pendingSet fun l => by unfold State.link; rw [links], captures, congrArg Rectifier.measurementHold rect⟩

theorem LossKeeps.waitPart {part : State → State} (member : part ∈ waitParts readsBus) (u : State) : LossKeeps u (part u) := by
  have links : (part u).links = u.links := linksView.waitParts u member
  exact ⟨Quiet.waitParts member (.refl u), linkStateView.waitParts u member,
    .of_pendingSet fun l => by unfold State.link; rw [links], congrArg CaptureUnit.beside (waitParts_captures member u),
    congrArg Rectifier.measurementHold (waitParts_rect member u)⟩

theorem mem_lossParts {part : State → State} : part ∈ lossParts ↔ (∃ f, part = fun t => t.measurementLoss f) ∨
    (∃ n, part = fun t => t.truncateCapture n) ∨ part ∈ waitParts readsBus := by
  unfold lossParts
  simp only [List.mem_append, List.mem_map, mem_eight, true_and, List.mem_finRange, eq_comm]

theorem LossKeeps.part {part : State → State} (member : part ∈ lossParts) (u : State) : LossKeeps u (part u) := by
  obtain ⟨f, rfl⟩ | ⟨n, rfl⟩ | waits := mem_lossParts.mp member
  · exact .measurementLoss u f
  · exact .truncateCapture u n
  · exact .waitPart waits u

theorem LossKeeps.runs {l : List (State → State)} {u v : State} (runs : Runs l u v) (listed : ∀ part ∈ l, part ∈ lossParts) :
    LossKeeps u v :=
  runs.rel .refl (fun _ _ _ => .trans) .choices fun part member w => .part (listed part member) w

theorem State.leavesValid_keeps (s : State) : LossKeeps s.lossTold s.leavesValid := by
  obtain ⟨l, perm, runs⟩ := Runs.together lossParts s.lossTold
  rw [State.leavesValid_eq]
  exact .runs runs fun part member => perm.mem_iff.mp member

/-! ### One feeder among the parts -/

/-- A part that is not the notice to one feeder. -/
def ApartFromLoss (f : Feeder) (part : State → State) : Prop :=
  (∃ j, j ≠ f ∧ part = fun t => t.measurementLoss j) ∨ (∃ n, part = fun t => t.truncateCapture n) ∨ part ∈ waitParts readsBus

section apart

variable {f : Feeder} {part : State → State}

theorem ApartFromLoss.listed (h : ApartFromLoss f part) : part ∈ lossParts :=
  mem_lossParts.mpr (h.imp_left fun ⟨j, _, same⟩ => ⟨j, same⟩)

theorem ApartFromLoss.records (h : ApartFromLoss f part) (u : State) : (recordsView f).view (part u) = (recordsView f).view u := by
  obtain ⟨j, differs, rfl⟩ | ⟨n, rfl⟩ | waits := h
  · exact (records_apart differs.symm).measurementLoss u
  · exact (recordsView f).truncateCapture u n
  · exact (recordsView f).waitParts u waits

/-- No other feeder is in TESTING. -/
def State.noOtherTest (s : State) (f : Feeder) : Prop := ∀ g, g ≠ f → (s.feeder g).state ≠ .testing

/-- Where no other feeder is in TESTING, the other parts leave all Feeder Records, sections and links. -/
def StandsAlone (f : Feeder) (u v : State) : Prop :=
  u.noOtherTest f → v.feeders = u.feeders ∧ v.sections = u.sections ∧ v.links = u.links

theorem ApartFromLoss.stands (h : ApartFromLoss f part) (u : State) : StandsAlone f u (part u) := by
  intro alone
  obtain ⟨j, differs, rfl⟩ | ⟨n, rfl⟩ | waits := h
  · dsimp only
    rw [measurementLoss_stands (alone j differs)]
    exact ⟨rfl, rfl, rfl⟩
  · exact ⟨feedersView.truncateCapture u n, sectionsView.truncateCapture u n, linksView.truncateCapture u n⟩
  · exact ⟨feedersView.waitParts u waits, sectionsView.waitParts u waits, linksView.waitParts u waits⟩

theorem StandsAlone.noOtherTest {u v : State} (h : StandsAlone f u v) (alone : u.noOtherTest f) : v.noOtherTest f := by
  obtain ⟨feeders, -⟩ := h alone
  intro g differs
  have same : v.feeder g = u.feeder g := congrArg (File.get · g) feeders
  rw [same]
  exact alone g differs

theorem StandsAlone.trans {u v w : State} (h : StandsAlone f u v) (k : StandsAlone f v w) : StandsAlone f u w := by
  intro alone
  obtain ⟨feeders, sections, links⟩ := h alone
  obtain ⟨feeders', sections', links'⟩ := k (h.noOtherTest alone)
  exact ⟨feeders'.trans feeders, sections'.trans sections, links'.trans links⟩

variable {l : List (State → State)} {u v : State} (runs : Runs l u v) (apart : ∀ part ∈ l, ApartFromLoss f part)
include runs apart

theorem ApartFromLoss.run_keeps : LossKeeps u v := .runs runs fun part member => (apart part member).listed

theorem ApartFromLoss.run_records : (recordsView f).view v = (recordsView f).view u :=
  runs.leaves (fun _ _ => rfl) fun part member w => (apart part member).records w

theorem ApartFromLoss.run_stands : StandsAlone f u v :=
  runs.rel (R := StandsAlone f) (fun _ _ => ⟨rfl, rfl, rfl⟩) (fun _ _ _ => .trans) (fun _ _ _ => ⟨rfl, rfl, rfl⟩)
    fun part member w => (apart part member).stands w

end apart

theorem measurementLoss_noOtherTest {u : State} {f : Feeder} (alone : u.noOtherTest f) : (u.measurementLoss f).noOtherTest f :=
  fun g differs => by
    have same : (u.measurementLoss f).feeder g = u.feeder g := congrArg Prod.fst ((records_apart differs).measurementLoss u)
    rw [same]
    exact alone g differs

/-- The loss of measurement at one feeder, the others before and after it. -/
theorem State.leavesValid_feeder (s : State) (f : Feeder) : ∃ u,
    LossKeeps s.lossTold u ∧ (recordsView f).view u = (recordsView f).view s ∧ LossKeeps (u.measurementLoss f) s.leavesValid ∧
      (recordsView f).view s.leavesValid = (recordsView f).view (u.measurementLoss f) ∧
      (s.noOtherTest f → (u.sections = s.sections ∧ u.links = s.links) ∧
        s.leavesValid.sections = (u.measurementLoss f).sections ∧ s.leavesValid.links = (u.measurementLoss f).links) := by
  obtain ⟨before, after, u, k, others, -, first, second⟩ := together_member (i := f) (by decide : eight.Nodup) (mem_eight f)
    (fun f t => State.measurementLoss t f) [] ((List.finRange 4).map (fun n t => State.truncateCapture t n) ++ waitParts readsBus)
    s.lossTold
  have told : together ([] ++ eight.map (fun f t => State.measurementLoss t f) ++
      ((List.finRange 4).map (fun n t => State.truncateCapture t n) ++ waitParts readsBus)) s.lossTold = s.leavesValid :=
    s.leavesValid_eq.symm
  rw [told] at second
  have apart (part : State → State) (member : part ∈ before ++ after) : ApartFromLoss f part := by
    obtain none | further | other := others part member
    · simp at none
    · refine .inr ((List.mem_append.mp further).imp_left fun truncates => ?_)
      obtain ⟨n, -, rfl⟩ := List.mem_map.mp truncates
      exact ⟨n, rfl⟩
    · exact .inl other
  have firsts := fun part member => apart part (List.mem_append_left after member)
  have lasts := fun part member => apart part (List.mem_append_right before member)
  obtain ⟨captures, events, choices, frame⟩ := s.lossTold_frame
  have records : (recordsView f).view s.lossTold = (recordsView f).view s := by rw [frame]; rfl
  have same : s.lossTold.feeders = s.feeders ∧ s.lossTold.sections = s.sections ∧ s.lossTold.links = s.links := by
    rw [frame]
    exact ⟨rfl, rfl, rfl⟩
  obtain ⟨feeders, sections, links⟩ := same
  refine ⟨{ u with choices := k }, (ApartFromLoss.run_keeps first firsts).trans (.choices u k),
    (ApartFromLoss.run_records first firsts).trans records, ApartFromLoss.run_keeps second lasts,
    ApartFromLoss.run_records second lasts, fun alone => ?_⟩
  have alone : s.lossTold.noOtherTest f := by
    unfold State.noOtherTest State.feeder
    rw [feeders]
    exact alone
  have stands := ApartFromLoss.run_stands first firsts
  obtain ⟨-, sections', links'⟩ := stands alone
  have still := measurementLoss_noOtherTest (u := { u with choices := k }) (stands.noOtherTest alone)
  obtain ⟨-, sections'', links''⟩ := ApartFromLoss.run_stands second lasts still
  exact ⟨⟨sections'.trans sections, links'.trans links⟩, sections'', links''⟩

/-- The loss of measurement at one buffer. -/
theorem State.leavesValid_buffer (s : State) (n : Fin 4) : ∃ u : State,
    u.captures.buffers.get n = s.settleCaptures.captures.buffers.get n ∧ Grows s.events u.events ∧
      s.leavesValid.captures.buffers.get n = (u.truncateCapture n).captures.buffers.get n ∧
      Grows (u.truncateCapture n).events s.leavesValid.events := by
  have quiet : ∀ part ∈ lossParts, ∀ u, Quiet u (part u) := fun part member u => (LossKeeps.part member u).quiet
  have others : ∀ part, part ∈ (eight.map fun f t => State.measurementLoss t f) ∨ part ∈ waitParts readsBus →
      ∀ u : State, (part u).captures.buffers.get n = u.captures.buffers.get n := by
    rintro part (losses | waits) u
    · obtain ⟨f, -, rfl⟩ := List.mem_map.mp losses
      exact congrArg (fun c => c.buffers.get n) (measurementLoss_beside u f).1
    · exact congrArg (fun c => c.buffers.get n) (waitParts_captures waits u)
  obtain ⟨u, found, before, left, after⟩ := together_member_view (view := fun t => t.captures.buffers.get n)
    (List.nodup_finRange 4) (List.mem_finRange n) (fun n t => State.truncateCapture t n) (eight.map fun f t => State.measurementLoss t f)
    (waitParts readsBus) s.lossTold (fun _ _ => rfl) (fun j differs u => u.truncateCapture_other differs)
    others (by rw [List.append_assoc]; exact quiet)
  rw [List.append_assoc, ← lossParts, ← State.leavesValid_eq] at left after
  exact ⟨u, found, s.lossTold_quiet.grows.trans before.grows, left, after.grows⟩

/-! ## Entry into LOST (01 R10) -/

/-- The port in LOST. -/
def SamplePort.silenced (x : SamplePort) (now : Instant) : SamplePort :=
  { x with
    state := .lost, reference := none, frameWatch := none, outageStart := some (x.outageStart.getD now),
    outageLost := if x.outageStart = none then 1 else bump x.outageLost,
    counters := { x.counters with lost := bump x.counters.lost } }

/-- The state in LOST, before the notices of leaving VALID. -/
def State.lineLost (s : State) : State :=
  let t := { s with sample := s.sample.silenced s.now }
  (if s.sample.outageStart.isNone then
      t.addEntry .measurementLost .nothing .protection (.discard s.sample.lastDiscard) (some (s.sample.discards : Int))
    else t).blindAll (s.sample.outageStart.getD s.now) fun _ => true

theorem State.enterLost_eq (s : State) :
    s.enterLost = if s.sample.state = .valid then s.lineLost.leavesValid else s.lineLost := by
  have port : s.sample.silenced s.now = { s.sample with
      state := .lost, reference := none, frameWatch := none, outageStart := some (s.sample.outageStart.getD s.now),
      outageLost := if s.sample.outageStart.isNone then 1 else bump s.sample.outageLost,
      counters := { s.sample.counters with lost := bump s.sample.counters.lost } } := by
    unfold SamplePort.silenced
    cases s.sample.outageStart <;> rfl
  unfold State.lineLost
  rw [port]
  rfl

theorem State.lineLost_frame (s : State) : ∃ events choices faults, s.lineLost = { s with
    sample := s.sample.silenced s.now, events := events, choices := choices, faults := faults } := by
  unfold State.lineLost
  dsimp only
  split
  · exact ⟨_, _, _, rfl⟩
  · exact ⟨_, _, _, rfl⟩

theorem State.lineLost_events (s : State) : s.lineLost.events = if s.sample.outageStart = none then
      (s.addEntry .measurementLost .nothing .protection (.discard s.sample.lastDiscard) (some (s.sample.discards : Int))).events
    else s.events := by
  unfold State.lineLost
  cases s.sample.outageStart <;> rfl

theorem State.lineLost_grows (s : State) : Grows s.events s.lineLost.events := by
  rw [State.lineLost_events]
  split
  · exact .entry _ (.refl _) rfl
  · exact .refl _

theorem State.lineLost_fault (s : State) (f : Feeder) : s.lineLost.fault f = if (s.fault f).blindSince = none
    then { s.fault f with blindSince := some (s.sample.outageStart.getD s.now) } else s.fault f := by
  have blinded : s.lineLost.fault f = (s.fault f).blindFrom (s.sample.outageStart.getD s.now) := by
    refine (File.get_ofList_eight ..).trans ?_
    cases s.sample.outageStart <;> rfl
  rw [blinded, FaultRecord.blindFrom]
  cases blind : (s.fault f).blindSince with
  | none => rfl
  | some x =>
    rw [if_neg nofun, Option.getD_some, ← blind]

theorem exec_frameWatchExpiry {s : State} {t0 : Instant} (runs : s.resetLine = false) (watch : s.sample.frameWatch = some t0)
    (due : t0 + 20000 ≤ s.now) : exec .frameWatchExpiry s = .next s.enterLost := by
  have stood : t0 + us 200 ≤ s.now := by unfold us; omega
  have isDue : s.reached (s.sample.frameWatch.map (· + us 200)) = true := by simp [State.reached, watch, stood]
  show execFrameWatchExpiry s = _
  unfold execFrameWatchExpiry
  rw [live_next runs, if_pos isDue]

/-! ## What leaving VALID does at a feeder and at the captures (01 R14) -/

theorem State.lossTold_drops (s : State) : ClaimsDrop s s.lossTold := by
  obtain ⟨captures, events, choices, frame⟩ := s.lossTold_frame
  rw [frame]
  exact .of_pendingSet fun _ => rfl

theorem State.lossTold_links (s : State) : linkStateView.view s.lossTold = linkStateView.view s := by
  obtain ⟨captures, events, choices, frame⟩ := s.lossTold_frame
  rw [frame]
  rfl

/-- A claim given back among others that are: each may have withdrawn the TEST CLAIM already, and none sends one. -/
theorem GivesUpClaim.of_parts {s u v t : State} {f : Feeder} (gives : GivesClaimBack u v f)
    (before : ClaimsDrop s u) (within : ClaimsDrop u v) (after : ClaimsDrop v t) (settings : u.settings = s.settings)
    (links : linkStateView.view u = linkStateView.view s) (found : u.section' f = s.section' f)
    (left : t.section' f = v.section' f) : GivesUpClaim s t f := by
  have config : u.config f = s.config f := by rw [State.config, settings, State.config]
  have unsent : ¬s.claimPending f → ¬u.claimPending f := by
    rintro idle ⟨l, far, sends⟩
    rw [config] at far sends
    exact idle ⟨l, far, (before l _).2 sends⟩
  unfold GivesClaimBack at gives
  unfold GivesUpClaim
  rw [found, config] at gives
  rw [left]
  obtain ⟨sent, withdrawn, stood⟩ := gives
  refine ⟨fun held => ?_, fun claimed pending => ?_, stood⟩
  · obtain ⟨idle, done⟩ := sent (held.imp_right fun ⟨claimed, idle⟩ => ⟨claimed, unsent idle⟩)
    refine ⟨idle, fun l far up => (after l _).1 (done l far ?_)⟩
    exact (congrFun links l).trans up
  · by_cases still : u.claimPending f
    · obtain ⟨idle, filtered⟩ := withdrawn claimed still
      refine ⟨idle, fun l far e member signal => ?_⟩
      obtain ⟨e', member', signal'⟩ := (after l _).2 ⟨e, member, signal⟩
      rw [filtered l far] at member'
      exact of_decide_eq_true (List.mem_filter.mp member').2 signal'
    · obtain ⟨idle, -⟩ := sent (.inr ⟨claimed, still⟩)
      refine ⟨idle, fun l far e member signal => still ?_⟩
      exact ⟨l, config ▸ far, config ▸ (within l _).2 ((after l _).2 ⟨e, member, signal⟩)⟩

section leavesValid

variable {s : State} {f : Feeder}

theorem State.leavesValid_fault : s.leavesValid.fault f = s.fault f := by
  obtain ⟨u, -, found, -, left, -⟩ := s.leavesValid_feeder f
  calc s.leavesValid.fault f
      = (u.measurementLoss f).fault f := congrArg (fun x => x.2.2) left
    _ = u.fault f := measurementLoss_fault u f f
    _ = s.fault f := congrArg (fun x => x.2.2) found

theorem State.leavesValid_untested (untested : (s.feeder f).state ≠ .testing) : s.leavesValid.feeder f = s.feeder f := by
  obtain ⟨u, -, found, -, left, -⟩ := s.leavesValid_feeder f
  have same : u.feeder f = s.feeder f := congrArg Prod.fst found
  rw [measurementLoss_stands (same ▸ untested)] at left
  exact (congrArg Prod.fst left).trans same

theorem State.leavesValid_tested {op : Operation} (tested : (s.feeder f).state = .testing)
    (operation : (s.feeder f).operation = some op) :
    s.leavesValid.feeder f = s.backRecord f op ∧ GivesUpClaim s s.leavesValid f ∧
      (s.noOtherTest f → GivesClaimBack s s.leavesValid f) ∧
      AddsEntry s s.leavesValid
        (IsCloseResult s f op (.interlocked .measurementLost) (s.leavesValid.feeder f).attempts) := by
  obtain ⟨u, before, found, after, left, alone⟩ := s.leavesValid_feeder f
  have record : u.feeder f = s.feeder f := congrArg Prod.fst found
  have sect : u.section' f = s.section' f := congrArg (fun x => x.2.1) found
  have quiet : Quiet s u := s.lossTold_quiet.trans before.quiet
  have loss := measurementLoss_tested (record ▸ tested : (u.feeder f).state = .testing)
  have operation := record ▸ operation
  have ended := abortClose_feeder operation (.interlocked .measurementLost) (u.waitOrOpen f)
  have gives := abortClose_gives operation (.interlocked .measurementLost) (u.waitOrOpen f)
  have entry := abortClose_entry operation (.interlocked .measurementLost) (u.waitOrOpen f)
  rw [← loss] at ended gives entry
  have back : (u.measurementLoss f).feeder f = s.backRecord f op := by
    rw [ended, waitOrOpen_back]
    unfold State.backRecord State.waitRecord State.openRecord
    rw [record, quiet.now, quiet.config]
  have last : s.leavesValid.feeder f = (u.measurementLoss f).feeder f := congrArg Prod.fst left
  refine ⟨last.trans back, ?_, fun lone => ?_, ?_⟩
  · exact .of_parts gives (s.lossTold_drops.trans before.drops) (measurementLoss_drops u f) after.drops quiet.settings
      (before.links.trans s.lossTold_links) sect (congrArg (fun x => x.2.1) left)
  · obtain ⟨⟨sections, links⟩, sections', links'⟩ := alone lone
    refine (gives.of_same sections quiet.settings fun l => ?_).later sections' fun l => ?_
    · unfold State.link
      rw [links]
      exact ⟨rfl, rfl⟩
    · unfold State.link
      rw [links']
  · rw [last]
    refine (AddsEntry.earlier (entry.mono fun e result => ?_) quiet.grows).later after.quiet.grows
    rw [IsCloseResult, quiet.now] at result
    exact result

/-- The late frame reaches the captures, and every FILLING buffer is then HELD. -/
theorem State.leavesValid_captures : ∃ u, LateFrameReaches s s.leavesValid s.captures u ∧ s.leavesValid.captures.late = none ∧
    s.leavesValid.captures.histories = u.histories ∧
    (∀ n, u.buffers.get n = none → s.leavesValid.captures.buffers.get n = none) ∧
    ∀ n c, u.buffers.get n = some c →
      (c.held = false → BecomesHeld s s.leavesValid n { c with held := true, truncated := true }) ∧
      (c.held = true → s.leavesValid.captures.buffers.get n = some c) := by
  have keeps := s.leavesValid_keeps
  have reaches := s.settleCaptures_reaches
  obtain ⟨histories, late⟩ : s.leavesValid.captures.histories = s.settleCaptures.captures.histories ∧
      s.leavesValid.captures.late = s.settleCaptures.captures.late := Prod.mk.injEq .. ▸ keeps.beside
  refine ⟨s.settleCaptures.captures, reaches.grows (.refl _) keeps.quiet.grows, late.trans ?_, histories, fun n free => ?_,
    fun n c taken => ⟨fun filling => ?_, fun held => ?_⟩⟩
  · obtain ⟨same, reached⟩ := reaches
    cases waiting : s.captures.late with
    | none => rw [same waiting, waiting]
    | some q => exact (reached q waiting).1
  all_goals obtain ⟨u, found, before, left, after⟩ := s.leavesValid_buffer n
  · rw [left, State.truncateCapture_free (found.trans free)]
    exact found.trans free
  · obtain ⟨held, adds⟩ := State.truncateCapture_filling (found.trans taken) filling
    exact ⟨left.trans held, (AddsEntry.earlier adds before).later after⟩
  · rw [left, State.truncateCapture_held (found.trans taken) held]
    exact found.trans taken

theorem State.leavesValid_hold : s.leavesValid.rect.measurementHold = true := s.leavesValid_keeps.hold

end leavesValid

/-- Settles O14: the port's record and the entry first, and from VALID the notices, each at its own feeder or buffer. -/
theorem silentLineEntersLost : Obligations.SilentLineEntersLost := by
  intro s t0 runs watch due steady
  have grows := s.lineLost_grows
  have events := s.lineLost_events
  have faults := s.lineLost_fault
  obtain ⟨record, counter, faultFile, frame⟩ := s.lineLost_frame
  have run := exec_frameWatchExpiry runs watch due
  rw [State.enterLost_eq] at run
  obtain starting | valid := steady
  · rw [if_neg (by rw [starting]; nofun)] at run
    generalize s.lineLost = b at *
    subst frame
    refine ⟨_, run, rfl, faults, fun valid => ?_, fun _ first => ?_, fun _ known => ?_, fun valid => ?_, fun _ _ => rfl,
      fun _ _ valid => ?_, fun _ => rfl, fun valid => ?_, rfl, rfl, rfl, rfl, rfl⟩
    · exact absurd (starting.symm.trans valid) nofun
    · exact events.trans (if_pos first)
    · exact events.trans (if_neg known)
    all_goals exact absurd (starting.symm.trans valid) nofun
  · rw [if_pos valid] at run
    have quiet := s.lineLost.lossTold_quiet.trans s.lineLost.leavesValid_keeps.quiet
    have faulted (f : Feeder) := s.lineLost.leavesValid_fault (f := f)
    have untested (f : Feeder) := s.lineLost.leavesValid_untested (f := f)
    have tested (f : Feeder) (op : Operation) := s.lineLost.leavesValid_tested (f := f) (op := op)
    have hold := s.lineLost.leavesValid_hold
    have captures := s.lineLost.leavesValid_captures
    generalize s.lineLost = b at *
    subst frame
    generalize State.leavesValid _ = t at *
    refine ⟨t, run, quiet.sample, fun f => ?_, fun _ => hold, fun starting => ?_, fun starting => ?_, fun _ first => ?_,
      fun f stands => ?_, fun f op _ tests operates => ?_, fun starting => ?_, fun _ => ?_, quiet.settings, quiet.inputs,
      quiet.ports, quiet.authority, quiet.clock⟩
    · rw [quiet.sample]
      exact (faulted f).trans (faults f)
    · exact absurd (valid.symm.trans starting) nofun
    · exact absurd (valid.symm.trans starting) nofun
    · rw [if_pos first] at events
      exact events ▸ quiet.grows
    · obtain starting | idle := stands
      · exact absurd (valid.symm.trans starting) nofun
      · exact untested f idle
    · obtain ⟨back, up, alone, entry⟩ := tested f op tests operates
      exact ⟨back, up, alone, entry.earlier grows⟩
    · exact absurd (valid.symm.trans starting) nofun
    · obtain ⟨u, reached, late, histories, free, buffers⟩ := captures
      refine ⟨u, reached.grows grows (.refl _), late, histories, free, fun n c taken => ?_⟩
      obtain ⟨filling, held⟩ := buffers n c taken
      refine ⟨fun fills => ?_, held⟩
      obtain ⟨becomes, adds⟩ := filling fills
      exact ⟨becomes, AddsEntry.earlier adds grows⟩

end Sys2Proof.Machine

/-! A far end that falls silent (02 R33; 07 R152), and what the part drives: its output lines, attention and data out
(02 R24; 06; 11 R197, R204, R207). -/

namespace Sys2Proof.Machine

/-! ## The far state lost (02 R33; 07 R152) -/

theorem Apart.regroup {β : Type} {V : View β} {f : Feeder} (h : Apart V f) (s : State) : V.view (s.regroup f) = V.view s := by
  unfold State.regroup State.groupNotice
  dsimp only
  split
  · rw [h.modFault, h.modFeeder]
  · rfl

theorem Apart.setFarState {β : Type} {V : View β} {f : Feeder} (h : Apart V f) (s : State) (x : Option FeederState) :
    V.view (s.setFarState f x) = V.view s := by
  unfold State.setFarState
  split
  · rfl
  · rw [V.judgeWaits, h.regroup, h.modSection]

theorem setFarState_same {s : State} {f : Feeder} {x : Option FeederState} (same : (s.section' f).farState = x) :
    s.setFarState f x = s := if_pos same

theorem setFarState_feeder {s : State} {f : Feeder} {x : Option FeederState} (moved : (s.section' f).farState ≠ x) :
    (s.setFarState f x).feeder f = { s.feeder f with
      group := if (s.feeder f).ready = true then groupFor (s.config f).farLink x else (s.feeder f).group } := by
  unfold State.setFarState
  rw [if_neg moved]
  refine (congrArg (File.get · f) (feedersView.judgeWaits _ (readsFar f))).trans ?_
  refine (regroup_feeder _ f).trans ?_
  rw [State.modSection_section_self]
  rfl

theorem setFarState_rect (s : State) (f : Feeder) (x : Option FeederState) : (s.setFarState f x).rect = s.rect := by
  unfold State.setFarState
  split
  · rfl
  · rw [show ∀ u : State, (u.judgeWaits (readsFar f)).rect = u.rect from fun u => rectView.judgeWaits u _]
    unfold State.regroup
    dsimp only
    split <;> rfl

theorem exec_farStateStale {f : Feeder} {s : State} {t0 : Instant} (runs : s.resetLine = false)
    (stale : (s.section' f).staleFrom = some t0) (due : t0 + 5000000 ≤ s.now) :
    exec (.farStateStale f) s = .next ((s.modSection f fun r => { r with staleFrom := none }).setFarState f none) := by
  have stood : t0 + ms 50 ≤ s.now := by unfold ms; omega
  have isDue : s.staleDue f = true := by simp [State.staleDue, State.reached, stale, stood]
  show execFarStateStale f s = _
  unfold execFarStateStale
  rw [live_next runs, if_pos isDue]

/-- Settles O18: the far state and its instant go, and the group in use follows, at Fault Detection too. -/
theorem silentFarEndIsUnknown : Obligations.SilentFarEndIsUnknown := by
  intro f s t0 runs stale due
  have run := exec_farStateStale runs stale due
  have told : (s.modSection f fun r => { r with staleFrom := none }).section' f = { s.section' f with staleFrom := none } :=
    State.modSection_section_self s f _
  have quiet : Quiet s ((s.modSection f fun r => { r with staleFrom := none }).setFarState f none) :=
    ((Quiet.refl s).modSection f id).setFarState f none
  have links := setFarState_view linksView (fun _ _ => rfl) (fun _ _ => rfl) (fun _ _ => rfl)
    (s.modSection f fun r => { r with staleFrom := none }) f none
  have others (g : Feeder) (differs : g ≠ f) := ((records_apart differs).setFarState
    (s.modSection f fun r => { r with staleFrom := none }) none).trans ((records_apart differs).modSection s _)
  have sect := setFarState_section (s.modSection f fun r => { r with staleFrom := none }) f none
  have fault := setFarState_fault (s.modSection f fun r => { r with staleFrom := none }) f none
  have rect := setFarState_rect (s.modSection f fun r => { r with staleFrom := none }) f none
  have stood (same : (s.section' f).farState = none) :=
    setFarState_same (s := s.modSection f fun r => { r with staleFrom := none }) (f := f) (x := none) (by rw [told]; exact same)
  have moved (known : (s.section' f).farState ≠ none) :
      ((s.modSection f fun r => { r with staleFrom := none }).setFarState f none).feeder f = { s.feeder f with
        group := if (s.feeder f).ready = true then groupFor (s.config f).farLink none else (s.feeder f).group } :=
    setFarState_feeder (s := s.modSection f fun r => { r with staleFrom := none }) (f := f) (x := none) (by rw [told]; exact known)
  rw [told] at sect
  generalize State.setFarState _ f none = t at *
  have unchanged : (s.section' f).farState = none ∨ (s.feeder f).ready = false → t.feeder f = s.feeder f := by
    rintro (same | unready)
    · rw [stood same]
      rfl
    · by_cases same : (s.section' f).farState = none
      · rw [stood same]
        rfl
      · rw [moved same, unready]
        rfl
  refine ⟨t, run, sect, fun g differs => ?_, fun regrouped => ?_, fun same => ?_, fun known ready => ?_, unchanged,
    quiet.settings, quiet.inputs, quiet.ports, quiet.authority, rect, links⟩
  · have same := others g differs
    exact ⟨congrArg (fun x => x.2.1) same, congrArg Prod.fst same, congrArg (fun x => x.2.2) same⟩
  · exact fault.trans (if_neg regrouped)
  · exact fault.trans (if_pos same)
  · have far (l : Option LinkId) : groupFor l none = if l = none then .normal else .isolated := by
      cases l <;> simp [groupFor_eq]
    rw [moved known, ready, if_pos rfl, far]

/-! ## The lines of a feeder and of the rectifier (02 R24; 06 R123) -/

theorem Rectifier.acKind_iff (r : Rectifier) (k : OperationKind) :
    r.acKind k = true ↔ ∃ op, r.acOperation = some op ∧ op.kind = k := by
  unfold Rectifier.acKind
  cases r.acOperation <;> simp

/-! ## Attention (11 R204) -/

theorem State.eventsWaiting_iff {s : State} (sound : RecordSound s) (p : Port) : s.eventsWaiting p = true ↔
    ∃ e ∈ s.events.ring.drop (s.events.ring.length - seqDistance (s.cursor p).next s.events.nextSequence),
      (s.cursor p).classes.get e.kind.class = true := by
  unfold State.eventsWaiting
  rw [State.cursor, ahead_eq sound p, List.any_eq_true]
  rfl

theorem LinkId.mem_cells {α : Type} {v : File α 2} {x : α} : x ∈ v.cells ↔ ∃ l : LinkId, v.get l.index = x := by
  rw [File.mem_cells]
  constructor
  · rintro ⟨i, found⟩
    fin_cases i
    · exact ⟨.link0, found⟩
    · exact ⟨.link1, found⟩
  · rintro ⟨l, found⟩
    exact ⟨l.index, found⟩

theorem File.mem_drop {α : Type} {n k : Nat} {v : File α n} {x : α} :
    x ∈ v.cells.drop k ↔ ∃ i : Fin n, k ≤ i.val ∧ v.get i = x := by
  rw [List.mem_drop_iff_getElem]
  constructor
  · rintro ⟨i, below, rfl⟩
    have lt : i + k < n := by rw [← v.size]; omega
    exact ⟨⟨k + i, by omega⟩, Nat.le_add_right _ _, File.get_eq_getElem ..⟩
  · rintro ⟨i, above, rfl⟩
    refine ⟨i.val - k, by rw [v.size]; omega, ?_⟩
    rw [File.get_eq_getElem]
    congr 1
    omega

theorem State.segmentFresh_iff (s : State) (p : Port) : s.segmentFresh p = true ↔
    ∃ l, ∃ n : Fin 16, 9 ≤ n.val ∧ ((s.link l).incoming.get n).fresh.get p.index = true := by
  unfold State.segmentFresh
  simp only [List.any_eq_true, File.mem_drop, LinkId.mem_cells]
  constructor
  · rintro ⟨k, ⟨l, rfl⟩, g, ⟨n, late, rfl⟩, fresh⟩
    exact ⟨l, n, late, fresh⟩
  · rintro ⟨l, n, late, fresh⟩
    exact ⟨_, ⟨l, rfl⟩, _, ⟨n, late, rfl⟩, fresh⟩

/-! ## A response frame (11 R201) -/

theorem Response.bodyBytes_short (r : Response) : r.bodyBytes.length ≤ 256 := by
  unfold Response.bodyBytes
  split <;> exact List.length_take_le ..

theorem Reason.detail_two (x : Reason) : x.detail.length = 2 := by
  unfold Reason.detail
  split <;> rfl

theorem Response.bodyBytes_refused {r : Response} {x : Reason} (refused : r.status = .refused x) :
    ∃ rest, r.bodyBytes = x.detail ++ rest := by
  have bytes : r.bodyBytes = (x.detail ++ r.body.bytes).take 256 := by simp only [Response.bodyBytes, refused]
  refine ⟨r.body.bytes.take 254, ?_⟩
  rw [bytes, List.take_append, x.detail_two, List.take_of_length_le (by rw [x.detail_two]; decide)]

theorem Response.bodyBytes_given {r : Response} (given : ∀ x, r.status ≠ .refused x) : r.bodyBytes = r.body.bytes.take 256 := by
  unfold Response.bodyBytes
  split
  · next x refused => exact absurd refused (given x)
  · rfl

theorem Status.bytes_are (x : Status) : ∃ status reason : Byte, x.bytes = [status, reason] ∧
    (x = .done → status = 0#8 ∧ reason = 0#8) ∧ (x = .accepted → status = 1#8 ∧ reason = 0#8) ∧
    ∀ y, x = .refused y → status = 2#8 ∧ reason = BitVec.ofNat 8 (Reason.code y) := by
  cases x with
  | done => exact ⟨0, 0, rfl, fun _ => ⟨rfl, rfl⟩, nofun, nofun⟩
  | accepted => exact ⟨1, 0, rfl, nofun, fun _ => ⟨rfl, rfl⟩, nofun⟩
  | refused y =>
    refine ⟨2, BitVec.ofNat 8 y.code, rfl, nofun, nofun, fun z same => ?_⟩
    cases same
    exact ⟨rfl, rfl⟩

theorem Response.frame_is (r : Response) : IsResponseFrame r r.frame := by
  obtain ⟨status, reason, bytes, done, accepted, refused⟩ := r.status.bytes_are
  refine ⟨r.bodyBytes, _, status, reason, r.bodyBytes_short, rfl, ?_, done, accepted, fun x refuses => ?_,
    fun given => ⟨fun empty => ?_, fun b capture short => ?_⟩⟩
  · unfold Response.frame Response.head
    rw [bytes]
    rfl
  · obtain ⟨first, second⟩ := refused x refuses
    exact ⟨first, second, Response.bodyBytes_refused refuses⟩
  · rw [Response.bodyBytes_given given, empty]
    rfl
  · rw [Response.bodyBytes_given given, capture]
    exact List.take_of_length_le short

/-! ## O19 -/

theorem State.dataOut_silent {s : State} {p : Port}
    (silent : s.resetLine = true ∨ (s.port p).responses = [] ∨ (s.port p).selected = false) (k : Nat) :
    s.dataOut p k = 0#8 := by
  unfold State.dataOut
  split
  · next r rest queued =>
    refine if_pos ?_
    obtain reset | none | unselected := silent
    · rw [reset]; rfl
    · rw [queued] at none; cases none
    · rw [unselected, Bool.not_false, Bool.or_true]
  · rfl

theorem State.dataOut_sends {s : State} {p : Port} {r : Response} (runs : s.resetLine = false)
    (head : (s.port p).responses.head? = some r) (selected : (s.port p).selected = true) (k : Nat) :
    s.dataOut p k = r.frame.getD ((s.port p).sent + k) 0#8 := by
  obtain ⟨rest, queued⟩ := List.head?_eq_some_iff.mp head
  unfold State.dataOut
  rw [queued, runs, selected]
  rfl

/-- Settles O19: each output is the conjunction of its name, the state behind it, and the reset line released. -/
theorem outputsFollowTheState : Obligations.OutputsFollowTheState := by
  refine ⟨fun s f runs => ⟨fun ready => ?feeder, fun unready => ?unready⟩, fun s runs => ?rectifier,
    fun s p runs sound => ?attention, Response.frame_is, fun s p k runs => ⟨fun silent => ?silent, fun r head selected => ?sends⟩,
    fun s reset => ?reset⟩
  case feeder => simp [State.closeLine, State.testLine, State.tripLine, runs, ready]
  case unready => simp [State.closeLine, State.testLine, State.tripLine, unready]
  case rectifier => simp [State.acCloseLine, State.acTripLine, State.gateLine, runs, Rectifier.acKind_iff]
  case attention =>
    rw [← State.eventsWaiting_iff sound, ← State.segmentFresh_iff]
    simp [State.attention, runs, or_assoc]
  case silent => exact State.dataOut_silent (.inr silent) k
  case sends => exact State.dataOut_sends runs head selected k
  case reset =>
    refine ⟨fun f => ?_, ?_, ?_, fun g => ?_, fun p => ?_, fun p k => State.dataOut_silent (.inl reset) k⟩
    · simp [State.closeLine, State.testLine, State.tripLine, reset]
    · simp [State.acCloseLine, reset]
    · simp [State.acTripLine, reset]
    · simp [State.gateLine, reset]
    · simp [State.attention, reset]

end Sys2Proof.Machine

/-! The timers of a link, the grant that expires (07 R139, R144, R149 to R152), and WRITE SEGMENT and READ SEGMENT (07 R153). -/

namespace Sys2Proof.Machine

/-! ## The timers of a link (07 R139, R149 to R151) -/

section timers

variable {s : State} {l : LinkId} {t0 : Instant}

theorem exec_acceptanceWindowClose {f : Feeder} {w : Window} (runs : s.resetLine = false)
    (opened : (s.link l).windows.get f = some w) : exec (.acceptanceWindowClose l f) s =
      .next (if 8 ≤ w.words then s.modLink l fun k => { k with windows := k.windows.set f none } else s) := by
  show execAcceptanceWindowClose l f s = _
  unfold execAcceptanceWindowClose
  rw [live_next runs, opened]

theorem exec_beaconPeriod (runs : s.resetLine = false) (up : (s.link l).state = .up) (from' : (s.link l).beaconFrom = some t0)
    (due : t0 + 100000 ≤ s.now) : exec (.beaconPeriod l) s =
      .next ((s.post l .beacon).modLink l fun k => { k with beaconFrom := some (t0 + 100000) }) := by
  show execBeaconPeriod l s = _
  unfold execBeaconPeriod
  rw [live_next runs, up, from']
  exact congrArg _ (if_pos due)

theorem exec_beaconTimeout (runs : s.resetLine = false) (sent : (s.link l).beaconOutstanding = some t0)
    (due : t0 + 65535 ≤ s.now) :
    exec (.beaconTimeout l) s = .next (s.modLink l fun k => { k with beaconOutstanding := none }) := by
  have isDue : s.reached ((s.link l).beaconOutstanding.map (· + 65535)) = true := by simp [State.reached, sent, due]
  show execBeaconTimeout l s = _
  unfold execBeaconTimeout
  rw [live_next runs, if_pos isDue]

theorem exec_segmentRefresh (runs : s.resetLine = false) (up : (s.link l).state = .up)
    (from' : (s.link l).refreshFrom = some t0) (due : t0 + 1000000 ≤ s.now) : exec (.segmentRefresh l) s =
      .next (s.modLink l fun k => { k.refresh with refreshFrom := some (t0 + 1000000) }) := by
  show execSegmentRefresh l s = _
  unfold execSegmentRefresh
  rw [live_next runs, up, from']
  exact congrArg _ (if_pos due)

theorem exec_grantExpired {f : Feeder} {d : Instant} (runs : s.resetLine = false)
    (granted : (s.section' f).claim = .grantedToFar) (deadline : (s.section' f).claimDeadline = some d) (due : d ≤ s.now)
    (far : (s.config f).farLink = some l) : exec (.grantExpired f) s =
      .next ((s.addEntry .grantExpired (.feeder f) (.link l) (value1 := some 2000)).grantEnded f) := by
  have isDue : s.claimIsDue f .grantedToFar = true := by simp [State.claimIsDue, State.reached, granted, deadline, due]
  show execGrantExpired f s = _
  unfold execGrantExpired
  rw [live_next runs, isDue, far]
  rfl

/-- The System segment and the Feeder End segments are queued, and what was queued stays so. -/
theorem SectionLink.refresh_queued (k : SectionLink) (n : Fin 16) :
    k.refresh.queued.get n = (decide (n.val ≤ 8) || k.queued.get n) := by
  refine (File.get_ofList ..).trans ?_
  by_cases own : n.val ≤ 8
  · rw [List.getD_append _ _ _ _ (by simp; omega), decide_eq_true own, Bool.true_or, List.getD_replicate _ (by omega)]
  · rw [List.getD_append_right _ _ _ _ (by simp; omega), decide_eq_false own, Bool.false_or, List.length_replicate,
      File.get_eq_getElem, List.getD_eq_getElem _ _ (by rw [List.length_drop, k.queued.size]; omega), List.getElem_drop]
    congr 1
    omega

end timers

/-! ## Two states that agree on a feeder (02; 04; 07) -/

/-- What the statements about a feeder's close and claim read of a state, the same in `u` as in `s`; the record of `u` is
that of `s` grown. -/
structure AgreesAt (f : Feeder) (s u : State) : Prop where
  now : u.now = s.now
  settings : u.settings = s.settings
  sample : u.sample = s.sample
  inputs : u.inputs = s.inputs
  time : u.time.now = s.time.now
  feeder : u.feeder f = s.feeder f
  sect : u.section' f = s.section' f
  fault : u.fault f = s.fault f
  links : ∀ l, (u.link l).state = (s.link l).state ∧ (u.link l).conflict = (s.link l).conflict
  grows : Grows s.events u.events

namespace AgreesAt

variable {f : Feeder} {s u t : State} (a : AgreesAt f s u)
include a

theorem modSection (g : SectionRecord → SectionRecord) : AgreesAt f (s.modSection f g) (u.modSection f g) where
  now := a.now
  settings := a.settings
  sample := a.sample
  inputs := a.inputs
  time := a.time
  feeder := a.feeder
  sect := by rw [State.modSection_section_self, State.modSection_section_self, a.sect]
  fault := a.fault
  links := a.links
  grows := a.grows

theorem hands (h : StateHandedOn u t f) : StateHandedOn s t f :=
  h.earlier (ground_of a.fault a.now a.settings fun l => (a.links l).1) (by rw [a.feeder])

theorem testsUnclaimed {op : Operation} (h : TestsUnclaimed u t f op) : TestsUnclaimed s t f op :=
  h.of_same a.now a.settings a.sample a.feeder a.sect a.grows

theorem choosesPhase {op : Operation} (h : ChoosesPhase u t f op) : ChoosesPhase s t f op :=
  h.of_same a.now a.settings a.sample a.feeder a.sect a.fault a.links a.grows

theorem takesReclose (h : TakesReclose u t f) : TakesReclose s t f :=
  h.of_same a.now a.settings a.sample a.inputs a.time a.feeder a.sect a.fault a.links a.grows

theorem grantEnds (h : GrantEnds u t f) : GrantEnds s t f := by
  obtain ⟨hands, stands, chooses, recloses⟩ := h
  have ended := a.modSection fun r => { r with claim := .idle, claimDeadline := none }
  unfold GrantEnds
  dsimp only
  rw [← a.feeder, ← ended.sect]
  exact ⟨a.hands hands, stands, fun op claiming operation => ended.choosesPhase (chooses op claiming operation),
    fun waits deferred => ended.takesReclose (recloses waits deferred)⟩

end AgreesAt

theorem AgreesAt.addEntry (f : Feeder) (s : State) (kind : EventKind) (u : Subject) (o : Origin) (d : Detail)
    (v w : Option Int) (c : Option (Fin 4)) : AgreesAt f s (s.addEntry kind u o d v w c) :=
  ⟨rfl, rfl, rfl, rfl, rfl, rfl, rfl, rfl, fun _ => ⟨rfl, rfl⟩, .entry _ (.refl _) rfl⟩

/-- Settles O48. -/
theorem linkTimersAct : Obligations.LinkTimersAct := by
  intro l s runs
  refine ⟨fun f x opened => ⟨fun ended => ?_, fun running => ?_⟩, fun t0 up from' due => ?_,
    fun t0 sent due => exec_beaconTimeout runs sent due, fun t0 up from' due => ?_, fun f d granted deadline due far => ?_⟩
  · rw [exec_acceptanceWindowClose runs opened, if_pos ended]
  · rw [exec_acceptanceWindowClose runs opened, if_neg (Nat.not_le.mpr running)]
  · rw [exec_beaconPeriod runs up from' due]
    have posted : (s.post l .beacon).modLink l (fun k => { k with beaconFrom := some (t0 + 100000) }) =
        s.modLink l fun k => { k.post .beacon with beaconFrom := some (t0 + 100000) } := modLink_modLink ..
    rw [posted]
    exact congrArg _ (modLink_congr (by rw [post_taking _ up _ rfl]))
  · exact ⟨(s.link l).refresh.queued, (exec_segmentRefresh runs up from' due).trans (congrArg _ (modLink_congr rfl)),
      fun n => SectionLink.refresh_queued ..⟩
  · have run := exec_grantExpired runs granted deadline due far
    have ends := grantEnded_ends (s.addEntry .grantExpired (.feeder f) (.link l) (value1 := some 2000)) f
    have quiet := (Quiet.refl (s.addEntry .grantExpired (.feeder f) (.link l) (value1 := some 2000))).grantEnded f
    have whole := ((Quiet.refl s).addEntry .grantExpired (.feeder f) (.link l) .nothing (some 2000) none none).grantEnded f
    have others (g : Feeder) (differs : g ≠ f) := ((records_apart differs).grantEnded
      (s.addEntry .grantExpired (.feeder f) (.link l) (value1 := some 2000)))
    have adds := AddsEntry.add s .grantExpired (.feeder f) (.link l) .nothing (some 2000) none none
    refine ⟨_, run, onlyFeeder_of whole others, whole.ports, whole.authority, ?_,
      (AgreesAt.addEntry f s ..).grantEnds ends⟩
    exact (adds.mono fun e ⟨kind, subject, origin, _, _, value1, _⟩ => ⟨kind, subject, origin, value1 (by decide)⟩).later
      quiet.grows

/-! ## WRITE SEGMENT and READ SEGMENT (07 R153) -/

theorem linkByte_index (l : LinkId) : linkByte (BitVec.ofNat 8 l.index.val) = some l := by
  cases l <;> rfl

theorem readWritable_val (n : Fin 7) : readWritable (BitVec.ofNat 8 (n.val + 9)) = some n := by
  fin_cases n <;> rfl

theorem readWriteSegment_reads (l : LinkId) (n : Fin 7) (bytes : File Byte 16) :
    readWriteSegment (BitVec.ofNat 8 l.index.val :: BitVec.ofNat 8 (n.val + 9) :: bytes.cells) = some (l, n, bytes) := by
  simp only [readWriteSegment, bytes.size, dif_pos, linkByte_index, readWritable_val]

theorem readReadSegment_reads (l : LinkId) (n : Fin 16) {d : Byte} {x : Bool} (flag : flagByte d = some x) :
    readReadSegment [BitVec.ofNat 8 l.index.val, BitVec.ofNat 8 n.val, d] = some (l, n, x) := by
  simp only [readReadSegment, linkByte_index, below_val (by decide) n, flag]

/-- Settles O50. -/
theorem segmentsAreWrittenAndRead : Obligations.SegmentsAreWrittenAndRead := by
  intro p tag l s
  refine ⟨fun n bytes offers => ?_, fun n => ⟨fun offers => ?_, fun offers => ?_⟩⟩
  · have run : exec (.writeSegment p) s = takeRequest p 0x30 (withArgs readWriteSegment (handleWriteSegment p)) s := rfl
    refine run.trans (takeRequest_done offers ((withArgs_reads _ (readWriteSegment_reads l n bytes)).trans ?_))
    refine congrArg done (modLink_congr ?_)
    dsimp only [SectionLink.queue]
    split <;> rfl
  · have run : exec (.readSegment p) s = takeRequest p 0x31 (withArgs readReadSegment (handleReadSegment p)) s := rfl
    exact takeRequest_reports offers run (readReadSegment_reads l n rfl) rfl
  · have run : exec (.readSegment p) s = takeRequest p 0x31 (withArgs readReadSegment (handleReadSegment p)) s := rfl
    exact run.trans (exec_request _ offers ((withArgs_reads _ (readReadSegment_reads l n (x := false) rfl)).trans rfl))

end Sys2Proof.Machine

/-! A link that leaves UP: what the far end lost to one feeder leaves to the others and to the links (07 R134). -/

namespace Sys2Proof.Machine

/-! ## What the operations of a feeder leave to the other feeders and to the links -/

/-- A link that no operation on feeder f changes: another's than its far link, or one that is down with nothing to send. -/
def State.linkRests (s : State) (f : Feeder) (l : LinkId) : Prop :=
  (s.config f).farLink ≠ some l ∨ ((s.link l).state = .down ∧ (s.link l).pendingSet = [])

/-- What the operations of feeder f leave: the settings, the retard of the other feeders, and the links that rest. -/
structure LeavesApart (f : Feeder) (u v : State) : Prop where
  settings : v.settings = u.settings
  retard : ∀ h, h ≠ f → v.rect.retard.get h = u.rect.retard.get h
  links : ∀ l, u.linkRests f l → v.link l = u.link l

namespace LeavesApart

variable {f : Feeder} {s t u : State}

theorem of_same (settings : t.settings = s.settings) (rect : t.rect.retard = s.rect.retard) (links : t.links = s.links) :
    LeavesApart f s t :=
  ⟨settings, fun h _ => by rw [rect], fun l _ => by rw [State.link, State.link, links]⟩

theorem refl (s : State) : LeavesApart f s s := .of_same rfl rfl rfl

theorem linkRests (h : LeavesApart f s t) {l : LinkId} (rests : s.linkRests f l) : t.linkRests f l := by
  unfold State.linkRests State.config
  rw [h.settings, h.links l rests]
  exact rests

theorem trans (h : LeavesApart f s t) (k : LeavesApart f t u) : LeavesApart f s u where
  settings := k.settings.trans h.settings
  retard g differs := (k.retard g differs).trans (h.retard g differs)
  links l rests := (k.links l (h.linkRests rests)).trans (h.links l rests)

/-- An operation on the far link that leaves it when it is down with nothing to send. -/
theorem modFarLink {l : LinkId} {g : SectionLink → SectionLink} (far : (t.config f).farLink = some l)
    (rests : (t.link l).state = .down → (t.link l).pendingSet = [] → g (t.link l) = t.link l) :
    LeavesApart f t (t.modLink l g) := by
  refine ⟨rfl, fun _ _ => rfl, fun m resting => ?_⟩
  rw [link_modLink]
  split
  · next same =>
    subst same
    obtain other | ⟨down, empty⟩ := resting
    · exact absurd far other
    · exact rests down empty
  · rfl

variable (h : LeavesApart f s t)
include h

theorem postFar (g : Feeder → Signal) : LeavesApart f s (t.postFar f g) := by
  refine h.trans ?_
  unfold State.postFar
  split
  · next l far =>
    exact modFarLink far fun down _ => if_pos (by rw [down]; nofun)
  · exact .refl t

theorem withdrawFar (g : Feeder → Signal) : LeavesApart f s (t.withdrawFar f g) := by
  refine h.trans ?_
  unfold State.withdrawFar
  split
  · next l far =>
    refine modFarLink far fun _ empty => ?_
    unfold SectionLink.withdraw
    rw [empty, List.filter_nil, ← empty]
  · exact .refl t

theorem queueFeederEnd : LeavesApart f s (t.queueFeederEnd f) := by
  refine h.trans ?_
  unfold State.queueFeederEnd
  split
  · next l far =>
    exact modFarLink far fun down _ => if_neg (by rw [down]; nofun)
  · exact .refl t

theorem modFeeder (g : Feeder) (k : FeederRecord → FeederRecord) : LeavesApart f s (t.modFeeder g k) :=
  h.trans (.of_same rfl rfl rfl)

theorem modSection (g : Feeder) (k : SectionRecord → SectionRecord) : LeavesApart f s (t.modSection g k) :=
  h.trans (.of_same rfl rfl rfl)

theorem addEntry (kind : EventKind) (x : Subject) (o : Origin) (d : Detail) (v w : Option Int) (c : Option (Fin 4)) :
    LeavesApart f s (t.addEntry kind x o d v w c) := h.trans (.of_same rfl rfl rfl)

theorem setClaim (c : ClaimState) (d : Option Instant) : LeavesApart f s (t.setClaim f c d) := by
  unfold State.setClaim
  dsimp only
  split
  · exact h.modSection ..
  · exact (h.modSection ..).queueFeederEnd

theorem failureNotice : LeavesApart f s (t.failureNotice f) := by
  refine h.trans (.of_same ((Quiet.refl t).failureNotice f).settings ?_ (linksView.failureNotice t f))
  unfold State.failureNotice
  split
  · rw [State.rectTrip_rect]
    rfl
  · rfl

theorem feederNotices (old : FeederState) : LeavesApart f s (t.feederNotices old f) := by
  unfold State.feederNotices
  split
  · exact h
  · have noticed : LeavesApart f s ((t.protectionNotice old f).retardNotice f) :=
      h.trans ⟨rfl, fun g differs => File.get_set_ne _ _ differs, fun _ _ => rfl⟩
    exact noticed.queueFeederEnd.failureNotice

theorem closeEnded (old : FeederState) (x : CloseResult) : LeavesApart f s (t.closeEnded old f x) := by
  have told : LeavesApart f s (t.closeToRunners f x) :=
    h.trans (.of_same ((Quiet.refl t).closeToRunners f x).settings (congrArg Rectifier.retard (rectView.closeToRunners t f x))
      (linksView.closeToRunners t f x))
  exact told.feederNotices old

theorem endClose (op : Operation) (x : CloseResult) (next : FeederRecord → FeederRecord) :
    LeavesApart f s (t.endClose f op x next) := ((h.modFeeder f next).addEntry ..).closeEnded ..

theorem releaseClaim : LeavesApart f s (t.releaseClaim f) := by
  unfold State.releaseClaim
  split
  · exact (h.postFar _).setClaim ..
  · split
    · exact (h.withdrawFar _).setClaim ..
    · exact (h.postFar _).setClaim ..
  · exact h
  · exact h

theorem enterClosing (op : Operation) : LeavesApart f s (t.enterClosing f op) := (h.modFeeder ..).feederNotices _

theorem enterTesting (op : Operation) (m : TestMode) : LeavesApart f s (t.enterTesting f op m) := by
  unfold State.enterTesting
  split
  · exact (h.modFeeder ..).feederNotices _
  · exact h.releaseClaim.endClose ..

theorem testUnclaimed (op : Operation) (b : Bool) : LeavesApart f s (t.testUnclaimed f op b) :=
  (h.addEntry ..).enterTesting ..

theorem beginClaim (op : Operation) : LeavesApart f s (t.beginClaim f op) :=
  (((h.modFeeder ..).postFar _).setClaim ..).feederNotices _

theorem phaseChoice (op : Operation) : LeavesApart f s (t.phaseChoice f op) := by
  unfold State.phaseChoice
  split
  · exact h.enterClosing ..
  · split
    · exact h.enterTesting ..
    · split
      · exact h.testUnclaimed ..
      · split
        · exact h.endClose ..
        · exact h.beginClaim ..

theorem recloseSteps : LeavesApart f s (t.recloseSteps f) := by
  unfold State.recloseSteps
  dsimp only
  split
  · split
    · exact (h.modFeeder ..).feederNotices _
    · exact ((h.modFeeder ..).addEntry ..).feederNotices _
  · split
    · exact h.phaseChoice ..
    · exact h.modFeeder ..
    · exact (h.modFeeder ..).addEntry ..

theorem grantEnded : LeavesApart f s (t.grantEnded f) := by
  unfold State.grantEnded
  dsimp only
  split
  · exact (h.setClaim ..).phaseChoice _
  · exact (h.setClaim ..).recloseSteps
  · exact h.setClaim ..

theorem setFarState (x : Option FeederState) : LeavesApart f s (t.setFarState f x) :=
  h.trans (.of_same ((Quiet.refl t).setFarState f x).settings (congrArg Rectifier.retard (setFarState_rect t f x))
    (setFarState_view linksView (fun _ _ => rfl) (fun _ _ => rfl) (fun _ _ => rfl) t f x))

theorem farLost : LeavesApart f s (t.farLost f) := by
  unfold State.farLost
  dsimp only
  have lost := (h.modSection f fun r => { r with staleFrom := none, heard := false, matching := .mismatch }).setFarState none
  split
  · split
    · exact (lost.setClaim ..).testUnclaimed ..
    · exact lost.setClaim ..
  · exact lost.setClaim ..
  · exact lost.grantEnded
  · exact lost

end LeavesApart

theorem Apart.farLost {β : Type} {V : View β} {f : Feeder} (h : Apart V f) (s : State) : V.view (s.farLost f) = V.view s := by
  unfold State.farLost
  dsimp only
  have lost : V.view ((s.modSection f fun r => { r with staleFrom := none, heard := false, matching := .mismatch }).setFarState
      f none) = V.view s := (h.setFarState ..).trans (h.modSection ..)
  split
  · split
    · rw [h.testUnclaimed, h.setClaim, lost]
    · rw [h.setClaim, lost]
  · rw [h.setClaim, lost]
  · rw [h.grantEnded, lost]
  · exact lost

/-! ## What holds of a feeder when its part has acted, and after the parts that leave it -/

/-- The feeder's records and its retard stand, and the record grows. -/
structure StandsAt (f : Feeder) (v t : State) : Prop where
  feeder : t.feeder f = v.feeder f
  sect : t.section' f = v.section' f
  fault : t.fault f = v.fault f
  retard : t.rect.retard.get f = v.rect.retard.get f
  grows : Grows v.events t.events

namespace StandsAt

variable {f : Feeder} {s v t : State} (k : StandsAt f v t)
  (down : ∀ l, (s.config f).farLink = some l → (s.link l).state ≠ .up)
include k

theorem testsUnclaimed {op : Operation} (h : TestsUnclaimed s v f op) : TestsUnclaimed s t f op := by
  obtain ⟨unclaimed, tested, back⟩ := h
  unfold TestsUnclaimed
  rw [k.feeder, k.sect]
  exact ⟨unclaimed, tested, fun lost => ⟨(back lost).1, (back lost).2.later k.grows⟩⟩

include down

theorem hands (h : StateHandedOn s v f) : StateHandedOn s t f := by
  obtain ⟨fault, told⟩ := h
  unfold StateHandedOn
  rw [k.feeder, k.fault, k.retard]
  exact ⟨fault, fun moved => ⟨(told moved).1, fun l far up => absurd up (down l far)⟩⟩

theorem choosesPhase {op : Operation} (h : ChoosesPhase s v f op) : ChoosesPhase s t f op := by
  obtain ⟨hands, live, alone, linked⟩ := h
  refine ⟨k.hands down hands, ?_, fun dead far => k.testsUnclaimed (alone dead far), fun l dead far =>
    ⟨fun rests => ?_, fun up => absurd up (down l far), fun up => absurd up (down l far)⟩⟩
  · rw [k.feeder, k.sect]
    exact live
  · obtain ⟨tests, adds⟩ := (linked l dead far).1 rests
    exact ⟨k.testsUnclaimed tests, adds.later k.grows⟩

theorem takesReclose (h : TakesReclose s v f) : TakesReclose s t f := by
  obtain ⟨hands, never, spent, again⟩ := h
  refine ⟨k.hands down hands, fun zero => ?_, fun some' most => ?_, fun few => ?_⟩
  · rw [k.feeder]
    exact never zero
  · rw [k.feeder]
    exact ⟨(spent some' most).1, (spent some' most).2.later k.grows⟩
  · obtain ⟨defers, holds, begins⟩ := again few
    refine ⟨fun far => ?_, fun cause check other => ?_, fun clear => k.choosesPhase down (begins clear)⟩
    · rw [k.feeder]
      exact defers far
    · rw [k.feeder]
      exact ⟨(holds cause check other).1, (holds cause check other).2.later k.grows⟩

theorem grantEnds (h : GrantEnds s v f) : GrantEnds s t f := by
  obtain ⟨hands, stands, chooses, recloses⟩ := h
  refine ⟨k.hands down hands, ?_, fun op claiming operation => ?_, fun waits deferred => ?_⟩
  · rw [k.feeder, k.sect]
    exact stands
  · exact choosesPhase (s := s.modSection f _) k down (chooses op claiming operation)
  · exact takesReclose (s := s.modSection f _) k down (recloses waits deferred)

theorem losesFarEnd (h : LosesFarEnd s v f) : LosesFarEnd s t f := by
  obtain ⟨hands, stands, tests, ended, grants⟩ := h
  refine ⟨k.hands down hands, ?_, fun op claimed claiming operation => ?_, ?_, fun granted => k.grantEnds down (grants granted)⟩
  · rw [k.feeder, k.sect]
    exact stands
  · obtain ⟨unclaimed, adds⟩ := tests op claimed claiming operation
    exact ⟨k.testsUnclaimed unclaimed, adds.later k.grows⟩
  · rw [k.feeder, k.sect]
    exact ended

end StandsAt

theorem AgreesAt.losesFarEnd {f : Feeder} {s u t : State} (a : AgreesAt f s u) (h : LosesFarEnd u t f) : LosesFarEnd s t f := by
  obtain ⟨hands, stands, tests, ended, grants⟩ := h
  unfold LosesFarEnd
  rw [← a.feeder, ← a.sect]
  exact ⟨a.hands hands, stands, fun op claimed claiming operation =>
    ⟨(a.modSection _).testsUnclaimed (tests op claimed claiming operation).1,
      (tests op claimed claiming operation).2.earlier a.grows⟩, ended, fun granted => a.grantEnds (grants granted)⟩

end Sys2Proof.Machine

/-! Words and light at a link: DOWN, ALIGNING and UP, and the fall from UP (07 R131 to R136). -/

namespace Sys2Proof.Machine

/-! ## The parts of a fall from UP (07 R134) -/

/-- The state that the feeders on a fallen link and the Time Base find. -/
def State.downTold (s : State) (l : LinkId) (cause : LinkDownCause) : State :=
  (s.modLink l SectionLink.fallen).linkEntry l .linkDown (.linkDown cause)
    (some (s.msSince ((s.link l).upSince.getD s.now) : Int)) (some ((s.link l).tripsPending : Int))

/-- What every part of a fall keeps. -/
structure FallKeeps (l : LinkId) (u v : State) : Prop where
  quiet : Quiet u v
  rests : (u.link l).state = .down → (u.link l).pendingSet = [] → v.link l = u.link l
  time : v.time.now = u.time.now
  bare : bareView.view v = bareView.view u

theorem FallKeeps.refl (l : LinkId) (u : State) : FallKeeps l u u := ⟨.refl u, fun _ _ => rfl, rfl, rfl⟩

theorem FallKeeps.trans {l : LinkId} {u v w : State} (h : FallKeeps l u v) (k : FallKeeps l v w) : FallKeeps l u w where
  quiet := h.quiet.trans k.quiet
  rests down empty := by
    have same := h.rests down empty
    exact (k.rests (by rw [same]; exact down) (by rw [same]; exact empty)).trans same
  time := k.time.trans h.time
  bare := k.bare.trans h.bare

theorem FallKeeps.choices (l : LinkId) (u : State) (k : Nat) : FallKeeps l u { u with choices := k } :=
  ⟨(Quiet.refl u).choices k, fun _ _ => rfl, rfl, rfl⟩

theorem FallKeeps.farLost {l : LinkId} {u : State} {f : Feeder} (far : (u.config f).farLink = some l) :
    FallKeeps l u (u.farLost f) where
  quiet := (Quiet.refl u).farLost (by rw [far]; nofun)
  rests down empty := (LeavesApart.farLost (.refl u)).links l (.inr ⟨down, empty⟩)
  time := congrArg TimeBase.now ((time_apart f).farLost u)
  bare := (bare_apart f).farLost u

theorem delayNotice_now (u : State) (l : LinkId) : (u.delayNotice l).time.now = u.time.now := by
  obtain ⟨follows, other⟩ := delayNotice_takes u l
  by_cases heard : u.followed = some l ∧ (u.time.quality = .coarse ∨ u.time.quality = .fine)
  · rw [(follows heard.1 heard.2).1]
  · rw [other (by tauto)]

theorem FallKeeps.delayNotice (l : LinkId) (u : State) : FallKeeps l u (u.delayNotice l) where
  quiet := (Quiet.refl u).delayNotice l
  rests down _ := by
    unfold State.delayNotice State.qualityChange
    split
    · split
      · rfl
      · show ((u.setQuality (u.linkQuality l)).link l) = u.link l
        rw [setQuality_link]
        split
        · rfl
        · exact if_neg (by rw [down]; nofun)
    · rfl
  time := delayNotice_now u l
  bare := by
    obtain ⟨-, links, -⟩ := delayNotice_only u l
    funext m
    show ((u.delayNotice l).link m).bare = (u.link m).bare
    rw [links m]
    rfl

section downTold

variable (s : State) (l : LinkId) (cause : LinkDownCause)

theorem State.downTold_frame : ∃ events choices, s.downTold l cause =
    { s.modLink l SectionLink.fallen with events := events, choices := choices } := ⟨_, _, rfl⟩

theorem State.downTold_link : (s.downTold l cause).link l = (s.link l).fallen := modLink_self ..

theorem State.downTold_quiet : Quiet s (s.downTold l cause) := ((Quiet.refl s).modLink l _).addEntry ..

theorem State.linkDown_eq : s.linkDown l cause = together ([] ++ (s.feedersOn l).map (fun f t => State.farLost t f) ++
    [fun t => t.delayNotice l]) (s.downTold l cause) := rfl

/-- A part of the fall under the settings of `s`. -/
theorem FallKeeps.part {part : State → State}
    (member : part ∈ [] ++ (s.feedersOn l).map (fun f t => State.farLost t f) ++ [fun t : State => t.delayNotice l])
    {u : State} (settings : u.settings = s.settings) : FallKeeps l u (part u) := by
  simp only [List.nil_append, List.mem_append, List.mem_map, List.mem_singleton] at member
  obtain ⟨f, listed, rfl⟩ | rfl := member
  · refine .farLost ?_
    rw [State.config, settings]
    exact mem_feedersOn.mp listed
  · exact .delayNotice l u

variable {s l cause}

theorem FallKeeps.runs {parts : List (State → State)} {u v : State} (runs : Runs parts u v)
    (listed : ∀ part ∈ parts, part ∈ [] ++ (s.feedersOn l).map (fun f t => State.farLost t f) ++ [fun t : State => t.delayNotice l])
    (settings : u.settings = s.settings) : FallKeeps l u v := by
  refine runs.rel (R := fun u v => u.settings = s.settings → FallKeeps l u v) (fun u _ => .refl l u)
    (fun u v w h k same => ?_) (fun u k _ => .choices l u k) (fun part member u same => .part s l (listed part member) same) settings
  have first := h same
  exact first.trans (k (first.quiet.settings.trans same))

theorem State.linkDown_keeps : FallKeeps l (s.downTold l cause) (s.linkDown l cause) := by
  obtain ⟨parts, perm, runs⟩ := Runs.together ([] ++ (s.feedersOn l).map (fun f t => State.farLost t f) ++
    [fun t => t.delayNotice l]) (s.downTold l cause)
  exact .runs runs (fun part member => perm.mem_iff.mp member) (s.downTold_quiet l cause).settings

/-- The link's record after the fall. -/
theorem State.linkDown_link : (s.linkDown l cause).link l = (s.link l).fallen := by
  have told := s.downTold_link l cause
  exact (State.linkDown_keeps.rests (by rw [told]; rfl) (by rw [told]; rfl)).trans told

/-! ### One feeder among the parts -/

/-- A part that is not the notice to one feeder. -/
def ApartFromFall (l : LinkId) (f : Feeder) (part : State → State) : Prop :=
  (∃ j, j ≠ f ∧ part = fun t => t.farLost j) ∨ part = fun t => t.delayNotice l

theorem ApartFromFall.records {f : Feeder} {part : State → State} (h : ApartFromFall l f part) (u : State) :
    (recordsView f).view (part u) = (recordsView f).view u ∧ (part u).rect.retard.get f = u.rect.retard.get f := by
  obtain ⟨j, differs, rfl⟩ | rfl := h
  · exact ⟨(records_apart differs.symm).farLost u, (LeavesApart.farLost (.refl u)).retard f differs.symm⟩
  · obtain ⟨frame, -⟩ := delayNotice_only u l
    dsimp only
    rw [frame]
    exact ⟨rfl, rfl⟩

theorem ApartFromFall.run {f : Feeder} {parts : List (State → State)} {u v : State} (runs : Runs parts u v)
    (apart : ∀ part ∈ parts, ApartFromFall l f part) :
    (recordsView f).view v = (recordsView f).view u ∧ v.rect.retard.get f = u.rect.retard.get f :=
  runs.rel (R := fun u v => (recordsView f).view v = (recordsView f).view u ∧ v.rect.retard.get f = u.rect.retard.get f)
    (fun _ => ⟨rfl, rfl⟩) (fun _ _ _ h k => ⟨k.1.trans h.1, k.2.trans h.2⟩) (fun _ _ => ⟨rfl, rfl⟩)
    fun part member w => (apart part member).records w

theorem State.feedersOn_nodup : (s.feedersOn l).Nodup := List.Nodup.filter _ (by decide)

/-- The far end lost to one feeder, the other parts before and after. -/
theorem State.linkDown_feeder {f : Feeder} (far : (s.config f).farLink = some l) : ∃ u, FallKeeps l (s.downTold l cause) u ∧
    (recordsView f).view u = (recordsView f).view s ∧ StandsAt f (u.farLost f) (s.linkDown l cause) := by
  obtain ⟨before, after, u, k, others, listed, first, second⟩ := together_member (i := f) (State.feedersOn_nodup (s := s) (l := l))
    (mem_feedersOn.mpr far) (fun f t => State.farLost t f) [] [fun t => t.delayNotice l] (s.downTold l cause)
  rw [← State.linkDown_eq] at second
  have apart (part : State → State) (member : part ∈ before ++ after) : ApartFromFall l f part := by
    obtain none | notice | far := others part member
    · simp at none
    · exact .inr (List.mem_singleton.mp notice)
    · exact .inl far
  have settings := (s.downTold_quiet l cause).settings
  have keeps : FallKeeps l (s.downTold l cause) u := .runs first (fun part member => listed part (List.mem_append_left _ member)) settings
  obtain ⟨records, -⟩ := ApartFromFall.run first fun part member => apart part (List.mem_append_left _ member)
  obtain ⟨stand, retard⟩ := ApartFromFall.run second fun part member => apart part (List.mem_append_right _ member)
  have told : (recordsView f).view (s.downTold l cause) = (recordsView f).view s := rfl
  have last : FallKeeps l (State.farLost { u with choices := k } f) (s.linkDown l cause) := by
    refine .runs second (fun part member => listed part (List.mem_append_right _ member)) ?_
    have lost : FallKeeps l { u with choices := k } (State.farLost { u with choices := k } f) :=
      .farLost (by rw [State.config, keeps.quiet.settings.trans settings]; exact far)
    exact lost.quiet.settings.trans (keeps.quiet.settings.trans settings)
  exact ⟨{ u with choices := k }, keeps.trans (.choices l u k), records.trans told,
    ⟨congrArg Prod.fst stand, congrArg (fun x => x.2.1) stand, congrArg (fun x => x.2.2) stand, retard, last.quiet.grows⟩⟩

/-- The Time Base takes the status once; no other part changes the time or another link. -/
theorem State.linkDown_time : ∃ u, FallKeeps l (s.downTold l cause) u ∧ u.time = s.time ∧
    (s.linkDown l cause).time = (u.delayNotice l).time ∧ Grows (u.delayNotice l).events (s.linkDown l cause).events ∧
    ∀ m, m ≠ l → (s.linkDown l cause).link m = (u.delayNotice l).link m := by
  have split : [] ++ (s.feedersOn l).map (fun f t => State.farLost t f) ++ [fun t => t.delayNotice l] =
      (s.feedersOn l).map (fun f t => State.farLost t f) ++ [()].map (fun _ t => State.delayNotice t l) ++ [] := by simp
  obtain ⟨before, after, u, k, others, listed, first, second⟩ := together_member (i := ()) (List.nodup_singleton ())
    (List.mem_singleton_self ()) (fun _ t => State.delayNotice t l) ((s.feedersOn l).map (fun f t => State.farLost t f)) []
    (s.downTold l cause)
  rw [← split] at listed second
  rw [← State.linkDown_eq] at second
  have feeders (part : State → State) (member : part ∈ before ++ after) :
      ∃ j, (s.config j).farLink = some l ∧ part = fun t => t.farLost j := by
    obtain far | none | ⟨j, differs, -⟩ := others part member
    · obtain ⟨j, onLink, rfl⟩ := List.mem_map.mp far
      exact ⟨j, mem_feedersOn.mp onLink, rfl⟩
    · simp at none
    · exact absurd rfl differs
  have settings := (s.downTold_quiet l cause).settings
  have keeps : FallKeeps l (s.downTold l cause) u :=
    .runs first (fun part member => listed part (List.mem_append_left _ member)) settings
  have timeStands (parts : List (State → State)) (inside : ∀ part ∈ parts, part ∈ before ++ after) {v w : State}
      (runs : Runs parts v w) : w.time = v.time := by
    refine runs.leaves (view := State.time) (fun _ _ => rfl) fun part member x => ?_
    obtain ⟨j, -, rfl⟩ := feeders part (inside part member)
    exact (time_apart j).farLost x
  have linkStands (m : LinkId) (other : m ≠ l) (parts : List (State → State)) (inside : ∀ part ∈ parts, part ∈ before ++ after)
      {v w : State} (runs : Runs parts v w) : v.settings = s.settings → w.settings = s.settings ∧ w.link m = v.link m := by
    refine runs.rel (R := fun v w => v.settings = s.settings → w.settings = s.settings ∧ w.link m = v.link m)
      (fun _ same => ⟨same, rfl⟩) (fun _ _ _ h k same => ?_) (fun _ _ same => ⟨same, rfl⟩) fun part member x same => ?_
    · obtain ⟨first, found⟩ := h same
      obtain ⟨last, left⟩ := k first
      exact ⟨last, left.trans found⟩
    · obtain ⟨j, far, rfl⟩ := feeders part (inside part member)
      have lost := LeavesApart.farLost (f := j) (.refl x)
      refine ⟨lost.settings.trans same, lost.links m (.inl ?_)⟩
      rw [State.config, same]
      exact fun this => other (Option.some.inj (this.symm.trans far))
  have notice := FallKeeps.delayNotice l { u with choices := k }
  have same := notice.quiet.settings.trans (keeps.quiet.settings.trans settings)
  have last : FallKeeps l (State.delayNotice { u with choices := k } l) (s.linkDown l cause) :=
    .runs second (fun part member => listed part (List.mem_append_right _ member)) same
  refine ⟨{ u with choices := k }, keeps.trans (.choices l u k),
    (timeStands before (fun part member => List.mem_append_left _ member) first).trans (rfl : (s.downTold l cause).time = s.time),
    timeStands after (fun part member => List.mem_append_right _ member) second, last.quiet.grows, fun m other => ?_⟩
  obtain ⟨-, stands⟩ := linkStands m other after (fun part member => List.mem_append_right _ member) second same
  exact stands

/-- Where no far link falls, a feeder's records stand. -/
theorem State.linkDown_other {f : Feeder} (far : (s.config f).farLink ≠ some l) :
    (recordsView f).view (s.linkDown l cause) = (recordsView f).view s := by
  refine together_leaves (recordsView f).view _ (s.downTold l cause) (fun _ _ => rfl) fun part member u => ?_
  simp only [List.mem_append, List.mem_map, List.mem_singleton] at member
  obtain ⟨j, onLink, rfl⟩ | rfl := member
  · have differs : f ≠ j := fun same => far (same ▸ mem_feedersOn.mp onLink)
    exact (records_apart differs).farLost u
  · obtain ⟨frame, -⟩ := delayNotice_only u l
    dsimp only
    rw [frame]
    rfl

end downTold

/-! ## The fall from UP, as the statements have it (07 R134) -/

/-- Two states that agree on a feeder agree on it once its far end is lost. -/
theorem AgreesAt.farLost' {f : Feeder} {s u : State} (a : AgreesAt f s u) : AgreesAt f (s.farLost' f) (u.farLost' f) := by
  have group : u.groupAfter f none = s.groupAfter f none := by
    unfold State.groupAfter
    rw [a.feeder, a.sect]
  have feeder (w : State) : (w.farLost' f).feeder f = { w.feeder f with group := w.groupAfter f none } :=
    State.modFeeder_feeder_self _ f fun r => { r with group := w.groupAfter f none }
  have sect (w : State) : (w.farLost' f).section' f =
      { w.section' f with farState := none, staleFrom := none, matching := .mismatch, heard := false } :=
    State.modSection_section_self w f fun r =>
      { r with farState := none, staleFrom := none, matching := .mismatch, heard := false }
  have fault (w : State) : (w.farLost' f).fault f = (w.fault f).regrouped (w.feeder f).group (w.groupAfter f none) :=
    State.modFault_fault_self _ f fun d => d.regrouped (w.feeder f).group (w.groupAfter f none)
  exact ⟨a.now, a.settings, a.sample, a.inputs, a.time, by rw [feeder, feeder, group, a.feeder], by rw [sect, sect, a.sect],
    by rw [fault, fault, group, a.fault, a.feeder], a.links, a.grows⟩

theorem tripsPending_eq (k : SectionLink) :
    k.tripsPending = (k.pendingSet.filter fun x => eight.any fun g => x.signal == .transferTrip g).length := by
  have same (x : Signal) : (match x with
      | .transferTrip _ => true
      | _ => false) = eight.any fun g => x == .transferTrip g := by
    cases x with
    | transferTrip g => exact (List.any_eq_true.mpr ⟨g, mem_eight g, beq_self_eq_true (Signal.transferTrip g)⟩).symm
    | _ => exact (List.any_eq_false.mpr fun g _ => by simp).symm
  unfold SectionLink.tripsPending
  rw [List.countP_eq_length_filter]
  congr 2
  exact funext fun x => same x.signal

theorem linkDown_entry (s : State) (l : LinkId) (cause : LinkDownCause) : AddsEntry s (s.linkDown l cause) fun e =>
    e.kind = .linkDown ∧ e.subject = .link l ∧ e.origin = .link l ∧ e.detail = .linkDown cause ∧
      (∀ u : Nat, (s.link l).upSince = some u → (s.now - u) / 100000 < 2147483648 →
        e.value1 = some (((s.now - u) / 100000 : Nat) : Int)) ∧
      ∀ n : Nat, n = ((s.link l).pendingSet.filter fun x => eight.any fun g => x.signal == .transferTrip g).length →
        n < 2147483648 → e.value2 = some (n : Int) := by
  have adds : AddsEntry s (s.downTold l cause) _ := AddsEntry.add (s.modLink l SectionLink.fallen) .linkDown (.link l) (.link l)
    (.linkDown cause) (some (s.msSince ((s.link l).upSince.getD s.now) : Int)) (some ((s.link l).tripsPending : Int)) none
  refine (adds.mono fun e ⟨kind, subject, origin, detail, _, value1, value2⟩ => ⟨kind, subject, origin, detail,
    fun u up small => ?_, fun n count small => ?_⟩).later State.linkDown_keeps.quiet.grows
  · rw [up] at value1
    exact value1 (inField_nat small)
  · rw [tripsPending_eq, ← count] at value2
    exact value2 (inField_nat small)

/-- A link in UP falls (07 R134). -/
theorem linkDown_falls (s : State) (l : LinkId) (cause : LinkDownCause) : FallsFrom s (s.linkDown l cause) l (s.link l) cause := by
  have whole := (s.downTold_quiet l cause).trans (State.linkDown_keeps (s := s) (l := l) (cause := cause)).quiet
  have fallen := State.linkDown_link (s := s) (l := l) (cause := cause)
  refine ⟨fallen, linkDown_entry s l cause, fun f far => ?lost, fun f far => ?other, ?status, whole.settings, whole.store,
    whole.inputs, whole.ports, whole.authority, whole.sample, whole.clock, whole.key⟩
  case lost =>
    obtain ⟨u, keeps, records, stands⟩ := State.linkDown_feeder (cause := cause) far
    have quiet := (s.downTold_quiet l cause).trans keeps.quiet
    have config := quiet.config f
    have loses := farLost_loses u f (by rw [config, far]; nofun)
    have agrees : AgreesAt f (s.modLink l fun _ => (s.linkDown l cause).link l) u := by
      refine ⟨quiet.now, quiet.settings, quiet.sample, quiet.inputs, keeps.time, congrArg Prod.fst records,
        congrArg (fun x => x.2.1) records, congrArg (fun x => x.2.2) records, fun m => ?_, quiet.grows⟩
      rw [fallen]
      have bare : (u.link m).bare = ((s.downTold l cause).link m).bare := congrFun keeps.bare m
      have state := congrArg SectionLink.state bare
      have conflict := congrArg SectionLink.conflict bare
      exact ⟨state, conflict⟩
    refine StandsAt.losesFarEnd stands (fun m onLink => ?_) (agrees.farLost'.losesFarEnd loses)
    have same : m = l := Option.some.inj (onLink.symm.trans far)
    show ((s.modLink l fun _ => (s.linkDown l cause).link l).link m).state ≠ .up
    rw [same, modLink_self, fallen]
    nofun
  case other =>
    have same := State.linkDown_other (cause := cause) far
    exact ⟨congrArg (fun x => x.2.1) same, congrArg Prod.fst same, congrArg (fun x => x.2.2) same⟩
  case status =>
    obtain ⟨u, keeps, before, time, after, links⟩ := State.linkDown_time (s := s) (l := l) (cause := cause)
    have quiet := (s.downTold_quiet l cause).trans keeps.quiet
    have told := s.downTold_link l cause
    have stood : u.link l = (s.link l).fallen := (keeps.rests (by rw [told]; rfl) (by rw [told]; rfl)).trans told
    have followed : u.followed = s.followed := by rw [State.followed, quiet.station, State.followed]
    have takes : TakesDelayStatus u (u.delayNotice l) l .invalid := by
      have found := delayNotice_takes u l
      rw [stood] at found
      exact found
    obtain ⟨follows, other⟩ := takes
    unfold TakesDelayStatus
    rw [time]
    rw [followed, before] at follows other
    refine ⟨fun heard quality => ?_, other⟩
    obtain ⟨set, changed⟩ := follows heard quality
    refine ⟨set, fun differs => ?_⟩
    obtain ⟨adds, queued⟩ := changed differs
    refine ⟨(adds.earlier quiet.grows).later after, fun m up => ?_⟩
    have rising : m ≠ l := by
      rintro rfl
      rw [fallen] at up
      cases up
    rw [links m rising] at up ⊢
    exact queued m up

/-- The record a link falls from may be one made at the same instant. -/
theorem FallsFrom.of_modLink {s t : State} {l : LinkId} {k : SectionLink} {cause : LinkDownCause}
    (h : FallsFrom (s.modLink l fun _ => k) t l k cause) : FallsFrom s t l k cause := by
  obtain ⟨record, entry, lost, other, status, rest⟩ := h
  refine ⟨record, entry, fun f far => ?_, other, status, rest⟩
  have loses := lost f far
  rw [modLink_modLink] at loses
  exact loses

/-! ## Light (07 R132) -/

theorem exec_lightPresentChange {s : State} (runs : s.resetLine = false) (l : LinkId) (present : Bool) :
    exec (.lightPresentChange l present) s = .next (s.lightChange l present) := by
  show execLightPresentChange l present s = _
  unfold execLightPresentChange
  rw [runs]
  rfl

theorem exec_linkWord {s : State} (runs : s.resetLine = false) (l : LinkId) (w : RxWord) :
    exec (.linkWord l w) s = .next (s.takeWord l w) := live_next runs _

theorem linkWord_good {s : State} {l : LinkId} {w : RxWord} {g : SlotSignal} (runs : s.resetLine = false)
    (light : (s.link l).light = true) (good : goodSignal w = some g) :
    exec (.linkWord l w) s = .next (s.goodWordAt l g w.data) := by
  rw [exec_linkWord runs]
  unfold State.takeWord
  rw [if_pos light, good]

theorem takeData_unbroken {s : State} {l : LinkId} (idle : (s.link l).assembly = .idle) : s.takeData l none = s :=
  takeData_idle idle

theorem badWordAt_down {s : State} {l : LinkId} (down : (s.link l).state = .down) : s.badWordAt l = s := by
  unfold State.badWordAt
  rw [down]

theorem badWordAt_aligning {s : State} {l : LinkId} (aligning : (s.link l).state = .aligning) :
    s.badWordAt l = s.modLink l fun k =>
      if k.badRun + 1 < 8 then { k.badWord with goodRun := 0 }
      else SectionLink.alignFails { k.badWord with goodRun := 0 } (k.badRun + 1) := by
  unfold State.badWordAt
  rw [aligning]
  rfl

theorem badWordAt_falls {s : State} {l : LinkId} (up : (s.link l).state = .up) (many : 8 ≤ (s.link l).badRun + 1) :
    s.badWordAt l = (s.modLink l fun k => k.badWord.ageWindows).linkDown l .badWords := by
  have run : ¬((s.modLink l fun k => k.badWord.ageWindows).link l).badRun < 8 := by
    rw [modLink_self]
    exact Nat.not_lt.mpr many
  unfold State.badWordAt
  rw [up]
  exact if_neg run

/-- Settles O45: light and words by the state of the link, and the fall from UP. -/
theorem wordsAndLightMoveTheLink : Obligations.WordsAndLightMoveTheLink := by
  intro l s runs
  refine ⟨exec_lightPresentChange runs l true, fun down => ?_, fun aligning => ?_, fun up => ?_, fun w =>
    ⟨fun dark => ?_, fun light bad => ⟨fun down => ?_, fun aligning few => ?_, fun aligning many => ?_,
      fun up idle few => ?_, fun up many => ?_⟩, fun g light good => ⟨fun down => ?_, fun aligning few => ?_,
      fun aligning last => ?_⟩⟩⟩
  · rw [exec_lightPresentChange runs, State.lightChange, down]
    rfl
  · rw [exec_lightPresentChange runs, State.lightChange, aligning]
    have fails := modLink_modLink s l (fun k => { k with light := false }) fun k => k.alignFails k.badRun
    exact congrArg Host.Outcome.next fails
  · refine ⟨_, exec_lightPresentChange runs l false, ?_⟩
    have falls := linkDown_falls (s.modLink l fun _ => { s.link l with light := false }) l .noLight
    rw [modLink_self] at falls
    rw [State.lightChange, up]
    exact falls.of_modLink
  · rw [exec_linkWord runs, State.takeWord, dark]
    rfl
  · rw [linkWord_bad runs light bad, badWordAt_down down]
  · rw [linkWord_bad runs light bad, badWordAt_aligning aligning]
    exact congrArg _ (modLink_congr (if_pos few))
  · rw [linkWord_bad runs light bad, badWordAt_aligning aligning]
    exact congrArg _ (modLink_congr (if_neg (Nat.not_lt.mpr many)))
  · rw [linkWord_bad runs light bad, badWordAt_up up few, takeData_unbroken (by rw [modLink_self]; exact idle)]
    rfl
  · refine ⟨_, linkWord_bad runs light bad, ?_⟩
    rw [badWordAt_falls up many]
    have falls := linkDown_falls (s.modLink l fun _ => (s.link l).badWord.ageWindows) l .badWords
    rw [modLink_self] at falls
    exact falls.of_modLink
  all_goals rw [linkWord_good runs light good, State.goodWordAt]
  · rw [down]
  · rw [aligning]
    exact congrArg _ (if_pos few)
  · rw [aligning]
    exact congrArg _ (if_neg (by omega))

end Sys2Proof.Machine

/-! The transmitter of a link: the signal of highest rank among those that may go, and the data of the transfer under way or of
the lowest queued segment (07 R135, R138, R139, R152). -/

namespace Sys2Proof.Machine

/-! ## Arbitration (07 R138) -/

theorem arbitrate_candidate {start : Instant} {l : List PendingSignal} {e : PendingSignal} (h : arbitrate start l = some e) :
    e ∈ l ∧ e.candidate start = true := by
  induction l generalizing e with
  | nil => cases h
  | cons x rest ih =>
    rw [arbitrate] at h
    split at h
    · next b best =>
      split at h
      · next first =>
        obtain rfl := Option.some.inj h
        exact ⟨List.mem_cons_self, (Bool.and_eq_true_iff.mp first).1⟩
      · obtain rfl := Option.some.inj h
        obtain ⟨member, candidate⟩ := ih best
        exact ⟨List.mem_cons_of_mem _ member, candidate⟩
    · split at h
      · next candidate =>
        obtain rfl := Option.some.inj h
        exact ⟨List.mem_cons_self, candidate⟩
      · cases h

theorem arbitrate_none {start : Instant} {l : List PendingSignal} (idle : ∀ e ∈ l, e.candidate start = false) :
    arbitrate start l = none := by
  cases found : arbitrate start l with
  | none => rfl
  | some e =>
    obtain ⟨member, candidate⟩ := arbitrate_candidate found
    rw [idle e member] at candidate
    cases candidate

/-- No candidate ranks before the one chosen. -/
theorem arbitrate_least {start : Instant} {l : List PendingSignal} {x : PendingSignal} (member : x ∈ l)
    (candidate : x.candidate start = true) : ∃ e, arbitrate start l = some e ∧ e.signal.rank ≤ x.signal.rank := by
  induction l with
  | nil => simp at member
  | cons y rest ih =>
    rw [arbitrate]
    obtain rfl | later := List.mem_cons.mp member
    · rw [candidate]
      cases arbitrate start rest with
      | none => exact ⟨x, rfl, le_rfl⟩
      | some b =>
        by_cases first : x.signal.rank ≤ b.signal.rank
        · exact ⟨x, by simp [first], le_rfl⟩
        · exact ⟨b, by simp [first], by omega⟩
    · obtain ⟨b, best, below⟩ := ih later
      rw [best]
      dsimp only
      split
      · next first =>
        have before := of_decide_eq_true (Bool.and_eq_true_iff.mp first).2
        exact ⟨y, rfl, le_trans before below⟩
      · exact ⟨b, rfl, below⟩

theorem arbitrate_first {start : Instant} {l : List PendingSignal} {e : PendingSignal} (member : e ∈ l)
    (candidate : e.candidate start = true)
    (first : ∀ x ∈ l, x.candidate start = true → x = e ∨ e.signal.rank < x.signal.rank) : arbitrate start l = some e := by
  obtain ⟨b, best, below⟩ := arbitrate_least member candidate
  obtain ⟨listed, may⟩ := arbitrate_candidate best
  obtain rfl | later := first b listed may
  · exact best
  · omega

/-! ## What the signals become when one is sent (07 R138, R139) -/

section after

variable {e x : PendingSignal} {start : Instant}

theorem PendingSignal.after_self (again : 1 < e.repeats) : e.after e start = some { e with repeats := e.repeats - 1 } := by
  rw [PendingSignal.after, if_pos rfl, if_pos again]

theorem PendingSignal.after_last (last : e.repeats ≤ 1) : e.after e start = none := by
  rw [PendingSignal.after, if_pos rfl, if_neg (by omega)]

theorem PendingSignal.after_late (other : x.signal ≠ e.signal) (due : x.due ≠ none) (may : x.candidate start = true) :
    x.after e start = some { x with late := true } := by
  rw [PendingSignal.after, if_neg other, may, Option.isSome_iff_ne_none.mpr due]
  rfl

theorem PendingSignal.after_stands (other : x.signal ≠ e.signal) (waits : x.due = none ∨ x.candidate start = false) :
    x.after e start = some x := by
  rw [PendingSignal.after, if_neg other, if_neg]
  obtain undated | early := waits
  · rw [undated]
    nofun
  · rw [early, Bool.and_false]
    nofun

theorem PendingSignal.after_signal {y : PendingSignal} (becomes : x.after e start = some y) : y.signal = x.signal := by
  unfold PendingSignal.after at becomes
  split at becomes
  · split at becomes
    · rw [← Option.some.inj becomes]
    · cases becomes
  · split at becomes
    · rw [← Option.some.inj becomes]
    · rw [Option.some.inj becomes]

end after

/-! ## The two slots of a word -/

section slots

variable (k : SectionLink) (start : Instant) (outgoing : Fin 16 → File Byte 16)

theorem SectionLink.sendSignal_frame : (k.sendSignal start).1 =
    { k with
      pendingSet := (k.sendSignal start).1.pendingSet, beaconOutstanding := (k.sendSignal start).1.beaconOutstanding } := by
  unfold SectionLink.sendSignal
  split <;> rfl

theorem SectionLink.sendData_frame : (k.sendData outgoing).1 =
    { k with queued := (k.sendData outgoing).1.queued, transfer := (k.sendData outgoing).1.transfer } := by
  unfold SectionLink.sendData
  cases transfer : k.transfer with
  | some x => rfl
  | none =>
    cases k.nextSegment with
    | some n => rfl
    | none => rfl

variable {k start outgoing}

theorem SectionLink.sendData_congr {j : SectionLink} (transfer : j.transfer = k.transfer) (queued : j.queued = k.queued) :
    (j.sendData outgoing).1.queued = (k.sendData outgoing).1.queued ∧
      (j.sendData outgoing).1.transfer = (k.sendData outgoing).1.transfer ∧
      (j.sendData outgoing).2 = (k.sendData outgoing).2 := by
  have next : j.nextSegment = k.nextSegment := by rw [SectionLink.nextSegment, queued, SectionLink.nextSegment]
  unfold SectionLink.sendData
  rw [transfer, next]
  cases under : k.transfer with
  | some x => exact ⟨queued, rfl, rfl⟩
  | none =>
    cases k.nextSegment with
    | some n => exact ⟨by rw [queued], rfl, rfl⟩
    | none => exact ⟨queued, transfer, rfl⟩

theorem SectionLink.sendSignal_none (idle : ∀ e ∈ k.pendingSet, e.candidate start = false) : k.sendSignal start = (k, 0) := by
  unfold SectionLink.sendSignal
  rw [arbitrate_none idle]

theorem SectionLink.sendSignal_some {e : PendingSignal} (chosen : arbitrate start k.pendingSet = some e) :
    k.sendSignal start = ({ k with
      pendingSet := k.pendingSet.filterMap fun x => x.after e start,
      beaconOutstanding := if e.signal = .beacon then some start else k.beaconOutstanding }, e.signal.codeOut e.late) := by
  unfold SectionLink.sendSignal
  rw [chosen]

theorem SectionLink.sendData_transfer {x : Transfer} (under : k.transfer = some x) : k.sendData outgoing =
    ({ k with transfer := if x.sent + 1 < 21 then some { x with sent := x.sent + 1 } else none }, x.slot) := by
  unfold SectionLink.sendData
  rw [under]

theorem SectionLink.nextSegment_none (empty : ∀ n, k.queued.get n = false) : k.nextSegment = none := by
  unfold SectionLink.nextSegment
  exact List.find?_eq_none.mpr fun n _ => by rw [empty n]; nofun

theorem SectionLink.sendData_idle (none' : k.transfer = none) (empty : ∀ n, k.queued.get n = false) :
    k.sendData outgoing = (k, .idle) := by
  unfold SectionLink.sendData
  rw [none', SectionLink.nextSegment_none empty]

theorem SectionLink.nextSegment_some {n : Fin 16} (queued : k.queued.get n = true) (lower : ∀ m, m < n → k.queued.get m = false) :
    k.nextSegment = some n := by
  have listed : ([0, 1, 2, 3, 4, 5, 6, 7, 8, 9, 10, 11, 12, 13, 14, 15] : List (Fin 16)) = List.finRange 16 := by decide
  unfold SectionLink.nextSegment
  rw [listed, List.find?_eq_some_iff_getElem]
  refine ⟨queued, n.val, by simp, by simp, fun j below => ?_⟩
  rw [lower _ (by simpa [Fin.lt_def] using below)]
  rfl

theorem SectionLink.sendData_begins {n : Fin 16} (none' : k.transfer = none) (next : k.nextSegment = some n) :
    k.sendData outgoing = ({ k with
      queued := k.queued.set n false, transfer := some { number := n, bytes := outgoing n, sent := 1 } }, .segStart) := by
  unfold SectionLink.sendData
  rw [none', next]
  rfl

end slots

/-! ## A word sent (07 R135) -/

theorem exec_linkWordTransmit {s : State} {l : LinkId} (runs : s.resetLine = false) (due : (s.link l).nextWord ≤ s.now) :
    exec (.linkWordTransmit l) s = .next (s.transmit l) := by
  show execLinkWordTransmit l s = _
  unfold execLinkWordTransmit
  rw [live_next runs, if_pos due]

/-- The record of a link once a word of signal and data has been sent. -/
def SectionLink.wordSent (k : SectionLink) (outgoing : Fin 16 → File Byte 16) : SectionLink :=
  let x := k.sendSignal k.nextWord
  let y := x.1.sendData outgoing
  { y.1 with nextWord := k.nextWord + 10, lastWord := { code := x.2, data := y.2 } }

/-- The two slots touch different fields, so the word's signal and its data are those of the link as it stood. -/
theorem SectionLink.wordSent_eq (k : SectionLink) (outgoing : Fin 16 → File Byte 16) : k.wordSent outgoing = { k with
    nextWord := k.nextWord + 10, lastWord := { code := (k.sendSignal k.nextWord).2, data := (k.sendData outgoing).2 },
    pendingSet := (k.sendSignal k.nextWord).1.pendingSet,
    beaconOutstanding := (k.sendSignal k.nextWord).1.beaconOutstanding,
    queued := (k.sendData outgoing).1.queued, transfer := (k.sendData outgoing).1.transfer } := by
  have signal := k.sendSignal_frame k.nextWord
  have same : (k.sendSignal k.nextWord).1.transfer = k.transfer ∧ (k.sendSignal k.nextWord).1.queued = k.queued := by
    rw [signal]
    exact ⟨rfl, rfl⟩
  obtain ⟨queued, transfer, data⟩ := SectionLink.sendData_congr (outgoing := outgoing) same.1 same.2
  unfold SectionLink.wordSent
  dsimp only
  rw [SectionLink.sendData_frame, queued, transfer, data, signal]

theorem transmit_up {s : State} {l : LinkId} (up : (s.link l).state = .up) :
    s.transmit l = s.modLink l fun _ => (s.link l).wordSent (s.outgoingBytes l) := modLink_congr (if_pos up)

/-- Settles O47. -/
theorem transmitterSendsAWord : Obligations.TransmitterSendsAWord := by
  intro l s runs due
  have run := exec_linkWordTransmit runs due
  refine ⟨fun down => run.trans (congrArg _ (modLink_congr (if_neg down))), fun up => ?_⟩
  rw [transmit_up up, SectionLink.wordSent_eq] at run
  refine ⟨_, run, rfl, fun idle => ?_, fun e member may first => ?_, fun x under => ?_, fun none' empty => ?_,
    fun n none' queued lower => ?_⟩
  · rw [SectionLink.sendSignal_none idle]
    exact ⟨rfl, rfl, rfl⟩
  · rw [SectionLink.sendSignal_some (arbitrate_first member may first)]
    have becomes {x y : PendingSignal} (listed : x ∈ (s.link l).pendingSet) (after : x.after e (s.link l).nextWord = some y) :
        y ∈ (s.link l).pendingSet.filterMap fun x => x.after e (s.link l).nextWord :=
      List.mem_filterMap.mpr ⟨x, listed, after⟩
    refine ⟨rfl, fun beacon => if_pos beacon, fun other => if_neg other,
      fun again => becomes member (PendingSignal.after_self again), fun last only y left same => ?_,
      fun x listed other => ⟨fun due may => becomes listed (PendingSignal.after_late other due may),
        fun waits => becomes listed (PendingSignal.after_stands other waits)⟩⟩
    obtain ⟨x, listed, after⟩ := List.mem_filterMap.mp left
    obtain rfl := only x listed ((PendingSignal.after_signal after).symm.trans same)
    rw [PendingSignal.after_last last] at after
    cases after
  · rw [SectionLink.sendData_transfer under]
    exact ⟨rfl, rfl, rfl⟩
  · rw [SectionLink.sendData_idle none' empty]
    exact ⟨rfl, rfl, none'⟩
  · rw [SectionLink.sendData_begins none' (SectionLink.nextSegment_some queued lower)]
    exact ⟨rfl, rfl, rfl⟩

end Sys2Proof.Machine

/-! A mains crossing in LOCKED, the crossing watch and the ticks (06 R106 to R108), and the gate ring and the firing angle
that they drive (06 R111 to R116). -/

namespace Sys2Proof.Machine

/-! ## The gate ring (06 R111, R112) -/

theorem inPair_iff (k g : Fin 12) : InPair k g ↔ g = (pairOf k).1 ∨ g = (pairOf k).2 := by
  simp only [InPair, pairOf, Fin.ext_iff]

/-- No two steps of a cycle fall at one tick. -/
theorem stepTick_injective (c : CycleValues) : Function.Injective (stepTick c) := by
  intro i j same
  have := i.isLt
  have := j.isLt
  unfold stepTick at same
  exact Fin.ext (by omega)

theorem mem_twelve (k : Fin 12) : k ∈ twelve := by
  revert k
  decide

namespace Rectifier

/-- With a step at the tick, the counter moves the ring and pulses the pair of that step. -/
theorem beginTick_of_step {r : Rectifier} {c : CycleValues} {tick : Nat} {k : Fin 12} (cycle : r.cycle = some c)
    (falls : stepTick c k = tick) :
    r.beginTick tick =
      { r with ring := k.val, gates := (r.gates.set (pairOf k).1 20).set (pairOf k).2 20 } := by
  have found : (twelve.find? fun s => c.tickOf s = tick) = some k := by
    cases search : twelve.find? fun s => c.tickOf s = tick with
    | none =>
      have missed := List.find?_eq_none.mp search k (mem_twelve k)
      exact absurd (decide_eq_true falls) missed
    | some j =>
      have hit : stepTick c j = tick := of_decide_eq_true (List.find?_some search :)
      rw [stepTick_injective c (hit.trans falls.symm)]
  simp only [beginTick, cycle, found]

theorem beginTick_of_none {r : Rectifier} {tick : Nat}
    (misses : ∀ v k, r.cycle = some v → stepTick v k ≠ tick) : r.beginTick tick = r := by
  cases cycle : r.cycle with
  | none => simp only [beginTick, cycle]
  | some c =>
    have none' : (twelve.find? fun s => c.tickOf s = tick) = none :=
      List.find?_eq_none.mpr fun k _ falls => misses c k cycle (of_decide_eq_true falls)
    simp only [beginTick, cycle, none']

/-- Whatever the cycle, a boundary and then the beginning of a tick move the ring and the gates as the ring does. -/
theorem beginTick_begins (old r : Rectifier) (tick : Nat) (ring : r.ring = old.ring)
    (gates : r.gates = old.gates.map fun n => n - 1) : BeginsTick old (r.beginTick tick) r.cycle tick := by
  refine ⟨fun v k cycle falls => ?step, fun misses => ?still⟩
  case step =>
    rw [beginTick_of_step cycle falls]
    refine ⟨rfl, fun g => ?_⟩
    rw [inPair_iff]
    dsimp only
    rw [File.get_set, File.get_set, gates, File.get_map]
    grind
  case still =>
    rw [beginTick_of_none misses, gates]
    exact ⟨ring, fun g => File.get_map ..⟩

/-- A tick begun moves the ring and the gates only. -/
theorem beginTick_frame (r : Rectifier) (tick : Nat) :
    r.beginTick tick = { r with ring := (r.beginTick tick).ring, gates := (r.beginTick tick).gates } := by
  unfold beginTick
  split
  · split <;> rfl
  · rfl

theorem overridden_iff (r : Rectifier) :
    r.overridden = true ↔ (∃ f, r.retard.get f = true) ∨ r.overvoltageHold ≠ none ∨ r.measurementHold = true := by
  have marked : r.faultRetard = true ↔ ∃ f, r.retard.get f = true := by
    rw [faultRetard, List.any_eq_true]
    exact ⟨fun ⟨x, member, set⟩ => (File.mem_cells.mp member).imp fun f found => found.trans set,
      fun ⟨f, set⟩ => ⟨_, File.mem_cells.mpr ⟨f, rfl⟩, set⟩⟩
  rw [overridden, Bool.or_eq_true, Bool.or_eq_true, marked, Option.isSome_iff_ne_none, or_assoc]

end Rectifier

/-! ## The firing angle (06 R115, R116) -/

theorem nextAlpha_eq (s : State) : nextAlpha s.station s.rect = s.newAngle := by
  unfold nextAlpha State.newAngle
  simp only [Bool.or_eq_true, s.rect.overridden_iff]
  rfl

/-- The Rectifier Record of a cycle begun: the angle, and the cycle values. -/
def State.newCycle (s : State) : Rectifier :=
  { s.rect.tickBoundary with
    applied := s.newAngle, firstCycle := false,
    cycle := some { offset := s.station.referenceOffset, alpha := s.newAngle } }

theorem State.cycleNotice_of_running {s : State} (running : s.rect.state = .running) :
    s.cycleNotice = { s with rect := s.newCycle.beginTick 0 } := by
  have started : s.rect.tickBoundary.cycleStart s.station = s.newCycle.beginTick 0 := by
    rw [State.newCycle, ← nextAlpha_eq]
    exact if_pos running
  rw [State.cycleNotice, State.modRect, started]

theorem State.cycleNotice_of_other {s : State} (other : s.rect.state ≠ .running) :
    s.cycleNotice = { s with rect := s.rect.tickBoundary } := by
  have started : s.rect.tickBoundary.cycleStart s.station = s.rect.tickBoundary := if_neg other
  rw [State.cycleNotice, State.modRect, started]

/-- A cycle start in RUNNING takes the new angle and begins tick 0 of the new cycle; in another state the pulses in
progress have one boundary less. -/
theorem State.cycleNotice_begins (s : State) :
    ∃ r, s.cycleNotice = { s with rect := r } ∧
      (s.rect.state = .running →
        r = { s.rect with
          applied := s.newAngle, firstCycle := false, ring := r.ring, gates := r.gates,
          cycle := some { offset := s.station.referenceOffset, alpha := s.newAngle } } ∧
        BeginsTick s.rect r r.cycle 0) ∧
      (s.rect.state ≠ .running → r = { s.rect with gates := r.gates } ∧ BeginsTick s.rect r none 0) := by
  by_cases running : s.rect.state = .running
  · have frame := s.newCycle.beginTick_frame 0
    have begins : BeginsTick s.rect (s.newCycle.beginTick 0) s.newCycle.cycle 0 :=
      Rectifier.beginTick_begins s.rect s.newCycle 0 rfl rfl
    have cycle : (s.newCycle.beginTick 0).cycle = s.newCycle.cycle := by rw [frame]
    exact ⟨_, State.cycleNotice_of_running running, fun _ => ⟨frame, cycle ▸ begins⟩,
      fun other => absurd running other⟩
  · exact ⟨_, State.cycleNotice_of_other running, fun yes => absurd yes running,
      fun _ => ⟨rfl, (fun _ _ none' => nomatch none'), fun _ => ⟨rfl, fun g => File.get_map ..⟩⟩⟩

/-! ## The UNLOCKED notice (06 R113, R121) -/

theorem OnlyRectifierInside.unlockedNotice (s : State) (cause : ClockCause) :
    OnlyRectifierInside s (s.unlockedNotice cause) := by
  unfold State.unlockedNotice
  split
  · exact ((modRect ..).trans (rectEntry ..)).trans (rectToRunners _)
  · exact modRect ..

theorem State.unlockedNotice_takes (s : State) (cause : ClockCause) :
    TakesUnlocked s (s.unlockedNotice cause) cause := by
  refine ⟨fun running => ?running, fun other => ?other⟩
  case running =>
    rw [show s.unlockedNotice cause = _ from if_pos running]
    refine ⟨rectView.rectToRunners _, AddsEntry.later ?_ (Quiet.refl _).rectToRunners.grows⟩
    exact (AddsEntry.add (s.modRect _) ..).mono fun e ⟨kind, subject, origin, detail, _, value, _⟩ =>
      ⟨kind, subject, origin, detail, fun small => value (inField_nat (by omega))⟩
  case other =>
    rw [show s.unlockedNotice cause = _ from if_neg other]
    rfl

/-! ## ZERO_CROSSING and CROSSING_WATCH_EXPIRY (06 R106, R107) -/

section track

variable {s : State} {last p m : Nat}

theorem State.crossing_of_locked (locked : s.clock.state = .locked) (before : s.clock.lastCrossing = some last)
    (held : s.clock.period = some p) : s.crossing = s.track last ((s.now - last) / 100) p := by
  simp only [State.crossing, locked, before, held, inUs, Option.getD_some]

theorem State.track_of_outside (outside : m < 18000 ∨ 22000 < m) :
    s.track last m p =
      ((s.crossingAt .acquiring none 0 [] none).rectEntry .syncLost .protection (.syncLost .window)
        (some (cap31 m : Int))).unlockedNotice .window := by
  have fails : ¬inWindow m = true := by
    rw [inWindow_iff]
    omega
  simp only [State.track, fails, Bool.not_false, if_true]

theorem State.track_of_inside (inside : inWindow m = true) :
    s.track last m p =
      if slips (deviation s.now last p) s.clock.deviations then
        ((s.crossingAt .acquiring (some m) 0 [] none).rectEntry .syncSlip
          (value1 := some (deviation s.now last p)) (value2 := s.clock.deviations.head?)).unlockedNotice .slip
      else
        (s.crossingAt .locked (some m) s.clock.accepted ((deviation s.now last p :: s.clock.deviations).take 2)
          (some 0)).cycleNotice := by
  simp only [State.track, inside, Bool.not_true, Bool.false_eq_true, if_false]

end track

theorem slips_iff (d : Int) (older : List Int) :
    slips d older = true ↔ ∃ d', older.head? = some d' ∧ 4 < d.natAbs ∧ 4 < d'.natAbs := by
  cases older with
  | nil => simp [slips]
  | cons d' rest => simp [slips]

/-- A loss of lock: a clock record in place of the old one, the entry that says why, and the UNLOCKED notice. -/
theorem State.loseLock (s : State) (clock : LineClock) (kind : EventKind) (detail : Detail) (v w : Option Int)
    (cause : ClockCause) {t : State}
    (lost : t = (State.rectEntry { s with clock := clock } kind .protection detail v w).unlockedNotice cause) :
    OnlyRectifierInside s t ∧ t.clock = clock ∧ TakesUnlocked s t cause ∧
      AddsEntry s t fun e => e.kind = kind ∧ e.subject = .rectifier ∧ e.origin = .protection ∧ e.detail = detail ∧
        (inField v = true → e.value1 = v) ∧ (inField w = true → e.value2 = w) := by
  let before : State := { s with clock := clock }
  let entered : State := before.rectEntry kind .protection detail v w
  have added : AddsEntry before entered _ := AddsEntry.add before kind .rectifier .protection detail v w none
  have grows : Grows s.events entered.events := Grows.addEntry before ..
  have noticed : Quiet entered (entered.unlockedNotice cause) := (Quiet.refl _).unlockedNotice cause
  obtain ⟨running, other⟩ := entered.unlockedNotice_takes cause
  have kept : OnlyRectifierInside s entered :=
    .trans (show OnlyRectifierInside s before from ⟨rfl, rfl, rfl⟩) (.rectEntry before ..)
  subst lost
  refine ⟨kept.trans (.unlockedNotice entered cause), noticed.clock, ⟨fun runs => ?_, other⟩, ?_⟩
  · exact (running runs).imp_right fun notes => notes.earlier grows
  · refine AddsEntry.later (t := entered) (added.mono fun e ⟨kind, subject, origin, detail, _, values⟩ => ?_)
      noticed.grows
    exact ⟨kind, subject, origin, detail, values⟩

/-- Settles O41: outside the window or on a slip the lock is lost, which `State.loseLock` says once for both and for the
watch that runs out; else the crossing starts a cycle. -/
theorem crossingsInLock : Obligations.CrossingsInLock := by
  intro s runs
  refine ⟨fun last p m locked before held measured => ?_, fun w watch due => ?watch⟩
  · rw [exec_zeroCrossing runs, State.crossing_of_locked locked before held, ← measured]
    refine ⟨fun outside => ?window, fun d above below deviates => ?_⟩
    case window =>
      rw [State.track_of_outside outside, State.crossingAt_eq]
      obtain ⟨kept, clock, notice, entry⟩ := s.loseLock _ .syncLost (.syncLost .window) (some (cap31 m : Int)) none
        .window rfl
      exact ⟨_, rfl, kept, clock, notice, entry.mono fun e ⟨kind, subject, origin, detail, value, _⟩ =>
        ⟨kind, subject, origin, detail, value (inField_nat (by unfold cap31; omega))⟩⟩
    have same : deviation s.now last p = d := deviates.symm
    rw [State.track_of_inside (inWindow_iff.mpr ⟨above, below⟩), same]
    refine ⟨fun d' newest far far' => ?slip, fun near => ?cycle⟩
    case slip =>
      rw [if_pos ((slips_iff ..).mpr ⟨d', newest, far, far'⟩), State.crossingAt_eq, newest]
      obtain ⟨kept, clock, notice, entry⟩ := s.loseLock _ .syncSlip .nothing (some d) (some d') .slip rfl
      exact ⟨_, rfl, kept, clock, notice, entry.mono fun e ⟨kind, subject, origin, _, values⟩ =>
        ⟨kind, subject, origin, values⟩⟩
    case cycle =>
      have stays : ¬slips d s.clock.deviations = true := by
        rw [slips_iff]
        rintro ⟨d', newest, far, far'⟩
        have := near d' newest
        omega
      rw [if_neg stays, State.crossingAt_eq]
      obtain ⟨r, begun, running, other⟩ := State.cycleNotice_begins { s with
        clock := s.clockTaken .locked (some m) s.clock.accepted ((d :: s.clock.deviations).take 2) (some 0) }
      exact ⟨r, congrArg _ begun, running, other⟩
  case watch =>
    have out : exec .crossingWatchExpiry s = .next s.watchOut := by
      show execCrossingWatchExpiry s = _
      unfold execCrossingWatchExpiry
      rw [live_next runs, if_pos (by simpa [State.reached, watch] using due)]
    rw [out]
    by_cases locked : s.clock.state = .locked
    · obtain ⟨kept, clock, notice, entry⟩ := s.loseLock LineClock.reset .syncLost (.syncLost .timeout) none none
        .timeout (t := s.watchOut) (if_pos locked)
      exact ⟨_, rfl, kept, clock, fun _ => notice, fun other => absurd locked other,
        entry.mono fun e ⟨kind, subject, origin, detail, value, _⟩ => ⟨kind, subject, origin, detail, value rfl⟩⟩
    · rw [show s.watchOut = _ from if_neg locked]
      have added := AddsEntry.add { s with clock := LineClock.reset } .syncLost .rectifier .protection
        (.syncLost .timeout) none none none
      refine ⟨_, rfl, ⟨rfl, rfl, rfl⟩, rfl, fun yes => absurd yes locked, fun _ => rfl, ?_⟩
      exact added.mono fun e ⟨kind, subject, origin, detail, _, value, _⟩ =>
        ⟨kind, subject, origin, detail, value rfl⟩

/-! ## TICK (06 R108) -/

theorem State.tickDue_eq {s : State} {n p t0 : Nat} (tick : s.clock.tick = some n) (period : s.clock.period = some p)
    (last : s.clock.lastCrossing = some t0) :
    s.tickDue = if n < 719 then some (t0 + ((n + 1) * (p / 720) + min (n + 1) (p % 720)) * 100) else none := by
  simp only [State.tickDue, tick, period, last, us, tickEnd]

theorem exec_tick {s : State} {n : Nat} (runs : s.resetLine = false) (tick : s.clock.tick = some n) :
    exec .tick s = .next (if s.reached s.tickDue then s.advanceTick n else s) := by
  show execTick s = _
  unfold execTick
  rw [live_next runs, tick]

/-- Settles O42: a tick due advances the counter and begins the next one in the ring; before its end, and in the last
one, nothing happens. -/
theorem ticksStepTheRing : Obligations.TicksStepTheRing := by
  intro s n p t0 runs tick period last
  rw [exec_tick runs tick, State.tickDue_eq tick period last]
  refine ⟨fun held => ?_, fun short early => ?_, fun short due => ?_⟩
  · rw [if_neg (Nat.not_lt.mpr held)]
    rfl
  · rw [if_pos short, if_neg (by simpa [State.reached] using early)]
  · rw [if_pos short, if_pos (by simpa [State.reached] using due)]
    have frame := s.rect.tickBoundary.beginTick_frame (n + 1)
    exact ⟨_, rfl, frame, Rectifier.beginTick_begins s.rect s.rect.tickBoundary (n + 1) rfl rfl⟩

end Sys2Proof.Machine

/-! The requests to the rectifier: SET ALPHA, START, STOP and RESET RECTIFIER (06 R114, R119, R125, R127). -/

namespace Sys2Proof.Machine

/-! ## The checks of the requests -/

theorem State.anyBreakerFailed_iff (s : State) : s.anyBreakerFailed = true ↔ s.someFailed := by
  unfold State.anyBreakerFailed State.someFailed
  rw [List.any_eq_true]
  constructor
  · rintro ⟨r, member, failed⟩
    obtain ⟨f, rfl⟩ := File.mem_cells.mp member
    rw [Bool.and_eq_true, beq_iff_eq] at failed
    exact ⟨f, failed⟩
  · rintro ⟨f, failed⟩
    refine ⟨s.feeder f, File.mem_cells.mpr ⟨f, rfl⟩, ?_⟩
    rw [Bool.and_eq_true, beq_iff_eq]
    exact failed

section checks

variable {s : State}

theorem State.startCheck_of_state (busy : s.rect.state ≠ .blocked ∨ s.rect.acOperation ≠ none) :
    s.startCheck = some .state := by
  unfold State.startCheck
  by_cases state : s.rect.state ≠ .blocked
  · rw [if_pos state]
  · rw [if_neg state, if_pos (Option.isSome_iff_ne_none.mpr (busy.resolve_left state))]

section blockedIdle

variable (blocked : s.rect.state = .blocked) (idle : s.rect.acOperation = none)
include blocked idle

theorem State.startCheck_of_failed (failed : s.someFailed) : s.startCheck = some .breakerFailed := by
  simp [State.startCheck, blocked, idle, (State.anyBreakerFailed_iff s).mpr failed]

theorem State.startCheck_of_position (sound : ¬s.someFailed) :
    s.startCheck =
      if s.acPosition = .opened then none
      else if s.acPosition = .invalid then some .positionInvalid
      else some .state := by
  have checks : s.anyBreakerFailed = false := by simpa using mt (State.anyBreakerFailed_iff s).mp sound
  cases position : s.acPosition <;> simp [State.startCheck, blocked, idle, checks, position]

end blockedIdle

theorem State.resetCheck_of_state (other : s.rect.state ≠ .tripped) : s.resetCheck = some .state := if_pos other

theorem State.resetCheck_of_failed (tripped : s.rect.state = .tripped) (failed : s.someFailed) :
    s.resetCheck = some .breakerFailed := by
  simp [State.resetCheck, tripped, (State.anyBreakerFailed_iff s).mpr failed]

theorem State.resetCheck_of_position (tripped : s.rect.state = .tripped) (sound : ¬s.someFailed) :
    s.resetCheck =
      if s.acPosition = .opened ∧ s.rect.acOperation = none then none
      else if s.acPosition = .invalid then some .positionInvalid
      else some .state := by
  simp [State.resetCheck, tripped, mt (State.anyBreakerFailed_iff s).mp sound]

end checks

/-! ## What the requests do -/

section changes

variable (s : State) (o : Origin)

theorem OnlyRectifierInside.startRect : OnlyRectifierInside s (s.startRect o) :=
  ((modRect ..).trans (rectEntry ..)).trans (rectToRunners _)

theorem OnlyRectifierInside.resetRect : OnlyRectifierInside s (s.resetRect o) :=
  ((modRect ..).trans (rectEntry ..)).trans (rectToRunners _)

theorem OnlyRectifierInside.stopRect : OnlyRectifierInside s (s.stopRect o) := by
  unfold State.stopRect
  dsimp only
  split
  · exact (((modRect ..).trans (modRect ..)).trans (rectEntry ..)).trans (rectToRunners _)
  · split
    · exact (modRect ..).trans (rectEntry ..)
    · exact refl s

theorem State.startRect_starts :
    (s.startRect o).rect = { s.rect with
      state := .connecting, runOrigin := o,
      acOperation := some
        { kind := .close, origin := o, startAt := s.now, deadline := s.now + 20000000, overdue := false } } ∧
    AddsEntry s (s.startRect o) fun e => e.kind = .rectifierStart ∧ e.subject = .rectifier ∧ e.origin = o ∧
      (s.rect.target ≤ 719 → e.value1 = some (s.rect.target : Int)) := by
  refine ⟨rectView.rectToRunners _, AddsEntry.later ?_ (Quiet.refl _).rectToRunners.grows⟩
  exact (AddsEntry.add (s.modRect _) ..).mono fun e ⟨kind, subject, origin, _, _, value, _⟩ =>
    ⟨kind, subject, origin, fun small => value (inField_nat (by omega))⟩

theorem State.resetRect_resets :
    (s.resetRect o).rect = { s.rect with state := .blocked } ∧
    AddsEntry s (s.resetRect o) fun e => e.kind = .rectifierReset ∧ e.subject = .rectifier ∧ e.origin = o := by
  refine ⟨rectView.rectToRunners _, AddsEntry.later ?_ (Quiet.refl _).rectToRunners.grows⟩
  exact (AddsEntry.add (s.modRect _) ..).mono fun e ⟨kind, subject, origin, _⟩ => ⟨kind, subject, origin⟩

theorem RectState.code_small (x : RectState) : inField (some (x.code : Int)) = true := by
  cases x <;> decide

/-- What a stop adds (06 R125). -/
def StopsWithEntry (s t : State) (o : Origin) : Prop :=
  AddsEntry s t fun e => e.kind = .rectifierStopped ∧ e.subject = .rectifier ∧ e.origin = o ∧
    e.value1 = some (s.rect.state.code : Int)

variable {s}

theorem State.stopRect_of_started
    (started : s.rect.state = .connecting ∨ s.rect.state = .syncing ∨ s.rect.state = .running) :
    (s.stopRect o).rect = { s.rect.quiet with
      state := .blocked, applied := s.station.alphaMax, acOperation := s.acOpening o } ∧
    StopsWithEntry s (s.stopRect o) o := by
  have runs : s.rect.state.started = true := by
    rcases started with state | state | state <;> rw [state] <;> rfl
  rw [show s.stopRect o = _ from if_pos runs]
  refine ⟨rectView.rectToRunners _, AddsEntry.later ?_ (Quiet.refl _).rectToRunners.grows⟩
  exact (AddsEntry.add ((s.modRect _).openAc o) ..).mono fun e ⟨kind, subject, origin, _, _, value, _⟩ =>
    ⟨kind, subject, origin, value (RectState.code_small _)⟩

variable (stopped : s.rect.state = .blocked ∨ s.rect.state = .tripped)
include stopped

theorem State.stopRect_of_stopped :
    s.stopRect o =
      if s.rect.acOperation.isNone && s.acPosition != .opened then
        (s.openAc o).rectEntry .rectifierStopped o (value1 := some (s.rect.state.code : Int))
      else s := by
  unfold State.stopRect
  rcases stopped with state | state <;> rw [state] <;> rfl

theorem State.stopRect_of_idle (idle : s.rect.acOperation = none) (other : s.acPosition ≠ .opened) :
    (s.stopRect o).rect = { s.rect with acOperation := s.acOpening o } ∧ StopsWithEntry s (s.stopRect o) o := by
  rw [State.stopRect_of_stopped o stopped, if_pos (by simp [idle, other])]
  refine ⟨rfl, ?_⟩
  exact (AddsEntry.add (s.openAc o) ..).mono fun e ⟨kind, subject, origin, _, _, value, _⟩ =>
    ⟨kind, subject, origin, value (RectState.code_small _)⟩

theorem State.stopRect_of_open (done' : s.rect.acOperation ≠ none ∨ s.acPosition = .opened) : s.stopRect o = s := by
  rw [State.stopRect_of_stopped o stopped, if_neg]
  rcases done' with busy | opened
  · simp [busy]
  · simp [opened]

end changes

/-! ## The answer of a request carried out -/

/-- A request of the holder that reaches the rectifier only: with the lease of R renewed and the answer sent, all else of
the state stands as it did. -/
theorem OnlyRectifierInside.answered {s u : State} {p : Port} {h : Holding} (kind tag : Byte) (st : Status)
    (inside : OnlyRectifierInside (s.dropBuffer p) u) (held : s.holding .rectifier = some h) {t : State}
    (answer : t = (u.renewItems [.rectifier]).answered p kind tag st .empty) :
    OnlyRectifier s t ∧ Responds s t p kind tag st .empty ∧ RenewsRectifier s t h ∧ t.rect = u.rect ∧
      t.events = u.events ∧ t.choices = u.choices := by
  obtain ⟨only, ports, authority⟩ := inside
  unfold OnlyRectifier at only
  have now : u.now = s.now := by rw [only]; rfl
  have station : u.station = s.station := by rw [only]; rfl
  have holding (i : Item) : u.holding i = s.holding i := congrArg (fun a => a.entries.get i.index) authority
  have renewed := renewItems_only u [.rectifier]
  have responds := responds_answered (s := s) (t := u.renewItems [.rectifier]) p kind tag st .empty
    (by rw [renewed]; exact ports)
  have renews (i : Item) := renewItems_holding u [.rectifier] i
  have location : (u.renewItems [.rectifier]).authority.location = u.authority.location := by rw [renewed]
  subst answer
  refine ⟨?_, responds, ⟨fun i other => ?_, ?_, ?_⟩, ?_, ?_, ?_⟩
  · rw [renewed]
    generalize (u.renewItems [.rectifier]).authority.entries = entries
    unfold OnlyRectifier
    rw [only]
    rfl
  · exact ((renews i).trans (if_neg (by simpa using other))).trans (holding i)
  · exact location.trans (congrArg AuthorityTable.location authority)
  · refine (renews .rectifier).trans ?_
    rw [if_pos (List.mem_singleton_self _), holding, held, now, station]
    rfl
  all_goals rw [renewed]; rfl

/-! ## The four requests -/

section requests

variable {s : State} {p : Port} {kind tag : Byte}

theorem readEmpty_nil : readEmpty [] = some () := rfl

theorem exec_setAlpha (p : Port) (s : State) :
    exec (.setAlpha p) s = takeRequest p 0x22 (withArgs readAngle (handleSetAlpha p)) s := rfl

theorem exec_startRectifier (p : Port) (s : State) :
    exec (.startRectifier p) s = takeRequest p 0x20 (withArgs readEmpty (handleStart p)) s := rfl

theorem exec_stopRectifier (p : Port) (s : State) :
    exec (.stopRectifier p) s = takeRequest p 0x21 (withArgs readEmpty (handleStop p)) s := rfl

theorem exec_resetRectifier (p : Port) (s : State) :
    exec (.resetRectifier p) s = takeRequest p 0x23 (withArgs readEmpty (handleReset p)) s := rfl

theorem rectifierRequest_refused {c : Instr} (offers : s.offers p kind tag [])
    (commands : kind = 0x20#8 ∧ c = .startRectifier p ∨ kind = 0x21#8 ∧ c = .stopRectifier p ∨
      kind = 0x23#8 ∧ c = .resetRectifier p) : RefusedByTheTable s p kind tag .rectifier c := by
  rcases commands with ⟨rfl, rfl⟩ | ⟨rfl, rfl⟩ | ⟨rfl, rfl⟩
  · exact refusedByTheTable offers (exec_startRectifier p s) (by rw [withArgs_reads _ readEmpty_nil]; rfl)
  · exact refusedByTheTable offers (exec_stopRectifier p s) (by rw [withArgs_reads _ readEmpty_nil]; rfl)
  · exact refusedByTheTable offers (exec_resetRectifier p s) (by rw [withArgs_reads _ readEmpty_nil]; rfl)

theorem readAngle_of_small {hi lo : Byte} (small : hi.toNat * 256 + lo.toNat ≤ 719) :
    readAngle [hi, lo] = some (hi.toNat * 256 + lo.toNat) := if_pos small

theorem readAngle_of_large {hi lo : Byte} (large : 719 < hi.toNat * 256 + lo.toNat) : readAngle [hi, lo] = none :=
  if_neg (Nat.not_le.mpr large)

/-! ### For the holder of R -/

variable {h : Holding} (inside : ¬Excludes s.authority.location p) (held : s.holding .rectifier = some h)
  (own : h.holder = p)
include inside held own

/-- A request of the holder is asked of the rectifier, and renews the lease if it is carried out. -/
theorem holdersRequest_asks (ask : State → Answer) :
    withAuthority p false [.rectifier] ask (s.dropBuffer p) = renewing [.rectifier] (ask (s.dropBuffer p)) :=
  withAuthority_held (s := s.dropBuffer p) inside held own

theorem startRectifier_of_check {cause : InterlockCause} (offers : s.offers p 0x20 tag [])
    (fails : s.startCheck = some cause) : exec (.startRectifier p) s =
      .next ((s.dropBuffer p).answered p 0x20 tag (.refused (.interlocked cause)) .empty) := by
  refine takeRequest_refused offers ?_
  rw [withArgs_reads _ readEmpty_nil, handleStart, holdersRequest_asks inside held own]
  rw [show (s.dropBuffer p).startCheck = some cause from fails]
  rfl

theorem resetRectifier_of_check {cause : InterlockCause} (offers : s.offers p 0x23 tag [])
    (fails : s.resetCheck = some cause) : exec (.resetRectifier p) s =
      .next ((s.dropBuffer p).answered p 0x23 tag (.refused (.interlocked cause)) .empty) := by
  refine takeRequest_refused offers ?_
  rw [withArgs_reads _ readEmpty_nil, handleReset, holdersRequest_asks inside held own]
  rw [show (s.dropBuffer p).resetCheck = some cause from fails]
  rfl

theorem startRectifier_starts (offers : s.offers p 0x20 tag []) (passes : s.startCheck = none) :
    exec (.startRectifier p) s =
      .next ((((s.dropBuffer p).startRect (.port p)).renewItems [.rectifier]).answered p 0x20 tag .accepted .empty) := by
  refine takeRequest_accepted offers ?_
  rw [withArgs_reads _ readEmpty_nil, handleStart, holdersRequest_asks inside held own]
  rw [show (s.dropBuffer p).startCheck = none from passes]
  rfl

theorem resetRectifier_resets (offers : s.offers p 0x23 tag []) (passes : s.resetCheck = none) :
    exec (.resetRectifier p) s =
      .next ((((s.dropBuffer p).resetRect (.port p)).renewItems [.rectifier]).answered p 0x23 tag .done .empty) := by
  refine takeRequest_done offers ?_
  rw [withArgs_reads _ readEmpty_nil, handleReset, holdersRequest_asks inside held own]
  rw [show (s.dropBuffer p).resetCheck = none from passes]
  rfl

theorem stopRectifier_stops (offers : s.offers p 0x21 tag []) :
    exec (.stopRectifier p) s =
      .next ((((s.dropBuffer p).stopRect (.port p)).renewItems [.rectifier]).answered p 0x21 tag .done .empty) := by
  refine takeRequest_done offers ?_
  rw [withArgs_reads _ readEmpty_nil, handleStop, holdersRequest_asks inside held own]
  rfl

theorem setAlpha_sets {hi lo : Byte} (offers : s.offers p 0x22 tag [hi, lo])
    (small : hi.toNat * 256 + lo.toNat ≤ 719) :
    exec (.setAlpha p) s =
      .next ((((s.dropBuffer p).setTarget (hi.toNat * 256 + lo.toNat)).renewItems [.rectifier]).answered p 0x22 tag
        .done .empty) := by
  refine takeRequest_done offers ?_
  rw [withArgs_reads _ (readAngle_of_small small), handleSetAlpha, holdersRequest_asks inside held own]
  rfl

end requests

/-- An entry added stands in every later state with the same record of events. -/
theorem AddsEntry.of_answered {s u v t : State} {P : Entry → Prop} (added : AddsEntry u v P) (before : u.events = s.events)
    (after : t.events = v.events) : AddsEntry s t P := by
  unfold AddsEntry at *
  rw [after, ← before]
  exact added

/-- Settles O43: the table's refusals, the bad argument, and for the holder of R the checks in their order and what each
request does, with the lease renewed by `OnlyRectifierInside.answered`. -/
theorem rectifierRequests : Obligations.RectifierRequests := by
  intro p tag s
  refine ⟨fun kind c offers commands => rectifierRequest_refused offers commands, fun hi lo offers => ⟨fun large => ?_,
    fun small => ?_⟩, fun h inside held own => ⟨fun hi lo offers small => ?setAlpha, fun offers => ?start,
    fun offers => ?stop, fun offers => ?reset⟩⟩
  · exact takeRequest_refused offers (withArgs_fails _ (readAngle_of_large large))
  · exact refusedByTheTable offers (exec_setAlpha p s) ((withArgs_reads _ (readAngle_of_small small)).trans (by unfold handleSetAlpha; rfl))
  case setAlpha =>
    obtain ⟨only, responds, renews, rect, events, -⟩ := OnlyRectifierInside.answered 0x22 tag .done
      (.modRect (s.dropBuffer p) _) held rfl
    exact ⟨_, setAlpha_sets inside held own offers small, only, responds, renews, events, rect⟩
  case start =>
    refine ⟨fun busy => startRectifier_of_check inside held own offers (State.startCheck_of_state busy),
      fun blocked idle => ⟨fun failed => ?_, fun sound position => ?_, fun sound position => ?_,
        fun sound position => ?_⟩⟩
    · exact startRectifier_of_check inside held own offers (State.startCheck_of_failed blocked idle failed)
    · exact startRectifier_of_check inside held own offers
        (by rw [State.startCheck_of_position blocked idle sound, position]; rfl)
    · exact startRectifier_of_check inside held own offers
        (by rw [State.startCheck_of_position blocked idle sound, position]; rfl)
    · have passes : s.startCheck = none := by
        rw [State.startCheck_of_position blocked idle sound, if_pos position]
      obtain ⟨only, responds, renews, rect, events, -⟩ := OnlyRectifierInside.answered 0x20 tag .accepted
        (.startRect (s.dropBuffer p) (.port p)) held rfl
      obtain ⟨starts, entry⟩ := (s.dropBuffer p).startRect_starts (.port p)
      exact ⟨_, startRectifier_starts inside held own offers passes, only, responds, renews, rect.trans starts,
        entry.of_answered rfl events⟩
  case stop =>
    have stops := stopRectifier_stops inside held own offers
    obtain ⟨only, responds, renews, rect, events, -⟩ := OnlyRectifierInside.answered 0x21 tag .done
      (.stopRect (s.dropBuffer p) (.port p)) held rfl
    refine ⟨fun started => ?_, fun stopped => ⟨fun idle other => ?_, fun rests => ?_⟩⟩
    · obtain ⟨record, entry⟩ := State.stopRect_of_started (s := s.dropBuffer p) (.port p) started
      exact ⟨_, stops, only, responds, renews, rect.trans record, entry.of_answered rfl events⟩
    · obtain ⟨record, entry⟩ := State.stopRect_of_idle (s := s.dropBuffer p) (.port p) stopped idle other
      exact ⟨_, stops, only, responds, renews, rect.trans record, entry.of_answered rfl events⟩
    · have stands := State.stopRect_of_open (s := s.dropBuffer p) (.port p) stopped rests
      have same : ((s.dropBuffer p).stopRect (.port p)).rect = s.rect := by rw [stands]; rfl
      have still : ((s.dropBuffer p).stopRect (.port p)).events = s.events := by rw [stands]; rfl
      exact ⟨_, stops, only, responds, renews, rect.trans same, events.trans still⟩
  case reset =>
    refine ⟨fun other => resetRectifier_of_check inside held own offers (State.resetCheck_of_state other),
      fun tripped => ⟨fun failed => ?_, fun sound position => ?_, fun sound position => ?_,
        fun sound position idle => ?_⟩⟩
    · exact resetRectifier_of_check inside held own offers (State.resetCheck_of_failed tripped failed)
    · exact resetRectifier_of_check inside held own offers
        (by rw [State.resetCheck_of_position tripped sound, position]; rfl)
    · refine resetRectifier_of_check inside held own offers ?_
      rw [State.resetCheck_of_position tripped sound]
      rcases position with closed | ⟨opened, busy⟩
      · rw [closed]
        rfl
      · rw [opened, if_neg fun passes => busy passes.2]
        rfl
    · have passes : s.resetCheck = none := by
        rw [State.resetCheck_of_position tripped sound, if_pos ⟨position, idle⟩]
      obtain ⟨only, responds, renews, rect, events, -⟩ := OnlyRectifierInside.answered 0x23 tag .done
        (.resetRect (s.dropBuffer p) (.port p)) held rfl
      obtain ⟨resets, entry⟩ := (s.dropBuffer p).resetRect_resets (.port p)
      exact ⟨_, resetRectifier_resets inside held own offers passes, only, responds, renews, rect.trans resets,
        entry.of_answered rfl events⟩

end Sys2Proof.Machine

/-! The AC breaker: its debounced position, its two deadlines, and the release of the overvoltage hold (06 R117, R120,
R123, R125, R126). -/

namespace Sys2Proof.Machine

/-! ## The debounced position of the AC breaker -/

section acPosition

variable (s : State)

/-- The AC position taken into effect reaches its input, the entries and the free counter only. -/
theorem takePosition_ac_frame : s.takePosition .ac = { s with
    acInput := s.acInput.take s.now, events := (s.takePosition .ac).events,
    choices := (s.takePosition .ac).choices } := by
  unfold State.takePosition
  dsimp only
  split <;> rfl

theorem takePosition_ac_inside : OnlyRectifierInside s (s.takePosition .ac) := by
  rw [takePosition_ac_frame]
  exact ⟨rfl, rfl, rfl⟩

end acPosition

/-! ## A change of the AC position (06 R120, R123, R126) -/

section acPositionChange

variable {s : State} {op : AcOperation}

theorem acPositionChange_closes (operation : s.rect.acOperation = some op) (close : op.kind = .close) :
    s.acPositionChange .closed = s.acClosed op := by
  unfold State.acPositionChange
  rw [operation]
  exact if_pos close

theorem acPositionChange_opens (operation : s.rect.acOperation = some op) (opening : op.kind = .opening) :
    s.acPositionChange .opened = s.acOpened op := by
  unfold State.acPositionChange
  rw [operation]
  exact if_neg (by rw [opening]; decide)

theorem acPositionChange_falls (lost : (∃ op, s.rect.acOperation = some op ∧ op.kind = .close) ∨
    (s.rect.acOperation = none ∧
      (s.rect.state = .connecting ∨ s.rect.state = .syncing ∨ s.rect.state = .running))) :
    s.acPositionChange .opened = s.acOpenedUncommanded := by
  unfold State.acPositionChange
  rcases lost with ⟨op, operation, close⟩ | ⟨idle, started⟩
  · rw [operation]
    exact if_pos close
  · rw [idle]
    refine if_pos ?_
    rcases started with state | state | state <;> rw [state] <;> rfl

theorem acPositionChange_intrudes (wrong : (∃ op, s.rect.acOperation = some op ∧ op.kind = .opening) ∨
    (s.rect.acOperation = none ∧ (s.rect.state = .blocked ∨ s.rect.state = .tripped))) :
    s.acPositionChange .closed = s.acClosedUncommanded := by
  unfold State.acPositionChange
  rcases wrong with ⟨op, operation, opening⟩ | ⟨idle, stopped⟩
  · rw [operation]
    exact if_neg (by rw [opening]; decide)
  · rw [idle]
    refine if_neg ?_
    rcases stopped with state | state <;> rw [state] <;> decide

theorem acPositionChange_invalid : s.acPositionChange .invalid = s := by
  unfold State.acPositionChange
  cases s.rect.acOperation <;> rfl

theorem acPositionChange_expected (idle : s.rect.acOperation = none) {x : Position}
    (fits : (x = .opened ∧ (s.rect.state = .blocked ∨ s.rect.state = .tripped)) ∨
      (x = .closed ∧ (s.rect.state = .syncing ∨ s.rect.state = .running))) : s.acPositionChange x = s := by
  unfold State.acPositionChange
  rcases fits with ⟨rfl, state | state⟩ | ⟨rfl, state | state⟩ <;> rw [idle, state] <;> rfl

end acPositionChange

/-! ## What the changes do -/

section changes

variable (s : State)

theorem msSince_eq (t : Instant) : s.msSince t = (s.now - t) / 100000 := rfl

theorem OnlyRectifierInside.enterSyncing : OnlyRectifierInside s s.enterSyncing := by
  unfold State.enterSyncing
  dsimp only
  split
  · exact (modRect ..).trans (enterRunning _)
  · exact (modRect ..).trans (rectToRunners _)

theorem OnlyRectifierInside.acPositionChange (x : Position) : OnlyRectifierInside s (s.acPositionChange x) := by
  have opens : OnlyRectifierInside s s.acOpenedUncommanded :=
    ((modRect ..).trans (rectEntry ..)).trans (rectToRunners _)
  unfold State.acPositionChange
  split
  · split
    · exact ((modRect ..).trans (rectEntry ..)).trans (enterSyncing _)
    · exact rectEntry ..
  · split
    · exact opens
    · exact (modRect ..).trans (rectEntry ..)
  · split
    · exact opens
    · exact refl s
  · split
    · exact refl s
    · exact rectEntry ..
  · exact refl s

/-- SYNCING at an unlocked Line Clock, RUNNING at once at a locked one. -/
theorem State.enterSyncing_enters :
    (s.clock.state = .locked → EntersRunning s s.enterSyncing { s.rect with state := .syncing }) ∧
    (s.clock.state ≠ .locked → s.enterSyncing.rect = { s.rect with state := .syncing }) := by
  refine ⟨fun locked => ?_, fun other => ?_⟩
  · rw [show s.enterSyncing = _ from if_pos locked]
    exact (s.modRect fun r => { r with state := .syncing }).enterRunning_enters
  · rw [show s.enterSyncing = _ from if_neg other]
    exact rectView.rectToRunners _

theorem State.enterRunning_grows : Grows s.events s.enterRunning.events := by
  unfold State.enterRunning
  refine Grows.trans ?_ (Quiet.refl _).rectToRunners.grows
  exact Grows.addEntry (s.modRect _) ..

theorem State.enterSyncing_grows : Grows s.events s.enterSyncing.events := by
  unfold State.enterSyncing
  dsimp only
  split
  · exact (s.modRect fun r => { r with state := .syncing }).enterRunning_grows
  · exact (Quiet.refl (s.modRect fun r => { r with state := .syncing })).rectToRunners.grows

theorem State.acClosed_closes (op : AcOperation) :
    (AddsEntry s (s.acClosed op) fun e => e.kind = .acClosed ∧ e.subject = .rectifier ∧ e.origin = .protection ∧
      ((s.now - op.startAt) / 100000 < 2147483648 →
        e.value1 = some (((s.now - op.startAt) / 100000 : Nat) : Int))) ∧
    (s.clock.state = .locked →
      EntersRunning s (s.acClosed op) { s.rect with acOperation := none, state := .syncing }) ∧
    (s.clock.state ≠ .locked → (s.acClosed op).rect = { s.rect with acOperation := none, state := .syncing }) := by
  let cleared : State := s.modRect fun r => { r with acOperation := none }
  let entered : State := cleared.rectEntry .acClosed (value1 := some (s.msSince op.startAt : Int))
  have added : AddsEntry s entered _ :=
    AddsEntry.add cleared .acClosed .rectifier .protection .nothing (some (s.msSince op.startAt : Int)) none none
  obtain ⟨locked, other⟩ := entered.enterSyncing_enters
  refine ⟨AddsEntry.later (t := entered) (added.mono fun e ⟨kind, subject, origin, _, _, value, _⟩ => ?_)
    entered.enterSyncing_grows, fun locks => ?_, other⟩
  · exact ⟨kind, subject, origin, fun small => value (inField_nat small)⟩
  · exact (locked locks).imp_right fun notes => notes.earlier (Grows.addEntry cleared ..)

theorem State.acOpenedUncommanded_opens :
    s.acOpenedUncommanded.rect = { s.rect.quiet with
      state := .blocked, applied := s.station.alphaMax, acOperation := none } ∧
    AddsEntry s s.acOpenedUncommanded fun e => e.kind = .acOpenedUncommanded ∧ e.subject = .rectifier ∧
      e.origin = .protection ∧ (inField s.sample.last.values.ir = true → e.value1 = s.sample.last.values.ir) := by
  refine ⟨rectView.rectToRunners _, AddsEntry.later ?_ (Quiet.refl _).rectToRunners.grows⟩
  exact (AddsEntry.add (s.modRect _) ..).mono fun e ⟨kind, subject, origin, _, _, value, _⟩ =>
    ⟨kind, subject, origin, value⟩

theorem State.acOpened_opens (op : AcOperation) :
    (s.acOpened op).rect = { s.rect with acOperation := none } ∧
    AddsEntry s (s.acOpened op) fun e => e.kind = .acOpened ∧ e.subject = .rectifier ∧ e.origin = op.origin ∧
      ((s.now - op.startAt) / 100000 < 2147483648 →
        e.value1 = some (((s.now - op.startAt) / 100000 : Nat) : Int)) :=
  ⟨rfl, (AddsEntry.add (s.modRect _) ..).mono fun _ ⟨kind, subject, origin, _, _, value, _⟩ =>
    ⟨kind, subject, origin, fun small => value (inField_nat small)⟩⟩

theorem State.acCloseFailed_fails :
    s.acCloseFailed.rect = { s.rect.quiet with
      state := .blocked, applied := s.station.alphaMax, acOperation := none } ∧
    AddsEntry s s.acCloseFailed fun e => e.kind = .acCloseFailed ∧ e.subject = .rectifier ∧ e.origin = .protection ∧
      e.value1 = some 200 ∧ e.value2 = some (s.acPosition.code : Int) := by
  refine ⟨rectView.rectToRunners _, AddsEntry.later ?_ (Quiet.refl _).rectToRunners.grows⟩
  exact (AddsEntry.add (s.modRect _) ..).mono fun e ⟨kind, subject, origin, _, _, value1, value2⟩ =>
    ⟨kind, subject, origin, value1 (by decide), value2 (by cases s.acPosition <;> decide)⟩

end changes

/-! ## AC_CLOSE_DEADLINE, AC_OPEN_DEADLINE and OVERVOLTAGE_RELEASE -/

section deadlines

variable {s : State} {op : AcOperation}

theorem State.acDue_of (operation : s.rect.acOperation = some op) (fresh : op.overdue = false)
    (due : op.deadline ≤ s.now) : s.acDue op.kind = some op := by
  unfold State.acDue
  rw [operation]
  exact if_pos ⟨rfl, fresh, due⟩

variable (runs : s.resetLine = false)
include runs

theorem exec_acCloseDeadline (isDue : s.acDue .close = some op) : exec .acCloseDeadline s = .next s.acCloseFailed := by
  show execAcCloseDeadline s = _
  unfold execAcCloseDeadline
  rw [live_next runs, isDue]

theorem exec_acOpenDeadline (isDue : s.acDue .opening = some op) : exec .acOpenDeadline s = .next (s.acOverdue op) := by
  show execAcOpenDeadline s = _
  unfold execAcOpenDeadline
  rw [live_next runs, isDue]

theorem exec_overvoltageRelease {t0 r : Instant} (hold : s.rect.overvoltageHold = some t0)
    (since : s.rect.releaseSince = some r) (due : r + 2000000 ≤ s.now) :
    exec .overvoltageRelease s = .next (State.addEntry
      { s with rect := { s.rect with overvoltageHold := none, releaseSince := none } } .overvoltageRelease .rectifier
      .protection .nothing (some (((s.now - t0) / 100000 : Nat) : Int))) := by
  have stood : r + ms 20 ≤ s.now := by unfold ms; omega
  have isDue : s.releaseDue = true := by simp [State.releaseDue, State.reached, hold, since, stood]
  show execOvervoltageRelease s = _
  unfold execOvervoltageRelease
  rw [live_next runs, if_pos isDue, hold]
  rfl

end deadlines

/-- An AC position that changes is handed on unless it is the first and no operation awaits it. -/
theorem acBreakerPosition_later {u : State} {first : Bool} {x : Position}
    (told : first = false ∨ u.rect.awaits x = true) : u.acBreakerPosition first x = u.acPositionChange x := by
  unfold State.acBreakerPosition
  rcases told with known | awaited
  · simp [known]
  · simp [awaited]

theorem acBreakerPosition_first {u : State} {x : Position}
    (unawaited : ∀ op, u.rect.acOperation = some op →
      (op.kind = .close ∧ x = .opened) ∨ (op.kind = .opening ∧ x = .closed)) :
    u.acBreakerPosition true x = u := by
  unfold State.acBreakerPosition
  have silent : u.rect.awaits x = false := by
    unfold Rectifier.awaits
    split
    next op operation => rcases unawaited op operation with ⟨kind, rfl⟩ | ⟨kind, rfl⟩ <;> rw [kind] <;> rfl
    · rfl
  rw [silent]
  rfl

theorem Rectifier.awaits_close {r : Rectifier} {op : AcOperation} (operation : r.acOperation = some op)
    (close : op.kind = .close) : r.awaits .closed = true := by
  simp [Rectifier.awaits, operation, close]

theorem Rectifier.awaits_opening {r : Rectifier} {op : AcOperation} (operation : r.acOperation = some op)
    (opening : op.kind = .opening) : r.awaits .opened = true := by
  simp [Rectifier.awaits, operation, opening]

theorem acBreakerHolds_position {s : State} {x : Position} (reading : x = s.acInput.reading) :
    s.debounced .ac = (s.takePosition .ac).acBreakerPosition s.acInput.position.isNone x := by
  subst reading
  rfl

/-- Settles O44: the position reaches the Firing Unit with the rectifier as it stood, and each row of 06 R120, R123 and
R126 is one branch of `State.acPositionChange`; then the two deadlines, and the release of the hold. -/
theorem acBreakerAndHolds : Obligations.AcBreakerAndHolds := by
  intro s runs
  refine ⟨fun x reading moved stood => ?position, fun op operation close fresh due => ?closes,
    fun op operation opening fresh due => ?opens, fun t0 r hold since due => exec_overvoltageRelease runs hold since due⟩
  case closes =>
    have isDue : s.acDue .close = some op := close ▸ State.acDue_of operation fresh due
    refine ⟨_, exec_acCloseDeadline runs isDue, ?_, s.acCloseFailed_fails⟩
    exact ((OnlyRectifierInside.modRect ..).trans (.rectEntry ..)).trans (.rectToRunners _)
  case opens =>
    have isDue : s.acDue .opening = some op := opening ▸ State.acDue_of operation fresh due
    exact exec_acOpenDeadline runs isDue
  case position =>
    have run := exec_positionDebounceExpiry (b := .ac) runs (reading ▸ moved) stood
    rw [acBreakerHolds_position reading] at run
    have silent : s.acInput.reported = false → (s.takePosition .ac).events = s.events := takePosition_events (b := .ac)
    have grows := takePosition_grows s .ac
    obtain ⟨events, choices, frame⟩ : ∃ events choices, s.takePosition .ac =
      { s with acInput := s.acInput.take s.now, events := events, choices := choices } :=
      ⟨_, _, takePosition_ac_frame s⟩
    rw [frame] at run silent grows
    generalize taken : ({ s with acInput := s.acInput.take s.now, events := events, choices := choices } : State) = u
      at *
    have rect : u.rect = s.rect := by subst taken; rfl
    have inside : OnlyRectifierInside s (u.acBreakerPosition s.acInput.position.isNone x) := by
      have taken' : OnlyRectifierInside s u := by subst taken; exact ⟨rfl, rfl, rfl⟩
      unfold State.acBreakerPosition
      split
      · exact taken'
      · exact taken'.trans (.acPositionChange u x)
    refine ⟨_, run, inside, fun op operation close closed => ?_, fun op operation opening opened => ?_,
      fun known opened lost => ?_, fun known closed wrong => ?_, fun still => ?_⟩
    · rw [closed, acBreakerPosition_later (.inr (rect ▸ Rectifier.awaits_close operation close)),
        acPositionChange_closes (rect ▸ operation) close]
      obtain ⟨entry, locked, other⟩ := u.acClosed_closes op
      subst taken
      exact ⟨entry.earlier grows, fun locks => (locked locks).imp_right fun notes => notes.earlier grows, other⟩
    · rw [opened, acBreakerPosition_later (.inr (rect ▸ Rectifier.awaits_opening operation opening)),
        acPositionChange_opens (rect ▸ operation) opening]
      obtain ⟨record, entry⟩ := u.acOpened_opens op
      subst taken
      exact ⟨record, entry.earlier grows⟩
    · rw [opened, acBreakerPosition_later (.inl (by simpa [Option.isSome_iff_ne_none] using known)), acPositionChange_falls (rect ▸ lost)]
      obtain ⟨record, entry⟩ := u.acOpenedUncommanded_opens
      subst taken
      exact ⟨record, entry.earlier grows⟩
    · rw [closed, acBreakerPosition_later (.inl (by simpa [Option.isSome_iff_ne_none] using known)), acPositionChange_intrudes (rect ▸ wrong)]
      have added := AddsEntry.add u .acClosedUncommanded .rectifier .protection (.rectState u.rect.state) none none none
      refine ⟨rect, AddsEntry.earlier (t := u) (added.mono fun e ⟨kind, subject, origin, detail, _⟩ => ?_) grows⟩
      exact ⟨kind, subject, origin, rect ▸ detail⟩
    · have same : u.acBreakerPosition s.acInput.position.isNone x = u := by
        rcases still with invalid | ⟨first, unawaited⟩ | ⟨idle, fits⟩
        · rw [invalid, State.acBreakerPosition, acPositionChange_invalid, ite_self]
        · rw [first]
          exact acBreakerPosition_first (rect ▸ unawaited)
        · rw [State.acBreakerPosition, acPositionChange_expected (rect ▸ idle) (rect ▸ fits), ite_self]
      rw [same]
      exact ⟨rect, silent⟩

end Sys2Proof.Machine

/-! Station time: the second boundary, the slew step, SET TIME and TIME RESTART (08 R159, R161 to R163). -/

namespace Sys2Proof.Machine

/-! ## A rise of station time (08 R159) -/

section rise

variable {t : TimeBase} {n : Nat}

theorem rise_of_within (within : t.now.fraction + n < 100000000) :
    t.rise n = { t with now := { t.now with fraction := t.now.fraction + n } } := if_pos within

theorem rise_of_boundary (reaches : 100000000 ≤ t.now.fraction + n) (more : t.now.seconds ≠ 4294967295) :
    t.rise n =
      { t with now := { t.now with fraction := 99999999 }, boundary := some (t.now.fraction + n - 100000000) } := by
  unfold TimeBase.rise
  dsimp only
  rw [if_neg (Nat.not_lt.mpr reaches), if_neg more]

theorem rise_of_last (reaches : 100000000 ≤ t.now.fraction + n) (last : t.now.seconds = 4294967295) :
    t.rise n = { t with now := { t.now with fraction := 99999999 } } := by
  unfold TimeBase.rise
  dsimp only
  rw [if_neg (Nat.not_lt.mpr reaches), if_pos last]

end rise

/-! ## SECOND_BOUNDARY and SLEW_STEP -/

section steps

variable {s : State} (runs : s.resetLine = false)
include runs

theorem exec_secondBoundary {n : Nat} (boundary : s.time.boundary = some n) :
    exec .secondBoundary s = .next { s with
      time := s.time.carry n, links := s.links.map fun k => k.post .secondMark (some s.now) } := by
  show execSecondBoundary s = _
  unfold execSecondBoundary
  rw [live_next runs, boundary]

theorem exec_slewStep {k : Int} (slew : s.time.slew = some k) (remains : k ≠ 0) (due : 2000 ≤ s.time.slewCount) :
    exec .slewStep s = .next { s with time := s.time.slewStep k } := by
  have isDue : s.time.slewDue = true := by simp [TimeBase.slewDue, TimeBase.slewing, slew, remains, due]
  show execSlewStep s = _
  unfold execSlewStep
  rw [live_next runs, slew]
  exact congrArg _ (if_pos isDue)

end steps

/-- The Time Base with slew remaining one unit nearer to 0, before the rise of the step. -/
def TimeBase.slewTaken (t : TimeBase) (k : Int) : TimeBase :=
  { t with slew := if k.natAbs = 1 then none else some (if 0 < k then k - 1 else k + 1), slewCount := 0 }

theorem slewStep_eq {t : TimeBase} {k : Int} :
    t.slewStep k = (t.slewTaken k).rise (if 0 < k then 0 else 2) := by
  have last : ((if 0 < k then k - 1 else k + 1) = 0) = (k.natAbs = 1) := by
    apply propext
    split <;> omega
  unfold TimeBase.slewStep TimeBase.slewTaken
  simp only [last]

theorem slewStep_ahead {t : TimeBase} {k : Int} (ahead : 0 < k) : t.slewStep k = (t.slewTaken k).rise 0 := by
  rw [slewStep_eq, if_pos ahead]

theorem slewStep_behind {t : TimeBase} {k : Int} (behind : k < 0) : t.slewStep k = (t.slewTaken k).rise 2 := by
  rw [slewStep_eq, if_neg (by omega)]

/-! ## SET TIME and TIME RESTART (08 R161, R162) -/

theorem readTime_of_large {a b c d e f g h : Byte} (large : 99999999 < be32 e f g h) :
    readTime [a, b, c, d, e, f, g, h] = none := if_neg (Nat.not_le.mpr large)

theorem readTime_of_small {a b c d e f g h : Byte} {v : StationTime} (seconds : v.seconds = be32 a b c d)
    (fraction : v.fraction = be32 e f g h) (small : v.fraction ≤ 99999999) :
    readTime [a, b, c, d, e, f, g, h] = some v := by
  obtain ⟨_, _⟩ := v
  subst seconds fraction
  exact if_pos small

section handleSetTime

variable {s : State} {p : Port} {v : StationTime}

theorem handleSetTime_of_follower (other : s.station.timeRole ≠ .master) :
    handleSetTime p v s = refuse (.interlocked .state) s := if_pos other

variable (master : s.station.timeRole = .master)
include master

theorem handleSetTime_of_earlier (earlier : v.units < s.time.now.units) (set : s.time.quality ≠ .unset) :
    handleSetTime p v s = refuse .timeBackwards s := by
  unfold handleSetTime
  rw [if_neg (not_not.mpr master), if_pos ⟨earlier, set⟩]

theorem handleSetTime_of_later (later : s.time.now.units ≤ v.units ∨ s.time.quality = .unset) :
    handleSetTime p v s = done (s.setTime p v) := by
  unfold handleSetTime
  rw [if_neg (not_not.mpr master), if_neg fun ⟨earlier, set⟩ =>
    later.elim (fun k => absurd earlier (Nat.not_lt.mpr k)) set]

end handleSetTime

/-- The links with the System segment queued where that is due (08 R160). -/
def State.linksTold (s : State) (due : Prop) [Decidable due] : File SectionLink 2 :=
  if due then s.links.map fun k => k.queue 0 else s.links

theorem State.linksTold_due {s x : State} {due : Prop} [Decidable due] (isDue : due) (links : x.links = s.linksTold due) :
    QueuesSystem s x := queueSystem_queues s x (links.trans (if_pos isDue))

/-- The Time Base that SET TIME leaves. -/
def TimeBase.setTo (t : TimeBase) (v : StationTime) : TimeBase :=
  { t with now := v, boundary := none, nextMark := v.seconds + 1, slew := none, slewCount := 0, quality := .free }

theorem State.setTime_eq (s : State) (p : Port) (v : StationTime) :
    s.setTime p v = State.addEntry { s with
        time := s.time.setTo v, links := s.linksTold (s.time.quality ≠ .free) }
      .timeSet .nothing (.port p) .nothing (some (s.time.now.seconds : Int))
      (some (max (-2147483647) (min (((v.units : Int) - s.time.now.units).tdiv 100000) 2147483647))) := by
  unfold State.setTime State.linksTold TimeBase.setTo
  rw [setQuality_eq]
  dsimp only [TimeBase.setNow]
  rw [ite_not]
  rfl

/-- The Time Base that TIME RESTART leaves. -/
def TimeBase.restarted (t : TimeBase) : TimeBase := { t.slewOver with quality := .unset, follow := .following }

theorem State.restartTime_eq (s : State) (p : Port) :
    s.restartTime p = State.addEntry { s with
        time := s.time.restarted,
        links := s.linksTold (s.time.quality ≠ .unset ∨ s.time.follow ≠ .following) }
      .timeRestart .nothing (.port p) (.quality s.time.quality) := by
  unfold State.restartTime State.linksTold TimeBase.restarted
  rw [endSlew_eq]
  dsimp only
  by_cases same : s.time.quality = .unset ∧ s.time.follow = .following
  · rw [if_pos same, if_neg (by rw [same.1, same.2]; simp)]
  · rw [if_neg same, if_pos (by tauto)]
    rfl

theorem mark_posted (s : State) (l : LinkId) :
    (s.links.map fun k => k.post .secondMark (some s.now)).get l.index =
      if (s.link l).state = .up then (s.link l).taking .secondMark 1 (some s.now) else s.link l := by
  rw [File.get_map]
  split
  next up => exact post_taking _ up _ rfl _
  next down => exact if_pos down

/-- Settles O51. -/
theorem timeIsCountedSlewedAndSet : Obligations.TimeIsCountedSlewedAndSet := by
  refine ⟨fun s runs => ⟨fun n boundary => ?boundary, fun k x slew remains due taken => ?slew⟩, fun p tag s =>
    ⟨fun a b c d e f g h v offers seconds fraction => ?set, fun offers => ?restart⟩⟩
  case boundary => exact ⟨_, exec_secondBoundary runs boundary, rfl, mark_posted s⟩
  case slew =>
    have taken : x = s.time.slewTaken k := taken
    subst taken
    rw [exec_slewStep runs slew remains due]
    refine ⟨fun ahead within => ?_, fun behind within => ?_, fun behind reaches more => ?_,
      fun behind reaches last => ?_⟩
    · rw [slewStep_ahead ahead, rise_of_within (t := s.time.slewTaken k) within]
      rfl
    · rw [slewStep_behind behind, rise_of_within (t := s.time.slewTaken k) within]
      rfl
    · rw [slewStep_behind behind, rise_of_boundary (t := s.time.slewTaken k) reaches more]
      rfl
    · rw [slewStep_behind behind, rise_of_last (t := s.time.slewTaken k) reaches last]
      rfl
  case set =>
    have run : exec (.setTime p) s = takeRequest p 0x40 (withArgs readTime (handleSetTime p)) s := rfl
    rw [run]
    refine ⟨fun large => ?_, fun small other => ?_, fun small master earlier set => ?_, fun small master later => ?_⟩
    · exact takeRequest_refused offers (withArgs_fails _ (readTime_of_large (fraction ▸ large)))
    all_goals have reads := readTime_of_small seconds fraction small
    · exact takeRequest_refused offers
        ((withArgs_reads _ reads).trans (handleSetTime_of_follower (s := s.dropBuffer p) other))
    · exact takeRequest_refused offers
        ((withArgs_reads _ reads).trans (handleSetTime_of_earlier (s := s.dropBuffer p) master earlier set))
    · have done' := takeRequest_done (handle := withArgs readTime (handleSetTime p)) offers
        ((withArgs_reads _ reads).trans (handleSetTime_of_later (s := s.dropBuffer p) master later))
      rw [State.setTime_eq] at done'
      exact ⟨{ s with links := s.linksTold (s.time.quality ≠ .free) }, done', fun same => if_neg (not_not.mpr same),
        fun other => State.linksTold_due other rfl⟩
  case restart =>
    have run : exec (.timeRestart p) s = takeRequest p 0x41 (withArgs readEmpty fun _ s => done (s.restartTime p)) s :=
      rfl
    have done' := takeRequest_done (handle := withArgs readEmpty fun _ s => done (s.restartTime p)) offers
      (withArgs_reads _ readEmpty_nil)
    rw [State.restartTime_eq] at done'
    exact ⟨{ s with links := s.linksTold (s.time.quality ≠ .unset ∨ s.time.follow ≠ .following) }, run.trans done',
      fun unset following => if_neg (by simp [unset, following]), fun other => State.linksTold_due other rfl⟩

end Sys2Proof.Machine

/-! The control of runners: SUSPEND, RESUME, STOP and CLEAR (09 R178 to R180). -/

namespace Sys2Proof.Machine

theorem State.modRunner_eq (s : State) (r : RunnerId) (g : Runner → Runner) :
    s.modRunner r g = s.modRunner r fun _ => g (s.runner r) := rfl

/-! ## Who controls a runner (09 R178) -/

theorem readRunner_byte (r : RunnerId) : readRunner [BitVec.ofNat 8 r.index.val] = some r := by
  cases r <;> rfl

theorem readRunner_other {body : List Byte} (other : ∀ r : RunnerId, body ≠ [BitVec.ofNat 8 r.index.val]) :
    readRunner body = none := by
  unfold readRunner
  split
  next b =>
    refine Option.eq_none_iff_forall_ne_some.mpr fun r reads => other r ?_
    have listed := runnerByte_eq_some.mp reads
    congr 1
    apply BitVec.eq_of_toNat_eq
    cases r <;> simp_all [RunnerId.index]
  · rfl

section control

variable {s : State} {p : Port} {kind tag : Byte} {r : RunnerId} {handle : RunnerId → State → Answer}

theorem withControl_barred (u : State) (guest : p = .G) (other : (u.runner r).starter ≠ some p) :
    withControl p handle r u = refuse (.notAuthorised false none) u := by
  unfold withControl State.mayControl
  subst guest
  simp [stationProcessor, other]

theorem withControl_passes (u : State) (may : p ≠ .G ∨ (u.runner r).starter = some p) :
    withControl p handle r u = handle r u := by
  unfold withControl State.mayControl
  refine if_pos ?_
  rcases may with station | starter
  · cases p
    case G => exact absurd rfl station
    all_goals rfl
  · simp [starter]

theorem controlRequest_badArgument {body : List Byte} (offers : s.offers p kind tag body)
    (other : ∀ r : RunnerId, body ≠ [BitVec.ofNat 8 r.index.val]) :
    takeRequest p kind (withArgs readRunner (withControl p handle)) s =
      .next ((s.dropBuffer p).answered p kind tag (.refused .badArgument) .empty) :=
  takeRequest_refused offers (withArgs_fails _ (readRunner_other other))

theorem controlRequest_barred {body : List Byte} (offers : s.offers p kind tag body)
    (named : body = [BitVec.ofNat 8 r.index.val]) (guest : p = .G) (other : (s.runner r).starter ≠ some p) :
    takeRequest p kind (withArgs readRunner (withControl p handle)) s =
      .next ((s.dropBuffer p).answered p kind tag (.refused (.notAuthorised false none)) .empty) := by
  subst named
  exact takeRequest_refused offers
    ((withArgs_reads _ (readRunner_byte r)).trans (withControl_barred (s.dropBuffer p) guest other))

variable (may : p ≠ .G ∨ (s.runner r).starter = some p) (offers : s.offers p kind tag [BitVec.ofNat 8 r.index.val])
include may offers

/-- A request of one that may control the runner is asked of it. -/
theorem controlRequest_done {v : State} (answer : handle r (s.dropBuffer p) = done v) :
    takeRequest p kind (withArgs readRunner (withControl p handle)) s = .next (v.answered p kind tag .done .empty) :=
  takeRequest_done offers
    ((withArgs_reads _ (readRunner_byte r)).trans ((withControl_passes (s.dropBuffer p) may).trans answer))

theorem controlRequest_refused {reason : Reason} (answer : handle r (s.dropBuffer p) = refuse reason (s.dropBuffer p)) :
    takeRequest p kind (withArgs readRunner (withControl p handle)) s =
      .next ((s.dropBuffer p).answered p kind tag (.refused reason) .empty) :=
  takeRequest_refused offers
    ((withArgs_reads _ (readRunner_byte r)).trans ((withControl_passes (s.dropBuffer p) may).trans answer))

end control

/-! ## What each request does (09 R179, R180) -/

section handlers

variable {u : State} {p : Port} {r : RunnerId} {x : Runner} (record : x = u.runner r)
include record

theorem handleSuspend_running (state : x.state = .running) :
    handleSuspend p r u = done ((u.modRunner r fun _ => { x with
      state := .suspended, remaining := x.due.map fun d => d - u.now, due := none }).addEntry
        .programmeSuspended (.runner r) (.port p) .nothing (some (x.index.getD 0 : Int))) := by
  subst record
  unfold handleSuspend
  rw [state]
  rfl

theorem handleSuspend_awaiting (state : x.state = .awaiting) :
    handleSuspend p r u = done ((u.modRunner r fun _ => { x with state := .suspended }).addEntry
      .programmeSuspended (.runner r) (.port p) .nothing (some (x.index.getD 0 : Int))) := by
  subst record
  unfold handleSuspend
  rw [state]
  rfl

theorem handleSuspend_suspended (state : x.state = .suspended) : handleSuspend p r u = done u := by
  subst record
  unfold handleSuspend
  rw [state]

theorem handleSuspend_other (state : x.state = .idle ∨ x.state = .halted) :
    handleSuspend p r u = refuse (.interlocked .state) u := by
  subst record
  unfold handleSuspend
  rcases state with state | state <;> rw [state]

theorem handleResume_suspended (state : x.state = .suspended) :
    handleResume p r u = done ((u.modRunner r fun _ => x.continue' u.now).addEntry .programmeResumed (.runner r) (.port p)
      .nothing (some (x.index.getD 0 : Int))) := by
  subst record
  exact if_pos state

theorem handleResume_other (state : x.state ≠ .suspended) : handleResume p r u = refuse (.interlocked .state) u := by
  subst record
  exact if_neg state

theorem handleStopRunner_idle (state : x.state = .idle) : handleStopRunner p r u = done u := by
  subst record
  exact if_pos state

theorem handleStopRunner_other (state : x.state ≠ .idle) :
    handleStopRunner p r u = done ((u.modRunner r fun _ => { Runner.reset with lastOutcome := x.lastOutcome }).addEntry
      .programmeStopped (.runner r) (.port p) .nothing (some (x.index.getD 0 : Int))) := by
  subst record
  exact if_neg state

theorem handleClear_halted (state : x.state = .halted) :
    handleClear p r u = done ((u.modRunner r fun _ => { Runner.reset with lastOutcome := x.lastOutcome }).addEntry
      .programmeCleared (.runner r) (.port p) .nothing (some (x.index.getD 0 : Int))) := by
  subst record
  exact if_pos state

theorem handleClear_other (state : x.state ≠ .halted) : handleClear p r u = refuse (.interlocked .state) u := by
  subst record
  exact if_neg state

end handlers

theorem continue_awaiting {x : Runner} (now : Instant) (awaits : x.awaiting ≠ none) :
    x.continue' now = { x with state := .awaiting } := if_pos (Option.isSome_iff_ne_none.mpr awaits)

theorem continue_running {x : Runner} {n : Nat} (now : Instant) (awaits : x.awaiting = none)
    (remaining : x.remaining = some n) :
    x.continue' now = { x with state := .running, due := some (now + n), remaining := none } := by
  simp [Runner.continue', awaits, remaining]

/-- Settles O54. -/
theorem runnersAreControlled : Obligations.RunnersAreControlled := by
  intro p tag s
  refine ⟨fun kind body c offers commands => ?refusals, fun r u x may base record => ?_⟩
  case refusals =>
    have run : ∃ handle, exec c s = takeRequest p kind (withArgs readRunner (withControl p handle)) s := by
      rcases commands with ⟨rfl, rfl⟩ | ⟨rfl, rfl⟩ | ⟨rfl, rfl⟩ | ⟨rfl, rfl⟩ <;> exact ⟨_, rfl⟩
    obtain ⟨handle, run⟩ := run
    rw [run]
    exact ⟨controlRequest_badArgument offers, fun r named guest other => controlRequest_barred offers named guest other⟩
  subst base
  have record' : x = (s.dropBuffer p).runner r := record
  refine ⟨fun offers => ⟨fun state => ?_, fun state => ?_, fun state => ?_, fun state => ?_⟩,
    fun offers => ⟨fun state awaits => ?_, fun n state awaits remaining => ?_, fun state => ?_⟩,
    fun offers => ⟨fun state => ?_, fun state => ?_⟩, fun offers => ⟨fun state => ?_, fun state => ?_⟩⟩
  · exact controlRequest_done may offers (handleSuspend_running record' state)
  · exact controlRequest_done may offers (handleSuspend_awaiting record' state)
  · exact controlRequest_done may offers (handleSuspend_suspended record' state)
  · exact controlRequest_refused may offers (handleSuspend_other record' state)
  · refine controlRequest_done may offers ((handleResume_suspended record' state).trans ?_)
    rw [continue_awaiting _ awaits]
  · refine controlRequest_done may offers ((handleResume_suspended record' state).trans ?_)
    rw [continue_running _ awaits remaining]
    rfl
  · exact controlRequest_refused may offers (handleResume_other record' state)
  · exact controlRequest_done may offers (handleStopRunner_idle record' state)
  · exact controlRequest_done may offers (handleStopRunner_other record' state)
  · exact controlRequest_done may offers (handleClear_halted record' state)
  · exact controlRequest_refused may offers (handleClear_other record' state)

end Sys2Proof.Machine

/-! The programme store and START PROGRAMME (09 R168 to R170, 05 R98). -/

namespace Sys2Proof.Machine

/-! ## LOAD STEPS and DEFINE PROGRAMME (09 R168, R169) -/

theorem handleLoadSteps_busy {u : State} {first : Nat} {steps : List Step}
    (meets : ∃ k h, u.using k ∧ u.headers.get k = some h ∧ first < h.first + h.count ∧ h.first < first + steps.length) :
    handleLoadSteps (first, steps) u = refuse .programmeBusy u := if_pos ((slotsInUse_iff u ..).mpr meets)

theorem handleLoadSteps_stores {u : State} {first : Nat} {steps : List Step}
    (apart : ∀ k h, u.using k → u.headers.get k = some h →
      h.first + h.count ≤ first ∨ first + steps.length ≤ h.first) :
    handleLoadSteps (first, steps) u = done { u with slots := storeSteps first steps u.slots } := by
  refine if_neg fun busy => ?_
  obtain ⟨k, h, using', header, below, above⟩ : ∃ k h, u.using k ∧ u.headers.get k = some h ∧
    first < h.first + h.count ∧ h.first < first + steps.length := (slotsInUse_iff u ..).mp busy
  have := apart k h using' header
  omega

theorem handleDefine_busy {u : State} {n : Fin 8} {h : Option Header} (using' : u.using n) :
    handleDefine (n, h) u = refuse .programmeBusy u := if_pos ((inUse_iff u n).mpr using')

theorem handleDefine_defines {u : State} {n : Fin 8} {h : Option Header} (free : ¬u.using n) :
    handleDefine (n, h) u = done { u with headers := u.headers.set n h } := if_neg (mt (inUse_iff u n).mp free)

/-! ## START PROGRAMME (09 R170, 05 R98) -/

section start

variable {u : State} {p : Port} {r : RunnerId} {n : Fin 8} {h : Header}

theorem targetItems_pairwise (u : State) (h : Header) : (u.targetItems h).Pairwise fun i j => i.index < j.index :=
  items_pairwise.sublist List.filter_sublist

theorem allReady_iff (u : State) (h : Header) : u.allReady (u.targetItems h) = true ↔
    ∀ f, u.programmeTargets h (.feeder f) → (u.feeder f).ready = true := by
  unfold State.allReady
  rw [List.all_eq_true]
  constructor
  · exact fun all f targets => all (.feeder f) ((mem_targetItems ..).mpr targets)
  · intro all i member
    cases i with
    | feeder f => exact all f ((mem_targetItems ..).mp member)
    | rectifier => rfl

/-- What the Authority Table says to a start: nothing to a programme that targets nothing. -/
def State.startRefusal (u : State) (p : Port) (h : Header) : Option Reason :=
  if (u.targetItems h).isEmpty then none else u.authorityCheck p false (u.targetItems h)

theorem startRefusal_of_some (targets : ∃ i, u.programmeTargets h i) :
    u.startRefusal p h = u.authorityCheck p false (u.targetItems h) := by
  obtain ⟨i, targets⟩ := targets
  refine if_neg fun empty => ?_
  rw [List.isEmpty_iff] at empty
  have member := (mem_targetItems u h i).mpr targets
  rw [empty] at member
  cases member

theorem startRefusal_excluded (outside : Excludes u.authority.location p) (targets : ∃ i, u.programmeTargets h i) :
    u.startRefusal p h = some .wrongLocation := by
  rw [startRefusal_of_some targets]
  simp [State.authorityCheck, mt (admits_excludes u p).mp (not_not.mpr outside)]

/-- The answer of the table for one target. -/
def State.itemRefusal (u : State) (p : Port) (i : Item) : Option Reason :=
  match u.holding i with
  | some y => if y.holder = p then none else some (.heldByOther i y.holder)
  | none => some (.notAuthorised true (some i))

theorem authorityCheck_of_admitted (inside : ¬Excludes u.authority.location p) (l : List Item) :
    u.authorityCheck p false l = l.findSome? (u.itemRefusal p) := by
  unfold State.authorityCheck State.itemRefusal
  rw [(admits_excludes u p).mpr inside]
  rfl

theorem itemRefusal_held {i : Item} (held : ∃ y, u.holding i = some y ∧ y.holder = p) : u.itemRefusal p i = none := by
  obtain ⟨y, holding, own⟩ := held
  unfold State.itemRefusal
  rw [holding]
  exact if_pos own

/-- The first target that the starter does not hold decides. -/
theorem startRefusal_first {i : Item} {reason : Reason} (inside : ¬Excludes u.authority.location p)
    (targets : u.programmeTargets h i)
    (before : ∀ j : Item, j.index < i.index → u.programmeTargets h j → ∃ y, u.holding j = some y ∧ y.holder = p)
    (refuses : u.itemRefusal p i = some reason) : u.startRefusal p h = some reason := by
  rw [startRefusal_of_some ⟨i, targets⟩, authorityCheck_of_admitted inside]
  refine findSome_first _ _ (targetItems_pairwise u h) i ((mem_targetItems ..).mpr targets) refuses fun j member below => ?_
  exact itemRefusal_held (before j below ((mem_targetItems ..).mp member))

theorem startRefusal_none (holds : ∀ i, u.programmeTargets h i → ¬Excludes u.authority.location p ∧
    ∃ y, u.holding i = some y ∧ y.holder = p) : u.startRefusal p h = none := by
  by_cases targets : ∃ i, u.programmeTargets h i
  · obtain ⟨i, targets'⟩ := targets
    rw [startRefusal_of_some ⟨i, targets'⟩, authorityCheck_of_admitted (holds i targets').1, List.findSome?_eq_none_iff]
    exact fun j member => itemRefusal_held (holds j ((mem_targetItems ..).mp member)).2
  · refine if_pos ?_
    rw [List.isEmpty_iff, List.eq_nil_iff_forall_not_mem]
    exact fun i member => targets ⟨i, (mem_targetItems ..).mp member⟩

theorem handleStart_undefined (header : u.headers.get n = none) :
    handleStartProgramme p (r, n) u = refuse .badArgument u := by
  unfold handleStartProgramme
  rw [header]

variable (header : u.headers.get n = some h)
include header

theorem handleStart_unready (unready : ∃ f, u.programmeTargets h (.feeder f) ∧ (u.feeder f).ready = false) :
    handleStartProgramme p (r, n) u = refuse .notReady u := by
  obtain ⟨f, targets, ready⟩ := unready
  have fails : u.allReady (u.targetItems h) = false := by
    rw [Bool.eq_false_iff]
    intro all
    have := (allReady_iff u h).mp all f targets
    rw [ready] at this
    cases this
  unfold handleStartProgramme
  rw [header]
  dsimp only
  rw [fails]
  rfl

variable (ready : ∀ f, u.programmeTargets h (.feeder f) → (u.feeder f).ready = true)
include ready

theorem handleStart_refused {reason : Reason} (refusal : u.startRefusal p h = some reason) :
    handleStartProgramme p (r, n) u = refuse reason u := by
  unfold State.startRefusal at refusal
  unfold handleStartProgramme
  rw [header]
  dsimp only
  rw [(allReady_iff u h).mpr ready, refusal]
  rfl

variable (passes : u.startRefusal p h = none)
include passes

theorem handleStart_checked : handleStartProgramme p (r, n) u =
    if (u.runner r).state ≠ .idle then refuse .busy u
    else renewing (u.targetItems h) (accepted (u.startRunner p r n h)) := by
  unfold State.startRefusal at passes
  unfold handleStartProgramme
  rw [header]
  dsimp only
  rw [(allReady_iff u h).mpr ready, passes]
  rfl

theorem handleStart_busy (busy : (u.runner r).state ≠ .idle) : handleStartProgramme p (r, n) u = refuse .busy u := by
  rw [handleStart_checked header ready passes, if_pos busy]

theorem handleStart_starts (idle : (u.runner r).state = .idle) : handleStartProgramme p (r, n) u =
    accepted ((u.startRunner p r n h).renewItems (u.targetItems h)) := by
  rw [handleStart_checked header ready passes, if_neg (not_not.mpr idle)]
  rfl

end start

/-- The record of a runner that is started (09 R170). -/
def State.startedRunner (s : State) (p : Port) (n : Fin 8) (h : Header) : Runner :=
  { state := .running, programme := some n, index := some 0, starter := some p,
    due := some (s.now + (s.slot h.first).delay * 100000), remaining := none, awaiting := none,
    haltReason := none, lastOutcome := none }

theorem startRunner_eq (u : State) (p : Port) (r : RunnerId) (n : Fin 8) (h : Header) :
    u.startRunner p r n h = (u.modRunner r fun _ => u.startedRunner p n h).addEntry .programmeStart (.runner r) (.port p)
      .nothing (some (n.val : Int)) (some (h.count : Int)) := rfl

/-- A runner started, with the leases of what its programme targets renewed and the answer sent (09 R170; 05 R98). -/
theorem startRunner_starts {s t : State} {p : Port} {tag : Byte} {r : RunnerId} {n : Fin 8} {h : Header}
    (answer : t = (((s.dropBuffer p).startRunner p r n h).renewItems (s.targetItems h)).answered p 0x52 tag .accepted
      .empty) :
    Responds s t p 0x52 tag .accepted .empty ∧
    t = { s with
      authority := { s.authority with entries := t.authority.entries }, runners := t.runners,
      events := t.events, choices := t.choices, ports := t.ports } ∧
    t.runner r =
      { state := .running, programme := some n, index := some 0, starter := some p,
        due := some (s.now + (s.slot h.first).delay * 100000), remaining := none, awaiting := none,
        haltReason := none, lastOutcome := none } ∧
    (∀ q, q ≠ r → t.runner q = s.runner q) ∧
    (∀ i y, s.programmeTargets h i → s.holding i = some y → t.holding i = some { y with
      expiry := s.now + s.station.leaseTime * 100000, lease := s.station.leaseTime }) ∧
    (∀ i, ¬s.programmeTargets h i → t.holding i = s.holding i) ∧
    AddsEntry s t fun e => e.kind = .programmeStart ∧ e.subject = .runner r ∧ e.origin = .port p ∧
      e.value1 = some (n.val : Int) ∧ (h.count ≤ 256 → e.value2 = some (h.count : Int)) := by
  have renewed := renewItems_only ((s.dropBuffer p).startRunner p r n h) (s.targetItems h)
  have leases := renewItems_holding ((s.dropBuffer p).startRunner p r n h) (s.targetItems h)
  have own : ((s.dropBuffer p).startRunner p r n h).runner r = s.startedRunner p n h := by
    rw [startRunner_eq]
    exact State.modRunner_runner_self (s.dropBuffer p) r fun _ => s.startedRunner p n h
  have other (q : RunnerId) (differs : q ≠ r) : ((s.dropBuffer p).startRunner p r n h).runner q = s.runner q := by
    rw [startRunner_eq]
    exact State.modRunner_runner_ne (s.dropBuffer p) (fun _ => s.startedRunner p n h) differs
  have added := AddsEntry.add ((s.dropBuffer p).modRunner r fun _ => s.startedRunner p n h) .programmeStart (.runner r)
    (.port p) .nothing (some (n.val : Int)) (some (h.count : Int)) none
  have responds := responds_answered (s := s) (t := ((s.dropBuffer p).startRunner p r n h).renewItems (s.targetItems h))
    p 0x52 tag .accepted .empty (by rw [renewed]; rfl)
  subst answer
  refine ⟨responds, by rw [renewed]; rfl, ?_, fun q differs => ?_, fun i y targets holding => ?_, fun i apart => ?_, ?_⟩
  · rw [renewed]
    exact own
  · rw [renewed]
    exact other q differs
  · refine (leases i).trans ?_
    rw [if_pos ((mem_targetItems ..).mpr targets)]
    exact congrArg (Option.map _) holding
  · exact (leases i).trans (if_neg (mt (mem_targetItems ..).mp apart))
  · refine (added.mono fun e ⟨kind, subject, origin, _, _, value1, value2⟩ =>
      ⟨kind, subject, origin, value1 (inField_nat (by omega)), fun few => value2 (inField_nat (by omega))⟩).of_answered
        rfl ?_
    rw [renewed]
    rfl

/-- Settles O53. -/
theorem programmesAreStoredAndStarted : Obligations.ProgrammesAreStoredAndStarted := by
  intro p tag body s
  refine ⟨fun offers => ⟨fun unread => ?_, fun first steps loads => ⟨fun meets => ?_, fun apart => ?_⟩⟩,
    fun offers => ⟨fun unread => ?_, fun n h defines => ⟨fun using' => ?_, fun free => ?_⟩⟩,
    fun offers => ⟨fun unread => ?_, fun r n starts => ⟨fun undefined => ?_, fun h header => ⟨fun unready => ?_,
      fun ready => ⟨fun outside targets => ?_, fun inside i targets before => ⟨fun unheld => ?_,
        fun y holding other => ?_⟩, fun holds => ⟨fun busy => ?_, fun idle => ?_⟩⟩⟩⟩⟩⟩
  · refine takeRequest_refused offers (withArgs_fails _ (Option.eq_none_iff_forall_ne_some.mpr fun x reads => ?_))
    exact unread x.1 x.2 (readLoadSteps_eq_some.mp reads)
  · exact takeRequest_refused offers ((withArgs_reads _ (readLoadSteps_eq_some.mpr loads)).trans
      (handleLoadSteps_busy (u := s.dropBuffer p) meets))
  · obtain ⟨placed, others⟩ := storeSteps_get steps first s.slots (readLoad_fits (readLoadSteps_eq_some.mpr loads))
    refine ⟨storeSteps first steps s.slots, ?_, placed, others⟩
    exact takeRequest_done offers ((withArgs_reads _ (readLoadSteps_eq_some.mpr loads)).trans
      (handleLoadSteps_stores (u := s.dropBuffer p) apart))
  · refine takeRequest_refused offers (withArgs_fails _ (Option.eq_none_iff_forall_ne_some.mpr fun x reads => ?_))
    exact unread x.1 x.2 (readDefine_eq_some.mp reads)
  · exact takeRequest_refused offers ((withArgs_reads _ (readDefine_eq_some.mpr defines)).trans
      (handleDefine_busy (u := s.dropBuffer p) using'))
  · exact takeRequest_done offers ((withArgs_reads _ (readDefine_eq_some.mpr defines)).trans
      (handleDefine_defines (u := s.dropBuffer p) free))
  · refine takeRequest_refused offers (withArgs_fails _ (Option.eq_none_iff_forall_ne_some.mpr fun x reads => ?_))
    exact unread x.1 x.2 (readStart_eq_some.mp reads)
  all_goals have reads := readStart_eq_some.mpr starts
  · exact takeRequest_refused offers ((withArgs_reads _ reads).trans (handleStart_undefined (u := s.dropBuffer p) undefined))
  · exact takeRequest_refused offers
      ((withArgs_reads _ reads).trans (handleStart_unready (u := s.dropBuffer p) header unready))
  · exact takeRequest_refused offers ((withArgs_reads _ reads).trans
      (handleStart_refused (u := s.dropBuffer p) header ready (startRefusal_excluded (u := s.dropBuffer p) outside targets)))
  · have refuses : (s.dropBuffer p).itemRefusal p i = some (.notAuthorised true (some i)) := by
      unfold State.itemRefusal
      rw [show (s.dropBuffer p).holding i = none from unheld]
    exact takeRequest_refused offers ((withArgs_reads _ reads).trans (handleStart_refused (u := s.dropBuffer p) header ready
      (startRefusal_first (u := s.dropBuffer p) inside targets before refuses)))
  · have refuses : (s.dropBuffer p).itemRefusal p i = some (.heldByOther i y.holder) := by
      unfold State.itemRefusal
      rw [show (s.dropBuffer p).holding i = some y from holding]
      exact if_neg other
    exact takeRequest_refused offers ((withArgs_reads _ reads).trans (handleStart_refused (u := s.dropBuffer p) header ready
      (startRefusal_first (u := s.dropBuffer p) inside targets before refuses)))
  all_goals have passes := startRefusal_none (u := s.dropBuffer p) holds
  · exact takeRequest_refused offers
      ((withArgs_reads _ reads).trans (handleStart_busy (u := s.dropBuffer p) header ready passes busy))
  · exact ⟨_, takeRequest_accepted offers
      ((withArgs_reads _ reads).trans (handleStart_starts (u := s.dropBuffer p) header ready passes idle)),
      startRunner_starts rfl⟩

end Sys2Proof.Machine

/-! The runners: a step that is complete or fails, and the outcome that a runner awaits handed to it (09 R172, R174 to R177). -/

namespace Sys2Proof.Machine

/-! ## The mask of a step (09 R172) -/

theorem openOrUnknown_iff (x : Option FeederState) :
    openOrUnknown x = true ↔ x ∈ [none, some .opened, some .recloseWait, some .lockedOut] := by
  cases x with
  | none => decide
  | some x => cases x <;> decide

theorem farOf_closed_iff (s : State) (target : Option Item) : s.farOf target = some .closed ↔
    ∃ f, target = some (.feeder f) ∧ (s.section' f).farState = some .closed := by
  rcases target with _ | f | _ <;> simp [State.farOf]

theorem farOf_openOrUnknown_iff (s : State) (target : Option Item) : openOrUnknown (s.farOf target) = true ↔
    ∀ f, target = some (.feeder f) →
      (s.section' f).farState ∈ [none, some .opened, some .recloseWait, some .lockedOut] := by
  rw [openOrUnknown_iff]
  rcases target with _ | f | _ <;> simp [State.farOf]

theorem satisfied_iff (s : State) (x : Step) : s.satisfied x = true ↔ s.conditions x := by
  have asks (b c : Bool) : (!b || c) = true ↔ (b = true → c = true) := by cases b <;> simp
  have bus : (s.sample.state == .valid && s.busLive) = true ↔
      s.sample.state = .valid ∧ ∃ ub, s.sample.last.values.ub = some ub ∧ (s.station.busLive : Int) ≤ ub := by
    rw [Bool.and_eq_true, beq_iff_eq, State.busLive_iff]
    rfl
  unfold State.satisfied State.conditions
  simp only [Bool.and_eq_true, asks, ← bus, ← farOf_closed_iff, ← farOf_openOrUnknown_iff, beq_iff_eq, and_assoc]

/-! ## The step that a runner is at -/

/-- A runner stands at step i of a programme with this header. -/
structure AtStep (s : State) (r : RunnerId) (n : Fin 8) (h : Header) (i : Nat) : Prop where
  programme : (s.runner r).programme = some n
  header : s.headers.get n = some h
  index : (s.runner r).index = some i

namespace AtStep

variable {s : State} {r : RunnerId} {n : Fin 8} {h : Header} {i : Nat} (at' : AtStep s r n h i)
include at'

theorem headerOf : s.headerOf (s.runner r) = h := by
  simp only [State.headerOf, at'.programme, at'.header, Option.getD_some]

theorem stepOf : s.stepOf r = s.slot (h.first + i) := by
  rw [State.stepOf, at'.headerOf, at'.index, Option.getD_some]

theorem indexOf : s.indexOf r = (i : Int) := by
  rw [State.indexOf, at'.index, Option.getD_some]

end AtStep

/-! ## A step that is complete, and one that fails (09 R177) -/

section outcomes

variable {s : State} {r : RunnerId} {n : Fin 8} {h : Header} {i : Nat}

theorem OnlyRunner.modRunner (s : State) (r : RunnerId) (g : Runner → Runner) : OnlyRunner s (s.modRunner r g) r :=
  ⟨rfl, fun _ differs => State.modRunner_runner_ne s g differs⟩

theorem OnlyRunner.addEntry (s : State) (r : RunnerId) (k : EventKind) (u : Subject) (o : Origin) (d : Detail)
    (v w : Option Int) : OnlyRunner s (s.addEntry k u o d v w) r := ⟨rfl, fun _ _ => rfl⟩

theorem OnlyRunner.refl (s : State) (r : RunnerId) : OnlyRunner s s r := ⟨rfl, fun _ _ => rfl⟩

theorem OnlyRunner.trans {t u : State} (first : OnlyRunner s t r) (second : OnlyRunner t u r) : OnlyRunner s u r := by
  obtain ⟨frame, others⟩ := first
  obtain ⟨frame', others'⟩ := second
  exact ⟨by rw [frame', frame], fun q differs => (others' q differs).trans (others q differs)⟩

theorem completeStep_only (s : State) (r : RunnerId) (o : StepOutcome) : OnlyRunner s (s.completeStep r o) r := by
  unfold State.completeStep
  dsimp only
  split
  · exact (OnlyRunner.modRunner ..).trans (.modRunner ..)
  · exact ((OnlyRunner.modRunner ..).trans (.modRunner ..)).trans (.addEntry ..)

theorem haltRunner_only (s : State) (r : RunnerId) (c : FailureCause) : OnlyRunner s (s.haltRunner r c) r :=
  (OnlyRunner.modRunner ..).trans (.addEntry ..)

theorem failStep_only (s : State) (r : RunnerId) (c : FailureCause) (e : Option Int) :
    OnlyRunner s (s.failStep r c e) r := by
  have failed : OnlyRunner s _ r := (OnlyRunner.modRunner s r fun x =>
      { x with lastOutcome := some (.failed c, (s.runner r).index.getD 0) }).trans
    (.addEntry _ r .stepFailed (.runner r) (.runner r) (.failure c) (some ((s.runner r).index.getD 0 : Int)) e)
  unfold State.failStep
  dsimp only
  split
  · exact failed.trans (haltRunner_only ..)
  · exact failed.trans (completeStep_only ..)

theorem completeStep_moves (at' : AtStep s r n h i) (o : StepOutcome) : MovesOn s (s.completeStep r o) r h i o := by
  have index : (s.runner r).index.getD 0 = i := by rw [at'.index, Option.getD_some]
  unfold State.completeStep
  dsimp only
  rw [index, at'.headerOf]
  refine ⟨fun more counts => ?_, fun more suspended => ?_, fun last => ?_⟩
  · rw [if_pos more, State.modRunner_runner_self, State.modRunner_runner_self, Runner.toNext, if_neg counts]
    rfl
  · rw [if_pos more, State.modRunner_runner_self, State.modRunner_runner_self, Runner.toNext, if_pos suspended]
    rfl
  · rw [if_neg (Nat.not_lt.mpr last)]
    refine ⟨?_, ?_⟩
    · rw [State.addEntry_runner, State.modRunner_runner_self, State.modRunner_runner_self]
      rfl
    · exact (AddsEntry.add ((s.modRunner r fun x => { x with lastOutcome := some (o, i) }).modRunner r Runner.toIdle)
        ..).mono fun e ⟨kind, subject, origin, detail, _, value, _⟩ =>
        ⟨kind, subject, origin, detail, fun small => value (inField_nat (by omega))⟩

theorem Item.index_fits (target : Option Item) : inField (target.map fun j => (j.index.val : Int)) = true := by
  cases target with
  | none => rfl
  | some j => exact inField_nat (by have := j.index.isLt; omega)

theorem haltRunner_halts (at' : AtStep s r n h i) (c : FailureCause) :
    Halts s (s.haltRunner r c) r (s.slot (h.first + i)) i c (s.runner r).lastOutcome := by
  unfold State.haltRunner
  rw [at'.indexOf, at'.stepOf]
  refine ⟨?_, ?_⟩
  · rw [State.addEntry_runner, State.modRunner_runner_self]
    rfl
  · exact (AddsEntry.add (s.modRunner r fun x => x.toHalted c) ..).mono fun e ⟨kind, subject, origin, detail, _, value1, value2⟩ =>
      ⟨⟨kind, subject, origin, detail, fun small => value1 (inField_nat (by omega))⟩, value2 (Item.index_fits _)⟩

theorem AtStep.of_record (at' : AtStep s r n h i) {t : State} (headers : t.headers = s.headers)
    (programme : (t.runner r).programme = (s.runner r).programme) (index : (t.runner r).index = (s.runner r).index) :
    AtStep t r n h i :=
  ⟨programme.trans at'.programme, by rw [headers, at'.header], index.trans at'.index⟩

end outcomes

/-! ## What comes before an outcome and after it -/

/-- From one state to a later one a runner stays at its step: it may have begun to await an outcome, and the rest of its
record, the programme store and the time stand. -/
structure SameStep (s u : State) (r : RunnerId) : Prop where
  record : u.runner r =
    { s.runner r with
      state := (u.runner r).state, due := (u.runner r).due, awaiting := (u.runner r).awaiting,
      lastOutcome := (u.runner r).lastOutcome }
  suspended : (u.runner r).state = .suspended ↔ (s.runner r).state = .suspended
  now : u.now = s.now
  slots : u.slots = s.slots
  headers : u.headers = s.headers
  grows : Grows s.events u.events

namespace SameStep

variable {s u v : State} {r : RunnerId}

theorem of_quiet (quiet : Quiet s u) (same : u.runner r = s.runner r) : SameStep s u r :=
  ⟨by rw [same], by rw [same], quiet.now, quiet.slots, quiet.headers, quiet.grows⟩

theorem trans (first : SameStep s u r) (second : SameStep u v r) : SameStep s v r where
  record := by rw [second.record, first.record]
  suspended := second.suspended.trans first.suspended
  now := second.now.trans first.now
  slots := second.slots.trans first.slots
  headers := second.headers.trans first.headers
  grows := first.grows.trans second.grows

theorem await (running : (s.runner r).state ≠ .suspended) (a : Awaiting) : SameStep s (s.await r a) r := by
  have begun : (s.await r a).runner r = { s.runner r with state := .awaiting, due := none, awaiting := some a } :=
    State.modRunner_runner_self s r _
  exact ⟨by rw [begun], by rw [begun]; exact iff_of_false (fun e => nomatch e) running, rfl, rfl, rfl, .refl _⟩

variable (same : SameStep s u r)
include same

theorem atStep {n : Fin 8} {h : Header} {i : Nat} (at' : AtStep s r n h i) : AtStep u r n h i :=
  at'.of_record same.headers (by rw [same.record]) (by rw [same.record])

theorem slot (k : Nat) : u.slot k = s.slot k := congrArg (fun v => v.get (Fin.ofNat 256 k)) same.slots

theorem movesOn {h : Header} {i : Nat} {o : StepOutcome} (moves : MovesOn u v r h i o) : MovesOn s v r h i o := by
  obtain ⟨counts, suspended, ends⟩ := moves
  refine ⟨fun more running => ?_, fun more waits => ?_, fun last => (ends last).imp_right fun adds => adds.earlier same.grows⟩
  · rw [counts more (mt same.suspended.mp running), same.record, same.now, same.slot]
  · have still : (u.runner r).state = (s.runner r).state := (same.suspended.mpr waits).trans waits.symm
    rw [suspended more (same.suspended.mpr waits), same.record, still, same.slot]

theorem halts {x : Step} {i : Nat} {c : FailureCause} {o : Option (StepOutcome × Nat)} (halts : Halts u v r x i c o) :
    Halts s v r x i c o := by
  obtain ⟨record, adds⟩ := halts
  exact ⟨by rw [record, same.record], adds.earlier same.grows⟩

theorem stepFails {h : Header} {x : Step} {i : Nat} {c : FailureCause} {e : Option Int}
    (fails : StepFails u v r h x i c e) : StepFails s v r h x i c e := by
  obtain ⟨adds, halts, moves⟩ := fails
  exact ⟨adds.earlier same.grows, fun stops => same.halts (halts stops), fun goes => same.movesOn (moves goes)⟩

end SameStep

section later

variable {s v t : State} {r : RunnerId} (same : t.runner r = v.runner r) (grows : Grows v.events t.events)
include same grows

theorem MovesOn.later {h : Header} {i : Nat} {o : StepOutcome} (moves : MovesOn s v r h i o) : MovesOn s t r h i o := by
  obtain ⟨counts, suspended, ends⟩ := moves
  refine ⟨fun more running => same.trans (counts more running), fun more waits => same.trans (suspended more waits),
    fun last => ?_⟩
  obtain ⟨record, adds⟩ := ends last
  exact ⟨same.trans record, adds.later grows⟩

theorem Halts.later {x : Step} {i : Nat} {c : FailureCause} {o : Option (StepOutcome × Nat)}
    (halts : Halts s v r x i c o) : Halts s t r x i c o := by
  obtain ⟨record, adds⟩ := halts
  exact ⟨same.trans record, adds.later grows⟩

theorem StepFails.later {h : Header} {x : Step} {i : Nat} {c : FailureCause} {e : Option Int}
    (fails : StepFails s v r h x i c e) : StepFails s t r h x i c e := by
  obtain ⟨adds, halts, moves⟩ := fails
  exact ⟨adds.later grows, fun stops => (halts stops).later same grows, fun goes => (moves goes).later same grows⟩

end later

/-- A step that fails, with the entry of the failure before the halt or the move (09 R177). -/
theorem failStep_fails {s : State} {r : RunnerId} {n : Fin 8} {h : Header} {i : Nat} (at' : AtStep s r n h i)
    (c : FailureCause) {e : Option Int} (fits : inField e = true) :
    StepFails s (s.failStep r c e) r h (s.slot (h.first + i)) i c e := by
  have index : (s.runner r).index.getD 0 = i := by rw [at'.index, Option.getD_some]
  let marked : State := s.modRunner r fun x => { x with lastOutcome := some (.failed c, i) }
  let failed : State := marked.addEntry .stepFailed (.runner r) (.runner r) (.failure c) (some (i : Int)) e
  have record : failed.runner r = { s.runner r with lastOutcome := some (.failed c, i) } :=
    State.modRunner_runner_self s r fun x => { x with lastOutcome := some (.failed c, i) }
  have grows : Grows s.events failed.events := Grows.addEntry marked ..
  have same : SameStep s failed r := ⟨by rw [record], by rw [record], rfl, rfl, rfl, grows⟩
  have added : AddsEntry s failed fun e' =>
      IsRunnerEntry e' .stepFailed r (.runner r) (.failure c) i ∧ e'.value2 = e :=
    (AddsEntry.add marked ..).mono fun e' ⟨kind, subject, origin, detail, _, value1, value2⟩ =>
      ⟨⟨kind, subject, origin, detail, fun small => value1 (inField_nat (by omega))⟩, value2 fits⟩
  have policy : s.failStep r c e =
      if (s.slot (h.first + i)).halt then failed.haltRunner r c else failed.completeStep r (.failed c) := by
    unfold State.failStep
    rw [index, at'.stepOf]
  rw [policy]
  split
  next stops =>
    have halts := haltRunner_halts (same.atStep at') c
    rw [record] at halts
    refine ⟨added.later (Grows.addEntry (failed.modRunner r _) ..), fun _ => same.halts halts, fun goes => ?_⟩
    rw [stops] at goes
    cases goes
  next goes =>
    refine ⟨added.later ((Quiet.refl failed).completeStep r _).grows, fun stops => absurd stops goes, fun _ => ?_⟩
    exact same.movesOn (completeStep_moves (same.atStep at') _)

/-! ## The runners as parts of one event (log 3) -/

/-- All that a runner's step reads stands, but for the rectifier: its record, the programme store, the time, and the
records that a mask reads. -/
structure RunnerStands (r : RunnerId) (s u : State) : Prop where
  runner : u.runner r = s.runner r
  now : u.now = s.now
  slots : u.slots = s.slots
  headers : u.headers = s.headers
  sample : u.sample = s.sample
  settings : u.settings = s.settings
  key : u.key = s.key
  far : ∀ f, (u.section' f).farState = (s.section' f).farState
  grows : Grows s.events u.events

namespace RunnerStands

variable {r : RunnerId} {s u v : State}

theorem refl (r : RunnerId) (s : State) : RunnerStands r s s :=
  ⟨rfl, rfl, rfl, rfl, rfl, rfl, rfl, fun _ => rfl, .refl _⟩

theorem trans (first : RunnerStands r s u) (second : RunnerStands r u v) : RunnerStands r s v where
  runner := second.runner.trans first.runner
  now := second.now.trans first.now
  slots := second.slots.trans first.slots
  headers := second.headers.trans first.headers
  sample := second.sample.trans first.sample
  settings := second.settings.trans first.settings
  key := second.key.trans first.key
  far := fun f => (second.far f).trans (first.far f)
  grows := first.grows.trans second.grows

theorem choices (r : RunnerId) (s : State) (k : Nat) : RunnerStands r s { s with choices := k } :=
  ⟨rfl, rfl, rfl, rfl, rfl, rfl, rfl, fun _ => rfl, .refl _⟩

/-- What a step of one runner does leaves what another runner's step reads. -/
theorem of_other {q : RunnerId} (only : OnlyRunner s u q) (grows : Grows s.events u.events) (differs : r ≠ q) :
    RunnerStands r s u := by
  obtain ⟨frame, others⟩ := only
  exact ⟨others r differs, by rw [frame], by rw [frame], by rw [frame], by rw [frame], by rw [frame], by rw [frame],
    fun f => by rw [frame]; rfl, grows⟩

variable (stands : RunnerStands r s u)
include stands

theorem sameStep : SameStep s u r :=
  ⟨by rw [stands.runner], by rw [stands.runner], stands.now, stands.slots, stands.headers, stands.grows⟩

theorem conditions (x : Step) (rect : u.rect.state = s.rect.state) : u.conditions x ↔ s.conditions x := by
  have station : u.station = s.station := congrArg Settings.station stands.settings
  unfold State.conditions
  rw [stands.sample, station, rect, stands.key]
  simp only [stands.far]

end RunnerStands

/-- One runner's part of an event, with the other runner's part and further parts before it and after it. -/
theorem together_runner {R : State → State → Prop} (refl : ∀ u, R u u) (trans : ∀ u v w, R u v → R v w → R u w)
    (choices : ∀ (u : State) k, R u { u with choices := k }) {act : RunnerId → State → State} {r : RunnerId}
    {A B : List (State → State)} (others : ∀ q, q ≠ r → ∀ u, R u (act q u))
    (further : ∀ part, part ∈ A ∨ part ∈ B → ∀ u, R u (part u)) (s : State) :
    ∃ u, R s u ∧ R (act r u) (together (A ++ allRunners.map act ++ B) s) := by
  obtain ⟨before, after, u, k, apart, -, first, second⟩ :=
    together_member (i := r) (by decide : allRunners.Nodup) (mem_allRunners r) act A B s
  have left : ∀ part ∈ before ++ after, ∀ v, R v (part v) := by
    intro part listed v
    obtain inA | inB | ⟨q, differs, rfl⟩ := apart part listed
    · exact further part (.inl inA) v
    · exact further part (.inr inB) v
    · exact others q differs v
  refine ⟨{ u with choices := k }, ?_, ?_⟩
  · exact trans _ _ _ (first.rel refl trans choices fun part member => left part (List.mem_append_left _ member))
      (choices u k)
  · exact second.rel refl trans choices fun part member => left part (List.mem_append_right _ member)

end Sys2Proof.Machine

/-! The outcomes that runners await, handed on by the feeders and by the rectifier (09 R174 to R176). -/

namespace Sys2Proof.Machine

/-! ## One runner's part -/

theorem closeToRunner_only (s : State) (f : Feeder) (result : CloseResult) (q : RunnerId) :
    OnlyRunner s (s.closeToRunner f result q) q := by
  unfold State.closeToRunner
  split
  · split
    · exact completeStep_only ..
    · exact failStep_only ..
  · exact .refl ..

theorem judgeWait_only (s : State) (reads : Step → Bool) (q : RunnerId) : OnlyRunner s (s.judgeWait reads q) q := by
  unfold State.judgeWait
  split
  · exact completeStep_only ..
  · exact .refl ..

theorem rectToRunner_only (s : State) (q : RunnerId) : OnlyRunner s (s.rectToRunner q) q := by
  unfold State.rectToRunner
  split
  · split
    · exact completeStep_only ..
    · exact failStep_only ..
    · exact failStep_only ..
    · exact .refl ..
    · exact .refl ..
  · exact .refl ..

/-- A change of rectifier state at one runner: the outcome it awaits, and the wait it judges again. -/
def State.rectAtRunner (s : State) (q : RunnerId) : State := (s.rectToRunner q).judgeWait readsRectifier q

theorem rectAtRunner_only (s : State) (q : RunnerId) : OnlyRunner s (s.rectAtRunner q) q :=
  (rectToRunner_only s q).trans (judgeWait_only _ _ q)

/-- What an event handed to both runners does to one of them: its own part, with what its step reads as it stood. -/
theorem handed_to_runner {act : RunnerId → State → State} (only : ∀ q u, OnlyRunner u (act q u) q)
    (quiet : ∀ q u, Quiet u (act q u)) (r : RunnerId) (s : State) :
    ∃ u, RunnerStands r s u ∧ u.rect = s.rect ∧ RunnerStands r (act r u) (together (allRunners.map act) s) := by
  have others (q : RunnerId) (differs : q ≠ r) (u : State) : RunnerStands r u (act q u) ∧ (act q u).rect = u.rect :=
    ⟨.of_other (only q u) (quiet q u).grows (Ne.symm differs), by rw [(only q u).1]⟩
  obtain ⟨u, ⟨stands, rect⟩, after, -⟩ := together_runner (R := fun s u => RunnerStands r s u ∧ u.rect = s.rect)
    (fun u => ⟨.refl r u, rfl⟩) (fun _ _ _ h k => ⟨h.1.trans k.1, k.2.trans h.2⟩) (fun u k => ⟨.choices r u k, rfl⟩)
    (act := act) (r := r) (A := []) (B := []) others (fun _ member => by simp at member) s
  rw [List.nil_append, List.append_nil] at after
  exact ⟨u, stands, rect, after⟩

section handed

variable {s : State} {r : RunnerId} {n : Fin 8} {h : Header} {i : Nat}

theorem MovesOn.awaiting {t : State} {o : StepOutcome} (moves : MovesOn s t r h i o) : (t.runner r).awaiting = none := by
  obtain ⟨counts, suspended, ends⟩ := moves
  by_cases more : i + 1 < h.count
  · by_cases waits : (s.runner r).state = .suspended
    · rw [suspended more waits]
    · rw [counts more waits]
  · rw [(ends (Nat.not_lt.mp more)).1]
    rfl

theorem StepFails.awaiting {t : State} {x : Step} {c : FailureCause} {e : Option Int}
    (fails : StepFails s t r h x i c e) : (t.runner r).awaiting = none := by
  obtain ⟨-, halts, moves⟩ := fails
  cases stops : x.halt with
  | true => rw [(halts stops).1]
  | false => exact (moves stops).awaiting

/-! ## The result of a close (09 R174) -/

theorem closeToRunners_of_other {f : Feeder} (result : CloseResult) (other : (s.runner r).awaiting ≠ some (.close f)) :
    (s.closeToRunners f result).runner r = s.runner r := by
  obtain ⟨u, stands, -, after⟩ := handed_to_runner (act := fun q u => u.closeToRunner f result q)
    (fun q u => closeToRunner_only u f result q) (fun q u => (Quiet.refl u).closeToRunner f result q) r s
  have still : u.closeToRunner f result r = u := if_neg (by rw [stands.runner]; exact other)
  rw [still] at after
  exact after.runner.trans stands.runner

variable (at' : AtStep s r n h i)
include at'

theorem closeToRunners_done {f : Feeder} (awaits : (s.runner r).awaiting = some (.close f)) :
    MovesOn s (s.closeToRunners f .closedOk) r h i .done := by
  obtain ⟨u, stands, -, after⟩ := handed_to_runner (act := fun q u => u.closeToRunner f .closedOk q)
    (fun q u => closeToRunner_only u f .closedOk q) (fun q u => (Quiet.refl u).closeToRunner f .closedOk q) r s
  have taken : u.closeToRunner f .closedOk r = u.completeStep r .done := if_pos (by rw [stands.runner]; exact awaits)
  have moves := completeStep_moves (stands.sameStep.atStep at') .done
  rw [taken] at after
  exact (stands.sameStep.movesOn moves).later after.runner after.grows

theorem closeToRunners_fails {f : Feeder} {result : CloseResult} (awaits : (s.runner r).awaiting = some (.close f))
    (fails : result ≠ .closedOk) :
    StepFails s (s.closeToRunners f result) r h (s.slot (h.first + i)) i (.close result) none := by
  obtain ⟨u, stands, -, after⟩ := handed_to_runner (act := fun q u => u.closeToRunner f result q)
    (fun q u => closeToRunner_only u f result q) (fun q u => (Quiet.refl u).closeToRunner f result q) r s
  have taken : u.closeToRunner f result r = u.failStep r (.close result) := by
    unfold State.closeToRunner
    rw [if_pos (by rw [stands.runner]; exact awaits), if_neg fails]
  have failed := failStep_fails (stands.sameStep.atStep at') (.close result) (e := none) rfl
  rw [stands.sameStep.slot] at failed
  rw [taken] at after
  exact (stands.sameStep.stepFails failed).later after.runner after.grows

end handed

/-! ## A change of rectifier state (09 R175, R176) -/

/-- A runner that awaits neither the rectifier nor a mask: no change of rectifier state reaches it. -/
def Runner.ignoresRect (x : Runner) : Prop := x.awaiting ≠ some .rectifier ∧ ∀ d, x.awaiting ≠ some (.wait d)

theorem Runner.ignoresRect_of_none {x : Runner} (idle : x.awaiting = none) : x.ignoresRect := by
  simp [Runner.ignoresRect, idle]

theorem Runner.ignoresRect_of_close {x : Runner} {f : Feeder} (awaits : x.awaiting = some (.close f)) :
    x.ignoresRect := by
  simp [Runner.ignoresRect, awaits]

theorem Runner.waits_iff (x : Runner) : x.waits = true ↔ ∃ d, x.awaiting = some (.wait d) := by
  unfold Runner.waits
  split
  next d awaits => simp [awaits]
  next other => simpa using fun d awaits => other d awaits

theorem judgeWait_of_other {s : State} {r : RunnerId} (reads : Step → Bool)
    (other : ∀ d, (s.runner r).awaiting ≠ some (.wait d)) : s.judgeWait reads r = s := by
  have still : (s.runner r).waits = false := by
    rw [Bool.eq_false_iff, ne_eq, Runner.waits_iff]
    rintro ⟨d, awaits⟩
    exact other d awaits
  unfold State.judgeWait
  rw [still]
  rfl

theorem rectToRunner_of_other {s : State} {r : RunnerId} (other : (s.runner r).awaiting ≠ some .rectifier) :
    s.rectToRunner r = s := if_neg other

section rectToRunners

variable {s : State} {r : RunnerId} {n : Fin 8} {h : Header} {i : Nat}

theorem rectToRunners_reaches (r : RunnerId) (s : State) :
    ∃ u, RunnerStands r s u ∧ u.rect = s.rect ∧ RunnerStands r (u.rectAtRunner r) s.rectToRunners :=
  handed_to_runner (act := fun q u => u.rectAtRunner q) (fun q u => rectAtRunner_only u q)
    (fun q u => ((Quiet.refl u).rectToRunner q).judgeWait readsRectifier q) r s

theorem rectToRunners_of_ignoring (ignores : (s.runner r).ignoresRect) : s.rectToRunners.runner r = s.runner r := by
  obtain ⟨u, stands, -, after⟩ := rectToRunners_reaches r s
  rw [← stands.runner] at ignores
  have still : u.rectAtRunner r = u := by
    unfold State.rectAtRunner
    rw [rectToRunner_of_other ignores.1, judgeWait_of_other _ ignores.2]
  rw [still] at after
  exact after.runner.trans stands.runner

/-- The runner awaits the rectifier: RUNNING completes its step, BLOCKED and TRIPPED fail it, and it goes on waiting in the
states between. -/
theorem rectToRunners_awaited (at' : AtStep s r n h i) (awaits : (s.runner r).awaiting = some .rectifier) :
    (s.rect.state = .running → MovesOn s s.rectToRunners r h i .done) ∧
    (s.rect.state = .blocked ∨ s.rect.state = .tripped →
      StepFails s s.rectToRunners r h (s.slot (h.first + i)) i .rectifierNotRunning (some (s.rect.state.code : Int))) ∧
    (s.rect.state = .connecting ∨ s.rect.state = .syncing → s.rectToRunners.runner r = s.runner r) := by
  obtain ⟨u, stands, rect, after⟩ := rectToRunners_reaches r s
  have awaits' : (u.runner r).awaiting = some .rectifier := by rw [stands.runner, awaits]
  refine ⟨fun running => ?_, fun stopped => ?_, fun between => ?_⟩
  · have moves := completeStep_moves (stands.sameStep.atStep at') .done
    have taken : u.rectToRunner r = u.completeStep r .done := by
      unfold State.rectToRunner
      rw [if_pos awaits', rect, running]
    have part : u.rectAtRunner r = u.completeStep r .done := by
      unfold State.rectAtRunner
      rw [taken]
      exact judgeWait_of_other _ fun d awaits => by rw [moves.awaiting] at awaits; cases awaits
    rw [part] at after
    exact (stands.sameStep.movesOn moves).later after.runner after.grows
  · have failed := failStep_fails (stands.sameStep.atStep at') .rectifierNotRunning
      (e := some (s.rect.state.code : Int)) (RectState.code_small _)
    have taken : u.rectToRunner r = u.failStep r .rectifierNotRunning (some (s.rect.state.code : Int)) := by
      unfold State.rectToRunner
      rw [if_pos awaits', rect]
      rcases stopped with state | state <;> rw [state]
    have part : u.rectAtRunner r = u.failStep r .rectifierNotRunning (some (s.rect.state.code : Int)) := by
      unfold State.rectAtRunner
      rw [taken]
      exact judgeWait_of_other _ fun d awaits => by rw [failed.awaiting] at awaits; cases awaits
    rw [stands.sameStep.slot] at failed
    rw [part] at after
    exact (stands.sameStep.stepFails failed).later after.runner after.grows
  · have part : u.rectAtRunner r = u := by
      have still : u.rectToRunner r = u := by
        unfold State.rectToRunner
        rw [if_pos awaits', rect]
        rcases between with state | state <;> rw [state]
      unfold State.rectAtRunner
      rw [still]
      exact judgeWait_of_other _ fun d awaits => by rw [awaits'] at awaits; cases awaits
    rw [part] at after
    exact after.runner.trans stands.runner

/-! ## A wait that is judged again (09 R176) -/

/-- A waiting runner whose mask reads what changed: its step is complete where the mask holds, and it goes on waiting
where it does not. -/
theorem judgeWait_judges {reads : Step → Bool} (at' : AtStep s r n h i) {d : Instant}
    (awaits : (s.runner r).awaiting = some (.wait d)) (asked : reads (s.slot (h.first + i)) = true) :
    (s.conditions (s.slot (h.first + i)) → s.judgeWait reads r = s.completeStep r .done) ∧
    (¬s.conditions (s.slot (h.first + i)) → s.judgeWait reads r = s) := by
  have waits : (s.runner r).waits = true := (Runner.waits_iff _).mpr ⟨d, awaits⟩
  unfold State.judgeWait
  rw [waits, at'.stepOf, asked]
  exact ⟨fun holds => if_pos ((satisfied_iff ..).mpr holds), fun fails => if_neg (mt (satisfied_iff ..).mp fails)⟩

/-- The same of the state after an event of which the judgement is a part. -/
theorem judged_in_event {reads : Step → Bool} (at' : AtStep s r n h i) {d : Instant}
    (awaits : (s.runner r).awaiting = some (.wait d)) (asked : reads (s.slot (h.first + i)) = true) {u t : State}
    (before : RunnerStands r s u) (after : RunnerStands r (u.judgeWait reads r) t) :
    (u.conditions (s.slot (h.first + i)) → MovesOn s t r h i .done) ∧
    (¬u.conditions (s.slot (h.first + i)) → t.runner r = s.runner r) := by
  have slot := before.sameStep.slot (h.first + i)
  obtain ⟨holds, fails⟩ := judgeWait_judges (before.sameStep.atStep at') (reads := reads)
    (by rw [before.runner]; exact awaits) (by rw [slot]; exact asked)
  rw [slot] at holds fails
  refine ⟨fun holds' => ?_, fun fails' => ?_⟩
  · rw [holds holds'] at after
    exact (before.sameStep.movesOn (completeStep_moves (before.sameStep.atStep at') .done)).later after.runner after.grows
  · rw [fails fails'] at after
    exact after.runner.trans before.runner

/-- A change of rectifier state at a runner that waits. -/
theorem rectToRunners_waited (at' : AtStep s r n h i) {d : Instant} (awaits : (s.runner r).awaiting = some (.wait d))
    (asked : (s.slot (h.first + i)).mask.rectifierRunning = true) :
    (s.conditions (s.slot (h.first + i)) → MovesOn s s.rectToRunners r h i .done) ∧
    (¬s.conditions (s.slot (h.first + i)) → s.rectToRunners.runner r = s.runner r) := by
  obtain ⟨u, stands, rect, after⟩ := rectToRunners_reaches r s
  have part : u.rectAtRunner r = u.judgeWait readsRectifier r := by
    unfold State.rectAtRunner
    rw [rectToRunner_of_other (by rw [stands.runner, awaits]; exact fun e => nomatch e)]
  rw [part] at after
  have judged := judged_in_event at' awaits (reads := readsRectifier) asked stands after
  rw [stands.conditions _ (by rw [rect])] at judged
  exact judged

end rectToRunners

end Sys2Proof.Machine

/-! Runners beside what feeders and the rectifier do: a change of theirs reaches a runner by the outcome that it awaits
(09 R174, R175). -/

namespace Sys2Proof.Machine

/-! ## Changes that no runner awaits -/

section ignored

variable {s : State} {r : RunnerId}

theorem State.queueFeederEnd_runner (s : State) (f : Feeder) (r : RunnerId) :
    (s.queueFeederEnd f).runner r = s.runner r := by
  unfold State.queueFeederEnd
  split <;> rfl

theorem State.postFar_runner (s : State) (f : Feeder) (g : Feeder → Signal) (r : RunnerId) :
    (s.postFar f g).runner r = s.runner r := by
  unfold State.postFar
  split <;> rfl

theorem State.setClaim_runner (s : State) (f : Feeder) (c : ClaimState) (d : Option Instant) (r : RunnerId) :
    (s.setClaim f c d).runner r = s.runner r := by
  unfold State.setClaim
  dsimp only
  split
  · rfl
  · exact State.queueFeederEnd_runner ..

theorem State.tripTaken_runner (s : State) (f : Feeder) (c : TripCause) (o : Origin) (b : Bool) (v w : Option Int)
    (r : RunnerId) : (s.tripTaken f c o b v w).runner r = s.runner r := by
  have entered (t : State) : (t.tripEntry f c o b v w).runner r = t.runner r := by
    unfold State.tripEntry
    split <;> rfl
  have begun (t : State) (x : State) (same : x.runner r = t.runner r) :
      (if c.protective then x.postFar f .transferTrip else x).runner r = t.runner r := by
    split
    · exact (State.postFar_runner ..).trans same
    · exact same
  unfold State.tripTaken
  refine begun s _ ((entered _).trans ?_)
  split <;> rfl

variable (ignores : (s.runner r).ignoresRect)
include ignores

theorem rectTrip_runner (c : RectTripCause) (v w : Option Int) : (s.rectTrip c v w).runner r = s.runner r :=
  rectToRunners_of_ignoring (s := State.rectEntry _ _ _ _ _ _) ignores

theorem failureNotice_runner (f : Feeder) : (s.failureNotice f).runner r = s.runner r := by
  unfold State.failureNotice
  split
  · exact rectTrip_runner ignores ..
  · rfl

theorem feederNotices_runner (old : FeederState) (f : Feeder) : (s.feederNotices old f).runner r = s.runner r := by
  have told : (((s.protectionNotice old f).retardNotice f).queueFeederEnd f).runner r = s.runner r :=
    State.queueFeederEnd_runner ..
  unfold State.feederNotices
  split
  · rfl
  · exact (failureNotice_runner (s := ((s.protectionNotice old f).retardNotice f).queueFeederEnd f)
      (told ▸ ignores) f).trans told

theorem stopRect_runner (o : Origin) : (s.stopRect o).runner r = s.runner r := by
  unfold State.stopRect
  dsimp only
  split
  · exact rectToRunners_of_ignoring (s := State.rectEntry _ _ _ _ _ _) ignores
  · split <;> rfl

theorem enterClosing_runner (f : Feeder) (op : Operation) : (s.enterClosing f op).runner r = s.runner r :=
  feederNotices_runner (s := s.modFeeder f _) ignores ..

theorem enterTesting_runner (f : Feeder) (op : Operation) (m : TestMode) (valid : s.sample.state = .valid) :
    (s.enterTesting f op m).runner r = s.runner r := by
  unfold State.enterTesting
  rw [if_pos valid]
  exact feederNotices_runner (s := s.modFeeder f _) ignores ..

theorem testUnclaimed_runner {f : Feeder} (op : Operation) {lost : Bool} (valid : s.sample.state = .valid) :
    (s.testUnclaimed f op lost).runner r = s.runner r := by
  have entered : (s.addEntry .unclaimedTest (.feeder f) op.origin (.unclaimedTest lost)).runner r = s.runner r := rfl
  have sampled : (s.addEntry .unclaimedTest (.feeder f) op.origin (.unclaimedTest lost)).sample = s.sample := rfl
  unfold State.testUnclaimed
  generalize s.addEntry .unclaimedTest (.feeder f) op.origin (.unclaimedTest lost) = u at *
  exact (enterTesting_runner (entered ▸ ignores) f op .unclaimed (sampled ▸ valid)).trans entered

theorem beginClaim_runner (f : Feeder) (op : Operation) : (s.beginClaim f op).runner r = s.runner r := by
  have claimed : (((s.modFeeder f fun r => r.toPhase .claiming { op with deadline := none }).postFar f .testClaim).setClaim
      f .claimSent (some (s.now + ms 100))).runner r = s.runner r :=
    (State.setClaim_runner ..).trans (State.postFar_runner ..)
  unfold State.beginClaim
  exact (feederNotices_runner (by rw [claimed]; exact ignores) ..).trans claimed

/-- The phase choice of a close that does not end at once leaves the runner awaiting it. -/
theorem phaseChoice_runner {f : Feeder} (op : Operation) (valid : s.sample.state = .valid) (goes : ¬s.claimConflicts f) :
    (s.phaseChoice f op).runner r = s.runner r := by
  unfold State.phaseChoice
  split
  · exact enterClosing_runner ignores ..
  next dark =>
    split
    · exact enterTesting_runner ignores _ _ _ valid
    next l far =>
      split
      · exact testUnclaimed_runner ignores op valid
      next up =>
        split
        next clash =>
          have dead : ¬s.liveFromFar f := fun live => dark ((lineLive_iff s f).mpr live)
          have clash' : (s.link l).conflict = true ∨ (s.section' f).matching = .mismatch := by simpa using clash
          have conflicts : s.claimConflicts f := ⟨dead, l, far, not_not.mp up, clash'⟩
          exact absurd conflicts goes
        · exact beginClaim_runner ignores ..

end ignored

/-! ## The end of a close that a runner awaits (09 R174) -/

section closeEnded

variable {s : State} {r : RunnerId} {n : Fin 8} {h : Header} {i : Nat} (at' : AtStep s r n h i) {f : Feeder}
  (awaits : (s.runner r).awaiting = some (.close f))
include at' awaits

theorem closeEnded_done (old : FeederState) : MovesOn s (s.closeEnded old f .closedOk) r h i .done := by
  have moves := closeToRunners_done at' awaits
  exact moves.later (feederNotices_runner (Runner.ignoresRect_of_none moves.awaiting) old f)
    ((Quiet.refl _).feederNotices old f).grows

theorem closeEnded_fails (old : FeederState) {result : CloseResult} (other : result ≠ .closedOk) :
    StepFails s (s.closeEnded old f result) r h (s.slot (h.first + i)) i (.close result) none := by
  have fails := closeToRunners_fails at' awaits other
  exact fails.later (feederNotices_runner (Runner.ignoresRect_of_none fails.awaiting) old f)
    ((Quiet.refl _).feederNotices old f).grows

theorem endClose_done (op : Operation) (next : FeederRecord → FeederRecord) :
    MovesOn s (s.endClose f op .closedOk next) r h i .done := by
  have same : SameStep s ((s.modFeeder f next).closeResultEntry f op .closedOk) r :=
    ⟨rfl, .rfl, rfl, rfl, rfl, Grows.addEntry (s.modFeeder f next) ..⟩
  exact same.movesOn (closeEnded_done (same.atStep at') awaits _)

theorem endClose_fails (op : Operation) (next : FeederRecord → FeederRecord) {result : CloseResult}
    (other : result ≠ .closedOk) :
    StepFails s (s.endClose f op result next) r h (s.slot (h.first + i)) i (.close result) none := by
  have same : SameStep s ((s.modFeeder f next).closeResultEntry f op result) r :=
    ⟨rfl, .rfl, rfl, rfl, rfl, Grows.addEntry (s.modFeeder f next) ..⟩
  exact same.stepFails (closeEnded_fails (same.atStep at') awaits _ other)

end closeEnded

/-! ## A trip beside the runners (04 R60, R61) -/

section trip

variable {s : State} {r : RunnerId} {f : Feeder}

theorem heldAtStart_stands (r : RunnerId) (s : State) (b : Option (Fin 4)) : RunnerStands r s (s.heldAtStart b) := by
  unfold State.heldAtStart
  split
  · split
    · split
      · exact ⟨rfl, rfl, rfl, rfl, rfl, rfl, rfl, fun _ => rfl, Grows.addEntry s ..⟩
      · exact .refl r s
    · exact .refl r s
  · exact .refl r s

/-- What a trip leads to in other blocks comes with the capture's own entry before it or after it. -/
theorem tripFeeder_reaches (r : RunnerId) (s : State) (f : Feeder) (c : TripCause) (o : Origin) (b : Bool)
    (v w : Option Int) : ∃ u, RunnerStands r (s.tripTaken f c o b v w) u ∧
      RunnerStands r (u.tripEnded (s.feeder f).state f (.aborted c.overtaking)) (s.tripFeeder f c o b v w) := by
  obtain ⟨before, after, u, k, perm, first, second⟩ := together_around (parts :=
    [fun t => t.heldAtStart (s.captureAsked f c), fun t => t.tripEnded (s.feeder f).state f (.aborted c.overtaking)])
    (List.mem_cons_of_mem _ (List.mem_singleton_self _)) (s.tripTaken f c o b v w)
  have others : ∀ part ∈ before ++ after, ∀ x, RunnerStands r x (part x) := by
    have rest := (List.perm_middle.symm.trans (perm.trans (List.Perm.swap ..))).cons_inv
    intro part member x
    have is := rest.mem_iff.mp member
    rw [List.mem_singleton] at is
    rw [is]
    exact heldAtStart_stands ..
  refine ⟨{ u with choices := k }, ?_, ?_⟩
  · exact (first.rel (.refl r) (fun _ _ _ => .trans) (.choices r)
      fun part member => others part (List.mem_append_left _ member)).trans (.choices r u k)
  · exact second.rel (.refl r) (fun _ _ _ => .trans) (.choices r)
      fun part member => others part (List.mem_append_right _ member)

theorem tripTaken_sameStep (s : State) (f : Feeder) (c : TripCause) (o : Origin) (b : Bool) (v w : Option Int)
    (r : RunnerId) : SameStep s (s.tripTaken f c o b v w) r :=
  .of_quiet ((Quiet.refl s).tripTaken f c o b v w) (State.tripTaken_runner ..)

/-- A trip of a feeder that is not CLOSING, at a runner that no change of rectifier state reaches. -/
theorem tripFeeder_runner (ignores : (s.runner r).ignoresRect) (other : (s.feeder f).state ≠ .closing) (c : TripCause)
    (o : Origin) (b : Bool) (v w : Option Int) : (s.tripFeeder f c o b v w).runner r = s.runner r := by
  obtain ⟨u, before, after⟩ := tripFeeder_reaches r s f c o b v w
  have same : u.runner r = s.runner r := before.runner.trans (State.tripTaken_runner ..)
  have still : (u.tripEnded (s.feeder f).state f (.aborted c.overtaking)).runner r = u.runner r := by
    unfold State.tripEnded
    rw [if_neg other]
    exact feederNotices_runner (same ▸ ignores) ..
  exact after.runner.trans (still.trans same)

/-- A trip that overtakes the close a runner awaits. -/
theorem tripFeeder_fails {n : Fin 8} {h : Header} {i : Nat} (at' : AtStep s r n h i)
    (awaits : (s.runner r).awaiting = some (.close f)) (closing : (s.feeder f).state = .closing) (c : TripCause)
    (o : Origin) (b : Bool) (v w : Option Int) :
    StepFails s (s.tripFeeder f c o b v w) r h (s.slot (h.first + i)) i (.close (.aborted c.overtaking)) none := by
  obtain ⟨u, before, after⟩ := tripFeeder_reaches r s f c o b v w
  have same : SameStep s u r := (tripTaken_sameStep s f c o b v w r).trans before.sameStep
  have awaits' : (u.runner r).awaiting = some (.close f) := by
    rw [before.runner, State.tripTaken_runner, awaits]
  have ended : u.tripEnded (s.feeder f).state f (.aborted c.overtaking) =
      u.closeEnded (s.feeder f).state f (.aborted c.overtaking) := if_pos closing
  have fails := closeEnded_fails (same.atStep at') awaits' (s.feeder f).state (result := .aborted c.overtaking)
    (fun e => nomatch e)
  rw [same.slot] at fails
  rw [ended] at after
  exact (same.stepFails fails).later after.runner after.grows

end trip

end Sys2Proof.Machine

/-! A due step of a programme: taken in the order of 09 R171, and what each action does (09 R172 to R177). -/

namespace Sys2Proof.Machine

/-! ## The order of 09 R171 -/

section takeStep

variable {s : State} {r : RunnerId} {n : Fin 8} {h : Header} {i : Nat} {x : Step}

theorem exec_stepDue (runs : s.resetLine = false) (running : (s.runner r).state = .running) {d : Instant}
    (due : (s.runner r).due = some d) (reached : d ≤ s.now) : exec (.stepDue r) s = .next (s.takeStep r) := by
  have isDue : s.stepIsDue r = true := by simp [State.stepIsDue, State.reached, running, due, reached]
  show execStepDue r s = _
  unfold execStepDue
  rw [live_next runs, if_pos isDue]

theorem exec_waitLimitExpiry (runs : s.resetLine = false) {d : Instant} (awaits : (s.runner r).awaiting = some (.wait d))
    (reached : d ≤ s.now) : exec (.waitLimitExpiry r) s = .next (s.failStep r .waitLimit) := by
  have isOver : s.waitIsOver r = true := by simp [State.waitIsOver, awaits, reached]
  show execWaitLimitExpiry r s = _
  unfold execWaitLimitExpiry
  rw [live_next runs, if_pos isOver]

theorem StepAction.asks_iff (a : StepAction) :
    a.asks = true ↔ a ∈ [StepAction.closeFeeder, .setAlpha, .startRectifier, .stopRectifier] := by
  cases a <;> decide

theorem starterHolds_iff (s : State) (r : RunnerId) (target : Option Item) : s.starterHolds r target = true ↔
    ∃ p j y, (s.runner r).starter = some p ∧ target = some j ∧ s.holding j = some y ∧ y.holder = p := by
  unfold State.starterHolds
  split
  next p j starter =>
    unfold State.holds
    split
    next y holding =>
      rw [beq_iff_eq]
      refine ⟨fun own => ⟨p, j, y, starter, rfl, holding, own⟩, ?_⟩
      rintro ⟨p', j', y', starter', same, holding', own⟩
      cases starter.symm.trans starter'
      cases same
      cases holding.symm.trans holding'
      exact own
    next unheld => simp [unheld]
  next other =>
    refine iff_of_false Bool.false_ne_true ?_
    rintro ⟨p, j, y, starter, target', -⟩
    exact other p j starter target'

section stepTaken

variable (at' : AtStep s r n h i) (step : x = s.slot (h.first + i))
include at' step

theorem takeStep_skips (other : x.action ≠ .waitUntil) (fails : ¬s.conditions x) : s.takeStep r = s.skipStep r := by
  have unsatisfied : s.satisfied x = false := by rw [Bool.eq_false_iff, ne_eq, satisfied_iff]; exact fails
  unfold State.takeStep
  dsimp only
  rw [at'.stepOf, ← step, unsatisfied, if_pos (by simpa using other)]

/-- A step whose mask holds, and a wait whatever its mask, goes on to the check of the Authority Table. -/
theorem takeStep_asks (passes : x.action = .waitUntil ∨ s.conditions x) : s.takeStep r =
    if x.action.asks && !s.starterHolds r x.target then s.haltRunner r .notAuthorised else s.performStep r x := by
  unfold State.takeStep
  dsimp only
  rw [at'.stepOf, ← step, if_neg]
  rcases passes with wait | holds
  · simp [wait]
  · simp [(satisfied_iff s x).mpr holds]

theorem takeStep_halts (asks : x.action ∈ [StepAction.closeFeeder, .setAlpha, .startRectifier, .stopRectifier])
    (holds : s.conditions x) (unheld : ∀ p j y, (s.runner r).starter = some p → x.target = some j →
      s.holding j = some y → y.holder ≠ p) : s.takeStep r = s.haltRunner r .notAuthorised := by
  have refused : s.starterHolds r x.target = false := by
    rw [Bool.eq_false_iff, ne_eq, starterHolds_iff]
    rintro ⟨p, j, y, starter, target, holding, own⟩
    exact unheld p j y starter target holding own
  rw [takeStep_asks at' step (.inr holds), if_pos]
  rw [(StepAction.asks_iff _).mpr asks, refused]
  rfl

theorem takeStep_performs_unasked (passes : x.action = .waitUntil ∨ s.conditions x) (free : x.action.asks = false) :
    s.takeStep r = s.performStep r x := by
  rw [takeStep_asks at' step passes, if_neg]
  rw [free]
  exact Bool.false_ne_true

theorem takeStep_performs_held (holds : s.conditions x) {p : Port} {j : Item} {y : Holding}
    (starter : (s.runner r).starter = some p) (target : x.target = some j) (holding : s.holding j = some y)
    (own : y.holder = p) : s.takeStep r = s.performStep r x := by
  rw [takeStep_asks at' step (.inr holds), if_neg]
  rw [(starterHolds_iff s r x.target).mpr ⟨p, j, y, starter, target, holding, own⟩, Bool.not_true, Bool.and_false]
  exact Bool.false_ne_true

end stepTaken

/-! ## The actions (09 R173 to R176) -/

/-- An entry of the runner with its step index, before a step that is complete. -/
theorem entered_then_complete (at' : AtStep s r n h i) (o : StepOutcome) (k : EventKind) (d : Detail)
    (v w : Option Int) {t : State}
    (taken : t = (s.addEntry k (.runner r) (.runner r) d v w).completeStep r o) :
    OnlyRunner s t r ∧ MovesOn s t r h i o ∧ AddsEntry s t fun e => e.kind = k ∧ e.subject = .runner r ∧
      e.origin = .runner r ∧ e.detail = d ∧ (inField v = true → e.value1 = v) ∧ (inField w = true → e.value2 = w) := by
  have grows : Grows s.events (s.addEntry k (.runner r) (.runner r) d v w).events := Grows.addEntry s ..
  have same : SameStep s (s.addEntry k (.runner r) (.runner r) d v w) r := ⟨rfl, .rfl, rfl, rfl, rfl, grows⟩
  have added := AddsEntry.add s k (.runner r) (.runner r) d v w none
  subst taken
  refine ⟨(OnlyRunner.addEntry s r k _ _ d v w).trans (completeStep_only ..),
    same.movesOn (completeStep_moves (same.atStep at') o), AddsEntry.later ?_ ((Quiet.refl _).completeStep r o).grows⟩
  exact added.mono fun e ⟨kind, subject, origin, detail, _, values⟩ => ⟨kind, subject, origin, detail, values⟩

theorem skipStep_skips (at' : AtStep s r n h i) (step : x = s.slot (h.first + i)) :
    OnlyRunner s (s.skipStep r) r ∧ MovesOn s (s.skipStep r) r h i .skipped ∧
      AddsEntry s (s.skipStep r) fun e => IsRunnerEntry e .stepSkipped r (.runner r) (.action x.action) i := by
  have taken : s.skipStep r = (s.addEntry .stepSkipped (.runner r) (.runner r) (.action x.action) (some (i : Int))).completeStep
      r .skipped := by
    unfold State.skipStep
    rw [at'.stepOf, ← step, at'.indexOf]
  obtain ⟨only, moves, adds⟩ := entered_then_complete at' .skipped .stepSkipped (.action x.action) (some (i : Int)) none taken
  exact ⟨only, moves, adds.mono fun e ⟨kind, subject, origin, detail, value, _⟩ =>
    ⟨kind, subject, origin, detail, fun small => value (inField_nat (by omega))⟩⟩

theorem stepMark_marks (at' : AtStep s r n h i) (m : Nat) :
    OnlyRunner s (s.stepMark r m) r ∧ MovesOn s (s.stepMark r m) r h i .done ∧
      AddsEntry s (s.stepMark r m) fun e => e.kind = .programmeMark ∧ e.subject = .runner r ∧ e.origin = .runner r ∧
        (m < 65536 → e.value1 = some (m : Int)) ∧ (i < 256 → e.value2 = some (i : Int)) := by
  have taken : s.stepMark r m = (s.addEntry .programmeMark (.runner r) (.runner r) .nothing (some (m : Int))
      (some (i : Int))).completeStep r .done := by
    unfold State.stepMark
    rw [at'.indexOf]
  obtain ⟨only, moves, adds⟩ := entered_then_complete at' .done .programmeMark .nothing (some (m : Int)) (some (i : Int)) taken
  exact ⟨only, moves, adds.mono fun e ⟨kind, subject, origin, _, value1, value2⟩ =>
    ⟨kind, subject, origin, fun small => value1 (inField_nat (by omega)), fun small => value2 (inField_nat (by omega))⟩⟩

theorem stepEnd_ends (at' : AtStep s r n h i) :
    OnlyRunner s (s.stepEnd r) r ∧ (s.stepEnd r).runner r = { Runner.reset with lastOutcome := some (.done, i) } ∧
      AddsEntry s (s.stepEnd r) fun e => IsRunnerEntry e .programmeEnd r (.runner r) (.programmeEnd false) i := by
  have index : (s.runner r).index.getD 0 = i := by rw [at'.index, Option.getD_some]
  let ended : Runner → Runner := fun x => { x with lastOutcome := some (.done, x.index.getD 0) }.toIdle
  have record : (s.modRunner r ended).runner r = { Runner.reset with lastOutcome := some (.done, i) } := by
    rw [State.modRunner_runner_self, ← index]
    rfl
  have added := AddsEntry.add (s.modRunner r ended) .programmeEnd (.runner r) (.runner r) (.programmeEnd false)
    (some (i : Int)) none none
  unfold State.stepEnd
  rw [at'.indexOf]
  refine ⟨(OnlyRunner.modRunner s r ended).trans (.addEntry _ r ..), record, added.mono fun e
    ⟨kind, subject, origin, detail, _, value, _⟩ => ⟨kind, subject, origin, detail, fun small => value (inField_nat (by omega))⟩⟩

/-- A failed step, as the statements name its step. -/
theorem failStep_at (at' : AtStep s r n h i) (step : x = s.slot (h.first + i)) (c : FailureCause) :
    OnlyRunner s (s.failStep r c) r ∧ StepFails s (s.failStep r c) r h x i c none := by
  subst step
  exact ⟨failStep_only .., failStep_fails at' c rfl⟩

theorem stepWait_eq (at' : AtStep s r n h i) (step : x = s.slot (h.first + i)) (limit : Nat) :
    s.stepWait r limit =
      if s.satisfied x then s.completeStep r .done
      else if limit = 0 then s.failStep r .waitLimit
      else s.await r (.wait (s.now + limit * 100000)) := by
  unfold State.stepWait
  rw [at'.stepOf, ← step]
  rfl

/-- An action that leaves the runner at its step, and then completes it. -/
theorem acted_then_complete (at' : AtStep s r n h i) {u : State} (quiet : Quiet s u)
    (same : u.runner r = s.runner r) : MovesOn s (u.completeStep r .done) r h i .done :=
  (SameStep.of_quiet quiet same).movesOn (completeStep_moves ((SameStep.of_quiet quiet same).atStep at') .done)

end takeStep

/-! ## OPEN_FEEDER and CLOSE_FEEDER (09 R173, R174) -/

section feederSteps

variable {s : State} {r : RunnerId} {n : Fin 8} {h : Header} {i : Nat} (at' : AtStep s r n h i) {f : Feeder}

theorem phaseChoice_of_conflict (op : Operation) (conflicts : s.claimConflicts f) :
    s.phaseChoice f op = s.endClose f op .claimConflict (s.waitOrOpen f op) := by
  obtain ⟨dead, l, far, up, clash⟩ := conflicts
  have clash' : ((s.link l).conflict || (s.section' f).matching == .mismatch) = true := by simpa using clash
  unfold State.phaseChoice
  rw [if_neg (mt (lineLive_iff s f).mp dead), far]
  dsimp only
  rw [if_neg (not_not.mpr up), if_pos clash']

theorem valid_of_closeCheck {auto : Bool} (passes : s.closeCheck f auto = none) : s.sample.state = .valid := by
  have rechecked : s.recheck f = none := by
    unfold State.closeCheck at passes
    rw [Option.or_eq_none_iff, Option.or_eq_none_iff, Option.or_eq_none_iff] at passes
    obtain ⟨-, -, rechecked, -⟩ := passes
    exact rechecked
  have measured : s.measured f = true := by
    by_contra unmeasured
    unfold State.recheck at rechecked
    rw [if_pos (by simpa using unmeasured)] at rechecked
    cases rechecked
  obtain ⟨valid, -⟩ := (s.measured_iff f).mp measured
  exact valid

include at'

theorem stepOpen_trips (ready : (s.feeder f).ready = true) (closed : (s.feeder f).state = .closed)
    (idle : (s.runner r).awaiting = none) :
    (s.stepOpen r f).feeder f = s.trippingRecord f .commanded (.runner r) ∧ StateHandedOn s (s.stepOpen r f) f ∧
      MovesOn s (s.stepOpen r f) r h i .done := by
  have opens : s.stepOpen r f = (s.tripFeeder f .commanded (.runner r) (s.isolated f) (s.feeder f).lastIf none).completeStep
      r .done := by
    unfold State.stepOpen
    rw [if_pos ready, openFeeder_trips _ (.inl closed)]
  have trips : Trips s (s.tripFeeder f .commanded (.runner r) (s.isolated f) (s.feeder f).lastIf none) f .commanded
    (.runner r) (s.isolated f) (s.feeder f).lastIf none := tripFeeder_trips ..
  have runner := tripFeeder_runner (r := r) (Runner.ignoresRect_of_none idle) (f := f) (by rw [closed]; exact fun e => nomatch e)
    .commanded (.runner r) (s.isolated f) (s.feeder f).lastIf none
  rw [opens]
  generalize s.tripFeeder f .commanded (.runner r) (s.isolated f) (s.feeder f).lastIf none = u at *
  obtain ⟨frame, -⟩ := completeStep_only u r .done
  have moves := acted_then_complete at' trips.quiet runner
  refine ⟨?_, ?_, moves⟩
  · rw [frame]
    exact trips.feeder
  · rw [frame]
    exact trips.hands.later rfl rfl rfl rfl

theorem stepClose_begins (passes : s.closeCheck f false = none) (ready : (s.feeder f).ready = true)
    (running : (s.runner r).state = .running) :
    ChoosesPhase s (s.stepClose r f) f (s.newClose (.runner r)) ∧
      (s.claimConflicts f → StepFails s (s.stepClose r f) r h (s.slot (h.first + i)) i (.close .claimConflict) none) ∧
      (¬s.claimConflicts f → (s.stepClose r f).runner r =
        { s.runner r with state := .awaiting, due := none, awaiting := some (.close f) }) := by
  have begins : s.stepClose r f = (s.await r (.close f)).phaseChoice f (s.newClose (.runner r)) := by
    unfold State.stepClose
    rw [if_pos ready, passes]
    rfl
  have same : SameStep s (s.await r (.close f)) r := .await (by rw [running]; exact fun e => nomatch e) _
  have begun : (s.await r (.close f)).runner r =
      { s.runner r with state := .awaiting, due := none, awaiting := some (.close f) } :=
    State.modRunner_runner_self s r fun x => { x with state := .awaiting, due := none, awaiting := some (.close f) }
  have awaits : ((s.await r (.close f)).runner r).awaiting = some (.close f) := by rw [begun]
  have chooses := phaseChoice_chooses (s.await r (.close f)) f (s.newClose (.runner r))
  rw [begins]
  refine ⟨chooses.of_same rfl rfl rfl rfl rfl rfl (fun _ => ⟨rfl, rfl⟩) (.refl _), fun conflicts => ?_, fun goes => ?_⟩
  · rw [phaseChoice_of_conflict (s := s.await r (.close f)) _ conflicts]
    exact same.stepFails (endClose_fails (same.atStep at') awaits _ _ fun e => nomatch e)
  · have still := phaseChoice_runner (s := s.await r (.close f)) (Runner.ignoresRect_of_close awaits) (f := f)
      (s.newClose (.runner r)) (valid_of_closeCheck passes) goes
    exact still.trans begun

end feederSteps

/-! ## The steps at the rectifier (09 R175) -/

section rectifierSteps

variable {s : State} {r : RunnerId} {n : Fin 8} {h : Header} {i : Nat} (at' : AtStep s r n h i)
include at'

theorem startRect_awaited (passes : s.startCheck = none) :
    (s.stepStart r).rect.state = .connecting ∧ (s.stepStart r).rect.runOrigin = .runner r ∧
      (s.stepStart r).runner r = { s.runner r with state := .awaiting, due := none, awaiting := some .rectifier } := by
  have starts : s.stepStart r = (s.await r .rectifier).startRect (.runner r) := by
    unfold State.stepStart
    rw [passes]
  have begun : (s.await r .rectifier).runner r =
      { s.runner r with state := .awaiting, due := none, awaiting := some .rectifier } :=
    State.modRunner_runner_self s r fun x => { x with state := .awaiting, due := none, awaiting := some .rectifier }
  obtain ⟨rect, -⟩ := (s.await r .rectifier).startRect_starts (.runner r)
  have atBegun : AtStep (s.await r .rectifier) r n h i := at'.of_record rfl (by rw [begun]) (by rw [begun])
  have awaits : ((s.await r .rectifier).runner r).awaiting = some .rectifier := by rw [begun]
  rw [starts]
  generalize s.await r .rectifier = u at *
  refine ⟨by rw [rect], by rw [rect], Eq.trans ?_ begun⟩
  unfold State.startRect
  generalize connected : (u.modRect _).rectEntry _ _ _ _ _ = v
  have runner : v.runner r = u.runner r := by rw [← connected]; rfl
  have headers : v.headers = u.headers := by rw [← connected]; rfl
  have state : v.rect.state = .connecting := by rw [← connected]; rfl
  obtain ⟨-, -, between⟩ := rectToRunners_awaited (atBegun.of_record headers (by rw [runner]) (by rw [runner]))
    (runner ▸ awaits)
  exact (between (.inl state)).trans runner

theorem stopRect_then_complete (idle : (s.runner r).awaiting = none) (running : s.rect.state = .running) :
    ((s.stopRect (.runner r)).completeStep r .done).rect = { s.rect.quiet with
      state := .blocked, applied := s.station.alphaMax, acOperation := s.acOpening (.runner r) } ∧
    MovesOn s ((s.stopRect (.runner r)).completeStep r .done) r h i .done := by
  obtain ⟨rect, -⟩ := State.stopRect_of_started (s := s) (.runner r) (.inr (.inr running))
  have moves := acted_then_complete at' ((Quiet.refl s).stopRect (.runner r))
    (stopRect_runner (Runner.ignoresRect_of_none idle) (.runner r))
  obtain ⟨frame, -⟩ := completeStep_only (s.stopRect (.runner r)) r .done
  refine ⟨?_, moves⟩
  rw [frame]
  exact rect

theorem setTarget_then_complete (angle : Nat) :
    MovesOn s ((s.setTarget angle).completeStep r .done) r h i .done ∧
    ((s.setTarget angle).completeStep r .done).authority = s.authority ∧
    ((s.setTarget angle).completeStep r .done).rect = { s.rect with
      target := max s.station.alphaMin (min s.station.alphaMax angle) } := by
  have same : SameStep s (s.setTarget angle) r := ⟨rfl, .rfl, rfl, rfl, rfl, .refl _⟩
  obtain ⟨frame, -⟩ := completeStep_only (s.setTarget angle) r .done
  refine ⟨same.movesOn (completeStep_moves (same.atStep at') .done), ?_, ?_⟩
  · rw [frame]
    rfl
  · rw [frame]
    rfl

end rectifierSteps

/-- Settles O55: the order of 09 R171 is that of `State.takeStep`, and each action is one branch of
`State.performStep`, with a step complete by `completeStep_moves` and one failed by `failStep_fails`. -/
theorem stepsAreTakenInOrder : Obligations.StepsAreTakenInOrder := by
  intro r s n h i x runs programme header index step
  have at' : AtStep s r n h i := ⟨programme, header, index⟩
  refine ⟨fun d running idle due reached => ?_, fun d awaits reached => ?limit⟩
  case limit => exact ⟨_, exec_waitLimitExpiry runs awaits reached, failStep_at at' step .waitLimit⟩
  rw [exec_stepDue runs running due reached]
  refine ⟨fun other fails => ?skipped, fun asks holds unheld => ?halted, fun wait => ?wait,
    fun holds => ⟨fun action => ?none, fun action => ?mark, fun action => ?finish, fun f action target => ?opens,
      fun p j y starter target holding own => ?held⟩⟩
  case skipped =>
    rw [takeStep_skips at' step other fails]
    exact ⟨_, rfl, skipStep_skips at' step⟩
  case halted =>
    rw [takeStep_halts at' step asks holds unheld]
    exact ⟨_, rfl, haltRunner_only .., step ▸ haltRunner_halts at' .notAuthorised⟩
  case wait =>
    rw [takeStep_performs_unasked at' step (.inl wait) (by rw [wait]; rfl)]
    have waits : s.performStep r x = s.stepWait r x.argument := by simp only [State.performStep, wait]
    rw [waits, stepWait_eq at' step]
    refine ⟨fun holds => ?_, fun fails zero => ?_, fun fails positive => ?_⟩
    · rw [if_pos ((satisfied_iff s x).mpr holds)]
      exact ⟨_, rfl, completeStep_only .., completeStep_moves at' .done⟩
    · rw [if_neg (mt (satisfied_iff s x).mp fails), if_pos zero]
      exact ⟨_, rfl, failStep_at at' step .waitLimit⟩
    · rw [if_neg (mt (satisfied_iff s x).mp fails), if_neg (by omega)]
      rfl
  case none =>
    rw [takeStep_performs_unasked at' step (.inr holds) (by rw [action]; rfl)]
    have acts : s.performStep r x = s.completeStep r .done := by simp only [State.performStep, action]
    rw [acts]
    exact ⟨_, rfl, completeStep_only .., completeStep_moves at' .done⟩
  case mark =>
    rw [takeStep_performs_unasked at' step (.inr holds) (by rw [action]; rfl)]
    have acts : s.performStep r x = s.stepMark r x.argument := by simp only [State.performStep, action]
    rw [acts]
    exact ⟨_, rfl, stepMark_marks at' x.argument⟩
  case finish =>
    rw [takeStep_performs_unasked at' step (.inr holds) (by rw [action]; rfl)]
    have acts : s.performStep r x = s.stepEnd r := by simp only [State.performStep, action]
    rw [acts]
    exact ⟨_, rfl, stepEnd_ends at'⟩
  case opens =>
    rw [takeStep_performs_unasked at' step (.inr holds) (by rw [action]; rfl)]
    have acts : s.performStep r x = s.stepOpen r f := by simp only [State.performStep, action, target]
    rw [acts]
    refine ⟨fun unready => ?_, fun ready closed => ⟨_, rfl, stepOpen_trips at' ready closed idle⟩⟩
    rw [State.stepOpen, if_neg (by rw [unready]; exact Bool.false_ne_true)]
    exact ⟨_, rfl, failStep_at at' step .notReady⟩
  case held =>
    rw [takeStep_performs_held at' step holds starter target holding own]
    refine ⟨fun f action feeder => ?closes, fun action => ?alpha, fun action => ?starts, fun action runningRect => ?stops⟩
    case closes =>
      subst feeder
      have acts : s.performStep r x = s.stepClose r f := by simp only [State.performStep, action, target]
      rw [acts]
      refine ⟨fun unready => ?_, fun cause ready fails => ?_, fun ready passes => ?_⟩
      · rw [State.stepClose, if_neg (by rw [unready]; exact Bool.false_ne_true)]
        exact ⟨_, rfl, failStep_at at' step .notReady⟩
      · rw [State.stepClose, if_pos ready, fails]
        exact ⟨_, rfl, failStep_at at' step (.interlocked cause)⟩
      · exact ⟨_, rfl, step ▸ stepClose_begins at' passes ready running⟩
    case alpha =>
      have acts : s.performStep r x = (s.setTarget x.argument).completeStep r .done := by
        simp only [State.performStep, action]
      rw [acts]
      exact ⟨_, rfl, setTarget_then_complete at' x.argument⟩
    case starts =>
      have acts : s.performStep r x = s.stepStart r := by simp only [State.performStep, action]
      rw [acts]
      refine ⟨fun busy => ?_, fun blocked idleRect sound opened => ?_⟩
      · rw [State.stepStart, State.startCheck_of_state busy]
        exact ⟨_, rfl, failStep_at at' step (.interlocked .state)⟩
      · have passes : s.startCheck = none := by
          rw [State.startCheck_of_position blocked idleRect sound, if_pos opened]
        exact ⟨_, rfl, startRect_awaited at' passes⟩
    case stops =>
      have acts : s.performStep r x = (s.stopRect (.runner r)).completeStep r .done := by
        simp only [State.performStep, action]
      rw [acts]
      exact ⟨_, rfl, stopRect_then_complete at' idle runningRect⟩

end Sys2Proof.Machine

/-! The end of a close at the runner that awaits it: what each row of 04 brings it (04 R68 to R74, R80; 09 R174). -/

namespace Sys2Proof.Machine

section closes

variable {s : State} {r : RunnerId} {n : Fin 8} {h : Header} {i : Nat} (at' : AtStep s r n h i) {f : Feeder}
  {op : Operation} (awaits : (s.runner r).awaiting = some (.close f))

theorem SameStep.awaiting {u : State} (same : u.runner r = s.runner r) (awaits : (s.runner r).awaiting = some (.close f)) :
    (u.runner r).awaiting = some (.close f) := by rw [same, awaits]

/-- A claim given up, by its post and its state, leaves every runner. -/
theorem State.giveUp_runner (s : State) (f : Feeder) (g : Feeder → Signal) (r : RunnerId) :
    ((s.postFar f g).setClaim f .idle none).runner r = s.runner r :=
  (State.setClaim_runner ..).trans (State.postFar_runner ..)

theorem State.giveUp_sameStep (s : State) (f : Feeder) (g : Feeder → Signal) (r : RunnerId) :
    SameStep s ((s.postFar f g).setClaim f .idle none) r :=
  .of_quiet (((Quiet.refl s).postFar f g).setClaim f _ _) (s.giveUp_runner f g r)

theorem State.testOver_runner (s : State) (f : Feeder) (op : Operation) (r : RunnerId) :
    (s.testOver f op).runner r = s.runner r := by
  unfold State.testOver
  split
  · exact s.giveUp_runner f .testDone r
  · rfl

theorem State.testOver_quiet (s : State) (f : Feeder) (op : Operation) : Quiet s (s.testOver f op) := by
  unfold State.testOver
  split
  · exact ((Quiet.refl s).postFar f .testDone).setClaim f _ _
  · exact .refl s

theorem State.faultyNoted_sameStep (s : State) (f : Feeder) (op : Operation) (next : FeederRecord → FeederRecord)
    (r : RunnerId) : SameStep s ((s.modFeeder f next).faultyNoted f op) r := by
  have noted : SameStep s ((s.modFeeder f next).closeResultEntry f op .lineFaulty) r :=
    ⟨rfl, .rfl, rfl, rfl, rfl, Grows.addEntry (s.modFeeder f next) ..⟩
  unfold State.faultyNoted
  split
  · exact noted.trans ⟨rfl, .rfl, rfl, rfl, rfl, Grows.addEntry ((s.modFeeder f next).closeResultEntry f op .lineFaulty) ..⟩
  · exact noted

theorem State.faultyNoted_runner (s : State) (f : Feeder) (op : Operation) (r : RunnerId) :
    (s.faultyNoted f op).runner r = s.runner r := by
  unfold State.faultyNoted
  split <;> rfl

include at' awaits

theorem claimTimeout_fails (operation : (s.feeder f).operation = some op) :
    StepFails s (s.claimTimeout f) r h (s.slot (h.first + i)) i (.close .claimTimeout) none := by
  have same := s.giveUp_sameStep f .testDone r
  have fails := endClose_fails (same.atStep at') (SameStep.awaiting (s.giveUp_runner f .testDone r) awaits) op
    (s.waitOrOpen f op) (result := .claimTimeout) fun e => nomatch e
  rw [same.slot] at fails
  unfold State.claimTimeout
  rw [operation]
  exact same.stepFails fails

theorem lineFaulty_fails (op : Operation) :
    StepFails s (s.lineFaulty f op) r h (s.slot (h.first + i)) i (.close .lineFaulty) none := by
  have same := s.faultyNoted_sameStep f op (if op.origin = .auto then s.faultyNext f else FeederRecord.toOpen) r
  have fails := closeEnded_fails (same.atStep at') (SameStep.awaiting (State.faultyNoted_runner ..) awaits)
    (s.feeder f).state (result := .lineFaulty) fun e => nomatch e
  rw [same.slot] at fails
  rw [lineFaulty_eq]
  exact same.stepFails fails

/-- A test judged, at the runner that awaits its close. -/
theorem judgeTest_at_runner (op : Operation) :
    (s.sample.last.values.ufs.get f = none →
      StepFails s (s.judgeTest f op) r h (s.slot (h.first + i)) i (.close (.interlocked .measurementLost)) none) ∧
    ∀ u b, s.sample.last.values.ufs.get f = some u → s.sample.last.values.ub = some b →
      (¬((s.config f).healthy : Int) * b ≤ 100 * u →
        StepFails s (s.judgeTest f op) r h (s.slot (h.first + i)) i (.close .lineFaulty) none) ∧
      (((s.config f).healthy : Int) * b ≤ 100 * u → s.lineMeasured f → s.busIsLive →
        (s.judgeTest f op).runner r = s.runner r) := by
  have quiet := s.testOver_quiet f op
  have runner := s.testOver_runner f op r
  rw [judgeTest_eq]
  generalize s.testOver f op = t at *
  have same := SameStep.of_quiet quiet runner
  have awaits' := SameStep.awaiting runner awaits
  have slot := same.slot (h.first + i)
  have config : t.config f = s.config f := congrArg (fun x => x.feeders.get f) quiet.settings
  refine ⟨fun lost => ?_, fun u b voltage bus => ?_⟩
  · rw [testOutcome_unmeasured (by rw [quiet.sample]; exact lost), ← slot]
    exact same.stepFails (endClose_fails (same.atStep at') awaits' _ _ fun e => nomatch e)
  · rw [testOutcome_judged (by rw [quiet.sample]; exact voltage) (by rw [quiet.sample]; exact bus), config]
    have tested : SameStep t (t.lineTested f op u b) r := ⟨rfl, .rfl, rfl, rfl, rfl, Grows.addEntry t ..⟩
    refine ⟨fun faulty => ?_, fun healthy measured live => ?_⟩
    · rw [if_neg faulty, ← slot]
      exact same.stepFails (tested.stepFails (lineFaulty_fails (tested.atStep (same.atStep at')) awaits' op))
    · have measured' : (t.lineTested f op u b).lineMeasured f := by
        show t.lineMeasured f
        unfold State.lineMeasured
        rw [quiet.sample, quiet.settings]
        exact measured
      have live' : (t.lineTested f op u b).busIsLive := by
        have station : t.station = s.station := congrArg Settings.station quiet.settings
        show t.busIsLive
        unfold State.busIsLive
        rw [quiet.sample, station]
        exact live
      rw [if_pos healthy, lineHealthy_closes measured' live']
      exact (enterClosing_runner (s := t.lineTested f op u b) (Runner.ignoresRect_of_close awaits') f op).trans runner

/-- The confirming position, at the runner that awaits its close. -/
theorem debounced_done (known : (s.input f).position ≠ none) (reads : (s.input f).reading = .closed)
    (closing : (s.feeder f).state = .closing) (operation : (s.feeder f).operation = some op) :
    MovesOn s (s.debounced (.feeder f)) r h i .done := by
  obtain ⟨frame, grows, -, -, -⟩ := positionTaken_takes s f
  have runner : (s.positionTaken f).runner r = s.runner r := by rw [frame]; rfl
  have feeder : (s.positionTaken f).feeder f = s.feeder f := by rw [frame]; rfl
  have same : SameStep s (s.positionTaken f) r :=
    ⟨by rw [runner], by rw [runner], by rw [frame], by rw [frame], by rw [frame], grows⟩
  have closes : (s.positionTaken f).positionClosed f =
      (s.positionTaken f).endClose f op .closedOk ((s.positionTaken f).enterClosed f) := by
    unfold State.positionClosed
    rw [feeder, closing, operation]
  rw [debounced_later known, reads]
  show MovesOn s ((s.positionTaken f).positionClosed f) r h i .done
  rw [closes]
  exact same.movesOn (endClose_done (same.atStep at') (SameStep.awaiting runner awaits) op _)

/-- OPEN FEEDER, at the runner that awaits the close it overtakes. -/
theorem openFeeder_fails (o : Origin) (closing : (s.feeder f).state = .closing) :
    StepFails s (s.openFeeder f o) r h (s.slot (h.first + i)) i (.close (.aborted .openRequest)) none := by
  rw [openFeeder_trips o (.inr closing)]
  exact tripFeeder_fails at' awaits closing .commanded o _ _ _

end closes

end Sys2Proof.Machine

/-! Changes of rectifier state, of the control location, of far states and of the frame values at the runners that await
them (09 R175, R176). -/

namespace Sys2Proof.Machine

/-! ## Changes beside the runners -/

/-- The runners, the programme store and the time stand, and entries are added at most. -/
structure RunnersStand (s u : State) : Prop where
  runners : u.runners = s.runners
  now : u.now = s.now
  slots : u.slots = s.slots
  headers : u.headers = s.headers
  grows : Grows s.events u.events

namespace RunnersStand

variable {s u v : State}

theorem refl (s : State) : RunnersStand s s := ⟨rfl, rfl, rfl, rfl, .refl _⟩

theorem trans (first : RunnersStand s u) (second : RunnersStand u v) : RunnersStand s v :=
  ⟨second.runners.trans first.runners, second.now.trans first.now, second.slots.trans first.slots,
    second.headers.trans first.headers, first.grows.trans second.grows⟩

theorem of_quiet (quiet : Quiet s u) (runners : u.runners = s.runners) : RunnersStand s u :=
  ⟨runners, quiet.now, quiet.slots, quiet.headers, quiet.grows⟩

theorem addEntry (s : State) (k : EventKind) (x : Subject) (o : Origin) (d : Detail) (v w : Option Int)
    (c : Option (Fin 4)) : RunnersStand s (s.addEntry k x o d v w c) := ⟨rfl, rfl, rfl, rfl, Grows.addEntry s ..⟩

theorem modRect (s : State) (g : Rectifier → Rectifier) : RunnersStand s (s.modRect g) := ⟨rfl, rfl, rfl, rfl, .refl _⟩

theorem rectEntry (s : State) (k : EventKind) (o : Origin) (d : Detail) (v w : Option Int) :
    RunnersStand s (s.rectEntry k o d v w) := addEntry ..

theorem crossingAt (s : State) (x : ClockState) (p : Option Nat) (n : Nat) (d : List Int) (k : Option Nat) :
    RunnersStand s (s.crossingAt x p n d k) := ⟨rfl, rfl, rfl, rfl, .refl _⟩

variable (stands : RunnersStand s u)
include stands

theorem runner (r : RunnerId) : u.runner r = s.runner r := congrArg (fun v => v.get r.index) stands.runners

theorem sameStep (r : RunnerId) : SameStep s u r :=
  ⟨by rw [stands.runner], by rw [stands.runner], stands.now, stands.slots, stands.headers, stands.grows⟩

end RunnersStand

/-! ## A change of rectifier state is handed to the runners (06, Rectifier states) -/

/-- Either the rectifier state stands, or what the event does ends with the notice of the new state to the runners, which
stood until then. -/
def TellsOfRect (s t : State) : Prop := t.rect.state = s.rect.state ∨ ∃ u, RunnersStand s u ∧ t = u.rectToRunners

namespace TellsOfRect

variable {s u t : State}

theorem before (stands : RunnersStand s u) (rect : u.rect.state = s.rect.state) (tells : TellsOfRect u t) :
    TellsOfRect s t := by
  rcases tells with still | ⟨v, before, told⟩
  · exact .inl (still.trans rect)
  · exact .inr ⟨v, stands.trans before, told⟩

theorem told (stands : RunnersStand s u) : TellsOfRect s u.rectToRunners := .inr ⟨u, stands, rfl⟩

theorem refl (s : State) : TellsOfRect s s := .inl rfl

theorem enterRunning (s : State) : TellsOfRect s s.enterRunning := told ((RunnersStand.modRect ..).trans (.rectEntry ..))

theorem lockedNotice (s : State) : TellsOfRect s s.lockedNotice := by
  unfold State.lockedNotice
  split
  · exact enterRunning s
  · exact refl s

theorem unlockedNotice (s : State) (c : ClockCause) : TellsOfRect s (s.unlockedNotice c) := by
  unfold State.unlockedNotice
  split
  · exact told ((RunnersStand.modRect ..).trans (.rectEntry ..))
  · exact .inl rfl

theorem cycleNotice (s : State) : TellsOfRect s s.cycleNotice := by
  obtain ⟨x, begun, running, other⟩ := s.cycleNotice_begins
  rw [begun]
  refine .inl ?_
  by_cases runs : s.rect.state = .running
  · exact (congrArg Rectifier.state (running runs).1 :)
  · exact (congrArg Rectifier.state (other runs).1 :)

theorem acquire (s : State) (m : Nat) : TellsOfRect s (s.acquire m) := by
  unfold State.acquire
  split
  · exact .inl rfl
  · split
    · exact .inl rfl
    · split
      · exact .inl rfl
      · split
        · exact .inl rfl
        · exact (lockedNotice _).before (.trans (.crossingAt ..) (.rectEntry ..)) rfl

theorem track (s : State) (last m p : Nat) : TellsOfRect s (s.track last m p) := by
  unfold State.track
  split
  · exact (unlockedNotice ..).before (.trans (.crossingAt ..) (.rectEntry ..)) rfl
  · dsimp only
    split
    · exact (unlockedNotice ..).before (.trans (.crossingAt ..) (.rectEntry ..)) rfl
    · exact (cycleNotice _).before (.crossingAt ..) rfl

theorem crossing (s : State) : TellsOfRect s s.crossing := by
  unfold State.crossing
  split
  · exact .inl rfl
  · exact acquire ..
  · exact .inl rfl
  · exact track ..
  · exact .inl rfl

theorem watchOut (s : State) : TellsOfRect s s.watchOut := by
  have reset : RunnersStand s (State.rectEntry { s with clock := LineClock.reset } .syncLost .protection
      (.syncLost .timeout)) := .trans (u := { s with clock := LineClock.reset }) ⟨rfl, rfl, rfl, rfl, .refl _⟩ (.rectEntry ..)
  unfold State.watchOut
  dsimp only
  split
  · exact (unlockedNotice ..).before reset rfl
  · exact .inl rfl

theorem acCloseFailed (s : State) : TellsOfRect s s.acCloseFailed := told ((RunnersStand.modRect ..).trans (.rectEntry ..))

theorem enterSyncing (s : State) : TellsOfRect s s.enterSyncing := by
  unfold State.enterSyncing
  dsimp only
  split
  · exact told (((RunnersStand.modRect ..).trans (.modRect ..)).trans (.rectEntry ..))
  · exact told (.modRect ..)

theorem acPositionChange (s : State) (x : Position) : TellsOfRect s (s.acPositionChange x) := by
  have opens : TellsOfRect s s.acOpenedUncommanded := told ((RunnersStand.modRect ..).trans (.rectEntry ..))
  unfold State.acPositionChange
  split
  · split
    · exact (enterSyncing _).before ((RunnersStand.modRect ..).trans (.rectEntry ..)) rfl
    · exact .inl rfl
  · split
    · exact opens
    · exact .inl rfl
  · split
    · exact opens
    · exact refl s
  · split
    · exact refl s
    · exact .inl rfl
  · exact refl s

theorem debounced (s : State) : TellsOfRect s (s.debounced .ac) := by
  have taken : RunnersStand s (s.takePosition .ac) := by
    have grows := takePosition_grows s .ac
    have frame := takePosition_ac_frame s
    exact ⟨by rw [frame], by rw [frame], by rw [frame], by rw [frame], grows⟩
  have rect : (s.takePosition .ac).rect.state = s.rect.state := by rw [takePosition_ac_frame]
  rw [acBreakerHolds_position rfl, State.acBreakerPosition]
  split
  · exact .inl rect
  · exact (acPositionChange ..).before taken rect

theorem rectTrip (s : State) (c : RectTripCause) (v w : Option Int) : TellsOfRect s (s.rectTrip c v w) :=
  told (((RunnersStand.modRect ..).trans (.modRect ..)).trans (.rectEntry ..))

theorem failureNotice (s : State) (f : Feeder) : TellsOfRect s (s.failureNotice f) := by
  unfold State.failureNotice
  split
  · exact rectTrip ..
  · exact refl s

theorem feederNotices (s : State) (old : FeederState) (f : Feeder) : TellsOfRect s (s.feederNotices old f) := by
  have queued (u : State) : RunnersStand u (u.queueFeederEnd f) :=
    .of_quiet ((Quiet.refl u).queueFeederEnd f) (by unfold State.queueFeederEnd; split <;> rfl)
  have rect (u : State) : (u.queueFeederEnd f).rect = u.rect := by unfold State.queueFeederEnd; split <;> rfl
  have noticed : RunnersStand s ((s.protectionNotice old f).retardNotice f) := ⟨rfl, rfl, rfl, rfl, .refl _⟩
  unfold State.feederNotices
  split
  · exact refl s
  · exact (failureNotice ..).before (noticed.trans (queued _)) (by rw [rect]; rfl)

theorem breakerFails (s : State) (f : Feeder) (op : Operation) : TellsOfRect s (s.breakerFails f op) := by
  have posted (u : State) : RunnersStand u (u.postFar f .transferTrip) :=
    .of_quiet ((Quiet.refl u).postFar f .transferTrip) (by unfold State.postFar; split <;> rfl)
  have rect (u : State) : (u.postFar f .transferTrip).rect = u.rect := by unfold State.postFar; split <;> rfl
  have failed : RunnersStand s (s.modFeeder f fun r => r.toPhase .breakerFailed { op with deadline := none }) :=
    ⟨rfl, rfl, rfl, rfl, .refl _⟩
  unfold State.breakerFails
  exact (feederNotices ..).before ((failed.trans (.addEntry ..)).trans (posted _)) (by rw [rect]; rfl)

end TellsOfRect

/-! ## The commands of 09 R175 -/

section commands

variable {s t : State} {c : Instr}

/-- The value of an outcome that runs. -/
theorem next_inj {s t : State} (same : (.next s : Host.Outcome State Fault Refusal) = .next t) : s = t :=
  Host.Outcome.next.inj same

theorem exec_crossingWatchExpiry_eq (runs : s.resetLine = false) :
    exec .crossingWatchExpiry s = .next (if s.reached s.clock.watch then s.watchOut else s) := by
  show execCrossingWatchExpiry s = _
  unfold execCrossingWatchExpiry
  rw [live_next runs]

theorem exec_acCloseDeadline_eq (runs : s.resetLine = false) :
    exec .acCloseDeadline s = .next s.acCloseFailed ∨ exec .acCloseDeadline s = .next s := by
  cases due : s.acDue .close with
  | some op => exact .inl (exec_acCloseDeadline runs due)
  | none =>
    right
    show execAcCloseDeadline s = _
    unfold execAcCloseDeadline
    rw [live_next runs, due]

theorem exec_positionDebounceExpiry_eq (runs : s.resetLine = false) (b : Breaker) :
    exec (.positionDebounceExpiry b) s = .next (if s.debounceDue b then s.debounced b else s) := by
  show execPositionDebounceExpiry b s = _
  unfold execPositionDebounceExpiry
  rw [live_next runs]

theorem exec_tripConfirmLimit_eq (runs : s.resetLine = false) (f : Feeder) :
    (∃ op, exec (.tripConfirmLimit f) s = .next (s.breakerFails f op)) ∨ exec (.tripConfirmLimit f) s = .next s := by
  have run : exec (.tripConfirmLimit f) s = execTripConfirmLimit f s := rfl
  rw [run]
  unfold execTripConfirmLimit
  rw [live_next runs]
  split
  next op _ => exact .inl ⟨op, rfl⟩
  · exact .inr rfl

/-- The four commands that reach the rectifier from the mains and from the AC breaker. -/
theorem rectifierCommand_tells (runs : s.resetLine = false)
    (listed : c ∈ [Instr.zeroCrossing, .crossingWatchExpiry, .acCloseDeadline, .positionDebounceExpiry .ac])
    (ran : exec c s = .next t) : TellsOfRect s t := by
  simp only [List.mem_cons, List.not_mem_nil, or_false] at listed
  rcases listed with rfl | rfl | rfl | rfl
  · rw [exec_zeroCrossing runs] at ran
    cases next_inj ran
    exact .crossing s
  · rw [exec_crossingWatchExpiry_eq runs] at ran
    cases next_inj ran
    split
    · exact .watchOut s
    · exact .refl s
  · rcases exec_acCloseDeadline_eq runs with failed | still
    · cases next_inj (failed.symm.trans ran)
      exact .acCloseFailed s
    · cases next_inj (still.symm.trans ran)
      exact .refl s
  · rw [exec_positionDebounceExpiry_eq runs] at ran
    cases next_inj ran
    split
    · exact .debounced s
    · exact .refl s

theorem tripConfirmLimit_tells (runs : s.resetLine = false) {f : Feeder}
    (ran : exec (.tripConfirmLimit f) s = .next t) : TellsOfRect s t := by
  rcases exec_tripConfirmLimit_eq runs f with ⟨op, failed⟩ | still
  · cases next_inj (failed.symm.trans ran)
    exact .breakerFails s f op
  · cases next_inj (still.symm.trans ran)
    exact .refl s

end commands

end Sys2Proof.Machine

/-! The waits of runners at a frame, at a new control location and at a far state that is lost (09 R176); and the outcomes
that runners await, together. -/

namespace Sys2Proof.Machine

/-! ## A wait among the parts of an event -/

/-- The rectifier state stands, or a trip has come. -/
def FiringMoves (s t : State) : Prop := t.rect.state = s.rect.state ∨ t.rect.state = .tripped

theorem FiringMoves.trans {s u t : State} (first : FiringMoves s u) (second : FiringMoves u t) : FiringMoves s t := by
  rcases second with same | tripped
  · rcases first with same' | tripped
    · exact .inl (same.trans same')
    · exact .inr (same.trans tripped)
  · exact .inr tripped

section conditions

variable {r : RunnerId} {s t : State} {x : Step}

theorem RunnerStands.conditions_of_asked (stands : RunnerStands r s t)
    (rect : x.mask.rectifierRunning = true → t.rect.state = s.rect.state) : t.conditions x ↔ s.conditions x := by
  have station : t.station = s.station := congrArg Settings.station stands.settings
  unfold State.conditions
  rw [stands.sample, station, stands.key]
  simp only [stands.far]
  exact and_congr_right' (and_congr_left' (imp_congr_right fun asked => by rw [rect asked]))

/-- A mask that holds after a trip that may have come held before it. -/
theorem RunnerStands.conditions_before (stands : RunnerStands r s t) (moves : FiringMoves s t) (holds : t.conditions x) :
    s.conditions x := by
  refine (stands.conditions_of_asked fun asked => moves.resolve_right fun tripped => ?_).mp holds
  obtain ⟨-, running, -⟩ := holds
  rw [running asked] at tripped
  cases tripped

theorem conditions_of_only {q : RunnerId} (only : OnlyRunner s t q) : t.conditions x ↔ s.conditions x := by
  obtain ⟨frame, -⟩ := only
  rw [frame]
  rfl

end conditions

section waits

variable {s t : State} {r : RunnerId} {n : Fin 8} {h : Header} {i : Nat} {reads : Step → Bool}
  {A : List (State → State)}

/-- Parts beside the waits leave what a waiting runner reads, but for a trip of the rectifier. -/
structure LeavesWaits (r : RunnerId) (s u : State) : Prop where
  leaves : (s.runner r).awaiting ≠ some .rectifier → RunnerStands r s u ∧ FiringMoves s u

theorem LeavesWaits.trans {u v : State} (first : LeavesWaits r s u) (second : LeavesWaits r u v) :
    LeavesWaits r s v := by
  refine ⟨fun other => ?_⟩
  obtain ⟨stands, moves⟩ := first.leaves other
  obtain ⟨stands', moves'⟩ := second.leaves (by rw [stands.runner]; exact other)
  exact ⟨stands.trans stands', moves.trans moves'⟩

theorem LeavesWaits.of_stands (stands : RunnerStands r s t) (state : t.rect.state = s.rect.state) : LeavesWaits r s t :=
  ⟨fun _ => ⟨stands, .inl state⟩⟩

/-- A wait judged as one part of an event: complete where the mask holds after the event, and standing where it does
not, if the rectifier state is not what it misses. -/
theorem waits_judged (at' : AtStep s r n h i) {d : Instant} (awaits : (s.runner r).awaiting = some (.wait d))
    (asked : reads (s.slot (h.first + i)) = true) (further : ∀ part ∈ A, ∀ u, LeavesWaits r u (part u))
    (parts : t = together (A ++ waitParts reads) s) :
    (t.conditions (s.slot (h.first + i)) → MovesOn s t r h i .done) ∧
    (¬t.conditions (s.slot (h.first + i)) →
      (s.slot (h.first + i)).mask.rectifierRunning = false ∨ t.rect.state = s.rect.state →
      t.runner r = s.runner r) := by
  have others (q : RunnerId) (differs : q ≠ r) (u : State) : LeavesWaits r u (u.judgeWait reads q) :=
    .of_stands (.of_other (judgeWait_only u reads q) ((Quiet.refl u).judgeWait reads q).grows (Ne.symm differs))
      (by rw [(judgeWait_only u reads q).1])
  obtain ⟨u, before, after⟩ := together_runner (R := LeavesWaits r) (fun u => .of_stands (.refl r u) rfl)
    (fun _ _ _ => .trans) (fun u k => .of_stands (.choices r u k) rfl) (act := fun q u => u.judgeWait reads q) (r := r)
    (A := A) (B := []) others (fun part member => further part (member.resolve_right (List.not_mem_nil ·))) s
  rw [List.append_nil] at after
  obtain ⟨stands, moves⟩ := before.leaves (by rw [awaits]; exact fun e => nomatch e)
  have judged := judged_in_event at' awaits asked stands (RunnerStands.refl r (u.judgeWait reads r))
  have only := judgeWait_only u reads r
  have other : ((u.judgeWait reads r).runner r).awaiting ≠ some .rectifier := by
    by_cases holds : u.conditions (s.slot (h.first + i))
    · rw [(judged.1 holds).awaiting]
      exact fun e => nomatch e
    · rw [judged.2 holds, awaits]
      exact fun e => nomatch e
  obtain ⟨stands', moves'⟩ := after.leaves other
  rw [show together (A ++ allRunners.map fun q u => u.judgeWait reads q) s = t from parts.symm] at stands' moves'
  have rect : (u.judgeWait reads r).rect = u.rect := by rw [only.1]
  refine ⟨fun holds => ?_, fun fails still => ?_⟩
  · have held := (conditions_of_only only).mp (stands'.conditions_before moves' holds)
    exact (judged.1 held).later stands'.runner stands'.grows
  · refine stands'.runner.trans (judged.2 fun held => fails ?_)
    refine (stands'.conditions_of_asked fun asks => ?_).mpr ((conditions_of_only only).mpr held)
    have same : t.rect.state = s.rect.state := still.resolve_left (by rw [asks]; exact Bool.noConfusion)
    rcases moves' with kept | tripped
    · exact kept
    · rw [tripped, rect]
      rcases moves with kept | tripped'
      · rw [kept, ← same, tripped]
      · exact tripped'.symm

end waits

/-! ## The parts of a frame beside the waits (01 R13) -/

section frame

variable {r : RunnerId} {s : State} {q : Quantities}

theorem RunnerStands.of_quiet {u : State} (quiet : Quiet s u) (runner : u.runner r = s.runner r)
    (sections : u.sections = s.sections) : RunnerStands r s u :=
  ⟨runner, quiet.now, quiet.slots, quiet.headers, quiet.sample, quiet.settings, quiet.key,
    fun f => congrArg (fun v => (v.get f).farState) sections, quiet.grows⟩

/-- A rectifier that does not run neither completes nor ends a wait. -/
theorem rectToRunners_of_stopped (other : (s.runner r).awaiting ≠ some .rectifier) (stopped : s.rect.state ≠ .running) :
    s.rectToRunners.runner r = s.runner r := by
  obtain ⟨u, stands, rect, after⟩ := rectToRunners_reaches r s
  have unjudged : (readsRectifier (u.stepOf r) && u.satisfied (u.stepOf r)) = false := by
    rw [Bool.eq_false_iff, ne_eq, Bool.and_eq_true, satisfied_iff]
    rintro ⟨asks, -, running, -⟩
    exact stopped (by rw [← rect]; exact running asks)
  have still : u.rectAtRunner r = u := by
    unfold State.rectAtRunner
    rw [rectToRunner_of_other (by rw [stands.runner]; exact other), State.judgeWait, Bool.and_assoc, unjudged, Bool.and_false]
    rfl
  rw [still] at after
  exact after.runner.trans stands.runner

theorem LeavesWaits.rectTrip (s : State) (c : RectTripCause) (v w : Option Int) : LeavesWaits r s (s.rectTrip c v w) := by
  refine ⟨fun other => ?_⟩
  have told (u : State) (runner : u.runner r = s.runner r) (tripped : u.rect.state = .tripped) :
      u.rectToRunners.runner r = s.runner r :=
    (rectToRunners_of_stopped (by rw [runner]; exact other) (by rw [tripped]; exact fun e => nomatch e)).trans runner
  exact ⟨.of_quiet ((Quiet.refl s).rectTrip c v w) (told _ rfl rfl) (sectionsView.rectTrip ..),
    .inr (congrArg Rectifier.state (s.rectTrip_rect c v w))⟩

theorem LeavesWaits.modRect (s : State) (g : Rectifier → Rectifier) (state : (g s.rect).state = s.rect.state) :
    LeavesWaits r s (s.modRect g) :=
  .of_stands ⟨rfl, rfl, rfl, rfl, rfl, rfl, rfl, fun _ => rfl, .refl _⟩ state

theorem LeavesWaits.overvoltageFrame (s : State) (v : Option Int) : LeavesWaits r s (s.overvoltageFrame v) := by
  have entered (u : State) (k : EventKind) (o : Origin) (d : Detail) (a b : Option Int) :
      LeavesWaits r u (u.rectEntry k o d a b) :=
    .of_stands ⟨rfl, rfl, rfl, rfl, rfl, rfl, rfl, fun _ => rfl, Grows.addEntry u ..⟩ rfl
  unfold State.overvoltageFrame
  split
  · exact modRect _ _ rfl
  · dsimp only
    split
    · refine LeavesWaits.trans ?_ (entered ..)
      exact modRect _ _ rfl
    · exact modRect _ _ rfl

theorem LeavesWaits.overcurrentFrame (s : State) (v : Option Int) : LeavesWaits r s (s.overcurrentFrame v) := by
  unfold State.overcurrentFrame
  split
  · split
    · exact modRect _ _ rfl
    · dsimp only
      split
      · refine LeavesWaits.trans ?_ (rectTrip ..)
        exact modRect _ _ rfl
      · exact modRect _ _ rfl
  · exact .of_stands (.refl r s) rfl

theorem LeavesWaits.frameParts {part : State → State} (member : part ∈ frameParts q) (u : State) :
    LeavesWaits r u (part u) := by
  simp only [Machine.frameParts, List.mem_cons, List.not_mem_nil, or_false] at member
  rcases member with rfl | rfl
  · exact overvoltageFrame ..
  · exact overcurrentFrame ..

theorem LeavesWaits.fillParts {part : State → State} (member : part ∈ fillParts q) (u : State) :
    LeavesWaits r u (part u) := by
  have rect := fillParts_rect member u
  have quiet := Quiet.fillParts member (.refl u)
  obtain ⟨n, -, rfl⟩ := List.mem_map.mp member
  have frame : u.fillCapture n q.triple = (u.fillCapture n q.triple).besideCaptures u :=
    State.fillCapture_besideCaptures _ u n q.triple
  have stands : RunnerStands r u (u.fillCapture n q.triple) := .of_quiet quiet (by rw [frame]; rfl) (by rw [frame]; rfl)
  exact .of_stands stands (congrArg Rectifier.state rect)

end frame

end Sys2Proof.Machine

/-! The outcomes that runners await, command by command (09 R174 to R176). -/

namespace Sys2Proof.Machine

/-! ## What the commands of the rectifier leave -/

section inside

variable (s : State)

theorem OnlyRectifierInside.cycleNotice : OnlyRectifierInside s s.cycleNotice := .modRect ..

theorem OnlyRectifierInside.crossing : OnlyRectifierInside s s.crossing := by
  have acquires (u : State) (m : Nat) : OnlyRectifierInside u (u.acquire m) := by
    unfold State.acquire
    split
    · exact crossingAt ..
    · split
      · exact crossingAt ..
      · split
        · exact crossingAt ..
        · split
          · exact crossingAt ..
          · exact ((crossingAt ..).trans (rectEntry ..)).trans (lockedNotice _)
  have tracks (u : State) (last m p : Nat) : OnlyRectifierInside u (u.track last m p) := by
    unfold State.track
    split
    · exact ((crossingAt ..).trans (rectEntry ..)).trans (unlockedNotice ..)
    · dsimp only
      split
      · exact ((crossingAt ..).trans (rectEntry ..)).trans (unlockedNotice ..)
      · exact (crossingAt ..).trans (cycleNotice _)
  unfold State.crossing
  split
  · exact crossingAt ..
  · exact acquires ..
  · exact crossingAt ..
  · exact tracks ..
  · exact crossingAt ..

theorem OnlyRectifierInside.watchOut : OnlyRectifierInside s s.watchOut := by
  have reset : OnlyRectifierInside s (State.rectEntry { s with clock := LineClock.reset } .syncLost .protection
      (.syncLost .timeout)) := ⟨rfl, rfl, rfl⟩
  unfold State.watchOut
  dsimp only
  split
  · exact reset.trans (unlockedNotice ..)
  · exact reset

theorem OnlyRectifierInside.acCloseFailed : OnlyRectifierInside s s.acCloseFailed :=
  ((modRect ..).trans (rectEntry ..)).trans (rectToRunners _)

theorem OnlyRectifierInside.debounced : OnlyRectifierInside s (s.debounced .ac) := by
  rw [acBreakerHolds_position rfl, State.acBreakerPosition]
  split
  · exact takePosition_ac_inside s
  · exact (takePosition_ac_inside s).trans (acPositionChange ..)

theorem rectifierCommand_inside {s t : State} {c : Instr} (runs : s.resetLine = false)
    (listed : c ∈ [Instr.zeroCrossing, .crossingWatchExpiry, .acCloseDeadline, .positionDebounceExpiry .ac])
    (ran : exec c s = .next t) : OnlyRectifierInside s t := by
  simp only [List.mem_cons, List.not_mem_nil, or_false] at listed
  rcases listed with rfl | rfl | rfl | rfl
  · rw [exec_zeroCrossing runs] at ran
    cases next_inj ran
    exact .crossing s
  · rw [exec_crossingWatchExpiry_eq runs] at ran
    cases next_inj ran
    split
    · exact .watchOut s
    · exact .refl s
  · rcases exec_acCloseDeadline_eq runs with failed | still
    · cases next_inj (failed.symm.trans ran)
      exact .acCloseFailed s
    · cases next_inj (still.symm.trans ran)
      exact .refl s
  · rw [exec_positionDebounceExpiry_eq runs] at ran
    cases next_inj ran
    split
    · exact .debounced s
    · exact .refl s

end inside

/-! ## The rows of 09 R175 and R176 -/

theorem not_changes_of_same {s t : State} {x : Step} (rect : t.rect.state = s.rect.state)
    (location : t.key.location = s.key.location) (far : ∀ f, (t.section' f).farState = (s.section' f).farState) :
    ¬ChangesWhatAMaskReads s t x := by
  rintro (⟨-, changed⟩ | ⟨-, changed⟩ | ⟨-, f, -, changed⟩)
  · exact changed rect
  · exact changed location
  · exact changed (far f)

/-- A far state that is new is taken and the group evaluated, before the waits are judged. -/
theorem setFarState_parts {s : State} {f : Feeder} {x : Option FeederState} (new : (s.section' f).farState ≠ x) :
    ∃ v, RunnersStand s v ∧ v.rect = s.rect ∧ v.key = s.key ∧
      (∀ g, g ≠ f → v.section' g = s.section' g) ∧ s.setFarState f x = v.judgeWaits (readsFar f) := by
  let u : State := s.modSection f fun r => { r with farState := x }
  have taken : RunnersStand s u := ⟨rfl, rfl, rfl, rfl, .refl _⟩
  have regrouped : (u.regroup f).runners = u.runners ∧ (u.regroup f).rect = u.rect ∧ (u.regroup f).sections = u.sections := by
    unfold State.regroup
    dsimp only
    split <;> exact ⟨rfl, rfl, rfl⟩
  obtain ⟨runners, rect, sections⟩ := regrouped
  have quiet := (Quiet.refl u).regroup f
  refine ⟨u.regroup f, taken.trans (.of_quiet quiet runners), rect, quiet.key, fun g differs => ?_, if_neg new⟩
  exact (congrArg (fun v => v.get g) sections).trans (State.modSection_section_ne s _ differs)

section rows

variable {s t : State} {r : RunnerId} {n : Fin 8} {h : Header} {i : Nat} {x : Step} (at' : AtStep s r n h i)
  (step : x = s.slot (h.first + i))
include at' step

/-- A change of rectifier state at the runner that awaits it (09 R175). -/
theorem rectChange_awaited (tells : TellsOfRect s t) (awaits : (s.runner r).awaiting = some .rectifier)
    (changed : t.rect.state ≠ s.rect.state) :
    (t.rect.state = .running → MovesOn s t r h i .done) ∧
    (t.rect.state = .blocked ∨ t.rect.state = .tripped →
      StepFails s t r h x i .rectifierNotRunning (some (t.rect.state.code : Int))) ∧
    (t.rect.state = .connecting ∨ t.rect.state = .syncing → t.runner r = s.runner r) := by
  obtain ⟨u, stands, told⟩ := tells.resolve_left changed
  have rect : t.rect = u.rect := told ▸ rectView.rectToRunners u
  have same := stands.sameStep r
  obtain ⟨done', fails, between⟩ := rectToRunners_awaited (same.atStep at') (by rw [stands.runner]; exact awaits)
  rw [rect]
  subst told step
  refine ⟨fun running => same.movesOn (done' running), fun stopped => ?_, fun still => ?_⟩
  · have failed := same.stepFails (fails stopped)
    rwa [same.slot] at failed
  · exact (between still).trans (stands.runner r)

variable {d : Instant} (awaits : (s.runner r).awaiting = some (.wait d))
include awaits

/-- A change of rectifier state at a runner whose mask reads it (09 R176). -/
theorem rectChange_waited (tells : TellsOfRect s t) (inside : OnlyRectifierInside s t) (changes : ChangesWhatAMaskReads s t x) :
    (t.conditions x → MovesOn s t r h i .done) ∧ (¬t.conditions x → t.runner r = s.runner r) := by
  obtain ⟨only, -, -⟩ := inside
  unfold OnlyRectifier at only
  have key : t.key = s.key := by rw [only]
  have sections : t.sections = s.sections := by rw [only]
  obtain ⟨asked, changed⟩ : x.mask.rectifierRunning = true ∧ t.rect.state ≠ s.rect.state := by
    rcases changes with rect | ⟨-, location⟩ | ⟨-, f, -, far⟩
    · exact rect
    · exact absurd (congrArg KeyInput.location key) location
    · exact absurd (congrArg (fun v => (v.get f).farState) sections) far
  obtain ⟨u, stands, told⟩ := tells.resolve_left changed
  have same := stands.sameStep r
  have slot := same.slot (h.first + i)
  have frame := u.rectToRunners_frame
  have conditions : t.conditions x ↔ u.conditions x := by
    rw [told, frame]
    rfl
  subst step
  obtain ⟨holds, fails⟩ := rectToRunners_waited (same.atStep at') (by rw [stands.runner]; exact awaits)
    (by rw [slot]; exact asked)
  rw [slot] at holds fails
  rw [conditions, told]
  exact ⟨fun held => same.movesOn (holds held), fun missed => (fails missed).trans (stands.runner r)⟩

/-- A frame at a runner whose mask reads the bus (09 R176). -/
theorem frame_waited {words : File Word 34} (hands : s.handsOn words) (asked : x.mask.busLive = true)
    (ran : exec (.frameComplete words) s = .next t) :
    (t.conditions x → MovesOn s t r h i .done) ∧
    (¬t.conditions x → x.mask.rectifierRunning = false → t.runner r = s.runner r) := by
  rw [exec_frameComplete_hands hands, State.handOn_eq] at ran
  have base : RunnersStand s (s.handBase words) := by
    have grows := State.handBase_grows (s := s) (words := words)
    obtain ⟨_, _, _, _, _, frame⟩ := State.handBase_frame (s := s) (words := words)
    exact ⟨by rw [frame], by rw [frame], by rw [frame], by rw [frame], grows⟩
  generalize s.handBase words = b at base ran
  generalize s.frameMark words = mark, frameNumber words = number, quantities s.settings.slotMap words = q at ran
  have taken : RunnersStand b (b.takenIn mark number q) := by
    have grows := (Quiet.refl b).settleCaptures.grows
    obtain ⟨_, _, _, frame⟩ := b.takenIn_frame mark number q
    rw [frame]
    exact ⟨rfl, rfl, rfl, rfl, grows⟩
  generalize (b.lastTaken number q).newRequest ((b.lastTaken number q).frameAtFaults mark number q) = decided at ran
  generalize b.takenIn mark number q = u at taken ran
  have judged {v : State} (stands : RunnersStand u v) {A : List (State → State)}
      (further : ∀ part ∈ A, ∀ w, LeavesWaits r w (part w)) (parts : t = together (A ++ waitParts readsBus) v) :
      (t.conditions x → MovesOn s t r h i .done) ∧
      (¬t.conditions x → x.mask.rectifierRunning = false → t.runner r = s.runner r) := by
    have all := (base.trans taken).trans stands
    have same := all.sameStep r
    have slot := same.slot (h.first + i)
    obtain ⟨holds, fails⟩ := waits_judged (same.atStep at') (by rw [all.runner]; exact awaits) (reads := readsBus)
      (by rw [slot, ← step]; exact asked) further parts
    rw [slot, ← step] at holds fails
    exact ⟨fun held => same.movesOn (holds held), fun missed unread => (fails missed (.inl unread)).trans (all.runner r)⟩
  have leaves (part : State → State) (member : part ∈ frameParts q ++ fillParts q) (w : State) :
      LeavesWaits r w (part w) := by
    rcases List.mem_append.mp member with firing | fills
    · exact .frameParts firing w
    · exact .fillParts fills w
  obtain ⟨k, now | ⟨-, later⟩⟩ := u.frameAtCaptures_cases decided q
  · rw [now] at ran
    exact judged (v := { u with choices := k }.frameHistories q) ⟨rfl, rfl, rfl, rfl, .refl _⟩ leaves (next_inj ran).symm
  · rw [later] at ran
    exact judged (v := { u with choices := k }.frameLate q) ⟨rfl, rfl, rfl, rfl, .refl _⟩
      (fun part member => leaves part (List.mem_append_left _ member)) (next_inj ran).symm

/-- A new control location at a runner whose mask reads it (09 R176). -/
theorem location_waited (runs : s.resetLine = false) (ran : exec .locationChanged s = .next t)
    (changes : ChangesWhatAMaskReads s t x) :
    (t.conditions x → MovesOn s t r h i .done) ∧ (¬t.conditions x → t.runner r = s.runner r) := by
  have run : exec .locationChanged s = .next (if s.keyDue then s.changeLocation (keyReading s.key.made) else s) := by
    show execLocationChanged s = _
    unfold execLocationChanged
    rw [live_next runs]
  have same' := next_inj (run.symm.trans ran)
  generalize keyReading s.key.made = y at same'
  split at same'
  case isFalse =>
    subst same'
    rcases changes with ⟨-, rect⟩ | ⟨-, location⟩ | ⟨-, f, -, far⟩
    · exact absurd rfl rect
    · exact absurd rfl location
    · exact absurd rfl far
  obtain ⟨_, -, -, -, frame⟩ := s.changeLocation_frame y
  rw [same'] at frame
  have rect : t.rect = s.rect := by rw [frame]; rfl
  have sections : t.sections = s.sections := by rw [frame]; rfl
  have asked : readsLocation x = true := by
    rcases changes with ⟨-, changed⟩ | ⟨asked, -⟩ | ⟨-, f, -, far⟩
    · exact absurd (congrArg Rectifier.state rect) changed
    · exact (Bool.or_eq_true ..).mpr asked
    · exact absurd (congrArg (fun v => (v.get f).farState) sections) far
  have stands : RunnersStand s (s.locationAdded y) := ⟨rfl, rfl, rfl, rfl, Grows.addEntry s ..⟩
  have table (u : State) : RunnerStands r u (u.takeLocation y) ∧ (u.takeLocation y).rect = u.rect := by
    obtain ⟨-, taken⟩ := (u.takeLocation_only y).at_location (u.takeLocation_ports y)
    have grows := u.takeLocation_grows y
    generalize u.takeLocation y = w at taken grows
    exact ⟨⟨by rw [taken]; rfl, by rw [taken], by rw [taken], by rw [taken], by rw [taken], by rw [taken],
      by rw [taken], fun f => by rw [taken]; rfl, grows⟩, by rw [taken]⟩
  have added : (s.locationAdded y).rect = s.rect := rfl
  have parts : t = together ([fun u => u.takeLocation y] ++ waitParts readsLocation) (s.locationAdded y) := same'.symm
  have further : ∀ part ∈ [fun u : State => u.takeLocation y], ∀ u, LeavesWaits r u (part u) := by
    intro part member u
    rw [List.mem_singleton] at member
    subst member
    exact .of_stands (table u).1 (congrArg Rectifier.state (table u).2)
  generalize s.locationAdded y = v at stands added parts
  have same := stands.sameStep r
  have slot := same.slot (h.first + i)
  obtain ⟨holds, fails⟩ := waits_judged (same.atStep at') (by rw [stands.runner]; exact awaits) (reads := readsLocation)
    (by rw [slot, ← step]; exact asked) further parts
  rw [slot, ← step] at holds fails
  exact ⟨fun held => same.movesOn (holds held), fun missed =>
    (fails missed (.inr (by rw [rect, added]))).trans (stands.runner r)⟩

/-- A far state that is lost, at a runner whose mask reads it (09 R176). -/
theorem farStale_waited (runs : s.resetLine = false) {f : Feeder} (ran : exec (.farStateStale f) s = .next t)
    (changes : ChangesWhatAMaskReads s t x) :
    (t.conditions x → MovesOn s t r h i .done) ∧ (¬t.conditions x → t.runner r = s.runner r) := by
  have run : exec (.farStateStale f) s = .next (if s.staleDue f then
      (s.modSection f fun r => { r with staleFrom := none }).setFarState f none else s) := by
    show execFarStateStale f s = _
    unfold execFarStateStale
    rw [live_next runs]
  have same' := next_inj (run.symm.trans ran)
  split at same'
  case isFalse =>
    subst same'
    exact absurd changes (not_changes_of_same rfl rfl fun _ => rfl)
  have unmarked : RunnersStand s (s.modSection f fun r => { r with staleFrom := none }) := ⟨rfl, rfl, rfl, rfl, .refl _⟩
  have far (g : Feeder) : ((s.modSection f fun r => { r with staleFrom := none }).section' g).farState =
      (s.section' g).farState := by
    by_cases same : g = f
    · subst same
      rw [State.modSection_section_self]
    · rw [State.modSection_section_ne _ _ same]
  have rect : (s.modSection f fun r => { r with staleFrom := none }).rect = s.rect := rfl
  have key : (s.modSection f fun r => { r with staleFrom := none }).key = s.key := rfl
  generalize (s.modSection f fun r => { r with staleFrom := none }) = u at *
  by_cases unknown : (u.section' f).farState = none
  · rw [setFarState_same unknown] at same'
    subst same'
    exact absurd changes (not_changes_of_same (by rw [rect]) (by rw [key]) far)
  obtain ⟨v, stands, rect', key', far', parts⟩ := setFarState_parts unknown
  rw [same'] at parts
  have all := unmarked.trans stands
  have after : t.rect = s.rect := by
    rw [parts]
    exact (rectView.judgeWaits v _).trans (rect'.trans rect)
  have asked : readsFar f x = true := by
    rcases changes with ⟨-, changed⟩ | ⟨-, changed⟩ | ⟨asks, g, target, changed⟩
    · exact absurd (congrArg Rectifier.state after) changed
    · have kept : t.key = s.key := by
        rw [parts]
        exact (((Quiet.refl v).judgeWaits (readsFar f)).key.trans key').trans key
      exact absurd (congrArg KeyInput.location kept) changed
    · have only : g = f := by
        by_contra other
        have sections : t.sections = v.sections := by
          rw [parts]
          exact sectionsView.judgeWaits v _
        have same : t.section' g = u.section' g := (congrArg (fun w => w.get g) sections).trans (far' g other)
        exact changed ((congrArg SectionRecord.farState same).trans (far g))
      subst only
      simpa [readsFar, target] using asks
  have same := all.sameStep r
  have slot := same.slot (h.first + i)
  obtain ⟨holds, fails⟩ := waits_judged (same.atStep at') (by rw [all.runner]; exact awaits) (reads := readsFar f)
    (A := []) (by rw [slot, ← step]; exact asked) (fun _ member => nomatch member) parts
  rw [slot, ← step] at holds fails
  exact ⟨fun held => same.movesOn (holds held), fun missed =>
    (fails missed (.inr (by rw [after, rect', rect]))).trans (all.runner r)⟩

end rows

/-- OPEN FEEDER of a CLOSING feeder, at the runner that awaits its close. -/
theorem openRequest_fails {s : State} {r : RunnerId} {n : Fin 8} {h : Header} {i : Nat} (at' : AtStep s r n h i)
    {f : Feeder} (awaits : (s.runner r).awaiting = some (.close f)) (closing : (s.feeder f).state = .closing) {p : Port}
    {tag : Byte} (offers : s.offers p 0x10 tag [BitVec.ofNat 8 f.val]) (ready : (s.feeder f).ready = true) :
    ∃ t, exec (.openFeeder p) s = .next t ∧
      StepFails s t r h (s.slot (h.first + i)) i (.close (.aborted .openRequest)) none := by
  have run : exec (.openFeeder p) s = takeRequest p 0x10 (withArgs readFeeder fun f => withReady f fun s =>
      if s.opensByTrip f then accepted (s.openFeeder f (.port p)) else done (s.openFeeder f (.port p))) s := rfl
  have asked := feederRequest_asks offers run rfl ready
  have opens : (s.dropBuffer p).opensByTrip f = true := by
    unfold State.opensByTrip
    rw [show ((s.dropBuffer p).feeder f).state = .closing from closing]
    rfl
  have stands : RunnersStand s (s.dropBuffer p) := ⟨rfl, rfl, rfl, rfl, .refl _⟩
  have closing' : ((s.dropBuffer p).feeder f).state = .closing := closing
  rw [if_pos opens] at asked
  generalize s.dropBuffer p = u at asked stands closing'
  have same := stands.sameStep r
  have fails := same.stepFails (openFeeder_fails (same.atStep at') (by rw [stands.runner]; exact awaits) (.port p) closing')
  rw [same.slot] at fails
  exact ⟨_, asked, fails.later rfl (.refl _)⟩

/-- Settles O56. -/
theorem runnersTakeTheOutcomesTheyAwait : Obligations.RunnersTakeTheOutcomesTheyAwait := by
  intro r s n h i x runs programme header index step
  have at' : AtStep s r n h i := ⟨programme, header, index⟩
  refine ⟨fun f op awaits operation => ⟨fun closing => ⟨fun d deadline due => ?confirm, fun known other reads stood => ?closed,
      fun p tag offers ready => ?opens⟩, fun d testing deadline due => ?tested, fun d sent deadline due => ?claim⟩,
    fun c t f listed awaits ran changed => ?rect, fun d t awaits => ⟨fun words hands asked ran => ?frame,
      fun c f listed ran changes => ?waits⟩⟩
  case confirm =>
    exact ⟨_, exec_closeConfirmLimit runs closing operation deadline due,
      step ▸ endClose_fails at' awaits op _ fun e => nomatch e⟩
  case closed =>
    refine ⟨_, exec_positionDebounceExpiry (b := .feeder f) runs ?_ stood, debounced_done at' awaits known reads closing operation⟩
    intro same
    exact other (same.trans (congrArg some reads))
  case opens => exact step ▸ openRequest_fails at' awaits closing offers ready
  case tested =>
    exact ⟨_, exec_testEnd runs testing operation deadline due, step ▸ judgeTest_at_runner at' awaits op⟩
  case claim =>
    exact ⟨_, exec_claimDeadline runs sent deadline due, step ▸ claimTimeout_fails at' awaits operation⟩
  case rect =>
    have tells : TellsOfRect s t := by
      rcases List.mem_append.mp (show c ∈ [Instr.zeroCrossing, .crossingWatchExpiry, .acCloseDeadline,
        .positionDebounceExpiry .ac] ++ [.tripConfirmLimit f] from listed) with rectifier | trip
      · exact rectifierCommand_tells runs rectifier ran
      · rw [List.mem_singleton] at trip
        subst trip
        exact tripConfirmLimit_tells runs ran
    exact rectChange_awaited at' step tells awaits changed
  case frame => exact frame_waited at' step awaits hands asked ran
  case waits =>
    rcases List.mem_append.mp (show c ∈ [Instr.zeroCrossing, .crossingWatchExpiry, .acCloseDeadline,
      .positionDebounceExpiry .ac] ++ [.locationChanged, .farStateStale f] from listed) with rectifier | other
    · exact rectChange_waited at' step awaits (rectifierCommand_tells runs rectifier ran)
        (rectifierCommand_inside runs rectifier ran) changes
    · simp only [List.mem_cons, List.not_mem_nil, or_false] at other
      rcases other with rfl | rfl
      · exact location_waited at' step awaits runs ran changes
      · exact farStale_waited at' step awaits runs ran changes

end Sys2Proof.Machine

/-! Start-up (11 R207): what the part stands at after power-on and after the release of the reset line. -/

namespace Sys2Proof.Machine

theorem emptyMap_iff (m : File SlotEntry 32) : emptyMap m = true ↔ NoQuantity m := by
  simp only [emptyMap, List.all_eq_true, beq_iff_eq, NoQuantity]
  exact ⟨fun all n => all _ (File.mem_cells.mpr ⟨n, rfl⟩), fun all e inside => by
    obtain ⟨n, rfl⟩ := File.mem_cells.mp inside
    exact all n⟩

section startedPort

variable (m : File SlotEntry 32) (now : Instant)

theorem SamplePort.started_of_noQuantity (none : NoQuantity m) : SamplePort.started m now = SamplePort.reset :=
  if_pos ((emptyMap_iff m).mpr none)

theorem SamplePort.started_of_quantity (some : ¬NoQuantity m) :
    SamplePort.started m now = { SamplePort.reset with state := .starting, frameWatch := .some now } :=
  if_neg fun empty => some ((emptyMap_iff m).mp empty)

theorem ContactInput.started_reads (x : ContactInput) :
    Reads (x.started now).a (x.started now).b (x.started now).reading :=
  reads_iff_eq_readingOf.mpr rfl

end startedPort

section storeStarted

variable {x : SettingsStore} {v : Settings}

theorem SettingsStore.loaded_of_copied (copied : x.copy = some v) : x.loaded = v := by simp [loaded, copied]

theorem SettingsStore.loaded_of_empty (empty : x.copy = none) : x.loaded = Settings.default := by simp [loaded, empty]

theorem SettingsStore.started_of_copied (copied : x.copy = some v) :
    x.started = { copy := some v, commit := none, statusValid := true, source := .store, changed := false } := by
  simp [started, copied]

theorem SettingsStore.started_of_empty (empty : x.copy = none) :
    x.started = { copy := none, commit := none, statusValid := false, source := .defaults, changed := true } := by
  simp [started, empty]

end storeStarted

section startUpBlocks

variable (cause : RestartCause) (s : State)

theorem startUp_input (b : Breaker) : (startUp cause s).inputOf b = (s.inputOf b).started s.now := by
  cases b with
  | ac => rfl
  | feeder f => exact File.get_map ..

theorem startUp_port (p : Port) : (startUp cause s).port p = MasterPort.reset (s.port p).selected := File.get_map ..

theorem startUp_link (l : LinkId) : (startUp cause s).link l = SectionLink.reset (s.link l).light s.now :=
  File.get_map ..

theorem startUp_section (f : Feeder) :
    (startUp cause s).section' f = SectionRecord.reset (s.store.loaded.feeders.get f).farLink := File.get_map ..

theorem startUp_feeder (f : Feeder) : (startUp cause s).feeder f = FeederRecord.reset := File.get_fill ..

theorem startUp_fault (f : Feeder) : (startUp cause s).fault f = FaultRecord.reset s.now := File.get_fill ..

theorem startUp_holding (i : Item) : (startUp cause s).holding i = none := File.get_fill ..

theorem startUp_runner (r : RunnerId) : (startUp cause s).runner r = Runner.reset := File.get_fill ..

theorem startUp_cursor (fromStore : Bool) (p : Port) : (EventRecord.started cause fromStore).cursors.get p.index =
    { next := 0, overrun := false, gap := 0, classes := File.fill 8 true } := by
  cases fromStore <;> exact File.get_fill ..

end startUpBlocks

/-- Settles O58: each block of `startUp` is its start-up value, read by the lemma above on that block. -/
theorem startUpLoadsTheSettings : Obligations.StartUpLoadsTheSettings := by
  unfold Obligations.StartUpLoadsTheSettings
  refine fun s => ⟨rfl, fun low => by simp [exec, execResetLineRelease, low], fun c cause v command stored => ?_⟩
  have loaded : s.store.loaded = v := by
    rcases stored with copied | ⟨empty, rfl⟩
    · exact SettingsStore.loaded_of_copied copied
    · exact SettingsStore.loaded_of_empty empty
  have run : ∃ low, exec c s = .next (startUp cause { s with resetLine := low }) := by
    rcases command with ⟨rfl, rfl⟩ | ⟨rfl, rfl, asserted⟩
    · exact ⟨s.resetLine, rfl⟩
    · exact ⟨false, congrArg Host.Outcome.next (if_pos asserted)⟩
  obtain ⟨low, run⟩ := run
  refine ⟨_, run, rfl, rfl, rfl, rfl, loaded, fun copied => ?stored, fun empty => ?defaults, fun p => ?cursors,
    fun p => startUp_port .., fun none => ?unmapped, fun some => ?mapped, fun b => ?inputs, rfl, rfl, fun f => ?feeders,
    fun i => startUp_holding .., rfl, rfl, rfl, ?target, ?applied, rfl, rfl, fun g => File.get_fill .., fun l => ?links,
    rfl, fun n => File.get_fill .., fun n => File.get_fill .., fun r => startUp_runner .., fun n => File.get_fill ..,
    fun f => File.get_fill ..⟩
  case stored =>
    exact ⟨SettingsStore.started_of_copied copied, by simp [startUp, EventRecord.started, copied]⟩
  case defaults =>
    exact ⟨SettingsStore.started_of_empty empty, by simp [startUp, EventRecord.started, empty]⟩
  case cursors => exact startUp_cursor ..
  case unmapped =>
    have port : (startUp cause { s with resetLine := low }).sample = SamplePort.reset :=
      SamplePort.started_of_noQuantity _ _ (loaded ▸ none)
    rw [port]
    rfl
  case mapped =>
    have port : (startUp cause { s with resetLine := low }).sample =
        { SamplePort.reset with state := .starting, frameWatch := .some s.now } :=
      SamplePort.started_of_quantity _ _ (loaded ▸ some)
    rw [port]
    exact ⟨rfl, rfl, rfl⟩
  case inputs =>
    rw [startUp_input]
    exact ⟨by cases b <;> rfl, by cases b <;> rfl, ContactInput.started_reads .., rfl, rfl, rfl⟩
  case feeders =>
    rw [startUp_feeder, startUp_section, startUp_fault, loaded]
    exact ⟨rfl, rfl, rfl, by cases (v.feeders.get f).farLink <;> rfl, rfl, rfl, rfl⟩
  case target => exact congrArg (·.station.alphaMax) loaded
  case applied => exact congrArg (·.station.alphaMax) loaded
  case links =>
    rw [startUp_link]
    exact ⟨rfl, rfl, rfl, rfl, rfl⟩

end Sys2Proof.Machine

/-! The settings requests: what each of them is refused for, COMMIT SETTINGS and the end of the store's write (11 R204, R205). -/

namespace Sys2Proof.Machine

/-! ## A request of the station processors and the Authority Table (05 R96) -/

section processors

variable {s : State} {p : Port} {i : Item} {ask : State → Answer}

theorem withAuthority_gateway : withAuthority .G true [i] ask s = refuse (.notAuthorised true (some i)) s := rfl

theorem withAuthority_processor (station : p ≠ .G) : withAuthority p true [i] ask s = withAuthority p false [i] ask s := by
  cases p with
  | G => exact absurd rfl station
  | A => rfl
  | B => rfl

/-- The Authority Table's refusals of a request that only a station processor may make. -/
theorem withAuthority_refused {why : Reason} (refuses : s.refusesProcessor p i why) :
    withAuthority p true [i] ask s = refuse why s := by
  rcases refuses with ⟨rfl, rfl⟩ | ⟨station, outside, rfl⟩ | ⟨station, inside, unheld, rfl⟩ | ⟨station, inside, h, held, other, rfl⟩
  · exact withAuthority_gateway
  · exact (withAuthority_processor station).trans (withAuthority_excluded outside)
  · exact (withAuthority_processor station).trans (withAuthority_unheld inside unheld)
  · exact (withAuthority_processor station).trans (withAuthority_other inside held other)

theorem withAuthority_processorHeld {h : Holding} (station : p ≠ .G) (inside : ¬Excludes s.authority.location p)
    (held : s.holding i = some h) (own : h.holder = p) : withAuthority p true [i] ask s = renewing [i] (ask s) :=
  (withAuthority_processor station).trans (withAuthority_held inside held own)

end processors

theorem setStation_asks {body : List Byte} {v : StationSettings} (p : Port) (u : State) (sets : SetsStation body v) :
    withArgs readSetStation (handleSetStation p) body u = withAuthority p true [.rectifier] (changeStation v) u :=
  withArgs_reads u (readSetStation_eq_some.mpr sets)

theorem setSlots_asks {body : List Byte} {m : File SlotEntry 32} (p : Port) (u : State) (sets : SetsSlots body m) :
    withArgs readSlots (handleSetSlots p) body u = withAuthority p true [.rectifier] (setMap m) u :=
  withArgs_reads u (readSlots_eq_some.mpr sets)

/-- The Feeder Record's answer to SET FEEDER past the checks of readiness and authority (02 R31). -/
def changeFeeder (f : Feeder) (v : FeederSettings) (s : State) : Answer :=
  if (s.config f).partnerDiffers v && !s.partnerFree f then refuse (.interlocked .state) s else done (s.setFeederTo f v)

section setFeeder

variable {body : List Byte} {f : Feeder} {v : FeederSettings} (p : Port) (u : State) (sets : SetsFeeder body f v)
include sets

theorem setFeeder_asks : withArgs readSetFeeder (handleSetFeeder p) body u =
    withReady f (withAuthority p true [.feeder f] (changeFeeder f v)) u :=
  withArgs_reads u (readSetFeeder_eq_some.mpr sets)

theorem setFeeder_asksReady (ready : (u.feeder f).ready = true) : withArgs readSetFeeder (handleSetFeeder p) body u =
    withAuthority p true [.feeder f] (changeFeeder f v) u :=
  (setFeeder_asks p u sets).trans (withReady_ready _ ready)

end setFeeder

/-- A request that sets settings meets the refusals of the Authority Table before those of the block it names. -/
theorem settingsRefused {p : Port} {tag kind : Byte} {body : List Byte} {s : State} {c : Instr} {i : Item} {why : Reason}
    (offers : s.offers p kind tag body)
    (names : kind = 0x70#8 ∧ c = .setStation p ∧ i = .rectifier ∧ (∃ v, SetsStation body v) ∨
      kind = 0x72#8 ∧ c = .setSlots p ∧ i = .rectifier ∧ (∃ m, SetsSlots body m) ∨
      ∃ f v, kind = 0x71#8 ∧ c = .setFeeder p ∧ i = .feeder f ∧ SetsFeeder body f v ∧ (s.feeder f).ready = true)
    (refuses : s.refusesProcessor p i why) :
    exec c s = .next ((s.dropBuffer p).answered p kind tag (.refused why) .empty) := by
  have refuses : (s.dropBuffer p).refusesProcessor p i why := refuses
  rcases names with ⟨rfl, rfl, rfl, v, sets⟩ | ⟨rfl, rfl, rfl, m, sets⟩ | ⟨f, v, rfl, rfl, rfl, sets, ready⟩
  · exact takeRequest_refused offers ((setStation_asks p _ sets).trans (withAuthority_refused refuses))
  · exact takeRequest_refused offers ((setSlots_asks p _ sets).trans (withAuthority_refused refuses))
  · exact takeRequest_refused offers ((setFeeder_asksReady (u := s.dropBuffer p) p sets ready).trans (withAuthority_refused refuses))

/-! ## COMMIT SETTINGS (11 R205) -/

theorem writeTime_bounds (draw : Nat) : 5000000 ≤ writeTime draw ∧ writeTime draw ≤ 25000000 := by
  have below : Config.storeTime draw % 20000001 < 20000001 := Nat.mod_lt _ (by decide)
  have split : writeTime draw = 5000000 + Config.storeTime draw % 20000001 := rfl
  omega

section handleCommit

variable {p : Port} {s : State}

theorem handleCommit_gateway : handleCommit .G () s = refuse (.notAuthorised true none) s := rfl

theorem handleCommit_processor (station : p ≠ .G) :
    handleCommit p () s = if s.store.commit.isSome then refuse .storeBusy s else accepted (s.beginCommit p) := by
  cases p with
  | G => exact absurd rfl station
  | A => rfl
  | B => rfl

theorem handleCommit_busy (station : p ≠ .G) (busy : s.store.commit ≠ none) : handleCommit p () s = refuse .storeBusy s :=
  (handleCommit_processor station).trans (if_pos (Option.isSome_iff_ne_none.mpr busy))

theorem handleCommit_free (station : p ≠ .G) (free : s.store.commit = none) :
    handleCommit p () s = accepted (s.beginCommit p) :=
  (handleCommit_processor station).trans (if_neg (by rw [free]; exact Bool.false_ne_true))

end handleCommit

theorem commitRequested (p : Port) (tag : Byte) (s : State) (offers : s.offers p 0x74 tag []) :
    (p = .G → exec (.commitSettings p) s =
      .next ((s.dropBuffer p).answered p 0x74 tag (.refused (.notAuthorised true none)) .empty)) ∧
    (p ≠ .G → s.store.commit ≠ none → exec (.commitSettings p) s =
      .next ((s.dropBuffer p).answered p 0x74 tag (.refused .storeBusy) .empty)) ∧
    (p ≠ .G → s.store.commit = none → ∃ n x : Nat, 5000000 ≤ n ∧ n ≤ 25000000 ∧ exec (.commitSettings p) s =
      .next ({ s.dropBuffer p with
        choices := x,
        store := { s.store with
          copy := none, changed := false,
          commit := some { snapshot := s.settings, origin := .port p, startAt := s.now, endAt := s.now + n } }
        }.answered p 0x74 tag .accepted .empty)) := by
  have asks (u : State) : withArgs readEmpty (handleCommit p) [] u = handleCommit p () u := rfl
  refine ⟨fun gateway => ?_, fun station busy => ?_, fun station free => ?_⟩
  · subst gateway
    exact takeRequest_refused offers handleCommit_gateway
  · exact takeRequest_refused offers ((asks _).trans (handleCommit_busy station busy))
  · obtain ⟨least, most⟩ := writeTime_bounds s.choices
    exact ⟨_, s.choices + 1, least, most, takeRequest_accepted offers ((asks _).trans (handleCommit_free station free))⟩

theorem State.commitDue_of_ended {s : State} {c : Commit} (writing : s.store.commit = some c) (ended : c.endAt ≤ s.now) :
    s.commitDue = some c := by
  simp [State.commitDue, writing, ended]

theorem exec_commitWriteEnd {s : State} {c : Commit} (runs : s.resetLine = false) (writing : s.store.commit = some c)
    (ended : c.endAt ≤ s.now) : exec .commitWriteEnd s = .next (s.endCommit c) := by
  show execCommitWriteEnd s = _
  unfold execCommitWriteEnd
  rw [live_next runs, State.commitDue_of_ended writing ended]

end Sys2Proof.Machine

/-! SET STATION carried out: a new station number at the two links, and a new time role (11 R204; 06 R128; 07 R148, R151). -/

namespace Sys2Proof.Machine

/-- One part of an event, with the other parts before and after it. -/
theorem together_apart {p : State → State} {parts rest : List (State → State)} (splits : parts.Perm (p :: rest)) (s : State) :
    ∃ before after u k, (before ++ after).Perm rest ∧ Runs before s u ∧
      Runs after (p { u with choices := k }) (together parts s) := by
  obtain ⟨before, after, u, k, perm, runs⟩ := together_around (splits.mem_iff.mpr List.mem_cons_self) s
  exact ⟨before, after, u, k, (List.perm_middle.symm.trans (perm.trans splits)).cons_inv, runs⟩

/-! ## What the links and the Time Base are told -/

/-- All but the Time Base, the links, the entries and the free counter stand. -/
def TellsLinks (u w : State) : Prop :=
  ∃ time links events choices, w = { u with time := time, links := links, events := events, choices := choices }

theorem TellsLinks.refl (u : State) : TellsLinks u u := ⟨_, _, _, _, rfl⟩

theorem TellsLinks.trans {u v w : State} : TellsLinks u v → TellsLinks v w → TellsLinks u w := by
  rintro ⟨_, _, _, _, rfl⟩ ⟨_, _, _, _, rfl⟩
  exact ⟨_, _, _, _, rfl⟩

theorem TellsLinks.choices (u : State) (k : Nat) : TellsLinks u { u with choices := k } := ⟨_, _, _, _, rfl⟩

theorem TellsLinks.station {u w : State} : TellsLinks u w → w.station = u.station := by
  rintro ⟨_, _, _, _, rfl⟩
  rfl

/-- A link keeps its state, its far station and its conflict, and what it has queued. -/
structure LinkStands (k k' : SectionLink) : Prop where
  state : k'.state = k.state
  farStation : k'.farStation = k.farStation
  conflict : k'.conflict = k.conflict
  queued : ∀ n, k.queued.get n = true → k'.queued.get n = true

theorem LinkStands.refl (k : SectionLink) : LinkStands k k := ⟨rfl, rfl, rfl, fun _ => id⟩

theorem LinkStands.of_eq {k k' : SectionLink} (same : k' = k) : LinkStands k k' := same ▸ .refl k

theorem LinkStands.trans {k k' k'' : SectionLink} (h : LinkStands k k') (g : LinkStands k' k'') : LinkStands k k'' :=
  ⟨g.state.trans h.state, g.farStation.trans h.farStation, g.conflict.trans h.conflict, fun n => g.queued n ∘ h.queued n⟩

theorem LinkStands.queue (k : SectionLink) (n : Fin 16) : LinkStands k (k.queue n) := by
  refine ⟨queue_state k n, ?_, ?_, queue_get k n⟩
  · rw [queue_only]
  · rw [queue_only]

theorem SectionLink.queue_queued {k : SectionLink} (n : Fin 16) (up : k.state = .up) : (k.queue n).queued.get n = true := by
  unfold SectionLink.queue
  rw [if_pos up]
  exact File.get_set_self ..

theorem State.queueSystem_link (s : State) (l : LinkId) : s.queueSystem.link l = (s.link l).queue 0 := File.get_map ..

/-! ## The station number (07 R148) -/

section numberChange

variable {u : State} {old : Nat}

theorem numberChange_same (l : LinkId) (same : u.station.stationNumber = old) : u.numberChange old l = u := if_pos same

theorem judgeConflict_tells (u : State) (l : LinkId) : TellsLinks u (u.judgeConflict l) := by
  unfold State.judgeConflict State.linkEntry
  dsimp only
  split <;> exact ⟨_, _, _, _, rfl⟩

theorem judgeConflict_time (u : State) (l : LinkId) : (u.judgeConflict l).time = u.time := by
  unfold State.judgeConflict State.linkEntry
  dsimp only
  split <;> rfl

theorem judgeConflict_other (u : State) {l m : LinkId} (differs : l ≠ m) : (u.judgeConflict m).link l = u.link l := by
  have beside (v : State) (g : SectionLink → SectionLink) : (v.modLink m g).link l = v.link l := by
    rw [link_modLink, if_neg differs]
  unfold State.judgeConflict State.linkEntry
  dsimp only
  split
  · rw [State.addEntry_link, beside, beside]
  · exact beside _ _

/-- The link judged has a conflict where the far station is this one. -/
theorem judgeConflict_link (u : State) (l : LinkId) : ∃ reported, (u.judgeConflict l).link l =
    { u.link l with conflict := (u.link l).farStation == some u.station.stationNumber, conflictReported := reported } := by
  unfold State.judgeConflict State.linkEntry
  dsimp only
  split
  · exact ⟨true, by rw [State.addEntry_link, link_modLink, if_pos rfl, link_modLink, if_pos rfl]⟩
  · exact ⟨_, by rw [link_modLink, if_pos rfl]⟩

theorem numberChange_tells (u : State) (old : Nat) (l : LinkId) : TellsLinks u (u.numberChange old l) := by
  unfold State.numberChange
  split
  · exact .refl u
  · exact TellsLinks.trans ⟨_, _, _, _, rfl⟩ (judgeConflict_tells _ l)

theorem numberChange_time (u : State) (old : Nat) (l : LinkId) : (u.numberChange old l).time = u.time := by
  unfold State.numberChange
  split
  · rfl
  · exact judgeConflict_time _ l

theorem numberChange_other (u : State) (old : Nat) {l m : LinkId} (differs : l ≠ m) :
    (u.numberChange old m).link l = u.link l := by
  unfold State.numberChange
  split
  · rfl
  · rw [judgeConflict_other _ differs, link_modLink, if_neg differs]

theorem numberChange_link (l : LinkId) (changed : u.station.stationNumber ≠ old) :
    (((u.numberChange old l).link l).conflict = true ↔ (u.link l).farStation = some u.station.stationNumber) ∧
      ((u.link l).state = .up → ((u.numberChange old l).link l).queued.get 0 = true) := by
  obtain ⟨reported, judged⟩ := judgeConflict_link (u.modLink l fun k => k.queue 0) l
  unfold State.numberChange
  rw [if_neg changed, judged, link_modLink, if_pos rfl, queue_only]
  exact ⟨beq_iff_eq, fun up => SectionLink.queue_queued 0 up⟩

end numberChange

/-! ## The time role (08 R160) -/

theorem TimeRole.followed_of_follower {x : TimeRole} (follows : x ≠ .master) : ∃ l, x.followed = some l := by
  cases x with
  | master => exact absurd rfl follows
  | followLink0 => exact ⟨_, rfl⟩
  | followLink1 => exact ⟨_, rfl⟩

theorem TimeBase.slewOver_quality (x : TimeBase) : x.slewOver.quality = x.quality := by
  rw [← endSlew_eq]
  unfold TimeBase.endSlew TimeBase.rise
  dsimp only
  split
  · split
    · rfl
    · split <;> rfl
  · rfl

/-- The Time Base after a change of role: a slew ends, the upstream is forgotten, and a part that becomes the master no longer
has a quality received. -/
def TimeBase.afterRole (x : TimeBase) (role : TimeRole) : TimeBase :=
  { x.slewOver with
    upstream := none,
    quality := if role = .master ∧ (x.quality = .coarse ∨ x.quality = .fine) then .free else x.quality }

section roleChange

variable {u : State} {old : TimeRole}

theorem roleChange_same (same : u.station.timeRole = old) : u.roleChange old = u := if_pos same

/-- A change of role is told to the links, and by an entry where the quality changes with it. -/
theorem roleChange_cases (changed : u.station.timeRole ≠ old) :
    let t := { u with time := { u.time.slewOver with upstream := none } }.queueSystem
    (u.station.timeRole = .master ∧ (u.time.quality = .coarse ∨ u.time.quality = .fine) ∧
      ∃ l, u.roleChange old = t.qualityChange .free l) ∨
    (¬(u.station.timeRole = .master ∧ (u.time.quality = .coarse ∨ u.time.quality = .fine)) ∧ u.roleChange old = t) := by
  unfold State.roleChange
  rw [if_neg changed, endSlew_eq]
  dsimp only
  split
  next l master followed =>
    split
    · next received => exact .inl ⟨master, received, l, rfl⟩
    · next own => exact .inr ⟨fun ⟨_, received⟩ => own received, rfl⟩
  next neither =>
    refine .inr ⟨fun ⟨master, _⟩ => ?_, rfl⟩
    obtain ⟨l, followed⟩ := TimeRole.followed_of_follower fun same => changed (master.trans same.symm)
    exact neither l master followed

theorem qualityChange_stands (u : State) (q : TimeQuality) (l m : LinkId) : LinkStands (u.link m) ((u.qualityChange q l).link m) := by
  unfold State.qualityChange
  split
  · exact .refl _
  · refine .trans ?_ (.of_eq (State.addEntry_link ..))
    rw [setQuality_link]
    split
    · exact .refl _
    · exact .queue ..

theorem roleChange_acts (u : State) (old : TimeRole) : TellsLinks u (u.roleChange old) ∧
    (u.station.timeRole ≠ old → (u.roleChange old).time = u.time.afterRole u.station.timeRole) ∧
    ∀ l, LinkStands (u.link l) ((u.roleChange old).link l) := by
  by_cases same : u.station.timeRole = old
  · rw [roleChange_same same]
    exact ⟨.refl u, fun changed => absurd same changed, fun l => .refl _⟩
  · have told (l : LinkId) : LinkStands (u.link l)
        ({ u with time := { u.time.slewOver with upstream := none } }.queueSystem.link l) := by
      rw [State.queueSystem_link]
      exact .queue ..
    obtain ⟨master, received, l, role⟩ | ⟨kept, role⟩ := roleChange_cases same
    · obtain ⟨frame, time, -⟩ := qualityChange_acts _ .free l _ role
      refine ⟨TellsLinks.trans ⟨_, _, _, _, rfl⟩ ⟨_, _, _, _, frame⟩, fun _ => ?_, fun m => ?_⟩
      · rw [time, TimeBase.afterRole, if_pos ⟨master, received⟩]
        rfl
      · rw [role]
        exact (told m).trans (qualityChange_stands ..)
    · rw [role]
      refine ⟨⟨_, _, _, _, rfl⟩, fun _ => ?_, told⟩
      rw [TimeBase.afterRole, if_neg kept, ← u.time.slewOver_quality]
      rfl

end roleChange

end Sys2Proof.Machine

/-! SET STATION (11 R204; 06 R128): its answers, and what a setting carried out leaves. -/

namespace Sys2Proof.Machine

/-! ## A setting carried out -/

/-- What a setting carried out leaves to its answer: the store's mark of a change, and these blocks as they were. -/
structure SettingsCarried (s u : State) : Prop where
  ports : u.ports = s.ports
  store : u.store = { s.store with changed := true }
  authority : u.authority = s.authority
  now : u.now = s.now
  inputs : u.inputs = s.inputs
  acInput : u.acInput = s.acInput
  key : u.key = s.key
  clock : u.clock = s.clock
  slots : u.slots = s.slots
  headers : u.headers = s.headers

theorem SettingsCarried.quiet {s u v : State} (h : SettingsCarried s u) (k : Quiet u v) : SettingsCarried s v where
  ports := k.ports.trans h.ports
  store := k.store.trans h.store
  authority := k.authority.trans h.authority
  now := k.now.trans h.now
  inputs := k.inputs.trans h.inputs
  acInput := k.acInput.trans h.acInput
  key := k.key.trans h.key
  clock := k.clock.trans h.clock
  slots := k.slots.trans h.slots
  headers := k.headers.trans h.headers

/-- A renewal and an answer change the Authority Table and the ports only. -/
theorem renewedAnswered_frame (u : State) (l : List Item) (p : Port) (kind tag : Byte) (st : Status) (b : Body) :
    ∃ entries ports, (u.renewItems l).answered p kind tag st b =
      { u with authority := { u.authority with entries := entries }, ports := ports } := by
  rw [renewItems_only]
  exact ⟨_, _, rfl⟩

theorem SettingsCarried.done {s u : State} {p : Port} {i : Item} {h : Holding} (carried : SettingsCarried (s.dropBuffer p) u)
    (held : s.holding i = some h) (kind tag : Byte) :
    SetsDone s ((u.renewItems [i]).answered p kind tag .done .empty) p kind tag i h u.station.leaseTime := by
  have ports : (u.renewItems [i]).ports = (s.dropBuffer p).ports := by
    rw [renewItems_only]
    exact carried.ports
  have holding (j : Item) : u.holding j = s.holding j := congrArg (fun a => a.entries.get j.index) carried.authority
  have renews : Renews s ((u.renewItems [i]).answered p kind tag .done .empty) i h u.station.leaseTime := by
    refine ⟨?_, fun j differs => ?_, ?_⟩
    · show (u.renewItems [i]).holding i = _
      rw [renewItems_holding, if_pos (List.mem_singleton_self i), holding, held, carried.now]
      rfl
    · show (u.renewItems [i]).holding j = _
      rw [renewItems_holding, if_neg (by simpa using differs), holding]
    · exact (congrArg (fun t => t.authority.location) (renewItems_only u [i])).trans
        (congrArg AuthorityTable.location carried.authority)
  refine ⟨responds_answered p kind tag .done .empty ports, ?_, renews, ?_⟩ <;>
    obtain ⟨entries, ports, frame⟩ := renewedAnswered_frame u [i] p kind tag .done .empty <;> rw [frame]
  · exact carried.store
  · exact ⟨carried.inputs, carried.acInput, carried.key, carried.clock, carried.slots, carried.headers⟩

/-- A setting that its block carries out for the holder of its item. -/
theorem settingDone {s u : State} {p : Port} {kind tag : Byte} {body : List Byte} {i : Item} {h : Holding} {c : Instr}
    {handle : List Byte → State → Answer} {ask : State → Answer} (offers : s.offers p kind tag body)
    (run : exec c s = takeRequest p kind handle s)
    (asks : handle body (s.dropBuffer p) = withAuthority p true [i] ask (s.dropBuffer p)) (station : p ≠ .G)
    (inside : ¬Excludes s.authority.location p) (held : s.holding i = some h) (own : h.holder = p)
    (carries : ask (s.dropBuffer p) = done u) :
    exec c s = .next ((u.renewItems [i]).answered p kind tag .done .empty) := by
  have passes := withAuthority_processorHeld (s := s.dropBuffer p) (ask := ask) station inside held own
  rw [carries, renewing_done] at passes
  exact run.trans (takeRequest_done offers (asks.trans passes))

/-- A setting that its block refuses to the holder of its item. -/
theorem settingRefused {s : State} {p : Port} {kind tag : Byte} {body : List Byte} {i : Item} {h : Holding} {c : Instr}
    {handle : List Byte → State → Answer} {ask : State → Answer} {why : Reason} (offers : s.offers p kind tag body)
    (run : exec c s = takeRequest p kind handle s)
    (asks : handle body (s.dropBuffer p) = withAuthority p true [i] ask (s.dropBuffer p)) (station : p ≠ .G)
    (inside : ¬Excludes s.authority.location p) (held : s.holding i = some h) (own : h.holder = p)
    (refuses : ask (s.dropBuffer p) = refuse why (s.dropBuffer p)) :
    exec c s = .next ((s.dropBuffer p).answered p kind tag (.refused why) .empty) := by
  have passes := withAuthority_processorHeld (s := s.dropBuffer p) (ask := ask) station inside held own
  rw [refuses, renewing_refuse] at passes
  exact run.trans (takeRequest_refused offers (asks.trans passes))

/-! ## SET STATION -/

/-- The new station values, before the links and the Time Base are told of them. -/
def State.stationTaken (s : State) (v : StationSettings) : State :=
  { s with
    settings := { s.settings with station := v }, store := { s.store with changed := true },
    rect := if s.rect.state = .running then s.rect else { s.rect with applied := v.alphaMax } }

/-- What is told of new station values. -/
def stationParts (old : StationSettings) : List (State → State) :=
  [fun t => t.numberChange old.stationNumber .link0, fun t => t.numberChange old.stationNumber .link1,
    fun t => t.roleChange old.timeRole]

theorem setStation_eq (s : State) (v : StationSettings) : s.setStation v = together (stationParts s.station) (s.stationTaken v) := rfl

theorem stationTaken_carried (s : State) (v : StationSettings) : SettingsCarried s (s.stationTaken v) :=
  ⟨rfl, rfl, rfl, rfl, rfl, rfl, rfl, rfl, rfl, rfl⟩

section stationParts

variable {old : StationSettings} {part : State → State}

theorem mem_stationParts : part ∈ stationParts old ↔ (∃ l, part = fun t => t.numberChange old.stationNumber l) ∨
    part = fun t => t.roleChange old.timeRole := by
  unfold stationParts
  simp only [List.mem_cons, List.not_mem_nil, or_false]
  refine ⟨fun listed => ?_, fun listed => ?_⟩
  · rcases listed with first | second | role
    · exact .inl ⟨_, first⟩
    · exact .inl ⟨_, second⟩
    · exact .inr role
  · rcases listed with ⟨_ | _, number⟩ | role
    · exact .inl number
    · exact .inr (.inl number)
    · exact .inr (.inr role)

theorem stationParts_tells (member : part ∈ stationParts old) (u : State) : TellsLinks u (part u) := by
  obtain ⟨l, rfl⟩ | rfl := mem_stationParts.mp member
  · exact numberChange_tells ..
  · exact (roleChange_acts ..).1

theorem stationParts_quiet (member : part ∈ stationParts old) (u : State) : Quiet u (part u) := by
  obtain ⟨l, rfl⟩ | rfl := mem_stationParts.mp member
  · exact numberChange_quiet (.refl u) ..
  · exact (Quiet.refl u).roleChange _

/-- The station number at one link among what is told, and the rest. -/
theorem stationParts_number (l : LinkId) : ∃ rest, (stationParts old).Perm ((fun t => t.numberChange old.stationNumber l) :: rest) ∧
    ∀ part ∈ rest, ∀ u : State, LinkStands (u.link l) ((part u).link l) := by
  have role (u : State) : LinkStands (u.link l) ((u.roleChange old.timeRole).link l) := (roleChange_acts u old.timeRole).2.2 l
  have other {m : LinkId} (differs : l ≠ m) (u : State) : LinkStands (u.link l) ((u.numberChange old.stationNumber m).link l) :=
    .of_eq (numberChange_other u _ differs)
  cases l with
  | link0 =>
    refine ⟨_, .refl _, fun part member u => ?_⟩
    rcases List.mem_pair.mp member with rfl | rfl
    · exact other (m := .link1) nofun u
    · exact role u
  | link1 =>
    refine ⟨_, .swap .., fun part member u => ?_⟩
    rcases List.mem_pair.mp member with rfl | rfl
    · exact other (m := .link0) nofun u
    · exact role u

/-- The time role among what is told: the rest leaves the Time Base. -/
theorem stationParts_role : ∃ rest, (stationParts old).Perm ((fun t => t.roleChange old.timeRole) :: rest) ∧
    ∀ part ∈ rest, ∀ u : State, (part u).time = u.time := by
  refine ⟨[fun t => t.numberChange old.stationNumber .link0, fun t => t.numberChange old.stationNumber .link1],
    (List.perm_append_comm (l₁ := [_, _]) (l₂ := [_])), fun part member u => ?_⟩
  rcases List.mem_pair.mp member with rfl | rfl <;> exact numberChange_time ..

/-- From station values `x`: they and the Time Base stand and, where `x` has the old number, so do the links and the entries. -/
def SameRole (old x : StationSettings) (u v : State) : Prop :=
  u.station = x → v.station = x ∧ v.time = u.time ∧
    (x.stationNumber = old.stationNumber → v.links = u.links ∧ v.events = u.events)

theorem SameRole.refl {x : StationSettings} {u : State} : SameRole old x u u := fun same => ⟨same, rfl, fun _ => ⟨rfl, rfl⟩⟩

theorem SameRole.trans {x : StationSettings} {u v w : State} (h : SameRole old x u v) (k : SameRole old x v w) :
    SameRole old x u w := by
  intro same
  obtain ⟨station, time, told⟩ := h same
  obtain ⟨station', time', told'⟩ := k station
  refine ⟨station', time'.trans time, fun number => ?_⟩
  obtain ⟨links, events⟩ := told number
  obtain ⟨links', events'⟩ := told' number
  exact ⟨links'.trans links, events'.trans events⟩

theorem stationParts_sameRole {x : StationSettings} {u : State} (member : part ∈ stationParts old)
    (role : x.timeRole = old.timeRole) : SameRole old x u (part u) := by
  rintro rfl
  refine ⟨(stationParts_tells member u).station, ?_⟩
  obtain ⟨l, rfl⟩ | rfl := mem_stationParts.mp member
  · refine ⟨numberChange_time .., fun number => ?_⟩
    dsimp only
    rw [numberChange_same l number]
    exact ⟨rfl, rfl⟩
  · dsimp only
    rw [roleChange_same role]
    exact ⟨rfl, fun _ => ⟨rfl, rfl⟩⟩

variable {l : List (State → State)} {u w : State}

theorem tells_runs (runs : Runs l u w) (listed : ∀ part ∈ l, part ∈ stationParts old) : TellsLinks u w :=
  runs.rel .refl (fun _ _ _ => .trans) .choices fun part member v => stationParts_tells (listed part member) v

end stationParts

section told

variable (old : StationSettings) (s : State)

theorem stationParts_told : TellsLinks s (together (stationParts old) s) := by
  obtain ⟨l, perm, runs⟩ := Runs.together (stationParts old) s
  exact tells_runs runs fun part member => perm.mem_iff.mp member

theorem stationParts_toldQuiet : Quiet s (together (stationParts old) s) := by
  obtain ⟨l, perm, runs⟩ := Runs.together (stationParts old) s
  exact runs.quiet fun part member => stationParts_quiet (perm.mem_iff.mp member)

variable {s} {old}

/-- A station number that changes is judged at each link. -/
theorem stationParts_toldNumber (l : LinkId) (changed : s.station.stationNumber ≠ old.stationNumber) :
    (((together (stationParts old) s).link l).conflict = true ↔ (s.link l).farStation = some s.station.stationNumber) ∧
      ((s.link l).state = .up → ((together (stationParts old) s).link l).queued.get 0 = true) := by
  obtain ⟨rest, splits, stands⟩ := stationParts_number (old := old) l
  obtain ⟨before, after, u, k, others, first, second⟩ := together_apart splits s
  have stood {parts : List (State → State)} {v w : State} (runs : Runs parts v w) (listed : ∀ part ∈ parts, part ∈ rest) :
      LinkStands (v.link l) (w.link l) :=
    runs.rel (R := fun v w => LinkStands (v.link l) (w.link l)) (fun _ => .refl _) (fun _ _ _ => .trans) (fun _ _ => .refl _)
      fun part member => stands part (listed part member)
  have firsts := stood first fun part member => others.mem_iff.mp (List.mem_append_left after member)
  have lasts := stood second fun part member => others.mem_iff.mp (List.mem_append_right before member)
  have station : u.station = s.station := (tells_runs first fun part member =>
    splits.mem_iff.mpr (List.mem_cons_of_mem _ (others.mem_iff.mp (List.mem_append_left after member)))).station
  obtain ⟨judged, queued⟩ := numberChange_link (u := { u with choices := k }) (old := old.stationNumber) l (station ▸ changed)
  refine ⟨?_, fun up => lasts.queued 0 (queued (firsts.state.trans up))⟩
  rw [lasts.conflict, judged, ← station, ← firsts.farStation]
  rfl

/-- A time role that changes reaches the Time Base. -/
theorem stationParts_toldRole (changed : s.station.timeRole ≠ old.timeRole) :
    (together (stationParts old) s).time = s.time.afterRole s.station.timeRole := by
  obtain ⟨rest, splits, stands⟩ := stationParts_role (old := old)
  obtain ⟨before, after, u, k, others, first, second⟩ := together_apart splits s
  have firsts : u.time = s.time := first.leaves (view := State.time) (fun _ _ => rfl) fun part member =>
    stands part (others.mem_iff.mp (List.mem_append_left after member))
  have lasts := second.leaves (view := State.time) (fun _ _ => rfl) fun part member =>
    stands part (others.mem_iff.mp (List.mem_append_right before member))
  have station : u.station = s.station := (tells_runs first fun part member =>
    splits.mem_iff.mpr (List.mem_cons_of_mem _ (others.mem_iff.mp (List.mem_append_left after member)))).station
  obtain ⟨-, time, -⟩ := roleChange_acts { u with choices := k } old.timeRole
  calc (together (stationParts old) s).time
      = (State.roleChange { u with choices := k } old.timeRole).time := lasts
    _ = u.time.afterRole u.station.timeRole := time (station ▸ changed)
    _ = s.time.afterRole s.station.timeRole := by rw [firsts, station]

/-- Without a change of role the Time Base stands; without one of the number either, nothing is told. -/
theorem stationParts_toldSame (role : s.station.timeRole = old.timeRole) : (together (stationParts old) s).time = s.time ∧
    (s.station.stationNumber = old.stationNumber →
      (together (stationParts old) s).links = s.links ∧ (together (stationParts old) s).events = s.events) := by
  obtain ⟨l, perm, runs⟩ := Runs.together (stationParts old) s
  obtain ⟨-, time, told⟩ := runs.rel (R := SameRole old s.station) (fun _ => .refl) (fun _ _ _ => .trans) (fun _ _ => .refl)
    (fun part member u => stationParts_sameRole (perm.mem_iff.mp member) role) rfl
  exact ⟨time, told⟩

end told

end Sys2Proof.Machine

/-! SET STATION answered (11 R204; 06 R128). -/

namespace Sys2Proof.Machine

theorem readSetStation_eq_none {body : List Byte} (sets : ∀ v, ¬SetsStation body v) : readSetStation body = none :=
  Option.eq_none_iff_forall_ne_some.mpr fun v reads => sets v (readSetStation_eq_some.mp reads)

theorem SetsStation.rectifierInRange {body : List Byte} {v : StationSettings} (sets : SetsStation body v) :
    v.rectifierInRange = true := by
  obtain ⟨sn, tr, le1, le0, bl1, bl0, an1, an0, ax1, ax0, ra, ro1, ro0, ir1, ir0, ov1, ov0, re1, re0, -, -, -, fits⟩ := sets
  obtain ⟨-, -, -, -, -, -, rectifier⟩ := fits
  exact decide_eq_true rectifier

theorem State.angleOutside_iff (s : State) (v : StationSettings) :
    s.angleOutside v = true ↔ s.rect.state = .running ∧ (s.rect.applied < v.alphaMin ∨ v.alphaMax < s.rect.applied) := by
  simp [State.angleOutside]

section changeStation

variable {s : State} {v : StationSettings} (inRange : v.rectifierInRange = true)
include inRange

theorem changeStation_refused (outside : s.angleOutside v = true) :
    changeStation v s = refuse (.interlocked .state) s := by
  unfold changeStation
  rw [inRange, outside]
  rfl

theorem changeStation_done (inside : ¬s.angleOutside v = true) : changeStation v s = done (s.setStation v) := by
  unfold changeStation
  rw [inRange, if_neg inside]
  rfl

end changeStation

/-- SET STATION carried out: the values, the rectifier's angle outside RUNNING, the Time Base and the links. -/
theorem setStation_acts (s : State) (v : StationSettings) : SettingsCarried s (s.setStation v) ∧
    TellsLinks (s.stationTaken v) (s.setStation v) ∧
    (s.station.timeRole = v.timeRole → (s.setStation v).time = s.time) ∧
    (s.station.timeRole ≠ v.timeRole → (s.setStation v).time = s.time.afterRole v.timeRole) ∧
    (s.station.timeRole = v.timeRole → s.station.stationNumber = v.stationNumber →
      (s.setStation v).links = s.links ∧ (s.setStation v).events = s.events) ∧
    ∀ l, s.station.stationNumber ≠ v.stationNumber →
      (((s.setStation v).link l).conflict = true ↔ (s.link l).farStation = some v.stationNumber) ∧
        ((s.link l).state = .up → ((s.setStation v).link l).queued.get 0 = true) := by
  rw [setStation_eq]
  refine ⟨(stationTaken_carried s v).quiet (stationParts_toldQuiet ..), stationParts_told .., fun same => ?_, fun changed => ?_,
    fun role number => ?_, fun l changed => ?_⟩
  · exact (stationParts_toldSame (s := s.stationTaken v) same.symm).1
  · exact stationParts_toldRole (s := s.stationTaken v) (Ne.symm changed)
  · exact (stationParts_toldSame (s := s.stationTaken v) role.symm).2 number.symm
  · exact stationParts_toldNumber (s := s.stationTaken v) l (Ne.symm changed)

theorem stationRequested (p : Port) (tag : Byte) (body : List Byte) (s : State) (offers : s.offers p 0x70 tag body) :
    ((∀ v, ¬SetsStation body v) → exec (.setStation p) s =
      .next ((s.dropBuffer p).answered p 0x70 tag (.refused .badArgument) .empty)) ∧
    ∀ v h, SetsStation body v → p ≠ .G → ¬Excludes s.authority.location p →
      s.holding .rectifier = some h → h.holder = p →
      (s.rect.state = .running → s.rect.applied < v.alphaMin ∨ v.alphaMax < s.rect.applied →
        exec (.setStation p) s =
          .next ((s.dropBuffer p).answered p 0x70 tag (.refused (.interlocked .state)) .empty)) ∧
      (s.rect.state ≠ .running ∨ v.alphaMin ≤ s.rect.applied ∧ s.rect.applied ≤ v.alphaMax →
        ∃ t, exec (.setStation p) s = .next t ∧ SetsDone s t p 0x70 tag .rectifier h v.leaseTime ∧
          t.settings = { s.settings with station := v } ∧ t.feeders = s.feeders ∧ t.sections = s.sections ∧
          t.faults = s.faults ∧ t.sample = s.sample ∧ t.runners = s.runners ∧ t.captures = s.captures ∧
          (s.rect.state = .running → t.rect = s.rect) ∧
          (s.rect.state ≠ .running → t.rect = { s.rect with applied := v.alphaMax }) ∧
          (s.station.timeRole = v.timeRole → t.time = s.time) ∧
          (s.station.timeRole ≠ v.timeRole → t.time = { s.time.slewOver with
            upstream := none,
            quality :=
              if v.timeRole = .master ∧ (s.time.quality = .coarse ∨ s.time.quality = .fine) then .free
              else s.time.quality }) ∧
          (s.station.timeRole = v.timeRole → s.station.stationNumber = v.stationNumber →
            t.links = s.links ∧ t.events = s.events) ∧
          ∀ l, s.station.stationNumber ≠ v.stationNumber →
            ((t.link l).conflict = true ↔ (s.link l).farStation = some v.stationNumber) ∧
            ((s.link l).state = .up → (t.link l).queued.get 0 = true)) := by
  have run : exec (.setStation p) s = takeRequest p 0x70 (withArgs readSetStation (handleSetStation p)) s := rfl
  refine ⟨fun unread => run.trans (takeRequest_refused offers (withArgs_fails _ (readSetStation_eq_none unread))),
    fun v h sets station inside held own => ⟨fun running outside => ?_, fun within => ?_⟩⟩
  · have isOutside : (s.dropBuffer p).angleOutside v = true :=
      (State.angleOutside_iff (s.dropBuffer p) v).mpr ⟨running, outside⟩
    exact settingRefused offers run (setStation_asks p _ sets) station inside held own
      (changeStation_refused sets.rectifierInRange isOutside)
  · have isInside : ¬(s.dropBuffer p).angleOutside v = true := fun isOutside => by
      obtain ⟨running, outside⟩ := (State.angleOutside_iff (s.dropBuffer p) v).mp isOutside
      obtain stopped | ⟨least, most⟩ := within
      · exact stopped running
      · exact outside.elim (Nat.not_lt.mpr least) (Nat.not_lt.mpr most)
    have carries := settingDone offers run (setStation_asks p _ sets) station inside held own
      (changeStation_done sets.rectifierInRange isInside)
    obtain ⟨carried, frame, stands, acts, unchanged, links⟩ := setStation_acts (s.dropBuffer p) v
    generalize (s.dropBuffer p).setStation v = u at *
    have done := carried.done held 0x70 tag
    obtain ⟨entries, ports, answered⟩ := renewedAnswered_frame u [.rectifier] p 0x70 tag .done .empty
    rw [answered] at carries done
    obtain ⟨time, links', events, choices, rfl⟩ := frame
    exact ⟨_, carries, done, rfl, rfl, rfl, rfl, rfl, rfl, rfl, fun running => if_pos running, fun stopped => if_neg stopped,
      stands, acts, unchanged, links⟩

end Sys2Proof.Machine

/-! SET FEEDER (11 R204; 02 R31; 07 R151): a new partner, and its answers. -/

namespace Sys2Proof.Machine

/-! ## A new partner (02 R31) -/

theorem groupFor_unknown (farLink : Option LinkId) :
    groupFor farLink none = if farLink = none then .normal else .isolated := by
  cases farLink <;> rfl

theorem regroup_beside (u : State) (f : Feeder) : (u.regroup f).sections = u.sections ∧ (u.regroup f).links = u.links ∧
    (u.regroup f).rect = u.rect ∧ (u.regroup f).time = u.time := by
  unfold State.regroup
  dsimp only
  split <;> exact ⟨rfl, rfl, rfl, rfl⟩

/-- The Section Record without what it knew of the old partner. -/
def SectionRecord.unpartnered (r : SectionRecord) (farLink : Option LinkId) : SectionRecord :=
  { r with
    farState := none, farSeen := none, staleFrom := none, heard := false,
    matching := if farLink = none then .noFarEnd else .mismatch }

/-- What the Section Record forgets before its far state is unknown. -/
def State.partnerForgotten (u : State) (f : Feeder) : State :=
  u.modSection f fun r =>
    { r with farSeen := none, staleFrom := none, heard := false,
             matching := if (u.config f).farLink.isNone then .noFarEnd else .mismatch }

theorem newPartner_eq (u : State) (f : Feeder) :
    u.newPartner f = ((((u.partnerForgotten f).setFarState f none).regroup f).queueFeederEnd f) := rfl

section newPartner

variable (u : State) (f : Feeder)

theorem newPartner_quiet : Quiet (u.partnerForgotten f) (u.newPartner f) :=
  (((Quiet.refl _).setFarState f none).regroup f).queueFeederEnd f

theorem newPartner_section : (u.newPartner f).section' f = (u.section' f).unpartnered (u.config f).farLink := by
  have forgotten : (u.partnerForgotten f).section' f = { u.section' f with
      farSeen := none, staleFrom := none, heard := false,
      matching := if (u.config f).farLink.isNone then .noFarEnd else .mismatch } := State.modSection_section_self ..
  obtain ⟨sections, -⟩ := regroup_beside ((u.partnerForgotten f).setFarState f none) f
  have kept : (((u.partnerForgotten f).setFarState f none).regroup f).section' f =
      ((u.partnerForgotten f).setFarState f none).section' f := congrArg (File.get · f) sections
  rw [newPartner_eq, queueFeederEnd_frame]
  refine kept.trans ?_
  rw [setFarState_section, forgotten]
  unfold SectionRecord.unpartnered
  cases (u.config f).farLink <;> rfl

/-- The group in use follows the partner, whatever the far state was before. -/
theorem newPartner_groups (ready : (u.feeder f).ready = true) :
    (u.newPartner f).feeder f = { u.feeder f with group := if (u.config f).farLink = none then .normal else .isolated } ∧
      (u.newPartner f).fault f = (u.fault f).regrouped (u.feeder f).group ((u.newPartner f).feeder f).group := by
  rw [newPartner_eq, queueFeederEnd_frame]
  show ((((u.partnerForgotten f).setFarState f none).regroup f).feeder f) = _ ∧
    ((((u.partnerForgotten f).setFarState f none).regroup f).fault f) = FaultRecord.regrouped _ _
      ((((u.partnerForgotten f).setFarState f none).regroup f).feeder f).group
  have record : (u.partnerForgotten f).feeder f = u.feeder f := rfl
  have detector : (u.partnerForgotten f).fault f = u.fault f := rfl
  have config : (u.partnerForgotten f).config f = u.config f := rfl
  generalize u.partnerForgotten f = w at record detector config ⊢
  have unknown : ((w.setFarState f none).section' f).farState = none := by rw [setFarState_section]
  have config' : (w.setFarState f none).config f = u.config f := by
    rw [← config]
    exact congrArg (fun v : Settings => v.feeders.get f) ((Quiet.refl w).setFarState f none).settings
  rw [regroup_fault, setFarState_fault, regroup_feeder, unknown, config', groupFor_unknown]
  by_cases same : (w.section' f).farState = none
  · rw [setFarState_same same, record, detector, regrouped_self, if_pos ready]
    exact ⟨rfl, rfl⟩
  · have moved := setFarState_feeder same
    rw [record, if_pos ready, config, groupFor_unknown] at moved
    rw [moved, if_pos ready, record, detector, regrouped_self]
    exact ⟨rfl, rfl⟩

theorem newPartner_other {g : Feeder} (differs : g ≠ f) : (recordsView g).view (u.newPartner f) = (recordsView g).view u := by
  have apart := records_apart differs
  rw [newPartner_eq]
  calc (recordsView g).view _
      = (recordsView g).view (((u.partnerForgotten f).setFarState f none).regroup f) := apart.queueFeederEnd _
    _ = (recordsView g).view ((u.partnerForgotten f).setFarState f none) := apart.regroup _
    _ = (recordsView g).view (u.partnerForgotten f) := setFarState_other _ none differs
    _ = (recordsView g).view u := apart.modSection ..

theorem newPartner_beside : (u.newPartner f).rect = u.rect ∧ (u.newPartner f).time = u.time := by
  obtain ⟨-, -, rect, time⟩ := regroup_beside ((u.partnerForgotten f).setFarState f none) f
  have time' := setFarState_view timeView (fun _ _ => rfl) (fun _ _ => rfl) (fun _ _ => rfl) (u.partnerForgotten f) f none
  rw [newPartner_eq, queueFeederEnd_frame]
  exact ⟨rect.trans (setFarState_rect ..), time.trans time'⟩

theorem newPartner_queues {l : LinkId} (far : (u.config f).farLink = some l) (up : (u.link l).state = .up) :
    ((u.newPartner f).link l).queued.get (feederSegment f) = true := by
  have links := setFarState_view linksView (fun _ _ => rfl) (fun _ _ => rfl) (fun _ _ => rfl) (u.partnerForgotten f) f none
  obtain ⟨-, regrouped, -, -⟩ := regroup_beside ((u.partnerForgotten f).setFarState f none) f
  have quiet := ((Quiet.refl (u.partnerForgotten f)).setFarState f none).regroup f
  rw [newPartner_eq]
  refine queueFeederEnd_queues ?_ ?_
  · exact (congrArg (fun v : Settings => (v.feeders.get f).farLink) quiet.settings).trans far
  · exact (congrArg (fun x => (File.get x l.index).state) (regrouped.trans links)).trans up

end newPartner

/-! ## SET FEEDER carried out -/

/-- The new values of a feeder, before anything follows from them. -/
def State.feederTaken (s : State) (f : Feeder) (v : FeederSettings) : State :=
  { s with
    settings := { s.settings with feeders := s.settings.feeders.set f v }, store := { s.store with changed := true } }

theorem feederTaken_config (s : State) (f : Feeder) (v : FeederSettings) : (s.feederTaken f v).config f = v :=
  File.get_set_self ..

theorem FeederSettings.partnerDiffers_iff (old new : FeederSettings) :
    old.partnerDiffers new = true ↔ old.farLink ≠ new.farLink ∨ old.farFeeder ≠ new.farFeeder := by
  simp [FeederSettings.partnerDiffers]

theorem State.partnerFree_iff (s : State) (f : Feeder) : s.partnerFree f = true ↔
    ((s.config f).inService = false ∨ (s.feeder f).state = .opened ∨ (s.feeder f).state = .lockedOut) ∧
      (s.section' f).claim = .idle := by
  unfold State.partnerFree FeederState.resting
  cases (s.feeder f).state <;> simp

section setFeederTo

variable {s : State} {f : Feeder} {v : FeederSettings}

theorem setFeederTo_partner (differs : (s.config f).partnerDiffers v = true) :
    s.setFeederTo f v = (s.feederTaken f v).newPartner f := if_pos differs

/-- Without a new partner the values are taken, and the far end at most told. -/
theorem setFeederTo_plain (same : ¬(s.config f).partnerDiffers v = true) :
    ∃ links, s.setFeederTo f v = { s.feederTaken f v with links := links } := by
  refine (exists_congr fun links => by rw [State.setFeederTo, if_neg same]).mpr ?_
  split
  · exact ⟨_, queueFeederEnd_frame (s.feederTaken f v) f⟩
  · exact ⟨s.links, rfl⟩

theorem newPartner_carried (s : State) (f : Feeder) (v : FeederSettings) :
    SettingsCarried s ((s.feederTaken f v).newPartner f) := by
  have forgotten : SettingsCarried s ((s.feederTaken f v).partnerForgotten f) :=
    ⟨rfl, rfl, rfl, rfl, rfl, rfl, rfl, rfl, rfl, rfl⟩
  exact forgotten.quiet (newPartner_quiet ..)

end setFeederTo

/-! ## SET FEEDER answered -/

theorem readSetFeeder_eq_none {body : List Byte} (sets : ∀ f v, ¬SetsFeeder body f v) : readSetFeeder body = none :=
  Option.eq_none_iff_forall_ne_some.mpr fun ⟨f, v⟩ reads => sets f v (readSetFeeder_eq_some.mp reads)

section changeFeeder

variable {s : State} {f : Feeder} {v : FeederSettings}

theorem changeFeeder_refused (differs : (s.config f).partnerDiffers v = true) (busy : ¬s.partnerFree f = true) :
    changeFeeder f v s = refuse (.interlocked .state) s := by
  unfold changeFeeder
  rw [differs, Bool.eq_false_iff.mpr busy]
  rfl

theorem changeFeeder_free (free : s.partnerFree f = true) : changeFeeder f v s = done (s.setFeederTo f v) := by
  unfold changeFeeder
  rw [free, Bool.not_true, Bool.and_false]
  rfl

theorem changeFeeder_plain (same : ¬(s.config f).partnerDiffers v = true) : changeFeeder f v s = done (s.setFeederTo f v) := by
  unfold changeFeeder
  rw [Bool.eq_false_iff.mpr same]
  rfl

end changeFeeder

theorem feederSettingRequested (p : Port) (tag : Byte) (body : List Byte) (s : State) (offers : s.offers p 0x71 tag body) :
    ((∀ f v, ¬SetsFeeder body f v) → exec (.setFeeder p) s =
      .next ((s.dropBuffer p).answered p 0x71 tag (.refused .badArgument) .empty)) ∧
    ∀ f v, SetsFeeder body f v →
      ((s.feeder f).ready = false → exec (.setFeeder p) s =
        .next ((s.dropBuffer p).answered p 0x71 tag (.refused .notReady) .empty)) ∧
      ∀ h, (s.feeder f).ready = true → p ≠ .G → ¬Excludes s.authority.location p →
        s.holding (.feeder f) = some h → h.holder = p →
        ((s.config f).farLink = v.farLink → (s.config f).farFeeder = v.farFeeder →
          ∃ t, exec (.setFeeder p) s = .next t ∧ SetsDone s t p 0x71 tag (.feeder f) h s.station.leaseTime ∧
            t.settings = { s.settings with feeders := s.settings.feeders.set f v } ∧ t.feeders = s.feeders ∧
            t.sections = s.sections ∧ t.faults = s.faults ∧ t.sample = s.sample ∧ t.events = s.events ∧
            t.rect = s.rect ∧ t.runners = s.runners ∧ t.time = s.time) ∧
        ((s.config f).farLink ≠ v.farLink ∨ (s.config f).farFeeder ≠ v.farFeeder →
          ((s.section' f).claim ≠ .idle ∨ (s.config f).inService = true ∧ (s.feeder f).state ≠ .opened ∧
              (s.feeder f).state ≠ .lockedOut → exec (.setFeeder p) s =
            .next ((s.dropBuffer p).answered p 0x71 tag (.refused (.interlocked .state)) .empty)) ∧
          ((s.section' f).claim = .idle →
            ((s.config f).inService = false ∨ (s.feeder f).state = .opened ∨ (s.feeder f).state = .lockedOut) →
            ∃ t, exec (.setFeeder p) s = .next t ∧ SetsDone s t p 0x71 tag (.feeder f) h s.station.leaseTime ∧
              t.settings = { s.settings with feeders := s.settings.feeders.set f v } ∧
              t.section' f = { s.section' f with
                farState := none, farSeen := none, staleFrom := none, heard := false,
                matching := if v.farLink = none then .noFarEnd else .mismatch } ∧
              t.feeder f = { s.feeder f with group := if v.farLink = none then .normal else .isolated } ∧
              t.fault f = (s.fault f).regrouped (s.feeder f).group (t.feeder f).group ∧
              (∀ g, g ≠ f → t.feeder g = s.feeder g ∧ t.section' g = s.section' g ∧ t.fault g = s.fault g) ∧
              t.sample = s.sample ∧ t.rect = s.rect ∧ t.time = s.time ∧
              ∀ l, v.farLink = some l → (s.link l).state = .up →
                (t.link l).queued.get (feederSegment f) = true)) := by
  have run : exec (.setFeeder p) s = takeRequest p 0x71 (withArgs readSetFeeder (handleSetFeeder p)) s := rfl
  refine ⟨fun unread => run.trans (takeRequest_refused offers (withArgs_fails _ (readSetFeeder_eq_none unread))),
    fun f v sets => ⟨fun unready => ?_, fun h ready station inside held own => ?_⟩⟩
  · exact run.trans (takeRequest_refused offers
      ((setFeeder_asks p _ sets).trans (withReady_unready (u := s.dropBuffer p) _ unready)))
  · have asks := setFeeder_asksReady (u := s.dropBuffer p) p sets ready
    have differs_iff := FeederSettings.partnerDiffers_iff (s.config f) v
    have free_iff := State.partnerFree_iff (s.dropBuffer p) f
    refine ⟨fun sameLink sameFeeder => ?plain, fun differs => ⟨fun busy => ?busy, fun idle resting => ?partner⟩⟩
    case plain =>
      have same : ¬((s.dropBuffer p).config f).partnerDiffers v = true := fun differs =>
        (differs_iff.mp differs).elim (absurd sameLink) (absurd sameFeeder)
      have carries := settingDone offers run asks station inside held own (changeFeeder_plain same)
      obtain ⟨links, taken⟩ := setFeederTo_plain same
      rw [taken] at carries
      have carried : SettingsCarried (s.dropBuffer p) { (s.dropBuffer p).feederTaken f v with links := links } :=
        ⟨rfl, rfl, rfl, rfl, rfl, rfl, rfl, rfl, rfl, rfl⟩
      have done := carried.done held 0x71 tag
      obtain ⟨entries, ports, answered⟩ := renewedAnswered_frame
        { (s.dropBuffer p).feederTaken f v with links := links } [.feeder f] p 0x71 tag .done .empty
      rw [answered] at carries done
      exact ⟨_, carries, done, rfl, rfl, rfl, rfl, rfl, rfl, rfl, rfl, rfl⟩
    case busy =>
      have locked : ¬(s.dropBuffer p).partnerFree f = true := fun free => by
        obtain ⟨resting, idle⟩ := free_iff.mp free
        obtain claimed | ⟨serves, closed, unlocked⟩ := busy
        · exact claimed idle
        · obtain out | opened | lockedOut := resting
          · exact Bool.false_ne_true (out.symm.trans serves)
          · exact closed opened
          · exact unlocked lockedOut
      exact settingRefused offers run asks station inside held own
        (changeFeeder_refused (s := s.dropBuffer p) (differs_iff.mpr differs) locked)
    case partner =>
      have carries := settingDone offers run asks station inside held own
        (changeFeeder_free (v := v) (free_iff.mpr ⟨resting, idle⟩))
      rw [setFeederTo_partner (s := s.dropBuffer p) (differs_iff.mpr differs)] at carries
      have carried := newPartner_carried (s.dropBuffer p) f v
      have quiet := newPartner_quiet ((s.dropBuffer p).feederTaken f v) f
      have record := newPartner_section ((s.dropBuffer p).feederTaken f v) f
      obtain ⟨group, detector⟩ := newPartner_groups ((s.dropBuffer p).feederTaken f v) f ready
      have others (g : Feeder) (differs : g ≠ f) := newPartner_other ((s.dropBuffer p).feederTaken f v) f differs
      obtain ⟨rect, time⟩ := newPartner_beside ((s.dropBuffer p).feederTaken f v) f
      have queues (l : LinkId) (far : v.farLink = some l) (up : (s.link l).state = .up) :=
        newPartner_queues ((s.dropBuffer p).feederTaken f v) f
          ((congrArg FeederSettings.farLink (feederTaken_config (s.dropBuffer p) f v)).trans far) up
      rw [feederTaken_config] at record group
      generalize State.newPartner _ f = u at *
      have done := carried.done held 0x71 tag
      have lease : u.station.leaseTime = s.station.leaseTime := congrArg (fun x => x.station.leaseTime) quiet.settings
      obtain ⟨entries, ports, answered⟩ := renewedAnswered_frame u [.feeder f] p 0x71 tag .done .empty
      rw [answered] at carries done
      rw [lease] at done
      refine ⟨_, carries, done, quiet.settings, record, group, detector, fun g differs => ?_, quiet.sample, rect, time, queues⟩
      have same := others g differs
      exact ⟨congrArg Prod.fst same, congrArg (fun x => x.2.1) same, congrArg (fun x => x.2.2) same⟩

end Sys2Proof.Machine

/-! SET SLOTS (01 R4, R5): which maps are locked, and what a new map leaves of the last frame. -/

namespace Sys2Proof.Machine

/-! ## A map that is refused (01 R4) -/

theorem readSlots_eq_none {body : List Byte} (sets : ∀ m, ¬SetsSlots body m) : readSlots body = none :=
  Option.eq_none_iff_forall_ne_some.mpr fun m reads => sets m (readSlots_eq_some.mp reads)

theorem SetsSlots.namesOnce {body : List Byte} {m : File SlotEntry 32} (sets : SetsSlots body m) : namesOnce m.cells = true := by
  obtain ⟨-, -, once⟩ := sets
  exact namesOnce_file.mpr once

theorem RectState.started_iff (x : RectState) : x.started = true ↔ x ≠ .blocked ∧ x ≠ .tripped := by
  cases x <;> simp [RectState.started]

theorem FeederState.resting_eq_false (x : FeederState) : x.resting = false ↔ x ≠ .opened ∧ x ≠ .lockedOut := by
  cases x <;> simp [FeederState.resting]

theorem State.entryLocked_iff (s : State) (e : SlotEntry) : s.entryLocked e = true ↔ s.namesBusy e := by
  cases e <;> simp [State.entryLocked, State.namesBusy, RectState.started_iff, FeederState.resting_eq_false, and_assoc]

theorem File.mem_zip {α β : Type} {n : Nat} {v : File α n} {w : File β n} {x : α × β} :
    x ∈ v.cells.zip w.cells ↔ ∃ i, (v.get i, w.get i) = x := by
  simp only [List.mem_iff_getElem, List.getElem_zip, List.length_zip, v.size, w.size, File.get_eq_getElem]
  exact ⟨fun ⟨i, below, found⟩ => ⟨⟨i, by omega⟩, found⟩, fun ⟨i, found⟩ => ⟨i, by omega, found⟩⟩

theorem State.mapLocked_iff (s : State) (m : File SlotEntry 32) : s.mapLocked m = true ↔ s.changesBusy m := by
  simp only [State.mapLocked, List.any_eq_true, File.mem_zip, Bool.and_eq_true, Bool.or_eq_true, bne_iff_ne,
    State.entryLocked_iff, State.changesBusy]
  constructor
  · rintro ⟨_, ⟨n, rfl⟩, changes, busy⟩
    exact ⟨n, Ne.symm changes, busy.symm⟩
  · rintro ⟨n, changes, busy⟩
    exact ⟨_, ⟨n, rfl⟩, Ne.symm changes, busy.symm⟩

section setMap

variable {s : State} {m : File SlotEntry 32} (once : namesOnce m.cells = true)
include once

theorem setMap_refused (busy : s.changesBusy m) : setMap m s = refuse (.interlocked .state) s := by
  unfold setMap
  rw [once, (s.mapLocked_iff m).mpr busy]
  rfl

theorem setMap_done (free : ¬s.changesBusy m) : setMap m s = done (s.newMap m).markChanged := by
  unfold setMap
  rw [once, if_neg (mt (s.mapLocked_iff m).mp free)]
  rfl

end setMap

/-! ## The quantities a map assigns (01 R5) -/

theorem assigned_iff (m : File SlotEntry 32) (e : SlotEntry) : assigned m e = true ↔ ∃ n, m.get n = e := by
  rw [assigned, List.contains_iff_mem, File.mem_cells]

theorem not_assigned {m : File SlotEntry 32} {e : SlotEntry} (unnamed : ∀ n, m.get n ≠ e) : assigned m e = false :=
  Bool.eq_false_iff.mpr fun named => by
    obtain ⟨n, found⟩ := (assigned_iff m e).mp named
    exact unnamed n found

theorem keepIf_assigned {m : File SlotEntry 32} {e : SlotEntry} (named : ∃ n, m.get n = e) (x : Option Int) :
    keepIf (assigned m e) x = x := by
  rw [(assigned_iff m e).mpr named]
  rfl

theorem keepIf_unassigned {m : File SlotEntry 32} {e : SlotEntry} (unnamed : ∀ n, m.get n ≠ e) (x : Option Int) :
    keepIf (assigned m e) x = none := by
  rw [not_assigned unnamed]
  rfl

/-- The values that stay under a map, quantity by quantity. -/
structure ValuesUnder (m : File SlotEntry 32) (q r : Quantities) (f : Feeder) : Prop where
  current : (∃ n, m.get n = .feederCurrent f) → r.ifs.get f = q.ifs.get f
  noCurrent : (∀ n, m.get n ≠ .feederCurrent f) → r.ifs.get f = none
  voltage : (∃ n, m.get n = .feederVoltage f) → r.ufs.get f = q.ufs.get f
  noVoltage : (∀ n, m.get n ≠ .feederVoltage f) → r.ufs.get f = none
  bus : (∃ n, m.get n = .busVoltage) → r.ub = q.ub
  noBus : (∀ n, m.get n ≠ .busVoltage) → r.ub = none
  rect : (∃ n, m.get n = .rectifierCurrent) → r.ir = q.ir
  noRect : (∀ n, m.get n ≠ .rectifierCurrent) → r.ir = none

theorem Quantities.under_values (q : Quantities) (m : File SlotEntry 32) (f : Feeder) : ValuesUnder m q (q.under m) f where
  current named := (File.get_ofList_eight ..).trans (keepIf_assigned named _)
  noCurrent unnamed := (File.get_ofList_eight ..).trans (keepIf_unassigned unnamed _)
  voltage named := (File.get_ofList_eight ..).trans (keepIf_assigned named _)
  noVoltage unnamed := (File.get_ofList_eight ..).trans (keepIf_unassigned unnamed _)
  bus named := keepIf_assigned named _
  noBus unnamed := keepIf_unassigned unnamed _
  rect named := keepIf_assigned named _
  noRect unnamed := keepIf_unassigned unnamed _

/-! ## Blindness (03 R42) -/

theorem blindAll_fault (s : State) (since : Instant) (blinds : Feeder → Bool) (f : Feeder) :
    (s.blindAll since blinds).fault f = if blinds f then (s.fault f).blindFrom since else s.fault f := File.get_ofList_eight ..

theorem FaultRecord.blindFrom_seeing {d : FaultRecord} (since : Instant) (seeing : d.blindSince = none) :
    d.blindFrom since = { d with blindSince := some since } := by
  rw [blindFrom, seeing]
  rfl

theorem FaultRecord.blindFrom_blind {d : FaultRecord} (since : Instant) (blind : d.blindSince ≠ none) : d.blindFrom since = d := by
  obtain ⟨x, before⟩ := Option.ne_none_iff_exists'.mp blind
  rw [blindFrom, before, Option.getD_some, ← before]

theorem FaultRecord.blindFrom_again (d : FaultRecord) (since again : Instant) :
    (d.blindFrom since).blindFrom again = d.blindFrom since := blindFrom_blind again nofun

/-- A new map, before the port is disabled or started by it. -/
def State.mapTaken (s : State) (m : File SlotEntry 32) : State :=
  { s with
    settings := { s.settings with slotMap := m },
    sample := { s.sample with last := { s.sample.last with values := s.sample.last.values.under m } } }.blindAll s.now
      fun f => !assigned m (.feederCurrent f)

section mapTaken

variable {s : State} {m : File SlotEntry 32} {f : Feeder}

theorem mapTaken_fault (unassigned : ∀ n, m.get n ≠ .feederCurrent f) : (s.mapTaken m).fault f = (s.fault f).blindFrom s.now :=
  (blindAll_fault ..).trans (if_pos (congrArg not (not_assigned unassigned)))

theorem mapTaken_seeing (seeing : (s.fault f).blindSince = none) (unassigned : ∀ n, m.get n ≠ .feederCurrent f) :
    (s.mapTaken m).fault f = { s.fault f with blindSince := some s.now } :=
  (mapTaken_fault unassigned).trans (FaultRecord.blindFrom_seeing _ seeing)

theorem mapTaken_stands (stands : (s.fault f).blindSince ≠ none ∨ ∃ n, m.get n = .feederCurrent f) :
    (s.mapTaken m).fault f = s.fault f := by
  by_cases named : ∃ n, m.get n = .feederCurrent f
  · exact (blindAll_fault ..).trans (if_neg (by simp [(assigned_iff ..).mpr named]))
  · exact (mapTaken_fault (not_exists.mp named)).trans (FaultRecord.blindFrom_blind _ (stands.resolve_right named))

end mapTaken

end Sys2Proof.Machine

/-! SET SLOTS (01 R4, R5): the port disabled by an empty map, and the answers. -/

namespace Sys2Proof.Machine

/-! ## Leaving VALID at what is not tested (01 R14) -/

theorem leavesValid_time (s : State) : s.leavesValid.time = s.time := by
  obtain ⟨l, perm, runs⟩ := Runs.together lossParts s.lossTold
  obtain ⟨captures, events, choices, frame⟩ := s.lossTold_frame
  have told : s.lossTold.time = s.time := by rw [frame]
  rw [State.leavesValid_eq]
  refine (runs.leaves (view := State.time) (fun _ _ => rfl) fun part member u => ?_).trans told
  obtain ⟨f, rfl⟩ | ⟨n, rfl⟩ | waits := mem_lossParts.mp (perm.mem_iff.mp member)
  · exact (time_apart f).measurementLoss u
  · exact timeView.truncateCapture u n
  · exact timeView.waitParts u waits

theorem leavesValid_untestedAll {s : State} (untested : ∀ f, (s.feeder f).state ≠ .testing) :
    s.leavesValid.feeders = s.feeders ∧ s.leavesValid.sections = s.sections ∧ s.leavesValid.links = s.links := by
  obtain ⟨u, -, found, -, -, alone⟩ := s.leavesValid_feeder 0
  obtain ⟨⟨sections, links⟩, sections', links'⟩ := alone fun g _ => untested g
  have same : u.feeder 0 = s.feeder 0 := congrArg Prod.fst found
  rw [measurementLoss_stands (same ▸ untested 0)] at sections' links'
  exact ⟨File.ext_get fun f => State.leavesValid_untested (untested f), sections'.trans sections, links'.trans links⟩

/-! ## Entry into DISABLED (01 R5, R14) -/

/-- The port in DISABLED. -/
def SamplePort.disabled (x : SamplePort) : SamplePort :=
  { x with
    state := .disabled, reception := .idle, primed := false, reference := none, frameWatch := none, outageStart := none,
    last := LastFrame.absent }

/-- The state in DISABLED, before the notices of leaving VALID. -/
def State.portDisabled (s : State) : State :=
  ((s.modSample SamplePort.disabled).addEntry .measurementDisabled .nothing .protection).blindAll s.now fun _ => true

/-- What leaves VALID by it has told the feeders and the captures. -/
def State.disabledTold (s : State) : State := if s.sample.state = .valid then s.portDisabled.leavesValid else s.portDisabled

section enterDisabled

variable (s : State)

theorem enterDisabled_eq : s.enterDisabled = s.disabledTold.emptyHistories := rfl

theorem portDisabled_frame : ∃ events choices faults, s.portDisabled =
    { s with sample := s.sample.disabled, events := events, choices := choices, faults := faults } := ⟨_, _, _, rfl⟩

theorem portDisabled_adds : AddsEntry s s.portDisabled fun e =>
    e.kind = .measurementDisabled ∧ e.subject = .nothing ∧ e.origin = .protection :=
  (AddsEntry.add (s.modSample SamplePort.disabled) ..).mono fun _ ⟨kind, subject, origin, _⟩ => ⟨kind, subject, origin⟩

theorem portDisabled_fault (f : Feeder) : s.portDisabled.fault f = (s.fault f).blindFrom s.now :=
  (blindAll_fault ..).trans (if_pos rfl)

theorem disabledTold_quiet : Quiet s.portDisabled s.disabledTold := by
  unfold State.disabledTold
  split
  · exact s.portDisabled.lossTold_quiet.trans s.portDisabled.leavesValid_keeps.quiet
  · exact .refl _

theorem disabledTold_time : s.disabledTold.time = s.time := by
  unfold State.disabledTold
  split
  · exact leavesValid_time s.portDisabled
  · rfl

theorem disabledTold_fault (f : Feeder) : s.disabledTold.fault f = (s.fault f).blindFrom s.now := by
  refine Eq.trans ?_ (portDisabled_fault s f)
  unfold State.disabledTold
  split
  · exact State.leavesValid_fault
  · rfl

variable {s}

theorem disabledTold_untested (untested : s.sample.state ≠ .valid ∨ ∀ f, (s.feeder f).state ≠ .testing) :
    s.disabledTold.feeders = s.feeders ∧ s.disabledTold.sections = s.sections ∧ s.disabledTold.links = s.links := by
  unfold State.disabledTold
  split
  · next valid => exact leavesValid_untestedAll (s := s.portDisabled) (untested.resolve_left (absurd valid))
  · exact ⟨rfl, rfl, rfl⟩

theorem disabledTold_captures (valid : s.sample.state = .valid) : ∃ u, LateFrameReaches s s.disabledTold s.captures u ∧
    (∀ n, u.buffers.get n = none → s.disabledTold.captures.buffers.get n = none) ∧
    ∀ n c, u.buffers.get n = some c →
      (c.held = false → BecomesHeld s s.disabledTold n { c with held := true, truncated := true }) ∧
      (c.held = true → s.disabledTold.captures.buffers.get n = some c) := by
  have grows : Grows s.events s.portDisabled.events := .entry _ (.refl _) rfl
  obtain ⟨u, reached, -, -, free, buffers⟩ := s.portDisabled.leavesValid_captures
  unfold State.disabledTold
  rw [if_pos valid]
  refine ⟨u, reached.grows grows (.refl _), free, fun n c taken => ?_⟩
  obtain ⟨filling, held⟩ := buffers n c taken
  refine ⟨fun fills => ?_, held⟩
  obtain ⟨becomes, adds⟩ := filling fills
  exact ⟨becomes, AddsEntry.earlier adds grows⟩

end enterDisabled

/-! ## A new map (01 R5) -/

/-- An empty map has disabled the port. -/
def DisablesPort (s t : State) : Prop :=
  t.sample.state = .disabled ∧ t.sample.primed = false ∧
    t.sample.reference = none ∧ t.sample.frameWatch = none ∧ t.sample.outageStart = none ∧
    t.sample.last = { values := Quantities.absent, number := none, time := none } ∧
    (∀ f, t.captures.histories.get f = []) ∧ t.captures.late = none ∧
    (s.sample.state = .valid → ∃ u, LateFrameReaches s t s.captures u ∧
      (∀ n, u.buffers.get n = none → t.captures.buffers.get n = none) ∧
      ∀ n c, u.buffers.get n = some c →
        (c.held = false → BecomesHeld s t n { c with held := true, truncated := true }) ∧
        (c.held = true → t.captures.buffers.get n = some c)) ∧
    AddsEntry s t fun e => e.kind = .measurementDisabled ∧ e.subject = .nothing ∧ e.origin = .protection

/-- What a new map does, the store marked. -/
structure TakesMap (s t : State) (m : File SlotEntry 32) : Prop where
  carried : SettingsCarried s t
  settings : t.settings = { s.settings with slotMap := m }
  time : t.time = s.time
  blinded : ∀ f, (s.fault f).blindSince = none → (∀ n, m.get n ≠ .feederCurrent f) →
    t.fault f = { s.fault f with blindSince := some s.now }
  faultStands : ∀ f, (s.fault f).blindSince ≠ none ∨ (∃ n, m.get n = .feederCurrent f) → t.fault f = s.fault f
  untested : s.sample.state ≠ .valid ∨ ¬NoQuantity m ∨ (∀ f, (s.feeder f).state ≠ .testing) →
    t.feeders = s.feeders ∧ t.sections = s.sections ∧ t.links = s.links
  disables : NoQuantity m → ¬NoQuantity s.settings.slotMap → DisablesPort s t
  starts : ¬NoQuantity m → NoQuantity s.settings.slotMap → t.sample.state = .starting ∧ t.sample.primed = false ∧
    t.sample.frameWatch = some s.now
  portStands : (NoQuantity m ↔ NoQuantity s.settings.slotMap) → t.sample = { s.sample with
    last := { s.sample.last with values := t.sample.last.values } }
  values : ¬NoQuantity m → ∀ f, ValuesUnder m s.sample.last.values t.sample.last.values f

section newMap

variable {s : State} {m : File SlotEntry 32}

/-- A new map that does not disable the port changes its record `x` only, and what is blind. -/
theorem takesMap_kept {x : SamplePort} (values : x.last.values = s.sample.last.values.under m)
    (still : NoQuantity m → NoQuantity s.settings.slotMap)
    (starts : ¬NoQuantity m → NoQuantity s.settings.slotMap → x.state = .starting ∧ x.primed = false ∧ x.frameWatch = some s.now)
    (stands : (NoQuantity m ↔ NoQuantity s.settings.slotMap) →
      x = { s.sample with last := { s.sample.last with values := x.last.values } }) :
    TakesMap s { s.mapTaken m with sample := x, store := { s.store with changed := true } } m where
  carried := ⟨rfl, rfl, rfl, rfl, rfl, rfl, rfl, rfl, rfl, rfl⟩
  settings := rfl
  time := rfl
  blinded f seeing unassigned := mapTaken_seeing seeing unassigned
  faultStands f stands := mapTaken_stands stands
  untested _ := ⟨rfl, rfl, rfl⟩
  disables none some := absurd (still none) some
  starts := starts
  portStands := stands
  values _ f := by
    show ValuesUnder m _ x.last.values f
    rw [values]
    exact s.sample.last.values.under_values m f

/-- A map emptied disables the port. -/
theorem takesMap_disabled (none : NoQuantity m) (some : ¬NoQuantity s.settings.slotMap) :
    TakesMap s (s.mapTaken m).enterDisabled.markChanged m := by
  have unassigned (f : Feeder) (n : Fin 32) : m.get n ≠ .feederCurrent f := by
    rw [none n]
    nofun
  have quiet := disabledTold_quiet (s.mapTaken m)
  have time := disabledTold_time (s.mapTaken m)
  have fault (f : Feeder) : (s.mapTaken m).disabledTold.fault f = (s.fault f).blindFrom s.now := by
    rw [disabledTold_fault, mapTaken_fault (unassigned f)]
    exact FaultRecord.blindFrom_again ..
  have untested := disabledTold_untested (s := s.mapTaken m)
  have captures := disabledTold_captures (s := s.mapTaken m)
  have adds := portDisabled_adds (s.mapTaken m)
  obtain ⟨record, counter, faults, frame⟩ := portDisabled_frame (s.mapTaken m)
  rw [enterDisabled_eq]
  generalize State.disabledTold _ = w at *
  generalize State.portDisabled _ = b at *
  subst frame
  exact {
    carried := ⟨quiet.ports, congrArg (fun x : SettingsStore => { x with changed := true }) quiet.store, quiet.authority,
      quiet.now, quiet.inputs, quiet.acInput, quiet.key, quiet.clock, quiet.slots, quiet.headers⟩
    settings := quiet.settings
    time := time
    blinded := fun f seeing _ => (fault f).trans (FaultRecord.blindFrom_seeing _ seeing)
    faultStands := fun f stands => (fault f).trans
      (FaultRecord.blindFrom_blind _ (stands.resolve_right fun ⟨n, named⟩ => unassigned f n named))
    untested := fun stands => untested (stands.imp_right fun stands => stands.resolve_left (absurd none))
    disables := fun _ _ => by
      have port : w.sample = SamplePort.disabled _ := quiet.sample
      refine ⟨?_, ?_, ?_, ?_, ?_, ?_, fun f => File.get_fill .., rfl, captures, adds.later quiet.grows⟩ <;>
        exact congrArg _ port
    starts := fun some' _ => absurd none some'
    portStands := fun same => absurd (same.mp none) some
    values := fun some' => absurd none some' }

theorem newMap_takes (s : State) (m : File SlotEntry 32) : TakesMap s (s.newMap m).markChanged m := by
  have cases : s.newMap m = if emptyMap m then
      (if emptyMap s.settings.slotMap then s.mapTaken m else (s.mapTaken m).enterDisabled)
    else if emptyMap s.settings.slotMap then
      (s.mapTaken m).modSample fun x => { x with state := .starting, primed := false, frameWatch := some s.now }
    else s.mapTaken m := rfl
  rw [cases]
  by_cases new : NoQuantity m <;> by_cases old : NoQuantity s.settings.slotMap
  · rw [if_pos ((emptyMap_iff _).mpr new), if_pos ((emptyMap_iff _).mpr old)]
    exact takesMap_kept rfl (fun _ => old) (fun some => absurd new some) fun _ => rfl
  · rw [if_pos ((emptyMap_iff _).mpr new), if_neg (mt (emptyMap_iff _).mp old)]
    exact takesMap_disabled new old
  · rw [if_neg (mt (emptyMap_iff _).mp new), if_pos ((emptyMap_iff _).mpr old)]
    exact takesMap_kept rfl (fun _ => old) (fun _ _ => ⟨rfl, rfl, rfl⟩) fun same => absurd (same.mpr old) new
  · rw [if_neg (mt (emptyMap_iff _).mp new), if_neg (mt (emptyMap_iff _).mp old)]
    exact takesMap_kept rfl (fun none => absurd none new) (fun _ none => absurd none old) fun _ => rfl

end newMap

end Sys2Proof.Machine

/-! The settings requests and the end of the store's write (11 R204, R205; 01 R4, R5; 02 R31; 06 R128). -/

namespace Sys2Proof.Machine

theorem slotsRequested (p : Port) (tag : Byte) (body : List Byte) (s : State) (offers : s.offers p 0x72 tag body) :
    ((∀ m, ¬SetsSlots body m) → exec (.setSlots p) s =
      .next ((s.dropBuffer p).answered p 0x72 tag (.refused .badArgument) .empty)) ∧
    ∀ m h, SetsSlots body m → p ≠ .G → ¬Excludes s.authority.location p →
      s.holding .rectifier = some h → h.holder = p →
      (s.changesBusy m → exec (.setSlots p) s =
        .next ((s.dropBuffer p).answered p 0x72 tag (.refused (.interlocked .state)) .empty)) ∧
      (¬s.changesBusy m → ∃ t, exec (.setSlots p) s = .next t ∧
        SetsDone s t p 0x72 tag .rectifier h s.station.leaseTime ∧ t.settings = { s.settings with slotMap := m } ∧
        t.time = s.time ∧
        (∀ f, (s.fault f).blindSince = none → (∀ n, m.get n ≠ .feederCurrent f) →
          t.fault f = { s.fault f with blindSince := some s.now }) ∧
        (∀ f, (s.fault f).blindSince ≠ none ∨ (∃ n, m.get n = .feederCurrent f) → t.fault f = s.fault f) ∧
        (s.sample.state ≠ .valid ∨ ¬NoQuantity m ∨ (∀ f, (s.feeder f).state ≠ .testing) →
          t.feeders = s.feeders ∧ t.sections = s.sections ∧ t.links = s.links) ∧
        (NoQuantity m → ¬NoQuantity s.settings.slotMap → t.sample.state = .disabled ∧ t.sample.primed = false ∧
          t.sample.reference = none ∧ t.sample.frameWatch = none ∧ t.sample.outageStart = none ∧
          t.sample.last = { values := Quantities.absent, number := none, time := none } ∧
          (∀ f, t.captures.histories.get f = []) ∧ t.captures.late = none ∧
          (s.sample.state = .valid → ∃ u, LateFrameReaches s t s.captures u ∧
            (∀ n, u.buffers.get n = none → t.captures.buffers.get n = none) ∧
            ∀ n c, u.buffers.get n = some c →
              (c.held = false → BecomesHeld s t n { c with held := true, truncated := true }) ∧
              (c.held = true → t.captures.buffers.get n = some c)) ∧
          AddsEntry s t fun e => e.kind = .measurementDisabled ∧ e.subject = .nothing ∧ e.origin = .protection) ∧
        (¬NoQuantity m → NoQuantity s.settings.slotMap → t.sample.state = .starting ∧ t.sample.primed = false ∧
          t.sample.frameWatch = some s.now) ∧
        ((NoQuantity m ↔ NoQuantity s.settings.slotMap) → t.sample = { s.sample with
          last := { s.sample.last with values := t.sample.last.values } }) ∧
        ∀ f : Feeder, ¬NoQuantity m →
          ((∃ n, m.get n = .feederCurrent f) → t.sample.last.values.ifs.get f = s.sample.last.values.ifs.get f) ∧
          ((∀ n, m.get n ≠ .feederCurrent f) → t.sample.last.values.ifs.get f = none) ∧
          ((∃ n, m.get n = .feederVoltage f) → t.sample.last.values.ufs.get f = s.sample.last.values.ufs.get f) ∧
          ((∀ n, m.get n ≠ .feederVoltage f) → t.sample.last.values.ufs.get f = none) ∧
          ((∃ n, m.get n = .busVoltage) → t.sample.last.values.ub = s.sample.last.values.ub) ∧
          ((∀ n, m.get n ≠ .busVoltage) → t.sample.last.values.ub = none) ∧
          ((∃ n, m.get n = .rectifierCurrent) → t.sample.last.values.ir = s.sample.last.values.ir) ∧
          ((∀ n, m.get n ≠ .rectifierCurrent) → t.sample.last.values.ir = none)) := by
  have run : exec (.setSlots p) s = takeRequest p 0x72 (withArgs readSlots (handleSetSlots p)) s := rfl
  refine ⟨fun unread => run.trans (takeRequest_refused offers (withArgs_fails _ (readSlots_eq_none unread))),
    fun m h sets station inside held own => ⟨fun busy => ?_, fun free => ?_⟩⟩
  · exact settingRefused offers run (setSlots_asks p _ sets) station inside held own
      (setMap_refused (s := s.dropBuffer p) sets.namesOnce busy)
  · have carries := settingDone offers run (setSlots_asks p _ sets) station inside held own
      (setMap_done (s := s.dropBuffer p) sets.namesOnce free)
    have takes := newMap_takes (s.dropBuffer p) m
    generalize ((s.dropBuffer p).newMap m).markChanged = u at *
    have done := takes.carried.done held 0x72 tag
    have lease : u.station.leaseTime = s.station.leaseTime := congrArg (fun x => x.station.leaseTime) takes.settings
    obtain ⟨entries, ports, answered⟩ := renewedAnswered_frame u [.rectifier] p 0x72 tag .done .empty
    rw [answered] at carries done
    rw [lease] at done
    refine ⟨_, carries, done, takes.settings, takes.time, takes.blinded, takes.faultStands, takes.untested, takes.disables,
      takes.starts, takes.portStands, fun f some => ?_⟩
    have under := takes.values some f
    exact ⟨under.current, under.noCurrent, under.voltage, under.noVoltage, under.bus, under.noBus, under.rect, under.noRect⟩

/-- Settles O57, request by request: each is answered by a lemma of its own above. -/
theorem settingsAreSetAndCommitted : Obligations.SettingsAreSetAndCommitted := by
  unfold Obligations.SettingsAreSetAndCommitted
  exact ⟨fun _ _ _ _ _ _ _ offers names _ refuses => settingsRefused offers names refuses, stationRequested,
    feederSettingRequested, slotsRequested, commitRequested, fun _ _ => exec_commitWriteEnd⟩

end Sys2Proof.Machine
